-- ==== Sys2Proof/Word.lean ====
section
/-! DEFINITION. Sys2Proof/Word.lean: the machine's word types (R6, R9, 00_scope) and the sparse map in which register
files and memories are held as plain data. -/

namespace Sys2Proof

/-- A 32-bit register element (R47). -/
abbrev Word := BitVec 32
/-- One byte of memory (R227). -/
abbrev Byte := BitVec 8
/-- A 64-bit address or register pair (R48). -/
abbrev DWord := BitVec 64
/-- One 96-bit Jolisol instruction word (R46). -/
abbrev IWord := BitVec 96

/-- A sparse map from numbers to `w`-bit values. The canonical form is: keys strictly rising, no entry equal to 0,
which is what an unlisted key reads as (log 3). `SMap 8` is a list of `Host.Cell`. -/
abbrev SMap (w : Nat) := List (Nat × BitVec w)

end Sys2Proof
end

