-- ==== Sys2Proof/Syntax.lean ====
section
/-! DEFINITION. Sys2Proof/Syntax.lean: the one type of everything that happens in one step (spec/opcode_table.json):
Jolisol instructions, Luanil instructions, command packets, and the events and host acts to which the spec gives no
encoding. -/

namespace Sys2Proof

/-- A Jolisol instruction word less its MAJ field, which the constructor of `Instr` stands for (R46, Table 2-1). The
operand, guard and modifier fields are read through the named views of Machine/Operands.lean. -/
structure JWord where
  /-- MIN, the minor opcode [87:80]. -/
  min  : BitVec 8
  d    : BitVec 10
  a    : BitVec 10
  b    : BitVec 10
  grd  : BitVec 6
  gneg : Bool
  la   : BitVec 4
  hlda : Bool
  hldb : Bool
  uni  : Bool
  rnd  : BitVec 4
  /-- MOD, the modifier word [31:0] (Table 2-5). -/
  mod  : BitVec 32
  deriving DecidableEq, Repr, Inhabited

/-- A Luanil instruction word less its OP field, which the constructor stands for (R366, Table 13-5). -/
structure LWord where
  flags : BitVec 6
  slot  : BitVec 8
  key   : BitVec 12
  mask  : BitVec 32
  deriving DecidableEq, Repr, Inhabited

/-- A command packet less its type and length, which the constructor and the body stand for (R420). -/
structure Packet where
  flags : BitVec 12
  body  : List Word
  deriving DecidableEq, Repr, Inhabited

/-- A spindle: the team's number in the model's list of teams, and the spindle index (R28). -/
structure SpRef where
  team : Nat
  spx  : Nat
  deriving DecidableEq, Repr, Inhabited

/-- A fragment of a spindle (R24): fragment 0 is the spindle's first. -/
structure FragRef where
  sp   : SpRef
  frag : Nat
  deriving DecidableEq, Repr, Inhabited

/-- The twelve holders of line tokens (R195); `abuf` is the Caldera alias buffer and `home` is the line's home memory controller. -/
inductive Holder where
  | l2 (die : Nat)
  | dma (iod : Nat)
  | abuf
  | home
  deriving DecidableEq, Repr, Inhabited

/-- What a Luanil context or a member timer belongs to: a window, or an instance of a group (Table 13-2). -/
inductive Owner where
  | window (w : Nat)
  | inst (group k : Nat)
  deriving DecidableEq, Repr, Inhabited

/-- What comes over an Ultra Ethernet port (R383): a message sent in RUD mode, or a request that uses a feature that the
Caldera does not support. -/
inductive UeKind where
  | rudSend | rod | rudi | uud | remoteRead | remoteWrite | secured
  deriving DecidableEq, Repr, Inhabited

/-- A request received over an Ultra Ethernet port: the endpoint it came from, its kind, and its bytes, of a message the
32-byte header of R384 and the data. -/
structure UeMsg where
  port     : Nat
  endpoint : BitVec 64
  kind     : UeKind
  bytes    : List Byte
  deriving DecidableEq, Repr, Inhabited

/-- A host access through BAR2 (R474, R475): a read, a write of bytes, or an AtomicOp, which the package does not complete. -/
inductive HostReq where
  | read
  | write (data : List Byte)
  | atomicOp
  deriving DecidableEq, Repr, Inhabited

/-- The registers and tables that the host complex, the firmware core or the host writes and that have no row of their
own (REGISTER_WRITE, R7): a die's firmware registers (Table 14-7), its expert configuration (Table 11-3), window
entries, WBINDs, groups (Tables 12-1, 13-3, 13-4), the slot save area's base (R356), Lathe registers (Table 15-1), key
slots (R398), the mailboxes of BAR0 by offset in it (R475, R484), and the flash behind an I/O die (R478). -/
inductive HostReg where
  | dieReg (die num : Nat)
  | exdir (die : Nat) | exslb (die : Nat) | exsls (die : Nat) | exns (die : Nat) | exown (die : Nat)
  | window (w : Nat) | wbind (w : Nat) | group (g : Nat) | saveBase
  | lathe (off : Nat) | keySlot (owner : Nat) | mailbox (off : Nat)
  | flash (iod nsid off : Nat)
  /-- The mapping of a 512 KiB granule of a function's BAR2 (R475), and a range of CXL capacity that the host complex unmaps (R477):
  the model's own forms of what the host complex does (log 123). -/
  | bar2 (fn granule : Nat) | capacity (addr len : Nat)
  deriving DecidableEq, Repr, Inhabited

/-- One step of the part: one constructor per row of spec/opcode_table.json, Jolisol instructions
first, then Luanil instructions, packets, and events. -/
inductive Instr where
  /-- BRA (R100). -/
  | bra (w : JWord)
  /-- BRD (R93). -/
  | brd (w : JWord)
  /-- JMPS (R101). -/
  | jmps (w : JWord)
  /-- CALL (R101). -/
  | call (w : JWord)
  /-- CALLS (R101). -/
  | calls (w : JWord)
  /-- RET (R101). -/
  | ret (w : JWord)
  /-- IF (R91). -/
  | ifI (w : JWord)
  /-- ELSE (R91). -/
  | elseI (w : JWord)
  /-- ENDIF (R91). -/
  | endif (w : JWord)
  /-- LOOP (R91). -/
  | loopI (w : JWord)
  /-- BREAK (R91). -/
  | breakI (w : JWord)
  /-- CONT (R91). -/
  | contI (w : JWord)
  /-- ENDLOOP (R91). -/
  | endloop (w : JWord)
  /-- EXIT (R102). -/
  | exitI (w : JWord)
  /-- RFL (R103). -/
  | rfl (w : JWord)
  /-- GETID (R104). -/
  | getid (w : JWord)
  /-- NOP (R105). -/
  | nop (w : JWord)
  /-- SLEEP (R106). -/
  | sleep (w : JWord)
  /-- IADD (R112). -/
  | iadd (w : JWord)
  /-- ISUB (R112). -/
  | isub (w : JWord)
  /-- IADDX (R113). -/
  | iaddx (w : JWord)
  /-- IMUL (R112). -/
  | imul (w : JWord)
  /-- IMULHI (R112). -/
  | imulhi (w : JWord)
  /-- IMAD (R112). -/
  | imad (w : JWord)
  /-- IMADW (R114). -/
  | imadw (w : JWord)
  /-- IMIN (R112). -/
  | imin (w : JWord)
  /-- IMAX (R112). -/
  | imax (w : JWord)
  /-- IABS (R112). -/
  | iabs (w : JWord)
  /-- INEG (R112). -/
  | ineg (w : JWord)
  /-- AND (R116). -/
  | andI (w : JWord)
  /-- OR (R116). -/
  | orI (w : JWord)
  /-- XOR (R116). -/
  | xorI (w : JWord)
  /-- ANDN (R116). -/
  | andn (w : JWord)
  /-- NOT (R116). -/
  | notI (w : JWord)
  /-- SHL (R116). -/
  | shl (w : JWord)
  /-- SHR (R116). -/
  | shr (w : JWord)
  /-- SAR (R116). -/
  | sar (w : JWord)
  /-- ROT (R116). -/
  | rot (w : JWord)
  /-- FSHF (R117). -/
  | fshf (w : JWord)
  /-- BFE (R118). -/
  | bfe (w : JWord)
  /-- BFI (R118). -/
  | bfi (w : JWord)
  /-- BREV (R119). -/
  | brev (w : JWord)
  /-- CLZ (R119). -/
  | clz (w : JWord)
  /-- FFS (R119). -/
  | ffs (w : JWord)
  /-- POPC (R119). -/
  | popc (w : JWord)
  /-- ICMP (R120). -/
  | icmp (w : JWord)
  /-- SEL (R121). -/
  | sel (w : JWord)
  /-- MOV (R122). -/
  | mov (w : JWord)
  /-- MOVI (R122). -/
  | movi (w : JWord)
  /-- LEA (R123). -/
  | lea (w : JWord)
  /-- IDOT4 (R115). -/
  | idot4 (w : JWord)
  /-- PAND (R126). -/
  | pand (w : JWord)
  /-- POR (R126). -/
  | por (w : JWord)
  /-- PXOR (R126). -/
  | pxor (w : JWord)
  /-- PNOT (R126). -/
  | pnot (w : JWord)
  /-- P2V (R126). -/
  | p2v (w : JWord)
  /-- V2P (R126). -/
  | v2p (w : JWord)
  /-- BALLOT (R128). -/
  | ballot (w : JWord)
  /-- VOTE_ALL (R128). -/
  | voteAll (w : JWord)
  /-- VOTE_ANY (R128). -/
  | voteAny (w : JWord)
  /-- VOTE_SAME (R128). -/
  | voteSame (w : JWord)
  /-- PICK_AT (R129). -/
  | pickAt (w : JWord)
  /-- PICK_BELOW (R129). -/
  | pickBelow (w : JWord)
  /-- PICK_ABOVE (R129). -/
  | pickAbove (w : JWord)
  /-- PICK_FLIP (R129). -/
  | pickFlip (w : JWord)
  /-- GBALLOT_POPC (R130). -/
  | gballotPopc (w : JWord)
  /-- GBALLOT_ANY (R130). -/
  | gballotAny (w : JWord)
  /-- GBALLOT_ALL (R130). -/
  | gballotAll (w : JWord)
  /-- GBALLOT_PFX (R130). -/
  | gballotPfx (w : JWord)
  /-- GBALLOT_MASK (R130). -/
  | gballotMask (w : JWord)
  /-- GPICK_AT (R130). -/
  | gpickAt (w : JWord)
  /-- GPICK_BELOW (R130). -/
  | gpickBelow (w : JWord)
  /-- GPICK_ABOVE (R130). -/
  | gpickAbove (w : JWord)
  /-- GPICK_FLIP (R130). -/
  | gpickFlip (w : JWord)
  /-- CVT (R157). -/
  | cvt (w : JWord)
  /-- CVTI (R158). -/
  | cvti (w : JWord)
  /-- CVTF (R159). -/
  | cvtf (w : JWord)
  /-- CVTPK (R160). -/
  | cvtpk (w : JWord)
  /-- CVTUP (R161). -/
  | cvtup (w : JWord)
  /-- FSCALE (R162). -/
  | fscale (w : JWord)
  /-- GETMODE (R163). -/
  | getmode (w : JWord)
  /-- GETMODE_GEN (R163). -/
  | getmodeGen (w : JWord)
  /-- SETMODE (R164). -/
  | setmode (w : JWord)
  /-- SETMODE_IMM (R164). -/
  | setmodeImm (w : JWord)
  /-- SETMODE_GEN (R164). -/
  | setmodeGen (w : JWord)
  /-- FADD (R171). -/
  | fadd (w : JWord)
  /-- FSUB (R171). -/
  | fsub (w : JWord)
  /-- FMUL (R171). -/
  | fmul (w : JWord)
  /-- FFMA (R171). -/
  | ffma (w : JWord)
  /-- FMIN (R173). -/
  | fmin (w : JWord)
  /-- FMAX (R173). -/
  | fmax (w : JWord)
  /-- FCMP (R174). -/
  | fcmp (w : JWord)
  /-- FCLASS (R175). -/
  | fclass (w : JWord)
  /-- PKADD (R172). -/
  | pkadd (w : JWord)
  /-- PKMUL (R172). -/
  | pkmul (w : JWord)
  /-- PKFMA (R172). -/
  | pkfma (w : JWord)
  /-- RCP (R177). -/
  | rcp (w : JWord)
  /-- SQRT (R177). -/
  | sqrt (w : JWord)
  /-- RSQ (R178). -/
  | rsq (w : JWord)
  /-- EXP2 (R178). -/
  | exp2 (w : JWord)
  /-- LOG2 (R178). -/
  | log2 (w : JWord)
  /-- SIN (R178). -/
  | sin (w : JWord)
  /-- COS (R178). -/
  | cos (w : JWord)
  /-- TANH (R178). -/
  | tanh (w : JWord)
  /-- FSUM (R179). -/
  | fsum (w : JWord)
  /-- FMAXR (R180). -/
  | fmaxr (w : JWord)
  /-- LD (R215). -/
  | ld (w : JWord)
  /-- ST (R216). -/
  | st (w : JWord)
  /-- LDL (R215). -/
  | ldl (w : JWord)
  /-- STL (R216). -/
  | stl (w : JWord)
  /-- LDC (R215). -/
  | ldc (w : JWord)
  /-- STC (R216). -/
  | stc (w : JWord)
  /-- PREF (R218). -/
  | pref (w : JWord)
  /-- DISCARD (R219). -/
  | discard (w : JWord)
  /-- CCTL_WB (R220). -/
  | cctlWb (w : JWord)
  /-- CCTL_INV (R220). -/
  | cctlInv (w : JWord)
  /-- CCTL_IINV (R220). -/
  | cctlIinv (w : JWord)
  /-- CCTL_INVRS (R220). -/
  | cctlInvrs (w : JWord)
  /-- CCTL_WBALL (R220). -/
  | cctlWball (w : JWord)
  /-- QCFG (R221). -/
  | qcfg (w : JWord)
  /-- QCFG_FREE (R221). -/
  | qcfgFree (w : JWord)
  /-- QSTAT_POS (R222). -/
  | qstatPos (w : JWord)
  /-- QSTAT_LEFT (R222). -/
  | qstatLeft (w : JWord)
  /-- QSTAT_STAT (R222). -/
  | qstatStat (w : JWord)
  /-- WAIT (R223). -/
  | wait (w : JWord)
  /-- ATOM_ADD (R242). -/
  | atomAdd (w : JWord)
  /-- ATOM_MIN (R242). -/
  | atomMin (w : JWord)
  /-- ATOM_MAX (R242). -/
  | atomMax (w : JWord)
  /-- ATOM_AND (R242). -/
  | atomAnd (w : JWord)
  /-- ATOM_OR (R242). -/
  | atomOr (w : JWord)
  /-- ATOM_XOR (R242). -/
  | atomXor (w : JWord)
  /-- ATOM_EXCH (R242). -/
  | atomExch (w : JWord)
  /-- ATOM_FADD (R243). -/
  | atomFadd (w : JWord)
  /-- ATOM_BFADD (R243). -/
  | atomBfadd (w : JWord)
  /-- ACAS (R242). -/
  | acas (w : JWord)
  /-- RED_ADD (R242). -/
  | redAdd (w : JWord)
  /-- RED_MIN (R242). -/
  | redMin (w : JWord)
  /-- RED_MAX (R242). -/
  | redMax (w : JWord)
  /-- RED_AND (R242). -/
  | redAnd (w : JWord)
  /-- RED_OR (R242). -/
  | redOr (w : JWord)
  /-- RED_XOR (R242). -/
  | redXor (w : JWord)
  /-- RED_FADD (R243). -/
  | redFadd (w : JWord)
  /-- RED_BFADD (R243). -/
  | redBfadd (w : JWord)
  /-- BAR_T (R250). -/
  | barT (w : JWord)
  /-- BAR_C (R250). -/
  | barC (w : JWord)
  /-- BAR_D (R250). -/
  | barD (w : JWord)
  /-- ARRIVE_T (R250). -/
  | arriveT (w : JWord)
  /-- ARRIVE_C (R250). -/
  | arriveC (w : JWord)
  /-- ARRIVE_D (R250). -/
  | arriveD (w : JWord)
  /-- ARRIVE_G (R256). -/
  | arriveG (w : JWord)
  /-- WAITB_T (R250). -/
  | waitbT (w : JWord)
  /-- WAITB_C (R250). -/
  | waitbC (w : JWord)
  /-- WAITB_D (R250). -/
  | waitbD (w : JWord)
  /-- BOWAIT (R257). -/
  | bowait (w : JWord)
  /-- TCOPY (R272). -/
  | tcopy (w : JWord)
  /-- TSTORE (R273). -/
  | tstore (w : JWord)
  /-- TGATHER (R272). -/
  | tgather (w : JWord)
  /-- TSCATTER (R273). -/
  | tscatter (w : JWord)
  /-- TFILL (R275). -/
  | tfill (w : JWord)
  /-- MMA (R287). -/
  | mma (w : JWord)
  /-- ACCLD (R301). -/
  | accld (w : JWord)
  /-- ACCST (R302). -/
  | accst (w : JWord)
  /-- ACCZ (R303). -/
  | accz (w : JWord)
  /-- TFETCH (R321). -/
  | tfetch (w : JWord)
  /-- TFETCH_X (R321). -/
  | tfetchX (w : JWord)
  /-- TFETCH_XE (R321). -/
  | tfetchXe (w : JWord)
  /-- TRETIRE (R322). -/
  | tretire (w : JWord)
  /-- ROUTE (R324). -/
  | route (w : JWord)
  /-- EXACQ (R326). -/
  | exacq (w : JWord)
  /-- EXREL (R327). -/
  | exrel (w : JWord)
  /-- DQSTAT_Q (R328). -/
  | dqstatQ (w : JWord)
  /-- DQSTAT_ERT (R328). -/
  | dqstatErt (w : JWord)
  /-- DQSTAT_GY (R328). -/
  | dqstatGy (w : JWord)
  /-- DQSTAT_HAND (R328). -/
  | dqstatHand (w : JWord)
  /-- COLL (R351). -/
  | coll (w : JWord)
  /-- PROGV (R351). -/
  | progv (w : JWord)
  /-- COLLSTAT (R351). -/
  | collstat (w : JWord)
  /-- COLLSTAT_W (R351). -/
  | collstatW (w : JWord)
  /-- TRAP (R409). -/
  | trapI (w : JWord)
  /-- ERET (R410). -/
  | eret (w : JWord)
  /-- RDSYS (R411). -/
  | rdsys (w : JWord)
  /-- WRSYS (R411). -/
  | wrsys (w : JWord)
  /-- ROLESW (R412). -/
  | rolesw (w : JWord)
  /-- BKPT (R409). -/
  | bkpt (w : JWord)
  /-- TLBINV_PAGE (R413). -/
  | tlbinvPage (w : JWord)
  /-- TLBINV_OWN (R413). -/
  | tlbinvOwn (w : JWord)
  /-- TLBINV_ALL (R413). -/
  | tlbinvAll (w : JWord)
  /-- CTXSAVE (R414). -/
  | ctxsave (w : JWord)
  /-- CTXLOAD (R414). -/
  | ctxload (w : JWord)
  /-- HALT (R409). -/
  | halt (w : JWord)
  /-- MATCH (R370). -/
  | matchL (w : LWord)
  /-- CMB (R371). -/
  | cmb (w : LWord)
  /-- FWD (R375). -/
  | fwd (w : LWord)
  /-- FWD_MEM (R375). -/
  | fwdMem (w : LWord)
  /-- FWD_RANK (R375). -/
  | fwdRank (w : LWord)
  /-- GATH (R372). -/
  | gath (w : LWord)
  /-- SPILL (R374). -/
  | spill (w : LWord)
  /-- FILL_SAVE (R373). -/
  | fillSave (w : LWord)
  /-- FILL_SRC (R373). -/
  | fillSrc (w : LWord)
  /-- FILL_MEM (R373). -/
  | fillMem (w : LWord)
  /-- BOUPD (R376). -/
  | boupd (w : LWord)
  /-- CHK (R374). -/
  | chk (w : LWord)
  /-- PROGW (R377). -/
  | progw (w : LWord)
  /-- LUANIL_LOOP (R379). -/
  | luanilLoop (w : LWord)
  /-- ENDL (R379). -/
  | endl (w : LWord)
  /-- BNZ (R379). -/
  | bnz (w : LWord)
  /-- SETK (R379). -/
  | setk (w : LWord)
  /-- NEXTC (R378). -/
  | nextc (w : LWord)
  /-- DONE (R378). -/
  | doneL (w : LWord)
  /-- SETC (R379). -/
  | setc (w : LWord)
  /-- ADDC (R379). -/
  | addc (w : LWord)
  /-- JMP (R379). -/
  | jmp (w : LWord)
  /-- LUANIL_NOP (R379). -/
  | luanilNop (w : LWord)
  /-- NOP_PACKET (R420). -/
  | nopPacket (p : Packet)
  /-- LAUNCH (R436). -/
  | launch (p : Packet)
  /-- WRITE32 (R421). -/
  | write32 (p : Packet)
  /-- WRITE64 (R421). -/
  | write64 (p : Packet)
  /-- WAIT_MEM (R423). -/
  | waitMem (p : Packet)
  /-- ATOMIC_MEM_ADD (R423). -/
  | atomicMemAdd (p : Packet)
  /-- ATOMIC_MEM_AND (R423). -/
  | atomicMemAnd (p : Packet)
  /-- ATOMIC_MEM_OR (R423). -/
  | atomicMemOr (p : Packet)
  /-- ATOMIC_MEM_EXCH (R423). -/
  | atomicMemExch (p : Packet)
  /-- ATOMIC_MEM_CAS (R423). -/
  | atomicMemCas (p : Packet)
  /-- INDIRECT (R424). -/
  | indirect (p : Packet)
  /-- COND_BEGIN (R425). -/
  | condBegin (p : Packet)
  /-- COND_END (R425). -/
  | condEnd (p : Packet)
  /-- LOOP_BEGIN (R426). -/
  | loopBegin (p : Packet)
  /-- LOOP_END (R426). -/
  | loopEnd (p : Packet)
  /-- FETCH_FENCE (R432). -/
  | fetchFence (p : Packet)
  /-- COLLECTIVE (R427). -/
  | collective (p : Packet)
  /-- BO_SIGNAL (R428). -/
  | boSignal (p : Packet)
  /-- TIMESTAMP (R428). -/
  | timestamp (p : Packet)
  /-- DISCARD_RANGE (R428). -/
  | discardRange (p : Packet)
  /-- ERT_PRELOAD (R429). -/
  | ertPreload (p : Packet)
  /-- SET_SHARE (R430). -/
  | setShare (p : Packet)
  /-- RESYNC (R481). -/
  | resync (p : Packet)
  /-- SLEEP_EXPIRY (R106). -/
  | sleepExpiry (f : FragRef)
  /-- RENDEZVOUS (R131). -/
  | rendezvous (team role gang : Nat)
  /-- STREAM_FETCH (R208). -/
  | streamFetch (team port : Nat)
  /-- STREAM_PUSH_PERFORM (R209). -/
  | streamPushPerform (team port : Nat)
  /-- LOAD_DATA_ARRIVAL (R217). -/
  | loadDataArrival (sp : SpRef) (id : Nat)
  /-- ACCESS_DONE (R204). -/
  | accessDone (sp : SpRef) (id : Nat)
  /-- SYSTEM_MEMORY_TIMEOUT (R188). -/
  | systemMemoryTimeout (sp : SpRef) (id : Nat)
  /-- TRS (R197). -/
  | trs (msg : Nat)
  /-- TRX (R197). -/
  | trx (msg : Nat)
  /-- TOK (R197). -/
  | tok (msg : Nat)
  /-- WBK (R194). -/
  | wbk (msg : Nat)
  /-- PREQ (R199). -/
  | preq (msg : Nat)
  /-- PACT (R199). -/
  | pact (msg : Nat)
  /-- PDONE (R199). -/
  | pdone (msg : Nat)
  /-- PDEACT (R199). -/
  | pdeact (msg : Nat)
  /-- TRANSIENT_ATTEMPT_TIMEOUT (R198). -/
  | transientAttemptTimeout (h : Holder) (line : Nat)
  /-- L2_EVICTION (R194). -/
  | l2Eviction (die line : Nat)
  /-- BOWAIT_REREAD (R257). -/
  | bowaitReread (f : FragRef)
  /-- BARRIER_RELEASE (R253). -/
  | barrierRelease (f : FragRef)
  /-- COPY_ACCEPT (R258). -/
  | copyAccept (sp : SpRef) (id : Nat)
  /-- COPY_DONE (R258). -/
  | copyDone (sp : SpRef) (id : Nat)
  /-- MMA_GRANT (R293). -/
  | mmaGrant (die cluster : Nat)
  /-- MMA_PASS_START (R291). -/
  | mmaPassStart (die core : Nat)
  /-- MMA_BASIN_WRITE (R291). -/
  | mmaBasinWrite (die core : Nat)
  /-- BASIN_TILE_ACCESS (R304). -/
  | basinTileAccess (sp : SpRef) (id : Nat)
  /-- GEYSER_REFILL_REQUEST (R307). -/
  | geyserRefillRequest (grid die : Nat)
  /-- REFILL_GRANT (R307). -/
  | refillGrant (grid die : Nat)
  /-- PAGE_IN_COMPLETE (R316). -/
  | pageInComplete (die expert : Nat)
  /-- PAGE_IN_ERROR (R316). -/
  | pageInError (die expert : Nat)
  /-- INSTANCE_CHECK (R339). -/
  | instanceCheck (group k : Nat)
  /-- INSTANCE_RESTART (R349). -/
  | instanceRestart (group k : Nat)
  /-- ARRIVAL_HELD (R363). -/
  | arrivalHeld (msg : Nat)
  /-- UE_MESSAGE_RECEIVE (R384). -/
  | ueMessageReceive (m : UeMsg)
  /-- MEMBER_TIMEOUT (R347). -/
  | memberTimeout (o : Owner)
  /-- ARM_WINDOW (R331). -/
  | armWindow (w : Nat) (kind : BitVec 2)
  /-- DISARM_WINDOW (R358). -/
  | disarmWindow (w : Nat)
  /-- PROGRAM_LOAD (R365). -/
  | programLoad (first entry : Nat) (words : List (BitVec 64))
  /-- CONTEXT_AGED (R360). -/
  | contextAged (unit ctx : Nat)
  /-- ROLESW_ROWS_GRANTED (R412). -/
  | roleswRowsGranted (sp : SpRef)
  /-- FTQ_RECORD_WRITE (R391). -/
  | ftqRecordWrite (die : Nat)
  /-- SACT_RESUME (R392). -/
  | sactResume (die core spx : Nat)
  /-- SACT_SKIP (R392). -/
  | sactSkip (die core spx : Nat)
  /-- SACT_DELIVER (R392). -/
  | sactDeliver (die core spx : Nat)
  /-- SACT_END (R392). -/
  | sactEnd (die core spx : Nat)
  /-- SACT_ABORT (R392). -/
  | sactAbort (die core spx : Nat)
  /-- FRSV_RESOLVE (R401). -/
  | frsvResolve (die tenant vpn : Nat)
  /-- FRSV_FAIL (R401). -/
  | frsvFail (die tenant vpn : Nat)
  /-- PAGE_WALK_COMPLETE (R399). -/
  | pageWalkComplete (die tenant granule : Nat)
  /-- SPINDLE_UNPARK (R401). -/
  | spindleUnpark (sp : SpRef)
  /-- WATCHDOG (R394). -/
  | watchdog (f : FragRef)
  /-- FRAGMENT_AT_JOIN (R94). -/
  | fragmentAtJoin (f : FragRef)
  /-- FRAGMENT_AGED (R82). -/
  | fragmentAged (f : FragRef)
  /-- SPLIT_ENTRY_RESTORE (R95). -/
  | splitEntryRestore (die core quarter : Nat)
  /-- SPLIT_EXCHANGE (R95). -/
  | splitExchange (die core quarter : Nat)
  /-- SPINDLE_RETIRE (R102). -/
  | spindleRetire (sp : SpRef)
  /-- DEBUG_HALT (R406). -/
  | debugHalt (sp : SpRef)
  /-- DEBUG_RESUME (R406). -/
  | debugResume (sp : SpRef)
  /-- DEBUG_STEP (R99). -/
  | debugStep (sp : SpRef) (focus : Option Nat)
  /-- DEBUG_STATE_ACCESS (R406). -/
  | debugStateAccess (sp : SpRef) (write : Option (List Byte))
  /-- ARM_QUEUE (R418). -/
  | armQueue (q : Nat)
  /-- DISARM_QUEUE (R418). -/
  | disarmQueue (q : Nat)
  /-- WP_UPDATE (R417). -/
  | wpUpdate (q : Nat)
  /-- QUEUE_AGED (R419). -/
  | queueAged (q : Nat)
  /-- REQ_YIELD (R436). -/
  | reqYield (grid : Nat)
  /-- REQ_ABORT (R436). -/
  | reqAbort (grid : Nat)
  /-- REQ_RESUME (R436). -/
  | reqResume (grid : Nat)
  /-- PREEMPTION (R439). -/
  | preemption (grid die : Nat)
  /-- GRID_YIELDED (R436). -/
  | gridYielded (grid : Nat)
  /-- GRID_RESUME (R441). -/
  | gridResume (grid : Nat)
  /-- GRID_ABORT (R442). -/
  | gridAbort (grid : Nat)
  /-- ABORT_DISCARD (R442). -/
  | abortDiscard (grid : Nat)
  /-- TEAM_START (R435). -/
  | teamStart (grid cluster : Nat)
  /-- TEAM_RETIRE (R437). -/
  | teamRetire (team : Nat)
  /-- GRID_COMPLETE (R39). -/
  | gridComplete (grid : Nat)
  /-- SLICE_END (R438). -/
  | sliceEnd (die : Nat)
  /-- SWAP_SAVE (R35). -/
  | swapSave (grid cluster : Nat)
  /-- CLUSTER_SWAP_PARKED (R400). -/
  | clusterSwapParked (grid cluster : Nat)
  /-- GRACE_EXPIRY (R440). -/
  | graceExpiry (grid cluster : Nat)
  /-- SHARE_WINDOW_END (R325). -/
  | shareWindowEnd
  /-- LUCMD_LOAD (R448). -/
  | lucmdLoad
  /-- MICROCODE_SWITCH (R449). -/
  | microcodeSwitch
  /-- REGISTER_WRITE (R7). -/
  | registerWrite (r : HostReg) (value : BitVec 512)
  /-- PACKAGE_RESET (R483). -/
  | packageReset
  /-- DIE_LOST (R39). -/
  | dieLost (die : Nat)
  /-- TELEMETRY_REFRESH (R486). -/
  | telemetryRefresh
  /-- ATTESTATION_REQUEST (R484). -/
  | attestationRequest
  /-- HOST_BAR2_ACCESS (R475): an offset in the BAR2 of function 0, or 2^36 more for function 1. -/
  | hostBar2Access (addr len : Nat) (req : HostReq)
  /-- INSTRUCTION_FETCH (R81). -/
  | instructionFetch (f : FragRef) (refetch : BitVec 3)
  /-- WAIT_MEM_REREAD (R423). -/
  | waitMemReread (q : Nat)
  /-- FWD_WRITE_PERFORMED (R375). -/
  | fwdWritePerformed (unit ctx : Nat)
  /-- DEBUG_ATTACH (R406). -/
  | debugAttach (grid : Nat) (on : Bool)
  /-- DYNAMIC_CAPACITY_RELEASE (R477). -/
  | dynamicCapacityRelease (addr len : Nat)
  deriving DecidableEq, Repr, Inhabited

end Sys2Proof
end

