-- ==== Sys2Proof/Machine/State.lean ====
section
/-! DEFINITION. Sys2Proof/Machine/State.lean: the state of one VT-8160 package as plain data (INVENTORY.md, State), the
reasons a step can stop, and the package right after reset (R483, R435). -/

namespace Sys2Proof.Machine

open Sys2Proof

/-! ## Cores: spindles, fragments, pending accesses -/

/-- Region class of a page (Table 7-2; PTE CLASS 0, 1, 2). -/
inductive Cls where
  | priv | shared | coherent
  deriving DecidableEq, Repr, Inhabited

/-- Where an access lands once its address is checked and translated (R181, R214): a byte offset of a team's scratchpad
(through the own-team or the cluster aperture), a physical address with the owner and class of the leaf it was reached
through, the leaf's own address and the page's base and size (R184), or an offset of a rank page, with the page's alias kind. -/
inductive Loc where
  | scratch (team off : Nat)
  | mem (pa owner : Nat) (cls : Cls) (pte base size : Nat)
  | win (w rank off kind : Nat)
  deriving DecidableEq, Repr, Inhabited

/-- The access of one thread (or of a uniform form), or one word of a wide stack access (R187): address, width in bytes,
the byte of the value it starts at, place, store data or operand, and the new value of an ACAS (R213, R242). -/
structure Acc where
  thread : Nat
  ea     : BitVec 64
  n      : Nat
  part   : Nat
  loc    : Loc
  val    : BitVec 128
  val2   : BitVec 128
  deriving DecidableEq, Repr, Inhabited

/-- A cached translation (R399); `core` is none for the die's L2 TLB. -/
structure Tlb where
  die    : Nat
  core   : Option Nat
  tenant : Nat
  /-- First byte and size of the page. -/
  va     : Nat
  size   : Nat
  leaf   : BitVec 64
  pte    : Nat
  deriving DecidableEq, Repr, Inhabited

/-- A register or predicate named for the lookahead check (R56). -/
inductive RegId where
  | v (n : Nat) | s (n : Nat) | p (n : Nat)
  deriving DecidableEq, Repr, Inhabited

/-- What a pending instruction still has to do. -/
inductive PendKind where
  /-- A computing form: its results are written, and it is incomplete only for R55 and R56; the flags that enter MODE.FLG
  at its completion (R147, R176). -/
  | compute (fpc : BitVec 5)
  /-- A computing form that raises an enabled floating-point exception at its completion: threads, conditions (R147), and the
  groups that its load streams supplied, which it has then not popped (R9). -/
  | fpTrap (tmask : BitVec 8) (fpc : BitVec 5) (pops : List (Nat × List Word))
  /-- A load: width code, destination field, its accesses are bound at LOAD_DATA_ARRIVAL. -/
  | load (width : Nat) (d : BitVec 10)
  /-- A store, or the pushed group of a store stream. -/
  | store
  /-- DISCARD (R219): its accesses are the ranges still to be zeroed; `part` 1 marks a whole page, 2 a word of a stack. -/
  | discard
  /-- CCTL by its minor opcode. -/
  | cctl (op : Nat)
  /-- ATOM, RED (no destination: 0x348) and ACAS: operation, width in bytes, destination field. -/
  | atom (op width : Nat) (d : BitVec 10)
  | acas (width : Nat) (d : BitVec 10)
  | arriveG (d : BitVec 10)
  /-- A gang form waiting for its rendezvous: sequence number, minor opcode, contribution per thread (source value or
  predicate and pick count). -/
  | gang (k : Nat) (min : BitVec 8) (contrib : List (Nat × Word × Word))
  /-- A copy form: row (0 TCOPY .. 4 TFILL), the descriptor quads, whether a scale quad is named, MODE at issue; what its
  checks latched: the index list (none: unreadable) and the translations it holds (R269-R271); and the 16-byte pieces of
  its destination that it has written (R277): 0 for memory, else a team's id plus 1, the piece's number, and whether its source
  was bad (R271). -/
  | copy (form : Nat) (view shape scale : BitVec 128) (scaled : Bool) (mode : Word) (idx : List (Option Word))
      (pages : List Tlb) (moved : List ((Nat × Nat) × Bool))
  | mma (desc : BitVec 128) (cls : Nat)
  | acc (form row cg n tile : Nat) (pair : Bool)
  | coll (blk : Nat)
  /-- A dispense form whose queue entries are written (ROUTE, TRETIRE). -/
  | dispense
  deriving DecidableEq, Repr, Inhabited

/-- An instruction that has issued and is incomplete (R55) or not yet done (R204). -/
structure Pend where
  id       : Nat
  frag     : Nat
  pc       : BitVec 64
  word     : IWord
  kind     : PendKind
  tmask    : BitVec 8
  uni      : Bool
  rd       : List RegId
  wr       : List RegId
  /-- Instructions that may still issue in its window. -/
  left     : Nat
  /-- Window instructions that have issued (w of R58); log 40 for a form that is complete before it faults. -/
  w        : Nat
  complete : Bool
  acq      : Option Nat
  rel      : Option Nat
  /-- In-flight counters it raised, each with "done on that path". -/
  paths    : List (Nat × Bool)
  accs     : List Acc
  /-- Values bound so far, by thread: written to the destination when the last is bound (R205, R217). -/
  got      : List (Nat × BitVec 128)
  /-- A release of narrower scope than package was made visible while this store was pending: the scope whose parties
  are served behind it (R231). -/
  fence    : Option Nat
  /-- A copy's place in the order of acceptance (R258, R260). -/
  accepted : Option Nat
  deriving DecidableEq, Repr, Inhabited

/-- A fragment's state (Table 3-5, R81, R250, R257, R412). -/
inductive FragSt where
  | ready
  | sleeping (cycles : Nat)
  | atJoin
  | trapped
  /-- Waiting at a hardware barrier: level 0 team, 1 cluster, 2 die part; the generation awaited to differ; acquire scope. -/
  | barrier (level id : Nat) (gen : Word) (acq : Option Nat)
  /-- Waiting on a barrier object: the place, target, status register, check flag, acquire scope. -/
  | bowait (ea : BitVec 64) (loc : Loc) (target : BitVec 64) (d : BitVec 10) (chk : Bool) (acq : Nat)
  /-- CTXSAVE waiting for its counters or its frame bytes, and ROLESW waiting for rows. -/
  | rolesw
  /-- Waiting for a page-table walk of a granule: the address and threads that need it. -/
  | walking (granule : Nat) (ea : BitVec 64) (tmask : BitVec 8)
  deriving DecidableEq, Repr, Inhabited

/-- A fragment (R93, Table 3-5): fragment 0 lives in the spindle's own state. -/
structure Frag where
  id      : Nat
  mask    : BitVec 8
  pc      : BitVec 64
  join    : Option Nat
  st      : FragSt
  /-- The next instruction word, once fetched into the quarter (R81). -/
  fetched : Option IWord
  /-- After ERET with W > 0, or SACT resume: where execution continues once the instruction at pc has executed (R58). -/
  replay  : Option (BitVec 64)
  onChip  : Bool
  aged    : Bool
  /-- Cycles for which it has been ready without issuing (R82), and not ready in a wait that R394 names. -/
  readyFor : Nat
  waited  : Nat
  /-- Its last issue attempt stalled in a wait that R394 names; the number of the statistic it counts in (Table 14-7),
  0 for none (WAIT). -/
  stall   : Option Nat
  /-- Turn in which it last issued, and in which its entry last moved on or off chip (R95). -/
  used    : Nat
  since   : Nat
  deriving DecidableEq, Repr, Inhabited

/-- A join entry (Table 3-5). -/
structure JoinEnt where
  id       : Nat
  addr     : BitVec 64
  expected : BitVec 8
  arrived  : BitVec 8
  parent   : Option Nat
  /-- The fragment that split: the fused fragment takes its place (R94). -/
  own      : Nat
  onChip   : Bool
  used     : Nat
  since    : Nat
  deriving DecidableEq, Repr, Inhabited

/-- A trap record (Table 14-3), field by field. -/
structure TrapRec where
  cause  : BitVec 8
  reason : BitVec 8
  tmask  : BitVec 8
  fmask  : BitVec 8
  info0  : BitVec 8
  fpc    : BitVec 8
  spx    : BitVec 16
  pc     : BitVec 64
  word   : IWord
  addr   : BitVec 64
  info   : BitVec 64
  core   : BitVec 8
  die    : BitVec 8
  vcxy   : BitVec 16
  time   : BitVec 64
  deriving DecidableEq, Repr, Inhabited

/-- What holds a spindle as a whole (R391, R400, R406). -/
inductive SpSt where
  | running
  /-- Stopped for a trap that went to the firmware core; the record is still to be written or is in the queue. -/
  | fwStopped (r : TrapRec)
  /-- Parked on a page fault of a granule; `ready` once the fault is resolved, `failed` once reported unresolved. -/
  | parked (granule : Nat) (resolved failed : Bool)
  deriving DecidableEq, Repr, Inhabited

/-- One byte of a scratchpad that a plain store of a spindle wrote (R239): the store, the team and offset, the byte before it and
the byte it wrote; and, once a WAIT on sst has seen that store done, the identifier from which on an engine's instruction has
issued behind that WAIT. -/
structure Torn where
  id   : Nat
  team : Nat
  off  : Nat
  old  : Byte
  new  : Byte
  seen : Option Nat := none
  deriving DecidableEq, Repr, Inhabited

/-- A spindle (R24, R28, R97, R403). Register files are sparse maps, zero where unlisted (R435): `v` by 8n + t, `s` by n,
`p` by thread (p0..p47 in bits 47..0), `nest` and `gen` by thread, `ctr` by path 0..6, `stats` by number 0x40..0x48,
`trec` by byte. -/
structure Spindle where
  spx    : Nat
  role   : Nat
  rlx    : Nat
  /-- Registers allotted, class, and entry address (R27, R30). -/
  allot  : Nat
  cls    : Nat
  entv   : BitVec 64
  gmap   : List Nat
  live   : BitVec 8
  v      : SMap 32
  s      : SMap 32
  p      : SMap 48
  /-- Elements of `v` with uncorrectable errors (R205, R286). -/
  badV   : List Nat
  nest   : SMap 6
  gen    : SMap 32
  mode   : Word
  ctr    : SMap 8
  frags  : List Frag
  joins  : List JoinEnt
  epc    : BitVec 64
  enest  : BitVec 64
  /-- W of the current trap: window instructions already issued (R58); an EPC write sets it to 0. -/
  epcW   : Nat
  tlv    : Bool
  /-- The fragment that is in the handler while TLV is 1. -/
  hfrag  : Nat
  sav    : SMap 32
  trec   : SMap 8
  stats  : SMap 64
  /-- Operands held in the latches of its home lane: first v register and registers (R59, R60). -/
  latchA : Option (Nat × Nat)
  latchB : Option (Nat × Nat)
  /-- The A block that the chuck holds for it, while nothing has released the hold: first block register, first scale
  register, scale registers (R61, R292). -/
  held   : Option (Nat × Nat × Nat)
  pend   : List Pend
  /-- Plain scratchpad stores that an engine may read in part, latest first (R239). -/
  torn   : List Torn
  /-- Traps raised but not yet delivered: the fragment and the record (R98). -/
  traps  : List (Nat × TrapRec)
  gseq   : Nat
  st     : SpSt
  halted : Bool
  /-- The debug service has let one instruction of the focus fragment issue (R99). -/
  stepFrag : Option Nat
  /-- The debug service's last step found its fragment waiting at its join (R99). -/
  stepWaits : Bool
  /-- Returns that the debug service has recorded, latest first: the RET's address and its target (R101). -/
  rets   : List (BitVec 64 × BitVec 64)
  /-- ROLESW waiting for row groups: the new allotment, class, entry (R412). -/
  rsReq  : Option (Nat × Option Nat × Option (BitVec 64))
  retired : Bool
  deriving DecidableEq, Repr, Inhabited

/-- A queue port (R206-R210): the binding, the pattern of R207, groups consumed or pushed, fetched groups (element and
a deferred-fault mark), pushed groups waiting (element number, width, value). -/
structure Port where
  bound   : Option Nat
  base    : BitVec 64
  w       : Nat
  wcode   : Nat
  d0      : Int
  d1      : Int
  d2      : Int
  n0      : Nat
  n1      : Nat
  n2      : Nat
  pos     : Nat
  fetched : List (List (Word × Bool))
  pushed  : List (Nat × List Acc)
  deriving DecidableEq, Repr, Inhabited

/-- A hardware barrier (R247). -/
structure Bar where
  gen : Word
  arr : Nat
  exp : Nat
  deriving DecidableEq, Repr, Inhabited

/-- A team's state (Table 15-8). -/
inductive TeamSt where
  | waiting | resident | out | retired | yieldExited | discarded
  deriving DecidableEq, Repr, Inhabited

/-- A team (R24): its place in the grid, the core it is resident on, and the team state of R23, R247 and R408. `scratch`
by byte, `basin` by 16384·tile + 256·m + n. -/
structure Team where
  id       : Nat
  grid     : Nat
  idx      : Nat
  vcx      : Nat
  vcy      : Nat
  die      : Nat
  core     : Nat
  st       : TeamSt
  /-- Out by grace expiry: stays out until the grid resumes (R437). -/
  graceOut : Bool
  /-- Some TFETCH returned YIELD since it last started (R437). -/
  sawYield : Bool
  thnd     : BitVec 64
  stkb     : BitVec 64
  stks     : Word
  scratch  : SMap 8
  basin    : SMap 32
  /-- Scratchpad sectors and Basin words with bad ECC (R205). -/
  badScratch : List Nat
  badBasin : List Nat
  ports    : List Port
  bars     : List Bar
  spindles : List Spindle
  deriving DecidableEq, Repr, Inhabited

/-! ## Core and cluster resources -/

/-- A sector of 32 bytes of private or read-shared data in one core's L1 (R189-R191); `bad`: its ECC is (R205). -/
structure L1Sec where
  die   : Nat
  core  : Nat
  sec   : Nat
  owner : Nat
  cls   : Cls
  dirty : Bool
  data  : List Byte
  bad   : Bool
  deriving DecidableEq, Repr, Inhabited

/-- A coherent line's state in one core's L1 (Table 7-4); I is absence. -/
inductive Moesi where
  | s | e | o | m
  deriving DecidableEq, Repr, Inhabited

/-- A coherent line in one core's L1, with the sectors of it that are valid and that are dirty (R189, R193). -/
structure L1Line where
  die  : Nat
  core : Nat
  line : Nat
  st   : Moesi
  valid : BitVec 8
  dirty : BitVec 8
  deriving DecidableEq, Repr, Inhabited

/-- A 4-byte piece of code held by one core's instruction cache (R72, R192). -/
structure ICell where
  die   : Nat
  core  : Nat
  pa    : Nat
  word  : Word
  deriving DecidableEq, Repr, Inhabited

/-- A staged, chucked or running pass of the matrix array (R278, R291): the MMA, its A words and scale words. -/
structure Pass where
  sp    : SpRef
  id    : Nat
  aRows : List Word
  sRows : List Word
  deriving DecidableEq, Repr, Inhabited

/-- A line that a PREF has asked its die's tokens for (R218): it enters the core's L1, but for policy 2. -/
structure Prefetch where
  team : Nat
  policy : Nat
  /-- Its global address (R413). -/
  va   : Nat
  loc  : Loc
  deriving DecidableEq, Repr, Inhabited

/-- One core's matrix array: the staging latch, what the chuck was loaded with last (R292): the spindle, the first register of
the A block, that of the scales and their number; and the running pass. It serves an MMA while the spindle's hold stands. -/
structure MatArr where
  die     : Nat
  core    : Nat
  staged  : Option Pass
  chuck   : Option (SpRef × Nat × Nat × Nat)
  running : Option Pass
  /-- A pair pass of the leader occupies this follower array. -/
  slaved  : Bool
  deriving DecidableEq, Repr, Inhabited

/-- A request in a cluster's reservation table (R293). -/
structure MatReq where
  die     : Nat
  cluster : Nat
  sp      : SpRef
  id      : Nat
  core    : Nat
  pair    : Bool
  cls     : Nat
  seq     : Nat
  granted : Bool
  deriving DecidableEq, Repr, Inhabited

/-! ## The line-token protocol -/

/-- Line tokens of a line at a holder other than the home (R195); the home holds the rest. `valid` marks valid data. -/
structure Tok where
  line  : Nat
  h     : Holder
  n     : Nat
  owner : Bool
  valid : Bool
  deriving DecidableEq, Repr, Inhabited

/-- A holder's own outstanding request (R197, R198). -/
structure TokReq where
  h        : Holder
  line     : Nat
  write    : Bool
  attempts : Nat
  age      : Nat
  total    : Nat
  persistent : Bool
  deriving DecidableEq, Repr, Inhabited

/-- A message in flight: those of Table 7-5, and a Luanil message between port units (R375). -/
inductive MsgBody where
  | trs (line : Nat) (req dst : Holder)
  | trx (line : Nat) (req dst : Holder)
  | tok (line : Nat) (dst : Holder) (n : Nat) (owner data : Bool)
  | wbk (line : Nat) (n : Nat) (owner data : Bool)
  | preq (line : Nat) (write : Bool) (req : Holder)
  | pact (line : Nat) (req dst : Holder) (seq : Nat)
  | pdone (line : Nat) (seq : Nat)
  | pdeact (dst : Holder) (line seq : Nat)
  /-- A chunk on its way to a port unit: owner of its key, if it has one, key, chunk, source, type, elements. -/
  | arrive (o : Option Owner) (unit key chunk src ty : Nat) (data : List Byte)
  deriving DecidableEq, Repr, Inhabited

/-- A message on its way. Of a chunk (R344): its bytes as an error on the link left them, how often its checksum has failed,
and the package it comes from (R384). -/
structure Msg where
  id   : Nat
  body : MsgBody
  sent  : Option (List Byte) := none
  tries : Nat := 0
  pkg   : Nat := 0
  deriving DecidableEq, Repr, Inhabited

/-- An entry of a home die's persistent-request table (R199); `seq` once activated. -/
structure PReq where
  die   : Nat
  line  : Nat
  req   : Holder
  write : Bool
  seq   : Option Nat
  order : Nat
  deriving DecidableEq, Repr, Inhabited

/-! ## Dies -/

/-- An ERT entry (Table 11-4); STATE 0 absent, 1 loading, 2 resident, 3 failed. `wantSlot`: its victim search waits. -/
structure Ert where
  e     : Nat
  state : Nat
  use   : Bool
  slot  : Nat
  park  : Nat
  ref   : Nat
  wantSlot : Bool
  deriving DecidableEq, Repr, Inhabited

/-- A tile of the expert wait queue, parked or re-entered (R317). -/
structure WaitTile where
  grid   : Nat
  expert : Nat
  dix    : Nat
  base   : Nat
  count  : Nat
  entered : Bool
  deriving DecidableEq, Repr, Inhabited

/-- An open entry of a die's fault-merge table (R399), keyed by tenant and 512 KiB granule. -/
structure Merge where
  tenant  : Nat
  granule : Nat
  reason  : Nat
  deriving DecidableEq, Repr, Inhabited

/-- A compute die's registers and agents (Tables 11-3, 14-7). -/
structure Die where
  id      : Nat
  lost    : Bool
  ftqb    : BitVec 64
  ftqn    : Word
  wdog    : Word
  trtb    : BitVec 64
  pmap    : BitVec 64
  /-- Physical number of the firmware core, and of the core each spared mesh core is mapped to (R17). -/
  fwCore  : Nat
  spare   : List (Nat × Nat)
  ecccnt  : BitVec 64
  splsp   : SMap 64
  exdir   : BitVec 64
  exslb   : BitVec 64
  exsls   : Word
  exns    : Nat
  exown   : Nat
  hand    : Nat
  ert     : List Ert
  waitQ   : List WaitTile
  merges  : List Merge
  /-- Page walks in progress or waiting: tenant, granule. -/
  walks   : List (Nat × Nat)
  /-- Rounds (R438): the time-sliced cluster (grid, cluster) that received its slice last, and those of the current slice
  that still wait for cores. -/
  sliceAt : Option (Nat × Nat)
  sliceNext : List (Nat × Nat)
  /-- Package cycle at which the current slice began: its last cluster had been given cores (R34, R438). -/
  sliceFrom : BitVec 64
  /-- Records that wait to be written to the firmware trap queue (R391), oldest first: the stopped spindle, if one is
  stopped, and the record. -/
  trapQ   : List (Option SpRef × TrapRec)
  written : Nat
  preqSeq : Nat
  clock   : Nat
  /-- Parts of 1,200 of a core cycle that the die's clock has not yet counted (R5, R486). -/
  frac    : Nat
  power   : Nat
  temp    : Nat
  deriving DecidableEq, Repr, Inhabited

/-! ## Grids -/

/-- A launch's state (Table 15-7). -/
inductive GridSt where
  | admitted | running | yielding | yielded | complete | aborting | aborted
  deriving DecidableEq, Repr, Inhabited

/-- A role of a launch (Table 15-6), decoded. -/
structure RoleEnt where
  gang  : Nat
  cls   : Nat
  regs  : Nat
  spt   : Nat
  entry : Nat
  deriving DecidableEq, Repr, Inhabited

/-- The Geyser of one die for one grid: held ranges (start, count), and whether a refill request is outstanding (R307). -/
structure Geyser where
  die    : Nat
  ranges : List (Nat × Nat)
  req    : Bool
  deriving DecidableEq, Repr, Inhabited

/-- An expert queue (R310): `rows` holds ROW, CHOICE and STATE of each entry of its dispatch list. -/
structure XQueue where
  p    : Nat
  e    : Nat
  head : Nat
  rows : List (Word × Nat × Nat)
  deriving DecidableEq, Repr, Inhabited

/-- A die part (R31): its die and its eight die-part barriers (R247); whether it runs in place (R33), was demoted into the
rounds (R438), or waits for the yields of R439; and whether pre-emption is no longer to come for it (R439). -/
structure Part where
  dix     : Nat
  die     : Nat
  inPlace : Bool
  demoted : Bool
  waits   : Bool
  settled : Bool := false
  bars    : List Bar
  deriving DecidableEq, Repr, Inhabited

/-- A cluster of a grid: virtual cluster number, its die and the die's cluster number while resident, its barriers, the
grace count of R440 (package cycles resident since the yield) and whether it ever received cores (R445). -/
structure Cluster where
  cl      : Nat
  dix     : Nat
  die     : Nat
  phys    : Nat
  /-- Where it runs in place: the die's cluster number that is kept for it. -/
  home    : Option Nat
  bars    : List Bar
  grace   : Nat
  placed  : Bool
  resident : Bool
  /-- Issue is stopped for a swap that has not yet saved (R35 step 1). -/
  stopping : Bool
  /-- Why the swap takes place: 0 slice, 1 grace, 2 every spindle parked. -/
  why      : Nat
  deriving DecidableEq, Repr, Inhabited

/-- A launch: the record's fields latched at the LAUNCH (Table 15-5) and the Lathe's state of it. -/
structure Grid where
  id      : Nat
  lr      : Nat
  queue   : Nat
  /-- The tenant of its queue when it was launched: the record is read and written in its tables (R433). -/
  qten    : Nat
  tenant  : Nat
  st      : GridSt
  x0 : Nat
  y0 : Nat
  w  : Nat
  h  : Nat
  code    : BitVec 64
  karg    : BitVec 64
  roles   : List RoleEnt
  scratch : Nat
  ffb     : BitVec 64
  swap    : BitVec 64
  bo      : BitVec 64
  share   : Nat
  mode    : Nat
  x : Nat
  y : Nat
  z : Nat
  area    : BitVec 64
  cap     : Nat
  experts : Nat
  /-- Lowest index never granted (LR+0x48), and ranges handed back at a yield, still to be granted first. -/
  next    : Nat
  returned : List (Nat × Nat)
  geysers : List Geyser
  queues  : List XQueue
  /-- Indices dispensed, each with the die whose Geyser dispensed it; and the retired ones. -/
  dispensed : List (Nat × Nat)
  retiredIx : List Nat
  /-- References on ERT entries counted for the grid: die, expert, count (R327). -/
  refs    : List (Nat × Nat × Nat)
  parts   : List Part
  clusters : List Cluster
  nret    : Nat
  nyield  : Nat
  nswap   : Nat
  held    : Bool
  /-- Grids yielded for this one (R439). -/
  yieldedFor : Option Nat
  debug   : Bool
  deriving DecidableEq, Repr, Inhabited

/-! ## The Lathe -/

/-- A buffer level of a queue (R424-R426): the ring is level 0. `pos` is a byte count in the ring or a byte offset in the
buffer; `conds` counts open CONDs (with LOOPs in one stack, innermost first): none for a COND, (position after the
LOOP_BEGIN, passes left) for a LOOP. -/
structure Level where
  base   : BitVec 64
  len    : Nat
  pos    : Nat
  blocks : List (Option (Nat × Nat))
  /-- While skipping: the depth of blocks opened since, none when executing. -/
  skip   : Option (List Bool)
  deriving DecidableEq, Repr, Inhabited

/-- The write of a dispatch-list entry that waits for a migration (R311): grid, die part, expert, entry, ROW, CHOICE, STATE; and
the pending instruction that is not done, or complete, before it is made (R312, R322, R324). -/
structure ListWrite where
  grid : Nat
  p : Nat
  e : Nat
  n : Nat
  row : Word × Nat × Nat
  by_ : Option Nat
  deriving DecidableEq, Repr, Inhabited

/-- A queue as the Lathe runs it (R416-R432). -/
structure Queue where
  n       : Nat
  armed   : Bool
  stopped : Bool
  base    : BitVec 64
  size    : Nat
  prio    : Nat
  tenant  : Nat
  fa      : Nat
  share   : Nat
  grace   : Nat
  trb     : BitVec 64
  trn     : Nat
  rp      : Nat
  wp      : Nat
  levels  : List Level
  /-- Fetched words: level, key (byte count in the ring, address in a buffer), value (R432). -/
  words   : List (Nat × Nat × Word)
  nrec    : Nat
  counters : SMap 64
  launches : List Nat
  aged    : Bool
  readyFor : Nat
  /-- A WAIT_MEM waits, or a COND_BEGIN or FETCH_FENCE is in progress: the packet's length in bytes. -/
  waiting : Option (Packet × Nat)
  deriving DecidableEq, Repr, Inhabited

/-- A microcode image that has passed its checks (R446): version, entry offset, code. -/
structure Microcode where
  version : Word
  entry   : Nat
  code    : List Byte
  deriving DecidableEq, Repr, Inhabited

/-- The Lathe's registers and microcode (Tables 15-1, 15-10). -/
structure Lathe where
  lqtb   : BitVec 64
  lslice : Word
  luca   : BitVec 64
  lustat : Word
  luver  : Word
  /-- The image being copied and checked, by its address (LUSTAT 1); a verified one, which waits for the next decision boundary; and
  the one that runs, from its ENTRY on, if it is not the one that boot loaded (R448, R449). -/
  loading : Option (BitVec 64)
  ucode   : Option Microcode
  running : Option Microcode
  /-- SET_SHARE values by tenant (R443). -/
  shares : SMap 32
  /-- Tenants held back for the current window (R325), and that window's number (R443). -/
  held   : List Nat
  window : Nat
  /-- Tenants of which a team has been resident in the current window (R325). -/
  active : List Nat
  deriving DecidableEq, Repr, Inhabited

/-! ## The Caldera -/

/-- A window table entry with its WBIND (Tables 12-1, 13-3) and its stored bytes: (rank, offset in SPAN, value) of the
current round of each chunk (R333). -/
structure Win where
  w     : Nat
  spill : BitVec 64
  bo    : BitVec 64
  mstr  : BitVec 64
  dst   : BitVec 64
  span  : Nat
  ch    : Nat
  tenant : Nat
  m     : Nat
  func  : Nat
  otype : Nat
  itype : Nat
  kind  : Nat
  round : Nat
  stat  : Nat
  wbind : BitVec 64
  stored : List (Nat × Nat × Byte)
  spilledBytes : Nat
  spilled : Bool
  /-- A rank of its group has been suspended since it was armed: SUSPENDED_MEMBER (R346). -/
  suspended : Bool := false
  /-- Member timers in package cycles, by chunk, once a first rank has arrived (R347). -/
  timers : List (Nat × Nat)
  deriving DecidableEq, Repr, Inhabited

/-- A group table entry (Table 13-4). -/
structure Grp where
  g     : Nat
  peers : BitVec 64
  rankl : BitVec 64
  timeout : Nat
  keyb  : Nat
  q     : Nat
  mloc  : Nat
  p     : Nat
  m     : Nat
  tenant : Nat
  rbase : Nat
  valid : Bool
  /-- Next instance number of each local rank. -/
  nextK : List (Nat × Nat)
  deriving DecidableEq, Repr, Inhabited

/-- A parameter block (Table 12-3), decoded. -/
structure Block where
  op    : Word
  ty    : Word
  group : Word
  alg   : Word
  n     : BitVec 64
  src   : BitVec 64
  dst   : BitVec 64
  ch    : BitVec 64
  bo    : BitVec 64
  pv    : BitVec 64
  spill : BitVec 64
  prio  : Word
  tenant : Word
  deriving DecidableEq, Repr, Inhabited

/-- One member of an instance: the rank, its block, whose grid's tenant issued it, READY, chunks written (R337, R348). -/
structure Member where
  rank   : Nat
  blk    : Block
  tenant : Nat
  /-- The address at which the block was given. -/
  addr   : Nat
  ready  : Nat
  done   : List Nat
  state  : Nat
  /-- INST of the progress vector of a restart block (R349). -/
  inst   : Nat := 0
  deriving DecidableEq, Repr, Inhabited

/-- A collective instance (R339): STATE as the progress vector's; 1 until every rank's block has arrived. -/
structure Inst where
  group   : Nat
  k       : Nat
  members : List Member
  restart : Bool
  state   : Nat
  reason  : Nat
  timer   : Nat
  spilled : Bool
  /-- Some member has been suspended: SUSPENDED_MEMBER stays set (R346). -/
  suspended : Bool
  /-- Its checks have passed, and it waits for a context (R359). -/
  checked : Bool := false
  deriving DecidableEq, Repr, Inhabited

/-- The instructions that write a slot (R371-R373). -/
inductive SlotOp where
  | cmb | gath | fillSave | fillSrc | fillMem
  deriving DecidableEq, Repr, Inhabited

/-- The instruction that last wrote a slot, and what the slot was before: whether mapped, its type, its bytes (R374). -/
structure SlotSrc where
  op     : SlotOp
  word   : LWord
  mapped : Bool
  ty     : Nat
  before : List Byte
  deriving DecidableEq, Repr, Inhabited

/-- A virtual slot (R355): type 0 f32, 1 bf16, valid length, checksum, residue mark; its bytes, where it is mapped, and how
many of them there are. -/
structure Slot where
  ty    : Nat
  len   : Nat
  data  : List Byte
  size  : Nat
  sum   : Word
  residue : Bool
  src   : Option SlotSrc := none
  deriving DecidableEq, Repr, Inhabited

/-- A Luanil context (Table 13-2) of a port unit by the unit's number (R356). -/
structure Ctx where
  unit  : Nat
  c     : Nat
  owner : Owner
  /-- The program it runs: first address and length; addresses below 1,024 hold the built-in programs (R365). -/
  first : Nat
  len   : Nat
  pc    : Nat
  ck    : Nat
  /-- Chunks that it has moved on by, and its first chunk's number: `ck` before any wrap (R364). -/
  abs   : Nat := 0
  cs    : SMap 32
  ks    : SMap 12
  b0 : BitVec 64
  b1 : BitVec 64
  b2 : BitVec 64
  b3 : BitVec 64
  loops : List (Nat × Nat)
  ce : Nat
  le : Nat
  nc : Nat
  ti : Nat
  sc : Nat
  prio : Nat
  tenant : Nat
  /-- Virtual slots: mapped in slot memory; and saved, their bytes in their image (R356). -/
  slots : List (Nat × Slot)
  saved : List (Nat × Slot)
  /-- Slots whose CHK has failed once in this chunk (R374). -/
  retried : List Nat
  /-- Memory writes issued and not yet performed (R375): physical address, owner and bytes of each naturally aligned piece of
  16 bytes or less (R381). -/
  writes : List (Nat × Nat × List Byte)
  /-- A built-in program has issued the writes of its chunk. -/
  issued : Bool := false
  /-- A residue check of the lanes fails at its next combining (R354, R371). -/
  laneBad : Bool := false
  /-- The next chunk between it and a member's memory fails its checksum (R344). -/
  pathBad : Bool := false
  /-- Turn in which it last issued (R360). -/
  used : Nat
  aged : Bool
  readyFor : Nat
  deriving DecidableEq, Repr, Inhabited

/-- A held arrival (R363), with the owner of its key, if it has one, and the package it comes from; `spilled`: its `len` bytes
of checksum `sum` lie in the spill region, at address `place`; `tried`: their check has failed once (R344). -/
structure Arrival where
  owner : Option Owner
  unit  : Nat
  key   : Nat
  chunk : Nat
  src   : Nat
  ty    : Nat
  data  : List Byte
  spilled : Bool
  place : Nat := 0
  len   : Nat := 0
  sum   : Word := 0
  tried : Bool := false
  pkg   : Nat := 0
  deriving DecidableEq, Repr, Inhabited

/-- A loaded Luanil program (R365). -/
structure Prog where
  first : Nat
  len   : Nat
  entry : Nat
  deriving DecidableEq, Repr, Inhabited

/-- An entry of a fault log or of the error log (R368, R485). -/
structure ErrEnt where
  cycle  : BitVec 64
  cls    : Nat
  die    : Nat
  core   : Nat
  detail : Word
  line   : BitVec 64
  deriving DecidableEq, Repr, Inhabited

/-- Why a context faulted, in the order of R368: a slot, a member, a peer, a placement past 512 KiB, a fifth LOOP, an ENDL
with no loop, an image that is not there, the end of the program, a memory access; and a GATH of differing types (R372). -/
inductive CtxCause where
  | slot | member | peer | placement | loops | endl | fill | past | memory | types
  deriving DecidableEq, Repr, Inhabited

/-- An entry of the host complex's fault log (R368). -/
structure CtxFault where
  unit  : Nat
  c     : Nat
  pc    : Nat
  cause : CtxCause
  deriving DecidableEq, Repr, Inhabited

/-! ## Turns -/

/-- Where a soft error strikes (R205): one that ECC corrects, of a die; or an uncorrectable one in a sector of memory or of
an L2, of an L1 or a scratchpad, in a Basin word, or in a v register of a thread; or, where checksums and residues find it
(R344), in a byte of a chunk on its way, in a byte of a slot, in the lanes for a context's next combining, or in its next chunk from
or to a member's memory; or the command that spilled an arrival completes with an error (R478). -/
inductive SoftErr where
  | corrected (die : Nat)
  | mem (sec : Nat)
  | l1 (die core sec : Nat)
  | scratch (team sec : Nat)
  | basin (team key : Nat)
  | vreg (sp : SpRef) (n thread : Nat)
  | link (msg i : Nat) (flip : Byte)
  | slot (unit ctx v i : Nat) (flip : Byte)
  | lane (unit ctx : Nat)
  | path (unit ctx : Nat)
  | spill (i : Nat)
  deriving DecidableEq, Repr, Inhabited

/-- Which agent moves in the next step (log 1): an issue resource takes one of the fragments that the timing lets start in
that cycle, a port unit one of its contexts, the Lathe one of all queues that have a packet ready, each by its key (R82, R360, R419); an event or
host act takes place, time passes, an L1 gives up a sector of its own accord (R191), a long-latency form completes (R55) or
does a part of its work, what waits tries again, or a soft error strikes. -/
inductive Turn where
  | issue (fs : List FragRef)
  | luanil (unit : Nat) (cs : List Nat)
  | packet
  | event (i : Instr)
  | tick (cycles : Nat)
  | l1Evict (die core sec : Nat)
  | complete (sp : SpRef) (id : Nat)
  /-- An ACCLD writes its next register (R304). -/
  | accPart (sp : SpRef) (id : Nat)
  /-- A copy writes some more pieces of its destination (R277). -/
  | copyPart (sp : SpRef) (id : Nat)
  /-- What waits for a page being migrated (R311), or for a line (R218), tries again; other packages answer sends (R382). -/
  | retry
  /-- A soft error (R205). -/
  | softError (e : SoftErr)
  /-- Some threads of a load or store have their moment (R228, R229, R460). -/
  | part (sp : SpRef) (id : Nat) (threads : BitVec 8)
  /-- A function passes bring-up, by its READY bit (R479). -/
  | bringUp (fn : Nat)
  /-- The Lathe has copied a microcode image and checks it (R448). -/
  | microcode
  deriving DecidableEq, Repr, Inhabited

/-- The agent for which `exec` runs an instruction: set by `step` from the turn. -/
inductive Cur where
  | none
  | frag (f : FragRef) (word : IWord)
  | ctx (unit c : Nat)
  | queue (q : Nat) (bytes : Nat)
  deriving DecidableEq, Repr, Inhabited

/-- The whole package. -/
structure State where
  /-- The model's own: turns to come, turns taken, free values drawn, next identifier, the acting agent (log 1, 6). -/
  turns   : List Turn
  turnNo  : Nat
  freeNo  : Nat
  nextId  : Nat
  cur     : Cur
  /-- Package timestamp (R5). -/
  cycle   : BitVec 64
  /-- Thirds of a package cycle that the switch clock has not yet counted (R5). -/
  swFrac  : Nat
  ready   : BitVec 64
  /-- Functions that are going to pass bring-up (R479). -/
  coming  : BitVec 64
  mem     : SMap 8
  /-- Ranges (base, length, owner), latest first: the owner under whose key a line was last written (R398). -/
  lineOwner : List (Nat × Nat × Nat)
  /-- Physical 32-byte sectors with bad ECC (R205). -/
  badSec  : List Nat
  /-- CXL dynamic capacity released by the device: (address, length), reads as poison (R477). -/
  poison  : List (Nat × Nat)
  /-- Flash contents by I/O die, namespace and byte offset (R314, R478). -/
  flash   : List (Nat × Nat × Nat × Byte)
  l1      : List L1Sec
  l1c     : List L1Line
  /-- Retention that the last access gave a line of a core's L1 (R212, R218): die, core, line, and whether it is evicted last or
  first; a line of the default policy is not listed. -/
  l1Keep  : List (Nat × Nat × Nat × Bool)
  icache  : List ICell
  tlb     : List Tlb
  toks    : List Tok
  reqs    : List TokReq
  msgs    : List Msg
  /-- Lines asked for by PREFs (R218). -/
  prefs   : List Prefetch
  preqs   : List PReq
  /-- Activations in force as each holder knows them: holder, line, requester, sequence number; and deactivated ones. -/
  acts    : List (Holder × Nat × Holder × Nat)
  deacts  : List (Holder × Nat × Nat)
  arrays  : List MatArr
  matReqs : List MatReq
  dies    : List Die
  teams   : List Team
  grids   : List Grid
  lathe   : Lathe
  queues  : List Queue
  wins    : List Win
  grps    : List Grp
  insts   : List Inst
  ctxs    : List Ctx
  arrivals : List Arrival
  /-- Sends over Ethernet that the other package has not answered yet: whose, and for how many package cycles (R382). -/
  ueWaits : List (Owner × Nat)
  /-- Tags of Ultra Ethernet messages whose checksum has failed once (R344): owner, key, chunk, source. -/
  ueFails : List (Owner × Nat × Nat × Nat)
  /-- Dispatch-list entries whose page is being migrated (R311), in their order. -/
  listQ   : List ListWrite
  store   : SMap 64
  progs   : List Prog
  saveBase : BitVec 64
  /-- AES-XTS-256 key slots by owner id, and the keys that they held before, each with the number that stands in `lineOwner` for
  the owner of lines written under it (R398). -/
  keys    : List (Nat × BitVec 512)
  oldKeys : List (Nat × BitVec 512 × Nat)
  ctxFaults : List CtxFault
  /-- Blocks aborted because they name no valid group, by team and address (R361). -/
  aborts  : List (Nat × Nat)
  /-- The address that the last refused program load reported (R365). -/
  loadBad : Option Nat
  dropped : Nat
  ueDropped : Nat
  /-- Ultra Ethernet requests that used an absent feature and got its standard's response (R2, R383). -/
  ueRefused : Nat
  errLog  : List ErrEnt
  errCount : Nat
  mailbox : SMap 8
  /-- The nonce of the attestation request in progress (R484). -/
  attest  : List Byte
  /-- Global addresses of tenant 0 that the granules of the two functions' BAR2 are mapped to (R475). -/
  bar2    : List ((Nat × Nat) × Nat)
  /-- KIND writes made before CALD was set, which the Caldera reads once it is (R480). -/
  armQ    : List (Nat × BitVec 2)
  telemetry : SMap 8
  meas    : List (List Byte)
  /-- Host accesses through BAR2: what the last one returned (none: Unsupported Request). -/
  hostResp : Option (Option (List Byte))
  /-- The debug service's host buffer (R406). -/
  dbgBuf  : List Byte
  deriving DecidableEq, Repr, Inhabited

/-- Reasons the machine stops with a fault. -/
inductive Fault where
  /-- Raised by a Jolisol meaning when no fragment of the state is issuing: not a step of the machine. Safe. -/
  | noFragment
  /-- Raised by a Luanil meaning when no context is executing: not a step of the machine. Safe. -/
  | noContext
  /-- Raised by a packet meaning when no queue is executing: not a step of the machine. Safe. -/
  | noQueue
  deriving DecidableEq, Repr, Inhabited

/-- Reasons there is no meaning. -/
inductive Refusal where
  /-- An arm of `exec` whose instruction has no meaning yet. Safe. -/
  | notModelled (mnemonic : String)
  deriving DecidableEq, Repr, Inhabited

/-- A compute die after reset: no core was spared, every register at its stated reset value, `fw` fields at 0 (log 4). -/
def Die.reset (d : Nat) : Die :=
  { id := d, lost := false, ftqb := 0, ftqn := 0, wdog := 0, trtb := 0, pmap := 0, fwCore := 64, spare := [],
    ecccnt := 0, splsp := [], exdir := 0, exslb := 0, exsls := 0, exns := 0, exown := 0, hand := 0, ert := [],
    waitQ := [], merges := [], walks := [], sliceAt := none, sliceNext := [], sliceFrom := 0, trapQ := [], written := 0, preqSeq := 0, clock := 1200, frac := 0, power := 0,
    temp := 0 }

/-- The Lathe after reset (Table 15-1). -/
def Lathe.reset : Lathe :=
  { lqtb := 0, lslice := 2000, luca := 0, lustat := 0, luver := 0, loading := none, ucode := none, running := none, shares := [], held := [], window := 0, active := [] }

/-- The package right after reset, before bring-up has set any READY bit (R479): no queue armed, no launch, no team, no
window armed, memory with nothing listed. PACKAGE_RESET boots it (R483), or withFetchWord stands for boot and load (log 7). -/
def State.reset : State :=
  { turns := [], turnNo := 0, freeNo := 0, nextId := 0, cur := .none, cycle := 0, swFrac := 0, ready := 0, coming := 0, mem := [],
    lineOwner := [], badSec := [], poison := [], flash := [], l1 := [], l1c := [], l1Keep := [], icache := [], tlb := [],
    toks := [], reqs := [], msgs := [], prefs := [], preqs := [], acts := [], deacts := [], arrays := [], matReqs := [],
    dies := (List.range 8).map Die.reset, teams := [], grids := [], lathe := Lathe.reset, queues := [], wins := [],
    grps := [], insts := [], ctxs := [], arrivals := [], ueWaits := [], ueFails := [], listQ := [], store := [], progs := [], saveBase := 0, keys := [], oldKeys := [],
    ctxFaults := [], aborts := [], loadBad := none, dropped := 0, ueDropped := 0, ueRefused := 0, errLog := [], errCount := 0, mailbox := [], attest := [], bar2 := [], armQ := [], telemetry := [],
    meas := [], hostResp := none, dbgBuf := [] }

end Sys2Proof.Machine
end

