-- ==== Sys2Proof/Config.lean ====
section
/-! DEFINITION. Sys2Proof/Config.lean: what the spec leaves open, as opaque constants: nothing in Lean can evaluate them
or prove a value of them. -/

namespace Sys2Proof.Config

open Sys2Proof

/-- Which agent moves next, as a function of the turns taken, when no turn is listed (log 1). -/
opaque freeTurn : Nat → Machine.Turn

/-- Result bits of RSQ, EXP2, LOG2, SIN, COS and TANH (operation 0 to 5) for an operand outside Table 6-6 (R178; log 20). -/
opaque sfuValue : Nat → Word → Word

/-- A byte read under one owner's key where another's was last written: writer, reader, physical address, the bytes of
the 16-byte piece (R398: unrelated bytes; log 21). -/
opaque scramble : Nat → Nat → Nat → List Byte → Byte

/-- Does the firmware image verify, and what are the digests of the three images that boot loads from it, byte by byte (R483; log 22)? -/
opaque firmwareVerify : List (Nat × Byte) → Bool
opaque imageDigest : Nat → List (Nat × Byte) → Nat → Byte

/-- Does the header of an image carry a valid RSA-3072 signature (R446, R447; log 22)? -/
opaque rsaVerify : List Byte → Bool

/-- The attestation signature over a message (R484; log 22). -/
opaque sign : List Byte → List Byte

/-- Bytes of the identity block that the spec does not state (R482; log 23). -/
opaque identity : Nat → Byte

/-- A measured value of telemetry: refresh number and field (R486; log 24). -/
opaque telemetry : Nat → Nat → Word

/-- The outcome of a boot test (R17, R479, R483): whether a function or core passes (log 25). -/
opaque bootPasses : Nat → Bool

/-- A field whose value the boot firmware sets (`fw`): 3d, 3d+1, 3d+2 are FTQB, FTQN, TRTB of die d; 24, 25 are LQTB and
LUVER (R7, Tables 14-7 and 15-1; log 4). -/
opaque bootField : Nat → BitVec 64

/-- The address at which a die's firmware starts, and the key that boot loads for an owner, by boot and owner (R19, R483; log 4,
log 79). -/
opaque firmwareEntry : Nat → BitVec 64
opaque bootKey : Nat → Nat → BitVec 512

/-- Does an invalid translation that a device meets belong to a page that is being migrated, which it waits for (R311, R368;
log 94)? -/
opaque migrating : Nat → Bool

/-- The parameter blocks of the ranks of the other packages, and the least LW of their progress vectors, by group and
instance, twice the number for the first run and one more for a restart: the spec gives no message that carries them (R339, R349;
log 51). -/
opaque peerBlocks : Nat → Nat → List Machine.Block
opaque peerLw : Nat → Nat → Nat

/-- How the 64 bytes of a queue port in a swap image hold its binding, pattern, position and count of pushed elements: the values
in that order (binding 0 for none, else the spindle index plus 1; base, element width code, strides and counts), and the byte
(R405; log 113). -/
opaque portByte : List Nat → Nat → Byte

/-- What a reserved value of MODE.RM or MODE.SRSEL selects (R149, R414; log 58). -/
opaque reservedMode : Nat → Nat

/-- A free choice for one of many items: the counter's value and the item (log 99). -/
opaque freePick : Nat → Nat → Nat

/-- A free value drawn by a counter (log 26). -/
opaque freeWord : Nat → Word

end Sys2Proof.Config
end

