-- ==== Sys2Proof/Machine/Bits.lean ====
section
/-! DEFINITION. Sys2Proof/Machine/Bits.lean: bit fields, little-endian byte order (R6), sign extension, and the one
canonical form of a sparse map (log 3). -/

namespace Sys2Proof.Machine

open Sys2Proof

/-- Bits [lo+len-1:lo] of a word, as a number. -/
def bitsOf {w : Nat} (x : BitVec w) (lo len : Nat) : Nat := (x.extractLsb' lo len).toNat

/-- Bits [lo+len-1:lo] of a number. -/
def natBits (x lo len : Nat) : Nat := x / 2 ^ lo % 2 ^ len

/-- The two's complement value of the low `w` bits of `x` (R6). -/
def signedOf (w x : Nat) : Int :=
  let y := x % 2 ^ w
  if y < 2 ^ (w - 1) then (y : Int) else (y : Int) - 2 ^ w

/-- `r mod 2^w` (R112). -/
def wrapTo (w : Nat) (r : Int) : Nat := (r % (2 ^ w : Int)).toNat

/-- The `i`-th byte of a value, lowest first (R6). -/
def byteAt {w : Nat} (x : BitVec w) (i : Nat) : Byte := x.extractLsb' (8 * i) 8

/-- The low `n` bytes of a value, lowest first. -/
def toBytes {w : Nat} (x : BitVec w) (n : Nat) : List Byte := (List.range n).map (byteAt x)

/-- The value of bytes, lowest first. -/
def ofBytesNat : List Byte → Nat
  | [] => 0
  | b :: bs => b.toNat + 256 * ofBytesNat bs

/-- The value of bytes at a width. -/
def ofBytes (w : Nat) (bs : List Byte) : BitVec w := BitVec.ofNat w (ofBytesNat bs)

/-- The bytes of a list of words, lowest first. -/
def wordBytes (ws : List Word) : List Byte := ws.flatMap (toBytes · 4)

/-- Groups of four bytes as words, lowest first; a short tail is completed by zeros. -/
def bytesWords : List Byte → List Word
  | a :: b :: c :: d :: r => ofBytes 32 [a, b, c, d] :: bytesWords r
  | [] => []
  | r => [ofBytes 32 r]

/-! ## Sparse maps -/

/-- The value at a key: 0 where unlisted. -/
def mget {w : Nat} : SMap w → Nat → BitVec w
  | [], _ => 0
  | (k, v) :: r, x => if k = x then v else mget r x

/-- Remove a key. -/
def mdel {w : Nat} : SMap w → Nat → SMap w
  | [], _ => []
  | (k, v) :: r, x => if k = x then mdel r x else (k, v) :: mdel r x

/-- Insert a value at a key, keeping the keys rising. -/
def mins {w : Nat} : SMap w → Nat → BitVec w → SMap w
  | [], x, y => [(x, y)]
  | (k, v) :: r, x, y =>
    if k = x then (x, y) :: r else if x < k then (x, y) :: (k, v) :: r else (k, v) :: mins r x y

/-- Write a value at a key in canonical form: 0 is what an unlisted key reads as, so it is not listed. -/
def mset {w : Nat} (m : SMap w) (x : Nat) (y : BitVec w) : SMap w :=
  if y = 0 then mdel m x else mins m x y

/-- Keys strictly rising above a bound and no entry 0. -/
def mwfFrom {w : Nat} (lo : Nat) : SMap w → Bool
  | [] => true
  | (k, v) :: r => decide (lo ≤ k) && decide (v ≠ 0) && mwfFrom (k + 1) r

/-- The canonical form: keys strictly rising and no entry 0. -/
def mwf {w : Nat} (m : SMap w) : Bool := mwfFrom 0 m

/-- Write a list of values at consecutive keys. -/
def msetList {w : Nat} (m : SMap w) (x : Nat) : List (BitVec w) → SMap w
  | [] => m
  | y :: ys => msetList (mset m x y) (x + 1) ys

/-- The values at `n` consecutive keys. -/
def mgetList {w : Nat} (m : SMap w) (x n : Nat) : List (BitVec w) := (List.range n).map fun i => mget m (x + i)

/-- Drop the keys from `lo` up to, but not including, `hi`. -/
def mclear {w : Nat} (m : SMap w) (lo hi : Nat) : SMap w := m.filter fun e => decide (e.1 < lo) || decide (hi ≤ e.1)

/-! ## Lists of records -/

/-- Replace every element that satisfies a test. -/
def updWhere {α : Type} (p : α → Bool) (f : α → α) (l : List α) : List α := l.map fun x => if p x then f x else x

/-- Insertion into a list sorted by a key. -/
def insertBy {α : Type} (key : α → Nat) (x : α) : List α → List α
  | [] => [x]
  | y :: ys => if key x < key y then x :: y :: ys else y :: insertBy key x ys

/-- A list sorted by a key; elements of one key keep their order. -/
def sortBy {α : Type} (key : α → Nat) (l : List α) : List α := l.foldl (fun r x => insertBy key x r) []

/-- Is every element of a list one that is also in another? -/
def subsetOf {α : Type} [BEq α] (a b : List α) : Bool := a.all fun x => b.contains x

/-- Threads of a mask, ascending. -/
def threadsOf (m : BitVec 8) : List Nat := (List.range 8).filter fun t => m.getLsbD t

/-- The mask of a list of threads. -/
def maskOf (ts : List Nat) : BitVec 8 := ts.foldl (fun m t => m ||| (1 <<< t)) 0

end Sys2Proof.Machine
end

