-- ==== Sys2Proof/Machine/Operands.lean ====
section
/-! DEFINITION. Sys2Proof/Machine/Operands.lean: the fields of the three instruction words (R46, R64, R366, R420), the
operand values of Table 2-2, and for every Jolisol form what its fields may hold (Tables 2-3, 2-4, 3-4, 4-2, 4-6, 4-7,
4-8, 5-7, 6-1, 7-11, 8-3, 8-6, 9-5, 10-4, 10-8, 11-6, 12-7, 14-6) and which registers it reads and writes. -/

namespace Sys2Proof.Machine

open Sys2Proof

/-! ## Fields of the Jolisol word -/

/-- Layout C: operand C [31:22]. -/
def jC (w : JWord) : BitVec 10 := w.mod.extractLsb' 22 10
/-- Layout C: operand Z [21:12]. -/
def jZ (w : JWord) : BitVec 10 := w.mod.extractLsb' 12 10
/-- Layout C: auxiliary predicate P [11:6]. -/
def jP (w : JWord) : Nat := bitsOf w.mod 6 6
/-- Layout C: control K [5:0]. -/
def jK (w : JWord) : Nat := bitsOf w.mod 0 6
/-- Layouts A and E: operand C [26:17]. -/
def jC17 (w : JWord) : BitVec 10 := w.mod.extractLsb' 17 10
/-- Scope [31:29]. -/
def jScope (w : JWord) : Nat := bitsOf w.mod 29 3
/-- Order [28:27]. -/
def jOrder (w : JWord) : Nat := bitsOf w.mod 27 2
/-- Layout E flags. -/
def jRel (w : JWord) : Bool := w.mod.getLsbD 28
def jAcq (w : JWord) : Bool := w.mod.getLsbD 27
/-- Layout M: cache policy [26:24]. -/
def jPolicy (w : JWord) : Nat := bitsOf w.mod 24 3
/-- Layout M: the signed byte offset [23:0]. -/
def jOffM (w : JWord) : BitVec 64 := (w.mod.extractLsb' 0 24).signExtend 64
/-- Layout A: the signed byte offset [16:0]. -/
def jOffA (w : JWord) : BitVec 64 := (w.mod.extractLsb' 0 17).signExtend 64
/-- Layout T, and the modifier word of ENDLOOP: the signed displacement. -/
def jDisp (w : JWord) : BitVec 64 := w.mod.signExtend 64
/-- The join displacement of BRD, bits [79:50]. -/
def jJoin (w : JWord) : BitVec 64 := (w.d ++ w.a ++ w.b : BitVec 30).signExtend 64
/-- Type code MIN[6:0] of the integer class. -/
def jType (w : JWord) : Nat := bitsOf w.min 0 7
/-- MIN[7]: the immediate form. -/
def jImm (w : JWord) : Bool := w.min.getLsbD 7

/-- The 96-bit word of a major opcode and its other fields (Table 2-1). -/
def jPack (maj : Nat) (w : JWord) : IWord :=
  (BitVec.ofNat 8 maj ++ w.min ++ w.d ++ w.a ++ w.b ++ w.grd ++ BitVec.ofBool w.gneg ++ w.la ++ BitVec.ofBool w.hlda
    ++ BitVec.ofBool w.hldb ++ BitVec.ofBool w.uni ++ w.rnd ++ w.mod : BitVec 96)

/-- The fields of a 96-bit word below MAJ. -/
def jUnpack (x : IWord) : JWord :=
  { min := x.extractLsb' 80 8, d := x.extractLsb' 70 10, a := x.extractLsb' 60 10, b := x.extractLsb' 50 10,
    grd := x.extractLsb' 44 6, gneg := x.getLsbD 43, la := x.extractLsb' 39 4, hlda := x.getLsbD 38,
    hldb := x.getLsbD 37, uni := x.getLsbD 36, rnd := x.extractLsb' 32 4, mod := x.extractLsb' 0 32 }

/-- MAJ [95:88]. -/
def jMaj (x : IWord) : Nat := bitsOf x 88 8

/-! ## Operands -/

/-- An operand field's value (Table 2-2). -/
inductive Opnd where
  | v (n : Nat) | s (n : Nat) | load (q : Nat) | storeQ (q : Nat) | zero | tix | imm | reserved
  deriving DecidableEq, Repr, Inhabited

/-- Table 2-2. -/
def opnd (x : BitVec 10) : Opnd :=
  let n := x.toNat
  if n < 0x300 then .v n
  else if n < 0x340 then .s (n - 0x300)
  else if n < 0x344 then .load (n - 0x340)
  else if n < 0x348 then .storeQ (n - 0x340)
  else if n = 0x348 then .zero
  else if n = 0x349 then .tix
  else if n = 0x34A then .imm
  else .reserved

/-- An operand's kind. -/
inductive Kd where
  | v | s | q | sq | z | t | i | r
  deriving DecidableEq, Repr, Inhabited

def Opnd.kd : Opnd → Kd
  | .v _ => .v | .s _ => .s | .load _ => .q | .storeQ _ => .sq | .zero => .z | .tix => .t | .imm => .i | .reserved => .r

/-- What a form lets one of its fields hold. -/
inductive Fld where
  /-- Not an operand of the form: holds 0x348 (R50). -/
  | unused
  /-- An operand: the kinds allowed without UNI, the registers it covers, and the multiple its index must be (R48). -/
  | op (kinds : List Kd) (cover align : Nat)
  /-- A predicate destination, with codes 0 to `maxCode` in [9:6] (R51). -/
  | pdst (maxCode : Nat)
  /-- A predicate source (R125). -/
  | psrc
  /-- A condition of the control class (R90). -/
  | cond
  /-- The first predicate of P2V and V2P (R126). -/
  | pbase
  /-- The loop depth L of BREAK and CONT (R90). -/
  | depth
  /-- Bits of the BRD join displacement. -/
  | raw
  deriving DecidableEq, Repr, Inhabited

/-- The layout of the modifier word (Table 2-5); layout I is that of layout C forms with MIN[7] = 1 (R68). -/
inductive Layout where
  | c | t | m | a | s | e | n
  deriving DecidableEq, Repr, Inhabited

/-- Which RND values a form accepts (Table 2-4, R62, R166). -/
inductive RndSet where
  | zero | any | noStoch
  deriving DecidableEq, Repr, Inhabited

/-- Which hold bits a form accepts (R59, R90, R248, R267, R285, R320, R350, R407). -/
inductive HoldSet where
  | byOperand | onlyA | never
  deriving DecidableEq, Repr, Inhabited

/-- What one Jolisol form requires of its word, and the predicates it touches beside its operands. -/
structure JSpec where
  /-- MIN is one that the form defines (Table 2-9 step 1), and, for the copy class, the format pair is legal (R268). -/
  minOk : Bool := true
  long  : Bool := false
  lay   : Layout
  guarded : Bool := true
  uni   : Bool := false
  rnd   : RndSet := .zero
  hold  : HoldSet := .byOperand
  d : Fld := .unused
  a : Fld := .unused
  b : Fld := .unused
  c : Fld := .unused
  /-- P is used as a predicate, read or written. -/
  pRead : Bool := false
  pWrite : Bool := false
  /-- Legal K bits of layout C; legal MOD bits of the other layouts. -/
  bits  : Nat := 0
  /-- Legal order codes of layouts M, A, S. -/
  orders : List Nat := [0]
  /-- Layout E: REL and ACQ may be set; a scope needs one of them. -/
  relOk : Bool := false
  acqOk : Bool := false
  scopeNeedsFlag : Bool := false
  /-- Further conditions of steps 2 and 3. -/
  more2 : Bool := true
  more3 : Bool := true
  /-- Further predicates read and written. -/
  rdP : List Nat := []
  wrP : List Nat := []
  deriving Repr, Inhabited

def kInt : List Kd := [.v, .s, .z, .q, .t, .i]
def kIntD : List Kd := [.v, .z, .sq]
def kFlt : List Kd := [.v, .s, .z, .q, .i]
def kCnv : List Kd := [.v, .s, .z, .q]
def kVSZ : List Kd := [.v, .s, .z]

/-- Registers covered by a 32- or 64-bit integer type. -/
def intRegs (w : JWord) : Nat := if jType w = 6 then 2 else 1

/-- A C-layout form of the integer class (Table 4-2): types, immediate, uniform. -/
def intSpec (w : JWord) (types : List Nat) (imm uni : Bool) (d a b c : Fld) (k : Nat) : JSpec :=
  { minOk := types.contains (jType w) && (imm || !jImm w), lay := .c, uni := uni, d := d, a := a, b := b, c := c,
    bits := k }

/-- The two-source element forms. -/
def int2 (w : JWord) (types : List Nat) (k : Nat) : JSpec :=
  let n := intRegs w
  intSpec w types true true (.op kIntD n n) (.op kInt n n) (.op kInt n n) .unused k

/-- Shifts: B is always 32 bits in the `.b64` form. -/
def intShift (w : JWord) (types : List Nat) : JSpec :=
  let n := intRegs w
  intSpec w types true true (.op kIntD n n) (.op kInt n n) (.op kInt 1 1) .unused 0

/-- One-source bit forms with a 32-bit result in `.b64` (CLZ, FFS, POPC), or a full one. -/
def int1 (w : JWord) (types : List Nat) (dRegs : Nat) (k : Nat) : JSpec :=
  let n := intRegs w
  intSpec w types false true (.op kIntD dRegs dRegs) (.op kInt n n) .unused .unused k

/-- Layout N with fixed MIN and given MOD bits. -/
def nSpec (w : JWord) (mn : Nat) (bits : Nat) (d a b : Fld) : JSpec :=
  { minOk := w.min.toNat == mn, lay := .n, bits := bits, d := d, a := a, b := b }

/-- A control form (Table 3-4). -/
def ctlSpec (w : JWord) (mn : Nat) (lay : Layout) (guarded : Bool) (d a : Fld) : JSpec :=
  { minOk := w.min.toNat == mn, lay := lay, guarded := guarded, hold := .never, d := d, a := a,
    bits := if lay = .t then 0xFFFFFFFF else 0 }

/-- Predicate numbers of a predicate source or condition field. -/
def psrcRd (x : BitVec 10) : List Nat := let n := bitsOf x 0 6; if n < 48 then [n] else []

/-- A predicate logic form (Table 4-6). -/
def plogSpec (w : JWord) (two : Bool) : JSpec :=
  { nSpec w 0 0 (.pdst 0) .psrc (if two then .psrc else .unused) with
    rdP := psrcRd w.a ++ (if two then psrcRd w.b else []) }

/-- The set bits of P2V and V2P's mask, as predicates from b on. -/
def pbank (b : Nat) (m : Word) : List Nat := ((List.range 32).filter fun i => m.getLsbD i).map (b + ·)

/-- PICK and GPICK (Tables 4-7, 4-8); `base` is 0x00 or 0x10 and `sel` the variant. -/
def pickSpec (w : JWord) (base sel : Nat) (long : Bool) : JSpec :=
  { minOk := bitsOf w.min 0 7 == base + sel, long := long, lay := .c, d := .op [.v] 1 1, a := .op [.v] 1 1,
    b := .op (if jImm w then [.v, .s, .z, .i] else kVSZ) 1 1, pWrite := true }

/-- GBALLOT (Table 4-8). -/
def gballotSpec (w : JWord) (mn : Nat) (pred : Bool) : JSpec :=
  { nSpec w mn 0 (if pred then .pdst 0 else .op [.v] 1 1) .psrc .unused with long := true, rdP := psrcRd w.a }

/-- Bytes of a copy, memory or conversion count (Table 5-8). -/
def cvtpkD (w : JWord) : Nat :=
  let cnt := bitsOf w.min 4 3
  let wide := decide (bitsOf w.min 0 4 < 3)
  if wide then 2 ^ cnt else 2 ^ cnt / 2

def cvtSpec (w : JWord) (ok : Bool) : JSpec :=
  { minOk := ok && !jImm w, long := true, lay := .c, rnd := .any, d := .op [.v] 1 1, a := .op kCnv 1 1 }

/-- Drop the stream, tix and immediate kinds of a conversion operand that covers several registers (R154). -/
def cvKinds (n : Nat) : List Kd := if n = 1 then kCnv else kVSZ
/-- A store stream may stand for a single 32-bit destination (R154). -/
def cvDst (n : Nat) : List Kd := if n = 1 then [.v, .sq] else [.v]

def cvtpkSpec (w : JWord) : JSpec :=
  let cnt := bitsOf w.min 4 3
  let dst := bitsOf w.min 0 4
  let n := cvtpkD w
  let an := if cnt = 0 then 2 else 4
  { minOk := decide (cnt < 3) && [1, 2, 3, 4, 9, 10].contains dst && (cnt != 0 || decide (dst < 3)) && !jImm w,
    long := true, lay := .c, rnd := .any, d := .op (cvDst n) n n, a := .op kVSZ an an,
    b := if cnt = 2 then .op kVSZ 4 4 else .unused,
    c := if jK w % 2 = 1 then .op kVSZ 1 1 else .unused, bits := 1 }

def cvtupSpec (w : JWord) : JSpec :=
  let cnt := bitsOf w.min 5 2
  let dst := bitsOf w.min 3 2
  let src := bitsOf w.min 0 3
  let dn := if dst = 0 then 2 * 2 ^ cnt else 2 ^ cnt
  let an := if src < 3 then 2 ^ cnt else (2 ^ cnt + 1) / 2
  { minOk := decide (cnt < 3) && decide (dst < 3) && decide (1 ≤ src) && decide (src ≤ 4) &&
      (cnt != 2 || dst != 0) && !jImm w,
    long := true, lay := .c, rnd := .any, d := .op (cvDst dn) dn dn, a := .op (cvKinds an) an an,
    c := if jK w % 2 = 1 then .op kVSZ 1 1 else .unused, bits := 1 }

/-- A float form (Table 6-1): legal MIN[6:0], immediate, uniform, two sources, C, RND. -/
def fltSpec (w : JWord) (mns : List Nat) (imm uni two three : Bool) (rnd : RndSet) (long : Bool) : JSpec :=
  { minOk := mns.contains (jType w) && (imm || !jImm w), long := long, lay := .c, uni := uni, rnd := rnd,
    d := .op [.v, .sq] 1 1, a := .op kFlt 1 1, b := if two then .op kFlt 1 1 else .unused,
    c := if three then .op kFlt 1 1 else .unused }

/-- Registers of a memory width code (Table 2-8). -/
def widthRegs (code : Nat) : Nat := if code = 3 then 2 else if code = 4 then 4 else 1

/-- Bytes of a memory width code. -/
def widthBytes (code : Nat) : Nat :=
  if code = 0 then 1 else if code = 1 then 2 else if code = 2 then 4 else if code = 3 then 8 else if code = 4 then 16
  else if code = 5 then 1 else 2

def loadSpec (w : JWord) (a : Fld) : JSpec :=
  let n := widthRegs w.min.toNat
  { minOk := decide (w.min.toNat < 7), long := true, lay := .m, uni := true, d := .op [.v, .z] n n, a := a,
    bits := 0xFFFFFFFF, orders := [0, 1], more2 := decide (jPolicy w < 4) }

def storeSpec (w : JWord) (a : Fld) : JSpec :=
  let n := widthRegs w.min.toNat
  { minOk := decide (w.min.toNat < 5), long := true, lay := .m, uni := true, a := a, b := .op kVSZ n n,
    bits := 0xFFFFFFFF, orders := [0, 2], more2 := decide (jPolicy w < 4) }

/-- PREF, DISCARD and CCTL: scope and order are zero (R211). -/
def mOther (w : JWord) (mn : Nat) (a b : Fld) (bits : Nat) : JSpec :=
  { minOk := w.min.toNat == mn, long := true, lay := .m, a := a, b := b, bits := bits,
    more2 := decide (jPolicy w < 4) }

/-- ATOM and RED of one mnemonic: its operation codes, and whether 64 bits exist (Table 8-4). -/
def atomSpec (w : JWord) (ops : List Nat) (wide red : Bool) : JSpec :=
  let wc := bitsOf w.min 0 3
  let n := widthRegs wc
  { minOk := !jImm w && ops.contains (bitsOf w.min 3 4) && (wc == 2 || (wide && wc == 3)), long := true, lay := .a,
    d := if red then .unused else .op [.v, .z] n n, a := .op [.v, .s] 2 2, b := .op kVSZ n n, bits := 0xFFFFFFFF,
    orders := [0, 1, 2, 3] }

/-- Barrier identifiers and counts of a level (R247, R248). -/
def barIds (level : Nat) : Nat := if level = 0 then 16 else if level = 1 then 4 else 8
def barMax (level : Nat) : Nat := if level = 0 then 512 else if level = 1 then 2048 else 32768

def barSpec (w : JWord) (level : Nat) (long : Bool) (d a : Fld) (count : Bool) (order : Nat) : JSpec :=
  { minOk := w.min.toNat == level, long := long, lay := .s, hold := .never, d := d, a := a,
    bits := if count then 0xF80FFFFF else 0xF800000F, orders := [0, order],
    more2 := (jOrder w != 0 || jScope w == 0) && decide (bitsOf w.mod 0 4 < barIds level) &&
      (!count || decide (bitsOf w.mod 4 16 ≤ barMax level)) }

/-- The storage and tile format pairs of R268 for a copy form: 0 TCOPY, 1 TSTORE, 2 TGATHER, 3 TSCATTER, 4 TFILL. -/
def copyPair (form sf tf sop : Nat) : Bool :=
  let p := (sf, tf)
  let q := (tf, sf)
  decide (tf ≤ 5) &&
  (if form = 4 then sf == 0
   else if form = 0 ∨ form = 2 then
     sf == tf || [(6, 3), (3, 0), (3, 1), (3, 2), (4, 0), (4, 1), (4, 2), (1, 0), (2, 0)].contains p
   else if sop = 1 then sf == 0 && tf == 0
   else if sop = 2 then sf == 2 && tf == 2
   else sf == tf ||
     [(0, 1), (0, 2), (0, 3), (0, 4), (0, 6), (1, 2), (2, 1), (1, 3), (1, 4), (1, 6), (2, 3), (2, 4), (2, 6),
      (3, 6)].contains q)

def copySpec (w : JWord) (form : Nat) : JSpec :=
  let sop := if form = 3 then bitsOf w.mod 11 2 else 0
  { minOk := w.min.toNat == 0 && copyPair form (bitsOf w.mod 0 4) (bitsOf w.mod 4 4) sop, long := true, lay := .e,
    rnd := if form = 1 ∨ form = 3 then .noStoch else .zero, hold := .never,
    a := if form = 4 then .unused else .op [.s] 4 4, b := .op [.s] 4 4,
    c := if form = 4 then .unused else .op [.s, .z] 4 4,
    bits := if form ≤ 1 then 0xFFFFE0FF else if form = 3 then 0xFFFFD8FF else if form = 2 then 0xFFFFC0FF else 0xFFFFC0F0,
    relOk := true, acqOk := true,
    more2 := decide (bitsOf w.mod 14 3 < 4) && (form != 3 || sop != 3) }

/-- The legal A and B format pairs of an MMA (R279, Table 10-2), with SC and CX. -/
def mmaMinOk (mn : Nat) : Bool :=
  let a := mn % 8
  let b := mn / 8 % 8
  let sc := mn / 64 % 2 = 1
  let cx := mn / 128 = 1
  (decide (a < 2 ∧ b < 2) && decide (¬cx)) || (decide (a = 2 ∧ b = 2) && decide (¬cx)) ||
  (decide (a = b ∧ 2 < a ∧ a < 5) && decide (¬sc))

def dispSpec (w : JWord) (mn : Nat) (d a b : Fld) (bits : Nat) (rel acq : Bool) : JSpec :=
  { minOk := w.min.toNat == mn, long := true, lay := .e, hold := .never, d := d, a := a, b := b, bits := bits,
    relOk := rel, acqOk := acq, scopeNeedsFlag := true }

def sysSpec (w : JWord) (mn : Nat) (d a b : Fld) (bits : Nat) : JSpec :=
  { nSpec w mn bits d a b with hold := .never }

/-- The width in registers of a system register (Table 14-7), none for an undefined number. -/
def sysRegs (n : Nat) : Option Nat :=
  if n = 0 ∨ n = 1 ∨ n = 8 ∨ n = 9 then some 2
  else if n = 2 ∨ (0xC ≤ n ∧ n ≤ 0xF) then some 1
  else if 0x10 ≤ n ∧ n ≤ 0x17 then some 2
  else if n = 0x20 then some 2
  else if n = 0x21 ∨ n = 0x22 then some 1
  else if n = 0x30 ∨ (0x40 ≤ n ∧ n ≤ 0x46) ∨ n = 0x48 then some 2
  else if n = 0x100 ∨ (0x103 ≤ n ∧ n ≤ 0x107) then some 2
  else if n = 0x101 ∨ n = 0x102 then some 1
  else none

/-- GETID selectors of Table 3-6. -/
def getidOk (sel : Nat) (uni : Bool) : Bool :=
  (decide (sel ≤ 0x0B) || (decide (0x10 ≤ sel) && decide (sel ≤ 0x1C))) && !(uni && decide (sel < 2))

/-- The comparison forms' combine field: K[1:0] ≤ 2, and 0 with P = 63 (R120, R174). -/
def combineOk (w : JWord) : Bool := jImm w || (jK w != 3 && (jP w != 63 || jK w == 0))

/-- What each Jolisol constructor requires of its word. `nsc` is the number of A-scale registers of an MMA, which its B
descriptor decides (R281). Other constructors have no word of this kind. -/
def jspec (nsc : Nat) : Instr → Option (JWord × JSpec)
  | .bra w => some (w, ctlSpec w 0 .t true .unused .unused)
  | .brd w => some (w, { ctlSpec w 0 .t true .raw .raw with b := .raw })
  | .jmps w => some (w, ctlSpec w 0 .n true .unused (.op kVSZ 2 2))
  | .call w => some (w, ctlSpec w 0 .t true (.op [.s] 2 2) .unused)
  | .calls w => some (w, ctlSpec w 1 .n true (.op [.s] 2 2) (.op kVSZ 2 2))
  | .ret w => some (w, ctlSpec w 2 .n true .unused (.op kVSZ 2 2))
  | .ifI w => some (w, { ctlSpec w 0 .t false .cond .unused with rdP := psrcRd w.d })
  | .elseI w => some (w, ctlSpec w 1 .t false .unused .unused)
  | .endif w => some (w, ctlSpec w 2 .n false .unused .unused)
  | .loopI w => some (w, ctlSpec w 0 .t false .unused .unused)
  | .breakI w => some (w, { ctlSpec w 1 .t false .cond .depth with rdP := psrcRd w.d })
  | .contI w => some (w, { ctlSpec w 2 .t false .cond .depth with rdP := psrcRd w.d })
  | .endloop w => some (w, { ctlSpec w 3 .n false .unused .unused with bits := 0xFFFFFFFF })
  | .exitI w => some (w, ctlSpec w 0 .n true .unused .unused)
  | .rfl w =>
    let n := if w.mod.getLsbD 0 then 2 else 1
    let p := bitsOf w.mod 6 6
    some (w, { ctlSpec w 0 .n true (.op [.s] n n) (.op [.v] n n) with
      bits := 0xFC1, more3 := decide (p < 48) || p == 63, wrP := if p < 48 then [p] else [] })
  | .getid w => some (w, { ctlSpec w 1 .n true (.op [.v] 1 1) .unused with
      bits := 0xFF, uni := true, more2 := getidOk (bitsOf w.mod 0 8) w.uni })
  | .nop w => some (w, ctlSpec w 0 .n true .unused .unused)
  | .sleep w => some (w, { ctlSpec w 1 .n true .unused .unused with bits := 0xFFFFF })
  | .iadd w | .isub w | .imul w => some (w, int2 w [0, 1, 2, 3, 4, 5, 6] 1)
  | .iaddx w => some (w, { intSpec w [0] false false (.op kIntD 1 1) (.op kInt 1 1) (.op kInt 1 1) .unused 0x3F with
      pRead := true, more3 := decide (jK w < 48) || jK w == 63, wrP := if jK w < 48 then [jK w] else [] })
  | .imulhi w | .imin w | .imax w => some (w, int2 w [0, 1, 2, 3, 4, 5, 6] 0)
  | .imad w =>
    let n := intRegs w
    some (w, intSpec w [0, 1, 2, 3, 4, 5, 6] false true (.op kIntD n n) (.op kInt n n) (.op kInt n n) (.op kInt n n) 1)
  | .imadw w => some (w, intSpec w [0, 1] false true (.op kIntD 2 2) (.op kInt 1 1) (.op kInt 1 1) (.op kInt 2 2) 0)
  | .iabs w | .ineg w => some (w, int1 w [1, 3, 5] 1 1)
  | .andI w | .orI w | .xorI w | .andn w => some (w, int2 w [0, 6] 0)
  | .notI w => some (w, int1 w [0, 6] (intRegs w) 0)
  | .shl w | .shr w | .rot w => some (w, intShift w [0, 2, 4, 6])
  | .sar w => some (w, intShift w [1, 3, 5, 6])
  | .fshf w => some (w, intSpec w [0] false true (.op kIntD 1 1) (.op kInt 1 1) (.op kInt 1 1) (.op kInt 1 1) 1)
  | .bfe w => some (w, int2 w [0, 1] 0)
  | .bfi w => some (w, intSpec w [0] false true (.op kIntD 1 1) (.op kInt 1 1) (.op kInt 1 1) (.op kInt 1 1) 0)
  | .brev w => some (w, int1 w [0, 6] (intRegs w) 0)
  | .clz w | .ffs w | .popc w => some (w, int1 w [0, 2, 4, 6] 1 0)
  | .icmp w =>
    let n := intRegs w
    some (w, { intSpec w [0, 1, 6] true false (.pdst 5) (.op kInt n n) (.op kInt n n) .unused 3 with
      pRead := true, more2 := combineOk w })
  | .sel w =>
    let n := intRegs w
    some (w, { intSpec w [0, 6] false false (.op kIntD n n) (.op kInt n n) (.op kInt n n) .unused 0 with pRead := true })
  | .mov w => let n := intRegs w; some (w, intSpec w [0, 6] false true (.op kIntD n n) (.op kInt n n) .unused .unused 0)
  | .movi w =>
    let n := intRegs w
    some (w, { intSpec w [0, 6] true true (.op kIntD n n) (.op [.i] n n) .unused .unused 0 with
      minOk := jImm w && [0, 6].contains (jType w) })
  | .lea w => some (w, intSpec w [0, 1] true true (.op kIntD 2 2) (.op kVSZ 2 2) (.op kInt 1 1) .unused 7)
  | .idot4 w => some (w, intSpec w [4, 5] false true (.op kIntD 1 1) (.op kInt 1 1) (.op kInt 1 1) (.op kInt 1 1) 1)
  | .pand w | .por w | .pxor w => some (w, plogSpec w true)
  | .pnot w => some (w, plogSpec w false)
  | .p2v w => some (w, { nSpec w 0 0xFFFFFFFF (.op [.v] 1 1) .pbase .unused with
      more3 := (pbank (bitsOf w.a 0 6) w.mod).all (decide <| · < 48), rdP := pbank (bitsOf w.a 0 6) w.mod })
  | .v2p w => some (w, { nSpec w 1 0xFFFFFFFF .pbase (.op [.v, .s] 1 1) .unused with
      more3 := decide (bitsOf w.d 0 6 < 48) && (pbank (bitsOf w.d 0 6) w.mod).all (decide <| · < 48),
      wrP := pbank (bitsOf w.d 0 6) w.mod })
  | .ballot w => some (w, { nSpec w 0 0 (.op [.v, .s] 1 1) .psrc .unused with rdP := psrcRd w.a })
  | .voteAll w => some (w, { nSpec w 1 0 (.pdst 0) .psrc .unused with rdP := psrcRd w.a })
  | .voteAny w => some (w, { nSpec w 2 0 (.pdst 0) .psrc .unused with rdP := psrcRd w.a })
  | .voteSame w => some (w, { nSpec w 3 0 (.pdst 0) .psrc .unused with rdP := psrcRd w.a })
  | .pickAt w => some (w, pickSpec w 0 0 false)
  | .pickBelow w => some (w, pickSpec w 0 1 false)
  | .pickAbove w => some (w, pickSpec w 0 2 false)
  | .pickFlip w => some (w, pickSpec w 0 3 false)
  | .gballotPopc w => some (w, gballotSpec w 0 false)
  | .gballotAny w => some (w, gballotSpec w 1 true)
  | .gballotAll w => some (w, gballotSpec w 2 true)
  | .gballotPfx w => some (w, gballotSpec w 3 false)
  | .gballotMask w => some (w, gballotSpec w 4 false)
  | .gpickAt w => some (w, pickSpec w 0x10 0 true)
  | .gpickBelow w => some (w, pickSpec w 0x10 1 true)
  | .gpickAbove w => some (w, pickSpec w 0x10 2 true)
  | .gpickFlip w => some (w, pickSpec w 0x10 3 true)
  | .cvt w =>
    let d := bitsOf w.min 3 3
    let s := bitsOf w.min 0 3
    some (w, cvtSpec w (decide (d < 5 ∧ s < 5 ∧ d ≠ s) && !w.min.getLsbD 6))
  | .cvti w =>
    let d := bitsOf w.min 3 4
    some (w, cvtSpec w (decide (5 ≤ d ∧ d ≤ 10 ∧ bitsOf w.min 0 3 < 5)))
  | .cvtf w =>
    let s := bitsOf w.min 0 4
    some (w, cvtSpec w (decide (bitsOf w.min 4 3 < 5 ∧ 5 ≤ s ∧ s ≤ 10)))
  | .cvtpk w => some (w, cvtpkSpec w)
  | .cvtup w => some (w, cvtupSpec w)
  | .fscale w => some (w, { fltSpec w [0, 1, 2] true false true false .any true with
      d := .op [.v] 1 1, a := .op kCnv 1 1, b := .op (if jImm w then [.v, .s, .z, .i] else kVSZ) 1 1 })
  | .getmode w => some (w, { minOk := w.min.toNat == 0, lay := .c, uni := true, d := .op [.v] 1 1, bits := 3, more2 := jK w == 0 })
  | .getmodeGen w => some (w, { minOk := w.min.toNat == 0, lay := .c, uni := true, d := .op [.v] 1 1, bits := 3, more2 := jK w == 1 && !w.uni })
  | .setmode w => some (w, { minOk := w.min.toNat == 1, lay := .c, uni := true, a := .op [.s, .z] 1 1, b := .op [.s, .z] 1 1, bits := 3, more2 := jK w == 0 })
  | .setmodeImm w => some (w, { minOk := w.min.toNat == 0x81, lay := .c, uni := true, a := .op [.i] 1 1 })
  | .setmodeGen w => some (w, { minOk := w.min.toNat == 1, lay := .c, uni := true, a := .op kVSZ 1 1, bits := 3, more2 := jK w == 1 && !w.uni })
  | .fadd w | .fsub w | .fmul w => some (w, fltSpec w [0] true true true false .any false)
  | .ffma w => some (w, fltSpec w [0] false true true true .any false)
  | .fmin w | .fmax w => some (w, fltSpec w [0] true true true false .zero false)
  | .fcmp w => some (w, { fltSpec w [0] true false true false .zero false with
      d := .pdst 13, bits := 3, pRead := true, more2 := combineOk w })
  | .fclass w => some (w, fltSpec w [0] false false false false .zero false)
  | .pkadd w | .pkmul w => some (w, fltSpec w [0, 1] true false true false .any false)
  | .pkfma w => some (w, fltSpec w [0, 1] false false true true .any false)
  | .rcp w | .sqrt w => some (w, fltSpec w [0] false false false false .any true)
  | .rsq w | .exp2 w | .log2 w | .sin w | .cos w | .tanh w => some (w, fltSpec w [0] false false false false .zero true)
  | .fsum w => some (w, fltSpec w [0] false false false false .noStoch false)
  | .fmaxr w => some (w, fltSpec w [0] false false false false .zero false)
  | .ld w => some (w, loadSpec w (.op [.v, .s] 2 2))
  | .st w => some (w, storeSpec w (.op [.v, .s] 2 2))
  | .ldl w | .ldc w => some (w, loadSpec w (.op kVSZ 1 1))
  | .stl w | .stc w => some (w, storeSpec w (.op kVSZ 1 1))
  | .pref w => some (w, mOther w 0 (.op [.v, .s] 2 2) .unused 0x07FFFFFF)
  | .discard w => some (w, mOther w 0 (.op [.v, .s] 2 2) (.op kVSZ 1 1) 0x07FFFFFF)
  | .cctlWb w => some (w, mOther w 0 (.op [.v, .s] 2 2) .unused 0x07FFFFFF)
  | .cctlInv w => some (w, mOther w 1 (.op [.v, .s] 2 2) .unused 0x07FFFFFF)
  | .cctlIinv w => some (w, mOther w 2 (.op [.v, .s] 2 2) .unused 0x07FFFFFF)
  | .cctlInvrs w => some (w, mOther w 3 .unused .unused 0)
  | .cctlWball w => some (w, mOther w 4 .unused .unused 0)
  | .qcfg w =>
    let wc := bitsOf w.mod 4 3
    some (w, { nSpec w 0 0x77 .unused (.op [.s] 4 4) (.op [.s] 4 4) with
      more2 := [0, 1, 2, 5, 6].contains wc && !(decide (5 ≤ wc) && decide (4 ≤ bitsOf w.mod 0 3)) })
  | .qcfgFree w => some (w, nSpec w 1 7 .unused .unused .unused)
  | .qstatPos w => some (w, { nSpec w 0 0x37 (.op [.v] 1 1) .unused .unused with
      long := true, uni := true, more2 := bitsOf w.mod 4 2 == 0 })
  | .qstatLeft w => some (w, { nSpec w 0 0x37 (.op [.v] 1 1) .unused .unused with
      long := true, uni := true, more2 := bitsOf w.mod 4 2 == 1 })
  | .qstatStat w => some (w, { nSpec w 0 0x37 (.op [.v] 1 1) .unused .unused with
      long := true, uni := true, more2 := bitsOf w.mod 4 2 == 2 })
  | .wait w => some (w, { minOk := decide (w.min.toNat < 7), lay := .n, a := .op [.s, .z] 1 1, bits := if w.a = 0x348 then 0x3F else 0 })
  | .atomAdd w => some (w, atomSpec w [0] true false)
  | .atomMin w => some (w, atomSpec w [1, 3] true false)
  | .atomMax w => some (w, atomSpec w [2, 4] true false)
  | .atomAnd w => some (w, atomSpec w [5] true false)
  | .atomOr w => some (w, atomSpec w [6] true false)
  | .atomXor w => some (w, atomSpec w [7] true false)
  | .atomExch w => some (w, atomSpec w [8] true false)
  | .atomFadd w => some (w, atomSpec w [9] false false)
  | .atomBfadd w => some (w, atomSpec w [10] false false)
  | .acas w =>
    let n := widthRegs w.min.toNat
    some (w, { minOk := decide (2 ≤ w.min.toNat ∧ w.min.toNat ≤ 4), long := true, lay := .a, d := .op [.v, .z] n n, a := .op [.v, .s] 2 2, b := .op kVSZ n n, c := .op kVSZ n n, bits := 0xFFFFFFFF, orders := [0, 1, 2, 3] })
  | .redAdd w => some (w, atomSpec w [0] true true)
  | .redMin w => some (w, atomSpec w [1, 3] true true)
  | .redMax w => some (w, atomSpec w [2, 4] true true)
  | .redAnd w => some (w, atomSpec w [5] true true)
  | .redOr w => some (w, atomSpec w [6] true true)
  | .redXor w => some (w, atomSpec w [7] true true)
  | .redFadd w => some (w, atomSpec w [9] false true)
  | .redBfadd w => some (w, atomSpec w [10] false true)
  | .barT w => some (w, barSpec w 0 false .unused .unused true 3)
  | .barC w => some (w, barSpec w 1 false .unused .unused true 3)
  | .barD w => some (w, barSpec w 2 false .unused .unused true 3)
  | .arriveT w => some (w, barSpec w 0 true (.op [.s, .z] 1 1) .unused true 2)
  | .arriveC w => some (w, barSpec w 1 true (.op [.s, .z] 1 1) .unused true 2)
  | .arriveD w => some (w, barSpec w 2 true (.op [.s, .z] 1 1) .unused true 2)
  | .arriveG w => some (w, { minOk := w.min.toNat == 3, long := true, lay := .s, hold := .never, d := .op [.s, .z] 2 2, a := .op [.s] 2 2, bits := 0xF8000000, orders := [0, 2], more2 := jOrder w != 0 || jScope w == 0 })
  | .waitbT w => some (w, barSpec w 0 false .unused (.op [.s, .z] 1 1) false 1)
  | .waitbC w => some (w, barSpec w 1 false .unused (.op [.s, .z] 1 1) false 1)
  | .waitbD w => some (w, barSpec w 2 false .unused (.op [.s, .z] 1 1) false 1)
  | .bowait w => some (w, { minOk := w.min.toNat == 0, lay := .s, hold := .never, d := .op [.s, .z] 1 1, a := .op [.s] 2 2, b := .op [.s] 2 2, bits := 0xF8000001, orders := [1], more2 := jScope w == 4 || jScope w == 5 })
  | .tcopy w => some (w, copySpec w 0)
  | .tstore w => some (w, copySpec w 1)
  | .tgather w => some (w, copySpec w 2)
  | .tscatter w => some (w, copySpec w 3)
  | .tfill w => some (w, copySpec w 4)
  | .mma w => some (w, { minOk := mmaMinOk w.min.toNat, long := true, lay := .e, hold := .onlyA, a := .op [.v] 128 1, b := .op [.s] 4 4, c := if w.min.getLsbD 6 then .op [.v] nsc 1 else .unused, bits := 0xFFFFE000, relOk := true, acqOk := true })
  | .accld w => some (w, { minOk := w.min.toNat == 0, long := true, lay := .n, hold := .never, d := .op [.v] (bitsOf w.mod 7 6 + 1) 1, a := .op [.s, .z] 1 1, bits := 0x07FFFF80 })
  | .accst w => some (w, { minOk := w.min.toNat == 0, long := true, lay := .n, hold := .never, b := .op [.v] (bitsOf w.mod 7 6 + 1) 1, a := .op [.s, .z] 1 1, bits := 0x07FFFF80 })
  | .accz w => some (w, { minOk := w.min.toNat == 0, long := true, lay := .n, hold := .never, bits := 0x0000E000 })
  | .tfetch w => some (w, dispSpec w 0 (.op [.s] 4 4) .unused .unused 0xE8000000 false true)
  | .tfetchX w => some (w, dispSpec w 1 (.op [.s] 4 4) .unused .unused 0xE8000000 false true)
  | .tfetchXe w => some (w, dispSpec w 2 (.op [.s] 4 4) (.op [.s, .z] 1 1) .unused 0xE8000000 false true)
  | .tretire w => some (w, dispSpec w 0 .unused (.op [.s] 4 4) .unused 0xF0000000 true false)
  | .route w =>
    let p := bitsOf w.mod 11 6
    some (w, { dispSpec w 0 .unused (.op [.v, .s] 1 1) (.op [.v, .s] 1 1) 0xF7FFFF00 true false with
      c := .op kVSZ 1 1, more3 := decide (p < 48) || p == 63, wrP := if p < 48 then [p] else [] })
  | .exacq w => some (w, dispSpec w 0 (.op [.s] 4 4) (.op [.s, .z] 1 1) (.op [.s, .z] 4 4) 0 false false)
  | .exrel w => some (w, dispSpec w 0 .unused (.op [.s, .z] 1 1) .unused 0 false false)
  | .dqstatQ w => some (w, dispSpec w 0 (.op [.s] 2 2) (.op [.s, .z] 1 1) (.op [.s, .z] 1 1) 0 false false)
  | .dqstatErt w => some (w, dispSpec w 1 (.op [.s] 2 2) (.op [.s, .z] 1 1) (.op [.s, .z] 1 1) 0 false false)
  | .dqstatGy w => some (w, dispSpec w 2 (.op [.s] 2 2) (.op [.s, .z] 1 1) (.op [.s, .z] 1 1) 0 false false)
  | .dqstatHand w => some (w, dispSpec w 3 (.op [.s] 2 2) (.op [.s, .z] 1 1) (.op [.s, .z] 1 1) 0 false false)
  | .coll w => some (w, dispSpec w 0 (.op [.s, .z] 1 1) (.op [.s] 2 2) .unused 0xF0000000 true false)
  | .progv w => some (w, dispSpec w 0 .unused (.op [.s] 2 2) (.op [.s, .z] 1 1) 0xF0000000 true false)
  | .collstat w => some (w, dispSpec w 0 (.op [.s] 2 2) (.op [.s] 2 2) .unused 0 false false)
  | .collstatW w => some (w, dispSpec w 1 (.op [.s] 2 2) (.op [.s, .z] 1 1) .unused 0 false false)
  | .trapI w => some (w, sysSpec w 0 .unused .unused .unused 0xFFFF)
  | .eret w => some (w, { sysSpec w 0 .unused .unused .unused 0 with guarded := false })
  | .rdsys w =>
    let n := sysRegs (bitsOf w.mod 0 12)
    some (w, { sysSpec w 0 (.op [.v] (n.getD 1) (n.getD 1)) .unused .unused 0xFFF with uni := true, more2 := n.isSome })
  | .wrsys w =>
    let n := sysRegs (bitsOf w.mod 0 12)
    some (w, { sysSpec w 0 .unused (.op [.s, .z] (n.getD 1) (n.getD 1)) .unused 0xFFF with more2 := n.isSome })
  | .rolesw w => some (w, sysSpec w 0 .unused (.op [.s] 1 1) (.op [.s, .z] 2 2) 7)
  | .bkpt w => some (w, sysSpec w 0 .unused .unused .unused 0xFFFF)
  | .tlbinvPage w => some (w, sysSpec w 0 .unused (.op [.s] 2 2) (.op [.s] 1 1) 0x1000)
  | .tlbinvOwn w => some (w, sysSpec w 1 .unused .unused .unused 0x1FFF)
  | .tlbinvAll w => some (w, sysSpec w 2 .unused .unused .unused 0x1000)
  | .ctxsave w => some (w, sysSpec w 0 .unused (.op [.s] 2 2) .unused 0)
  | .ctxload w => some (w, sysSpec w 0 .unused (.op [.s] 2 2) .unused 0)
  | .halt w => some (w, sysSpec w 0 .unused .unused .unused 0)
  | _ => none

end Sys2Proof.Machine
end

