-- ==== Sys2Proof/Machine/Flags.lean ====
section
/-! DEFINITION. Sys2Proof/Machine/Flags.lean: float formats (R135-R137), exact values, rounding (R139-R144), flush
(R145), and the exception conditions of Tables 5-4 and 6-2. Everything is computed on exact numbers and rounded once. -/

namespace Sys2Proof.Machine

open Sys2Proof

/-! ## Formats -/

/-- The formats of Table 5-1. -/
inductive Fmt where
  | f32 | f16 | bf16 | e4m3 | e5m2
  deriving DecidableEq, Repr, Inhabited

/-- Bits of an element. -/
def Fmt.width : Fmt → Nat
  | .f32 => 32 | .f16 => 16 | .bf16 => 16 | .e4m3 => 8 | .e5m2 => 8
/-- Significand field width m. -/
def Fmt.mw : Fmt → Nat
  | .f32 => 23 | .f16 => 10 | .bf16 => 7 | .e4m3 => 3 | .e5m2 => 2
/-- Exponent field width. -/
def Fmt.ew : Fmt → Nat
  | .f32 => 8 | .f16 => 5 | .bf16 => 8 | .e4m3 => 4 | .e5m2 => 5
def Fmt.bias : Fmt → Nat
  | .f32 => 127 | .f16 => 15 | .bf16 => 127 | .e4m3 => 7 | .e5m2 => 15
/-- Largest finite magnitude's pattern. -/
def Fmt.maxBits : Fmt → Nat
  | .f32 => 0x7F7FFFFF | .f16 => 0x7BFF | .bf16 => 0x7F7F | .e4m3 => 0x7E | .e5m2 => 0x7B
/-- The infinity's pattern; E4M3 has none. -/
def Fmt.infBits : Fmt → Nat
  | .f32 => 0x7F800000 | .f16 => 0x7C00 | .bf16 => 0x7F80 | .e4m3 => 0x7E | .e5m2 => 0x7C
/-- The canonical quiet NaN (R136). -/
def Fmt.nanBits : Fmt → Nat
  | .f32 => 0x7FC00000 | .f16 => 0x7E00 | .bf16 => 0x7FC0 | .e4m3 => 0x7F | .e5m2 => 0x7E
/-- Exponent of the smallest normal. -/
def Fmt.emin (F : Fmt) : Int := 1 - F.bias
/-- Exponent of the largest finite value and its significand with the leading one. -/
def Fmt.emax (F : Fmt) : Int := (F.maxBits / 2 ^ F.mw : Nat) - F.bias
def Fmt.maxSig (F : Fmt) : Nat := F.maxBits % 2 ^ F.mw + 2 ^ F.mw
/-- Flush settings reach FP32, FP16 and BF16 only (R145). -/
def Fmt.flushes : Fmt → Bool
  | .f32 => true | .f16 => true | .bf16 => true | .e4m3 => false | .e5m2 => false

/-- A value: a NaN, signalling or not; a signed infinity; or (-1)^neg · m · 2^e. -/
inductive FV where
  | nan (sig : Bool)
  | inf (neg : Bool)
  | fin (neg : Bool) (m : Nat) (e : Int)
  deriving DecidableEq, Repr, Inhabited

/-- The value of a pattern (R135, R136). -/
def Fmt.read (F : Fmt) (x : Nat) : FV :=
  let neg := x.testBit (F.width - 1)
  let ex := natBits x F.mw F.ew
  let f := natBits x 0 F.mw
  let fin := if ex = 0 then FV.fin neg f (F.emin - F.mw) else .fin neg (f + 2 ^ F.mw) (ex - F.bias - F.mw)
  if ex = 2 ^ F.ew - 1 then
    if F = .e4m3 then (if f = 7 then .nan false else fin)
    else if f = 0 then .inf neg
    else .nan (!f.testBit (F.mw - 1))
  else fin

/-- Is a pattern's value subnormal? -/
def Fmt.subnormal (F : Fmt) (x : Nat) : Bool := natBits x F.mw F.ew == 0 && natBits x 0 F.mw != 0

/-- A source element after FTZI (R145). -/
def Fmt.source (F : Fmt) (ftzi : Bool) (x : Nat) : FV :=
  if ftzi && F.flushes && F.subnormal x then .fin (x.testBit (F.width - 1)) 0 0 else F.read x

def FV.isNan : FV → Bool
  | .nan _ => true
  | _ => false
def FV.isSig : FV → Bool
  | .nan b => b
  | _ => false
def FV.neg : FV → Bool
  | .nan _ => false
  | .inf b => b
  | .fin b _ _ => b
def FV.isZero : FV → Bool
  | .fin _ m _ => m == 0
  | _ => false
def FV.negate : FV → FV
  | .nan b => .nan b
  | .inf b => .inf (!b)
  | .fin b m e => .fin (!b) m e

/-! ## Conditions -/

/-- Exception conditions in MODE's order: bit 0 IV, 1 DZ, 2 OF, 3 UF, 4 NX (Table 5-5). -/
abbrev Flg := BitVec 5
def fIV : Flg := 1
def fDZ : Flg := 2
def fOF : Flg := 4
def fUF : Flg := 8
def fNX : Flg := 16
/-- A condition that holds or not. -/
def flagIf (b : Bool) (f : Flg) : Flg := if b then f else 0

/-! ## Rounding -/

/-- What decides a rounding (R139): the mode 1 to 6 of Table 2-4, saturation, MODE.E4OV, MODE.FTZO. -/
structure Rnd where
  rm   : Nat
  sat  : Bool
  e4ov : Bool
  ftzo : Bool
  deriving DecidableEq, Repr, Inhabited

/-- The number of steps 2^q that (-1)^neg · m · 2^e rounds to, and whether it is inexact (R140, R141). A value far below
the step is as far below it as 40 bits tell. -/
def roundAt (rm u : Nat) (neg : Bool) (m : Nat) (e q : Int) : Nat × Bool :=
  if q ≤ e then (m * 2 ^ (e - q).toNat, false)
  else
    let d := min (q - e).toNat (m.log2 + 40)
    let lo := m / 2 ^ d
    let r := m % 2 ^ d
    let up :=
      if rm = 1 then decide (2 ^ d < 2 * r) || (decide (2 ^ d = 2 * r) && lo % 2 == 1)
      else if rm = 5 then decide (2 ^ d ≤ 2 * r)
      else if rm = 2 then false
      else if rm = 3 then !neg
      else if rm = 4 then neg
      else decide (2 ^ 16 ≤ r * 2 ^ 16 / 2 ^ d + u)
    if r = 0 then (lo, false) else (if up then lo + 1 else lo, true)

/-- A result pattern with its conditions. -/
structure FOut where
  bits : Nat
  fl   : Flg
  deriving DecidableEq, Repr, Inhabited

/-- A magnitude with its sign. -/
def Fmt.signed (F : Fmt) (neg : Bool) (x : Nat) : Nat := x + (if neg then 2 ^ (F.width - 1) else 0)

/-- Table 5-3. -/
def overflowBits (c : Rnd) (F : Fmt) (neg : Bool) : Nat :=
  let big := F.signed neg F.maxBits
  let inf := if F = .e4m3 then (if c.e4ov then F.nanBits else big) else F.signed neg F.infBits
  if c.sat then big
  else if c.rm = 2 ∨ (c.rm = 3 ∧ neg) ∨ (c.rm = 4 ∧ ¬neg) then big
  else inf

/-- The pattern of n · 2^q, n of at most one bit more than the significand. -/
def Fmt.pack (F : Fmt) (neg : Bool) (n : Nat) (q : Int) : Nat :=
  if n < 2 ^ F.mw then F.signed neg n
  else
    let k := n.log2 - F.mw
    F.signed neg ((q + k + F.mw + F.bias).toNat * 2 ^ F.mw + (n / 2 ^ k - 2 ^ F.mw))

/-- Does n · 2^q exceed the largest finite value? -/
def Fmt.exceeds (F : Fmt) (n : Nat) (q : Int) : Bool :=
  decide (F.emax < n.log2 + q) || (decide (F.emax = n.log2 + q) && decide (F.maxSig < n / 2 ^ (n.log2 - F.mw)))

/-- round_F of a finite number with its conditions, and the output flush (R140, R143, R145, R146). -/
def roundF (c : Rnd) (u : Nat) (F : Fmt) (neg : Bool) (m : Nat) (e : Int) : FOut :=
  if m = 0 then ⟨F.signed neg 0, 0⟩
  else
    let top : Int := m.log2 + e
    let free := top - F.mw
    let q := max free (F.emin - F.mw)
    let r := roundAt c.rm u neg m e q
    if F.exceeds r.1 q then ⟨overflowBits c F neg, fOF ||| fNX⟩
    else
      let n := (roundAt c.rm u neg m e free).1
      let tiny := decide (n.log2 + free < F.emin)
      if c.ftzo && F.flushes && r.1 != 0 && decide (r.1 < 2 ^ F.mw) then ⟨F.signed neg 0, fUF ||| fNX⟩
      else ⟨F.pack neg r.1 q, flagIf r.2 fNX ||| flagIf (tiny && r.2) fUF⟩

/-- conv of R156 to R162, and the end of fres (R170): special values by R144, others rounded. -/
def conv (c : Rnd) (u : Nat) (F : Fmt) : FV → FOut
  | .nan sig => ⟨F.nanBits, flagIf sig fIV⟩
  | .inf neg =>
    if F = .e4m3 then ⟨if c.sat ∨ ¬c.e4ov then F.signed neg F.maxBits else F.nanBits, fIV⟩
    else ⟨F.signed neg (if c.sat then F.maxBits else F.infBits), 0⟩
  | .fin neg m e => roundF c u F neg m e

/-- A delivered operation: an exact value and the conditions it arose with. -/
def fres (c : Rnd) (u : Nat) (F : Fmt) (v : FV × Flg) : FOut :=
  let r := conv c u F v.1
  ⟨r.bits, r.fl ||| v.2⟩

/-! ## Exact operations -/

/-- A signed number as a value; an exact zero takes the given sign. -/
def ofSigned (zneg : Bool) (x : Int) (e : Int) : FV :=
  if x = 0 then .fin zneg 0 0 else .fin (decide (x < 0)) x.natAbs e
def signedMag (neg : Bool) (m : Nat) : Int := if neg then -(m : Int) else m

/-- a · b (R170, Table 6-2). -/
def mulV : FV → FV → FV × Flg
  | .fin s m e, .fin s' m' e' => (.fin (s != s') (m * m') (e + e'), 0)
  | .inf s, .inf s' => (.inf (s != s'), 0)
  | .inf s, .fin s' m _ => if m = 0 then (.nan false, fIV) else (.inf (s != s'), 0)
  | .fin s m _, .inf s' => if m = 0 then (.nan false, fIV) else (.inf (s != s'), 0)
  | a, b => (.nan false, flagIf (a.isSig || b.isSig) fIV)

/-- a + b: the zero of opposite addends is +0, or -0 when rounding toward -∞. -/
def addV (rm : Nat) : FV → FV → FV × Flg
  | .fin s m e, .fin s' m' e' =>
    let lo := min e e'
    let x := signedMag s m * 2 ^ (e - lo).toNat + signedMag s' m' * 2 ^ (e' - lo).toNat
    (ofSigned (if s = s' then s else decide (rm = 4)) x lo, 0)
  | .inf s, .inf s' => if s = s' then (.inf s, 0) else (.nan false, fIV)
  | .inf s, .fin _ _ _ => (.inf s, 0)
  | .fin _ _ _, .inf s => (.inf s, 0)
  | a, b => (.nan false, flagIf (a.isSig || b.isSig) fIV)

/-- a · b + c, rounded once by its user. -/
def fmaV (rm : Nat) (a b c : FV) : FV × Flg :=
  let p := mulV a b
  let r := addV rm p.1 c
  (r.1, p.2 ||| r.2)

/-- 1/x to 64 bits with a sticky bit (R177, Table 6-6). -/
def rcpV : FV → FV × Flg
  | .nan s => (.nan false, flagIf s fIV)
  | .inf s => (.fin s 0 0, 0)
  | .fin s m e =>
    if m = 0 then (.inf s, fDZ)
    else
      let k := m.log2 + 64
      (.fin s (2 * (2 ^ k / m) + (if 2 ^ k % m = 0 then 0 else 1)) (-(k : Int) - e - 1), 0)

/-- The integer square root of a number below 2^128, bit by bit. -/
def isqrt (x : Nat) : Nat :=
  (List.range 64).foldl (fun r i => if (r + 2 ^ (63 - i)) * (r + 2 ^ (63 - i)) ≤ x then r + 2 ^ (63 - i) else r) 0

/-- √x to 50 bits or more with a sticky bit (R177, Table 6-6). -/
def sqrtV : FV → FV × Flg
  | .nan s => (.nan false, flagIf s fIV)
  | .inf s => if s then (.nan false, fIV) else (.inf false, 0)
  | .fin s m e =>
    if m = 0 then (.fin s 0 0, 0)
    else if s then (.nan false, fIV)
    else
      let k := 100 + (e % 2).toNat
      let r := isqrt (m * 2 ^ k)
      (.fin false (2 * r + (if r * r = m * 2 ^ k then 0 else 1)) ((e - k) / 2 - 1), 0)

/-- Order of two numbers that are no NaN: is a < b, zeros of either sign equal? -/
def FV.lt : FV → FV → Bool
  | .fin s m e, .fin s' m' e' =>
    let lo := min e e'
    decide (signedMag s m * 2 ^ (e - lo).toNat < signedMag s' m' * 2 ^ (e' - lo).toNat)
  | .inf s, .inf s' => s && !s'
  | .inf s, .fin _ _ _ => s
  | .fin _ _ _, .inf s' => !s'
  | _, _ => false

/-- The smaller, or larger, of two numbers with -0 < +0 (R173). -/
def pickLess (a b : FV) : Bool := a.lt b || (!b.lt a && a.neg && !b.neg)

/-- Results of FMIN (`max` false) and FMAX on FP32 patterns read after FTZI (R173). -/
def minMax (max ftzi : Bool) (x y : Nat) : FOut :=
  let a := Fmt.f32.source ftzi x
  let b := Fmt.f32.source ftzi y
  let keep := fun (v : FV) (bits : Nat) => if v.isZero then Fmt.f32.signed v.neg 0 else bits
  let r :=
    if a.isNan && b.isNan then Fmt.f32.nanBits
    else if a.isNan then keep b y
    else if b.isNan then keep a x
    else if pickLess a b != max then keep a x
    else if pickLess b a != max then keep b y
    else keep a x
  ⟨r, flagIf (a.isSig || b.isSig) fIV⟩

/-- Table 6-3. -/
def floatCompare (code : Nat) (a b : FV) : Bool :=
  let un := a.isNan || b.isNan
  let eq := !a.lt b && !b.lt a
  if code = 12 then !un
  else if code = 13 then un
  else if un then decide (6 ≤ code)
  else
    let c := code % 6
    if c = 0 then eq else if c = 1 then !eq else if c = 2 then a.lt b else if c = 3 then !b.lt a
    else if c = 4 then b.lt a else !a.lt b

/-- The bit of Table 6-4 for a pattern. -/
def classBit (x : Nat) : Nat :=
  match Fmt.f32.read x with
  | .nan sig => if sig then 8 else 9
  | .inf neg => if neg then 0 else 7
  | .fin neg m _ =>
    if m = 0 then (if neg then 3 else 4)
    else if Fmt.f32.subnormal x then (if neg then 2 else 5)
    else (if neg then 1 else 6)

/-- Round to an integer and clamp (R158). -/
def toInteger (c : Rnd) (u : Nat) (lo hi : Int) : FV → Int × Flg
  | .nan _ => (0, fIV)
  | .inf neg => (if neg then lo else hi, fIV)
  | .fin neg m e =>
    let r := roundAt c.rm u neg m e 0
    let y := signedMag neg r.1
    if y < lo then (lo, fIV) else if hi < y then (hi, fIV) else (y, flagIf r.2 fNX)

/-! ## Random bits (R142, R150) -/

/-- One step of the generator. -/
def stepGen (g : Word) : Word :=
  let g := g ^^^ (g <<< 13)
  let g := g ^^^ (g >>> 17)
  g ^^^ (g <<< 5)

/-- u of element i of a thread's word. -/
def randomOf (w : Word) (i : Nat) : Nat := bitsOf (w.rotateLeft (11 * i % 32)) 16 16

/-! ## MODE (Table 5-5) -/

def modeRmField (m : Word) : Nat := bitsOf m 0 3
/-- The rounding mode that MODE selects. A reserved RM, which only a frame loaded as it stands can hold (R149, R414), selects one of the
six, and so a reserved SRSEL one of the two sources; which is a free value (log 58). -/
def modeRm (m : Word) : Nat :=
  if modeRmField m = 0 ∨ modeRmField m = 7 then 1 + Config.reservedMode (modeRmField m) % 6 else modeRmField m
def modeSat (m : Word) : Bool := m.getLsbD 3
def modeEn (m : Word) : Flg := m.extractLsb' 4 5
def modeFtzi (m : Word) : Bool := m.getLsbD 14
def modeFtzo (m : Word) : Bool := m.getLsbD 15
def modeE4ov (m : Word) : Bool := m.getLsbD 16
def modeSrselField (m : Word) : Nat := bitsOf m 17 2
def modeSrsel (m : Word) : Nat :=
  if 2 ≤ modeSrselField m then Config.reservedMode (modeSrselField m) % 2 else modeSrselField m

/-- Conditions entering MODE.FLG (R147). -/
def modeRaise (m : Word) (f : Flg) : Word := m ||| (f.setWidth 32 <<< 9)

/-- A MODE write that R149 admits. -/
def modeOk (m : Word) : Bool := modeRmField m != 0 && modeRmField m != 7 && decide (modeSrselField m < 2)

/-- Rounding and saturation of an instruction (R139). -/
def rndOf (rnd : BitVec 4) (m : Word) : Rnd :=
  let r := rnd.toNat
  { rm := if r = 0 then modeRm m else r % 8, sat := if r = 0 then modeSat m else decide (8 ≤ r), e4ov := modeE4ov m, ftzo := modeFtzo m }

end Sys2Proof.Machine
end

