-- ==== Sys2Proof/Machine/Legal.lean ====
section
/-! DEFINITION. Sys2Proof/Machine/Legal.lean: which instruction words are legal: Table 2-9 steps 1 to 3 for Jolisol
(R50-R70), R367 for Luanil, R420 and Table 15-3 for packets; and the registers and predicates a Jolisol instruction
reads and writes (R52, R56). -/

namespace Sys2Proof.Machine

open Sys2Proof

/-- Why a word is no instruction: trap 0x01 or 0x02 of a Jolisol word, the loader's refusal of a Luanil word, the queue
error number of a packet. -/
inductive Illegal where
  | instruction | operand | luanil | packet (err : Nat)
  deriving DecidableEq, Repr, Inhabited

/-- The operand field positions of a word, each with what the form lets it hold. Z names random bits for RND 6 and 14 of
a form that admits them (R63). -/
def jFields (w : JWord) (sp : JSpec) : List (BitVec 10 × Fld) :=
  [(w.d, sp.d), (w.a, sp.a), (w.b, sp.b)] ++
  (match sp.lay with
   | .c =>
     if jImm w then [] else
       [(jC w, sp.c), (jZ w, if sp.rnd = .any ∧ (w.rnd = 6 ∨ w.rnd = 14) then .op [.v, .s] 1 1 else .unused)]
   | .a | .e => if sp.bits &&& 0x07FE0000 = 0x07FE0000 then [(jC17 w, sp.c)] else []
   | _ => [])

/-- RND values of Table 2-4 that a form accepts (R62, R63, R166). -/
def rndOk (w : JWord) (sp : JSpec) : Bool :=
  let r := w.rnd.toNat
  match sp.rnd with
  | .zero => r == 0
  | .any => r != 7 && r != 8 && r != 15 && !(jImm w && (r == 6 || r == 14))
  | .noStoch => r != 7 && r != 8 && r != 15 && r != 6 && r != 14

/-- Does a field hold what it must (step 2)? -/
def fldOk2 (uni : Bool) (x : BitVec 10) : Fld → Bool
  | .unused => x == 0x348
  | .op _ _ _ => !(uni && (opnd x).kd == .v)
  | .pdst m => decide (bitsOf x 6 4 ≤ m)
  | .psrc => bitsOf x 7 3 == 0
  | .cond => bitsOf x 7 3 == 0 && bitsOf x 0 7 != 0x7F
  | .pbase => bitsOf x 6 4 == 0
  | .depth => decide (x.toNat ≤ 61)
  | .raw => true

/-- The kinds an operand position allows: fewer in a uniform instruction (R54), no immediate outside layout I (R65). -/
def kindsOk (uni imm dest : Bool) (ks : List Kd) (k : Kd) : Bool :=
  k != .r && (imm || k != .i) &&
  (if uni then (dest && k == .s) || (ks.contains k && (k == .s || k == .z || k == .i)) else ks.contains k)

/-- A register operand's index is a multiple of its alignment (R48). -/
def alignOk (al : Nat) : Opnd → Bool
  | .v n | .s n => n % al == 0
  | _ => true

/-- Is a field's operand allowed (step 3)? -/
def fldOk3 (uni imm dest : Bool) (x : BitVec 10) : Fld → Bool
  | .op ks _ al => kindsOk uni imm dest ks (opnd x).kd && alignOk al (opnd x)
  | .pdst _ => decide (bitsOf x 0 6 < 48)
  | .psrc | .cond => decide (bitsOf x 0 6 < 48) || bitsOf x 0 6 == 63
  | _ => true

/-- A hold bit needs a v register in its field and no UNI (R59). -/
def holdOk (w : JWord) (sp : JSpec) : Bool :=
  let isV := fun (x : BitVec 10) (f : Fld) => match f with | .op _ _ _ => (opnd x).kd == .v | _ => false
  match sp.hold with
  | .never => !w.hlda && !w.hldb
  | .onlyA => !w.hldb && (!w.hlda || (isV w.a sp.a && !w.uni))
  | .byOperand => (!w.hlda || (isV w.a sp.a && !w.uni)) && (!w.hldb || (isV w.b sp.b && !w.uni))

/-- The modifier word's own conditions of step 2 (R50, R66, R67). -/
def modOk (w : JWord) (sp : JSpec) : Bool :=
  match sp.lay with
  | .c => jImm w || ((sp.pRead || sp.pWrite || jP w == 63) && jK w &&& sp.bits == jK w)
  | .t | .n => w.mod.toNat &&& sp.bits == w.mod.toNat
  | .m | .a | .s =>
    w.mod.toNat &&& sp.bits == w.mod.toNat && decide (jScope w < 6) && sp.orders.contains (jOrder w)
  | .e =>
    w.mod.toNat &&& sp.bits == w.mod.toNat && decide (jScope w < 6) && (sp.relOk || !jRel w) && (sp.acqOk || !jAcq w) &&
      (!sp.scopeNeedsFlag || jScope w == 0 || jRel w || jAcq w)

/-- Step 2 of Table 2-9. -/
def step2Ok (w : JWord) (sp : JSpec) : Bool :=
  (decide (w.grd.toNat < 48) || (w.grd == 63 && !w.gneg)) && (sp.guarded || w.grd == 63) && rndOk w sp &&
  (sp.long || w.la == 0) && (sp.uni || !w.uni) && (jFields w sp).all (fun f => fldOk2 w.uni f.1 f.2) &&
  holdOk w sp && modOk w sp && sp.more2

/-- Step 3 of Table 2-9. -/
def step3Ok (w : JWord) (sp : JSpec) : Bool :=
  let imm := sp.lay == .c && jImm w
  fldOk3 w.uni imm true w.d sp.d && (jFields w sp).tail.all (fun f => fldOk3 w.uni imm false f.1 f.2) &&
  (!(sp.pRead || sp.pWrite) || imm || decide (jP w < 48) || jP w == 63) && (imm || sp.more3)

/-- Steps 1 to 3 of Table 2-9 for one word of a form; `none` where it is legal. -/
def jIllegal (w : JWord) (sp : JSpec) : Option Illegal :=
  if !sp.minOk then some .instruction
  else if !step2Ok w sp then some .instruction
  else if !step3Ok w sp then some .operand
  else none

/-! ## Luanil words (R367) -/

/-- What one Luanil form allows: legal FLAGS bits, whether SLOT is used, legal KEY and MASK, and a further condition. -/
def lLegal (flags : Nat) (slot key mask : Bool) (more : Bool) (w : LWord) : Bool :=
  w.flags.toNat &&& flags == w.flags.toNat && (if slot then decide (w.slot.toNat < 8) else w.slot == 0) &&
  (key || w.key == 0) && (mask || w.mask == 0) && more

/-- KR = 1 makes KEY[2:0] a key register, and KEY[11:3] must be zero. -/
def lKr (w : LWord) : Bool := !w.flags.getLsbD 5 || bitsOf w.key 3 9 == 0

/-- At most one bit of a number. -/
def atMostOneBit (n : Nat) : Bool := n &&& (n - 1) == 0

def lSpec : Instr → Option Bool
  | .matchL w => some (lLegal 0x20 false true true (lKr w && w.mask != 0) w)
  | .cmb w => some (lLegal 0x3C true true true (lKr w && w.mask != 0) w)
  | .fwd w => some (lLegal 0x27 true true true
      (lKr w && bitsOf w.mask 11 5 == 0 && atMostOneBit (bitsOf w.mask 16 16)) w)
  | .fwdMem w => some (lLegal 0x2F true true true (lKr w && bitsOf w.flags 3 2 == 1) w)
  | .fwdRank w => some (lLegal 0x37 true false true (bitsOf w.flags 3 2 == 2) w)
  | .gath w => some (lLegal 0x30 true true true (lKr w && w.mask != 0) w)
  | .spill w => some (lLegal 0 true false false true w)
  | .fillSave w => some (lLegal 0x0B true false false true w)
  | .fillSrc w => some (lLegal 0x1B true false true (bitsOf w.flags 4 2 == 1 && w.mask != 0 && atMostOneBit w.mask.toNat) w)
  | .fillMem w => some (lLegal 0x2B true false false (bitsOf w.flags 4 2 == 2) w)
  | .boupd w => some (lLegal 0x3C false true (w.flags.getLsbD 5) (decide (bitsOf w.flags 2 3 ≤ 4)) w)
  | .chk w => some (lLegal 0 true false false true w)
  | .progw w => some (lLegal 0 false false true (w.mask != 0) w)
  | .luanilLoop w => some (lLegal 0x20 false true false (!w.flags.getLsbD 5 || bitsOf w.key 4 8 == 0) w)
  | .endl w => some (lLegal 0 false false false true w)
  | .bnz w => some (lLegal 0x2F false true false true w)
  | .setk w => some (lLegal 0x0F false true false true w)
  | .nextc w => some (lLegal 0x20 false true false (w.key != 0) w)
  | .doneL w => some (lLegal 0 false false false true w)
  | .setc w => some (lLegal 0x0F false false true true w)
  | .addc w => some (lLegal 0x0F false true false true w)
  | .jmp w => some (lLegal 0 false true false true w)
  | .luanilNop w => some (lLegal 0 false false false true w)
  | _ => none

/-! ## Packets (R420, Table 15-3) -/

/-- Word `i` of a packet's body. -/
def pkWord (p : Packet) (i : Nat) : Word := p.body.getD i 0
/-- A 64-bit value of two words, low word first. -/
def pkDword (p : Packet) (i : Nat) : BitVec 64 := pkWord p (i + 1) ++ pkWord p i
/-- WAIT_MEM's OP and ATOMIC_MEM's AOP, flags [7:4]. -/
def pkOp (p : Packet) : Nat := bitsOf p.flags 4 4
/-- W64, flag [8]. -/
def pkW64 (p : Packet) : Bool := p.flags.getLsbD 8
def pkSync (p : Packet) : Bool := p.flags.getLsbD 0
def pkSys (p : Packet) : Bool := p.flags.getLsbD 1

/-- A packet's length beyond the header, its legal flags beyond SYNC and SYS, and its own zero fields. -/
def pkShape (p : Packet) (len flags : Nat) (more : Bool) : Option Illegal :=
  if p.body.length ≠ len then some (.packet 2)
  else if bitsOf p.flags 0 12 &&& (flags ||| 3) ≠ bitsOf p.flags 0 12 then some (.packet 2)
  else if !more then some (.packet 2)
  else none

/-- Error 2 of Table 15-4 where a packet's length, flags, zero words, OP or status break its layout. -/
def pkIllegal : Instr → Option (Option Illegal)
  | .nopPacket p => some (if p.body.length < 4095 ∧ bitsOf p.flags 2 10 = 0 then none else some (.packet 2))
  | .launch p => some (pkShape p 2 0 true)
  | .write32 p => some (pkShape p 3 0 true)
  | .write64 p => some (pkShape p 4 0 true)
  | .waitMem p => some (pkShape p 6 0x1F0 (decide (pkOp p < 6)))
  | .atomicMemAdd p => some (pkShape p 6 0x1F0 (pkOp p == 0))
  | .atomicMemAnd p => some (pkShape p 6 0x1F0 (pkOp p == 1))
  | .atomicMemOr p => some (pkShape p 6 0x1F0 (pkOp p == 2))
  | .atomicMemExch p => some (pkShape p 6 0x1F0 (pkOp p == 3))
  | .atomicMemCas p => some (pkShape p 6 0x1F0 (pkOp p == 4))
  | .indirect p => some (pkShape p 3 0 true)
  | .condBegin p => some (pkShape p 6 0x1F0 (decide (pkOp p < 6)))
  | .condEnd p => some (pkShape p 0 0 true)
  | .loopBegin p => some (pkShape p 1 0 true)
  | .loopEnd p => some (pkShape p 0 0 true)
  | .fetchFence p => some (pkShape p 0 0 true)
  | .collective p => some (pkShape p 3 0 (bitsOf (pkWord p 2) 10 22 == 0))
  | .boSignal p => some (pkShape p 4 0 (decide ((pkWord p 3).toNat ≤ 4)))
  | .timestamp p => some (pkShape p 2 0 true)
  | .discardRange p => some (pkShape p 4 0 true)
  | .ertPreload p => some (pkShape p 2 0 (bitsOf (pkWord p 0) 9 23 == 0 && bitsOf (pkWord p 1) 10 22 == 0))
  | .setShare p => some (pkShape p 2 0 (bitsOf (pkWord p 0) 12 20 == 0))
  | .resync p => some (pkShape p 3 0 true)
  | _ => none

/-- Why an instruction is not well formed: none where it is. Events and host acts have no word. -/
def illegal (i : Instr) : Option Illegal :=
  match jspec 16 i with
  | some (w, sp) => jIllegal w sp
  | none =>
    match lSpec i with
    | some ok => if ok then none else some .luanil
    | none => (pkIllegal i).getD none

/-! ## Registers read and written (R52, R56) -/

/-- The registers an operand covers. -/
def opRegs (x : BitVec 10) : Fld → List RegId
  | .op _ n _ =>
    match opnd x with
    | .v k => (List.range n).map fun j => RegId.v (k + j)
    | .s k => (List.range n).map fun j => RegId.s (k + j)
    | _ => []
  | _ => []

/-- Registers and predicates an instruction reads: sources, guard, predicate sources, combine predicate. -/
def jReads (w : JWord) (sp : JSpec) : List RegId :=
  (jFields w sp).tail.flatMap (fun f => opRegs f.1 f.2) ++
  ((if w.grd.toNat < 48 then [w.grd.toNat] else []) ++ sp.rdP ++
    (if sp.pRead ∧ !jImm w ∧ jP w < 48 then [jP w] else [])).map RegId.p

/-- Registers and predicates it writes. -/
def jWrites (w : JWord) (sp : JSpec) : List RegId :=
  opRegs w.d sp.d ++
  ((match sp.d with | .pdst _ => [bitsOf w.d 0 6] | _ => []) ++ sp.wrP ++
    (if sp.pWrite ∧ !jImm w ∧ jP w < 48 then [jP w] else [])).map RegId.p

end Sys2Proof.Machine
end

