-- ==== Sys2Proof/WellFormed.lean ====
section
/-! DEFINITION. Sys2Proof/WellFormed.lean: an instruction is well formed when its word passes steps 1 to 3 of Table 2-9
(Jolisol), R367 (Luanil) or Table 15-3 (packets). Events and host acts have no word and are well formed. -/

namespace Sys2Proof

/-- No check of the spec refuses the instruction's word. -/
abbrev WellFormed (i : Instr) : Prop := Machine.illegal i = none

end Sys2Proof
end

