-- ==== Sys2Proof/Decode.lean ====
section
/-! DEFINITION. Sys2Proof/Decode.lean: from the three kinds of words to instructions, total on any bits: Jolisol words
(R46, R68, R70), Luanil words (R366, R367), packets (R420, R431); then the encoder, and the word form in which the host
asks (decodeTableWord). -/

namespace Sys2Proof

open Sys2Proof.Machine

/-- The constructor that a major opcode and its word name (Table 2-7): none for a reserved major opcode or a minor
opcode that names no form. -/
def jCons (maj : Nat) (w : JWord) : Option Instr :=
  match maj with
  | 0x01 => some (.bra w)
  | 0x02 => some (.brd w)
  | 0x03 => some (.jmps w)
  | 0x04 => if w.min.toNat = 0 then some (.call w) else if w.min.toNat = 1 then some (.calls w) else if w.min.toNat = 2 then some (.ret w) else none
  | 0x05 => if w.min.toNat = 0 then some (.ifI w) else if w.min.toNat = 1 then some (.elseI w) else if w.min.toNat = 2 then some (.endif w) else none
  | 0x06 => if w.min.toNat = 0 then some (.loopI w) else if w.min.toNat = 1 then some (.breakI w) else if w.min.toNat = 2 then some (.contI w) else if w.min.toNat = 3 then some (.endloop w) else none
  | 0x07 => some (.exitI w)
  | 0x08 => if w.min.toNat = 0 then some (.rfl w) else if w.min.toNat = 1 then some (.getid w) else none
  | 0x09 => if w.min.toNat = 0 then some (.nop w) else if w.min.toNat = 1 then some (.sleep w) else none
  | 0x10 => some (.iadd w)
  | 0x11 => some (.isub w)
  | 0x12 => some (.iaddx w)
  | 0x13 => some (.imul w)
  | 0x14 => some (.imulhi w)
  | 0x15 => some (.imad w)
  | 0x16 => some (.imadw w)
  | 0x17 => some (.imin w)
  | 0x18 => some (.imax w)
  | 0x19 => some (.iabs w)
  | 0x1A => some (.ineg w)
  | 0x1B => some (.andI w)
  | 0x1C => some (.orI w)
  | 0x1D => some (.xorI w)
  | 0x1E => some (.andn w)
  | 0x1F => some (.notI w)
  | 0x20 => some (.shl w)
  | 0x21 => some (.shr w)
  | 0x22 => some (.sar w)
  | 0x23 => some (.rot w)
  | 0x24 => some (.fshf w)
  | 0x25 => some (.bfe w)
  | 0x26 => some (.bfi w)
  | 0x27 => some (.brev w)
  | 0x28 => some (.clz w)
  | 0x29 => some (.ffs w)
  | 0x2A => some (.popc w)
  | 0x2B => some (.icmp w)
  | 0x2C => some (.sel w)
  | 0x2D => if jImm w then some (.movi w) else some (.mov w)
  | 0x2E => some (.lea w)
  | 0x2F => some (.idot4 w)
  | 0x30 => some (.pand w)
  | 0x31 => some (.por w)
  | 0x32 => some (.pxor w)
  | 0x33 => some (.pnot w)
  | 0x34 => if w.min.toNat = 0 then some (.p2v w) else if w.min.toNat = 1 then some (.v2p w) else none
  | 0x35 => if w.min.toNat = 0 then some (.ballot w) else if w.min.toNat = 1 then some (.voteAll w) else if w.min.toNat = 2 then some (.voteAny w) else if w.min.toNat = 3 then some (.voteSame w) else none
  | 0x36 => if jType w = 0 then some (.pickAt w) else if jType w = 1 then some (.pickBelow w) else if jType w = 2 then some (.pickAbove w) else if jType w = 3 then some (.pickFlip w) else none
  | 0x37 => if jType w = 0 then some (.gballotPopc w) else if jType w = 1 then some (.gballotAny w) else if jType w = 2 then some (.gballotAll w) else if jType w = 3 then some (.gballotPfx w) else if jType w = 4 then some (.gballotMask w) else if jType w = 16 then some (.gpickAt w) else if jType w = 17 then some (.gpickBelow w) else if jType w = 18 then some (.gpickAbove w) else if jType w = 19 then some (.gpickFlip w) else none
  | 0x38 => some (.cvt w)
  | 0x39 => some (.cvti w)
  | 0x3A => some (.cvtf w)
  | 0x3B => some (.cvtpk w)
  | 0x3C => some (.cvtup w)
  | 0x3D => some (.fscale w)
  | 0x3E => if w.min.toNat = 0 then (if jK w = 1 then some (.getmodeGen w) else some (.getmode w)) else if w.min.toNat = 0x81 then some (.setmodeImm w) else if w.min.toNat = 1 then (if jK w = 1 then some (.setmodeGen w) else some (.setmode w)) else none
  | 0x40 => some (.fadd w)
  | 0x41 => some (.fsub w)
  | 0x42 => some (.fmul w)
  | 0x43 => some (.ffma w)
  | 0x44 => some (.fmin w)
  | 0x45 => some (.fmax w)
  | 0x46 => some (.fcmp w)
  | 0x47 => some (.fclass w)
  | 0x48 => some (.pkadd w)
  | 0x49 => some (.pkmul w)
  | 0x4A => some (.pkfma w)
  | 0x50 => some (.rcp w)
  | 0x51 => some (.rsq w)
  | 0x52 => some (.sqrt w)
  | 0x53 => some (.exp2 w)
  | 0x54 => some (.log2 w)
  | 0x55 => some (.sin w)
  | 0x56 => some (.cos w)
  | 0x57 => some (.tanh w)
  | 0x58 => some (.fsum w)
  | 0x59 => some (.fmaxr w)
  | 0x60 => some (.ld w)
  | 0x61 => some (.st w)
  | 0x62 => some (.ldl w)
  | 0x63 => some (.stl w)
  | 0x64 => some (.ldc w)
  | 0x65 => some (.stc w)
  | 0x66 => some (.pref w)
  | 0x67 => some (.discard w)
  | 0x68 => if w.min.toNat = 0 then some (.cctlWb w) else if w.min.toNat = 1 then some (.cctlInv w) else if w.min.toNat = 2 then some (.cctlIinv w) else if w.min.toNat = 3 then some (.cctlInvrs w) else if w.min.toNat = 4 then some (.cctlWball w) else none
  | 0x69 => if w.min.toNat = 0 then some (.qcfg w) else if w.min.toNat = 1 then some (.qcfgFree w) else none
  | 0x6A => if bitsOf w.mod 4 2 = 1 then some (.qstatLeft w) else if bitsOf w.mod 4 2 = 2 then some (.qstatStat w) else some (.qstatPos w)
  | 0x6B => some (.wait w)
  | 0x70 => if bitsOf w.min 3 4 = 0 then some (.atomAdd w) else if bitsOf w.min 3 4 = 1 then some (.atomMin w) else if bitsOf w.min 3 4 = 2 then some (.atomMax w) else if bitsOf w.min 3 4 = 3 then some (.atomMin w) else if bitsOf w.min 3 4 = 4 then some (.atomMax w) else if bitsOf w.min 3 4 = 5 then some (.atomAnd w) else if bitsOf w.min 3 4 = 6 then some (.atomOr w) else if bitsOf w.min 3 4 = 7 then some (.atomXor w) else if bitsOf w.min 3 4 = 8 then some (.atomExch w) else if bitsOf w.min 3 4 = 9 then some (.atomFadd w) else if bitsOf w.min 3 4 = 10 then some (.atomBfadd w) else none
  | 0x71 => some (.acas w)
  | 0x72 => if bitsOf w.min 3 4 = 0 then some (.redAdd w) else if bitsOf w.min 3 4 = 1 then some (.redMin w) else if bitsOf w.min 3 4 = 2 then some (.redMax w) else if bitsOf w.min 3 4 = 3 then some (.redMin w) else if bitsOf w.min 3 4 = 4 then some (.redMax w) else if bitsOf w.min 3 4 = 5 then some (.redAnd w) else if bitsOf w.min 3 4 = 6 then some (.redOr w) else if bitsOf w.min 3 4 = 7 then some (.redXor w) else if bitsOf w.min 3 4 = 9 then some (.redFadd w) else if bitsOf w.min 3 4 = 10 then some (.redBfadd w) else none
  | 0x73 => if w.min.toNat = 0 then some (.barT w) else if w.min.toNat = 1 then some (.barC w) else if w.min.toNat = 2 then some (.barD w) else none
  | 0x74 => if w.min.toNat = 0 then some (.arriveT w) else if w.min.toNat = 1 then some (.arriveC w) else if w.min.toNat = 2 then some (.arriveD w) else if w.min.toNat = 3 then some (.arriveG w) else none
  | 0x75 => if w.min.toNat = 0 then some (.waitbT w) else if w.min.toNat = 1 then some (.waitbC w) else if w.min.toNat = 2 then some (.waitbD w) else none
  | 0x76 => some (.bowait w)
  | 0x80 => some (.tcopy w)
  | 0x81 => some (.tstore w)
  | 0x82 => some (.tgather w)
  | 0x83 => some (.tscatter w)
  | 0x84 => some (.tfill w)
  | 0x88 => some (.mma w)
  | 0x89 => some (.accld w)
  | 0x8A => some (.accst w)
  | 0x8B => some (.accz w)
  | 0x90 => if w.min.toNat = 0 then some (.tfetch w) else if w.min.toNat = 1 then some (.tfetchX w) else if w.min.toNat = 2 then some (.tfetchXe w) else none
  | 0x91 => some (.tretire w)
  | 0x92 => some (.route w)
  | 0x93 => some (.exacq w)
  | 0x94 => some (.exrel w)
  | 0x95 => if w.min.toNat = 0 then some (.dqstatQ w) else if w.min.toNat = 1 then some (.dqstatErt w) else if w.min.toNat = 2 then some (.dqstatGy w) else if w.min.toNat = 3 then some (.dqstatHand w) else none
  | 0x98 => some (.coll w)
  | 0x99 => some (.progv w)
  | 0x9A => if w.min.toNat = 0 then some (.collstat w) else if w.min.toNat = 1 then some (.collstatW w) else none
  | 0xA0 => some (.trapI w)
  | 0xA1 => some (.eret w)
  | 0xA2 => some (.rdsys w)
  | 0xA3 => some (.wrsys w)
  | 0xA4 => some (.rolesw w)
  | 0xA5 => some (.bkpt w)
  | 0xA6 => if w.min.toNat = 0 then some (.tlbinvPage w) else if w.min.toNat = 1 then some (.tlbinvOwn w) else if w.min.toNat = 2 then some (.tlbinvAll w) else none
  | 0xA7 => some (.ctxsave w)
  | 0xA8 => some (.ctxload w)
  | 0xA9 => some (.halt w)
  | _ => none

/-- A 96-bit word (R46): its instruction, or the first failing step of Table 2-9 steps 1 to 3. -/
def decodeJolisol (x : IWord) : Except Illegal Instr :=
  match jCons (jMaj x) (jUnpack x) with
  | none => .error .instruction
  | some i =>
    match illegal i with
    | some e => .error e
    | none => .ok i

/-- The fields of a 64-bit Luanil word (Table 13-5). -/
def lUnpack (x : BitVec 64) : LWord :=
  { flags := x.extractLsb' 52 6, slot := x.extractLsb' 44 8, key := x.extractLsb' 32 12, mask := x.extractLsb' 0 32 }

/-- OP [63:58]. -/
def lOp (x : BitVec 64) : Nat := bitsOf x 58 6

/-- The constructor of a Luanil opcode (Table 13-6); DEST of FWD and SRC of FILL choose among theirs. -/
def lCons (op : Nat) (w : LWord) : Option Instr :=
  match op with
  | 0x01 => some (.matchL w)
  | 0x02 => some (.cmb w)
  | 0x03 =>
    if bitsOf w.flags 3 2 = 0 then some (.fwd w) else if bitsOf w.flags 3 2 = 1 then some (.fwdMem w)
    else if bitsOf w.flags 3 2 = 2 then some (.fwdRank w) else none
  | 0x04 => some (.gath w)
  | 0x05 => some (.spill w)
  | 0x06 =>
    if bitsOf w.flags 4 2 = 0 then some (.fillSave w) else if bitsOf w.flags 4 2 = 1 then some (.fillSrc w)
    else if bitsOf w.flags 4 2 = 2 then some (.fillMem w) else none
  | 0x07 => some (.boupd w)
  | 0x08 => some (.chk w)
  | 0x09 => some (.progw w)
  | 0x0A => some (.luanilLoop w)
  | 0x0B => some (.endl w)
  | 0x0C => some (.bnz w)
  | 0x0D => some (.setk w)
  | 0x0E => some (.nextc w)
  | 0x0F => some (.doneL w)
  | 0x10 => some (.setc w)
  | 0x11 => some (.addc w)
  | 0x12 => some (.jmp w)
  | 0x13 => some (.luanilNop w)
  | _ => none

/-- A Luanil word (R367): the loader refuses every word that is not legal. -/
def decodeLuanil (x : BitVec 64) : Except Illegal Instr :=
  match lCons (lOp x) (lUnpack x) with
  | none => .error .luanil
  | some i =>
    match illegal i with
    | some e => .error e
    | none => .ok i

/-- Header fields (R420). -/
def pkType (h : Word) : Nat := bitsOf h 24 8
def pkLen (h : Word) : Nat := bitsOf h 12 12

/-- The constructor of a packet type (Table 15-3); AOP chooses among the atomics, and a reserved AOP names none. -/
def pCons (ty : Nat) (p : Packet) : Option Instr :=
  match ty with
  | 0x00 => some (.nopPacket p)
  | 0x01 => some (.launch p)
  | 0x02 => some (.write32 p)
  | 0x03 => some (.write64 p)
  | 0x04 => some (.waitMem p)
  | 0x05 =>
    if pkOp p = 1 then some (.atomicMemAnd p) else if pkOp p = 2 then some (.atomicMemOr p)
    else if pkOp p = 3 then some (.atomicMemExch p) else if pkOp p = 4 then some (.atomicMemCas p)
    else some (.atomicMemAdd p)
  | 0x06 => some (.indirect p)
  | 0x07 => some (.condBegin p)
  | 0x08 => some (.condEnd p)
  | 0x09 => some (.loopBegin p)
  | 0x0A => some (.loopEnd p)
  | 0x0B => some (.fetchFence p)
  | 0x0C => some (.collective p)
  | 0x0D => some (.boSignal p)
  | 0x0E => some (.timestamp p)
  | 0x0F => some (.discardRange p)
  | 0x10 => some (.ertPreload p)
  | 0x11 => some (.setShare p)
  | 0x12 => some (.resync p)
  | _ => none

/-- A whole packet, header first: reserved type error 1, a length other than the words given or other breach error 2
(R431). -/
def decodePacket : List Word → Except Illegal Instr
  | [] => .error (.packet 2)
  | h :: body =>
    match pCons (pkType h) { flags := h.extractLsb' 0 12, body := body } with
    | none => .error (.packet 1)
    | some i =>
      if pkLen h ≠ body.length + 1 then .error (.packet 2)
      else
        match illegal i with
        | some e => .error e
        | none => .ok i

/-! ## The encoder -/

/-- The major opcode and word of a Jolisol instruction (Table 2-7). -/
def jMajOf : Instr → Option (Nat × JWord)
  | .bra w => some (0x01, w)
  | .brd w => some (0x02, w)
  | .jmps w => some (0x03, w)
  | .call w => some (0x04, w)
  | .calls w => some (0x04, w)
  | .ret w => some (0x04, w)
  | .ifI w => some (0x05, w)
  | .elseI w => some (0x05, w)
  | .endif w => some (0x05, w)
  | .loopI w => some (0x06, w)
  | .breakI w => some (0x06, w)
  | .contI w => some (0x06, w)
  | .endloop w => some (0x06, w)
  | .exitI w => some (0x07, w)
  | .rfl w => some (0x08, w)
  | .getid w => some (0x08, w)
  | .nop w => some (0x09, w)
  | .sleep w => some (0x09, w)
  | .iadd w => some (0x10, w)
  | .isub w => some (0x11, w)
  | .iaddx w => some (0x12, w)
  | .imul w => some (0x13, w)
  | .imulhi w => some (0x14, w)
  | .imad w => some (0x15, w)
  | .imadw w => some (0x16, w)
  | .imin w => some (0x17, w)
  | .imax w => some (0x18, w)
  | .iabs w => some (0x19, w)
  | .ineg w => some (0x1A, w)
  | .andI w => some (0x1B, w)
  | .orI w => some (0x1C, w)
  | .xorI w => some (0x1D, w)
  | .andn w => some (0x1E, w)
  | .notI w => some (0x1F, w)
  | .shl w => some (0x20, w)
  | .shr w => some (0x21, w)
  | .sar w => some (0x22, w)
  | .rot w => some (0x23, w)
  | .fshf w => some (0x24, w)
  | .bfe w => some (0x25, w)
  | .bfi w => some (0x26, w)
  | .brev w => some (0x27, w)
  | .clz w => some (0x28, w)
  | .ffs w => some (0x29, w)
  | .popc w => some (0x2A, w)
  | .icmp w => some (0x2B, w)
  | .sel w => some (0x2C, w)
  | .mov w => some (0x2D, w)
  | .movi w => some (0x2D, w)
  | .lea w => some (0x2E, w)
  | .idot4 w => some (0x2F, w)
  | .pand w => some (0x30, w)
  | .por w => some (0x31, w)
  | .pxor w => some (0x32, w)
  | .pnot w => some (0x33, w)
  | .p2v w => some (0x34, w)
  | .v2p w => some (0x34, w)
  | .ballot w => some (0x35, w)
  | .voteAll w => some (0x35, w)
  | .voteAny w => some (0x35, w)
  | .voteSame w => some (0x35, w)
  | .pickAt w => some (0x36, w)
  | .pickBelow w => some (0x36, w)
  | .pickAbove w => some (0x36, w)
  | .pickFlip w => some (0x36, w)
  | .gballotPopc w => some (0x37, w)
  | .gballotAny w => some (0x37, w)
  | .gballotAll w => some (0x37, w)
  | .gballotPfx w => some (0x37, w)
  | .gballotMask w => some (0x37, w)
  | .gpickAt w => some (0x37, w)
  | .gpickBelow w => some (0x37, w)
  | .gpickAbove w => some (0x37, w)
  | .gpickFlip w => some (0x37, w)
  | .cvt w => some (0x38, w)
  | .cvti w => some (0x39, w)
  | .cvtf w => some (0x3A, w)
  | .cvtpk w => some (0x3B, w)
  | .cvtup w => some (0x3C, w)
  | .fscale w => some (0x3D, w)
  | .getmode w => some (0x3E, w)
  | .getmodeGen w => some (0x3E, w)
  | .setmode w => some (0x3E, w)
  | .setmodeImm w => some (0x3E, w)
  | .setmodeGen w => some (0x3E, w)
  | .fadd w => some (0x40, w)
  | .fsub w => some (0x41, w)
  | .fmul w => some (0x42, w)
  | .ffma w => some (0x43, w)
  | .fmin w => some (0x44, w)
  | .fmax w => some (0x45, w)
  | .fcmp w => some (0x46, w)
  | .fclass w => some (0x47, w)
  | .pkadd w => some (0x48, w)
  | .pkmul w => some (0x49, w)
  | .pkfma w => some (0x4A, w)
  | .rcp w => some (0x50, w)
  | .sqrt w => some (0x52, w)
  | .rsq w => some (0x51, w)
  | .exp2 w => some (0x53, w)
  | .log2 w => some (0x54, w)
  | .sin w => some (0x55, w)
  | .cos w => some (0x56, w)
  | .tanh w => some (0x57, w)
  | .fsum w => some (0x58, w)
  | .fmaxr w => some (0x59, w)
  | .ld w => some (0x60, w)
  | .st w => some (0x61, w)
  | .ldl w => some (0x62, w)
  | .stl w => some (0x63, w)
  | .ldc w => some (0x64, w)
  | .stc w => some (0x65, w)
  | .pref w => some (0x66, w)
  | .discard w => some (0x67, w)
  | .cctlWb w => some (0x68, w)
  | .cctlInv w => some (0x68, w)
  | .cctlIinv w => some (0x68, w)
  | .cctlInvrs w => some (0x68, w)
  | .cctlWball w => some (0x68, w)
  | .qcfg w => some (0x69, w)
  | .qcfgFree w => some (0x69, w)
  | .qstatPos w => some (0x6A, w)
  | .qstatLeft w => some (0x6A, w)
  | .qstatStat w => some (0x6A, w)
  | .wait w => some (0x6B, w)
  | .atomAdd w => some (0x70, w)
  | .atomMin w => some (0x70, w)
  | .atomMax w => some (0x70, w)
  | .atomAnd w => some (0x70, w)
  | .atomOr w => some (0x70, w)
  | .atomXor w => some (0x70, w)
  | .atomExch w => some (0x70, w)
  | .atomFadd w => some (0x70, w)
  | .atomBfadd w => some (0x70, w)
  | .acas w => some (0x71, w)
  | .redAdd w => some (0x72, w)
  | .redMin w => some (0x72, w)
  | .redMax w => some (0x72, w)
  | .redAnd w => some (0x72, w)
  | .redOr w => some (0x72, w)
  | .redXor w => some (0x72, w)
  | .redFadd w => some (0x72, w)
  | .redBfadd w => some (0x72, w)
  | .barT w => some (0x73, w)
  | .barC w => some (0x73, w)
  | .barD w => some (0x73, w)
  | .arriveT w => some (0x74, w)
  | .arriveC w => some (0x74, w)
  | .arriveD w => some (0x74, w)
  | .arriveG w => some (0x74, w)
  | .waitbT w => some (0x75, w)
  | .waitbC w => some (0x75, w)
  | .waitbD w => some (0x75, w)
  | .bowait w => some (0x76, w)
  | .tcopy w => some (0x80, w)
  | .tstore w => some (0x81, w)
  | .tgather w => some (0x82, w)
  | .tscatter w => some (0x83, w)
  | .tfill w => some (0x84, w)
  | .mma w => some (0x88, w)
  | .accld w => some (0x89, w)
  | .accst w => some (0x8A, w)
  | .accz w => some (0x8B, w)
  | .tfetch w => some (0x90, w)
  | .tfetchX w => some (0x90, w)
  | .tfetchXe w => some (0x90, w)
  | .tretire w => some (0x91, w)
  | .route w => some (0x92, w)
  | .exacq w => some (0x93, w)
  | .exrel w => some (0x94, w)
  | .dqstatQ w => some (0x95, w)
  | .dqstatErt w => some (0x95, w)
  | .dqstatGy w => some (0x95, w)
  | .dqstatHand w => some (0x95, w)
  | .coll w => some (0x98, w)
  | .progv w => some (0x99, w)
  | .collstat w => some (0x9A, w)
  | .collstatW w => some (0x9A, w)
  | .trapI w => some (0xA0, w)
  | .eret w => some (0xA1, w)
  | .rdsys w => some (0xA2, w)
  | .wrsys w => some (0xA3, w)
  | .rolesw w => some (0xA4, w)
  | .bkpt w => some (0xA5, w)
  | .tlbinvPage w => some (0xA6, w)
  | .tlbinvOwn w => some (0xA6, w)
  | .tlbinvAll w => some (0xA6, w)
  | .ctxsave w => some (0xA7, w)
  | .ctxload w => some (0xA8, w)
  | .halt w => some (0xA9, w)
  | _ => none

/-- The 96-bit word of a Jolisol instruction. -/
def encodeJolisol (i : Instr) : Option IWord := (jMajOf i).map fun p => jPack p.1 p.2

/-- The opcode and word of a Luanil instruction. -/
def lOpOf : Instr → Option (Nat × LWord)
  | .matchL w => some (0x01, w)
  | .cmb w => some (0x02, w)
  | .fwd w => some (0x03, w)
  | .fwdMem w => some (0x03, w)
  | .fwdRank w => some (0x03, w)
  | .gath w => some (0x04, w)
  | .spill w => some (0x05, w)
  | .fillSave w => some (0x06, w)
  | .fillSrc w => some (0x06, w)
  | .fillMem w => some (0x06, w)
  | .boupd w => some (0x07, w)
  | .chk w => some (0x08, w)
  | .progw w => some (0x09, w)
  | .luanilLoop w => some (0x0A, w)
  | .endl w => some (0x0B, w)
  | .bnz w => some (0x0C, w)
  | .setk w => some (0x0D, w)
  | .nextc w => some (0x0E, w)
  | .doneL w => some (0x0F, w)
  | .setc w => some (0x10, w)
  | .addc w => some (0x11, w)
  | .jmp w => some (0x12, w)
  | .luanilNop w => some (0x13, w)
  | _ => none

/-- The 64-bit word of a Luanil instruction (Table 13-5). -/
def encodeLuanil (i : Instr) : Option (BitVec 64) :=
  (lOpOf i).map fun p => (BitVec.ofNat 6 p.1 ++ p.2.flags ++ p.2.slot ++ p.2.key ++ p.2.mask : BitVec 64)

/-- The type and body of a packet. -/
def pTypeOf : Instr → Option (Nat × Packet)
  | .nopPacket p => some (0x00, p)
  | .launch p => some (0x01, p)
  | .write32 p => some (0x02, p)
  | .write64 p => some (0x03, p)
  | .waitMem p => some (0x04, p)
  | .atomicMemAdd p => some (0x05, p)
  | .atomicMemAnd p => some (0x05, p)
  | .atomicMemOr p => some (0x05, p)
  | .atomicMemExch p => some (0x05, p)
  | .atomicMemCas p => some (0x05, p)
  | .indirect p => some (0x06, p)
  | .condBegin p => some (0x07, p)
  | .condEnd p => some (0x08, p)
  | .loopBegin p => some (0x09, p)
  | .loopEnd p => some (0x0A, p)
  | .fetchFence p => some (0x0B, p)
  | .collective p => some (0x0C, p)
  | .boSignal p => some (0x0D, p)
  | .timestamp p => some (0x0E, p)
  | .discardRange p => some (0x0F, p)
  | .ertPreload p => some (0x10, p)
  | .setShare p => some (0x11, p)
  | .resync p => some (0x12, p)
  | _ => none

/-- The words of a packet (R420). -/
def encodePacket (i : Instr) : Option (List Word) :=
  (pTypeOf i).map fun p =>
    (BitVec.ofNat 8 p.1 ++ BitVec.ofNat 12 (p.2.body.length + 1) ++ p.2.flags : BitVec 32) :: p.2.body

/-- The three 32-bit pieces of an instruction word, lowest first (R46, R72). -/
def iwordWords (x : IWord) : List Word := [x.extractLsb' 0 32, x.extractLsb' 32 32, x.extractLsb' 64 32]

/-- The words of an instruction, lowest address first: three of a Jolisol instruction, two of a Luanil instruction, as
many as its length of a packet, none of an event, which the spec gives no encoding. -/
def encode (i : Instr) : List Word :=
  match encodeJolisol i with
  | some x => iwordWords x
  | none =>
    match encodeLuanil i with
    | some x => [x.extractLsb' 0 32, x.extractLsb' 32 32]
    | none => (encodePacket i).getD []

/-! ## The host's question -/

/-- The 32-bit words of a number, lowest first. -/
def natWords (n w : Nat) : List Word := (List.range n).map fun i => BitVec.ofNat 32 (w / 2 ^ (32 * i))

def exceptOpt {ε α : Type} : Except ε α → Option α
  | .ok a => some a
  | .error _ => none

/-- A packet's words: its `n` given words, completed by zeros to the length its header names. -/
def tablePacket (n w : Nat) : List Word := natWords (max n (pkLen (BitVec.ofNat 32 w))) w

/-- The instruction that `nbits` bits of a word decode to, bit 0 the least significant bit of the first word: 96 bits
are a Jolisol word, or a packet of three words; 64 bits a Luanil word, or a packet of two; any other number of bits a
packet. The table names no bits for any row (log 7). -/
def decodeTableWord (nbits w : Nat) : Option Instr :=
  if nbits = 96 then
    match decodeJolisol (BitVec.ofNat 96 w) with
    | .ok i => some i
    | .error _ => exceptOpt (decodePacket (tablePacket 3 w))
  else if nbits = 64 then
    match decodeLuanil (BitVec.ofNat 64 w) with
    | .ok i => some i
    | .error _ => exceptOpt (decodePacket (tablePacket 2 w))
  else if nbits = 0 then none
  else exceptOpt (decodePacket (tablePacket ((nbits + 31) / 32) w))

end Sys2Proof
end

