-- ==== Sys2Proof/Machine/Ops.lean ====
section
/-! DEFINITION. Sys2Proof/Machine/Ops.lean: the named operations over State: finding and updating teams, spindles and
fragments; registers (R47, R48); memory bytes, owners and ECC (R6, R184, R205, R398); line tokens (R195); barrier objects
(R255); in-flight counters (R204); TAKING A TRAP and returning from one (R386-R393, R410). -/

namespace Sys2Proof.Machine

open Sys2Proof

abbrev Out := Host.Outcome State Fault Refusal

/-! ## Finding and updating -/

def findTeam (s : State) (t : Nat) : Option Team := s.teams.find? fun x => x.id == t
def updTeam (s : State) (t : Nat) (f : Team → Team) : State := { s with teams := updWhere (fun x => x.id == t) f s.teams }

def Team.spindle? (t : Team) (spx : Nat) : Option Spindle := t.spindles.find? fun x => x.spx == spx
def findSp (s : State) (r : SpRef) : Option Spindle := (findTeam s r.team).bind (·.spindle? r.spx)
def updSp (s : State) (r : SpRef) (f : Spindle → Spindle) : State :=
  updTeam s r.team fun t => { t with spindles := updWhere (fun x => x.spx == r.spx) f t.spindles }

def Spindle.frag? (p : Spindle) (i : Nat) : Option Frag := p.frags.find? fun x => x.id == i
def Spindle.updFrag (p : Spindle) (i : Nat) (f : Frag → Frag) : Spindle :=
  { p with frags := updWhere (fun x => x.id == i) f p.frags }
def findFrag (s : State) (r : FragRef) : Option Frag := (findSp s r.sp).bind (·.frag? r.frag)
def updFrag (s : State) (r : FragRef) (f : Frag → Frag) : State := updSp s r.sp fun p => p.updFrag r.frag f

def findGrid (s : State) (g : Nat) : Option Grid := s.grids.find? fun x => x.id == g
def updGrid (s : State) (g : Nat) (f : Grid → Grid) : State := { s with grids := updWhere (fun x => x.id == g) f s.grids }
def findDie (s : State) (d : Nat) : Option Die := s.dies.find? fun x => x.id == d
def updDie (s : State) (d : Nat) (f : Die → Die) : State := { s with dies := updWhere (fun x => x.id == d) f s.dies }

/-- The die's READY bit is set and the die is not lost (R18, R479). -/
def dieUp (s : State) (d : Nat) : Bool :=
  decide (d < 8) && s.ready.getLsbD (3 + d) && (match findDie s d with | some x => !x.lost | none => false)

/-- A team on a firmware core runs at firmware level (R19, R385). -/
def Team.fw (t : Team) : Bool := decide (64 ≤ t.core)

/-- The address space a team translates in: its grid's tenant, or owner id 0's (R385, R395). -/
def teamTenant (s : State) (t : Team) : Nat := if t.fw then 0 else ((findGrid s t.grid).map (·.tenant)).getD 0

/-- The launch's team scratch size (R27, R183). -/
def teamScratch (s : State) (t : Team) : Nat := ((findGrid s t.grid).map (·.scratch)).getD 0

/-- Core index in the cluster (R16), from virtual coordinates, which start at an even position (R31). -/
def Team.kix (t : Team) : Nat := 2 * (t.vcy % 2) + t.vcx % 2

/-- The cluster of a grid that a team belongs to: virtual cluster column and row (Table 3-6). -/
def Team.clu (t : Team) : Nat × Nat := (t.vcx / 2, t.vcy / 2)

/-- The four teams of a team's cluster. -/
def sameCluster (a b : Team) : Bool := a.grid == b.grid && a.clu == b.clu

/-- The sibling with a core index. -/
def sibling (s : State) (t : Team) (k : Nat) : Option Team := s.teams.find? fun x => sameCluster x t && x.kix == k

/-- The physical core of a mesh core number (R17). -/
def physCore (s : State) (d core : Nat) : Nat :=
  if 64 ≤ core then core
  else match findDie s d with
    | some x => ((x.spare.find? fun e => e.1 == core).map (·.2)).getD core
    | none => core

/-- Bump the counter of identifiers. -/
def fresh (s : State) : Nat × State := (s.nextId, { s with nextId := s.nextId + 1 })

/-- A grid's role table entry. -/
def roleOf (g : Grid) (r : Nat) : RoleEnt := g.roles.getD r default

/-- Gang size, 1 when the role has none (R26, Table 3-6). -/
def gangSize (g : Grid) (r : Nat) : Nat := max 1 (roleOf g r).gang

/-- Die part of a virtual core (R31): column, row and DIX. -/
def dpxOf (g : Grid) (x : Nat) : Nat := (x - g.x0) / 8
def dpyOf (g : Grid) (y : Nat) : Nat := (y - g.y0) / 8
def dixOf (g : Grid) (x y : Nat) : Nat := dpyOf g y * ((g.w + 7) / 8) + dpxOf g x

/-! ## Registers -/

def vget (p : Spindle) (n t : Nat) : Word := mget p.v (8 * n + t)
def sget (p : Spindle) (n : Nat) : Word := mget p.s n
def pget (p : Spindle) (n t : Nat) : Bool := (mget p.p t).getLsbD n

/-- The number of v registers of an MMA's A block (Table 10-2). -/
def aBlockRegs : Nat := 128

/-- A latch after a write to register n (R60). -/
def dropHold (n : Nat) (l : Option (Nat × Nat)) : Option (Nat × Nat) := l.filter fun e => !decide (e.1 ≤ n ∧ n < e.1 + e.2)

/-- The hold on the chuck after a write to register n: it covers the block and its scales (R61). -/
def dropBlock (n : Nat) (l : Option (Nat × Nat × Nat)) : Option (Nat × Nat × Nat) :=
  l.filter fun e => !decide ((e.1 ≤ n ∧ n < e.1 + aBlockRegs) ∨ (e.2.1 ≤ n ∧ n < e.2.1 + e.2.2))

/-- A write to a register releases what holds it (R60, R61). -/
def dropLatch (p : Spindle) (n : Nat) : Spindle :=
  { p with latchA := dropHold n p.latchA, latchB := dropHold n p.latchB, held := dropBlock n p.held }
/-- A write to an element gives it new ECC (R205). -/
def vset (p : Spindle) (n t : Nat) (x : Word) : Spindle :=
  dropLatch { p with v := mset p.v (8 * n + t) x, badV := p.badV.filter (· != 8 * n + t) } n
def sset (p : Spindle) (n : Nat) (x : Word) : Spindle := { p with s := mset p.s n x }
def setBit48 (x : BitVec 48) (n : Nat) (b : Bool) : BitVec 48 :=
  if b then x ||| BitVec.twoPow 48 n else x &&& ~~~(BitVec.twoPow 48 n)
def pset (p : Spindle) (n t : Nat) (b : Bool) : Spindle := { p with p := mset p.p t (setBit48 (mget p.p t) n b) }

/-- The value of `n` v registers of a thread, lowest first (R48). -/
def vgetN (p : Spindle) (r n t : Nat) : BitVec 128 :=
  BitVec.ofNat 128 (((List.range n).map fun i => (vget p (r + i) t).toNat * 2 ^ (32 * i)).sum)
def sgetN (p : Spindle) (r n : Nat) : BitVec 128 :=
  BitVec.ofNat 128 (((List.range n).map fun i => (sget p (r + i)).toNat * 2 ^ (32 * i)).sum)
def vsetN (p : Spindle) (r n t : Nat) (x : BitVec 128) : Spindle :=
  (List.range n).foldl (fun q i => vset q (r + i) t (x.extractLsb' (32 * i) 32)) p
def ssetN (p : Spindle) (r n : Nat) (x : BitVec 128) : Spindle :=
  (List.range n).foldl (fun q i => sset q (r + i) (x.extractLsb' (32 * i) 32)) p

/-- Write `n` registers named by a destination field, for one thread; zero discards (Table 2-2). -/
def writeDst (p : Spindle) (d : BitVec 10) (n t : Nat) (x : BitVec 128) : Spindle :=
  match opnd d with
  | .v r => vsetN p r n t x
  | .s r => ssetN p r n x
  | _ => p

/-! ## Physical memory (R6, R476) -/

/-- PA[51:48]: 0 HBM, 1 CXL, 2 host (R476). -/
def paKind (pa : Nat) : Nat := pa / 2 ^ 48 % 16
/-- Home die of an HBM address: the stack [39:36] divided by two (R396, R476). -/
def paDie (pa : Nat) : Nat := natBits pa 36 4 / 2
def isHbm (pa : Nat) : Bool := paKind pa == 0
/-- May an I/O die's port be used for an address of system memory: its READY bit is set, and CXL's for CXL memory (R15, R479)? -/
def sysUp (s : State) (pa : Nat) : Bool :=
  s.ready.getLsbD (11 + natBits pa 47 1) && (paKind pa != 1 || s.ready.getLsbD 14)
def lineOf (pa : Nat) : Nat := pa - pa % 256
def sectorOf (pa : Nat) : Nat := pa - pa % 32

/-- The owner under whose key a byte's line was last written, none where nothing wrote it (R398). -/
def ownerAt (s : State) (pa : Nat) : Option Nat :=
  (s.lineOwner.find? fun e => decide (e.1 / 256 ≤ pa / 256 ∧ pa / 256 < (e.1 + e.2.1 + 255) / 256)).map (·.2.2)

/-- The byte that a read under `owner` gives: unrelated where another owner's key last wrote the line (R398). -/
def memByte (s : State) (owner pa : Nat) : Byte :=
  match ownerAt s pa with
  | some o => if o = owner then mget s.mem pa else Config.scramble o owner pa (mgetList s.mem (pa - pa % 16) 16)
  | none => mget s.mem pa

def memBytes (s : State) (owner pa n : Nat) : List Byte := (List.range n).map fun i => memByte s owner (pa + i)

/-- Bring a line under an owner's key before a partial write (R398). -/
def claimLine (s : State) (owner line : Nat) : State :=
  match ownerAt s line with
  | some o =>
    if o = owner then s
    else { s with mem := msetList s.mem line (memBytes s owner line 256), lineOwner := (line, 256, owner) :: s.lineOwner }
  | none => { s with lineOwner := (line, 256, owner) :: s.lineOwner }

/-- Lines touched by `n` bytes at an address. -/
def linesOf (pa n : Nat) : List Nat :=
  if n = 0 then [] else (List.range ((pa + n - 1) / 256 - pa / 256 + 1)).map fun i => (pa / 256 + i) * 256

/-- Sectors wholly covered by `n` bytes at an address. -/
def coversSector (pa n sec : Nat) : Bool := decide (pa ≤ sec ∧ sec + 32 ≤ pa + n)

/-- Write bytes under an owner's key; a sector written whole loses its bad-ECC mark (R205). -/
def writeMem (s : State) (owner pa : Nat) (bs : List Byte) : State :=
  let s := (linesOf pa bs.length).foldl (fun s l => claimLine s owner l) s
  { s with mem := msetList s.mem pa bs, badSec := s.badSec.filter fun x => !coversSector pa bs.length x }

/-- Does any of `n` bytes at an address lie in a sector with bad ECC, or in released CXL capacity (R205, R477)? -/
def memBad (s : State) (pa n : Nat) : Bool :=
  (s.badSec.any fun x => decide (x < pa + n ∧ pa < x + 32)) ||
  (s.poison.any fun x => decide (x.1 < pa + n ∧ pa < x.1 + x.2))

/-- Reads of the tables that walkers and devices keep in physical memory, under the key of their last writer (log 9). -/
def read64 (s : State) (pa : Nat) : BitVec 64 := ofBytes 64 (mgetList s.mem pa 8)
def read32 (s : State) (pa : Nat) : Word := ofBytes 32 (mgetList s.mem pa 4)

/-- Is a page discarded: bit 12 of its leaf in memory (R184, Table 14-4). -/
def pageDiscarded (s : State) (pte : Nat) : Bool := (read64 s pte).getLsbD 12

/-- The zero-fill of R184: the page is zeros under its owner's key, and its discarded state is cleared. -/
def zeroFill (s : State) (owner pte base size : Nat) : State :=
  if pageDiscarded s pte then
    let s := { s with mem := mclear s.mem base (base + size), lineOwner := (base, size, owner) :: s.lineOwner,
                      badSec := s.badSec.filter fun x => !decide (base ≤ x ∧ x < base + size) }
    { s with mem := msetList s.mem pte (toBytes (read64 s pte &&& ~~~(0x1000 : BitVec 64)) 8) }
  else s

/-! ## Error log (R485) -/

/-- An entry of the error log, and its cumulative count. -/
def logError (s : State) (cls die core : Nat) (detail : Word) (line : BitVec 64) : State :=
  { s with errLog := s.errLog ++ [{ cycle := s.cycle, cls := cls, die := die, core := core, detail := detail, line := line }],
           errCount := s.errCount + 1 }

/-! ## Line tokens (R195) -/

/-- Line tokens and owner token held by a holder other than the home. -/
def tokAt (s : State) (h : Holder) (line : Nat) : Option Tok := s.toks.find? fun x => x.h == h && x.line == line

/-- Tokens of a line inside a message in flight. -/
def msgTok (line : Nat) : MsgBody → Nat × Bool
  | .tok l _ n o _ => if l = line then (n, o) else (0, false)
  | .wbk l n o _ => if l = line then (n, o) else (0, false)
  | _ => (0, false)

def flightTok (s : State) (line : Nat) : Nat := (s.msgs.map fun m => (msgTok line m.body).1).sum
def flightOwner (s : State) (line : Nat) : Bool := s.msgs.any fun m => (msgTok line m.body).2
def heldTok (s : State) (line : Nat) : Nat := ((s.toks.filter fun x => x.line == line).map (·.n)).sum
def heldOwner (s : State) (line : Nat) : Bool := s.toks.any fun x => x.line == line && x.owner

/-- The home keeps every line token that no other holder has and no message carries (R195). -/
def homeTok (s : State) (line : Nat) : Nat := 16 - (heldTok s line + flightTok s line)
def homeOwner (s : State) (line : Nat) : Bool := !(heldOwner s line || flightOwner s line)

def tokCount (s : State) (h : Holder) (line : Nat) : Nat :=
  if h = .home then homeTok s line else ((tokAt s h line).map (·.n)).getD 0
def tokOwner (s : State) (h : Holder) (line : Nat) : Bool :=
  if h = .home then homeOwner s line else ((tokAt s h line).map (·.owner)).getD false
def tokValid (s : State) (h : Holder) (line : Nat) : Bool :=
  if h = .home then homeOwner s line else ((tokAt s h line).map (·.valid)).getD false

/-- Replace a holder's tokens of a line; a holder with none is not listed. -/
def setTok (s : State) (x : Tok) : State :=
  let rest := s.toks.filter fun y => !(y.h == x.h && y.line == x.line)
  { s with toks := if x.h = .home ∨ x.n = 0 then rest else x :: rest }

/-- May a holder read, or write, a line (R195, R197)? -/
def mayRead (s : State) (h : Holder) (line : Nat) : Bool := decide (1 ≤ tokCount s h line) && tokValid s h line
def mayWrite (s : State) (h : Holder) (line : Nat) : Bool := decide (tokCount s h line = 16)

/-- What a die does to its L1s before it sends line tokens away (R194): it takes in their dirty sectors, and keeps the copies
in S where it keeps a token. -/
def l1Release (s : State) (h : Holder) (line : Nat) (keeps : Bool) : State :=
  match h with
  | .l2 die =>
    let here := fun (x : L1Line) => x.die == die && x.line == line
    { s with l1c := if keeps then updWhere here (fun x => { x with st := .s, dirty := 0 }) s.l1c else s.l1c.filter fun x => !here x }
  | _ => s

/-- Put messages in flight. -/
def send (s : State) (bs : List MsgBody) : State :=
  bs.foldl (fun s b => { s with msgs := s.msgs ++ [{ id := s.nextId, body := b }], nextId := s.nextId + 1 }) s

/-- The tokens of a holder on their way: to the home by WBK, else by TOK, with data beside the owner token, or where it
answers a TRS. -/
def tokenMsg (line : Nat) (dst : Holder) (n : Nat) (owner data : Bool) : MsgBody :=
  if dst = .home then .wbk line n owner owner else .tok line dst n owner data

/-- A holder sends away all its tokens of a line. -/
def sendAll (s : State) (h dst : Holder) (line : Nat) : State :=
  let n := tokCount s h line
  let o := tokOwner s h line
  if n = 0 ∨ h = dst then s
  else
    let s := l1Release s h line false
    send (setTok s { line := line, h := h, n := 0, owner := false, valid := false }) [tokenMsg line dst n o o]

/-- An eviction that carries data with uncorrectable sectors is recorded in the error log (R205, class 1, no core). -/
def logEvict (s : State) (die line : Nat) : State :=
  if tokOwner s (.l2 die) line then
    ((List.range 8).filter fun i => memBad s (line + 32 * i) 32).foldl
      (fun s i => logError s 1 die 0xFFFF (BitVec.ofNat 32 i) (BitVec.ofNat 64 line)) s
  else s

/-- A holder gives a line up to its home (R194). -/
def evictLine (s : State) (h : Holder) (line : Nat) : State :=
  sendAll (match h with | .l2 die => logEvict s die line | _ => s) h .home line

/-- Lines that a holder has room for: 64 MiB in a die's L2, 8 MiB in an I/O die's line cache (R13, R44). -/
def lineRoom : Holder → Option Nat
  | .l2 _ => some 262144
  | .dma _ => some 32768
  | _ => none

/-- Room for one more line: which line a full holder evicts is free (R194; log 99). -/
def makeLineRoom (s : State) (h : Holder) (line : Nat) : State :=
  match lineRoom h with
  | none => s
  | some n =>
    let mine := s.toks.filter fun x => x.h == h
    if decide (mine.length < n) || mine.any (fun x => x.line == line) then s
    else evictLine { s with freeNo := s.freeNo + 1 } h ((mine.map (·.line)).getD (Config.freePick s.freeNo 0 % n) 0)

/-- The requester of the activation of a line that is in force (R199). -/
def activeReq (s : State) (line : Nat) : Option Holder :=
  (s.preqs.find? fun p => p.line == line && p.seq.isSome).map (·.req)

/-- While an activation is in force, the tokens that a holder has gathered go on to its requester (R199 step 3). -/
def passOn (s : State) (h : Holder) (line : Nat) : State :=
  match activeReq s line with
  | some r => sendAll s h r line
  | none => s

/-- What an engine's or a device's own access does within its step: it holds all 16 line tokens of a line (log 8), and
no L1 keeps a copy. -/
def takeLine (s : State) (h : Holder) (line : Nat) : State :=
  let s := makeLineRoom s h line
  let msgs := s.msgs.map fun m => match m.body with
    | .tok l d _ _ _ => if l = line then { m with body := .tok l d 0 false false } else m
    | .wbk l _ _ _ => if l = line then { m with body := .wbk l 0 false false } else m
    | _ => m
  let s := { s with toks := s.toks.filter (fun x => x.line != line), msgs := msgs,
                    l1c := s.l1c.filter fun x => x.line != line }
  setTok s { line := line, h := h, n := 16, owner := true, valid := true }

def takeLines (s : State) (h : Holder) (pa n : Nat) : State :=
  if isHbm pa then (linesOf pa n).foldl (fun s l => takeLine s h l) s else s

def passLines (s : State) (h : Holder) (pa n : Nat) : State :=
  if isHbm pa then (linesOf pa n).foldl (fun s l => passOn s h l) s else s

/-- A device's write of coherent memory: it holds the lines and writes them under an owner's key. -/
def devWrite (s : State) (h : Holder) (owner pa : Nat) (bs : List Byte) : State :=
  passLines (writeMem (takeLines s h pa bs.length) owner pa bs) h pa bs.length

/-! ## Barrier objects (R255) -/

/-- One update of the barrier object at a physical address: increment, status, flags, updater. -/
def boUpdate (s : State) (h : Holder) (owner pa : Nat) (inc : Nat) (status flags : Nat) (updater : Word) : State :=
  let old := memBytes s owner pa 64
  let count := ofBytesNat (old.take 8)
  let st := ofBytesNat ((old.drop 12).take 4)
  let fl := ofBytesNat ((old.drop 16).take 4)
  let s := takeLines s h pa 64
  let s := writeMem s owner pa (toBytes (BitVec.ofNat 64 (count + inc)) 8)
  passLines (writeMem s owner (pa + 12) (toBytes (BitVec.ofNat 32 (if st = 0 then status else st)) 4 ++
    toBytes (BitVec.ofNat 32 fl ||| BitVec.ofNat 32 flags) 4 ++ toBytes updater 4 ++ toBytes s.cycle 8)) h pa 64

/-! ## In-flight counters (R203, R204) -/

/-- Paths in Table 7-10's order: 0 gld, 1 gst, 2 sld, 3 sst, 4 cpy, 5 mtx, 6 col (R223). -/
def ctrOf (p : Spindle) (path : Nat) : Nat := (mget p.ctr path).toNat

def raiseCtr (p : Spindle) (path : Nat) : Spindle := { p with ctr := mset p.ctr path (mget p.ctr path + 1) }
def lowerCtr (p : Spindle) (path : Nat) : Spindle :=
  { p with ctr := if mget p.ctr path = 0 then p.ctr else mset p.ctr path (mget p.ctr path - 1) }

/-- One pass of R204 over the pending instructions in issue order: a path falls while its oldest instruction is done on
it. `blocked` lists the paths whose oldest instruction is not. -/
def settlePend (blocked : List Nat) : List Pend → List Pend × List Nat
  | [] => ([], [])
  | x :: xs =>
    let fall := (x.paths.filter fun e => e.2 && !blocked.contains e.1).map (·.1)
    let keep := x.paths.filter fun e => !(e.2 && !blocked.contains e.1)
    let r := settlePend (blocked ++ keep.map (·.1)) xs
    let x' := { x with paths := keep }
    (if x.complete && keep.isEmpty then r.1 else x' :: r.1, fall ++ r.2)

/-- Let the counters fall that may, and forget the instructions that are complete and done. -/
def settle (p : Spindle) : Spindle :=
  let r := settlePend [] p.pend
  r.2.foldl lowerCtr { p with pend := r.1 }

/-- Mark a pending instruction complete and done on all its paths. -/
def finishPend (p : Spindle) (id : Nat) : Spindle :=
  let f := fun (x : Pend) => { x with complete := true, accs := [], paths := x.paths.map fun e => (e.1, true) }
  settle { p with pend := updWhere (fun x => x.id == id) f p.pend }

/-- Forget a pending instruction, its counters lowered as though it had never raised them (R58, R205, R214). -/
def cancelPend (p : Spindle) (id : Nat) : Spindle :=
  match p.pend.find? fun x => x.id == id with
  | none => p
  | some x => settle (x.paths.foldl (fun q e => lowerCtr q e.1) { p with pend := p.pend.filter fun y => y.id != id })

/-! ## Taking a trap -/

/-- The 64 bytes of a trap record (Table 14-3). -/
def recBytes (r : TrapRec) : List Byte :=
  [r.cause, r.reason, r.tmask, r.fmask, r.info0, r.fpc] ++ toBytes r.spx 2 ++ toBytes r.pc 8 ++ toBytes r.word 12 ++
  List.replicate 4 0 ++ toBytes r.addr 8 ++ toBytes r.info 8 ++ [r.core, r.die] ++ toBytes r.vcxy 2 ++
  List.replicate 4 0 ++ toBytes r.time 8

/-- What a condition adds to its record beyond the place where it arose. -/
structure Cond where
  cause  : Nat
  reason : Nat := 0
  tmask  : BitVec 8 := 0
  addr   : BitVec 64 := 0
  info   : BitVec 64 := 0
  fpc    : Nat := 0
  w      : Nat := 0
  deriving DecidableEq, Repr, Inhabited

/-- Is a stop of a team's cluster pending (R35)? -/
def stopPending (s : State) (t : Team) : Bool :=
  ((findGrid s t.grid).map fun g => g.clusters.any fun c =>
    c.stopping && decide (c.cl = (t.vcy / 2 - g.y0 / 2) * (g.w / 2) + (t.vcx / 2 - g.x0 / 2))).getD false

/-- Has a fragment waited past the watchdog's limit (R394)? -/
def watchdogDue (s : State) (t : Team) (f : Frag) : Bool :=
  let limit := ((findDie s t.die).map (·.wdog.toNat)).getD 0 * 1200
  limit != 0 && decide (limit < f.waited)

/-- Is a swap or yield drain, a debugger halt or a watchdog pending for a spindle (R393: INFO0 bit 6)? -/
def eventPending (s : State) (t : Team) (spx : Nat) : Bool :=
  stopPending s t || (match t.spindle? spx with
    | some p => p.halted || p.frags.any (watchdogDue s t)
    | none => false)

/-- INFO0 before delivery: W, a pending stop, and the exit that an EXIT's trap suppresses (R388, R393). -/
def info0Of (s : State) (t : Team) (spx : Nat) (word : IWord) (w : Nat) : BitVec 8 :=
  BitVec.ofNat 8 (w % 16 + (if eventPending s t spx then 64 else 0) + (if jMaj word = 0x07 then 128 else 0))

/-- The record of a condition at an instruction of a fragment (R388). -/
def mkRec (s : State) (t : Team) (spx : Nat) (fmask : BitVec 8) (pc : BitVec 64) (word : IWord) (c : Cond) : TrapRec :=
  { cause := BitVec.ofNat 8 c.cause, reason := BitVec.ofNat 8 c.reason, tmask := c.tmask, fmask := fmask,
    info0 := info0Of s t spx word c.w, fpc := BitVec.ofNat 8 c.fpc, spx := BitVec.ofNat 16 spx, pc := pc, word := word,
    addr := c.addr, info := c.info, core := BitVec.ofNat 8 (physCore s t.die t.core), die := BitVec.ofNat 8 t.die,
    vcxy := BitVec.ofNat 16 (t.vcx + 256 * t.vcy), time := s.cycle }

/-- Live threads of a fragment. -/
def liveIn (p : Spindle) (f : Frag) : BitVec 8 := f.mask &&& p.live

/-- Nesting counters of the threads of a mask, packed as ENEST (R389). -/
def packNest (p : Spindle) (m : BitVec 8) : BitVec 64 :=
  BitVec.ofNat 64 (((threadsOf m).map fun t => (mget p.nest t).toNat * 2 ^ (6 * t)).sum)

def clearNest (p : Spindle) (m : BitVec 8) : Spindle :=
  { p with nest := (threadsOf m).foldl (fun n t => mset n t 0) p.nest }

/-- No latch is held, nor the chuck (R60, R61). -/
def noLatch (p : Spindle) : Spindle := { p with latchA := none, latchB := none, held := none }

/-- Every open lookahead window of a fragment ends (R389, R57): nothing more issues before what is pending completes. -/
def endWindows (p : Spindle) (frag : Nat) : Spindle :=
  { p with pend := p.pend.map fun x => if x.frag == frag then { x with left := 0 } else x }

/-- Delivery to the team handler (R389): TREC, EPC, ENEST, TLV, and the fragment at THND. -/
def enterHandler (thnd : BitVec 64) (frag : Nat) (r : TrapRec) (p : Spindle) : Spindle :=
  match p.frag? frag with
  | none => p
  | some f =>
    let m := liveIn p f
    let p := { p with
      trec := msetList [] 0 (recBytes r),
      epc := if r.cause = 0x0C then r.pc + 12 else r.pc,
      enest := packNest p m, epcW := r.info0.toNat % 16, tlv := true, hfrag := frag }
    let p := noLatch (endWindows (clearNest p m) frag)
    p.updFrag frag fun f => { f with st := .ready, pc := thnd, fetched := none, replay := none, stall := none }

/-- Where a trap goes (R386, R390, R409). -/
inductive Dest where
  | handler | firmware | debugger
  deriving DecidableEq, Repr, Inhabited

def trapDest (dbg : Bool) (t : Team) (p : Spindle) (r : TrapRec) : Dest :=
  if r.cause = 0x0F then .firmware
  else if r.cause = 0x0B ∧ dbg then .debugger
  else if r.cause = 0x0B ∧ r.reason = 2 then .firmware
  else if t.thnd = 0 ∨ p.tlv then .firmware
  else .handler

/-- Is a debugger attached to a team's grid (R406)? -/
def debugOn (s : State) (t : Team) : Bool := ((findGrid s t.grid).map (·.debug)).getD false

/-- A trap of cause 0x0D is also recorded in the error log (Table 14-1, R485): class 2 for a Basin word, which an ACCLD
reads, else class 1; the sector and the line of INFO (log 84). -/
def logTrap (s : State) (r : TrapRec) : State :=
  if r.cause ≠ 0x0D then s
  else
    logError s (if jMaj r.word = 0x89 then 2 else 1) r.die.toNat r.core.toNat (BitVec.ofNat 32 (bitsOf r.info 0 3))
      (r.info &&& ~~~(0xFF : BitVec 64))

/-- Deliver a trap of a spindle (R386, R389-R391): the team handler, the firmware queue with the spindle stopped, or the
debugger with the spindle halted. -/
def deliver (s : State) (sp : SpRef) (frag : Nat) (r : TrapRec) : State :=
  let s := logTrap s r
  match findTeam s sp.team, findSp s sp with
  | some t, some p =>
    match trapDest (debugOn s t) t p r with
    | .handler => updSp s sp (enterHandler t.thnd frag r)
    | .debugger => updSp s sp fun p => noLatch { p with halted := true, trec := msetList [] 0 (recBytes r) }
    | .firmware =>
      let bits := 16 + (if p.tlv then 32 else 0)
      let r := { r with info0 := r.info0 ||| BitVec.ofNat 8 bits }
      updDie (updSp s sp fun p => noLatch { p with st := .fwStopped r }) t.die fun d => { d with trapQ := d.trapQ ++ [(some sp, r)] }
  | _, _ => s

/-- The traps a spindle can take now: none while it handles one, is stopped or parked, but for a trap of its handler's own
fragment (R98, R390). A halted spindle takes its trap and stays halted (R393). -/
def canDeliver (p : Spindle) (frag : Nat) : Bool :=
  p.st == .running && (!p.tlv || frag == p.hfrag)

/-- A fragment stops for a trap; one that waited at its join has arrived there no longer (R58, R94). -/
def trapFrag (frag : Nat) (p : Spindle) : Spindle :=
  let gone := (p.frags.find? fun f => f.id == frag && f.st == .atJoin).map fun f => (f.join, f.mask)
  let leave := fun (j : JoinEnt) => match gone with
    | some (some k, m) => if j.id = k then { j with arrived := j.arrived &&& ~~~m } else j
    | _ => j
  { p.updFrag frag (fun f => { f with st := .trapped, stall := none }) with joins := p.joins.map leave }

/-- Stop a fragment for a trap and deliver it, or hold it pending behind the spindle's earlier one (R98). -/
def raiseTrap (s : State) (sp : SpRef) (frag : Nat) (r : TrapRec) : State :=
  match findSp s sp with
  | none => s
  | some p =>
    let s := updSp s sp fun p => { trapFrag frag p with stepFrag := none }
    if canDeliver p frag then deliver s sp frag r
    else updSp s sp fun p => { p with traps := p.traps ++ [(frag, r)] }

/-- A trap that a member of a gang may be unable to take now: it holds the trap pending while the debugger has halted it,
or it is stopped for or handles another trap, be it the same fragment's (R131). -/
def raiseGangTrap (s : State) (sp : SpRef) (frag : Nat) (r : TrapRec) : State :=
  match findSp s sp with
  | none => s
  | some p =>
    if p.halted || p.tlv || p.st != .running then
      let stop := fun (p : Spindle) => if p.tlv && frag == p.hfrag then p else trapFrag frag p
      updSp s sp fun p => { stop p with traps := p.traps ++ [(frag, r)] }
    else raiseTrap s sp frag r

/-- The lowest thread of a fragment of a spindle, 8 for none. -/
def lowestThread (p : Spindle) (frag : Nat) : Nat := match p.frag? frag with
  | some f => (threadsOf f.mask).headD 8
  | none => 8

/-- The pending trap to deliver next: that of the fragment with the lowest thread (R98). DESIGN CHOICE: also where the
pending traps were raised in different cycles, which R98 does not order (log 89). -/
def nextTrap (p : Spindle) : Option (Nat × TrapRec) :=
  p.traps.foldl (fun b x => match b with
    | none => some x
    | some y => if lowestThread p x.1 < lowestThread p y.1 then some x else some y) none

/-- Deliver the next pending trap, after an ERET or a resumption (R98). -/
def deliverPending (s : State) (sp : SpRef) : State :=
  match findSp s sp with
  | none => s
  | some p =>
    match nextTrap p with
    | none => s
    | some x =>
      if canDeliver p x.1 && !p.tlv then
        deliver (updSp s sp fun p => { p.updFrag x.1 (fun f => { f with st := .trapped, stall := none }) with
          traps := p.traps.filter fun y => y.1 != x.1 }) sp x.1 x.2
      else s

/-- Restore nesting counters from ENEST (R410). -/
def unpackNest (p : Spindle) (m : BitVec 8) : Spindle :=
  { p with nest := (threadsOf m).foldl (fun n t => mset n t (p.enest.extractLsb' (6 * t) 6)) p.nest }

/-- The return from a team handler (R410): nesting counters, TLV, the program counter, and with W > 0 the faulting
instruction again before execution continues behind its window (R58). -/
def leaveHandler (frag : Nat) (p : Spindle) : Spindle :=
  match p.frag? frag with
  | none => p
  | some f =>
    let p := noLatch { unpackNest p (liveIn p f) with tlv := false }
    let back := if p.epcW = 0 then none else some (p.epc + BitVec.ofNat 64 (12 * (p.epcW + 1)))
    p.updFrag frag fun f => { f with pc := p.epc, fetched := none, readyFor := 0, replay := back }

end Sys2Proof.Machine
end

