-- ==== Sys2Proof/Machine/Translate.lean ====
section
/-! DEFINITION. Sys2Proof/Machine/Translate.lean: page tables and walks (R395, R396), translation caches (R399), the
protection check (R397), and the check of an access in R214's order. -/

namespace Sys2Proof.Machine

open Sys2Proof

/-! ## Page table entries (Table 14-4) -/

def pteV (e : BitVec 64) : Bool := e.getLsbD 0
def pteLeaf (e : BitVec 64) : Bool := e.getLsbD 1
def pteOwner (e : BitVec 64) : Nat := bitsOf e 52 12
def ptePa (e : BitVec 64) : Nat := bitsOf e 19 33 * 2 ^ 19
def pteKind (e : BitVec 64) : Nat := bitsOf e 17 2
def pteClass (e : BitVec 64) : Nat := bitsOf e 15 2
def pteAlias (e : BitVec 64) : Nat := bitsOf e 13 2
def pteX (e : BitVec 64) : Bool := e.getLsbD 11
def pteW (e : BitVec 64) : Bool := e.getLsbD 10
def pteR (e : BitVec 64) : Bool := e.getLsbD 9
def pteSize (e : BitVec 64) : Nat := bitsOf e 7 2
/-- Alias leaf: window and rank. -/
def pteWin (e : BitVec 64) : Nat := bitsOf e 27 8
def pteRank (e : BitVec 64) : Nat := bitsOf e 19 8
/-- Table pointer: the next table's address. -/
def pteNext (e : BitVec 64) : Nat := bitsOf e 9 43 * 2 ^ 9

/-- Bytes of a page by its SIZE code (R182). -/
def pageBytes (size : Nat) : Nat := if size = 0 then 2 ^ 19 else if size = 1 then 2 ^ 25 else 2 ^ 31

def clsOf (c : Nat) : Cls := if c = 0 then .priv else if c = 1 then .shared else .coherent

/-- Why a physical address may not be used: none where it may (R18, R396, R402, R476). -/
def paFault (s : State) (pa : Nat) : Option (Nat × Nat) :=
  if paKind pa = 0 then
    if natBits pa 40 8 ≠ 0 then some (4, 2)
    else if ((findDie s (paDie pa)).map (·.lost)).getD false then some (0x0D, 3)
    else if !s.ready.getLsbD (3 + paDie pa) then some (4, 2)
    else none
  else if paKind pa ≤ 2 then none
  else some (4, 2)

/-- The outcome of a walk: a leaf, the address it was read at and its page; or a cause, a reason and the physical address
that the walk could not use. -/
inductive Walked where
  | leaf (e : BitVec 64) (pte base size : Nat)
  | fault (cause reason pa : Nat)
  deriving DecidableEq, Repr, Inhabited

/-- The levels of a page table (R395): level, lowest bit of the index, index bits, SIZE code of a leaf there. -/
def walkLevels : List (Nat × Nat × Nat × Nat) := [(0, 43, 13, 9), (1, 31, 12, 2), (2, 25, 6, 1), (3, 19, 6, 0)]

/-- A table entry that a walk consumes is uncorrectable (R205, R402). -/
def entryBad (s : State) (pte : Nat) : Bool := memBad s (sectorOf pte) 32

/-- A walk from a table down (R396). -/
def walkFrom (s : State) (va : Nat) : List (Nat × Nat × Nat × Nat) → Nat → Walked
  | [], _ => .fault 4 2 0
  | (level, lo, len, size) :: rest, table =>
    let pte := table + 8 * natBits va lo len
    let e := read64 s pte
    if entryBad s pte then .fault 0x0D 1 pte
    else if !pteV e then .fault 4 1 0
    else if pteLeaf e then
      if level = 0 ∨ pteSize e ≠ size ∨ pteKind e = 3 ∨ pteClass e = 3 ∨ bitsOf e 2 5 ≠ 0 then .fault 4 2 0
      else
        let bytes := pageBytes size
        let base := va - va % bytes
        if pteAlias e ≠ 0 then .leaf e pte base bytes
        else match paFault s (ptePa e) with
          | some (c, r) => .fault c r (ptePa e - ptePa e % bytes + va % bytes)
          | none => .leaf e pte base bytes
    else if level = 3 ∨ bitsOf e 52 12 ≠ 0 ∨ bitsOf e 2 7 ≠ 0 ∨ paKind (pteNext e) ≠ 0 then .fault 4 2 0
    else match paFault s (pteNext e) with
      | some (c, r) => .fault c r (pteNext e)
      | none => walkFrom s va rest (pteNext e)

/-- A walk in a tenant's table of a die (R395). It reads the tables as they stand (log 106); a root table in lost memory cannot
be read (R402). -/
def walk (s : State) (die tenant va : Nat) : Walked :=
  let trtb := ((findDie s die).map (·.trtb)).getD 0
  let root := trtb.toNat + 8 * tenant
  let e := read64 s root
  if paFault s root = some (0x0D, 3) then .fault 0x0D 3 root
  else if entryBad s root then .fault 0x0D 1 root
  else if !e.getLsbD 0 then .fault 4 1 0
  else if bitsOf e 1 15 ≠ 0 ∨ bitsOf e 52 12 ≠ 0 ∨ paKind (bitsOf e 16 36 * 2 ^ 16) ≠ 0 then .fault 4 2 0
  else match paFault s (bitsOf e 16 36 * 2 ^ 16) with
    | some (c, r) => .fault c r (bitsOf e 16 36 * 2 ^ 16)
    | none => walkFrom s va walkLevels (bitsOf e 16 36 * 2 ^ 16)

/-! ## Translation caches (R399) -/

def tlbHit (die tenant va : Nat) (x : Tlb) : Bool :=
  x.die == die && x.tenant == tenant && decide (x.va ≤ va ∧ va < x.va + x.size)

/-- The entry of a core's L1 TLB, or of the die's L2 TLB. -/
def tlbFind (s : State) (die core tenant va : Nat) : Option Tlb :=
  match s.tlb.find? fun x => tlbHit die tenant va x && x.core == some core with
  | some x => some x
  | none => s.tlb.find? fun x => tlbHit die tenant va x && x.core == none

/-- Put an entry into a TLB, the oldest of a full one making room: 128 entries a core, 16,384 a die (R399; log 10). -/
def tlbPut (s : State) (x : Tlb) : State :=
  let mine := fun (y : Tlb) => y.die == x.die && y.core == x.core
  let cap := if x.core.isSome then 128 else 16384
  let old := s.tlb.filter mine
  let drop := if cap ≤ old.length then old.getLast? else none
  { s with tlb := x :: s.tlb.filter fun y => some y != drop }

def granuleOf (va : Nat) : Nat := va / 2 ^ 19 * 2 ^ 19

/-! ## Access checks (R181, R185, R187, R214, R397) -/

/-- What an access does to its bytes. -/
inductive AKind where
  | load | store | atomic | exec | pref | discard
  deriving DecidableEq, Repr, Inhabited

/-- One thread's access as the instruction forms it: a required-zero bit of R213 may already have failed. -/
structure Want where
  thread : Nat
  ea     : BitVec 64
  n      : Nat
  badEa  : Bool := false
  /-- Misaligned by a rule of the form: a length (R219), a barrier object (R256). -/
  badLen : Bool := false
  deriving DecidableEq, Repr, Inhabited

/-- A thread's outcome: its pieces (first byte of the value, bytes, place); a failed step of R214 with cause and reason;
or a granule whose translation is not cached. -/
inductive Res where
  | ok (ps : List (Nat × Nat × Loc))
  | fail (step cause reason : Nat)
  | walk (granule : Nat)
  deriving DecidableEq, Repr, Inhabited

/-- The protection check of a leaf for an access (R397): owner, permission, alias, class. -/
def protect (fw : Bool) (tenant : Nat) (k : AKind) (e : BitVec 64) : Option (Nat × Nat) :=
  let owner := pteOwner e
  let allowed := match k with
    | .load | .pref => pteR e
    | .store | .discard => pteW e
    | .atomic => pteR e && pteW e
    | .exec => pteX e
  let sys := pteKind e ≠ 0
  if (owner = 0 ∧ !fw) ∨ (owner ≠ 0 ∧ owner ≠ tenant) then some (1, 2)
  else if !allowed then some (2, 1)
  else if pteAlias e ≠ 0 ∧ k ≠ .store then some (3, 5)
  else if pteAlias e = 0 ∧ sys ∧ pteClass e ≠ 2 then some (4, 3)
  else if pteAlias e = 0 ∧ k = .atomic ∧ !sys ∧ pteClass e = 1 then some (4, 3)
  else none

/-- Steps 4 and 5 of R214 for a global address of n bytes. -/
def resGlobal (s : State) (die core tenant : Nat) (fw : Bool) (k : AKind) (va part n : Nat) : Res :=
  match tlbFind s die core tenant va with
  | none => .walk (granuleOf va)
  | some x =>
    match (if pteAlias x.leaf = 0 then paFault s (ptePa x.leaf) else none) with
    | some (c, r) => .fail 4 c r
    | none =>
      match protect fw tenant k x.leaf with
      | some (i, r) => .fail (4 + i) 5 r
      | none =>
        let off := va - x.va
        if pteAlias x.leaf ≠ 0 then .ok [(part, n, .win (pteWin x.leaf) (pteRank x.leaf) off (pteAlias x.leaf))]
        else
          .ok [(part, n, .mem (ptePa x.leaf - ptePa x.leaf % x.size + off) (pteOwner x.leaf) (clsOf (pteClass x.leaf)) x.pte
            (ptePa x.leaf - ptePa x.leaf % x.size) x.size)]

/-- The global address behind an address of a thread: a stack word's own (R187). -/
def globalOf (t : Team) (spx thread : Nat) (ea : BitVec 64) : Nat :=
  let o := bitsOf ea 0 32
  if bitsOf ea 56 8 = 0x82 then (t.stkb.toNat + spx * 8 * t.stks.toNat + o / 4 * 32 + thread * 4 + o % 4) % 2 ^ 56
  else bitsOf ea 0 56

/-- Join the pieces of a wide stack access: the first failing piece decides. -/
def joinRes : List Res → Res
  | [] => .ok []
  | .ok ps :: r => match joinRes r with
    | .ok qs => .ok (ps ++ qs)
    | x => x
  | x :: _ => x

/-- The check of one thread's access (R214 steps 1 to 5). -/
def resolve (s : State) (t : Team) (spx : Nat) (k : AKind) (w : Want) : Res :=
  let tag := bitsOf w.ea 56 8
  let fw := t.fw
  let tenant := teamTenant s t
  let core := t.core
  if w.badEa then .fail 1 3 0
  else if tag = 0 then
    if bitsOf w.ea 0 56 % w.n ≠ 0 ∨ w.badLen then .fail 2 3 0
    else resGlobal s t.die core tenant fw k (bitsOf w.ea 0 56) 0 w.n
  else if tag = 0x80 then
    if bitsOf w.ea 19 37 ≠ 0 then .fail 1 3 0
    else if bitsOf w.ea 0 19 % w.n ≠ 0 ∨ w.badLen then .fail 2 3 0
    else if teamScratch s t < bitsOf w.ea 0 19 + w.n then .fail 3 5 4
    else .ok [(0, w.n, .scratch t.id (bitsOf w.ea 0 19))]
  else if tag = 0x81 then
    if bitsOf w.ea 21 35 ≠ 0 then .fail 1 3 0
    else if bitsOf w.ea 0 19 % w.n ≠ 0 ∨ w.badLen then .fail 2 3 0
    else if teamScratch s t < bitsOf w.ea 0 19 + w.n then .fail 3 5 4
    else
      match sibling s t (bitsOf w.ea 19 2) with
      | some x => .ok [(0, w.n, .scratch x.id (bitsOf w.ea 0 19))]
      | none => .fail 3 5 4
  else if tag = 0x82 then
    let o := bitsOf w.ea 0 32
    if bitsOf w.ea 32 24 ≠ 0 then .fail 1 3 0
    else if o % w.n ≠ 0 ∨ w.badLen then .fail 2 3 0
    else if t.stks.toNat < o + w.n then .fail 3 5 4
    else
      let ga := globalOf t spx w.thread w.ea
      if w.n ≤ 4 then resGlobal s t.die core tenant fw k ga 0 w.n
      else joinRes ((List.range (w.n / 4)).map fun i => resGlobal s t.die core tenant fw k (ga + 32 * i) (4 * i) 4)
  else .fail 1 3 0

/-- INFO of a trap on memory of a lost die (Table 14-3): the physical line, and the sector in bits [2:0]. -/
def lostInfo (s : State) (t : Team) (spx : Nat) (ea : BitVec 64) (tmask : BitVec 8) : BitVec 64 :=
  let va := globalOf t spx ((threadsOf tmask).headD 0) ea
  match tlbFind s t.die t.core (teamTenant s t) va with
  | none => 0
  | some x =>
    let pa := ptePa x.leaf - ptePa x.leaf % x.size + (va - x.va)
    BitVec.ofNat 64 (lineOf pa + pa % 256 / 32)

/-- The decision over all threads (R214): the checked accesses; the trap of the first failing step with its lowest
thread's address and the threads that fail it; or a granule to walk with its lowest thread's address and its threads. -/
inductive Checked where
  | ok (rs : List (Want × List (Nat × Nat × Loc)))
  | trap (cause reason : Nat) (ea : BitVec 64) (tmask : BitVec 8)
  | walk (granule : Nat) (ea : BitVec 64) (tmask : BitVec 8)
  deriving DecidableEq, Repr, Inhabited

def Res.step : Res → Nat
  | .ok _ => 99
  | .fail i _ _ => i
  | .walk _ => 4

/-- Does an outcome fail a step of R214? A translation that is not cached fails step 4 where its walk fails (R399). -/
def Res.fails (s : State) (t : Team) (step : Nat) : Res → Bool
  | .ok _ => false
  | .fail i _ _ => i == step
  | .walk g => step == 4 && (match Machine.walk s t.die (teamTenant s t) g with | .leaf _ _ _ _ => false | .fault _ _ _ => true)

def checkAll (s : State) (t : Team) (spx : Nat) (k : AKind) (ws : List Want) : Checked :=
  let rs := ws.map fun w => (w, resolve s t spx k w)
  let first := rs.foldl (fun m r => min m r.2.step) 99
  match rs.find? fun r => r.2.step == first with
  | some (w, .fail _ c r) => .trap c r w.ea (maskOf ((rs.filter fun x => x.2.fails s t first).map (·.1.thread)))
  | some (w, .walk g) => .walk g w.ea (maskOf ((rs.filter fun x => x.2 == .walk g || x.2.fails s t 4).map (·.1.thread)))
  | _ => .ok (rs.map fun r => (r.1, match r.2 with | .ok ps => ps | _ => []))

end Sys2Proof.Machine
end

