-- ==== Sys2Proof/Machine/Device.lean ====
section
/-! DEFINITION. Sys2Proof/Machine/Device.lean: memory accesses of the agents that are not cores (R332, R422, R433, R368):
the Lathe, the Caldera, a Geyser, a die and the I/O dies' DMA. An access walks the tables afresh, is checked under R397 at
the level of its tenant, and holds what line tokens a write needs within its step (log 8). -/

namespace Sys2Proof.Machine

open Sys2Proof

/-- The die whose tenant root table the agents of the Caldera walk: the lowest one that is up (log 30). -/
def rootDie (s : State) : Nat := ((List.range 8).find? (dieUp s)).getD 0

/-- A piece of a checked range: physical address, owner, class, leaf address, page, bytes. -/
structure DLoc where
  pa    : Nat
  owner : Nat
  cls   : Cls
  pte   : Nat
  base  : Nat
  size  : Nat
  len   : Nat
  deriving DecidableEq, Repr, Inhabited

/-- One piece that lies within a 512 KiB granule: its place, or the cause and reason of the trap a core would take. -/
def devPiece (s : State) (die tenant : Nat) (k : AKind) (va n : Nat) : Except (Nat × Nat) DLoc :=
  if 2 ^ 56 < va + n then .error (3, 0)
  else
    match walk s die tenant va with
    | .fault c r _ => .error (c, r)
    | .leaf e pte base size =>
      match protect (decide (tenant = 0)) tenant k e with
      | some (_, r) => .error (5, r)
      | none =>
        if pteAlias e ≠ 0 then .error (5, 5)
        else
          let pbase := ptePa e - ptePa e % size
          .ok { pa := pbase + (va - base), owner := pteOwner e, cls := clsOf (pteClass e), pte := pte, base := pbase,
                size := size, len := n }

/-- A range cut at the multiples of `u` within it: address and length of each part. -/
def cutAt (u va n : Nat) : List (Nat × Nat) :=
  if n = 0 then []
  else (List.range ((va + n - 1) / u - va / u + 1)).map fun i =>
    let lo := max va ((va / u + i) * u)
    (lo, min (va + n) ((va / u + i + 1) * u) - lo)

/-- A range cut at the 512 KiB granules it touches. -/
def granules (va n : Nat) : List (Nat × Nat) := cutAt (2 ^ 19) va n

/-- Every piece of a list, or the first failure. -/
def allOk {ε α β : Type} (f : α → Except ε β) : List α → Except ε (List β)
  | [] => .ok []
  | x :: xs => match f x with
    | .error e => .error e
    | .ok y => match allOk f xs with
      | .error e => .error e
      | .ok ys => .ok (y :: ys)

/-- The places of a range of global addresses. -/
def devRange (s : State) (die tenant : Nat) (k : AKind) (va n : Nat) : Except (Nat × Nat) (List DLoc) :=
  allOk (fun g => devPiece s die tenant k g.1 g.2) (granules va n)

/-- The places of a range that must be of class coherent (R368): another class is refused as R397 would, with cause 5. -/
def devCoherent (s : State) (die tenant : Nat) (k : AKind) (va n : Nat) : Except (Nat × Nat) (List DLoc) :=
  match devRange s die tenant k va n with
  | .error e => .error e
  | .ok ps => if ps.all fun p => p.cls == .coherent then .ok ps else .error (5, 3)

/-- Bytes of checked places. -/
def devRead (s : State) (ps : List DLoc) : List Byte :=
  ps.flatMap fun p => if pageDiscarded s p.pte then List.replicate p.len 0 else memBytes s p.owner p.pa p.len

/-- Do any of the bytes have bad ECC, or lie in released CXL capacity (R205, R477)? -/
def devBad (s : State) (ps : List DLoc) : Bool := ps.any fun p => !pageDiscarded s p.pte && memBad s p.pa p.len

/-- Write bytes to checked places (R184, R195, R398). -/
def devPut (h : Holder) : List DLoc → List Byte → State → State
  | [], _, s => s
  | p :: ps, bs, s => devPut h ps (bs.drop p.len) (devWrite (zeroFill s p.owner p.pte p.base p.size) h p.owner p.pa (bs.take p.len))

/-- Read a range of a tenant; none where any byte fails its check. -/
def devGet (s : State) (die tenant va n : Nat) : Option (List Byte) :=
  match devRange s die tenant .load va n with
  | .ok ps => some (devRead s ps)
  | .error _ => none

/-- Write a range of a tenant; a range that fails its check is left alone. -/
def devSet (s : State) (h : Holder) (die tenant va : Nat) (bs : List Byte) : State :=
  match devRange s die tenant .store va bs.length with
  | .ok ps => devPut h ps bs s
  | .error _ => s

/-- The place of a barrier object: 64-byte aligned, of class coherent, readable and writable (R254, R256). -/
def devBo (s : State) (die tenant va : Nat) : Option DLoc :=
  if va % 64 ≠ 0 then none
  else
    match devPiece s die tenant .atomic va 64 with
    | .ok p => if p.cls = .coherent then some p else none
    | .error _ => none

/-- Update a barrier object under R255, where there is one. -/
def postBo (s : State) (h : Holder) (die tenant va inc status flags : Nat) (updater : Word) : State :=
  match devBo s die tenant va with
  | some p => boUpdate (zeroFill s p.owner p.pte p.base p.size) h p.owner p.pa inc status flags updater
  | none => s

/-- May every port that a checked range needs be used (R15, R479)? A range that fails its check needs none. -/
def devUp (s : State) (ps : List DLoc) : Bool := ps.all fun p => isHbm p.pa || sysUp s p.pa
def areaUp (s : State) (die tenant va n : Nat) : Bool :=
  match devRange s die tenant .store va n with
  | .ok ps => devUp s ps
  | .error _ => true

/-- A little-endian number in a list of bytes. -/
def fieldAt (bs : List Byte) (off n : Nat) : Nat := ofBytesNat ((bs.drop off).take n)

end Sys2Proof.Machine
end

