-- ==== Sys2Proof/Machine/Frame.lean ====
section
/-! DEFINITION. Sys2Proof/Machine/Frame.lean: spindle frames (R403, Table 14-5) and fault frames (R400, R404). -/

namespace Sys2Proof.Machine

open Sys2Proof

/-- Bytes of a spindle's frame (R403). -/
def frameSize (p : Spindle) : Nat := 1024 + 32 * p.allot

def zeros (n : Nat) : List Byte := List.replicate n 0

/-- Pad a list of bytes with zeros to a length. -/
def padTo (n : Nat) (bs : List Byte) : List Byte := bs.take n ++ zeros (n - bs.length)

/-- A spindle's fragments in frame order: its own first. -/
def frameFrags (p : Spindle) : List Frag := p.frags.filter (fun f => f.id == 0) ++ p.frags.filter (fun f => f.id != 0)

/-- The entry index of a join: the joins follow the fragments. -/
def joinLink (p : Spindle) : Option Nat → Byte
  | none => 0xFF
  | some j => match p.joins.findIdx? fun x => x.id == j with
    | some i => BitVec.ofNat 8 (p.frags.length + i)
    | none => 0xFF

/-- State code and sleep count of a fragment entry; a wait that the codes do not name is written as 0. -/
def fragCode : FragSt → Nat × Nat
  | .sleeping n => (1, n)
  | .atJoin => (2, 0)
  | .trapped => (3, 0)
  | _ => (0, 0)

def fragEntry (p : Spindle) (f : Frag) : List Byte :=
  let c := fragCode f.st
  toBytes f.pc 8 ++ [0, f.mask, 0, joinLink p f.join, BitVec.ofNat 8 c.1] ++ toBytes (BitVec.ofNat 24 c.2) 3

def joinEntry (p : Spindle) (j : JoinEnt) : List Byte :=
  toBytes j.addr 8 ++ [1, j.expected, j.arrived, joinLink p j.parent, 0, 0, 0, 0]

/-- The first 1,024 bytes of a frame, with FLAGS bit 1, W and the trap record. -/
def frameHeader (p : Spindle) (fault : Bool) (w : Nat) (rec : List Byte) : List Byte :=
  let entries := (frameFrags p).map (fragEntry p) ++ p.joins.map (joinEntry p)
  let flags := (if p.tlv then 1 else 0) + (if fault then 2 else 0) + w % 16 * 4
  toBytes p.entv 8 ++ toBytes (BitVec.ofNat 16 p.allot) 2 ++ [BitVec.ofNat 8 p.cls, BitVec.ofNat 8 p.role] ++
  toBytes (BitVec.ofNat 16 p.spx) 2 ++ [p.live, BitVec.ofNat 8 entries.length] ++ toBytes p.mode 4 ++
  toBytes (BitVec.ofNat 32 flags) 4 ++ (List.range 8).map (fun t => (mget p.nest t).setWidth 8) ++
  wordBytes (mgetList p.gen 0 8) ++ mgetList p.ctr 0 7 ++ [0] ++ toBytes p.epc 8 ++ toBytes p.enest 8 ++
  wordBytes (mgetList p.sav 0 4) ++ zeros 24 ++ padTo 64 rec ++
  (List.range 8).flatMap (fun t => toBytes (mget p.p t) 8) ++ wordBytes (mgetList p.s 0 64) ++
  padTo 240 entries.flatten ++ (List.range 32).map (fun i => BitVec.ofNat 8 (p.gmap.getD i 0xFF)) ++ zeros 240

/-- A whole frame. -/
def frameBytes (p : Spindle) (fault : Bool) (w : Nat) (rec : List Byte) : List Byte :=
  frameHeader p fault w rec ++ wordBytes (mgetList p.v 0 (8 * p.allot))

def word32At (bs : List Byte) (o : Nat) : Word := BitVec.ofNat 32 (fieldAt bs o 4)
def word64At (bs : List Byte) (o : Nat) : BitVec 64 := BitVec.ofNat 64 (fieldAt bs o 8)

/-- The registers that CTXLOAD restores (R414): MODE as it stands, generators, nesting counters, predicates, s and v registers,
class, entry vector, SAV. -/
def loadRegs (bs : List Byte) (p : Spindle) : Spindle :=
  { p with
    entv := word64At bs 0, cls := fieldAt bs 0x0A 1,
    mode := word32At bs 0x10 &&& 0x7FFFF,
    nest := msetList [] 0 ((List.range 8).map fun t => BitVec.ofNat 6 (fieldAt bs (0x18 + t) 1)),
    gen := msetList [] 0 ((List.range 8).map fun t => word32At bs (0x20 + 4 * t)),
    sav := msetList [] 0 ((List.range 4).map fun i => word32At bs (0x58 + 4 * i)),
    p := msetList [] 0 ((List.range 8).map fun t => BitVec.ofNat 48 (fieldAt bs (0xC0 + 8 * t) 6)),
    s := msetList [] 0 ((List.range 64).map fun i => word32At bs (0x100 + 4 * i)),
    v := msetList [] 0 (bytesWords ((bs.drop 0x400).take (32 * p.allot))) }

/-- The entries of a frame: fields by entry index. -/
def entryAt (bs : List Byte) (i : Nat) : List Byte := (bs.drop (0x200 + 16 * i)).take 16

/-- The fragments and joins that a frame's entries name; an entry keeps the number, and a wait that has no code, of the
one that stood there. -/
def loadEntries (bs : List Byte) (p : Spindle) : Spindle :=
  let n := min 15 (fieldAt bs 0x0F 1)
  let es := (List.range n).map fun i => (i, entryAt bs i)
  let oldF := frameFrags p
  let base := p.frags.length
  let topF := (p.frags.map (·.id)).foldl max 0
  let topJ := (p.joins.map (·.id)).foldl max 0
  let jid := fun (i : Nat) => ((p.joins[i - base]?).map (·.id)).getD (topJ + 1 + i)
  let link := fun (b : Nat) => if b < n ∧ fieldAt (entryAt bs b) 8 1 = 1 then some (jid b) else none
  let frag := fun (e : Nat × List Byte) =>
    let pc := word64At e.2 0
    let old := (oldF[e.1]?).getD { (default : Frag) with id := topF + 1 + e.1, onChip := true }
    let code := fieldAt e.2 12 1
    let st : FragSt := if code = 1 then .sleeping (fieldAt e.2 13 3) else if code = 2 then .atJoin
      else if code = 3 then .trapped else if (fragCode old.st).1 = 0 ∧ old.pc = pc then old.st else .ready
    { old with mask := BitVec.ofNat 8 (fieldAt e.2 9 1), pc := pc, join := link (fieldAt e.2 11 1), st := st,
               fetched := if old.pc = pc then old.fetched else none }
  let join := fun (e : Nat × List Byte) =>
    let old := p.joins.find? fun j => j.id == jid e.1
    { id := jid e.1, addr := word64At e.2 0, expected := BitVec.ofNat 8 (fieldAt e.2 9 1),
      arrived := BitVec.ofNat 8 (fieldAt e.2 10 1), parent := link (fieldAt e.2 11 1),
      own := (old.map (·.own)).getD 0, onChip := (old.map (·.onChip)).getD true, used := (old.map (·.used)).getD 0, since := (old.map (·.since)).getD 0 : JoinEnt }
  { p with frags := (es.filter fun e => fieldAt e.2 8 1 != 1).map frag, joins := (es.filter fun e => fieldAt e.2 8 1 == 1).map join }

/-- A whole frame: also LIVE, EPC, ENEST, the entries and TLV, with W and the trap record of a trap being handled. In a
fault frame these two belong to the fault, and the spindle keeps its own. -/
def loadFrame (bs : List Byte) (p : Spindle) : Spindle :=
  let p := loadEntries bs (loadRegs bs p)
  let flags := word32At bs 0x14
  let w := bitsOf flags 2 4
  let p := { p with live := BitVec.ofNat 8 (fieldAt bs 0x0E 1), epc := word64At bs 0x48, enest := word64At bs 0x50,
                    tlv := flags.getLsbD 0 }
  if flags.getLsbD 1 then p
  else { p with epcW := w, trec := msetList [] 0 ((bs.drop 0x80).take 64) }

/-! ## Fault frames (R400, R404) -/

/-- The spindles of a team of a launch. -/
def Grid.spindles (g : Grid) : Nat := (g.roles.map (·.spt)).sum

/-- Linear index of a team (R404). -/
def Team.lin (t : Team) (g : Grid) : Nat := (t.vcy - g.y0) * g.w + (t.vcx - g.x0)

/-- Address of a spindle's fault frame. -/
def faultFrame (g : Grid) (t : Team) (spx : Nat) : Nat :=
  (g.ffb.toNat + t.lin g * 25600 * g.spindles + 25600 * spx) % 2 ^ 64

/-- The record of the fault that a parked spindle waits on. -/
def parkRec (p : Spindle) : Option (Nat × TrapRec) := p.traps.find? fun e => e.2.cause == 4

/-- Is nothing pending in a spindle that its frame would miss (R237): no access, and no instruction with a result to write? -/
def frameReady (p : Spindle) : Bool :=
  (List.range 7).all (fun c => mget p.ctr c == 0) && p.pend.all fun x => x.complete && x.accs.isEmpty

/-- The rest of a park: the frame is written and the row groups are free, once the spindle's other accesses are done. A frame
whose own pages are not mapped, or are not reached yet, is not written yet (R15, R404); a firmware team has no launch record and so no frame. -/
def finishPark (s : State) (sp : SpRef) : State :=
  match findTeam s sp.team, findSp s sp with
  | some t, some p =>
    match findGrid s t.grid with
    | none => s
    | some g =>
      if !frameReady p then s
      else
      let r := parkRec p
      let bs := frameBytes p true ((r.map fun e => e.2.info0.toNat % 16).getD 0) ((r.map fun e => recBytes e.2).getD [])
      match devRange s t.die g.tenant .store (faultFrame g t p.spx) bs.length with
      | .error _ => s
      | .ok ps => if devUp s ps then updSp (devPut (.l2 t.die) ps bs s) sp fun p => { p with gmap := [] } else s
  | _, _ => s

end Sys2Proof.Machine
end

