-- ==== Sys2Proof/Machine/Issue.lean ====
section
/-! DEFINITION. Sys2Proof/Machine/Issue.lean: the issue of one Jolisol instruction: readiness (R81), the lookahead rules
(R55-R57), the checks of Table 2-9 steps 4 to 7 and of R64, source operands and stream pops (R47-R49, R208), and what
every issue does to its fragment. -/

namespace Sys2Proof.Machine

open Sys2Proof

/-- How a form issues: it never traps for a hazard and waits for its fragment's long-latency instructions (R57), or for
the spindle's (R156); it reaches memory, waits on memory or starts an engine (R231); it is a whole-spindle form (1: all
eight threads take part, R285; 2: every live thread of the spindle, R249); it is reserved to firmware (R385). -/
structure IssCls where
  serial : Bool := false
  modeSerial : Bool := false
  memory : Bool := false
  whole  : Nat := 0
  priv   : Bool := false
  deriving DecidableEq, Repr, Inhabited

/-- An instruction that has passed every check: the state, its fragment, word and form, the active threads, the threads
that take part, and the groups that its load streams supply (port, eight elements). -/
structure Iss where
  s    : State
  r    : FragRef
  word : IWord
  w    : JWord
  sp   : JSpec
  t    : Team
  p    : Spindle
  f    : Frag
  act  : BitVec 8
  tp   : BitVec 8
  pops : List (Nat × List Word)

/-! ## Threads -/

/-- Active threads: live, in the fragment's mask, with a nesting counter of zero (R87). -/
def activeOf (p : Spindle) (f : Frag) : BitVec 8 :=
  maskOf ((threadsOf (f.mask &&& p.live)).filter fun t => mget p.nest t == 0)

/-- Does the guard hold for a thread (R53)? A reserved guard holds for none. -/
def guardHolds (p : Spindle) (w : JWord) (t : Nat) : Bool :=
  let n := w.grd.toNat
  if n < 48 then (pget p n t) != w.gneg else n == 63 && !w.gneg

/-- The threads that take part (R53); of a uniform instruction, the active threads when the guard holds for the lowest
of them (R54). -/
def takingPart (p : Spindle) (f : Frag) (w : JWord) : BitVec 8 :=
  let a := activeOf p f
  if w.uni then
    match (threadsOf a).head? with
    | some t => if guardHolds p w t then a else 0
    | none => 0
  else maskOf ((threadsOf a).filter (guardHolds p w))

/-! ## Readiness -/

/-- Is a team's cluster resident and stopped neither for a swap nor for an abort (R35, R81, R442)? A firmware core's team
always is. -/
def teamIssues (s : State) (t : Team) : Bool :=
  t.st == .resident && (t.fw || !stopPending s t)

/-- A fragment's own entry, and that of its join, are on chip (R95). -/
def entriesOnChip (p : Spindle) (f : Frag) : Bool :=
  f.onChip && (match f.join with
    | none => true
    | some j => p.joins.any fun x => x.id == j && x.onChip)

/-- The join address a fragment would stop at (R94). -/
def joinAddr (p : Spindle) (f : Frag) : Option (BitVec 64) :=
  f.join.bind fun j => (p.joins.find? fun x => x.id == j).map (·.addr)

/-- May a fragment issue now, the lookahead rules apart (R81, R94, R98, R99)? -/
def fragReady (s : State) (t : Team) (p : Spindle) (f : Frag) : Bool :=
  teamIssues s t && p.st == .running && !p.retired && f.st == .ready && entriesOnChip p f &&
  (!p.tlv || f.id == p.hfrag) && (if p.halted then p.stepFrag == some f.id else true) &&
  joinAddr p f != some f.pc && f.mask &&& p.live != 0

/-- The long-latency instructions of a fragment that are not complete. -/
def openPend (p : Spindle) (f : Frag) : List Pend := p.pend.filter fun x => x.frag == f.id && !x.complete

/-- The class of a word, as its meaning issues it: the classes of R57, GETMODE and SETMODE (R156), and the forms that reach
memory, wait on memory or start an engine (R231). -/
def wordCls (word : IWord) : IssCls :=
  let m := jMaj word
  { serial := decide (m ≤ 0x09) || m == 0x6B || m == 0x73 || m == 0x75 || m == 0x76 || decide (0xA0 ≤ m ∧ m ≤ 0xA9),
    modeSerial := m == 0x3E,
    memory := decide (0x60 ≤ m ∧ m < 0xA0) && !(m == 0x69 && (jUnpack word).min == 1) }

/-- The lookahead rules let the next instruction issue (R55, R57, R156, R231). -/
def windowLets (p : Spindle) (f : Frag) (k : IssCls) : Bool :=
  let o := openPend p f
  if k.modeSerial then p.pend.all (·.complete)
  else if k.serial then o.isEmpty
  else o.all (fun x => 0 < x.left) && !(k.memory && o.any fun x => x.acq.isSome)

/-! ## Checks -/

/-- The scale registers of an MMA by the LAC of its B descriptor, as the s registers hold it (R281). -/
def nscOf (p : Spindle) : Instr → Nat
  | .mma w =>
    match opnd w.b with
    | .s r => let lac := bitsOf (sget p (r + 3)) 6 2; if lac = 0 ∨ lac = 3 then 16 else 8
    | _ => 16
  | _ => 16

/-- Step 4: some v register lies at or above the allotment (R52). -/
def beyondAllot (p : Spindle) (rs : List RegId) : Bool :=
  rs.any fun r => match r with | .v n => decide (p.allot ≤ n) | _ => false

/-- Step 5: the instruction reads what a pending one writes, or writes what one reads or writes (R56). -/
def hazard (p : Spindle) (f : Frag) (rd wr : List RegId) : Bool :=
  (openPend p f).any fun x => rd.any (x.wr.contains ·) || wr.any (fun r => x.wr.contains r || x.rd.contains r)

/-- Queue ports an instruction names: as a source, and as its destination. -/
def popPorts (w : JWord) (sp : JSpec) : List Nat :=
  ((jFields w sp).tail.filterMap fun f => match f.2, opnd f.1 with
    | .op _ _ _, .load q => some q
    | _, _ => none).dedup
def pushPort (w : JWord) (sp : JSpec) : Option Nat :=
  match sp.d, opnd w.d with
  | .op _ _ _, .storeQ q => some q
  | _, _ => none

/-- The displacements that an instruction carries, and whether one is no multiple of 4 (R64). -/
def badDisp : Instr → Bool
  | .bra w | .call w | .ifI w | .elseI w | .loopI w | .breakI w | .contI w | .endloop w => bitsOf w.mod 0 2 != 0
  | .brd w => bitsOf w.mod 0 2 != 0 || bitsOf w.b 0 2 != 0
  | _ => false

/-- A form that pops or pushes accesses memory, and QCFG starts or ends that (R231). -/
def IssCls.named (k : IssCls) (w : JWord) (sp : JSpec) : IssCls :=
  { k with memory := k.memory || !(popPorts w sp).isEmpty || (pushPort w sp).isSome }

/-! ## Streams (R206-R210) -/

def Team.port (t : Team) (q : Nat) : Option Port := t.ports[q]?
def Port.total (q : Port) : Nat := q.n0 * q.n1 * q.n2
def setPort (t : Team) (q : Nat) (f : Port → Port) : Team :=
  { t with ports := t.ports.mapIdx fun i x => if i = q then f x else x }

/-- Address of an element (R207). -/
def Port.addr (q : Port) (e : Nat) : BitVec 64 :=
  let i0 := e % q.n0
  let i1 := e / q.n0 % q.n1
  let i2 := e / (q.n0 * q.n1)
  q.base + BitVec.ofInt 64 (i0 * q.d0 + i1 * q.d1 + i2 * q.d2)

/-- Does an element's address leave the aperture of the base, or its page (R207)? -/
def Port.badElem (q : Port) (e : Nat) : Bool := bitsOf (q.addr e) 56 8 != bitsOf q.base 56 8

/-- The threads' accesses of the group at a position. -/
def Port.wants (q : Port) (g : Nat) : List Want :=
  (List.range 8).map fun t => { thread := t, ea := q.addr (8 * g + t), n := q.w, badEa := q.badElem (8 * g + t) }

/-- What a pop of one port finds: a group; the end of the stream; a bad element; a deferred fault; nothing yet. -/
inductive Pop where
  | group (xs : List Word)
  | ended | bad (ea : BitVec 64) | deferred | notYet
  deriving DecidableEq, Repr, Inhabited

def Port.pop (q : Port) : Pop :=
  if q.total ≤ 8 * q.pos then .ended
  else
    match (q.wants q.pos).find? (·.badEa) with
    | some x => .bad x.ea
    | none =>
      match q.fetched with
      | [] => .notYet
      | g :: _ => if g.any (·.2) then .deferred else .group (g.map (·.1))

/-- Elements that may wait in a port: 1 KiB (R208, R209). -/
def Port.full (q : Port) : Bool := decide (1024 < (q.pushed.length + 1) * 8 * q.w)

/-! ## Traps and stalls at issue -/

/-- W of a record while a faulting instruction executes again behind its window (R58). -/
def replayW (f : Frag) : Nat := match f.replay with
  | some a => (a - f.pc).toNat / 12 - 1
  | none => 0

/-- Take a trap at the fragment's instruction. -/
def trapAt (s : State) (r : FragRef) (t : Team) (p : Spindle) (f : Frag) (word : IWord) (c : Cond) : Out :=
  let info := if c.cause = 0x0D ∧ c.reason = 3 ∧ c.info = 0 then lostInfo s t p.spx c.addr c.tmask else c.info
  .next (raiseTrap s r.sp r.frag (mkRec s t p.spx f.mask f.pc word { c with w := c.w + replayW f, info := info }))

def Iss.trap (x : Iss) (c : Cond) : Out := trapAt x.s x.r x.t x.p x.f x.word c
/-- A trap of the threads taking part. -/
def Iss.trapT (x : Iss) (cause reason : Nat) : Out := x.trap { cause := cause, reason := reason, tmask := x.tp }

/-- The fragment waits: a stall counted under a statistic, 0 for none (R204, R210, R223). -/
def stallAt (s : State) (r : FragRef) (n : Nat) : State := updFrag s r fun f => { f with stall := some n }

/-- A spindle parks on a granule (R400): its record is kept, its frame written. -/
def parkSpindle (s : State) (sp : SpRef) (frag granule : Nat) (rec : TrapRec) : State :=
  let s := updSp s sp fun p =>
    let p := noLatch { p with st := .parked granule false false, stats := mset p.stats 0x45 (mget p.stats 0x45 + 1),
                              traps := p.traps ++ [(frag, rec)], stepFrag := none }
    p.updFrag frag fun f => { f with st := .ready, stall := none }
  finishPark s sp

/-- Does the die's fault-merge table hold an entry for a granule (R399)? -/
def mergeOpen (s : State) (die tenant granule : Nat) : Bool :=
  ((findDie s die).map fun d => d.merges.any fun m => m.tenant == tenant && m.granule == granule).getD false

/-- Does a granule lie in the page that a walk of another finds (R399)? -/
def samePage (s : State) (die tenant g h : Nat) : Bool :=
  match walk s die tenant h with
  | .leaf _ _ base size => decide (base ≤ g ∧ g < base + size)
  | .fault _ _ _ => g == h

/-- A translation is missing: a walk starts, or the walk of the same page is joined (R399), and the fragment waits for it. -/
def needWalk (s : State) (r : FragRef) (t : Team) (g : Nat) (ea : BitVec 64) (m : BitVec 8) : State :=
  let ten := teamTenant s t
  let s := updDie s t.die fun d =>
    if d.walks.any fun e => e.1 == ten && samePage s t.die ten g e.2 then d else { d with walks := d.walks ++ [(ten, g)] }
  updFrag s r fun f => { f with st := .walking g ea m }

def Iss.needWalk (x : Iss) (g : Nat) (ea : BitVec 64) (m : BitVec 8) : Out :=
  .next (Machine.needWalk x.s x.r x.t g ea m)

/-! ## The prologue -/

/-- What the prologue of an issue decides. -/
inductive Pro where
  /-- Not an issue of a fragment. -/
  | none
  /-- Not issued: the state as it is, or with the fragment marked stalled or trapped. -/
  | out (s : State)
  | go (x : Iss)

/-- Threads for which a whole-spindle form is partial (step 6). -/
def partialMask (p : Spindle) (f : Frag) (tp : BitVec 8) (whole : Nat) : Bool :=
  (whole == 1 && tp != 0xFF) || (whole == 2 && !(f.mask &&& p.live == p.live && tp == p.live))

/-- Pops of the named ports: the groups, or why there are none. -/
def popAll (t : Team) : List Nat → Except (Nat × Pop) (List (Nat × List Word))
  | [] => .ok []
  | q :: qs =>
    match t.port q with
    | none => .error (q, .ended)
    | some x =>
      match x.pop with
      | .group g => (popAll t qs).map ((q, g) :: ·)
      | e => .error (q, e)

/-- A trap's outcome as a prologue outcome. -/
def Pro.ofOut : Out → Pro
  | .next s => .out s
  | _ => .none

/-- The first check of Table 2-9's steps 4 to 7 and of R64 that an instruction fails: its condition (R70). -/
def Iss.check (x : Iss) (i : Instr) (k : IssCls) : Option Cond :=
  let rd := jReads x.w x.sp
  let wr := jWrites x.w x.sp
  let trap := fun (c rs : Nat) => some ({ cause := c, reason := rs, tmask := x.tp } : Cond)
  if beyondAllot x.p (rd ++ wr) then trap 0x11 0
  else if !k.serial && !k.modeSerial && hazard x.p x.f rd wr then trap 0x06 0
  else if k.priv && !x.t.fw && x.tp != 0 then trap 0x05 7
  else if partialMask x.p x.f x.tp k.whole then trap 0x07 0
  else if x.tp != 0 && (popPorts x.w x.sp ++ (pushPort x.w x.sp).toList).any (fun q => ((x.t.port q).map (·.bound)).getD none != some x.p.spx) then
    trap 0x08 1
  else if badDisp i then
    some { cause := 3, tmask := x.tp, addr := x.f.pc + (if bitsOf x.w.mod 0 2 ≠ 0 then jDisp x.w else jJoin x.w) }
  else none

/-- Is what a load of n bytes at a place consumes uncorrectable: in the scratchpad, in the core's L1 where that holds it, or in
memory (R205)? A discarded page reads as zeros (R184). -/
def locBad (s : State) (t : Team) (loc : Loc) (n : Nat) : Bool :=
  match loc with
  | .scratch tm off => ((findTeam s tm).map fun u => u.badScratch.any fun z => decide (z < off + n ∧ off < z + 32)).getD false
  | .mem pa owner cls pte _ _ =>
    !pageDiscarded s pte &&
    (match (if cls = .coherent ∨ !isHbm pa then none
        else s.l1.find? fun x => x.die == t.die && x.core == t.core && x.sec == sectorOf pa && x.owner == owner) with
      | some x => x.bad
      | none => memBad s (if isHbm pa then sectorOf pa else pa) (if isHbm pa then 32 else n))
  | .win _ _ _ _ => false

/-- INFO of a pop that meets bad data (Table 14-3): the physical line with the sector in bits [2:0]. -/
def badPop (ps : List (Nat × Nat × Loc)) : BitVec 64 :=
  match ps with
  | (_, _, .mem pa _ _ _ _ _) :: _ => BitVec.ofNat 64 (lineOf pa + pa % 256 / 32)
  | (_, _, .scratch _ off) :: _ => BitVec.ofNat 64 (off % 256 / 32)
  | _ => 0

/-- What a group that is not there comes to: the end of the stream, a bad element, the trap of a deferred fault as its
addresses now stand, or a stall (R208, R210). DESIGN CHOICE: a pop needs all eight elements of its group, also those at
positions of threads that do not take part (log 90). -/
def Iss.popStop (x : Iss) : Nat × Pop → Pro
  | (_, .ended) => Pro.ofOut (x.trapT 0x08 2)
  | (_, .bad ea) => Pro.ofOut (x.trap { cause := 3, tmask := x.tp, addr := ea })
  | (q, .deferred) =>
    match x.t.port q with
    | none => .none
    | some y =>
      match checkAll x.s x.t x.p.spx .load (y.wants y.pos) with
      | .trap c rs ea m => Pro.ofOut (x.trap { cause := c, reason := rs, tmask := m, addr := ea })
      | .walk g ea m => Pro.ofOut (x.needWalk g ea m)
      | .ok rs =>
        let bad := rs.filter fun a => a.2.any fun b => locBad x.s x.t b.2.2 b.2.1
        match bad with
        | a :: _ => Pro.ofOut (x.trap { cause := 0x0D, reason := 1, tmask := maskOf (bad.map (·.1.thread)), addr := a.1.ea, info := badPop a.2 })
        | [] => .out (updTeam (stallAt x.s x.r 0x41) x.t.id fun t => setPort t q fun y => { y with fetched := [] })
  | (_, _) => .out (stallAt x.s x.r 0x41)

/-- What an issue of a fragment finds, before its checks: the active threads and those that take part. -/
def issOf (s : State) (r : FragRef) (word : IWord) (w : JWord) (sp : JSpec) (t : Team) (p : Spindle) (f : Frag) : Iss :=
  { s := s, r := r, word := word, w := w, sp := sp, t := t, p := p, f := f, act := activeOf p f, tp := takingPart p f w, pops := [] }

/-- From a fragment that may issue to an instruction that may act: the first failing check decides (R70). -/
def Iss.begin (x : Iss) (i : Instr) (k : IssCls) : Pro :=
  match x.check i k with
  | some c => Pro.ofOut (x.trap c)
  | none =>
    if x.tp = 0 then .go x
    else match popAll x.t (popPorts x.w x.sp) with
      | .ok gs => .go { x with pops := gs }
      | .error e => x.popStop e

/-- From the acting fragment to an instruction that may act: not yet, where it is not ready or its windows do not let it. -/
def prologue (i : Instr) (k : IssCls) (s : State) : Pro :=
  match s.cur with
  | .frag r word =>
    match findTeam s r.sp.team, findSp s r.sp, findFrag s r with
    | some t, some p, some f =>
      match jspec (nscOf p i) i with
      | none => .none
      | some (w, sp) =>
        if fragReady s t p f && windowLets p f (k.named w sp) then (issOf s r word w sp t p f).begin i k else .out s
    | _, _, _ => .none
  | _ => .none

/-- The issue of one instruction: its prologue, then what the form does. -/
def issue (i : Instr) (k : IssCls) (s : State) (body : Iss → Out) : Out :=
  match prologue i k s with
  | .none => .fault .noFragment
  | .out s' => .next s'
  | .go x => body x

/-! ## Source operands -/

/-- The 32-bit immediate at 64 bits (R48). -/
def immVal (w : JWord) (sgn : Bool) : BitVec 128 :=
  if sgn then ((w.mod.signExtend 64).setWidth 128) else w.mod.setWidth 128

/-- The value that a source field of `n` registers supplies to a thread (Table 2-2, R48). DESIGN CHOICE: a load stream in
the place of a 64-bit integer source supplies its element zero-extended (log 91). -/
def Iss.src (x : Iss) (fld : BitVec 10) (n : Nat) (sgn : Bool) (t : Nat) : BitVec 128 :=
  match opnd fld with
  | .v r => vgetN x.p r n t
  | .s r => sgetN x.p r n
  | .load q =>
    match x.pops.find? fun e => e.1 == q with
    | some (_, g) => (g.getD t 0).setWidth 128
    | none => 0
  | .tix => BitVec.ofNat 128 t
  | .imm => if n = 1 then w32 x.w else immVal x.w sgn
  | _ => 0
where
  w32 (w : JWord) : BitVec 128 := w.mod.setWidth 128

/-- A 32-bit source. -/
def Iss.src1 (x : Iss) (fld : BitVec 10) (t : Nat) : Word := (x.src fld 1 false t).setWidth 32
/-- A 64-bit source. -/
def Iss.src2 (x : Iss) (fld : BitVec 10) (t : Nat) : BitVec 64 := (x.src fld 2 false t).setWidth 64

/-- The threads for which results are computed: those taking part, or once for a uniform instruction (R54). DESIGN CHOICE:
that once is in the lowest active thread, whose stack a uniform access of a stack address uses (log 92). -/
def Iss.threads (x : Iss) : List Nat :=
  if x.w.uni then (threadsOf x.tp).take 1 else threadsOf x.tp

/-! ## What every issue does -/

/-- Latches after an issue (R59, R60): a hold bit keeps a v operand, a clear one releases the latch it is served from. -/
def latchStep (l : Option (Nat × Nat)) (hold : Bool) (fld : BitVec 10) (n : Nat) : Option (Nat × Nat) :=
  match opnd fld with
  | .v r => if n = 0 then l else if hold then some (r, n) else if (l.map (·.1)) = some r then none else l
  | _ => l

/-- The registers that a lane form's operand field names, 0 for none. An MMA's A block is held in the chuck (R61). -/
def heldRegs (block : Bool) : Fld → Nat
  | .op _ n _ => if block then 0 else n
  | _ => 0

/-- The hold on the chuck after an MMA (R61, R292): a hold bit keeps the A block and its scales, a clear one releases them. -/
def blockStep (l : Option (Nat × Nat × Nat)) (hold : Bool) (w : JWord) (sp : JSpec) : Option (Nat × Nat × Nat) :=
  if hold then
    match opnd w.a, sp.c, opnd (jC17 w) with
    | .v r, .op _ n _, .v c => some (r, c, n)
    | .v r, _, _ => some (r, 0, 0)
    | _, _, _ => l
  else none

/-- The windows of a fragment after one more of its instructions has issued (R55, R58): a window counts the instructions that
its LA lets issue, be its own complete before it faults (log 40). -/
def windowStep (p : Spindle) (frag : Nat) : Spindle :=
  let f := fun (y : Pend) => if y.frag == frag && (!y.complete || 0 < y.left) then { y with left := y.left - 1, w := y.w + 1 } else y
  { p with pend := p.pend.map f }

/-- The windows after an issue: an instruction that executes again behind a fault has been counted (R58); one that waits for
its fragment's windows to be complete ends them (R57). -/
def Iss.windows (x : Iss) (p : Spindle) : Spindle :=
  if x.f.replay.isSome then p
  else if (wordCls x.word).serial then endWindows p x.r.frag
  else windowStep p x.r.frag

/-- The fragment after an issue: the program counter moves, its word is used up, its ready time restarts (R46, R82). -/
def fragStep (turn : Nat) (pc : BitVec 64) (f : Frag) : Frag :=
  { f with pc := f.replay.getD pc, fetched := none, replay := none, readyFor := 0, waited := 0, aged := false, stall := none,
           used := turn }

/-- Streams after a pop (R208): the group is consumed. -/
def popOne (t : Team) (e : Nat × List Word) : Team := setPort t e.1 fun q => { q with pos := q.pos + 1, fetched := q.fetched.tail }
def popStep (t : Team) (pops : List (Nat × List Word)) : Team := pops.foldl popOne t

/-- The next instruction's address. -/
def Iss.nextPc (x : Iss) : BitVec 64 := x.f.pc + 12

/-- The windows, latches and chuck of the issuing spindle, and its debugger's step, after an issue. An instruction in which no
thread takes part uses its issue slot and nothing else (R53). -/
def Iss.begun (x : Iss) (p : Spindle) : Spindle :=
  let mma := jMaj x.word == 0x88
  if x.tp = 0 then { x.windows p with stepFrag := none }
  else { x.windows p with
    latchA := latchStep p.latchA x.w.hlda x.w.a (heldRegs mma x.sp.a),
    latchB := latchStep p.latchB x.w.hldb x.w.b (heldRegs mma x.sp.b),
    held := if mma then blockStep p.held x.w.hlda x.w x.sp else p.held, stepFrag := none }

/-- Complete an issue: windows, latches, the form's own effect on its spindle, the program counter, and pops. -/
def Iss.commit (x : Iss) (pc : BitVec 64) (eff : Spindle → Spindle) : State :=
  updSp (updTeam x.s x.t.id fun t => popStep t x.pops) x.r.sp fun p =>
    (eff (x.begun p)).updFrag x.r.frag (fragStep x.s.turnNo pc)

/-- An instruction in which no thread takes part, or with an effect on its spindle alone. -/
def Iss.next (x : Iss) (eff : Spindle → Spindle) : Out := .next (x.commit x.nextPc eff)
def Iss.skip (x : Iss) : Out := x.next id

/-- The pending entry of a long-latency form at its issue; one that executes again keeps of its window what had not issued
(R58). -/
def Iss.pend (x : Iss) (id : Nat) (kind : PendKind) (complete : Bool) (acq rel : Option Nat) (paths : List Nat)
    (accs : List Acc) : Pend :=
  { id := id, frag := x.r.frag, pc := x.f.pc, word := x.word, kind := kind, tmask := x.tp, uni := x.w.uni,
    rd := jReads x.w x.sp, wr := jWrites x.w x.sp, left := x.w.la.toNat - replayW x.f, w := replayW x.f, complete := complete,
    acq := acq, rel := rel, paths := paths.map fun p => (p, false), accs := accs, got := [], fence := none, accepted := none }

/-- Add a pending entry, its counters raised (R203). -/
def addPend (x : Pend) (p : Spindle) : Spindle :=
  let q := x.paths.foldl (fun q e => raiseCtr q e.1) p
  { q with pend := q.pend ++ [x] }

/-- Does a counter at 63 stop the issue (R204)? -/
def Iss.ctrStops (x : Iss) (paths : List Nat) : Bool := paths.any fun c => decide (63 ≤ ctrOf x.p c)
def Iss.stall (x : Iss) (n : Nat) : Out := .next (stallAt x.s x.r n)

/-- Results of a lane form: per thread, the destination's registers, or a push of the group (R49, R209). -/
def Iss.writeAll (x : Iss) (n : Nat) (res : List (Nat × BitVec 128)) (p : Spindle) : Spindle :=
  res.foldl (fun p e => writeDst p x.w.d n e.1 e.2) p

/-- The counter path of an access (Table 7-10, R245): loads and atomics with a result, or stores and REDs; a store that reaches
a window raises col (R216). -/
def pathOf (ld : Bool) (loc : Loc) : Nat :=
  match loc with
  | .scratch _ _ => if ld then 2 else 3
  | .mem _ _ _ _ _ _ => if ld then 0 else 1
  | .win _ _ _ _ => 6

/-- The in-flight counters that accesses raise. -/
def pathsOf (ld : Bool) (accs : List Acc) : List Nat := (accs.map fun a => pathOf ld a.loc).dedup

/-- Conditions enter MODE.FLG (R147, Table 5-5). -/
def raiseFlags (fpc : BitVec 5) (p : Spindle) : Spindle := { p with mode := modeRaise p.mode fpc }

/-- The accesses of a pushed group: those threads' elements that have a value (R209). -/
def pushAccs (rs : List (Want × List (Nat × Nat × Loc))) (res : List (Nat × BitVec 128)) : List Acc :=
  rs.flatMap fun a => match res.find? fun e => e.1 == a.1.thread with
    | some e => a.2.map fun b => { thread := a.1.thread, ea := a.1.ea, n := b.2.1, part := b.1, loc := b.2.2, val := e.2, val2 := 0 }
    | none => []

/-- The push of a group to a store stream: its eight addresses are checked before it is accepted (R209, R210). Of a
long-latency form, its conditions enter MODE.FLG, and its sources are free, at its completion (R55, R147, R176). -/
def Iss.push (x : Iss) (q : Nat) (res : List (Nat × BitVec 128)) (eff : Spindle → Spindle) (fpc : BitVec 5) : Out :=
  match x.t.port q with
  | none => .fault .noFragment
  | some y =>
    if y.total ≤ 8 * y.pos then x.trapT 0x08 2
    else
      match checkAll x.s x.t x.p.spx .store (y.wants y.pos) with
      | .trap c r ea m => x.trap { cause := c, reason := r, tmask := m, addr := ea }
      | .walk g ea m => x.needWalk g ea m
      | .ok rs =>
        let accs := pushAccs rs res
        let paths := pathsOf false accs
        if y.full then x.stall 0x41
        else if x.ctrStops paths then x.stall 0x40
        else
          let (id, s) := fresh x.s
          let (id', s) := if x.sp.long then fresh s else (id, s)
          let x := { x with s := updTeam s x.t.id fun t => setPort t q fun y =>
            { y with pos := y.pos + 1, pushed := y.pushed ++ [(id, accs)] } }
          let form := fun (p : Spindle) =>
            if x.sp.long then addPend (x.pend id' (.compute fpc) false none none [] []) (eff p) else raiseFlags fpc (eff p)
          x.next fun p => addPend { x.pend id .store true none none paths accs with rd := [], wr := [] } (form p)

/-- A computing form: its results go to D, its flags to MODE.FLG at its completion, and `eff` does the rest; a long-latency
form stays incomplete (log 11). A pushed group is complete when it is accepted, the form that pushed it at its own time. -/
def Iss.compute (x : Iss) (n : Nat) (res : List (Nat × BitVec 128)) (eff : Spindle → Spindle) (fpc : BitVec 5 := 0) : Out :=
  match pushPort x.w x.sp with
  | some q => if x.tp = 0 then x.skip else x.push q res eff fpc
  | none =>
    if x.sp.long then
      let (id, s) := fresh x.s
      let x := { x with s := s }
      x.next fun p => addPend (x.pend id (.compute fpc) false none none [] []) (x.writeAll n res (eff p))
    else x.next fun p => x.writeAll n res (raiseFlags fpc (eff p))

/-! ## Addresses of the memory and atomic forms -/

/-- Address of LD, ST, PREF, DISCARD, CCTL (R213). -/
def wantPair (n : Nat) (x : Iss) (t : Nat) : Want := { thread := t, ea := x.src2 x.w.a t + jOffM x.w, n := n }

/-- Address of the scratchpad forms: an aperture tag over an offset of `bits` bits (R213). -/
def wantOff (tag bits n : Nat) (x : Iss) (t : Nat) : Want :=
  let o := x.src1 x.w.a t + (jOffM x.w).setWidth 32
  { thread := t, ea := BitVec.ofNat 64 (tag * 2 ^ 56 + o.toNat % 2 ^ bits), n := n, badEa := decide (2 ^ bits ≤ o.toNat) }

/-- Address of an atomic (R242). -/
def wantAtom (n : Nat) (x : Iss) (t : Nat) : Want := { thread := t, ea := x.src2 x.w.a t + jOffA x.w, n := n }

/-! ## Stalls (R81, R204, R210, R223) -/

/-- The count that a WAIT waits for (R223). -/
def Iss.waitCount (x : Iss) : Nat := if x.w.a = 0x348 then bitsOf x.w.mod 0 6 else (x.src1 x.w.a 0).toNat

/-- The counters that an instruction would raise, its threads' addresses formed as for its checks (R203, R204): none where one
of these fails. -/
def Iss.raises (x : Iss) : List Nat :=
  let m := jMaj x.word
  let at_ := fun (ld : Bool) (k : AKind) (want : Nat → Want) =>
    match checkAll x.s x.t x.p.spx k (x.threads.map want) with
    | .ok rs => (rs.flatMap fun r => r.2.map fun b => pathOf ld b.2.2).dedup
    | _ => []
  let n := widthBytes x.w.min.toNat
  match pushPort x.w x.sp with
  | some q => match x.t.port q with
    | some y => (match checkAll x.s x.t x.p.spx .store (y.wants y.pos) with
      | .ok rs => (rs.flatMap fun r => r.2.map fun b => pathOf false b.2.2).dedup
      | _ => [])
    | none => []
  | none =>
    if m = 0x60 then at_ true .load (wantPair n x)
    else if m = 0x61 then at_ false .store (wantPair n x)
    else if m = 0x62 then at_ true .load (wantOff 0x80 19 n x)
    else if m = 0x63 then at_ false .store (wantOff 0x80 19 n x)
    else if m = 0x64 then at_ true .load (wantOff 0x81 21 n x)
    else if m = 0x65 then at_ false .store (wantOff 0x81 21 n x)
    else if m = 0x67 ∨ m = 0x91 ∨ m = 0x92 ∨ (m = 0x68 ∧ x.w.min = 4) then [1]
    else if m = 0x68 then at_ false .pref (wantPair 1 x)
    else if m = 0x70 then at_ true .atomic (wantAtom (widthBytes (bitsOf x.w.min 0 3)) x)
    else if m = 0x71 then at_ true .atomic (wantAtom n x)
    else if m = 0x72 then at_ false .atomic (wantAtom (widthBytes (bitsOf x.w.min 0 3)) x)
    else if m = 0x74 ∧ x.w.min = 3 then [0]
    else if 0x80 ≤ m ∧ m ≤ 0x84 then [4]
    else if 0x88 ≤ m ∧ m ≤ 0x8B then [5]
    else if m = 0x98 ∨ m = 0x99 then [6]
    else []

/-- The stall that holds a fragment's next instruction as the state stands: a WAIT (0), a counter at 63 (0x40), a queue port with
no group or no room (0x41). -/
def heldStall (s : State) (t : Team) (p : Spindle) (f : Frag) : Option Nat :=
  match f.fetched with
  | none => none
  | some word =>
    match decodeJolisol word with
    | .error _ => none
    | .ok i =>
      match jspec (nscOf p i) i with
      | none => none
      | some (w, sp) =>
        let x := issOf s { sp := { team := t.id, spx := p.spx }, frag := f.id } word w sp t p f
        if x.tp = 0 then none
        else if jMaj word = 0x6B then (if x.waitCount < ctrOf p w.min.toNat then some 0 else none)
        else if (popPorts w sp).any (fun q => (t.port q).any fun y => y.bound == some p.spx && y.pop == .notYet) then some 0x41
        else if (pushPort w sp).any (fun q => (t.port q).any fun y => y.bound == some p.spx && y.full) then some 0x41
        else if x.ctrStops x.raises then some 0x40
        else none

/-- Is a fragment ready (R81), the dependences of R84 apart: fetched, held in no stall, let by its windows? -/
def mayStart (s : State) (t : Team) (p : Spindle) (f : Frag) : Bool :=
  fragReady s t p f && (match f.fetched with
    | some w => windowLets p f (wordCls w)
    | none => false) && (heldStall s t p f).isNone

end Sys2Proof.Machine
end

