-- ==== Sys2Proof/Machine/Coherence.lean ====
section
/-! DEFINITION. Sys2Proof/Machine/Coherence.lean: L1 states of coherent lines (R193, R194) and the line-token protocol
(R195-R200): requests, messages, attempts, persistent requests, evictions. Data has one home, `mem`: a holder's data is
what the latest write put there, and `valid` says whether it may use it. -/

namespace Sys2Proof.Machine

open Sys2Proof

/-! ## L1 states (Table 7-4) -/

def ofCore (die core : Nat) (x : L1Sec) : Bool := x.die == die && x.core == core

/-- A dirty sector reaches the L2, which it replaces whole (R191); one with bad ECC keeps it, and is recorded (R205). -/
def backSec (s : State) (x : L1Sec) : State :=
  let h := Holder.l2 x.die
  let s := passOn (writeMem (takeLine s h (lineOf x.sec)) x.owner x.sec x.data) h (lineOf x.sec)
  if x.bad then
    logError { s with badSec := (x.sec :: s.badSec).dedup } 1 x.die (physCore s x.die x.core) (BitVec.ofNat 32 (x.sec % 256 / 32))
      (BitVec.ofNat 64 (lineOf x.sec))
  else s

/-- Write dirty sectors that satisfy a test from L1s to the L2, keeping them clean (R191, R220; log 8). -/
def writeBack (s : State) (sel : L1Sec → Bool) : State :=
  let s := (s.l1.filter fun x => sel x && x.dirty).foldl backSec s
  { s with l1 := updWhere (fun x => sel x && x.dirty) (fun x => { x with dirty := false }) s.l1 }

/-- A core's L1 gives up a line (R191, R194): its private sectors are written back. -/
def l1Drop (s : State) (die core line : Nat) : State :=
  let here := fun (x : L1Sec) => ofCore die core x && lineOf x.sec == line
  let s := writeBack s here
  { s with l1 := s.l1.filter (fun x => !here x), l1c := s.l1c.filter (fun x => !(x.die == die && x.core == core && x.line == line)),
           l1Keep := s.l1Keep.filter fun e => !(e.1 == die && e.2.1 == core && e.2.2.1 == line) }

/-- An access by policy marks its line in the core's L1: evict first (1), evict last (3), or neither (R212, R218). -/
def l1Mark (s : State) (die core line policy : Nat) : State :=
  let rest := s.l1Keep.filter fun e => !(e.1 == die && e.2.1 == core && e.2.2.1 == line)
  { s with l1Keep := if policy = 1 ∨ policy = 3 then (die, core, line, policy == 3) :: rest else rest }

/-- Of a full L1's lines, those among which the one given up is: the lines to be evicted first, else those that are not to be
evicted last, else all. -/
def l1Victims (s : State) (die core : Nat) (ls : List Nat) : List Nat :=
  let first := ls.filter fun l => s.l1Keep.contains (die, core, l, false)
  let mid := ls.filter fun l => !s.l1Keep.contains (die, core, l, true)
  if !first.isEmpty then first else if !mid.isEmpty then mid else ls

/-- Lines that a core's L1 holds, and has room for: 320 KiB (R189). -/
def l1Lines (s : State) (die core : Nat) : List Nat :=
  ((s.l1.filter (ofCore die core)).map (fun x => lineOf x.sec) ++
    (s.l1c.filter fun x => x.die == die && x.core == core).map (·.line)).dedup
def l1Cap : Nat := 1280

/-- Room for one more line in a core's L1: which line of those that the policies put first a full one gives up is free (R212; log
99). -/
def l1Room (s : State) (die core line : Nat) : State :=
  let ls := l1Lines s die core
  if ls.length < l1Cap ∨ ls.contains line then s
  else
    let vs := l1Victims s die core ls
    l1Drop { s with freeNo := s.freeNo + 1 } die core (vs.getD (Config.freePick s.freeNo 0 % vs.length) 0)

/-- The bit of a sector in its line. -/
def secBit (pa : Nat) : BitVec 8 := BitVec.twoPow 8 (pa % 256 / 32)

/-- A core's L1 reads a sector of a coherent line that its die may read: the line enters in S, or in E where the die holds
all 16 line tokens and no other L1 of the die holds the line; an owner shares what it has. -/
def l1Read (s : State) (die core pa : Nat) : State :=
  let line := lineOf pa
  let here := fun (x : L1Line) => x.die == die && x.line == line
  if s.l1c.any fun x => here x && x.core == core then
    { s with l1c := updWhere (fun x => here x && x.core == core) (fun x => { x with valid := x.valid ||| secBit pa }) s.l1c }
  else
    let s := l1Room s die core line
    let others := s.l1c.any here
    let down := updWhere here (fun x => { x with st := match x.st with | .e => .s | .m => .o | y => y }) s.l1c
    let st := if mayWrite s (.l2 die) line && !others then Moesi.e else .s
    { s with l1c := { die := die, core := core, line := line, st := st, valid := secBit pa, dirty := 0 } :: down }

/-- A core's L1 writes a sector of a coherent line: every other copy of the die is invalidated, its own is in M. -/
def l1Write (s : State) (die core pa : Nat) : State :=
  let line := lineOf pa
  let s := l1Room s die core line
  let old := s.l1c.find? fun x => x.die == die && x.core == core && x.line == line
  { s with l1c := { die := die, core := core, line := line, st := .m, valid := (old.map (·.valid)).getD 0 ||| secBit pa,
                    dirty := (old.map (·.dirty)).getD 0 ||| secBit pa } ::
                  s.l1c.filter fun x => !(x.die == die && x.line == line) }

/-! ## Messages -/

def allHolders : List Holder := (List.range 8).map .l2 ++ [.dma 0, .dma 1, .abuf, .home]

def findMsg (s : State) (m : Nat) : Option MsgBody := (s.msgs.find? fun x => x.id == m).map (·.body)
def dropMsg (s : State) (m : Nat) : State := { s with msgs := s.msgs.filter fun x => x.id != m }

/-- Home die of a line (R195). -/
def homeDie (line : Nat) : Nat := paDie line

/-! ## Requests (R197, R198) -/

/-- Is a request satisfied (R197)? -/
def reqMet (s : State) (r : TokReq) : Bool := if r.write then mayWrite s r.h r.line else mayRead s r.h r.line

/-- A holder's own transient request that is not yet satisfied. -/
def ownRequest (s : State) (h : Holder) (line : Nat) : Bool :=
  s.reqs.any fun r => r.h == h && r.line == line && !r.persistent && !reqMet s r

/-- The broadcasts of an attempt. -/
def attempt (s : State) (h : Holder) (line : Nat) (write : Bool) : State :=
  send s ((allHolders.filter (· != h)).map fun d => if write then MsgBody.trx line h d else .trs line h d)

/-- A holder that needs a line makes its first attempt, unless it already asks for it. A request stands until the access
that needs it is performed, so that one whose tokens are taken again goes on to its PREQ (R198, R201; log 85); a read
request that is satisfied gives way to a write's. -/
def wantLine (s : State) (h : Holder) (line : Nat) (write : Bool) : State :=
  let mine := fun (r : TokReq) => r.h == h && r.line == line
  if (if write then mayWrite s h line else mayRead s h line) then s
  else if s.reqs.any fun r => mine r && (r.persistent || !reqMet s r) then s
  else
    let r : TokReq := { h := h, line := line, write := write, attempts := 1, age := 0, total := 0, persistent := false }
    let s := makeLineRoom s h line
    attempt { s with reqs := r :: s.reqs.filter fun r => !mine r } h line write

/-- Is a PDONE of an activation of a line on its way? -/
def doneSent (s : State) (line q : Nat) : Bool := s.msgs.any fun m => m.body == .pdone line q

/-- The activation in force for a holder's persistent request, whose PDONE it has not sent yet. -/
def activeSeq (s : State) (h : Holder) (line : Nat) : Option Nat :=
  (s.preqs.find? fun p => p.line == line && p.req == h && p.seq.any fun q => !doneSent s line q).bind (·.seq)

/-- A holder has performed the access it asked tokens for: a satisfied transient request ends, and one that is activated
sends PDONE (R199 step 4). -/
def served (s : State) (h : Holder) (line : Nat) : State :=
  match s.reqs.find? fun r => r.h == h && r.line == line && reqMet s r with
  | none => s
  | some r =>
    let drop := { s with reqs := s.reqs.filter fun x => !(x.h == h && x.line == line) }
    if r.persistent then
      match activeSeq s h line with
      | some q => send drop [.pdone line q]
      | none => s
    else drop

/-! ## Receiving -/

/-- The activation that a holder knows for a line: to whom its tokens go. -/
def actFor (s : State) (h : Holder) (line : Nat) : Option Holder :=
  (s.acts.find? fun a => a.1 == h && a.2.1 == line).map (·.2.2.1)

/-- A holder receives tokens: forwarded while an activation for another holder is in force, else kept (R197, R199). -/
def receiveTok (s : State) (h : Holder) (line n : Nat) (owner data : Bool) : State :=
  match actFor s h line with
  | some r =>
    if r ≠ h then send s [tokenMsg line r n owner owner]
    else keep s
  | none => keep s
where
  keep (s : State) : State :=
    let s := makeLineRoom s h line
    let old := (tokAt s h line).getD { line := line, h := h, n := 0, owner := false, valid := false }
    setTok s { old with n := old.n + n, owner := old.owner || owner, valid := old.valid || data }

/-- TRS (R197). -/
def execTrs (msg : Nat) (s : State) : Out :=
  match findMsg s msg with
  | some (.trs line req h) =>
    let s := dropMsg s msg
    let n := tokCount s h line
    if ownRequest s h line ∨ !tokOwner s h line then .next s
    else if 2 ≤ n then
      let s := l1Release s h line true
      let t : Tok := { line := line, h := h, n := n - 1, owner := true, valid := tokValid s h line }
      .next (send (setTok s t) [.tok line req 1 false true])
    else .next (sendAll s h req line)
  | _ => .next s

/-- TRX (R197). -/
def execTrx (msg : Nat) (s : State) : Out :=
  match findMsg s msg with
  | some (.trx line req h) =>
    let s := dropMsg s msg
    if ownRequest s h line then .next s else .next (sendAll s h req line)
  | _ => .next s

/-- TOK (R197, R199). -/
def execTok (msg : Nat) (s : State) : Out :=
  match findMsg s msg with
  | some (.tok line h n owner data) => .next (receiveTok (dropMsg s msg) h line n owner data)
  | _ => .next s

/-- WBK (R194, R195): the home keeps what comes back, or forwards it under an activation. -/
def execWbk (msg : Nat) (s : State) : Out :=
  match findMsg s msg with
  | some (.wbk line n owner data) => .next (receiveTok (dropMsg s msg) .home line n owner data)
  | _ => .next s

/-! ## Persistent requests (R199, R200) -/

/-- Activate the oldest entry of a line, if none is active. -/
def activate (s : State) (line : Nat) : State :=
  let d := homeDie line
  if s.preqs.any fun p => p.line == line && p.seq.isSome then s
  else
    match s.preqs.find? fun p => p.line == line with
    | none => s
    | some p =>
      let q := ((findDie s d).map (·.preqSeq)).getD 0 + 1
      let s := updDie s d fun x => { x with preqSeq := q }
      let mark := fun (y : PReq) => { y with seq := some q }
      let s := { s with preqs := updWhere (fun y => y.line == line && y.req == p.req) mark s.preqs }
      send s (allHolders.map fun h => .pact line p.req h q)

/-- PREQ (R199 steps 1 and 2). -/
def execPreq (msg : Nat) (s : State) : Out :=
  match findMsg s msg with
  | some (.preq line write req) =>
    let s := dropMsg s msg
    let e : PReq := { die := homeDie line, line := line, req := req, write := write, seq := none, order := s.nextId }
    .next (activate { s with preqs := s.preqs ++ [e] } line)
  | _ => .next s

/-- PACT (R199 steps 3 and 6). -/
def execPact (msg : Nat) (s : State) : Out :=
  match findMsg s msg with
  | some (.pact line req h q) =>
    let s := dropMsg s msg
    if s.deacts.contains (h, line, q) then .next { s with deacts := s.deacts.filter (· != (h, line, q)) }
    else
      let s := { s with acts := (h, line, req, q) :: s.acts }
      .next (if h = req then s else sendAll s h req line)
  | _ => .next s

/-- PDONE (R199 step 5). -/
def execPdone (msg : Nat) (s : State) : Out :=
  match findMsg s msg with
  | some (.pdone line q) =>
    let s := dropMsg s msg
    let s := { s with preqs := s.preqs.filter fun p => !(p.line == line && p.seq == some q) }
    .next (activate (send s (allHolders.map fun h => .pdeact h line q)) line)
  | _ => .next s

/-- PDEACT (R199 steps 5 and 6): one that comes before its PACT is remembered. -/
def execPdeact (msg : Nat) (s : State) : Out :=
  match findMsg s msg with
  | some (.pdeact h line q) =>
    let s := dropMsg s msg
    let mine := fun (a : Holder × Nat × Holder × Nat) => a.1 == h && a.2.1 == line && a.2.2.2 == q
    if s.acts.any mine then .next { s with acts := s.acts.filter fun a => !mine a }
    else .next { s with deacts := (h, line, q) :: s.deacts }
  | _ => .next s

/-- A holder's PREQs outstanding at a home die: on their way to it, or in its table, which an entry leaves when its PDONE
arrives (R199, R200). -/
def preqCount (s : State) (h : Holder) (die : Nat) : Nat :=
  (s.preqs.filter fun p => p.req == h && homeDie p.line == die).length +
  (s.msgs.filter fun m => match m.body with | .preq l _ r => r == h && homeDie l == die | _ => false).length

/-- TRANSIENT_ATTEMPT_TIMEOUT (R198): 500 ns (600 cycles) after an attempt, a new one, or, after four that failed or 2 µs, PREQ. A
request that is satisfied and that no access waits for any more is dropped, or completed if it is persistent. -/
def execTransientAttemptTimeout (h : Holder) (line : Nat) (s : State) : Out :=
  match s.reqs.find? fun r => r.h == h && r.line == line with
  | none => .next s
  | some r =>
    let put := fun (r : TokReq) => { s with reqs := updWhere (fun x => x.h == h && x.line == line) (fun _ => r) s.reqs }
    if r.persistent then .next (served s h line)
    else if reqMet s r then (if 600 ≤ r.age then .next (served s h line) else .next s)
    else if (4 ≤ r.attempts ∧ 600 ≤ r.age) ∨ 2400 ≤ r.total then
      if 4 ≤ preqCount s h (homeDie line) then .next s
      else .next (send (put { r with persistent := true }) [.preq line r.write h])
    else if 600 ≤ r.age then .next (attempt (put { r with attempts := r.attempts + 1, age := 0 }) h line r.write)
    else .next s

/-- L2_EVICTION (R194): the die's copies are invalidated and its line tokens go to the home. -/
def execL2Eviction (die line : Nat) (s : State) : Out := .next (evictLine s (.l2 die) line)

end Sys2Proof.Machine
end

