-- ==== Sys2Proof/Machine/Windows.lean ====
section
/-! DEFINITION. Sys2Proof/Machine/Windows.lean: alias windows: their stores, arrivals, failure and disarming (R330-R333,
R346, R358, R363), and how a Luanil context ends. -/

namespace Sys2Proof.Machine

open Sys2Proof

/-! ## Port units (R353, R356) -/

/-- Number of a port's unit. -/
def unitNo (port : Nat) : Nat := if port ≤ 10 then port else port - 5
/-- The port of a unit. -/
def portNo (unit : Nat) : Nat := if unit ≤ 10 then unit else unit + 5

/-- Does a port exist, and is what it leads to available (R353, R479)? -/
def portUp (s : State) (port : Nat) : Bool :=
  if port ≤ 7 then dieUp s port
  else if port ≤ 9 then s.ready.getLsbD (port + 3)
  else if port = 10 then s.ready.getLsbD 0
  else decide (16 ≤ port ∧ port ≤ 31) && s.ready.getLsbD 13

/-- CALD (R479). -/
def caldUp (s : State) : Bool := s.ready.getLsbD 2

/-! ## Lookups -/

def findWin (s : State) (w : Nat) : Option Win := s.wins.find? fun x => x.w == w
def updWin (s : State) (w : Nat) (f : Win → Win) : State := { s with wins := updWhere (fun x => x.w == w) f s.wins }
def findCtx (s : State) (unit c : Nat) : Option Ctx := s.ctxs.find? fun x => x.unit == unit && x.c == c
def updCtx (s : State) (unit c : Nat) (f : Ctx → Ctx) : State :=
  { s with ctxs := updWhere (fun x => x.unit == unit && x.c == c) f s.ctxs }
def ownerCtx (s : State) (o : Owner) : Option Ctx := s.ctxs.find? fun x => x.owner == o
/-- A group table entry at reset (Table 13-4): what an entry that nothing has written holds. -/
def Grp.reset (g : Nat) : Grp :=
  { g := g, peers := 0, rankl := 0, timeout := 10000, keyb := 0, q := 0, mloc := 0, p := 0, m := 0, tenant := 0, rbase := 0,
    valid := false, nextK := [] }
/-- The entry of a group, in use or not. -/
def grpEntry (s : State) (g : Nat) : Grp := (s.grps.find? fun x => x.g == g).getD (Grp.reset g)
def findGrp (s : State) (g : Nat) : Option Grp := s.grps.find? fun x => x.g == g && x.valid
def Win.port (x : Win) : Nat := bitsOf x.wbind 16 5
def Win.wgroup (x : Win) : Nat := bitsOf x.wbind 32 12
def Win.ten (x : Win) : Nat := x.tenant % 4096
/-- Bytes of a type: f32 or bf16. -/
def tyBytes (ty : Nat) : Nat := if ty = 0 then 4 else 2

/-- MLOC of the group WBIND names; one member where that group is not valid (log 31). -/
def winMembers (s : State) (x : Win) : Nat := match findGrp s x.wgroup with
  | some g => g.mloc
  | none => 1

/-- A group's member timeout in package cycles; where a window names no valid group, the reset value's (Tables 12-2, 13-4). -/
def timeoutCycles (s : State) (g : Nat) : Nat := ((findGrp s g).getD (Grp.reset g)).timeout * 1200

/-- Has an owner waited past its group's timeout for an answer to a send (R382)? -/
def sendLate (s : State) (o : Owner) (g : Nat) : Bool := s.ueWaits.any fun e => e.1 == o && decide (timeoutCycles s g < e.2)

/-- Has a window's member timeout passed (R346, R347)? -/
def winLate (s : State) (x : Win) : Bool :=
  (x.timers.any fun e => decide (timeoutCycles s x.wgroup < e.2)) || sendLate s (.window x.w) x.wgroup

/-! ## Ends -/

/-- The end of every context of an owner: slots and arrivals are freed (R358, R363, R378); writes already issued are
performed, or dropped where nothing more may be written (R346). -/
def endOwner (s : State) (o : Owner) (perform : Bool) : State :=
  let mine := s.ctxs.filter fun x => x.owner == o
  let s := if perform then
      mine.foldl (fun s x => x.writes.foldl (fun s e => devWrite s .abuf e.2.1 e.1 e.2.2) s) s
    else s
  { s with ctxs := s.ctxs.filter (fun x => x.owner != o), arrivals := s.arrivals.filter (fun a => a.owner != some o),
           ueWaits := s.ueWaits.filter (fun e => e.1 != o), ueFails := s.ueFails.filter fun e => e.1 != o }

/-- What a die's loss leaves of the writes that an owner's contexts have in flight: each piece old or new (R382), by free
choices. -/
def landSome (s : State) (o : Owner) : State :=
  let ws := (s.ctxs.filter fun x => x.owner == o).flatMap (·.writes)
  let s' := (ws.mapIdx fun i e => (i, e)).foldl (fun (t : State) e =>
    if Config.freePick s.freeNo e.1 % 2 = 0 then devWrite t .abuf e.2.2.1 e.2.1 e.2.2.2 else t) s
  { s' with freeNo := s.freeNo + 1, ctxs := updWhere (fun x => x.owner == o) (fun x => { x with writes := [] }) s'.ctxs }

/-- A window is disarmed: its KIND reads 0, its context is gone, ROUND stays (R358). -/
def disarmWin (s : State) (w : Nat) (perform : Bool) : State :=
  updWin (endOwner s (.window w) perform) w fun x => { x with kind := 0, stored := [], timers := [] }

/-- The updater of a window's BO updates: the port of its context (R254). -/
def winUpdater (x : Win) : Word := BitVec.ofNat 32 x.port

/-- Flags of a window's BO updates (R345, R346). -/
def winFlags (x : Win) : Nat := (if x.spilled then 1 else 0) + (if x.suspended then 2 else 0)

/-- Does a window's BO pass its checks (R331): TENANT, alignment, coherent HBM? -/
def winBoOk (s : State) (x : Win) : Bool :=
  decide (x.tenant < 4096) &&
  (match devBo s (rootDie s) x.tenant x.bo.toNat with
   | some p => isHbm p.pa
   | none => false)

/-- Of conditions found in one cycle the lowest status code counts (R346): a member timeout that has passed comes before 3 and 4. -/
def lowStatus (late : Bool) (status : Nat) : Nat := if late ∧ 2 < status then 2 else status

/-- Post a status with increment 0 to a window's BO. -/
def winPost (s : State) (x : Win) (status : Nat) : State :=
  if winBoOk s x then
    postBo s .abuf (rootDie s) x.ten x.bo.toNat 0 (lowStatus (winLate s x) status) (winFlags x) (winUpdater x)
  else s

/-- A window fails with a reason (R331). -/
def winFail (s : State) (w reason : Nat) : State :=
  match findWin s w with
  | none => s
  | some x => updWin (disarmWin (winPost s x 4) w false) w fun x => { x with stat := reason }

/-- A window ends with status 1, 2 or 3 (R346, R382). -/
def winEnd (s : State) (w status : Nat) : State :=
  match findWin s w with
  | none => s
  | some x => disarmWin (winPost s x status) w false

/-! ## Stores and arrivals (R332, R333, R363) -/

/-- The 32-bit checksum of R344: the sum of the 32-bit words. -/
def sumOf (data : List Byte) : Word := (bytesWords data).foldl (· + ·) 0

/-- The bytes a rank has stored in a chunk, in order; none unless all are there. -/
def rankChunk (x : Win) (rank c : Nat) : Option (List Byte) :=
  let mine := x.stored.filter fun (e : Nat × Nat × Byte) => e.1 == rank && e.2.1 / x.ch == c
  if mine.length < x.ch then none
  else some ((List.range x.ch).map fun i =>
    ((mine.find? fun (e : Nat × Nat × Byte) => e.2.1 == c * x.ch + i).map fun (e : Nat × Nat × Byte) => e.2.2).getD 0)

/-- Has a rank arrived at a chunk in its current round? -/
def rankAt (x : Win) (c rank : Nat) : Bool :=
  decide (x.ch ≤ (x.stored.filter fun (e : Nat × Nat × Byte) => e.1 == rank && e.2.1 / x.ch == c).length)

/-- Replace the last element that satisfies a test. -/
def updLast {α : Type} (p : α → Bool) (f : α → α) (l : List α) : List α :=
  match (l.reverse.findIdx? p) with
  | some i => l.mapIdx fun k x => if k + i + 1 = l.length then f x else x
  | none => l

def isArrive (o : Owner) (key c src : Nat) (m : Msg) : Bool :=
  match m.body with
  | .arrive o' _ key' c' src' _ _ => o' == some o && key == key' && c == c' && src == src'
  | _ => false

/-- A later store of the round reaches data that is on its way or held (R333). -/
def reArrive (s : State) (o : Owner) (key c src : Nat) (data : List Byte) : State :=
  if s.msgs.any (isArrive o key c src) then
    let put := fun (m : Msg) => match m.body with
      | .arrive o u key c src ty _ => { m with body := MsgBody.arrive o u key c src ty data, sent := none }
      | _ => m
    { s with msgs := updLast (isArrive o key c src) put s.msgs }
  else
    let mine := fun (a : Arrival) => a.owner == some o && a.key == key && a.chunk == c && a.src == src
    let s := match (s.arrivals.filter mine).getLast?, ownerCtx s o with
      | some a, some x => if a.spilled then devSet s .abuf (rootDie s) x.tenant a.place data else s
      | _, _ => s
    { s with arrivals := updLast mine (fun a => if a.spilled then { a with sum := sumOf data } else { a with data := data }) s.arrivals }

/-- The bytes of a store enter a window's current rounds: later values replace earlier ones of a round. -/
def putStored (x : Win) (rank off : Nat) (bs : List Byte) : Win :=
  let old := x.stored.filter fun (e : Nat × Nat × Byte) => !(e.1 == rank && decide (off ≤ e.2.1 ∧ e.2.1 < off + bs.length))
  { x with stored := bs.mapIdx (fun i b => (rank, off + i, b)) ++ old }

/-- A store to a rank page (R332, R333): none while the Caldera is not ready (R480). DESIGN CHOICE: it meets the window's entry and
WBIND as they stand, also where they were written while the window was armed (log 116). -/
def winStore (s : State) (tenant w rank off kind : Nat) (bs : List Byte) : Option State :=
  if !caldUp s then none
  else
    match findWin s w with
    | none => some { s with dropped := s.dropped + 1 }
    | some x =>
      if x.kind = 0 then some { s with dropped := s.dropped + 1 }
      else if kind ≠ x.kind ∨ tenant ≠ x.tenant ∨ x.span ≤ off ∨ x.m ≤ rank then some (winFail s w 3)
      else
        let c := off / x.ch
        let was := rankAt x c rank
        let y := putStored x rank off bs
        let key := 2 * w + rank / 32
        let s1 := updWin s w fun _ => y
        match rankChunk y rank c with
        | none => some s1
        | some data =>
          if was then some (reArrive s1 (.window w) key c (rank % 32) data)
          else
            let s2 := send s1 [.arrive (some (.window w)) (unitNo x.port) key c (rank % 32) x.itype data]
            let all := (List.range x.m).all (rankAt y c)
            some (updWin s2 w fun z =>
              if all then { z with stored := z.stored.filter (fun (e : Nat × Nat × Byte) => e.2.1 / z.ch != c),
                                   timers := z.timers.filter fun e => e.1 != c }
              else if z.timers.any (fun e => e.1 == c) then z
              else { z with timers := z.timers ++ [(c, 0)] })

/-! ## Groups and members -/

/-- The launch record and virtual core of local rank RBASE + i (R362). -/
def rankEntry (s : State) (g : Grp) (i : Nat) : Option (Nat × Nat × Nat) :=
  (devGet s (rootDie s) g.tenant (g.rankl.toNat + 16 * i) 16).map fun bs => (fieldAt bs 0 8, fieldAt bs 8 1, fieldAt bs 9 1)

/-- Does a team speak for local rank i? -/
def speaks (s : State) (g : Grp) (t : Team) (i : Nat) : Bool :=
  match rankEntry s g i, findGrid s t.grid with
  | some (lr, x, y), some gr => gr.lr == lr && t.vcx == x && t.vcy == y
  | _, _ => false

/-- The local ranks, by index, for which a team speaks. -/
def ranksOf (s : State) (g : Grp) (t : Team) : List Nat := (List.range g.mloc).filter (speaks s g t)

/-- Is a member suspended: its team is out or has exited for a yield (R346)? -/
def memberOut (s : State) (g : Grp) (i : Nat) : Bool :=
  s.teams.any fun t => (t.st == .out || t.st == .yieldExited) && speaks s g t i
/-- Is some local rank of a group suspended? -/
def groupOut (s : State) (g : Grp) : Bool := (List.range g.mloc).any (memberOut s g)

/-- Is a team that speaks for a local rank not resident, so that no member timer counts (R347)? -/
def groupAway (s : State) (g : Grp) : Bool := s.teams.any fun t => t.st != .resident && !(ranksOf s g t).isEmpty

end Sys2Proof.Machine
end

