-- ==== Sys2Proof/Machine/Memory.lean ====
section
/-! DEFINITION. Sys2Proof/Machine/Memory.lean: performing accesses (R184-R191, R205, R227-R236), loads, stores, PREF,
DISCARD, CCTL, queue ports and WAIT (R206-R223), atomics (R240-R246) and ARRIVE.G (R256), and their events. Memory order
is operational (log 2): an access is performed at the event that performs it, never before what it is ordered behind. -/

namespace Sys2Proof.Machine

open Sys2Proof

/-! ## One access -/

/-- Why an access is not performed now: its die's L2 lacks line tokens; the Caldera is not ready for it (R480); or its data
is bad: reason of trap 0x0D and INFO. -/
inductive Stop where
  | need (line : Nat) (write : Bool)
  | wait
  | bad (reason info : Nat)
  deriving DecidableEq, Repr, Inhabited

/-- INFO of trap 0x0D: the physical line with the sector in bits [2:0] (Table 14-3); a scratchpad has no physical line, so
only the sector stands there. -/
def badInfo (pa : Nat) : Nat := lineOf pa + pa % 256 / 32

/-- Is the home of an HBM address a lost die (R402)? -/
def homeLost (s : State) (pa : Nat) : Bool := isHbm pa && ((findDie s (paDie pa)).map (·.lost)).getD false

/-- A private or read-shared sector in a core's L1. -/
def l1Find (s : State) (die core pa owner : Nat) : Option L1Sec :=
  s.l1.find? fun x => x.die == die && x.core == core && x.sec == sectorOf pa && x.owner == owner

/-- Replace, or add, a sector of a core's L1. -/
def l1Put (s : State) (x : L1Sec) : State :=
  let s := l1Room s x.die x.core (lineOf x.sec)
  { s with l1 := x :: s.l1.filter fun y => !(y.die == x.die && y.core == x.core && y.sec == x.sec && y.owner == x.owner) }

/-- A clean sector with the bytes of the L2. -/
def fillSec (s : State) (die core pa owner : Nat) (cls : Cls) : L1Sec :=
  { die := die, core := core, sec := sectorOf pa, owner := owner, cls := cls, dirty := false,
    data := memBytes s owner (sectorOf pa) 32, bad := false }

/-- Replace bytes of a list from an index on. -/
def patch (l : List Byte) (i : Nat) (bs : List Byte) : List Byte := l.take i ++ bs ++ l.drop (i + bs.length)

/-- Bytes of a team's scratchpad with bad ECC (R205). -/
def scratchBad (t : Team) (off n : Nat) : Bool := t.badScratch.any fun z => decide (z < off + n ∧ off < z + 32)

/-- A read of n bytes within one sector by a core of a team; `alloc`: the L1 may keep what it reads (R189, R190). -/
def readAt (s : State) (t : Team) (alloc : Bool) (loc : Loc) (n : Nat) : Except Stop (State × List Byte) :=
  match loc with
  | .scratch tm off =>
    match findTeam s tm with
    | none => .ok (s, List.replicate n 0)
    | some u => if scratchBad u off n then .error (.bad 1 (off % 256 / 32)) else .ok (s, mgetList u.scratch off n)
  | .win _ _ _ _ => .error (.bad 1 0)
  | .mem pa owner cls pte _ _ =>
    if pageDiscarded s pte then .ok (s, List.replicate n 0)
    else if !isHbm pa then
      if !sysUp s pa then .error .wait
      else if memBad s pa n then .error (.bad 1 (badInfo pa))
      else .ok (s, memBytes s owner pa n)
    else if homeLost s pa then .error (.bad 3 (badInfo pa))
    else
      match (if cls = .coherent then none else l1Find s t.die t.core pa owner) with
      | some x => if x.bad then .error (.bad 1 (badInfo pa)) else .ok (s, (x.data.drop (pa % 32)).take n)
      | none =>
        if !mayRead s (.l2 t.die) (lineOf pa) then .error (.need (lineOf pa) false)
        else if memBad s (sectorOf pa) 32 then .error (.bad 1 (badInfo pa))
        else
          let bs := memBytes s owner pa n
          if !alloc then .ok (s, bs)
          else if cls = .coherent then .ok (l1Read s t.die t.core pa, bs)
          else .ok (l1Put s (fillSec s t.die t.core pa owner cls), bs)

/-- A coherent write: in the L1, whose line goes to M; or in the L2, where the L1 does not hold the line and is not to
(R189, R193, R212). -/
def cohWrite (s : State) (t : Team) (alloc : Bool) (pa : Nat) : State :=
  if alloc || s.l1c.any (fun x => x.die == t.die && x.core == t.core && x.line == lineOf pa) then l1Write s t.die t.core pa
  else { s with l1c := s.l1c.filter fun x => !(x.die == t.die && x.line == lineOf pa) }

/-- A write of bytes within one sector by a core of a team (R184, R189, R193, R216); `alloc`: the L1 may keep what it
writes. -/
def writeAt (s : State) (t : Team) (alloc : Bool) (loc : Loc) (bs : List Byte) : Except Stop State :=
  match loc with
  | .scratch tm off =>
    .ok (updTeam s tm fun u => { u with scratch := msetList u.scratch off bs,
                                        badScratch := u.badScratch.filter fun z => !coversSector off bs.length z })
  | .win w rank off kind =>
    match winStore s (teamTenant s t) w rank off kind bs with
    | some s => .ok s
    | none => .error .wait
  | .mem pa owner cls pte base size =>
    let s := zeroFill s owner pte base size
    if !isHbm pa then (if sysUp s pa then .ok (writeMem s owner pa bs) else .error .wait)
    else if homeLost s pa then .error (.bad 3 (badInfo pa))
    else
      match cls with
      | .coherent =>
        if mayWrite s (.l2 t.die) (lineOf pa) then .ok (cohWrite (writeMem s owner pa bs) t alloc pa)
        else .error (.need (lineOf pa) true)
      | .shared =>
        if mayWrite s (.l2 t.die) (lineOf pa) then
          let s := writeMem s owner pa bs
          match l1Find s t.die t.core pa owner with
          | some x => .ok (l1Put s { x with data := patch x.data (pa % 32) bs })
          | none => .ok s
        else .error (.need (lineOf pa) true)
      | .priv =>
        match l1Find s t.die t.core pa owner with
        | some x => .ok (l1Put s { x with data := patch x.data (pa % 32) bs, dirty := true })
        | none =>
          if !alloc then
            if mayWrite s (.l2 t.die) (lineOf pa) then .ok (writeMem s owner pa bs) else .error (.need (lineOf pa) true)
          else if !mayRead s (.l2 t.die) (lineOf pa) then .error (.need (lineOf pa) false)
          else if memBad s (sectorOf pa) 32 then .ok (writeMem s owner pa bs)
          else
            let x := fillSec s t.die t.core pa owner cls
            .ok (l1Put s { x with data := patch x.data (pa % 32) bs, dirty := true })

/-- A read and a write in one action (R242, R244, R246); the function answers what to write, or none. -/
def updateAt (s : State) (t : Team) (loc : Loc) (n : Nat) (f : Nat → Option Nat) : Except Stop (State × Nat) :=
  let s0 := match loc with
    | .mem _ owner _ pte base size => zeroFill s owner pte base size
    | _ => s
  let lacks := match loc with
    | .mem pa _ .coherent _ _ _ => isHbm pa && !homeLost s0 pa && !mayWrite s0 (.l2 t.die) (lineOf pa)
    | _ => false
  match loc with
  | .mem pa _ _ _ _ _ =>
    if lacks then .error (.need (lineOf pa) true)
    else go s0
  | _ => go s0
where
  go (s : State) : Except Stop (State × Nat) :=
    match readAt s t true loc n with
    | .error e => .error e
    | .ok (s1, bs) =>
      let old := ofBytesNat bs
      match f old with
      | none => .ok (s1, old)
      | some y =>
        match writeAt s1 t true loc (toBytes (BitVec.ofNat 128 y) n) with
        | .error e => .error e
        | .ok s2 => .ok (s2, old)

/-! ## Atomic operations -/

/-- Rounding to nearest without flush, flags or MODE (R243, R341). -/
def rne : Rnd := { rm := 1, sat := false, e4ov := false, ftzo := false }
def addRne (F : Fmt) (a b : Nat) : Nat := (fres rne 0 F (addV 1 (F.read a) (F.read b))).bits

/-- Table 8-4 at a width of n bytes. -/
def atomOp (op n old b : Nat) : Nat :=
  let w := 8 * n
  let o := signedOf w old
  let c := signedOf w b
  if op = 0 then (old + b) % 2 ^ w
  else if op = 1 then min old b
  else if op = 2 then max old b
  else if op = 3 then (if o ≤ c then old else b)
  else if op = 4 then (if o ≤ c then b else old)
  else if op = 5 then old &&& b
  else if op = 6 then old ||| b
  else if op = 7 then old ^^^ b
  else if op = 8 then b
  else if op = 9 then addRne .f32 old b
  else addRne .bf16 (old % 2 ^ 16) (b % 2 ^ 16) + addRne .bf16 (old / 2 ^ 16) (b / 2 ^ 16) * 2 ^ 16

/-! ## Order (R225-R233) -/

/-- Is spindle q within spindle p's scope (Table 8-1)? -/
def inScope (s : State) (sc : Nat) (p q : SpRef) : Bool :=
  p == q || decide (4 ≤ sc) ||
  (match findTeam s p.team, findTeam s q.team with
   | some a, some b =>
     if sc = 0 then false else if sc = 1 then a.id == b.id else if sc = 2 then sameCluster a b
     else a.die == b.die && a.st == .resident && b.st == .resident
   | _, _ => false)

/-- Do two accesses touch a common byte? -/
def accMeets (a b : Acc) : Bool :=
  let meet := fun (x y : Nat) => decide (x < y + b.n ∧ y < x + a.n)
  match a.loc, b.loc with
  | .scratch t o, .scratch u q => t == u && meet o q
  | .mem pa _ _ _ _ _, .mem pb _ _ _ _ _ => meet pa pb
  | .win w r o _, .win v k q _ => w == v && r == k && meet o q
  | _, _ => false

/-- An instruction with an access that is not performed yet. -/
def pendOpen (y : Pend) : Bool := !y.accs.isEmpty

/-- A store, or a DISCARD, which acts as a store of zeros (R219). -/
def isStore (y : Pend) : Bool := match y.kind with | .store | .discard => true | _ => false

/-- The pending instructions before one, in issue order. -/
def before (p : Spindle) (id : Nat) : List Pend := p.pend.filter fun y => decide (y.id < id)

/-- Pending stores that an early release left behind, for whose scope r is a party (R231, R233): those of other spindles, and
of its own the ones among `own`, which were issued before what asks. -/
def fencedFor (s : State) (r : SpRef) (own : List Pend) : List Pend :=
  let left := fun (me : SpRef) (y : Pend) => match y.fence with
    | some sc => pendOpen y && inScope s sc me r
    | none => false
  own.filter (left r) ++ s.teams.flatMap fun t => t.spindles.flatMap fun q =>
    let me : SpRef := { team := t.id, spx := q.spx }
    if me = r then [] else q.pend.filter (left me)

/-- Does one of a list of pending instructions still access a byte of some accesses? -/
def pendMeets (l : List Pend) (g : List Acc) : Bool := l.any fun y => y.accs.any fun a => g.any (accMeets a)

/-- Does one of them access such a byte for the same thread (R229)? -/
def threadMeets (l : List Pend) (g : List Acc) : Bool :=
  l.any fun y => y.accs.any fun a => g.any fun b => a.thread == b.thread && accMeets a b

/-- May a release at a scope be performed by a spindle now, with what is pending before it (R231)? With all of it
performed; or, at die scope or narrower, with only stores pending, which then stay ahead for the parties in scope. -/
def releaseNow (s : State) (r : SpRef) (open_ : List Pend) (sc : Nat) : Bool :=
  (fencedFor s r []).isEmpty && (open_.isEmpty || (decide (sc ≤ 3) && open_.all isStore))

/-- Mark the pending stores that a narrow release passed. -/
def fenceOff (ids : List Nat) (sc : Nat) (p : Spindle) : Spindle :=
  { p with pend := updWhere (fun y => ids.contains y.id) (fun y => { y with fence := some (max sc (y.fence.getD 0)) }) p.pend }

/-- An acquire at team scope or wider invalidates the read-shared lines of its core's L1 (R190, R231). -/
def acquireAt (s : State) (t : Team) (sc : Nat) : State :=
  if sc = 0 then s
  else { s with l1 := s.l1.filter fun x => !(x.die == t.die && x.core == t.core && x.cls == .shared) }

/-- May the pending instruction act at all: no earlier acquire of the spindle is incomplete, and its own release may be
performed. -/
def pendMay (s : State) (r : SpRef) (p : Spindle) (x : Pend) : Bool :=
  let e := before p x.id
  let o := e.filter pendOpen
  !e.any (fun y => y.acq.isSome && (!y.complete || pendOpen y)) &&
  (match x.rel with | some sc => releaseNow s r o sc | none => true)

/-- May one thread's accesses be performed: nothing earlier of that thread, nor earlier in the instruction, touches their
bytes, and no store that a narrow release left behind does; a store that is left behind itself waits for its own spindle's
alone. -/
def groupMay (s : State) (r : SpRef) (p : Spindle) (x : Pend) (left g : List Acc) : Bool :=
  let own := before p x.id
  !threadMeets own g && !left.any (fun a => g.any (accMeets a)) &&
  !pendMeets (if x.fence.isSome then own.filter (·.fence.isSome) else fencedFor s r own) g

/-! ## Performing a pending instruction -/

/-- What has been done of an instruction: the state, the accesses left, values bound, and a thread that met bad data. -/
structure Work where
  s    : State
  left : List Acc
  got  : List (Nat × BitVec 128)
  bad  : Option (Acc × Nat × Nat)

/-- The cache policy of a form, 0 for one that has none (R212). -/
def policyOf (x : Pend) : Nat := if 0x60 ≤ jMaj x.word ∧ jMaj x.word ≤ 0x65 then jPolicy (jUnpack x.word) else 0

/-- The lines of some accesses take the retention of the instruction's policy in its core's L1 (R212). -/
def markLines (t : Team) (x : Pend) (g : List Acc) (s : State) : State :=
  g.foldl (fun s a => match a.loc with
    | .mem pa _ _ _ _ _ => l1Mark s t.die t.core (lineOf pa) (policyOf x)
    | _ => s) s

/-- Is the L1 to keep what a load reads, or a store writes (R212)? -/
def keepsL1 (x : Pend) : Bool :=
  match x.kind with
  | .load _ _ => jPolicy (jUnpack x.word) != 2
  | .store => !(decide (0x60 ≤ jMaj x.word ∧ jMaj x.word ≤ 0x65) && jPolicy (jUnpack x.word) == 2)
  | _ => true

/-- One thread's pieces read in one action. -/
def readPieces (t : Team) (alloc : Bool) : List Acc → State × Nat → Except Stop (State × Nat)
  | [], r => .ok r
  | a :: rest, (s, v) =>
    match readAt s t alloc a.loc a.n with
    | .error e => .error e
    | .ok (s, bs) => readPieces t alloc rest (s, v + ofBytesNat bs * 2 ^ (8 * a.part))

/-- One thread's pieces written in one action. -/
def writePieces (t : Team) (alloc : Bool) : List Acc → State → Except Stop State
  | [], s => .ok s
  | a :: rest, s =>
    match writeAt s t alloc a.loc (((List.range a.n).map fun i => byteAt a.val (a.part + i))) with
    | .error e => .error e
    | .ok s => writePieces t alloc rest s

/-- What a thread's update writes for an old value: ATOM and RED, ACAS, ARRIVE.G. -/
def updateOf (k : PendKind) (a : Acc) (old : Nat) : Option Nat :=
  match k with
  | .atom op n _ => some (atomOp op n old (a.val.toNat % 2 ^ (8 * n)))
  | .acas n _ => if old = a.val.toNat % 2 ^ (8 * n) then some (a.val2.toNat % 2 ^ (8 * n)) else none
  | _ => some ((old + 1) % 2 ^ 64)

/-- Old values of an atomic on several pieces: a wide stack access is one update of all its words, each read before any is
written; an ACAS that finds unequal values writes none (R242). -/
def updatePieces (t : Team) (k : PendKind) (g : List Acc) (s : State) : Except Stop (State × Nat) :=
  match g with
  | [a] => updateAt s t a.loc a.n (updateOf k a)
  | a :: _ =>
    match g.foldl (fun r b => match r with
      | .error e => .error e
      | .ok (s, v) => match updateAt s t b.loc b.n (fun _ => none) with
        | .error e => .error e
        | .ok (s, o) => .ok (s, v + o * 2 ^ (8 * b.part))) (Except.ok (s, 0) : Except Stop (State × Nat)) with
    | .error e => .error e
    | .ok (s, old) =>
      match updateOf k a old with
      | none => .ok (s, old)
      | some y => match writePieces t true (g.map fun b => { b with val := BitVec.ofNat 128 y }) s with
        | .error e => .error e
        | .ok s => .ok (s, old)
  | [] => .ok (s, 0)

/-- Is it an atomic, applied strictly in thread order (R205, R242)? -/
def isAtomic (k : PendKind) : Bool := match k with | .atom _ _ _ | .acas _ _ | .arriveG _ => true | _ => false

/-- Perform one thread's accesses. -/
def actOn (t : Team) (x : Pend) (g : List Acc) (s : State) : Except Stop (State × Option Nat) :=
  match x.kind with
  | .load _ _ => (readPieces t (keepsL1 x) g (s, 0)).map fun r => (r.1, some r.2)
  | .store => (writePieces t (keepsL1 x) g s).map fun s => (s, none)
  | k => (updatePieces t k g s).map fun r => (r.1, some r.2)

/-- The accesses of a list, thread by thread. -/
def byThread (l : List Acc) : List (List Acc) := l.splitBy fun a b => a.thread == b.thread

/-- Release what tokens were asked for, once an access on a line is performed. -/
def servedAll (s : State) (t : Team) (g : List Acc) : State :=
  g.foldl (fun s a => match a.loc with
    | .mem pa _ _ _ _ _ => served s (.l2 t.die) (lineOf pa)
    | _ => s) s

/-- Keep what a plain scratchpad store overwrote, for an engine that may read in between (R239). -/
def noteTorn (s0 s : State) (r : SpRef) (x : Pend) (g : List Acc) : State :=
  let cut := g.flatMap fun a => match x.kind, a.loc with
    | .store, .scratch tm off => (List.range a.n).map fun i =>
      ({ id := x.id, team := tm, off := off + i, old := ((findTeam s0 tm).map fun u => mget u.scratch (off + i)).getD 0,
         new := byteAt a.val (a.part + i) } : Torn)
    | _, _ => []
  if cut.isEmpty then s else updSp s r fun p => { p with torn := cut.reverse ++ p.torn }

/-- One thread more (R216, R242): performed, or left with its tokens asked for. -/
def workStep (r : SpRef) (t : Team) (p : Spindle) (x : Pend) (w : Work) (g : List Acc) : Work :=
  if w.bad.isSome ∨ (isAtomic x.kind ∧ w.left ≠ []) ∨ !groupMay w.s r p x w.left g then { w with left := w.left ++ g }
  else
    match actOn t x g w.s with
    | .ok (s, v) =>
      let th := (g.headD default).thread
      { w with s := noteTorn w.s (markLines t x g (servedAll s t g)) r x g, got := match v with | some v => w.got ++ [(th, BitVec.ofNat 128 v)] | none => w.got }
    | .error (.need line wr) =>
      { w with s := wantLine w.s (.l2 t.die) line wr, left := w.left ++ g }
    | .error .wait => { w with left := w.left ++ g }
    | .error (.bad reason info) => { w with left := w.left ++ g, bad := some (g.headD default, reason, info) }

/-- Does a kind count as a load (R245)? -/
def loadLike (x : Pend) : Bool :=
  match x.kind with
  | .load _ _ | .acas _ _ | .arriveG _ => true
  | .atom _ _ _ => decide (jMaj x.word = 0x70)
  | _ => false

/-- The value a load writes, from its bytes (R215). -/
def loadValue (code : Nat) (v : BitVec 128) : BitVec 128 :=
  if code = 5 then BitVec.ofNat 128 (wrapTo 32 (signedOf 8 v.toNat))
  else if code = 6 then BitVec.ofNat 128 (wrapTo 32 (signedOf 16 v.toNat))
  else v

/-- Destination, registers and value of a bound thread. -/
def bindDst (x : Pend) (v : BitVec 128) : Option (BitVec 10 × Nat × BitVec 128) :=
  match x.kind with
  | .load code d => some (d, widthRegs code, loadValue code v)
  | .atom _ n d | .acas n d => some (d, (n + 3) / 4, v)
  | .arriveG d => some (d, 2, v)
  | _ => none

/-- Write every bound value. -/
def writeGot (x : Pend) (got : List (Nat × BitVec 128)) (p : Spindle) : Spindle :=
  got.foldl (fun p e => match bindDst x e.2 with | some (d, n, v) => writeDst p d n e.1 v | none => p) p

/-- Pushed groups that are performed leave their port. -/
def dropPushed (t : Team) (id : Nat) : Team :=
  { t with ports := t.ports.map fun q => { q with pushed := q.pushed.filter fun e => e.1 != id } }

/-- The record of a trap of a pending instruction (R58); a pushed group leaves its port. -/
def pendTrap (s : State) (r : SpRef) (t : Team) (p : Spindle) (x : Pend) (c : Cond) : State :=
  let fm := ((p.frag? x.frag).map (·.mask)).getD 0
  let info := if c.cause = 0x0D ∧ c.reason = 3 ∧ c.info = 0 then lostInfo s t p.spx c.addr c.tmask else c.info
  let s' := updTeam (updSp s r fun p => cancelPend p x.id) t.id fun t => dropPushed t x.id
  raiseTrap s' r x.frag (mkRec s t p.spx fm x.pc x.word { c with w := x.w, info := info })

/-- The threads of an instruction that meet bad data (R205, R388). -/
def badThreads (s : State) (t : Team) (x : Pend) (reason : Nat) : BitVec 8 :=
  maskOf ((byThread x.accs).filterMap fun g => match actOn t x g s with
    | .error (.bad r _) => if r = reason then some (g.headD default).thread else none
    | _ => none)

/-- Settle what an event did to a pending instruction: the trap of bad data; completion, with its results written and an
acquire made; or what is left, with the paths done so far. -/
def closeWork (r : SpRef) (t : Team) (p : Spindle) (x : Pend) (w : Work) : State :=
  match w.bad with
  | some (a, reason, info) =>
    let tm := if x.uni then x.tmask else if isAtomic x.kind then maskOf [a.thread] else badThreads w.s t x reason
    pendTrap w.s r t p x { cause := 0x0D, reason := reason, tmask := tm, addr := a.ea, info := BitVec.ofNat 64 info }
  | none =>
    if w.left.isEmpty then
      let s := updSp w.s r fun p => finishPend (writeGot x w.got p) x.id
      let s := updTeam s t.id fun t => dropPushed t x.id
      match x.acq with
      | some sc => acquireAt s t sc
      | none => s
    else
      updSp w.s r fun p =>
        let f := fun (y : Pend) => { y with accs := w.left, got := w.got, paths := y.paths.map fun e =>
          (e.1, !loadLike y && !w.left.any fun a => pathOf false a.loc == e.1) }
        settle { p with pend := updWhere (fun y => y.id == x.id) f p.pend }

/-! ## Whole sectors (R189, R205) -/

/-- Do writes of bytes at places cover a whole physical sector, or a whole sector of a team's scratchpad? -/
def paCovered (ws : List (Loc × Nat)) (z : Nat) : Bool :=
  (List.range 32).all fun i => ws.any fun e => match e.1 with
    | .mem pa _ _ _ _ _ => decide (pa ≤ z + i ∧ z + i < pa + e.2)
    | _ => false
def offCovered (ws : List (Loc × Nat)) (tm z : Nat) : Bool :=
  (List.range 32).all fun i => ws.any fun e => match e.1 with
    | .scratch u off => u == tm && decide (off ≤ z + i ∧ z + i < off + e.2)
    | _ => false

/-- Is a write to be kept in the core's L1: of private data, where the L1 may allocate it or holds it? -/
def inL1 (s : State) (t : Team) (alloc : Bool) : Loc → Bool
  | .mem pa owner .priv _ _ _ => isHbm pa && !homeLost s pa && (alloc || (l1Find s t.die t.core pa owner).isSome)
  | _ => false

/-- May a write below the L1 be performed with the tokens at hand? -/
def belowL1 (s : State) (t : Team) (alloc : Bool) : Loc → Bool
  | .scratch _ _ => true
  | .mem pa owner cls pte base size =>
    if !isHbm pa then sysUp s pa
    else !inL1 s t alloc (.mem pa owner cls pte base size) && !homeLost s pa && mayWrite s (.l2 t.die) (lineOf pa)
  | .win _ _ _ _ => false

/-- A private sector that is written whole is allocated without being read (R189). -/
def allocWhole (s : State) (t : Team) (ws : List (Loc × Nat)) (e : Loc × Nat) : State :=
  match e.1 with
  | .mem pa owner cls _ _ _ =>
    if paCovered ws (sectorOf pa) then
      match l1Find s t.die t.core pa owner with
      | some x => if x.bad then l1Put s { x with bad := false } else s
      | none => l1Put s { die := t.die, core := t.core, sec := sectorOf pa, owner := owner, cls := cls, dirty := true,
                          data := List.replicate 32 0, bad := false }
    else s
  | _ => s

/-- What the writes of one instruction do to the sectors that they cover together, before the bytes are written: new ECC, and
room in the L1 (R189, R205, R217). -/
def coverWhole (s : State) (t : Team) (alloc : Bool) (ws : List (Loc × Nat)) : State :=
  let up := ws.filter fun e => inL1 s t alloc e.1
  let down := ws.filter fun e => belowL1 s t alloc e.1
  let s := up.foldl (fun s e => allocWhole s t up e) s
  let clear := fun (u : Team) => { u with badScratch := u.badScratch.filter fun z => !offCovered down u.id z }
  let fresh := fun (x : L1Sec) => x.bad && ofCore t.die t.core x && paCovered (down.filter fun e => match e.1 with
    | .mem _ o _ _ _ _ => o == x.owner
    | _ => false) x.sec
  { s with l1 := if s.l1.any (·.bad) then updWhere fresh (fun x => { x with bad := false }) s.l1 else s.l1,
           badSec := s.badSec.filter (fun z => !paCovered down z), teams := updWhere (fun u => !u.badScratch.isEmpty) clear s.teams }

/-- The sectors that a store covers, where nothing holds back any of its threads. -/
def coverStore (s : State) (r : SpRef) (t : Team) (p : Spindle) (x : Pend) : State :=
  if x.kind = .store ∧ (byThread x.accs).all (groupMay s r p x []) then
    coverWhole s t (keepsL1 x) (x.accs.map fun a => (a.loc, a.n))
  else s

/-- Perform every access of a pending instruction that may be performed now. -/
def performPend (s : State) (r : SpRef) (t : Team) (p : Spindle) (x : Pend) : State :=
  if !pendMay s r p x then s
  else
    let s := match x.rel with
      | some sc => updSp s r (fenceOff (((before p x.id).filter pendOpen).map (·.id)) sc)
      | none => s
    closeWork r t p x ((byThread x.accs).foldl (workStep r t p x) { s := coverStore s r t p x, left := [], got := x.got, bad := none })

/-- Some threads of a load or store have their moments now, the others have theirs later: each thread is decided on its own (R228,
R229, R460). An atomic goes through its threads in order (R242), and a store over bad data is performed whole (R205). -/
def performSome (s : State) (r : SpRef) (t : Team) (p : Spindle) (x : Pend) (m : BitVec 8) : State :=
  if isAtomic x.kind ∨ (x.kind = .store ∧ x.accs.any fun a => locBad s t a.loc a.n) then performPend s r t p x
  else if !pendMay s r p x then s
  else
    let s := match x.rel with
      | some sc => updSp s r (fenceOff (((before p x.id).filter pendOpen).map (·.id)) sc)
      | none => s
    closeWork r t p x ((byThread x.accs).foldl (fun w g =>
      if m.getLsbD (g.headD default).thread then workStep r t p x w g else { w with left := w.left ++ g })
      { s := s, left := [], got := x.got, bad := none })

/-- Ask for the tokens that a new instruction lacks (R198). -/
def askTokens (s : State) (t : Team) (x : Pend) : State :=
  (byThread x.accs).foldl (fun s g => match actOn t x g s with
    | .error (.need line wr) => wantLine s (.l2 t.die) line wr
    | _ => s) s

/-! ## CCTL and DISCARD -/

/-- Before a swapped team runs again, on this core or on another: dirty private sectors are written back, and no copy of
private or read-shared data stays that could be out of date when the team returns (R237). -/
def flushCore (s : State) (die core : Nat) : State :=
  let s := writeBack s (ofCore die core)
  { s with l1 := s.l1.filter fun x => !ofCore die core x }

/-- No L1 keeps a copy of a physical range (R219). -/
def dropRange (s : State) (base len : Nat) : State :=
  let inr := fun (a : Nat) => decide (base ≤ a ∧ a < base + len)
  { s with l1 := s.l1.filter (fun x => !inr x.sec), l1c := s.l1c.filter (fun x => !inr x.line) }

/-- A physical range becomes zeros under an owner's key, with new ECC, and no L1 keeps a copy of it (R205, R219). -/
def zeroRange (s : State) (owner base len : Nat) : State :=
  let s := dropRange s base len
  { s with mem := mclear s.mem base (base + len), lineOwner := (base, len, owner) :: s.lineOwner,
           badSec := s.badSec.filter fun x => !decide (base ≤ x ∧ x < base + len) }

/-- A whole page is discarded (R184, R219): it reads as zeros, whatever its bytes were. -/
def discardPage (s : State) (pte base size : Nat) : State :=
  let s := dropRange s base size
  { s with mem := msetList s.mem pte (toBytes (read64 s pte ||| (0x1000 : BitVec 64)) 8),
           badSec := s.badSec.filter fun x => !decide (base ≤ x ∧ x < base + size) }

/-- The whole effect of a DISCARD_RANGE (R219, R428): a device's lines (base, length, owner) and pages (leaf, base, size). -/
def discardNow (s : State) (h : Holder) (lines pages : List (Nat × Nat × Nat)) : State :=
  let s := lines.foldl (fun s e => passLines (zeroRange (takeLines s h e.1 e.2.1) e.2.2 e.1 e.2.1) h e.1 e.2.1) s
  pages.foldl (fun s e => discardPage s e.1 e.2.1 e.2.2) s

/-- DISCARD zeroes the lines of a range one after the other, each once its die holds all 16 line tokens, and asks for those of the
first that it does not (R198, R219); what is left of the range: its first line, and how many. -/
def discardLines (t : Team) (owner pa : Nat) : Nat → State → State × Nat × Nat
  | 0, s => (s, pa, 0)
  | n + 1, s =>
    let h := Holder.l2 t.die
    if isHbm pa && !mayWrite s h pa then (wantLine s h pa true, pa, n + 1)
    else if !isHbm pa && !sysUp s pa then (s, pa, n + 1)
    else discardLines t owner (pa + 256) n (served (zeroRange s owner pa 256) h pa)

/-- One range, page or stack word more of a DISCARD (R219), as a store of zeros is ordered. -/
def discardStep (r : SpRef) (t : Team) (p : Spindle) (x : Pend) (w : Work) (a : Acc) : Work :=
  if w.bad.isSome ∨ !groupMay w.s r p x [] [a] then { w with left := w.left ++ [a] }
  else
    match a.loc with
    | .mem pa owner cls pte base size =>
      if homeLost w.s pa then { w with left := w.left ++ [a], bad := some (a, 3, badInfo pa) }
      else if a.part = 1 then { w with s := discardPage w.s pte base size }
      else if a.part = 2 then
        match writeAt w.s t true a.loc (List.replicate a.n 0) with
        | .ok s => { w with s := servedAll s t [a] }
        | .error (.need line wr) => { w with s := wantLine w.s (.l2 t.die) line wr, left := w.left ++ [a] }
        | .error .wait => { w with left := w.left ++ [a] }
        | .error (.bad reason info) => { w with left := w.left ++ [a], bad := some (a, reason, info) }
      else
        match discardLines t owner pa (a.n / 256) (zeroFill w.s owner pte base size) with
        | (s, _, 0) => { w with s := s }
        | (s, q, n) => { w with s := s, left := w.left ++ [{ a with n := 256 * n, loc := .mem q owner cls pte base size }] }
    | _ => w

/-- Perform what may be performed now of a DISCARD. -/
def performDiscard (s : State) (r : SpRef) (t : Team) (p : Spindle) (x : Pend) : State :=
  if !pendMay s r p x then s
  else closeWork r t p x (x.accs.foldl (discardStep r t p x) { s := s, left := [], got := x.got, bad := none })

/-- The effect of CCTL WB, INV, IINV on one line (R220); words fetched ahead are fetched again after an IINV. -/
def cctlLine (s : State) (t : Team) (op pa : Nat) : State :=
  let here := fun (x : L1Sec) => ofCore t.die t.core x && lineOf x.sec == lineOf pa
  if op = 2 then
    let again := fun (f : Frag) => if f.st = .ready then { f with fetched := none } else f
    let spin := fun (p : Spindle) => { p with frags := p.frags.map again }
    { s with icache := s.icache.filter (fun c => lineOf c.pa != lineOf pa),
             teams := s.teams.map fun t => { t with spindles := t.spindles.map spin } }
  else
    if op ≠ 0 then l1Drop s t.die t.core (lineOf pa)
    else
      let s := writeBack s here
      { s with l1c := updWhere (fun x => x.die == t.die && x.core == t.core && x.line == lineOf pa) (fun x => { x with dirty := 0 }) s.l1c }

def accPa (a : Acc) : Nat := match a.loc with | .mem pa _ _ _ _ _ => pa | _ => 0

/-! ## Events -/

/-- A pending instruction with its team and spindle; its team is resident and its spindle not halted by a lost record. -/
def findPend (s : State) (r : SpRef) (id : Nat) : Option (Team × Spindle × Pend) :=
  match findTeam s r.team, findSp s r with
  | some t, some p => if t.st = .resident then (p.pend.find? fun x => x.id == id).map fun x => (t, p, x) else none
  | _, _ => none

/-- LOAD_DATA_ARRIVAL (R217, R229): the load binds what it may now. -/
def execLoadDataArrival (r : SpRef) (id : Nat) (s : State) : Out :=
  match findPend s r id with
  | some (t, p, x) => match x.kind with
    | .load _ _ => .next (performPend s r t p x)
    | _ => .next s
  | none => .next s

/-- ACCESS_DONE (R204, R219, R220, R242, R322, R324): a store, atomic, DISCARD or CCTL is performed as far as it may be
now; a ROUTE or TRETIRE, whose entries are written, and a COLL or PROGV are done. -/
def execAccessDone (r : SpRef) (id : Nat) (s : State) : Out :=
  match findPend s r id with
  | none => .next s
  | some (t, p, x) =>
    match x.kind with
    | .store | .atom _ _ _ | .acas _ _ | .arriveG _ => .next (performPend s r t p x)
    | .discard => .next (performDiscard s r t p x)
    | .cctl op =>
      if op ≠ 2 && (before p id).any pendOpen then .next s
      else
        let s := if op = 4 then writeBack s fun y => ofCore t.die t.core y && y.cls == .priv
                 else x.accs.foldl (fun s a => cctlLine s t op (accPa a)) s
        .next (updSp s r fun p => finishPend p id)
    | .dispense | .coll _ => .next (if s.listQ.any fun y => y.by_ == some id then s else updSp s r fun p => finishPend p id)
    | _ => .next s

/-- The turn in which some threads of a load or a store have their moments. -/
def partTurn (s : State) (r : SpRef) (id : Nat) (m : BitVec 8) : State :=
  match findPend s r id with
  | some (t, p, x) => match x.kind with
    | .load _ _ | .store => performSome s r t p x m
    | _ => s
  | none => s

/-- SYSTEM_MEMORY_TIMEOUT (R188): an access to system memory that is still open. -/
def execSystemMemoryTimeout (r : SpRef) (id : Nat) (s : State) : Out :=
  match findPend s r id with
  | none => .next s
  | some (t, p, x) =>
    let sys := x.accs.filter fun a => match a.loc with | .mem pa _ _ _ _ _ => !isHbm pa | _ => false
    match sys with
    | [] => .next s
    | a :: _ =>
      match x.kind with
      | .load _ _ | .store | .atom _ _ _ | .acas _ _ =>
        let tm := if x.uni then x.tmask else maskOf (sys.map (·.thread))
        .next (pendTrap s r t p x { cause := 0x0D, reason := 2, tmask := tm, addr := a.ea, info := BitVec.ofNat 64 (badInfo (accPa a)) })
      | _ => .next s

/-! ## Issue of the memory class -/

/-- The issue of a form that reaches memory: its threads' addresses checked in R214's order. -/
def memForm (i : Instr) (k : AKind) (s : State) (want : Iss → Nat → Want)
    (go : Iss → List (Want × List (Nat × Nat × Loc)) → Out) : Out :=
  issue i { memory := true } s fun x =>
    if x.tp = 0 then x.skip
    else
      match checkAll x.s x.t x.p.spx k (x.threads.map (want x)) with
      | .trap c r ea m => x.trap { cause := c, reason := r, tmask := if x.w.uni then x.tp else m, addr := ea }
      | .walk g ea m => x.needWalk g ea (if x.w.uni then x.tp else m)
      | .ok rs => go x rs

/-- The checked accesses as pieces, with each thread's data. -/
def accsOf (rs : List (Want × List (Nat × Nat × Loc))) (val val2 : Nat → BitVec 128) : List Acc :=
  rs.flatMap fun r => r.2.map fun b =>
    { thread := r.1.thread, ea := r.1.ea, n := b.2.1, part := b.1, loc := b.2.2, val := val r.1.thread, val2 := val2 r.1.thread }

/-- Scratchpad accesses act at cluster scope at most (R226). -/
def narrow (accs : List Acc) (sc : Nat) : Nat :=
  if accs.all fun a => match a.loc with | .scratch _ _ => true | _ => false then min sc 2 else sc

/-- Issue a pending memory instruction: a full counter stalls it (R204); else its counters rise and its tokens are asked
for. -/
def Iss.launch (x : Iss) (kind : PendKind) (ld complete : Bool) (acq rel : Bool) (accs : List Acc) : Out :=
  let paths := pathsOf ld accs
  if x.ctrStops paths then x.stall 0x40
  else
    let (id, s) := fresh x.s
    let x := { x with s := s }
    let sc := narrow accs (jScope x.w)
    let y := x.pend id kind complete (if acq then some sc else none) (if rel then some sc else none) paths accs
    .next (askTokens (x.commit x.nextPc (addPend y)) x.t y)

def loadForm (i : Instr) (w : JWord) (want : Nat → Iss → Nat → Want) (s : State) : Out :=
  memForm i .load s (want (widthBytes w.min.toNat)) fun x rs =>
    x.launch (.load w.min.toNat w.d) true false (jOrder w == 1) false (accsOf rs (fun _ => 0) fun _ => 0)

def storeForm (i : Instr) (w : JWord) (want : Nat → Iss → Nat → Want) (s : State) : Out :=
  memForm i .store s (want (widthBytes w.min.toNat)) fun x rs =>
    let val := fun t => x.src w.b (widthRegs w.min.toNat) false t
    x.launch .store false true false (jOrder w == 2) (accsOf rs val fun _ => 0)

/-- LD (R213, R215). -/
def execLd (w : JWord) (s : State) : Out := loadForm (.ld w) w wantPair s
/-- LDL (R213, R215). -/
def execLdl (w : JWord) (s : State) : Out := loadForm (.ldl w) w (wantOff 0x80 19) s
/-- LDC (R213, R215). -/
def execLdc (w : JWord) (s : State) : Out := loadForm (.ldc w) w (wantOff 0x81 21) s
/-- ST (R213, R216). -/
def execSt (w : JWord) (s : State) : Out := storeForm (.st w) w wantPair s
/-- STL (R213, R216). -/
def execStl (w : JWord) (s : State) : Out := storeForm (.stl w) w (wantOff 0x80 19) s
/-- STC (R213, R216). -/
def execStc (w : JWord) (s : State) : Out := storeForm (.stc w) w (wantOff 0x81 21) s

/-- The fill of a PREF (R218): its line is asked for as a load would ask, and enters the L1 where the L2 may read it. Bad
sectors of the line are recorded in the error log as its data comes (R205). The L1 keeps it by the policy (R212). -/
def prefetch (t : Team) (policy va : Nat) (s : State) (loc : Loc) : State :=
  match loc with
  | .mem pa owner cls pte _ _ =>
    if !isHbm pa || pageDiscarded s pte || homeLost s pa then s
    else
      let bad := (List.range 8).filter fun i => memBad s (lineOf pa + 32 * i) 32
      let note := fun (s : State) =>
        bad.foldl (fun s i => logError s 1 t.die (physCore s t.die t.core) (BitVec.ofNat 32 i) (BitVec.ofNat 64 (lineOf pa))) s
      if !mayRead s (.l2 t.die) (lineOf pa) then
        let e : Prefetch := { team := t.id, policy := policy, va := va, loc := loc }
        let s := wantLine s (.l2 t.die) (lineOf pa) false
        { s with prefs := if s.prefs.contains e then s.prefs else s.prefs ++ [e] }
      else if policy = 2 then note s
      else
       let s := l1Mark (note s) t.die t.core (lineOf pa) policy
       if cls = .coherent then
        (List.range 8).foldl (fun s i => if bad.contains i then s else l1Read s t.die t.core (lineOf pa + 32 * i)) s
       else (List.range 8).foldl (fun s i =>
        let a := lineOf pa + 32 * i
        if bad.contains i || (l1Find s t.die t.core a owner).isSome then s
        else l1Put s (fillSec s t.die t.core a owner cls)) s
  | _ => s

/-- Lines that PREFs have asked for go on to the L1 where their tokens have come (R218). -/
def retryPrefs (s : State) : State :=
  s.prefs.foldl (fun s e => match findTeam s e.team with
    | some t => if t.st = .resident then prefetch t e.policy e.va s e.loc else s
    | none => s) { s with prefs := [] }

/-- A granule's translation enters a team's TLBs, where its walk ends in a leaf (R399; log 87). -/
def tlbWalk (s : State) (t : Team) (g : Nat) : Option State :=
  let tenant := teamTenant s t
  match walk s t.die tenant g with
  | .leaf e pte base size =>
    let y : Tlb := { die := t.die, core := none, tenant := tenant, va := base, size := size, leaf := e, pte := pte }
    some (tlbPut (tlbPut s y) { y with core := some t.core })
  | _ => none

/-- The translations that a PREF's threads lack enter the TLBs; a failed walk is dropped (R218, R399). -/
def prefWalks (x : Iss) (s : State) : State :=
  x.threads.foldl (fun s t =>
    match resolve s x.t x.p.spx .pref (wantPair 1 x t) with
    | .walk g => (tlbWalk s x.t g).getD s
    | _ => s) s

/-- The lines that a PREF's threads name, each once (R217): a thread whose address fails its checks names none. -/
def prefLocs (x : Iss) (s : State) : List (Nat × Loc) :=
  ((x.threads.filterMap fun t =>
    let w := wantPair 1 x t
    match resolve s x.t x.p.spx .pref w with
    | .ok [(_, _, .mem pa o c pte b z)] => some (lineOf (globalOf x.t x.p.spx t w.ea), Loc.mem (lineOf pa) o c pte b z)
    | _ => none).foldr (fun e l => if l.any (·.2 == e.2) then l else e :: l) [])

/-- PREF (R218): faults are dropped. -/
def execPref (w : JWord) (s : State) : Out :=
  issue (.pref w) { memory := true } s fun x =>
    let s := prefWalks x (x.commit x.nextPc id)
    .next ((prefLocs x s).foldl (fun s e => prefetch x.t (jPolicy w) e.1 s e.2) s)

/-- A thread's DISCARD range (R219): the address checked in each 512 KiB it touches; in the stack aperture, which Table 7-10
names, each of the thread's own words (R187; log 36). -/
def discardWants (stks : Nat) (ea : BitVec 64) (len t : Nat) : List Want :=
  if len = 0 then []
  else if bitsOf ea 56 8 = 0x82 then
    let bad := decide (bitsOf ea 0 32 % 256 ≠ 0) || decide (len % 256 ≠ 0)
    if bad then [{ thread := t, ea := ea, n := 4, badLen := true }]
    else if stks < bitsOf ea 0 32 + len then [{ thread := t, ea := ea + BitVec.ofNat 64 (stks - bitsOf ea 0 32), n := 4 }]
    else (List.range (len / 4)).map fun i => { thread := t, ea := ea + BitVec.ofNat 64 (4 * i), n := 4 }
  else
    let a := ea.toNat
    let out := decide (2 ^ 56 < a % 2 ^ 56 + len) || decide (2 ^ 56 ≤ a)
    let g0 := a / 2 ^ 19
    let g1 := (a + len - 1) / 2 ^ 19
    if out then [{ thread := t, ea := ea, n := 256, badEa := true }]
    else if len % 256 ≠ 0 then [{ thread := t, ea := ea, n := 256, badLen := true }]
    else (List.range (g1 - g0 + 1)).map fun i =>
      { thread := t, ea := if i = 0 then ea else BitVec.ofNat 64 ((g0 + i) * 2 ^ 19), n := 256 }

/-- What a thread's DISCARD acts on (R219): the part of each page that its range covers, `part` 1 where that is the whole page;
in the stack aperture its words, `part` 2. -/
def discardAccs (ea : BitVec 64) (len t : Nat) (rs : List (Want × List (Nat × Nat × Loc))) : List Acc :=
  let a := ea.toNat
  let acc := fun (e : BitVec 64) (n part : Nat) (loc : Loc) => ({ thread := t, ea := e, n := n, part := part, loc := loc, val := 0, val2 := 0 } : Acc)
  if bitsOf ea 56 8 = 0x82 then rs.flatMap fun r => r.2.map fun b => acc r.1.ea b.2.1 2 b.2.2
  else
    ((rs.filterMap fun r => match r.2 with
      | [(_, _, .mem pa owner cls pte base size)] => some (r.1.ea.toNat - (pa - base), owner, cls, pte, base, size)
      | _ => none).dedup).map fun (va, owner, cls, pte, base, size) =>
        let lo := max a va
        let hi := min (a + len) (va + size)
        acc (BitVec.ofNat 64 lo) (hi - lo) (if a ≤ va ∧ va + size ≤ a + len then 1 else 0) (.mem (base + (lo - va)) owner cls pte base size)

/-- The walks of a range with more pages than the TLBs hold, made page by page (R219, R399). -/
def walkAll (s : State) (t : Team) (spx : Nat) (ws : List Want) : State :=
  ws.foldl (fun s w => match resolve s t spx .discard w with
    | .walk g =>
      let tenant := teamTenant s t
      match walk s t.die tenant g with
      | .leaf e pte base size =>
        { s with tlb := { die := t.die, core := none, tenant := tenant, va := base, size := size, leaf := e, pte := pte } :: s.tlb }
      | _ => s
    | _ => s) s

/-- DISCARD (R219). -/
def execDiscard (w : JWord) (s : State) : Out :=
  issue (.discard w) { memory := true } s fun x =>
    let rng := fun (t : Nat) => (x.src2 w.a t + jOffM w, (x.src1 w.b t).toNat)
    let wants := x.threads.flatMap fun t => discardWants x.t.stks.toNat (rng t).1 (rng t).2 t
    if wants.isEmpty then x.skip
    else
      match checkAll (if wants.length ≤ 16384 then x.s else walkAll x.s x.t x.p.spx wants) x.t x.p.spx .discard wants with
      | .trap c r _ m => x.trap { cause := c, reason := r, tmask := m, addr := (rng ((threadsOf m).headD 0)).1 }
      | .walk g ea m => x.needWalk g ea m
      | .ok rs =>
        if x.ctrStops [1] then x.stall 0x40
        else
          let (id, s) := fresh x.s
          let x := { x with s := s }
          let accs := x.threads.flatMap fun t => discardAccs (rng t).1 (rng t).2 t (rs.filter fun r => r.1.thread == t)
          x.next (addPend (x.pend id .discard true none none [1] accs))

/-- CCTL on the lines of the threads' addresses (R203, R220). -/
def cctlForm (i : Instr) (op : Nat) (s : State) : Out :=
  memForm i .pref s (wantPair 1) fun x rs =>
    let accs := (accsOf rs (fun _ => 0) fun _ => 0).filter fun a => match a.loc with
      | .mem pa _ _ _ _ _ => op == 2 || isHbm pa
      | _ => false
    if accs.isEmpty then x.skip
    else if x.ctrStops [1] then x.stall 0x40
    else
      let (id, s) := fresh x.s
      let x := { x with s := s }
      x.next (addPend (x.pend id (.cctl op) true none none [1] accs))

/-- CCTL.WB (R220). -/
def execCctlWb (w : JWord) (s : State) : Out := cctlForm (.cctlWb w) 0 s
/-- CCTL.INV (R220). -/
def execCctlInv (w : JWord) (s : State) : Out := cctlForm (.cctlInv w) 1 s
/-- CCTL.IINV (R220). -/
def execCctlIinv (w : JWord) (s : State) : Out := cctlForm (.cctlIinv w) 2 s
/-- CCTL.INVRS (R220): complete when its invalidation is finished. -/
def execCctlInvrs (w : JWord) (s : State) : Out :=
  issue (.cctlInvrs w) { memory := true } s fun x =>
    if x.tp = 0 then x.skip else .next (acquireAt (x.commit x.nextPc id) x.t 1)
/-- CCTL.WBALL (R220). -/
def execCctlWball (w : JWord) (s : State) : Out :=
  issue (.cctlWball w) { memory := true } s fun x =>
    if x.tp = 0 then x.skip
    else if x.ctrStops [1] then x.stall 0x40
    else
      let (id, s) := fresh x.s
      let x := { x with s := s }
      x.next (addPend (x.pend id (.cctl 4) true none none [1] []))

/-! ## Queue ports (R206-R210, R221, R222) -/

/-- QCFG (R221). -/
def execQcfg (w : JWord) (s : State) : Out :=
  issue (.qcfg w) { memory := true } s fun x =>
    if x.tp = 0 then x.skip
    else
      let q := bitsOf w.mod 0 3
      let a := x.src w.a 4 false 0
      let b := x.src w.b 4 false 0
      let base : BitVec 64 := a.extractLsb' 0 64
      let fld := fun (v : BitVec 128) (i : Nat) => bitsOf v (32 * i) 32
      let n := widthBytes (bitsOf w.mod 4 3)
      let d := [fld a 2, fld a 3, fld b 0]
      let n0 := fld b 1
      let n1 := fld b 2
      let n2 := fld b 3
      let bound := ((x.t.port q).map (·.bound)).getD none
      if bound.isSome && bound != some x.p.spx then x.trapT 0x08 1
      else if !([0, 0x80, 0x81].contains (bitsOf base 56 8)) || base.toNat % n != 0 then
        x.trap { cause := 3, tmask := x.tp, addr := base }
      -- DESIGN CHOICE: no address fails here, ADDR is the base (log 101)
      else if d.any fun y => y % n != 0 then x.trap { cause := 3, tmask := x.tp, addr := base }
      else if n0 * n1 * n2 = 0 ∨ n0 * n1 * n2 % 8 ≠ 0 ∨ 2 ^ 32 < n0 * n1 * n2 then x.trapT 0x08 3
      else
        let s := updTeam x.s x.t.id fun t => setPort t q fun y =>
          { y with bound := some x.p.spx, base := base, w := n, wcode := bitsOf w.mod 4 3, d0 := signedOf 32 (fld a 2),
                   d1 := signedOf 32 (fld a 3), d2 := signedOf 32 (fld b 0), n0 := n0, n1 := n1, n2 := n2, pos := 0, fetched := [] }
        { x with s := s }.skip

/-- End a port's binding. -/
def unbind (y : Port) : Port := { y with bound := none, pos := 0, fetched := [] }

/-- QCFG.FREE (R221). -/
def execQcfgFree (w : JWord) (s : State) : Out :=
  issue (.qcfgFree w) {} s fun x =>
    let q := bitsOf w.mod 0 3
    match ((x.t.port q).map (·.bound)).getD none with
    | none => x.skip
    | some b =>
      if x.tp = 0 then x.skip
      else if b ≠ x.p.spx then x.trapT 0x08 1
      else { x with s := updTeam x.s x.t.id fun t => setPort t q unbind }.skip

/-- A value about a port (R222). -/
def qstatForm (i : Instr) (w : JWord) (f : Nat → Nat → Port → Nat) (s : State) : Out :=
  issue i { memory := true } s fun x =>
    let q := bitsOf w.mod 0 3
    let v := ((x.t.port q).map (f x.p.spx q)).getD 0
    x.compute 1 (x.threads.map fun t => (t, BitVec.ofNat 128 (v % 2 ^ 32))) id

/-- QSTAT.pos (R222). -/
def execQstatPos (w : JWord) (s : State) : Out := qstatForm (.qstatPos w) w (fun _ _ y => 8 * y.pos) s
/-- QSTAT.left (R222). DESIGN CHOICE: a value of 2^32, of a stream of as many elements, is written modulo 2^32, as .pos at its
end is (log 100). -/
def execQstatLeft (w : JWord) (s : State) : Out :=
  qstatForm (.qstatLeft w) w (fun _ _ y => if y.bound.isSome then y.total - 8 * y.pos else 0) s
/-- QSTAT.stat (R222). -/
def execQstatStat (w : JWord) (s : State) : Out :=
  qstatForm (.qstatStat w) w (fun me q y =>
    (if y.bound.isSome then 1 else 0) + (if y.bound = some me then 2 else 0) + (if 4 ≤ q then 4 else 0) +
    (if y.fetched.any fun g => g.any (·.2) then 8 else 0) + 256 * ((y.fetched.length + y.pushed.length) % 256)) s

/-- An element of a load stream as the pop delivers it (R208). -/
def streamValue (y : Port) (bs : List Byte) : Word :=
  (loadValue y.wcode (BitVec.ofNat 128 (ofBytesNat bs))).setWidth 32

/-- Read the elements of a group. -/
def fetchGroup (t : Team) (y : Port) : List (Want × List (Nat × Nat × Loc)) → State → Except Stop (State × List (Word × Bool))
  | [], s => .ok (s, [])
  | r :: rest, s =>
    match r.2 with
    | [(_, n, loc)] =>
      match readAt s t true loc n with
      | .error e => .error e
      | .ok (s, bs) => (fetchGroup t y rest s).map fun e => (e.1, (streamValue y bs, false) :: e.2)
    | _ => .error (.bad 1 0)

/-- STREAM_FETCH (R208): the next group that the port does not hold yet, with a deferred fault where it cannot be read; a
translation that is not cached is walked first (R399). DESIGN CHOICE: every fault of a load that is met in fetching ahead is
deferred, also bad data, protection and aperture faults (log 112). -/
def execStreamFetch (team port : Nat) (s : State) : Out :=
  match findTeam s team with
  | none => .next s
  | some t =>
    match t.port port with
    | none => .next s
    | some y =>
      let g := y.pos + y.fetched.length
      if t.st ≠ .resident ∨ 4 ≤ port ∨ y.total ≤ 8 * g ∨ 1024 < (y.fetched.length + 1) * 8 * y.w then .next s
      else
        match y.bound with
        | none => .next s
        | some spx =>
          let put := fun (s : State) (e : List (Word × Bool)) =>
            updTeam s team fun t => setPort t port fun y => { y with fetched := y.fetched ++ [e] }
          let deferred := (List.range 8).map fun _ => ((0 : Word), true)
          match checkAll s t spx .load (y.wants g) with
          | .ok rs =>
            let mine : List Acc := accsOf rs (fun _ => 0) fun _ => 0
            let own := ((t.spindle? spx).map (·.pend)).getD []
            if threadMeets own mine || pendMeets (fencedFor s { team := team, spx := spx } own) mine then .next s
            else
              match fetchGroup t y rs s with
              | .ok (s, e) => .next (put s e)
              | .error (.need line wr) => .next (wantLine s (.l2 t.die) line wr)
              | .error .wait => .next s
              | .error (.bad _ _) => .next (put s deferred)
          | .walk g _ _ => .next ((tlbWalk s t g).getD (put s deferred))
          | .trap _ _ _ _ => .next (put s deferred)

/-- STREAM_PUSH_PERFORM (R209): the oldest pushed group of a port. -/
def execStreamPushPerform (team port : Nat) (s : State) : Out :=
  match findTeam s team with
  | none => .next s
  | some t =>
    match (t.port port).bind (·.pushed.head?) with
    | none => .next s
    | some e =>
      match t.spindles.find? fun p => p.pend.any fun x => x.id == e.1 with
      | none => .next s
      | some p => execAccessDone { team := team, spx := p.spx } e.1 s

/-- Is a pending instruction one that an engine performs: a copy or an MMA? -/
def isEngine (x : Pend) : Bool := match x.kind with
  | .copy _ _ _ _ _ _ _ _ _ | .mma _ _ => true
  | _ => false

/-- A WAIT on sst has seen the scratchpad stores done whose counter has fallen (R239): for what engines read from the identifier
`next` on. A byte stays known while an engine's instruction from before that WAIT is pending. -/
def seenStores (next : Nat) (p : Spindle) : Spindle :=
  let open_ := fun (e : Torn) => p.pend.any fun y => y.id == e.id && y.paths.any fun q => q.1 == 3
  let mark := fun (e : Torn) => if open_ e ∨ e.seen.isSome then e else { e with seen := some next }
  let used := fun (e : Torn) => match e.seen with
    | none => true
    | some k => p.pend.any fun y => isEngine y && decide (y.id < k)
  { p with torn := (p.torn.map mark).filter used }

/-- WAIT (R223). -/
def execWait (w : JWord) (s : State) : Out :=
  issue (.wait w) { serial := true, memory := true } s fun x =>
    if x.tp = 0 then x.skip
    else
      if x.waitCount < ctrOf x.p w.min.toNat then x.stall 0
      else if w.min = 3 then x.next (seenStores x.s.nextId)
      else x.skip

/-! ## Atomics (R240-R246), ARRIVE.G (R256) -/

/-- ATOM and RED: the operation is MIN[6:3], the width MIN[2:0]. -/
def atomForm (i : Instr) (w : JWord) (red : Bool) (s : State) : Out :=
  let n := widthBytes (bitsOf w.min 0 3)
  let acq := jOrder w == 1 || jOrder w == 3
  memForm i .atomic s (wantAtom n) fun x rs =>
    let val := fun t => x.src w.b (n / 4) false t
    x.launch (.atom (bitsOf w.min 3 4) n (if red then 0x348 else w.d)) (!red) (red && !acq) acq
      (jOrder w == 2 || jOrder w == 3) (accsOf rs val fun _ => 0)

/-- ATOM.add (R241). -/
def execAtomAdd (w : JWord) (s : State) : Out := atomForm (.atomAdd w) w false s
/-- ATOM.min (R241). -/
def execAtomMin (w : JWord) (s : State) : Out := atomForm (.atomMin w) w false s
/-- ATOM.max (R241). -/
def execAtomMax (w : JWord) (s : State) : Out := atomForm (.atomMax w) w false s
/-- ATOM.and (R241). -/
def execAtomAnd (w : JWord) (s : State) : Out := atomForm (.atomAnd w) w false s
/-- ATOM.or (R241). -/
def execAtomOr (w : JWord) (s : State) : Out := atomForm (.atomOr w) w false s
/-- ATOM.xor (R241). -/
def execAtomXor (w : JWord) (s : State) : Out := atomForm (.atomXor w) w false s
/-- ATOM.exch (R241). -/
def execAtomExch (w : JWord) (s : State) : Out := atomForm (.atomExch w) w false s
/-- ATOM.fadd (R243). -/
def execAtomFadd (w : JWord) (s : State) : Out := atomForm (.atomFadd w) w false s
/-- ATOM.bfadd (R243). -/
def execAtomBfadd (w : JWord) (s : State) : Out := atomForm (.atomBfadd w) w false s
/-- RED.add (R241). -/
def execRedAdd (w : JWord) (s : State) : Out := atomForm (.redAdd w) w true s
/-- RED.min (R241). -/
def execRedMin (w : JWord) (s : State) : Out := atomForm (.redMin w) w true s
/-- RED.max (R241). -/
def execRedMax (w : JWord) (s : State) : Out := atomForm (.redMax w) w true s
/-- RED.and (R241). -/
def execRedAnd (w : JWord) (s : State) : Out := atomForm (.redAnd w) w true s
/-- RED.or (R241). -/
def execRedOr (w : JWord) (s : State) : Out := atomForm (.redOr w) w true s
/-- RED.xor (R241). -/
def execRedXor (w : JWord) (s : State) : Out := atomForm (.redXor w) w true s
/-- RED.fadd (R243). -/
def execRedFadd (w : JWord) (s : State) : Out := atomForm (.redFadd w) w true s
/-- RED.bfadd (R243). -/
def execRedBfadd (w : JWord) (s : State) : Out := atomForm (.redBfadd w) w true s

/-- ACAS (R242): C is MOD[26:17]. -/
def execAcas (w : JWord) (s : State) : Out :=
  let n := widthBytes w.min.toNat
  memForm (.acas w) .atomic s (wantAtom n) fun x rs =>
    x.launch (.acas n w.d) true false (jOrder w == 1 || jOrder w == 3) (jOrder w == 2 || jOrder w == 3)
      (accsOf rs (fun t => x.src w.b (n / 4) false t) fun t => x.src (jC17 w) (n / 4) false t)

end Sys2Proof.Machine
end

