-- ==== Sys2Proof/Machine/Barrier.lean ====
section
/-! DEFINITION. Sys2Proof/Machine/Barrier.lean: hardware barriers (R247-R253) and barrier objects (R254-R257). -/

namespace Sys2Proof.Machine

open Sys2Proof

/-! ## Hardware barriers -/

/-- Cluster number of a team in its grid. -/
def Team.clNo (t : Team) (g : Grid) : Nat := (t.vcy / 2 - g.y0 / 2) * (g.w / 2) + (t.vcx / 2 - g.x0 / 2)

/-- Barrier `id` at a level: 0 the team's, 1 the cluster's, 2 the die part's (R247). -/
def getBar (s : State) (t : Team) (level id : Nat) : Bar :=
  if level = 0 then t.bars.getD id default
  else
    match findGrid s t.grid with
    | none => default
    | some g =>
      if level = 1 then ((g.clusters.find? fun c => c.cl == t.clNo g).map fun c => c.bars.getD id default).getD default
      else ((g.parts.find? fun d => d.dix == dixOf g t.vcx t.vcy).map fun d => d.bars.getD id default).getD default

/-- Replace element `i` of a list of `n` barriers. -/
def setNth (n i : Nat) (b : Bar) (l : List Bar) : List Bar :=
  (List.range n).map fun k => if k = i then b else l.getD k default

def setBar (s : State) (t : Team) (level id : Nat) (b : Bar) : State :=
  if level = 0 then updTeam s t.id fun t => { t with bars := setNth 16 id b t.bars }
  else
    updGrid s t.grid fun g =>
      if level = 1 then
        { g with clusters := updWhere (fun c => c.cl == t.clNo g) (fun c => { c with bars := setNth 4 id b c.bars }) g.clusters }
      else
        { g with parts := updWhere (fun d => d.dix == dixOf g t.vcx t.vcy) (fun d => { d with bars := setNth 8 id b d.bars }) g.parts }

/-- Spindles of a team that have not retired; a team that has not started counts those it will have (R252). -/
def teamUnretired (s : State) (t : Team) : Nat :=
  match t.st with
  | .waiting => ((findGrid s t.grid).map fun g => (g.roles.map (·.spt)).sum).getD 0
  | .resident | .out => (t.spindles.filter fun p => !p.retired).length
  | _ => 0

/-- Unretired spindles of the unit of a level (R250). -/
def barUnit (s : State) (t : Team) (level : Nat) : Nat :=
  let mine := fun (u : Team) =>
    if level = 0 then u.id == t.id
    else if level = 1 then sameCluster u t
    else u.grid == t.grid &&
      ((findGrid s t.grid).map fun g => dixOf g u.vcx u.vcy == dixOf g t.vcx t.vcy).getD false
  ((s.teams.filter mine).map (teamUnretired s)).sum

/-- check of R250: a generation completes. -/
def barCheck (unit : Nat) (b : Bar) : Bar :=
  if (if b.exp ≠ 0 then b.exp else unit) ≤ b.arr then { b with gen := b.gen + 1, arr := 0 } else b

/-- arrive of R250, its count having matched. -/
def barArrive (unit cnt : Nat) (b : Bar) : Bar :=
  barCheck unit { b with exp := if b.arr = 0 then cnt else b.exp, arr := b.arr + 1 }

/-- Every barrier of a spindle's units is checked as it retires (R250, R252). -/
def checkBars (s : State) (t : Team) : State :=
  [0, 1, 2].foldl (fun s level => (List.range (barIds level)).foldl (fun s id =>
    match findTeam s t.id with
    | none => s
    | some t =>
      let b := getBar s t level id
      let b' := barCheck (barUnit s t level) b
      if b' = b then s else setBar s t level id b') s) s

/-- Fields of layout S. -/
def barId (w : JWord) : Nat := bitsOf w.mod 0 4
def barCount (w : JWord) : Nat := bitsOf w.mod 4 16

/-- Keep the fragment at its instruction, in a wait. -/
def Iss.waitIn (x : Iss) (st : FragSt) (eff : Spindle → Spindle) : State :=
  updFrag (x.commit x.nextPc eff) x.r fun f =>
    { f with pc := x.f.pc, fetched := x.f.fetched, replay := x.f.replay, st := st }

/-- The instruction a fragment waited at is finished. -/
def finishWait (s : State) (r : FragRef) : State :=
  updFrag s r fun f => fragStep s.turnNo (f.pc + 12) { f with st := .ready }

/-- An arrival (R250): trap 0x0E where the count differs; the release first, if any, as soon as it may be made; then what
follows, with the generation. -/
def arriveForm (i : Instr) (w : JWord) (level : Nat) (k : IssCls) (s : State) (go : Iss → Bar → Out) : Out :=
  issue i k s fun x =>
    let b := getBar x.s x.t level (barId w)
    if b.arr ≠ 0 ∧ barCount w ≠ b.exp then x.trapT 0x0E 2
    else
      let o := x.p.pend.filter pendOpen
      let rel := decide (2 ≤ jOrder w)
      if rel && !releaseNow x.s x.r.sp o (jScope w) then .next x.s
      else
        let s := if rel then updSp x.s x.r.sp (fenceOff (o.map (·.id)) (jScope w)) else x.s
        let s := setBar s x.t level (barId w) (barArrive (barUnit s x.t level) (barCount w) b)
        go { x with s := s } b

/-- The acquire scope of layout S: order 1 or 3. -/
def acqScope (w : JWord) : Option Nat := if jOrder w % 2 = 1 then some (jScope w) else none

/-- BAR (R250): issues under R57, arrives, and waits. -/
def barForm (i : Instr) (w : JWord) (level : Nat) (s : State) : Out :=
  arriveForm i w level { serial := true, memory := true, whole := 2 } s fun x b =>
    .next (x.waitIn (.barrier level (barId w) b.gen (acqScope w)) id)

/-- BAR.T (R250). -/
def execBarT (w : JWord) (s : State) : Out := barForm (.barT w) w 0 s
/-- BAR.C (R250). -/
def execBarC (w : JWord) (s : State) : Out := barForm (.barC w) w 1 s
/-- BAR.D (R250). -/
def execBarD (w : JWord) (s : State) : Out := barForm (.barD w) w 2 s

/-- ARRIVE (R250): D receives the generation it arrived in. -/
def arrForm (i : Instr) (w : JWord) (level : Nat) (s : State) : Out :=
  arriveForm i w level { memory := true, whole := 2 } s fun x b =>
    x.compute 1 [(0, b.gen.setWidth 128)] id

/-- ARRIVE.T (R250). -/
def execArriveT (w : JWord) (s : State) : Out := arrForm (.arriveT w) w 0 s
/-- ARRIVE.C (R250). -/
def execArriveC (w : JWord) (s : State) : Out := arrForm (.arriveC w) w 1 s
/-- ARRIVE.D (R250). -/
def execArriveD (w : JWord) (s : State) : Out := arrForm (.arriveD w) w 2 s

/-- WAITB (R250): it returns at once when the generation already differs. -/
def waitbForm (i : Instr) (w : JWord) (level : Nat) (s : State) : Out :=
  issue i { serial := true, memory := true } s fun x =>
    if x.tp = 0 then x.skip
    else
      let g := x.src1 w.a 0
      if (getBar x.s x.t level (barId w)).gen ≠ g then
        .next (match acqScope w with
          | some sc => acquireAt (x.commit x.nextPc id) x.t sc
          | none => x.commit x.nextPc id)
      else .next (x.waitIn (.barrier level (barId w) g (acqScope w)) id)

/-- WAITB.T (R250). -/
def execWaitbT (w : JWord) (s : State) : Out := waitbForm (.waitbT w) w 0 s
/-- WAITB.C (R250). -/
def execWaitbC (w : JWord) (s : State) : Out := waitbForm (.waitbC w) w 1 s
/-- WAITB.D (R250). -/
def execWaitbD (w : JWord) (s : State) : Out := waitbForm (.waitbD w) w 2 s

/-- BARRIER_RELEASE (R250, R251, R253): a fragment whose generation has completed leaves its wait and acquires. -/
def execBarrierRelease (r : FragRef) (s : State) : Out :=
  match findTeam s r.sp.team, findFrag s r with
  | some t, some f =>
    match f.st with
    | .barrier level id gen acq =>
      if t.st = .resident ∧ (getBar s t level id).gen ≠ gen then
        let s := finishWait s r
        .next (match acq with | some sc => acquireAt s t sc | none => s)
      else .next s
    | _ => .next s
  | _, _ => .next s

/-! ## Barrier objects -/

/-- The place of a barrier object: the checks of R256. -/
def Iss.boPlace (x : Iss) (k : AKind) (go : Want → Loc → Out) : Out :=
  let ea := x.src2 x.w.a 0
  let want : Want := { thread := (threadsOf x.tp).headD 0, ea := ea, n := 8, badLen := ea.toNat % 64 != 0 }
  match checkAll x.s x.t x.p.spx k [want] with
  | .trap c r _ _ => x.trap { cause := c, reason := r, tmask := x.tp, addr := ea }
  | .walk g ea _ => x.needWalk g ea x.tp
  | .ok [(_, [(_, _, .mem pa owner .coherent pte base size)])] => go want (.mem pa owner .coherent pte base size)
  | .ok _ => x.trap { cause := 5, reason := 3, tmask := x.tp, addr := ea }

/-- ARRIVE.G (R256). -/
def execArriveG (w : JWord) (s : State) : Out :=
  issue (.arriveG w) { memory := true } s fun x =>
    if x.tp = 0 then x.skip
    else
      x.boPlace .atomic fun want loc =>
        x.launch (.arriveG w.d) true false false (jOrder w == 2) (accsOf [(want, [(0, 8, loc)])] (fun _ => 0) fun _ => 0)

/-- What a BOWAIT's read must see performed first: its threads' own earlier accesses to the object, and stores that an
early release left ahead of it (R229, R231, R233). -/
def boBehind (s : State) (r : FragRef) (p : Spindle) (ea : BitVec 64) (loc : Loc) : Bool :=
  let mine : List Acc := [{ thread := 0, ea := ea, n := 64, part := 0, loc := loc, val := 0, val2 := 0 }]
  let threads := ((p.frag? r.frag).map (·.mask)).getD 0
  pendMeets (p.pend.filter fun y => y.frag == r.frag || y.tmask &&& threads != 0) mine || pendMeets (fencedFor s r.sp p.pend) mine

/-- BOWAIT_REREAD (R257): one atomic read of the object. -/
def execBowaitReread (r : FragRef) (s : State) : Out :=
  match findTeam s r.sp.team, findSp s r.sp, findFrag s r with
  | some t, some p, some f =>
    match f.st with
    | .bowait ea (.mem pa owner cls pte base size) target d chk acq =>
      if t.st ≠ .resident ∨ boBehind s r p ea (.mem pa owner cls pte base size) ∨ (isHbm pa = false ∧ sysUp s pa = false) then .next s
      else if isHbm pa && !pageDiscarded s pte && !mayRead s (.l2 t.die) (lineOf pa) then
        .next (wantLine s (.l2 t.die) (lineOf pa) false)
      else
        let word := f.fetched.getD 0
        let tm := takingPart p f (jUnpack word)
        let trap := fun (s : State) (c : Cond) => raiseTrap s r.sp r.frag (mkRec s t p.spx f.mask f.pc word { c with tmask := tm, addr := ea })
        if !pageDiscarded s pte && memBad s pa 64 then .next (trap s { cause := 0x0D, reason := 1, info := BitVec.ofNat 64 (badInfo pa) })
        else
          let s := if isHbm pa then served (l1Read (l1Read s t.die t.core pa) t.die t.core (pa + 32)) (.l2 t.die) (lineOf pa) else s
          let bs := if pageDiscarded s pte then List.replicate 64 0 else memBytes s owner pa 64
          let st := ofBytesNat ((bs.drop 12).take 4)
          if ofBytesNat (bs.take 8) < target.toNat ∧ st = 0 then .next s
          else
            let s := acquireAt s t acq
            if chk ∧ st ≠ 0 then .next (trap s { cause := 0x0E, reason := 3, info := BitVec.ofNat 64 st })
            else .next (finishWait (updSp s r.sp fun p => writeDst p d 1 0 (BitVec.ofNat 128 st)) r)
    | _ => .next s
  | _, _, _ => .next s

/-- BOWAIT (R257): its first read is made at once, where it can be; the others are the BOWAIT_REREAD events. -/
def execBowait (w : JWord) (s : State) : Out :=
  issue (.bowait w) { serial := true, memory := true } s fun x =>
    if x.tp = 0 then x.skip
    else
      x.boPlace .load fun want loc =>
        execBowaitReread x.r (x.waitIn (.bowait want.ea loc (x.src2 w.b 0) w.d (w.mod.getLsbD 0) (jScope w)) id)

end Sys2Proof.Machine
end

