-- ==== Sys2Proof/Machine/Dispense.lean ====
section
/-! DEFINITION. Sys2Proof/Machine/Dispense.lean: the Geyser's indices (R306-R309, R313), expert queues (R310-R312), expert
residency (R314-R319), the dispense forms (R320-R328) and their events. A form takes effect at its issue. -/

namespace Sys2Proof.Machine

open Sys2Proof

/-! ## Coordinates -/

/-- N of R306. -/
def Grid.count (g : Grid) : Nat := g.x * g.y * g.z
def Grid.yieldOn (g : Grid) : Bool := g.st == .yielding || g.st == .yielded
/-- Does the Lathe hold an ungranted index? -/
def Grid.ungranted (g : Grid) : Bool := !g.returned.isEmpty || decide (g.next < g.count)
def Grid.geyser (g : Grid) (die : Nat) : Geyser :=
  (g.geysers.find? fun x => x.die == die).getD { die := die, ranges := [], req := false }
def Grid.setGeyser (g : Grid) (x : Geyser) : Grid :=
  { g with geysers := if g.geysers.any (fun y => y.die == x.die) then updWhere (fun y => y.die == x.die) (fun _ => x) g.geysers
                      else g.geysers ++ [x] }
def Geyser.held (x : Geyser) : Nat := (x.ranges.map (·.2)).sum

/-- Put a range among held ones in ascending order, joined to the one it follows. -/
def addRange (r : Nat × Nat) : List (Nat × Nat) → List (Nat × Nat)
  | [] => [r]
  | x :: xs =>
    if x.1 + x.2 = r.1 then (x.1, x.2 + r.2) :: xs
    else if r.1 < x.1 then r :: x :: xs
    else x :: addRange r xs

/-- The next block the Lathe grants (R307): a piece of a returned range first. -/
def Grid.nextBlock (g : Grid) : Option ((Nat × Nat) × Grid) :=
  match g.returned with
  | (a, n) :: rest =>
    if n ≤ 64 then some ((a, n), { g with returned := rest })
    else some ((a, 64), { g with returned := (a + 64, n - 64) :: rest })
  | [] =>
    if g.next < g.count then
      let e := min ((g.next / 64 + 1) * 64) g.count
      some ((g.next, e - g.next), { g with next := e })
    else none

/-- Grant one block to a die's Geyser. -/
def Grid.grant (g : Grid) (die : Nat) : Grid :=
  match g.nextBlock with
  | some (r, g) => let x := g.geyser die; g.setGeyser { x with ranges := addRange r x.ranges }
  | none => g

/-- The admission grants (R307): two blocks to each die that holds a die part, in ascending order. -/
def Grid.admitGrants (g : Grid) : Grid :=
  ((List.range 8).filter fun d => g.parts.any fun p => p.die == d).foldl (fun g d => (g.grant d).grant d) g

/-- The lowest held index leaves a Geyser (R308). -/
def Geyser.take (x : Geyser) : Option (Nat × Geyser) :=
  match x.ranges with
  | (a, n) :: rest => some (a, { x with ranges := if n ≤ 1 then rest else (a + 1, n - 1) :: rest })
  | [] => none

/-- GEYSER_REFILL_REQUEST (R307): the request joins the end of the line. -/
def execGeyserRefillRequest (grid die : Nat) (s : State) : Out :=
  match findGrid s grid with
  | none => .next s
  | some g =>
    let x := g.geyser die
    if dieUp s die ∧ (g.st = .admitted ∨ g.st = .running) ∧ g.parts.any (fun p => p.die == die) ∧ x.held < 32 ∧ !x.req then
      .next (updGrid s grid fun g => { g with geysers := g.geysers.filter (fun y => y.die != die) ++ [{ x with req := true }] })
    else .next s

/-- REFILL_GRANT (R307): the oldest request of the grid receives the lowest ungranted indices. -/
def execRefillGrant (grid die : Nat) (s : State) : Out :=
  match findGrid s grid with
  | none => .next s
  | some g =>
    match g.geysers.find? (·.req) with
    | some x =>
      if x.die = die ∧ g.ungranted ∧ (g.st = .admitted ∨ g.st = .running) then
        .next (updGrid s grid fun g => (g.setGeyser { x with req := false }).grant die)
      else .next s
    | none => .next s

/-! ## Expert queues -/

def Grid.dieOfPart (g : Grid) (p : Nat) : Nat := ((g.parts.find? fun x => x.dix == p).map (·.die)).getD 0
def Grid.queueOf (g : Grid) (p e : Nat) : XQueue :=
  (g.queues.find? fun q => q.p == p && q.e == e).getD { p := p, e := e, head := 0, rows := [] }
def Grid.setQueue (g : Grid) (q : XQueue) : Grid :=
  let mine := fun (y : XQueue) => y.p == q.p && y.e == q.e
  { g with queues := if g.queues.any mine then updWhere mine (fun _ => q) g.queues else g.queues ++ [q] }
/-- Rows not yet dispensed. -/
def XQueue.waiting (q : XQueue) : Nat := q.rows.length - q.head

/-- A dispatch-list entry (Table 11-2) written in one action, a release at package scope; where its page is being migrated the
write waits, and one that fails is logged (R311). The row: ROW, CHOICE, STATE; and the instruction that waits for the write. -/
def putEntry (s : State) (g : Grid) (p e n : Nat) (row : Word × Nat × Nat) (by_ : Option Nat) : State :=
  let die := g.dieOfPart p
  let va := g.area.toNat + (p * g.experts + e) * g.cap * 8 + 8 * n
  let v := row.1.toNat + row.2.2 * 2 ^ 32 + row.2.1 * 2 ^ 48
  match devRange s die g.tenant .store va 8 with
  | .ok ps => devPut (.l2 die) ps (toBytes (BitVec.ofNat 64 v) 8) s
  | .error c =>
    let moving := c == (4, 1) && Config.migrating s.freeNo
    let s := { s with freeNo := s.freeNo + 1 }
    if moving then { s with listQ := s.listQ ++ [{ grid := g.id, p := p, e := e, n := n, row := row, by_ := by_ }] } else logError s 6 die 0xFFFF (BitVec.ofNat 32 e) 0

/-- The write of an entry, behind an earlier one of the same entry that waits. -/
def writeEntry (s : State) (g : Grid) (p e n : Nat) (row : Word × Nat × Nat) (by_ : Option Nat) : State :=
  let same := fun (x : ListWrite) => x.grid == g.id && x.p == p && x.e == e && x.n == n
  if s.listQ.any same then { s with listQ := s.listQ ++ [{ grid := g.id, p := p, e := e, n := n, row := row, by_ := by_ }] }
  else putEntry s g p e n row by_

/-- Does an instruction still wait for one of its entry writes? -/
def entriesWait (s : State) (id : Nat) : Bool := s.listQ.any fun x => x.by_ == some id

/-- Entry writes that waited for a migration try again, in their order. -/
def retryEntries (s : State) : State :=
  s.listQ.foldl (fun s x => match findGrid s x.grid with
    | some g => writeEntry s g x.p x.e x.n x.row x.by_
    | none => s) { s with listQ := [] }

/-- Entries of a tile take a STATE (R311, R312, R317, R322). -/
def setEntries (s : State) (grid p e base count st : Nat) (by_ : Option Nat) : State :=
  match findGrid s grid with
  | none => s
  | some g =>
    let q := g.queueOf p e
    (List.range count).foldl (fun s i =>
      match q.rows[base + i]? with
      | none => s
      | some row =>
        let s := updGrid s grid fun g =>
          let q := g.queueOf p e
          g.setQueue { q with rows := q.rows.set (base + i) (row.1, row.2.1, st) }
        writeEntry s g p e (base + i) (row.1, row.2.1, st) by_) s

/-- The undispensed rows of a queue that are dispensable: those up to the first whose entry is not written yet (R324). -/
def rowsOut (s : State) (grid : Nat) (q : XQueue) : Nat :=
  let open_ := fun (n : Nat) => s.listQ.any fun x => x.grid == grid && x.p == q.p && x.e == q.e && x.n == n && x.row.2.2 == 1
  (((List.range q.waiting).map (q.head + ·)).takeWhile fun n => !open_ n).length

/-- The queue a ragged tile comes from (R312), of queues with their numbers of rows: the most, then the lower DIX, then the lower
expert. -/
def bestQueue (qs : List (XQueue × Nat)) : Option (XQueue × Nat) :=
  qs.foldl (fun b q =>
    if q.2 = 0 then b
    else match b with
      | none => some q
      | some y =>
        if y.2 < q.2 ∨ (y.2 = q.2 ∧ (q.1.p < y.1.p ∨ (q.1.p = y.1.p ∧ q.1.e < y.1.e))) then some q else b) none

/-- What a die holds for a grid, of one expert or of all: re-entered and parked tiles, and queues. -/
def heldTiles (s : State) (die grid : Nat) (want : Option Nat) : List WaitTile :=
  ((findDie s die).map (·.waitQ)).getD [] |>.filter fun x => x.grid == grid && (match want with | some e => x.expert == e | none => true)
def queuesOn (g : Grid) (die : Nat) (want : Option Nat) : List XQueue :=
  g.queues.filter fun q => g.dieOfPart q.p == die && (match want with | some e => q.e == e | none => true)

/-- Take a tile for an instruction (R312): expert, DIX, row base, count; its entries take STATE 2. -/
def takeTile (s : State) (die grid : Nat) (want : Option Nat) (id : Nat) : Option (State × WaitTile) :=
  match (heldTiles s die grid want).find? (·.entered) with
  | some x =>
    let s := updDie s die fun d => { d with waitQ := d.waitQ.erase x }
    some (setEntries s grid x.dix x.expert x.base x.count 2 (some id), x)
  | none =>
    match (findGrid s grid).bind fun g => bestQueue ((queuesOn g die want).map fun q => (q, rowsOut s grid q)) with
    | none => none
    | some (q, rows) =>
      let n := min 64 rows
      let s := updGrid s grid fun g => g.setQueue { g.queueOf q.p q.e with head := q.head + n }
      some (setEntries s grid q.p q.e q.head n 2 (some id),
        { grid := grid, expert := q.e, dix := q.p, base := q.head, count := n, entered := true })

/-- Is every index of a grid retired, those granted to lost dies left out (R313, R329)? -/
def allRetired (s : State) (g : Grid) : Bool :=
  let lost := fun (d : Nat) => ((findDie s d).map (·.lost)).getD true
  let never := ((g.geysers.filter fun x => lost x.die).map Geyser.held).sum +
    (g.dispensed.filter fun e => lost e.2 && !g.retiredIx.contains e.1).length
  !g.ungranted && decide (g.count ≤ g.retiredIx.length + never)

/-! ## TFETCH -/

/-- The grid of a team; a firmware team has none, and its number names none. -/
def gridOf (s : State) (t : Team) : Grid := (findGrid s t.grid).getD default

/-- A status quad (R321). -/
def quad (a b c d : Nat) : BitVec 128 :=
  BitVec.ofNat 128 (a % 2 ^ 32 + b % 2 ^ 32 * 2 ^ 32 + c % 2 ^ 32 * 2 ^ 64 + d % 2 ^ 32 * 2 ^ 96)

/-- A dispense form's effect as a pending instruction: its result, and an acquire that is made as it completes. -/
def Iss.dispenseAs (x : Iss) (id n : Nat) (v : BitVec 128) (acq : Option Nat) : Out :=
  x.next fun p => addPend (x.pend id (.compute 0) false acq none [] []) (writeDst p x.w.d n 0 v)
def Iss.dispense (x : Iss) (n : Nat) (v : BitVec 128) (acq : Option Nat) : Out :=
  let (id, s) := fresh x.s
  { x with s := s }.dispenseAs id n v acq

/-- TFETCH (R313, R321): what each status delivers. -/
def tfetchForm (i : Instr) (w : JWord) (tile : Bool) (want : Iss → Option Nat) (s : State) : Out :=
  issue i { memory := true } s fun x =>
    let g := gridOf x.s x.t
    let e := want x
    let die := x.t.die
    let acq := if jAcq w then some (jScope w) else none
    if x.tp = 0 then x.skip
    else if tile ∧ g.mode = 0 then x.trapT 0x0E 4
    else if (match e with | some e => decide (g.experts ≤ e) | none => false) then x.trapT 0x0E 5
    else if g.yieldOn then
      { x with s := updTeam x.s x.t.id fun t => { t with sawYield := true } }.dispense 4 (quad 3 0 0 0) none
    else if !tile then
      if !g.ungranted && (g.geyser die).held == 0 then x.dispense 4 (quad 2 0 0 0) none
      else if g.held then x.dispense 4 (quad (4 + 512) 0 0 0) none
      else
        match (g.geyser die).take with
        | none => x.dispense 4 (quad (4 + 256) 0 0 0) none
        | some (k, y) =>
          let s := updGrid x.s x.t.grid fun g => { g.setGeyser y with dispensed := (k, die) :: g.dispensed }
          { x with s := s }.dispense 4 (quad 0 (k % g.x) (k / g.x % g.y) (k / (g.x * g.y))) acq
    else if allRetired x.s g && (heldTiles x.s die x.t.grid e).isEmpty && (queuesOn g die e).all (·.waiting == 0) then
      x.dispense 4 (quad 2 0 0 0) none
    else if g.held then x.dispense 4 (quad (4 + 512) 0 0 0) none
    else
      let (id, s) := fresh x.s
      match takeTile s die x.t.grid e id with
      | none => x.dispense 4 (quad (4 + 256) 0 0 0) none
      | some (s, y) => { x with s := s }.dispenseAs id 4 (quad (1 + y.dix * 2 ^ 16) y.expert y.base y.count) acq

/-- TFETCH (R321). -/
def execTfetch (w : JWord) (s : State) : Out := tfetchForm (.tfetch w) w false (fun _ => none) s
/-- TFETCH.X (R321). -/
def execTfetchX (w : JWord) (s : State) : Out := tfetchForm (.tfetchX w) w true (fun _ => none) s
/-- TFETCH.XE (R321). -/
def execTfetchXe (w : JWord) (s : State) : Out :=
  tfetchForm (.tfetchXe w) w true (fun x => some (x.src1 w.a 0).toNat) s

/-! ## TRETIRE and ROUTE -/

/-- The word of a 128-bit value. -/
def wordOf (v : BitVec 128) (i : Nat) : Nat := bitsOf v (32 * i) 32

/-- May a release of the form be made now (R231)? Stores that a narrow release passes are marked. -/
def Iss.release (x : Iss) (rel : Bool) : Option State :=
  if !rel then some x.s
  else
    let o := x.p.pend.filter pendOpen
    if releaseNow x.s x.r.sp o (jScope x.w) then some (updSp x.s x.r.sp (fenceOff (o.map (·.id)) (jScope x.w))) else none

/-- A form that raises gst and is done once its entries are written. -/
def Iss.entryForm (x : Iss) (id : Nat) (complete : Bool) (eff : Spindle → Spindle) : Out :=
  x.next fun p => addPend (x.pend id .dispense complete none none [1] []) (eff p)

/-- Is every entry of a tile dispensed (R322)? -/
def tileOut (g : Grid) (p e base count : Nat) : Bool :=
  (List.range count).all fun i => match (g.queueOf p e).rows[base + i]? with
    | some row => row.2.2 == 2
    | none => false

/-- An earlier ROUTE of the spindle is not done. -/
def routeOpen (p : Spindle) : Bool := p.pend.any fun y => y.kind == .dispense && jMaj y.word == 0x92 && y.paths.any (!·.2)

/-- TRETIRE (R322): it takes effect behind every earlier ROUTE of its spindle. -/
def execTretire (w : JWord) (s : State) : Out :=
  issue (.tretire w) { memory := true } s fun x =>
    if x.tp = 0 then x.skip
    else
      let g := gridOf x.s x.t
      let q := x.src w.a 4 false 0
      let st := wordOf q 0 % 256
      if 2 ≤ st ∧ st ≤ 4 then x.skip
      else if 5 ≤ st then x.trapT 0x0E 11
      else if st = 0 ∧ g.mode = 0 then x.skip
      else if routeOpen x.p then .next x.s
      else if x.ctrStops [1] then x.stall 0x40
      else
        match x.release (jRel w) with
        | none => .next x.s
        | some s =>
          let (id, s) := fresh s
          if st = 0 then
            let i := wordOf q 1 + g.x * (wordOf q 2 + g.y * wordOf q 3)
            if g.x ≤ wordOf q 1 ∨ g.y ≤ wordOf q 2 ∨ g.z ≤ wordOf q 3 ∨ g.retiredIx.contains i ∨
                !g.dispensed.any (fun e => e.1 == i) then x.trapT 0x0E 11
            else { x with s := updGrid s x.t.grid fun g => { g with retiredIx := i :: g.retiredIx } }.entryForm id true fun p => p
          else
            let p := wordOf q 0 / 2 ^ 16
            let e := wordOf q 1
            if !tileOut g p e (wordOf q 2) (wordOf q 3) then x.trapT 0x0E 11
            else if ((findDie x.s (g.dieOfPart p)).map (·.lost)).getD false then { x with s := s }.entryForm id true fun p => p
            else { x with s := setEntries s x.t.grid p e (wordOf q 2) (wordOf q 3) 4 (some id) }.entryForm id true fun p => p

/-- One row of ROUTE (R324): queued at the tail, or turned away by a full list or a lost die. -/
def routeRow (s : State) (id grid : Nat) (row : Word) (e p choice : Nat) : State × Bool :=
  match findGrid s grid with
  | none => (s, false)
  | some g =>
    let q := g.queueOf p e
    if q.rows.length < g.cap ∧ dieUp s (g.dieOfPart p) then
      let s := updGrid s grid fun g => g.setQueue { q with rows := q.rows ++ [(row, choice, 1)] }
      (writeEntry s g p e q.rows.length (row, choice, 1) (some id), true)
    else (s, false)

/-- ROUTE (R324). -/
def execRoute (w : JWord) (s : State) : Out :=
  issue (.route w) { memory := true } s fun x =>
    if x.tp = 0 then x.skip
    else
      let g := gridOf x.s x.t
      let ts := threadsOf x.tp
      let e := fun (t : Nat) => (x.src1 w.b t).toNat
      let p := fun (t : Nat) => (x.src1 (jC17 w) t).toNat
      if g.mode = 0 then x.trapT 0x0E 4
      else if g.count ≤ g.retiredIx.length then x.trapT 0x0E 6
      else if ts.any fun t => decide (g.experts ≤ e t ∨ g.parts.length ≤ p t) then x.trapT 0x0E 7
      else if x.ctrStops [1] then x.stall 0x40
      else
        match x.release (jRel w) with
        | none => .next x.s
        | some s =>
          let (id, s) := fresh s
          let r := ts.foldl (fun (a : State × List (Nat × Bool)) t =>
            let b := routeRow a.1 id x.t.grid (x.src1 w.a t) (e t) (p t) (bitsOf w.mod 8 3)
            (b.1, a.2 ++ [(t, b.2)])) (s, [])
          let pn := bitsOf w.mod 11 6
          { x with s := r.1 }.entryForm id (pn == 63) fun q =>
            if pn = 63 then q else r.2.foldl (fun q (e : Nat × Bool) => pset q pn e.1 e.2) q

/-! ## Expert residency -/

def ertOf (d : Die) (e : Nat) : Ert :=
  (d.ert.find? fun x => x.e == e).getD { e := e, state := 0, use := false, slot := 0, park := 0, ref := 0, wantSlot := false }
/-- Replace an entry; an absent one that nobody refers to is not listed. -/
def setErt (d : Die) (x : Ert) : Die :=
  let idle := x.state = 0 ∧ x.ref = 0 ∧ x.park = 0
  { d with ert := if idle then d.ert.filter (fun y => y.e != x.e)
                  else if d.ert.any (fun y => y.e == x.e) then updWhere (fun y => y.e == x.e) (fun _ => x) d.ert
                  else d.ert ++ [x] }

/-- The entry that holds a slot. -/
def slotHolder (d : Die) (i : Nat) : Option Ert :=
  d.ert.find? fun x => (x.state == 1 || x.state == 2) && !x.wantSlot && x.slot == i

/-- The clock search of R318. -/
def clockSearch : Nat → Die → Option Nat × Die
  | 0, d => (none, d)
  | k + 1, d =>
    let i := d.hand
    let d := { d with hand := (d.hand + 1) % max 1 d.exns }
    match slotHolder d i with
    | none => (some i, d)
    | some x =>
      if x.state = 1 then clockSearch k d
      else if x.ref = 0 ∧ !x.use then (some i, setErt d { x with state := 0, slot := 0, use := false })
      else if x.ref = 0 then clockSearch k (setErt d { x with use := false })
      else clockSearch k d

/-- A loading entry looks for a slot, and waits where there is none (R318). -/
def seekSlot (d : Die) (e : Nat) : Die :=
  match clockSearch (2 * d.exns) d with
  | (some i, d) => setErt d { ertOf d e with slot := i, wantSlot := false }
  | (none, d) => setErt d { ertOf d e with wantSlot := true }

/-- An absent entry begins loading (R316). -/
def beginLoad (d : Die) (e : Nat) : Die := seekSlot (setErt d { ertOf d e with state := 1, wantSlot := true }) e

/-- The searches that wait run again, oldest first (R318). -/
def retrySlots (d : Die) : Die := ((d.ert.filter (·.wantSlot)).map (·.e)).foldl seekSlot d

/-- A directory entry (R314): source, length, kind, I/O die; none where it cannot be read. DESIGN CHOICE: EXDIR, EXSLB and a CXL
source are global addresses of the tenant in EXOWN (log 115). -/
def dirEntry (s : State) (d : Die) (e : Nat) : Option (Nat × Nat × Nat × Nat) :=
  match devRange s d.id d.exown .load (d.exdir.toNat + 16 * e) 16 with
  | .error _ => none
  | .ok ps =>
    if devBad s ps then none
    else
      let bs := devRead s ps
      let c := fieldAt bs 12 4
      some (fieldAt bs 0 8, fieldAt bs 8 4, c % 4, natBits c 2 1)

/-- What EXACQ and ERT_PRELOAD do to an absent entry (Table 11-5). DESIGN CHOICE: an entry of the unnamed kind 3, or one that
cannot be read, begins loading, and its page-in fails (log 95). -/
def loadOrFail (s : State) (die e : Nat) : State :=
  match findDie s die with
  | none => s
  | some d =>
    match dirEntry s d e with
    | some (_, _, 0, _) => updDie s die fun d => setErt d { ertOf d e with state := 3 }
    | _ => updDie s die fun d => beginLoad d e

/-- A parked expert's tiles re-enter, as it leaves the loading state (R317). -/
def reenter (d : Die) (e : Nat) : Die :=
  { d with waitQ := updWhere (fun x => x.expert == e) (fun x => { x with entered := true }) d.waitQ }

/-- PAGE_IN_ERROR (R316). -/
def failPageIn (s : State) (die e : Nat) : State :=
  logError (updDie s die fun d => reenter (setErt d { ertOf d e with state := 3, slot := 0, park := 0, use := false }) e) 3 die
    0xFFFF (BitVec.ofNat 32 e) 0

/-- The bytes of a page-in's source (R319): a CXL page, or flash. -/
def pageSource (s : State) (d : Die) (src len kind iod : Nat) : Option (List Byte) :=
  if kind = 1 then
    match devRange s d.id d.exown .load src len with
    | .error _ => none
    | .ok ps =>
      let up := fun (p : DLoc) => paKind p.pa == 1 && s.ready.getLsbD (11 + natBits p.pa 47 1) && s.ready.getLsbD 14
      if src % 4096 ≠ 0 ∨ devBad s ps ∨ !ps.all up then none else some (devRead s ps)
  else if kind = 2 then
    let nsid := src / 2 ^ 56
    let off := src % 2 ^ 56
    if nsid = 0 ∨ off % 4096 ≠ 0 ∨ !s.ready.getLsbD (11 + iod) ∨ !s.ready.getLsbD 15 then none
    else
      let mine := s.flash.filter fun (e : Nat × Nat × Nat × Byte) => e.1 == iod && e.2.1 == nsid
      some ((List.range len).map fun i => ((mine.find? fun e => e.2.2.1 == off + i).map fun e => e.2.2.2).getD 0)
  else none

/-- The page-in of a loading entry (R319): the new state, or none where it fails. DESIGN CHOICE: the directory entry is read
as it stands when the page-in completes (log 96). -/
def pageIn (s : State) (d : Die) (x : Ert) : Option State :=
  match dirEntry s d x.e with
  | none => none
  | some (src, len, kind, iod) =>
    let n := d.exsls.toNat
    match pageSource s d src len kind iod, devRange s d.id d.exown .store (d.exslb.toNat + x.slot * n) n with
    | some bs, .ok ps =>
      if len % 4096 ≠ 0 ∨ n < len ∨ !ps.all (fun p => isHbm p.pa) then none
      else
        let h := Holder.dma (if kind = 1 then natBits (((devRange s d.id d.exown .load src len).toOption.getD []).headD default).pa 47 1 else iod)
        some (devPut h ps (bs ++ List.replicate (n - len) 0) s)
    | _, _ => none

/-- PAGE_IN_COMPLETE (R316, R319). -/
def execPageInComplete (die expert : Nat) (s : State) : Out :=
  match findDie s die with
  | none => .next s
  | some d =>
    let x := ertOf d expert
    if x.state ≠ 1 ∨ x.wantSlot ∨ d.lost then .next s
    else
      match pageIn s d x with
      | some s => .next (updDie s die fun d => reenter (setErt d { x with state := 2, use := true, park := 0 }) expert)
      | none => .next (failPageIn s die expert)

/-- PAGE_IN_ERROR (R316). -/
def execPageInError (die expert : Nat) (s : State) : Out :=
  match findDie s die with
  | none => .next s
  | some d =>
    let x := ertOf d expert
    if x.state ≠ 1 ∨ x.wantSlot ∨ d.lost then .next s else .next (failPageIn s die expert)

/-- References that a grid holds on a die's expert (R327). -/
def bumpRef (g : Grid) (die e : Nat) (up : Bool) : Grid :=
  let mine := fun (r : Nat × Nat × Nat) => r.1 == die && r.2.1 == e
  let n := ((g.refs.find? mine).map (·.2.2)).getD 0
  { g with refs := (g.refs.filter fun r => !mine r) ++ [(die, e, if up then n + 1 else n - 1)] }

/-- EXACQ (R326). -/
def execExacq (w : JWord) (s : State) : Out :=
  issue (.exacq w) { memory := true } s fun x =>
    if x.tp = 0 then x.skip
    else
      let g := gridOf x.s x.t
      let e := (x.src1 w.a 0).toNat
      let tile := (opnd w.b).kd == .s
      let q := x.src w.b 4 false 0
      match findDie x.s x.t.die with
      | none => x.skip
      | some d =>
        let y := ertOf d e
        if d.exns = 0 ∨ teamTenant x.s x.t ≠ d.exown then x.trapT 0x05 10
        else if 1024 ≤ e then x.trapT 0x0E 5
        else if tile ∧ (wordOf q 0 % 256 ≠ 1 ∨ wordOf q 1 ≠ e) then x.trapT 0x0E 8
        else if y.state = 2 then
          if y.ref = 65535 then x.trapT 0x0E 9
          else
            let s := updDie x.s d.id fun d => setErt d { y with ref := y.ref + 1, use := true }
            let s := updGrid s x.t.grid fun g => bumpRef g d.id e true
            let a := (d.exslb.toNat + y.slot * d.exsls.toNat) % 2 ^ 64
            { x with s := s }.dispense 4 (quad 0 0 a (a / 2 ^ 32)) (some 4)
        else if y.state = 3 then x.dispense 4 (quad 2 0 0 0) none
        else
          let s := if y.state = 0 then loadOrFail x.s d.id e else x.s
          let d' := (findDie s d.id).getD d
          if (ertOf d' e).state = 3 then { x with s := s }.dispense 4 (quad 2 0 0 0) none
          else
            let park := tile && decide (d'.waitQ.length < 4096)
            let started := decide (y.state = 0)
            let dix := wordOf q 0 / 2 ^ 16
            let s := if park then
                let z : WaitTile := { grid := x.t.grid, expert := e, dix := dix, base := wordOf q 2, count := wordOf q 3, entered := false }
                let s := updDie s d.id fun d =>
                  let y := ertOf d e
                  setErt { d with waitQ := d.waitQ ++ [z] } { y with park := y.park + 1 }
                setEntries s x.t.grid dix e (wordOf q 2) (wordOf q 3) 3 none
              else s
            { x with s := s }.dispense 4 (quad 1 ((if park then 1 else 0) + (if started then 2 else 0)) 0 0) none

/-- Is every earlier load and copy of a spindle done (R327)? -/
def loadsDone (p : Spindle) : Bool :=
  p.pend.all fun y => match y.kind with
    | .load _ _ | .copy _ _ _ _ _ _ _ _ _ => y.complete && y.paths.all (·.2)
    | _ => true

/-- EXREL (R327). -/
def execExrel (w : JWord) (s : State) : Out :=
  issue (.exrel w) { memory := true } s fun x =>
    if x.tp = 0 then x.skip
    else
      let e := (x.src1 w.a 0).toNat
      match findDie x.s x.t.die with
      | none => x.skip
      | some d =>
        let y := ertOf d e
        if !loadsDone x.p then .next x.s
        else if 1024 ≤ e then x.trapT 0x0E 5
        else if y.ref = 0 then x.trapT 0x0E 10
        else
          let s := updDie x.s d.id fun d =>
            let d := setErt d { y with ref := y.ref - 1 }
            if y.ref = 1 then retrySlots d else d
          let s := updGrid s x.t.grid fun g => bumpRef g d.id e false
          { x with s := s }.dispense 0 0 none

/-- A grid that ends, or loses a die, gives back the references that it still holds (R327). A search that waits does not run
again for it: only an EXREL starts one (R318). -/
def dropRefs (s : State) (grid : Nat) : State :=
  let refs := ((findGrid s grid).map (·.refs)).getD []
  let s := refs.foldl (fun s r => updDie s r.1 fun d => let y := ertOf d r.2.1; setErt d { y with ref := y.ref - r.2.2 }) s
  updGrid s grid fun g => { g with refs := [] }

/-- A grid that ends takes its tiles and references with it (R317, R327). -/
def dropGridTiles (s : State) (grid : Nat) : State :=
  let s := { s with dies := s.dies.map fun d =>
    let gone := d.waitQ.filter fun x => x.grid == grid && !x.entered
    let d := gone.foldl (fun d x => let y := ertOf d x.expert; setErt d { y with park := y.park - 1 }) d
    { d with waitQ := d.waitQ.filter fun x => x.grid != grid } }
  dropRefs s grid

/-! ## DQSTAT (R328) -/

def dqForm (i : Instr) (w : JWord) (f : Iss → Nat → Nat → Option (Nat × Nat)) (s : State) : Out :=
  issue i { memory := true } s fun x =>
    if x.tp = 0 then x.skip
    else
      match f x (x.src1 w.a 0).toNat (x.src1 w.b 0).toNat with
      | none => x.trapT 0x0E 5
      | some (a, b) => x.dispense 2 (quad a b 0 0) none

/-- DQSTAT.Q (R328). DESIGN CHOICE: a Mode 0 grid has no queue, so that every expert is out of range (log 97). -/
def execDqstatQ (w : JWord) (s : State) : Out :=
  dqForm (.dqstatQ w) w (fun x e p =>
    let g := gridOf x.s x.t
    if (if g.mode = 0 then 0 else g.experts) ≤ e ∨ g.parts.length ≤ p then none
    else
      let q := g.queueOf p e
      let tiles := (heldTiles x.s (g.dieOfPart p) x.t.grid (some e)).filter fun y => y.dix == p
      some (q.rows.length, q.waiting % 2 ^ 16 + tiles.length * 2 ^ 16)) s

/-- The bits of an ERT entry (Table 11-4). -/
def ertBits (x : Ert) : Nat :=
  x.state * 2 ^ 62 + (if x.use then 2 ^ 61 else 0) + x.slot * 2 ^ 48 + x.park % 2 ^ 16 * 2 ^ 16 + x.ref % 2 ^ 16

/-- DQSTAT.ERT (R328). -/
def execDqstatErt (w : JWord) (s : State) : Out :=
  dqForm (.dqstatErt w) w (fun x e p =>
    if 1024 ≤ e ∨ max 1 (gridOf x.s x.t).parts.length ≤ p then none
    else
      let v := ((findDie x.s x.t.die).map fun d => ertBits (ertOf d e)).getD 0
      some (v, v / 2 ^ 32)) s

/-- DQSTAT.GY (R328). -/
def execDqstatGy (w : JWord) (s : State) : Out :=
  dqForm (.dqstatGy w) w (fun x _ _ =>
    let g := gridOf x.s x.t
    some ((g.geyser x.t.die).held, g.dispensed.length - g.retiredIx.length)) s

/-- DQSTAT.HAND (R328). -/
def execDqstatHand (w : JWord) (s : State) : Out :=
  dqForm (.dqstatHand w) w (fun x _ _ =>
    match findDie x.s x.t.die with
    | none => some (0, 0)
    | some d =>
      let free := ((List.range d.exns).filter fun i => (slotHolder d i).isNone).length
      some (d.hand, 4096 - d.waitQ.length + free * 2 ^ 16)) s

end Sys2Proof.Machine
end

