-- ==== Sys2Proof/Machine/Luanil.lean ====
section
/-! DEFINITION. Sys2Proof/Machine/Luanil.lean: Luanil contexts and instructions (R353-R382): slots, arrivals, the combining
step of R341, and the twenty-one instructions with their events CONTEXT_AGED and FWD_WRITE_PERFORMED. A context is named by
the number of its port unit (R356). -/

namespace Sys2Proof.Machine

open Sys2Proof

/-! ## The combining step (R341) -/

/-- A BF16 pattern widened exactly; a NaN becomes the canonical one (R136). -/
def bfWiden (x : Nat) : Word :=
  if x / 2 ^ 7 % 2 ^ 8 = 0xFF ∧ x % 2 ^ 7 ≠ 0 then 0x7FC00000 else BitVec.ofNat 32 (x % 2 ^ 16 * 2 ^ 16)
/-- An FP32 pattern rounded to BF16 with RNE, without saturation (R140, R143). -/
def bfNarrow (x : Word) : Nat := (conv rne 0 .bf16 (Fmt.f32.read x.toNat)).bits

/-- Order of FP32 patterns with -0 < +0. -/
def fkey (x : Word) : Nat := if x.getLsbD 31 then 2 ^ 32 - 1 - x.toNat else x.toNat + 2 ^ 31

/-- add, max or min of R341: function 0, 1, 2. -/
def combStep (f : Nat) (a b : Word) : Word :=
  if (Fmt.f32.read a.toNat).isNan || (Fmt.f32.read b.toNat).isNan then 0x7FC00000
  else if f = 0 then BitVec.ofNat 32 (addRne .f32 a.toNat b.toNat)
  else if f = 1 then (if fkey a < fkey b then b else a)
  else (if fkey a < fkey b then a else b)

/-- Element `i` of typed data as FP32. -/
def elemAt (ty : Nat) (data : List Byte) (i : Nat) : Word :=
  if ty = 0 then BitVec.ofNat 32 (fieldAt data (4 * i) 4) else bfWiden (fieldAt data (2 * i) 2)
def elemsOf (ty : Nat) (data : List Byte) (n : Nat) : List Word := (List.range n).map (elemAt ty data)

/-- FP32 elements as bytes of an output type. -/
def typeBytes (ty : Nat) (xs : List Word) : List Byte :=
  if ty = 0 then wordBytes xs else xs.flatMap fun x => toBytes (BitVec.ofNat 16 (bfNarrow x)) 2

/-! ## Collective kinds (R338, R339) -/

def Block.kind (b : Block) : Nat := bitsOf b.op 0 8
def Block.func (b : Block) : Nat := bitsOf b.op 8 8
def Block.root (b : Block) : Nat := bitsOf b.op 16 16
def Block.ity (b : Block) : Nat := bitsOf b.ty 0 8
def Block.oty (b : Block) : Nat := bitsOf b.ty 8 8
def Block.gated (b : Block) : Bool := b.ty.getLsbD 16
def Block.restart (b : Block) : Bool := b.ty.getLsbD 17
def Block.reduces (b : Block) : Bool := b.kind == 0 || b.kind == 1 || b.kind == 4
/-- Elements per source chunk, chunks, and elements of chunk c. -/
def Block.per (b : Block) : Nat := b.ch.toNat / tyBytes b.ity
def Block.chunks (b : Block) : Nat := (b.n.toNat * tyBytes b.ity + b.ch.toNat - 1) / b.ch.toNat
def Block.len (b : Block) (c : Nat) : Nat := min b.per (b.n.toNat - c * b.per)

/-- Destination elements of rank r derived from source chunk c (Table 12-4): destination index, source rank (none for a
combination), source index within the chunk. -/
def Block.dests (b : Block) (m r c : Nat) : List (Nat × Option Nat × Nat) :=
  let n := b.n.toNat
  let sh := n / max 1 m
  let is := List.range (b.len c)
  let lo := c * b.per
  if b.kind = 0 then is.map fun i => (lo + i, none, i)
  else if b.kind = 1 then (is.filter fun i => (lo + i) / max 1 sh == r).map fun i => (lo + i - r * sh, none, i)
  else if b.kind = 2 then (List.range m).flatMap fun q => is.map fun i => (q * n + lo + i, some q, i)
  else if b.kind = 3 then is.map fun i => (lo + i, some b.root, i)
  else if b.kind = 4 then (if r = b.root then is.map fun i => (lo + i, none, i) else [])
  else (List.range m).flatMap fun q => (is.filter fun i => (lo + i) / max 1 sh == r).map fun i => (q * sh + (lo + i - r * sh), some q, i)

/-- Neighbouring elements joined: byte offset and bytes. -/
def joinRuns (wo : Nat) (l : List (Nat × List Byte)) : List (Nat × List Byte) :=
  (l.foldl (fun (acc : List (Nat × List Byte)) e => match acc with
    | (o, bs) :: rest => if o + bs.length = e.1 * wo then (o, bs ++ e.2) :: rest else (e.1 * wo, e.2) :: acc
    | [] => [(e.1 * wo, e.2)]) []).reverse

/-! ## Contexts -/

/-- E(ck) of Table 13-2. -/
def Ctx.e (x : Ctx) : Nat := if x.ck + 1 = x.nc then x.le else x.ce
/-- Value of KEY, or of the key register it names (R367). -/
def Ctx.key (x : Ctx) (w : LWord) : Nat := if w.flags.getLsbD 5 then (mget x.ks (bitsOf w.key 0 3)).toNat else w.key.toNat
def Ctx.base (x : Ctx) (w : LWord) : Nat :=
  let b := bitsOf w.flags 0 2
  (if b = 0 then x.b0 else if b = 1 then x.b1 else if b = 2 then x.b2 else x.b3).toNat
def maskBits (m : Word) : List Nat := (List.range 32).filter fun i => m.getLsbD i

/-- The run of one instruction for the context that acts. -/
def luanil (s : State) (body : Ctx → Out) : Out :=
  match s.cur with
  | .ctx u c => match findCtx s u c with
    | some x => body x
    | none => .fault .noContext
  | _ => .fault .noContext

/-- The context goes on at an address, changed by a function. -/
def Ctx.goto (x : Ctx) (s : State) (pc : Nat) (f : Ctx → Ctx) : Out :=
  .next (updCtx s x.unit x.c fun y => { f y with pc := pc % 4096, readyFor := 0, aged := false, used := s.turnNo })
def Ctx.next (x : Ctx) (s : State) (f : Ctx → Ctx) : Out := x.goto s (x.pc + 1) f

def findInst (s : State) (g k : Nat) : Option Inst := s.insts.find? fun x => x.group == g && x.k == k
/-- Some member of an instance is suspended, its block in or not (R346). -/
def instOut (s : State) (i : Inst) : Bool := (findGrp s i.group).any (groupOut s)
def updInst (s : State) (g k : Nat) (f : Inst → Inst) : State :=
  { s with insts := updWhere (fun x => x.group == g && x.k == k) f s.insts }

/-- Flags of an instance's BO updates (R345, R346). -/
def Inst.flags (i : Inst) : Nat := (if i.spilled then 1 else 0) + (if i.suspended then 2 else 0)

/-- The updater of an owner's BO updates: the port of its context (R254), any of the ports where no context runs (log 26). -/
def updaterOf (s : State) (o : Owner) : Word :=
  match ownerCtx s o with
  | some x => BitVec.ofNat 32 (portNo x.unit)
  | none => BitVec.ofNat 32 (portNo (Config.freePick s.freeNo 0 % 27))

/-- Post to the BO of one member (R339, R346). -/
def memberPost (s : State) (i : Inst) (m : Member) (inc status : Nat) : State :=
  let s' := postBo s .abuf (rootDie s) m.tenant m.blk.bo.toNat inc status i.flags (updaterOf s (.inst i.group i.k))
  { s' with freeNo := s.freeNo + 1 }

/-- LW of Table 12-6: the lowest chunk not recorded. -/
def lowest (done : List Nat) : Nat → Nat → Nat
  | 0, k => k
  | f + 1, k => if done.contains k then lowest done f (k + 1) else k

/-- The 36 bytes of a progress vector that are not reserved (Table 12-6, R8). -/
def pvBytes (k : Nat) (m : Member) : List Byte :=
  toBytes (BitVec.ofNat 64 k) 8 ++ toBytes (BitVec.ofNat 64 (lowest m.done m.done.length 0)) 8 ++
  toBytes (BitVec.ofNat 64 m.done.length) 8 ++ toBytes (BitVec.ofNat 64 m.ready) 8 ++ toBytes (BitVec.ofNat 32 m.state) 4

/-- A member's progress vector written, where it is coherent memory (R348). -/
def putPv (s : State) (k : Nat) (m : Member) : State :=
  if (devCoherent s (rootDie s) m.tenant .store m.blk.pv.toNat 64).isOk then
    devSet s .abuf (rootDie s) m.tenant m.blk.pv.toNat (pvBytes k m)
  else s

/-- Does a FILL of a member's source wait for its gate (R352, R373)? -/
def gateShut (x : Ctx) (m : Member) : Bool := m.blk.gated && decide (m.ready ≤ x.ck)

/-- The members of an instance in ascending rank order. -/
def rankOrder (g : Grp) (i : Inst) : List Member := (List.range g.mloc).filterMap fun j => i.members.find? fun m => m.rank == g.rbase + j

/-- What an instance's chunk needs of another package: its arrival (log 33). -/
def remoteArr (s : State) (o : Owner) (c q : Nat) : Option Arrival :=
  s.arrivals.find? fun a => a.owner == some o && a.chunk == c && a.pkg == q

/-- The other packages of a group. -/
def peersOf (g : Grp) : List Nat := (List.range g.p).filter (· != g.q)

/-- The members whose source an instance reads: of a BROADCAST the root's alone (Table 12-4). -/
def readMembers (g : Grp) (i : Inst) : List Member :=
  (rankOrder g i).filter fun m => m.blk.kind != 3 || m.rank == m.blk.root

/-- The arrivals from other packages that chunk c needs: all; of a BROADCAST whose root is elsewhere, the root's. -/
def peerArrs (s : State) (g : Grp) (i : Inst) (c : Nat) : List (Option Arrival) :=
  let all := (peersOf g).map (remoteArr s (.inst i.group i.k) c)
  match i.members.head? with
  | none => all
  | some m => if m.blk.kind ≠ 3 then all else if (readMembers g i).isEmpty then [(all.filterMap id).head?] else []

/-- Have some, but not all, of the ranks that a running instance's chunk needs arrived at it? A local rank that has nothing to give
has. -/
def chunkWaits (s : State) (i : Inst) (g : Grp) : Bool :=
  match ownerCtx s (.inst i.group i.k) with
  | none => false
  | some x =>
    let here := (readMembers g i).map (fun m => !gateShut x m) ++ (peerArrs s g i x.ck).map Option.isSome
    (here.any id || (readMembers g i).isEmpty) && !here.all id

/-- Does an instance wait for ranks, while every team that speaks for one is resident (R347)? Not while it waits for a context
(R359). -/
def instWaits (s : State) (i : Inst) : Bool :=
  match findGrp s i.group with
  | none => false
  | some g => !groupAway s g &&
      ((i.state == 1 && !i.checked && (decide (i.members.length < g.mloc) || decide (1 < g.p))) || (i.state == 2 && chunkWaits s i g))

/-- Has an instance's member timeout passed (R346, R347, R382)? -/
def instLate (s : State) (i : Inst) : Bool :=
  (instWaits s i && decide (timeoutCycles s i.group < i.timer)) || sendLate s (.inst i.group i.k) i.group

/-- An instance ends with a status, and a reason for status 4 (R346, R382); its members' progress vectors read failed (R351). -/
def endInst (s : State) (g k status reason : Nat) : State :=
  match findInst s g k with
  | none => s
  | some i =>
    let st := lowStatus (instLate s i) status
    let s := i.members.foldl (fun s m => memberPost (putPv s k { m with state := 5 }) i m 0 st) s
    updInst (endOwner s (.inst g k) false) g k fun i => { i with state := 5, reason := reason }

/-- A context's owner ends with a status. -/
def endWith (s : State) (o : Owner) (status : Nat) : State :=
  match o with
  | .window w => winEnd s w status
  | .inst g k => endInst s g k status 0

/-- A context faults (R368): the fault log receives the context, its pc and the cause; the owner ends. -/
def ctxFault (s : State) (x : Ctx) (cause : CtxCause) : Out :=
  let s := { s with ctxFaults := s.ctxFaults ++ [{ unit := x.unit, c := x.c, pc := x.pc, cause := cause }] }
  match x.owner with
  | .window w => .next (winFail s w 1)
  | .inst g k => .next (endInst s g k 4 1)

/-- A chunk between a context and a member's memory, checked (R344): at its first failure in a chunk the step is made once more, and a
second one ends the owner. -/
def pathChecked (s : State) (x : Ctx) (go : Out) : Out :=
  if !x.pathBad then go
  else
    let s := logError s 4 8 0xFFFF (BitVec.ofNat 32 (portNo x.unit)) 0
    if x.retried.contains 254 then .next (endWith s x.owner 3)
    else .next (updCtx s x.unit x.c fun y => { y with retried := 254 :: y.retried, pathBad := false })

/-- A memory access of a context fails (R368): it waits where the page is being migrated (log 94), else the context faults. -/
def ctxMem (s : State) (x : Ctx) (e : Nat × Nat) : Out :=
  let t := { s with freeNo := s.freeNo + 1 }
  if e = (4, 1) ∧ Config.migrating s.freeNo then .next t else ctxFault t x .memory

/-- The window of a context. -/
def Ctx.win? (x : Ctx) (s : State) : Option Win := match x.owner with
  | .window w => findWin s w
  | _ => none
/-- The group of a context: its instance's, or the one that WBIND names. -/
def Ctx.grp? (x : Ctx) (s : State) : Option Grp := match x.owner with
  | .window w => (findWin s w).bind fun y => findGrp s y.wgroup
  | .inst g _ => findGrp s g
/-- Members that a member mask or block may reach. -/
def Ctx.members (x : Ctx) (s : State) : Nat := match x.owner with
  | .window w => ((findWin s w).map (winMembers s)).getD 0
  | .inst g _ => ((findGrp s g).map (·.mloc)).getD 0
/-- Function of the owner (FUNC 3). -/
def Ctx.func (x : Ctx) (s : State) (f : Nat) : Nat :=
  if f < 3 then f
  else match x.owner with
    | .window w => ((findWin s w).map (·.func)).getD 0
    | .inst g k => ((findInst s g k).bind fun i => i.members.head?.map fun m => bitsOf m.blk.op 8 8).getD 0

/-- The member of local rank RBASE + j of a context's instance. -/
def Ctx.member? (x : Ctx) (s : State) (j : Nat) : Option (Inst × Grp × Member) :=
  match x.owner with
  | .inst g k => match findInst s g k, findGrp s g with
    | some i, some y => (i.members.find? fun m => m.rank == y.rbase + j).map fun m => (i, y, m)
    | _, _ => none
  | _ => none

/-! ## Arrivals -/

/-- The held arrival of a tag at a port unit, the oldest where rounds follow each other. -/
def heldArr (s : State) (x : Ctx) (key j : Nat) : Option Arrival :=
  s.arrivals.find? fun a => a.unit == x.unit && a.key == key && a.chunk == x.ck && a.src == j
def allHeld (s : State) (x : Ctx) (key : Nat) (js : List Nat) : Bool := js.all fun j => (heldArr s x key j).isSome

/-- The bytes of a held arrival, fetched back from the spill region where it lies there (R345). -/
def arrBytes (s : State) (x : Ctx) (a : Arrival) : List Byte :=
  if a.spilled then (devGet s (rootDie s) x.tenant a.place a.len).getD [] else a.data

/-- Does a spilled arrival fail its checksum (R344)? -/
def arrBad (s : State) (x : Ctx) (a : Arrival) : Bool := a.spilled && sumOf (arrBytes s x a) != a.sum

/-- The first of some arrivals that fails its checksum is fetched once more; one that fails again ends the owner with status 3. -/
def arrChecked (s : State) (x : Ctx) (as : List Arrival) (go : Out) : Out :=
  match as.find? (arrBad s x) with
  | none => go
  | some a =>
    if a.tried then .next (endWith s x.owner 3)
    else .next { s with arrivals := updWhere (· == a) (fun a => { a with tried := true }) s.arrivals }

/-- The held arrivals of some sources of a context's chunk. -/
def arrsOf (s : State) (x : Ctx) (key : Nat) (js : List Nat) : List (Nat × Arrival) :=
  js.filterMap fun j => (heldArr s x key j).map fun a => (j, a)

/-- To whom a key belongs (R362). -/
def keyOwner (s : State) (x : Ctx) (key : Nat) : Option Owner :=
  if key < 512 then some (.window (key / 2))
  else
    match s.grps.find? fun g => g.valid && decide (g.keyb ≤ key ∧ key < g.keyb + 64) with
    | none => none
    | some g => match x.owner with
      | .inst h k => if h = g.g then some (.inst h k) else (s.insts.find? fun i => i.group == g.g && i.state == 2).map fun i => .inst g.g i.k
      | _ => (s.insts.find? fun i => i.group == g.g && i.state == 2).map fun i => .inst g.g i.k

/-! ## Slots (R355, R356, R360) -/

/-- Physical slots in use. -/
def slotsUsed (s : State) : Nat := (s.ctxs.map (·.slots.length)).sum + (s.arrivals.filter fun a => !a.spilled).length

/-- Where the image of a virtual slot lies in the slot save area (R356). -/
def imageAt (s : State) (x : Ctx) (v : Nat) : Nat := s.saveBase.toNat + ((16 * x.unit + x.c) * 8 + v) * 2 ^ 19

def lookSlot (l : List (Nat × Slot)) (v : Nat) : Option Slot := (l.find? fun e => e.1 == v).map (·.2)
def setSlot (v : Nat) (y : Slot) (x : Ctx) : Ctx := { x with slots := (v, y) :: x.slots.filter fun e => e.1 != v }

/-- A mapped slot is written to its image and its physical slot freed (R356, R374). -/
def spillSlot (s : State) (x : Ctx) (v : Nat) (y : Slot) : State :=
  let s := devWrite s .abuf 0 (imageAt s x v) y.data
  updCtx s x.unit x.c fun x => { x with slots := x.slots.filter (fun e => e.1 != v),
                                        saved := (v, { y with data := [] }) :: x.saved.filter fun e => e.1 != v }

/-- A saved slot with the bytes of its image. -/
def readImage (s : State) (x : Ctx) (v : Nat) (y : Slot) : Slot := { y with data := memBytes s 0 (imageAt s x v) y.size }

/-- Does a context wait in MATCH? -/
def waitsMatch (s : State) (x : Ctx) : Bool :=
  match decodeLuanil (mget s.store x.pc) with
  | .ok (.matchL w) => decide (1024 ≤ x.pc) && !allHeld s x (x.key w) (maskBits w.mask)
  | _ => false

/-- Does a context belong to an instance with a suspended member, whose slots the Caldera may take back (R346, R382)? -/
def ctxOut (s : State) (x : Ctx) : Bool := match x.owner with
  | .inst g k => (findInst s g k).any (instOut s)
  | .window _ => false

/-- Room for one more physical slot: a free one, or those of the lowest-priority context that waits in MATCH or has a suspended
member, spilled. -/
def slotRoom (s : State) (x : Ctx) : Option State :=
  if slotsUsed s < 256 then some s
  else
    let cand := s.ctxs.filter fun y => !(y.unit == x.unit && y.c == x.c) && !y.slots.isEmpty && (waitsMatch s y || ctxOut s y)
    match cand.foldl (fun b y => match b with
      | none => some y
      | some z => if y.prio < z.prio then some y else some z) (none : Option Ctx) with
    | none => none
    | some y => some (y.slots.foldl (fun s e => spillSlot s y e.1 e.2) s)

/-- What an instruction finds in a slot it names: it faults; it waits for a physical slot; the slot, read back from its
image where it was spilled; or room for a slot not mapped yet. -/
inductive SlotIn where
  | fault | wait
  | got (s : State) (y : Slot)
  | room (s : State)

def slotIn (s : State) (x : Ctx) (v : Nat) (need : Bool) : SlotIn :=
  if x.sc ≤ v then .fault
  else
    match lookSlot x.slots v with
    | some y => .got s y
    | none =>
      match lookSlot x.saved v with
      | some y => (match slotRoom s x with
        | some s => .got (updCtx s x.unit x.c (setSlot v (readImage s x v y))) (readImage s x v y)
        | none => .wait)
      | none =>
        if need then .fault
        else match slotRoom s x with
          | some s => .room s
          | none => .wait

/-- A slot of `len` valid bytes (R355). -/
def mkSlot (ty len : Nat) (data : List Byte) : Slot :=
  { ty := ty, len := len, data := data, size := data.length, sum := sumOf (data.take len), residue := false }
/-- The valid bytes of a slot. -/
def Slot.valid (y : Slot) : List Byte := y.data.take y.len

/-- New bytes at the start of a slot, whose later bytes keep their values: its contents are the new bytes. -/
def overSlot (ty : Nat) (bs old : List Byte) : Slot := mkSlot ty bs.length (bs ++ old.drop bs.length)

/-- Extend data to a length with free bytes (log 26). -/
def padFree (s : State) (data : List Byte) (n : Nat) : State × List Byte :=
  if n ≤ data.length then (s, data)
  else
    let k := n - data.length
    ({ s with freeNo := s.freeNo + k }, data ++ (List.range k).map fun i => (Config.freeWord (s.freeNo + i)).setWidth 8)

/-! ## Instructions that write a slot (R371-R373) -/

/-- CMB's result (R371): the fold of its arrivals' elements, onto the slot's where INIT is 0; where a lane fails its residue check the
slot's bytes stay, with the mark. DESIGN CHOICE: where a chunk of bf16 elements makes more than 512 KiB of f32, the slot holds them
all (log 117). -/
def cmbSlot (s : State) (x : Ctx) (w : LWord) (b : SlotSrc) : Slot :=
  let f := combStep (x.func s (bitsOf w.flags 2 2))
  let xs := (arrsOf s x (x.key w) (maskBits w.mask)).map fun e => elemsOf e.2.ty (arrBytes s x e.2) x.e
  let start := if w.flags.getLsbD 4 then none else some (elemsOf b.ty b.before x.e)
  let r := match start, xs with
    | some y, xs => xs.foldl (List.zipWith f) y
    | none, y :: ys => ys.foldl (List.zipWith f) y
    | none, [] => []
  if x.laneBad then { mkSlot b.ty b.before.length b.before with residue := true } else overSlot 0 (wordBytes r) b.before

/-- GATH's result (R372): each arrival's elements at its place. -/
def gathSlot (s : State) (x : Ctx) (w : LWord) (b : SlotSrc) (go : State → Slot → Out) : Out :=
  let as := arrsOf s x (x.key w) (maskBits w.mask)
  let ty := (as.head?.map fun e => e.2.ty).getD 0
  let wide := decide (ty = 0) || w.flags.getLsbD 4
  let wo := if wide then 4 else 2
  let top := ((maskBits w.mask).getLastD 0 + 1) * x.e * wo
  if as.any (fun e => e.2.ty != ty) then ctxFault s x .types
  else if 2 ^ 19 < top then ctxFault s x .placement
  else
    let r := padFree s b.before top
    let put := fun (d : List Byte) (e : Nat × Arrival) =>
      let bs := if wide then wordBytes (elemsOf ty (arrBytes s x e.2) x.e)
                else (List.range (2 * x.e)).map fun i => (arrBytes s x e.2).getD i 0
      patch d (e.1 * x.e * wo) bs
    go r.1 (mkSlot (if wide then 0 else 1) top (as.foldl put r.2))

/-- A slot filled from memory (R373): elements of type TI, widened unless RAW. -/
def fillFrom (s : State) (x : Ctx) (w : LWord) (b : SlotSrc) (tenant va : Nat) (go : State → Slot → Out) : Out :=
  match devCoherent s (rootDie s) tenant .load (va % 2 ^ 64) (x.e * tyBytes x.ti) with
  | .error e => ctxMem s x e
  | .ok ps => pathChecked s x <|
    let bs := devRead s ps
    go s (if w.flags.getLsbD 3 then overSlot x.ti bs b.before else overSlot 0 (wordBytes (elemsOf x.ti bs x.e)) b.before)

/-- What an instruction puts into its slot, given what the slot was before. -/
def slotWrite (s : State) (x : Ctx) (b : SlotSrc) (go : State → Slot → Out) : Out :=
  let w := b.word
  match b.op with
  | .cmb =>
    arrChecked s x ((arrsOf s x (x.key w) (maskBits w.mask)).map (·.2)) (go s (cmbSlot s x w b))
  | .gath =>
    arrChecked s x ((arrsOf s x (x.key w) (maskBits w.mask)).map (·.2)) (gathSlot s x w b go)
  | .fillSave =>
    match lookSlot x.saved w.slot.toNat with
    | none => ctxFault s x .fill
    | some y => go s (readImage s x w.slot.toNat y)
  | .fillSrc =>
    match x.member? s ((maskBits w.mask).headD 0) with
    | none => ctxFault s x .member
    | some (_, _, m) =>
      if gateShut x m then .next s else fillFrom s x w b m.tenant (m.blk.src.toNat + x.ck * m.blk.ch.toNat) go
  | .fillMem => fillFrom s x w b x.tenant (x.base w + x.ck * x.ce * tyBytes x.ti) go

/-- An instruction that writes its slot, which must be mapped where `need` says so. -/
def writesSlot (s : State) (x : Ctx) (op : SlotOp) (w : LWord) (need : Bool) : Out :=
  let v := w.slot.toNat
  let go := fun (s : State) (mapped : Bool) (ty : Nat) (before : List Byte) =>
    let b : SlotSrc := { op := op, word := w, mapped := mapped, ty := ty, before := before }
    slotWrite s x b fun s y => x.next s fun z => setSlot v { y with src := some b } { z with laneBad := z.laneBad && op != .cmb }
  match slotIn s x v need with
  | .fault => ctxFault s x .slot
  | .wait => .next s
  | .room s => go s false 0 []
  | .got s y => go s true y.ty y.data

/-- CHK of a slot (R374): good; at its first failure in a chunk the instruction that last wrote the slot is repeated from its
source; at the second the owner ends with status 3. -/
def chkSlot (s : State) (x : Ctx) (v : Nat) (y : Slot) (good : State → Out) : Out :=
  if sumOf y.valid = y.sum ∧ !y.residue then good s
  else if x.retried.contains v then .next (endWith s x.owner 3)
  else
    match y.src with
    | none => .next (updCtx s x.unit x.c fun x => { x with retried := v :: x.retried })
    | some b => slotWrite s x b fun s y => .next (updCtx s x.unit x.c fun x =>
        { setSlot v { y with src := some b } x with retried := v :: x.retried, laneBad := false })

/-- MATCH (R370). -/
def execMatch (w : LWord) (s : State) : Out :=
  luanil s fun x => if allHeld s x (x.key w) (maskBits w.mask) then x.next s id else .next s

/-- CMB (R371). -/
def execCmb (w : LWord) (s : State) : Out :=
  luanil s fun x => if allHeld s x (x.key w) (maskBits w.mask) then writesSlot s x .cmb w (!w.flags.getLsbD 4) else .next s

/-- GATH (R372). -/
def execGath (w : LWord) (s : State) : Out :=
  luanil s fun x => if allHeld s x (x.key w) (maskBits w.mask) then writesSlot s x .gath w false else .next s

/-- The bytes FWD sends and their type (R375). -/
def fwdData (w : LWord) (y : Slot) : Nat × List Byte :=
  if w.flags.getLsbD 2 ∧ y.ty = 0 then (1, typeBytes 1 (elemsOf 0 y.data (y.len / 4))) else (y.ty, y.valid)

/-- A FWD's slot: mapped, and checked first (R374, R375). -/
def fwdSlot (s : State) (x : Ctx) (w : LWord) (go : State → Nat × List Byte → Out) : Out :=
  match slotIn s x w.slot.toNat true with
  | .got s y => chkSlot s x w.slot.toNat y fun s => go s (fwdData w y)
  | .wait => .next s
  | _ => ctxFault s x .slot

/-- Does a context's program use NEXTC.WRAP (R364)? The built-in program of a window does. -/
def usesWrap (s : State) (x : Ctx) : Bool :=
  if x.first < 1024 then (match x.owner with | .window _ => true | .inst _ _ => false)
  else (List.range x.len).any fun i => match decodeLuanil (mget s.store (x.first + i)) with
    | .ok (.nextc w) => w.flags.getLsbD 5
    | _ => false

/-- Has a receiving context not yet reached the chunk before a sender's (R364)? Where chunk numbers wrap, by the chunks that each
has moved on. -/
def behind (s : State) (x y : Ctx) : Bool :=
  if usesWrap s x then decide (y.abs + 1 < x.abs) else decide (y.ck + 1 < x.ck)

/-- The internal ports of a FWD's mask that take messages. -/
def fwdPorts (s : State) (w : LWord) : List Nat := (maskBits w.mask).filter fun p => p < 16 && portUp s p

/-- Does a FWD wait for a receiving context (R364)? -/
def fwdWaits (s : State) (x : Ctx) (w : LWord) : Bool :=
  let o := keyOwner s x (x.key w)
  ((fwdPorts s w).filterMap fun p => s.ctxs.find? fun (y : Ctx) => some y.owner == o && y.unit == unitNo p).any (behind s x)

/-- FWD (R364, R375): messages to internal ports; one to a peer package leaves the package. -/
def execFwd (w : LWord) (s : State) : Out :=
  luanil s fun x =>
    let key := x.key w
    let ue := bitsOf w.mask 16 16 ≠ 0
    let peers := ((x.grp? s).map (·.p)).getD 0
    if ue ∧ peers ≤ (mget x.cs 14).toNat then ctxFault s x .peer
    else
      let o := keyOwner s x key
      if fwdWaits s x w then .next s
      else fwdSlot s x w fun s d =>
        let s := if ue then { s with ueWaits := s.ueWaits ++ [(x.owner, 0)] } else s
        x.next (send s ((fwdPorts s w).map fun p => .arrive o (unitNo p) key x.ck x.unit d.1 d.2)) id

/-- The bytes of a write given to the places it covers. -/
def dealBytes : List DLoc → List Byte → List (DLoc × List Byte)
  | [], _ => []
  | p :: ps, bs => (p, bs.take p.len) :: dealBytes ps (bs.drop p.len)

/-- Checked places of writes of a context, addresses and bytes, or the first that fails (R368). -/
def planWrites (s : State) (tenant : Nat) (l : List (Nat × List Byte)) : Except (Nat × Nat) (List (DLoc × List Byte)) :=
  (allOk (fun (e : Nat × List Byte) =>
    (devCoherent s (rootDie s) tenant .store (e.1 % 2 ^ 64) e.2.length).map fun ps => dealBytes ps e.2) l).map List.flatten

/-- The naturally aligned pieces of 16 bytes or less of a checked write (R381). -/
def writePieces16 (e : DLoc × List Byte) : List (Nat × Nat × List Byte) :=
  (cutAt 16 e.1.pa e.2.length).map fun c => (c.1, e.1.owner, (e.2.drop (c.1 - e.1.pa)).take c.2)

/-- Checked writes on their way: their pages are filled if discarded (R184), and their pieces wait in the context. -/
def putWrites (s : State) (x : Ctx) (ps : List (DLoc × List Byte)) (f : Ctx → Ctx) : State :=
  let s := ps.foldl (fun s e => zeroFill s e.1.owner e.1.pte e.1.base e.1.size) s
  updCtx s x.unit x.c fun y => { f y with writes := y.writes ++ ps.flatMap writePieces16 }

/-- Writes issued by a FWD wait in the context until they are performed (R375, R376). -/
def issueWrites (s : State) (x : Ctx) (l : List (Nat × List Byte)) : Out :=
  match planWrites s x.tenant l with
  | .error e => ctxMem s x e
  | .ok ps => pathChecked s x (x.next (putWrites s x ps id) id)

/-- FWD.mem (R375). -/
def execFwdMem (w : LWord) (s : State) : Out :=
  luanil s fun x =>
    let ms := (maskBits w.mask).map (32 * x.key w + ·)
    if ms.any fun m => decide (x.members s ≤ m) then ctxFault s x .member
    else fwdSlot s x w fun s d =>
      issueWrites s x (ms.map fun m => (x.base w + m * x.b3.toNat + x.ck * x.ce * tyBytes d.1, d.2))

/-- FWD.rank (R375): the slot's elements go to the rank's destination elements of chunk ck, in order. -/
def execFwdRank (w : LWord) (s : State) : Out :=
  luanil s fun x =>
    let js := maskBits w.mask
    let ms := js.filterMap fun j => x.member? s j
    if ms.length ≠ js.length then ctxFault s x .member
    else fwdSlot s x w fun s d =>
      let wo := tyBytes d.1
      issueWrites s x (ms.flatMap fun e =>
        let b := e.2.2.blk
        let ds := (b.dests e.2.1.m e.2.2.rank x.ck).take (d.2.length / wo)
        (joinRuns wo (ds.mapIdx fun i t => (t.1, (d.2.drop (i * wo)).take wo))).map fun r => (b.dst.toNat + r.1, r.2))

/-- SPILL (R374). -/
def execSpill (w : LWord) (s : State) : Out :=
  luanil s fun x =>
    let v := w.slot.toNat
    match slotIn s x v true with
    | .got s y => chkSlot s x v y fun s => x.next (spillSlot s x v y) id
    | .wait => .next s
    | _ => ctxFault s x .slot

/-- FILL.save (R373). -/
def execFillSave (w : LWord) (s : State) : Out :=
  luanil s fun x =>
    let v := w.slot.toNat
    if v < x.sc ∧ (lookSlot x.saved v).isNone then ctxFault s x .fill else writesSlot s x .fillSave w false

/-- FILL.src (R373, R352). -/
def execFillSrc (w : LWord) (s : State) : Out :=
  luanil s fun x =>
    match x.member? s ((maskBits w.mask).headD 0) with
    | none => ctxFault s x .member
    | some (_, _, m) => if gateShut x m then .next s else writesSlot s x .fillSrc w false

/-- FILL.mem (R373). -/
def execFillMem (w : LWord) (s : State) : Out := luanil s fun x => writesSlot s x .fillMem w false

/-- CHK (R374). -/
def execChk (w : LWord) (s : State) : Out :=
  luanil s fun x =>
    match slotIn s x w.slot.toNat true with
    | .got s y => chkSlot s x w.slot.toNat y fun s => x.next s id
    | .wait => .next s
    | _ => ctxFault s x .slot

/-! ## Bookkeeping instructions -/

/-- The target that a window's BO must hold (R333). -/
def Win.target (x : Win) : Nat := if x.kind = 1 then 1 else x.m

/-- A window's BO update with an increment and status (R376): the next state, or none for a fault. -/
def winUpdate (s : State) (x : Win) (port inc status : Nat) : Option (State × Bool) :=
  match devBo s (rootDie s) x.ten x.bo.toNat with
  | none => none
  | some p =>
    if inc ≠ 0 ∧ fieldAt (devRead s [{ p with len := 64 }]) 8 4 ≠ x.target then some (winFail s x.w 6, false)
    else
      let s := postBo s .abuf (rootDie s) x.ten x.bo.toNat inc status (winFlags x) (BitVec.ofNat 32 port)
      some (updWin s x.w fun y => { y with round := if inc = 0 then y.round else (y.round + 1) % 4096 }, true)

/-- Why a barrier object cannot be updated: the failure of its translation, or a fault of its own. -/
def boError (s : State) (tenant va : Nat) : Nat × Nat :=
  match devPiece s (rootDie s) tenant .atomic va 64 with
  | .error e => e
  | .ok _ => (5, 3)

/-- Flags of the BO updates of a context's instance. -/
def Ctx.flags (x : Ctx) (s : State) : Nat := match x.owner with
  | .inst g k => ((findInst s g k).map Inst.flags).getD 0
  | .window _ => 0

/-- BOUPD (R376). -/
def execBoupd (w : LWord) (s : State) : Out :=
  luanil s fun x =>
    let inc := w.key.toNat
    let st := bitsOf w.flags 2 3
    let port := portNo x.unit
    if !x.writes.isEmpty then .next s
    else if w.flags.getLsbD 5 then
      let js := maskBits w.mask
      let ms := js.filterMap fun j => x.member? s j
      if ms.length ≠ js.length then ctxFault s x .member
      else
        match ms.find? fun e => (devBo s (rootDie s) e.2.2.tenant e.2.2.blk.bo.toNat).isNone with
        | some e => ctxMem s x (boError s e.2.2.tenant e.2.2.blk.bo.toNat)
        | none => x.next (ms.foldl (fun s e =>
            postBo s .abuf (rootDie s) e.2.2.tenant e.2.2.blk.bo.toNat inc st e.1.flags (BitVec.ofNat 32 port)) s) id
    else
      match x.win? s with
      | some y =>
        match winUpdate s { y with bo := x.b1 } port inc st with
        | none => ctxMem s x (boError s y.ten x.b1.toNat)
        | some (s, true) => x.next s id
        | some (s, false) => .next s
      | none =>
        if (devBo s (rootDie s) x.tenant x.b1.toNat).isNone then ctxMem s x (boError s x.tenant x.b1.toNat)
        else x.next (postBo s .abuf (rootDie s) x.tenant x.b1.toNat inc st (x.flags s) (BitVec.ofNat 32 port)) id

/-- Record a destination chunk as written at a member, and write its progress vector (R348, R377); one recorded before has no
effect. -/
def progress (s : State) (g k rank c : Nat) : State :=
  match (findInst s g k).bind fun i => i.members.find? fun m => m.rank == rank with
  | none => s
  | some m =>
    if m.done.contains c then s
    else
      let done := m.done ++ [c]
      let m' := { m with done := done, state := if m.blk.chunks ≤ done.length then 4 else 2 }
      let s := updInst s g k fun i => { i with members := updWhere (fun y => y.rank == rank) (fun _ => m') i.members }
      devSet s .abuf (rootDie s) m.tenant m.blk.pv.toNat (pvBytes k m')

/-- The first member whose progress vector may not be written (R368). -/
def pvError (s : State) (ms : List Member) : Option (Nat × Nat) :=
  (ms.filterMap fun m => match devCoherent s (rootDie s) m.tenant .store m.blk.pv.toNat 64 with
    | .error e => some e
    | .ok _ => none).head?

/-- PROGW (R377). -/
def execProgw (w : LWord) (s : State) : Out :=
  luanil s fun x =>
    let js := maskBits w.mask
    let ms := js.filterMap fun j => x.member? s j
    if !x.writes.isEmpty then .next s
    else if ms.length ≠ js.length then ctxFault s x .member
    else
      match pvError s (ms.map (·.2.2)) with
      | some e => ctxMem s x e
      | none => x.next (ms.foldl (fun s e => progress s e.1.group e.1.k e.2.2.rank x.ck) s) id

/-- Does a context at a port unit own the key of an arrival (R363): a window has one context, an instance one a port? -/
def freesAt (o : Owner) (unit : Nat) (a : Arrival) : Bool :=
  a.owner == some o && (a.unit == unit || match o with | .window _ => true | .inst _ _ => false)

/-- The oldest arrival of each tag of a chunk goes (R378). -/
def freeArrivals (o : Owner) (unit ck : Nat) : List (Nat × Nat × Nat) → List Arrival → List Arrival
  | _, [] => []
  | seen, a :: as =>
    if freesAt o unit a ∧ a.chunk = ck ∧ !seen.contains (a.unit, a.key, a.src) then
      freeArrivals o unit ck ((a.unit, a.key, a.src) :: seen) as
    else a :: freeArrivals o unit ck seen as

/-- NEXTC (R378). -/
def execNextc (w : LWord) (s : State) : Out :=
  luanil s fun x =>
    let n := x.ck + w.key.toNat
    let ck := if w.flags.getLsbD 5 ∧ x.nc ≤ n then n - x.nc else n
    x.next { s with arrivals := freeArrivals x.owner x.unit x.ck [] s.arrivals } fun y =>
      { y with ck := ck % 2 ^ 32, abs := y.abs + w.key.toNat, retried := [] }

/-- DONE (R378, R358). -/
def execDone (_ : LWord) (s : State) : Out :=
  luanil s fun x =>
    match x.owner with
    | .window w => .next (disarmWin s w true)
    | .inst _ _ =>
      let s := x.writes.foldl (fun s e => devWrite s .abuf e.2.1 e.1 e.2.2) s
      .next { s with ctxs := s.ctxs.filter (fun y => !(y.unit == x.unit && y.c == x.c)),
                     arrivals := s.arrivals.filter fun a => !(a.owner == x.owner && a.unit == x.unit) }

/-! ## Control instructions (R379) -/

/-- The address after the matching ENDL of a LOOP, searching on from an address. -/
def afterEndl (s : State) : Nat → Nat → Nat → Nat
  | 0, _, a => a
  | f + 1, depth, a =>
    let op := lOp (mget s.store a)
    if op = 0x0B then (if depth = 0 then a + 1 else afterEndl s f (depth - 1) (a + 1))
    else afterEndl s f (if op = 0x0A then depth + 1 else depth) (a + 1)

/-- LOOP (R379). -/
def execLuanilLoop (w : LWord) (s : State) : Out :=
  luanil s fun x =>
    let n := if w.flags.getLsbD 5 then (mget x.cs (bitsOf w.key 0 4)).toNat else w.key.toNat
    if n = 0 then x.goto s (afterEndl s (x.first + x.len - x.pc - 1) 0 (x.pc + 1)) id
    else if 4 ≤ x.loops.length then ctxFault s x .loops
    else x.next s fun y => { y with loops := (x.pc + 1, n) :: y.loops }

/-- ENDL (R379). -/
def execEndl (_ : LWord) (s : State) : Out :=
  luanil s fun x =>
    match x.loops with
    | [] => ctxFault s x .endl
    | (a, n) :: rest =>
      if n ≤ 1 then x.next s fun y => { y with loops := rest }
      else x.goto s a fun y => { y with loops := (a, n - 1) :: rest }

/-- A signed 12-bit displacement from the instruction's own address. -/
def Ctx.dispPc (x : Ctx) (w : LWord) : Nat := ((x.pc : Int) + signedOf 12 w.key.toNat).toNat

/-- BNZ (R379). -/
def execBnz (w : LWord) (s : State) : Out :=
  luanil s fun x =>
    let i := bitsOf w.flags 0 4
    let n := if w.flags.getLsbD 5 then mget x.cs i - 1 else mget x.cs i
    x.goto s (if n ≠ 0 then x.dispPc w else x.pc + 1) fun y => { y with cs := mset y.cs i n }

/-- SETK (R379). -/
def execSetk (w : LWord) (s : State) : Out :=
  luanil s fun x =>
    let i := bitsOf w.flags 0 3
    x.next s fun y => { y with ks := mset y.ks i (if w.flags.getLsbD 3 then mget y.ks i + w.key else w.key) }

/-- SETC (R379). -/
def execSetc (w : LWord) (s : State) : Out :=
  luanil s fun x => x.next s fun y => { y with cs := mset y.cs (bitsOf w.flags 0 4) w.mask }

/-- ADDC (R379). -/
def execAddc (w : LWord) (s : State) : Out :=
  luanil s fun x =>
    let i := bitsOf w.flags 0 4
    x.next s fun y => { y with cs := mset y.cs i (mget y.cs i + w.key.signExtend 32) }

/-- JMP (R379). -/
def execJmp (w : LWord) (s : State) : Out := luanil s fun x => x.goto s (x.dispPc w) id

/-- NOP (R379). -/
def execLuanilNop (_ : LWord) (s : State) : Out := luanil s fun x => x.next s id

/-! ## Events -/

/-- Does an instruction find its slot, or wait for a physical one? -/
def slotReady (s : State) (x : Ctx) (w : LWord) (need : Bool) : Bool :=
  match slotIn s x w.slot.toNat need with
  | .wait => false
  | _ => true

/-- Can the next instruction of a context that runs a loaded program issue (R360)? It may wait for arrivals, for its writes, for
a receiver, for a gate, or for a physical slot. -/
def wordReady (s : State) (x : Ctx) : Bool :=
  match decodeLuanil (mget s.store x.pc) with
  | .ok (.matchL w) => allHeld s x (x.key w) (maskBits w.mask)
  | .ok (.cmb w) => allHeld s x (x.key w) (maskBits w.mask) && slotReady s x w (!w.flags.getLsbD 4)
  | .ok (.gath w) => allHeld s x (x.key w) (maskBits w.mask) && slotReady s x w false
  | .ok (.boupd _) | .ok (.progw _) => x.writes.isEmpty
  | .ok (.fwd w) => !fwdWaits s x w && slotReady s x w true
  | .ok (.fwdMem w) | .ok (.fwdRank w) | .ok (.chk w) | .ok (.spill w) => slotReady s x w true
  | .ok (.fillSrc w) =>
    (match x.member? s ((maskBits w.mask).headD 0) with
      | some (_, _, m) => !gateShut x m
      | none => true) && slotReady s x w false
  | .ok (.fillMem w) | .ok (.fillSave w) => slotReady s x w false
  | _ => true

/-- CONTEXT_AGED (R360). -/
def execContextAged (unit ctx : Nat) (s : State) : Out :=
  .next (updCtx s unit ctx fun x => { x with aged := x.aged || decide (256 ≤ x.readyFor) })

/-- FWD_WRITE_PERFORMED (R375, R381): one piece of a context's writes, whichever, becomes visible (log 99). -/
def execFwdWritePerformed (unit ctx : Nat) (s : State) : Out :=
  match findCtx s unit ctx with
  | none => .next s
  | some x =>
    let i := Config.freePick s.freeNo x.writes.length % x.writes.length
    match x.writes[i]? with
    | none => .next s
    | some e => .next (updCtx { devWrite s .abuf e.2.1 e.1 e.2.2 with freeNo := s.freeNo + 1 } unit ctx fun y =>
        { y with writes := y.writes.eraseIdx i })

end Sys2Proof.Machine
end

