-- ==== Sys2Proof/Machine/Collective.lean ====
section
/-! DEFINITION. Sys2Proof/Machine/Collective.lean: COLL, PROGV, COLLSTAT (R350-R352), collective instances (R336-R349),
arming (R331, R358), arrivals (R363, R364), messages from other packages (R384), the built-in programs' work (R334, R359)
and program loading (R365). -/

namespace Sys2Proof.Machine

open Sys2Proof

/-! ## Groups and members -/

/-- Suspension marks the unfinished instances and the armed windows of the groups of a team's ranks (R346). -/
def suspendTeam (s : State) (t : Team) : State :=
  { s with
    insts := s.insts.map fun i =>
      match findGrp s i.group with
      | some g => if (i.state = 1 ∨ i.state = 2) ∧ ranksOf s g t ≠ [] then { i with suspended := true } else i
      | none => i,
    wins := s.wins.map fun x =>
      match findGrp s x.wgroup with
      | some g => if x.kind ≠ 0 ∧ ranksOf s g t ≠ [] then { x with suspended := true } else x
      | none => x }

/-! ## Parameter blocks -/

/-- Decode the 128 bytes of Table 12-3. -/
def parseBlock (bs : List Byte) : Block :=
  let w := fun (o : Nat) => (BitVec.ofNat 32 (fieldAt bs o 4) : Word)
  let d := fun (o : Nat) => (BitVec.ofNat 64 (fieldAt bs o 8) : BitVec 64)
  { op := w 0, ty := w 4, group := w 8, alg := w 12, n := d 16, src := d 24, dst := d 32, ch := d 40, bo := d 48, pv := d 56,
    spill := d 64, prio := w 72, tenant := w 76 }

/-- The algorithm of R340: 1 LOCAL, 2 TREE, 3 RING. -/
def Block.algorithm (b : Block) (p : Nat) : Nat :=
  if b.alg ≠ 0 then b.alg.toNat
  else if p ≤ 1 then 1
  else if b.n.toNat * tyBytes b.ity ≤ 2 ^ 20 then 2 else 3

/-- Is a field outside Table 12-3 or R338, or an algorithm one that does not fit (R339, R340)? -/
def Block.badField (b : Block) (g : Grp) : Bool :=
  let ch := b.ch.toNat
  decide (5 < b.kind) || (b.reduces && decide (2 < b.func)) || ((b.kind == 3 || b.kind == 4) && decide (g.m ≤ b.root)) ||
  decide (1 < b.ity) || decide (1 < b.oty) || bitsOf b.ty 18 14 != 0 || (!b.reduces && b.oty != b.ity) ||
  decide (4095 < b.group.toNat) || decide (3 < b.alg.toNat) || (b.alg.toNat == 1 && decide (1 < g.p)) ||
  b.n == 0 || decide (2 ^ 40 < b.n.toNat) || ((b.kind == 1 || b.kind == 5) && b.n.toNat % max 1 g.m != 0) ||
  b.src.toNat % tyBytes b.ity != 0 || b.dst.toNat % tyBytes b.oty != 0 ||
  !(List.range 8).any (fun i => ch == 2 ^ (12 + i)) || b.bo.toNat % 64 != 0 || b.pv.toNat % 64 != 0 ||
  b.spill.toNat % 4096 != 0 || bitsOf b.prio 2 30 != 0 || bitsOf b.tenant 12 20 != 0

/-- Is a range mapped, writable CXL memory (R345)? -/
def spillOk (s : State) (tenant base n : Nat) : Bool :=
  match devRange s (rootDie s) tenant .store base n with
  | .ok ps => ps.all fun p => paKind p.pa == 1
  | .error _ => false

/-- The blocks of the other packages' ranks, of an instance or of its restart (log 51). -/
def peerBlocks (g : Grp) (i : Inst) : List Block :=
  if g.p ≤ 1 then [] else Config.peerBlocks g.g (2 * i.k + if i.restart then 1 else 0)

/-- The checks of R339, R345 and R349 on the blocks of an instance, those of other packages' ranks among them: the reason of an
abort. A BO or PV that is not mapped as coherent memory is a bad field (log 51). DESIGN CHOICE: so is, for reason 3, an issuing
tenant that is not the group's TENANT (log 118). -/
def badBlocks (s : State) (g : Grp) (ms : List Member) (others : List Block) : Option Nat :=
  match ms with
  | [] => none
  | m :: rest =>
    let same := fun (b : Block) => b.op == m.blk.op && b.ty == m.blk.ty && b.group == m.blk.group &&
      b.alg == m.blk.alg && b.n == m.blk.n && b.ch == m.blk.ch
    let boOk := fun (x : Member) => (devBo s (rootDie s) x.tenant x.blk.bo.toNat).isSome && (devBo s (rootDie s) x.tenant x.blk.pv.toNat).isSome
    if !(rest.map (·.blk) ++ others).all same ∨ rest.any (fun x => x.inst != m.inst) then some 2
    else if (ms.map (·.blk) ++ others).any (fun b => b.badField g) then some 1
    else if ms.any (fun x => x.blk.tenant.toNat != x.tenant || x.tenant != g.tenant) ∨ others.any (fun b => b.tenant.toNat != g.tenant) then some 3
    else if !ms.all boOk then some 1
    else if ms.any (fun x => !spillOk s x.tenant x.blk.spill.toNat (2 * x.blk.ch.toNat * g.mloc)) then some 4
    else none

/-- A member as its block is accepted. -/
def newMember (rank addr tenant ready inst : Nat) (b : Block) : Member :=
  { rank := rank, blk := b, tenant := tenant, addr := addr, ready := ready, done := [], state := 1, inst := inst }

def newInst (g k : Nat) (restart out : Bool) (m : Member) : Inst :=
  { group := g, k := k, members := [m], restart := restart, state := 1, reason := 0, timer := 0, spilled := false, suspended := out }

/-- Post status 4 to one block's BO, and STATE 5 to its progress vector: an abort before any instance is formed (R361, R339, R351).
Its updater is the number of the port that the block came by (R254). -/
def abortBlock (s : State) (port tenant : Nat) (b : Block) : State :=
  let s := if (devCoherent s (rootDie s) tenant .store b.pv.toNat 64).isOk then
      devSet s .abuf (rootDie s) tenant (b.pv.toNat + 32) (toBytes (5 : Word) 4)
    else s
  postBo s .abuf (rootDie s) tenant b.bo.toNat 0 4 0 (BitVec.ofNat 32 port)

/-- The instance that collects restart blocks of a group (R349). -/
def collecting (s : State) (g : Grp) : Option Inst := s.insts.find? fun x => x.group == g.g && x.restart && x.state == 1

/-- The Caldera accepts the block of local rank i of a group that came by a port (R337, R339, R349): the state and the instance
number. Instances are numbered from 0 (log 103). A restart collects the blocks of every rank under the number that the first of them
names. DESIGN CHOICE: a late rank's block for an instance that has ended joins it, and nothing is posted (log 119). -/
def acceptBlock (s : State) (g : Grp) (i addr port tenant : Nat) (b : Block) : State × Nat :=
  let rank := g.rbase + i
  if b.restart then
    match devGet s (rootDie s) tenant b.pv.toNat 64 with
    | none => (abortBlock s port tenant b, 0)
    | some pv =>
      let k := fieldAt pv 0 8
      let m := newMember rank addr tenant (fieldAt pv 24 8) k b
      match collecting s g with
      | some x => (updInst s g.g x.k fun x => { x with members := x.members ++ [m] }, k)
      | none =>
        let s := endOwner s (.inst g.g k) true
        ({ s with insts := s.insts.filter (fun x => !(x.group == g.g && x.k == k)) ++ [newInst g.g k true (groupOut s g) m] }, k)
  else
    let k := ((g.nextK.find? fun e => e.1 == rank).map (·.2)).getD 0
    let bump := fun (y : Grp) => { y with nextK := (rank, k + 1) :: y.nextK.filter fun e => e.1 != rank }
    let s := { s with grps := updWhere (fun y => y.g == g.g) bump s.grps }
    let m := newMember rank addr tenant 0 k b
    match findInst s g.g k with
    | some _ => (updInst s g.g k fun x => { x with members := x.members ++ [m] }, k)
    | none => ({ s with insts := s.insts ++ [newInst g.g k false (groupOut s g) m] }, k)

/-! ## COLL, PROGV, COLLSTAT (R350, R351) -/

/-- The block's place: the checks of R351. -/
def Iss.blockPlace (x : Iss) (go : BitVec 64 → Nat → Nat → Nat → Out) : Out :=
  let ea := x.src2 x.w.a 0
  let want : Want := { thread := (threadsOf x.tp).headD 0, ea := ea, n := 128 }
  match checkAll x.s x.t x.p.spx .load [want] with
  | .trap c r _ _ => x.trap { cause := c, reason := r, tmask := x.tp, addr := ea }
  | .walk g ea _ => x.needWalk g ea x.tp
  | .ok [(_, [(_, _, .mem pa owner .coherent pte _ _)])] => go ea pa owner pte
  | .ok _ => x.trap { cause := 5, reason := 3, tmask := x.tp, addr := ea }

/-- The local rank whose restart a team's next restart block is: of those it speaks for, the first whose block is not in yet. -/
def restartRank (s : State) (g : Grp) (is : List Nat) : Option Nat :=
  let in_ := fun (i : Nat) => (collecting s g).any fun x => x.members.any fun m => m.rank == g.rbase + i
  (is.find? fun i => !in_ i).or is.head?

/-- The local rank for which a team's next block counts: of those it speaks for, the one with the fewest (log 32). -/
def nextRank (g : Grp) (is : List Nat) : Option Nat :=
  let k := fun (i : Nat) => ((g.nextK.find? fun e => e.1 == g.rbase + i).map (·.2)).getD 0
  is.foldl (fun b i => match b with
    | none => some i
    | some j => if k i < k j then some i else some j) none

/-- A form that raises col and is done by ACCESS_DONE. -/
def Iss.colForm (x : Iss) (complete : Bool) (addr : Nat) (eff : Spindle → Spindle) : Out :=
  let (id, s) := fresh x.s
  let x := { x with s := s }
  x.next fun p => addPend (x.pend id (.coll addr) complete none none [6] []) (eff p)

/-- COLL (R351). -/
def execColl (w : JWord) (s : State) : Out :=
  issue (.coll w) { memory := true } s fun x =>
    if x.tp = 0 then x.skip
    else
      x.blockPlace fun ea pa owner pte =>
        let b := parseBlock (if pageDiscarded x.s pte then List.replicate 128 0 else memBytes x.s owner pa 128)
        let tenant := teamTenant x.s x.t
        let here : List Acc := [{ thread := 0, ea := ea, n := 128, part := 0, loc := .mem pa owner .coherent pte 0 0, val := 0, val2 := 0 }]
        -- the release stands before the read, and so do stores that a narrower release passed (R231)
        let first := pendMeets ((if jRel w then x.p.pend else []) ++ fencedFor x.s x.r.sp x.p.pend) here
        if !caldUp x.s || first then .next x.s
        else if x.ctrStops [6] then x.stall 0x40
        else
          match findGrp x.s b.group.toNat with
          | none =>
            match x.release (jRel w) with
            | none => .next x.s
            | some s =>
              let v := Config.freeWord s.freeNo
              { x with s := abortBlock { s with freeNo := s.freeNo + 1, aborts := (x.t.id, ea.toNat) :: s.aborts } x.t.die tenant b }.colForm (w.d == 0x348) ea.toNat fun p =>
                writeDst p w.d 1 0 (v.setWidth 128)
          | some g =>
            match (if b.restart then restartRank x.s g else nextRank g) (ranksOf x.s g x.t) with
            | none => x.trap { cause := 0x0E, reason := 12, tmask := x.tp, addr := ea }
            | some i =>
              match x.release (jRel w) with
              | none => .next x.s
              | some s =>
                let r := acceptBlock { s with aborts := s.aborts.filter (· != (x.t.id, ea.toNat)) } g i ea.toNat x.t.die tenant b
                { x with s := r.1 }.colForm (w.d == 0x348) ea.toNat fun p => writeDst p w.d 1 0 (BitVec.ofNat 128 (r.2 % 2 ^ 32))

/-- The latest instance in which the issuing team's rank gave a block at an address: the instance and the member. -/
def memberAt (s : State) (t : Team) (addr : Nat) : Option (Inst × Member) :=
  (s.insts.reverse.filterMap fun i =>
    match findGrp s i.group with
    | none => none
    | some g => (i.members.find? fun m => m.addr == addr && speaks s g t (m.rank - g.rbase)).map fun m => (i, m)).head?

/-- PROGV (R351). -/
def execProgv (w : JWord) (s : State) : Out :=
  issue (.progv w) { memory := true } s fun x =>
    if x.tp = 0 then x.skip
    else
      let ea := x.src2 w.a 0
      let b := (x.src1 w.b 0).toNat
      if x.ctrStops [6] then x.stall 0x40
      else
        match memberAt x.s x.t ea.toNat with
        | some (i, m) =>
          if i.state ≠ 1 ∧ i.state ≠ 2 then x.trap { cause := 0x0E, reason := 13, tmask := x.tp, addr := ea }
          else
            match x.release (jRel w) with
            | none => .next x.s
            | some s =>
              let r := max m.ready b
              let s := updInst s i.group i.k fun i =>
                { i with members := updWhere (fun y => y.rank == m.rank) (fun y => { y with ready := r }) i.members }
              let s := devSet s .abuf (rootDie s) m.tenant (m.blk.pv.toNat + 24) (toBytes (BitVec.ofNat 64 r) 8)
              { x with s := s }.colForm true ea.toNat id
        | none => x.trap { cause := 0x0E, reason := 13, tmask := x.tp, addr := ea }

/-- STATE of Table 12-6 for a member. -/
def memberState (s : State) (i : Inst) (m : Member) : Nat :=
  if m.state = 4 then 4
  else if i.state = 5 then 5
  else if instOut s i then 3
  else i.state

/-- COLLSTAT (R351): a block aborted for its group reads as failed with reason 1 (R361), one of no instance as log 52 says. -/
def execCollstat (w : JWord) (s : State) : Out :=
  issue (.collstat w) { memory := true } s fun x =>
    if x.tp = 0 then x.skip
    else
      let a := (x.src2 w.a 0).toNat
      if x.s.aborts.contains (x.t.id, a) then x.dispense 2 (quad (5 + 256) 0 0 0) none
      else match memberAt x.s x.t a with
      | some (i, m) => x.dispense 2 (quad (memberState x.s i m + i.reason * 256) m.done.length 0 0) none
      | none => x.dispense 2 (quad (5 * 256) 0 0 0) none

/-- COLLSTAT.W (R351): whole KiB (log 103). -/
def execCollstatW (w : JWord) (s : State) : Out :=
  issue (.collstatW w) { memory := true } s fun x =>
    if x.tp = 0 then x.skip
    else
      let a := (x.src1 w.a 0).toNat
      if 256 ≤ a then x.trapT 0x0E 15
      else
        match findWin x.s a with
        | none => x.dispense 2 0 none
        | some y => x.dispense 2 (quad (y.kind + y.stat * 256 + y.round * 2 ^ 16) (min (y.spilledBytes / 1024) (2 ^ 32 - 1)) 0 0) none

/-! ## Starting contexts -/

/-- The lowest free context of a unit. -/
def freeCtx (s : State) (unit : Nat) : Option Nat :=
  (List.range 16).find? fun c => !s.ctxs.any fun x => x.unit == unit && x.c == c

def newCtx (unit c : Nat) (o : Owner) : Ctx :=
  { (default : Ctx) with unit := unit, c := c, owner := o, len := 1024 }

/-- The first port with a free context. -/
def freePlace (s : State) : Option (Nat × Nat) :=
  (((List.range 32).filter (portUp s)).filterMap fun p => (freeCtx s (unitNo p)).map fun c => (unitNo p, c)).head?

/-- Start the built-in program of an instance at a chunk (R359); none while no context is free. DESIGN CHOICE: PRIO and SPILL, which
R339 does not compare, are those of the first accepted block (log 120). -/
def startInst (s : State) (i : Inst) (g : Grp) (ck : Nat) : Option State :=
  match freePlace s, i.members with
  | some (u, c), m :: _ =>
    let b := m.blk
    let last := b.n.toNat - (b.chunks - 1) * b.per
    let x : Ctx := { newCtx u c (.inst i.group i.k) with
      ck := ck, abs := ck, b0 := b.dst, b1 := b.bo, b2 := b.spill, b3 := b.pv, ce := b.per, le := last, nc := b.chunks, ti := b.ity,
      sc := 8, prio := bitsOf b.prio 0 2, tenant := m.tenant, ks := mset [] 0 (BitVec.ofNat 12 g.keyb) }
    some { s with ctxs := s.ctxs ++ [x] }
  | _, _ => none

/-- No instance accepted before this one waits for a context (R359). -/
def firstWaiting (s : State) (i : Inst) : Bool :=
  (s.insts.takeWhile fun j => !(j.group == i.group && j.k == i.k)).all fun j => !(j.state == 1 && j.checked)

/-- An instance whose every local block is in is checked, once, and starts at a chunk with what its members have done, as soon
as its turn for a context comes; else it waits, or it is aborted (R339, R345, R359). -/
def beginInst (s : State) (i : Inst) (g : Grp) (ck : Nat) : State :=
  match (if i.checked then none else badBlocks s g i.members (peerBlocks g i)) with
  | some r => endInst s i.group i.k 4 r
  | none =>
    match (if firstWaiting s i then startInst s i g ck else none) with
    | none => updInst s i.group i.k fun i => { i with checked := true }
    | some s => updInst s i.group i.k fun i =>
        { i with state := 2, timer := 0, members := i.members.map fun m => { m with state := 2, done := List.range ck } }

/-- INSTANCE_CHECK (R339, R345): every rank's block has arrived. -/
def execInstanceCheck (group k : Nat) (s : State) : Out :=
  match findInst s group k, findGrp s group with
  | some i, some g => if i.state ≠ 1 ∨ i.restart ∨ i.members.length < g.mloc then .next s else .next (beginInst s i g 0)
  | _, _ => .next s

/-- LW of a member's progress vector in memory (R349). -/
def pvLw (s : State) (m : Member) : Nat :=
  ((devGet s (rootDie s) m.tenant m.blk.pv.toNat 64).map fun bs => fieldAt bs 8 8).getD 0

/-- c_min of R349: the least LW of all ranks, at most the number of chunks. -/
def restartFrom (s : State) (i : Inst) (g : Grp) : Nat :=
  let cs := i.members.map (pvLw s) ++ if g.p ≤ 1 then [] else [Config.peerLw g.g i.k]
  min (((i.members.head?).map fun m => m.blk.chunks).getD 0) (cs.foldl min (cs.headD 0))

/-- INSTANCE_RESTART (R349): from c_min every destination chunk is written again. -/
def execInstanceRestart (group k : Nat) (s : State) : Out :=
  match findInst s group k, findGrp s group with
  | some i, some g =>
    if i.state ≠ 1 ∨ !i.restart ∨ i.members.length < g.mloc then .next s else .next (beginInst s i g (restartFrom s i g))
  | _, _ => .next s

/-! ## The built-in programs' work -/

/-- Fold a combining function over lists of elements in order. -/
def combineAll (f : Nat) : List (List Word) → List Word
  | [] => []
  | x :: xs => xs.foldl (List.zipWith (combStep f)) x

/-- One level of the tree of R342. -/
def treeLevel (f : Nat) : List (List Word) → List (List Word)
  | a :: b :: r => List.zipWith (combStep f) a b :: treeLevel f r
  | l => l
def treeUp (f : Nat) : Nat → List (List Word) → List Word
  | 0, l => l.headD []
  | k + 1, l => if l.length ≤ 1 then l.headD [] else treeUp f k (treeLevel f l)

/-- The package sums combined (R342). -/
def acrossPackages (f alg c : Nat) (sums : List (List Word)) : List Word :=
  if alg = 3 then combineAll f (sums.rotateLeft ((c + 1) % max 1 sums.length)) else treeUp f sums.length sums

/-- Source chunk c of a member, or why it cannot be read. -/
def sourceChunk (s : State) (c : Nat) (m : Member) : Except (Nat × Nat) (List Byte) :=
  (devCoherent s (rootDie s) m.tenant .load (m.blk.src.toNat + c * m.blk.ch.toNat) (m.blk.len c * tyBytes m.blk.ity)).map (devRead s)

/-- Bytes of a member's destination. -/
def destSpan (g : Grp) (m : Member) : Nat :=
  let n := m.blk.n.toNat * tyBytes m.blk.oty
  if m.blk.kind = 2 then n * g.m else if m.blk.kind = 1 then n / max 1 g.m else n

/-- Does an earlier unfinished instance of the group write what this one would (R346)? -/
def earlierMeets (s : State) (g : Grp) (i : Inst) : Bool :=
  s.insts.any fun j => j.group == i.group && decide (j.k < i.k) && (j.state == 1 || j.state == 2) &&
    j.members.any fun a => i.members.any fun b =>
      decide (a.blk.dst.toNat < b.blk.dst.toNat + destSpan g b ∧ b.blk.dst.toNat < a.blk.dst.toNat + destSpan g a)

/-- Does something hold an instance's chunk back: a gate, a suspended member, another package, an earlier instance, or its own
writes? -/
def instHeld (s : State) (x : Ctx) (i : Inst) (g : Grp) : Bool :=
  (readMembers g i).any (gateShut x) || instOut s i || earlierMeets s g i || !(peerArrs s g i x.ck).all Option.isSome || !x.writes.isEmpty

/-- A lane's residue check has failed: the step is made once more, and a second failure ends the owner (R344, R354). -/
def laneRetry (s : State) (x : Ctx) : State :=
  if x.retried.contains 255 then endWith s x.owner 3
  else updCtx s x.unit x.c fun y => { y with retried := 255 :: y.retried, laneBad := false }

/-- The bytes of each destination element of a chunk, from the local sources and the other packages' arrivals (R338, R341, R342). -/
def chunkValue (s : State) (x : Ctx) (i : Inst) (g : Grp) (b : Block) (srcs : List (List Byte)) (t : Nat × Option Nat × Nat) : List Byte :=
  let n := b.len x.ck
  let wi := tyBytes b.ity
  let from_ := fun (q : Nat) => ((remoteArr s x.owner x.ck q).map (arrBytes s x)).getD []
  match t.2.1 with
  | none =>
    let own := combineAll b.func (srcs.map fun d => elemsOf b.ity d n)
    let sum := acrossPackages b.func (b.algorithm g.p) x.ck ((List.range (max 1 g.p)).map fun q =>
      if q = g.q then own else elemsOf 0 (from_ q) n)
    typeBytes b.oty [sum.getD t.2.2 0]
  | some q =>
    let data := if b.kind = 3 then
        (srcs.head?).getD (((peerArrs s g i x.ck).filterMap id).head?.elim [] (arrBytes s x))
      else
        (((List.range (max 1 g.p)).flatMap fun p =>
          if p = g.q then srcs
          else (List.range ((from_ p).length / max 1 (n * wi))).map fun k => ((from_ p).drop (k * n * wi)).take (n * wi)).getD q [])
    (data.drop (t.2.2 * wi)).take wi

/-- An instance issues the writes of a chunk, and its sends to the other packages (R334, R339, R341, R342, R352). -/
def instIssue (s : State) (x : Ctx) (i : Inst) (g : Grp) (b : Block) : Out :=
  if x.laneBad && b.reduces then .next (laneRetry s x)
  else arrChecked s x ((peerArrs s g i x.ck).filterMap id) <| pathChecked s x <|
    match allOk (sourceChunk s x.ck) (readMembers g i) with
    | .error e => ctxMem s x e
    | .ok srcs =>
      let outs := fun (m : Member) =>
        (joinRuns (tyBytes b.oty) ((b.dests g.m m.rank x.ck).map fun t => (t.1, chunkValue s x i g b srcs t))).map fun r => (m.blk.dst.toNat + r.1, r.2)
      match allOk (fun m => planWrites s m.tenant (outs m)) (rankOrder g i) with
      | .error e => ctxMem s x e
      | .ok ps =>
        let s := { s with ueWaits := s.ueWaits ++ (peersOf g).map fun _ => (x.owner, 0) }
        .next (putWrites s x ps.flatten fun y => { y with issued := true, readyFor := 0, aged := false, used := s.turnNo })

/-- Its writes performed, an instance records the chunk at every local member (R348), and goes on, or ends (R339). -/
def instRecord (s : State) (x : Ctx) (i : Inst) (g : Grp) (b : Block) : State :=
  let o := Owner.inst i.group i.k
  let s := (rankOrder g i).foldl (fun s m => progress s i.group i.k m.rank x.ck) s
  let s := { s with arrivals := s.arrivals.filter fun a => !(a.owner == some o && a.chunk == x.ck) }
  if x.ck + 1 < b.chunks then
    updInst (updCtx s x.unit x.c fun y => { y with ck := x.ck + 1, abs := x.ck + 1, issued := false, retried := [], readyFor := 0, aged := false, used := s.turnNo })
      i.group i.k fun i => { i with timer := 0 }
  else
    let j := (findInst s i.group i.k).getD i
    let s := j.members.foldl (fun s m => memberPost s j m 1 0) s
    updInst (endOwner s o true) i.group i.k fun i => { i with state := 4, members := i.members.map fun m => { m with state := 4 } }

/-- A turn of the built-in program of an instance: it issues a chunk's writes, and once they are performed records the chunk. -/
def instChunk (s : State) (x : Ctx) (i : Inst) (g : Grp) : Out :=
  match rankOrder g i with
  | [] => .next s
  | m :: _ =>
    if instHeld s x i g then .next s
    else if x.issued then .next (instRecord s x i g m.blk)
    else instIssue s x i g m.blk

/-- The ranks whose arrivals a window's chunk needs, and their keys and sources. -/
def winRanks (y : Win) : List Nat := List.range (if y.kind = 1 then 1 else y.m)
def winArr (s : State) (x : Ctx) (y : Win) (r : Nat) : Option Arrival := heldArr s x (2 * y.w + r / 32) (r % 32)

/-- Does the built-in program of a window wait: for an arrival, or for its writes? -/
def winHeld (s : State) (x : Ctx) (y : Win) : Bool := !x.writes.isEmpty || !(winRanks y).all fun r => (winArr s x y r).isSome

/-- The results of a window's chunk (R334): addresses and bytes. -/
def winOuts (s : State) (x : Ctx) (y : Win) : List (Nat × List Byte) :=
  let data := fun (r : Nat) => ((winArr s x y r).map (arrBytes s x)).getD []
  let elems := fun (r : Nat) => elemsOf y.itype (data r) x.ce
  let wo := tyBytes y.otype
  let as := fun (r : Nat) => if y.otype = y.itype then data r else typeBytes y.otype (elems r)
  if y.kind = 1 then (List.range (winMembers s y)).map fun m => (x.b0.toNat + m * x.b3.toNat + x.ck * x.ce * wo, as 0)
  else if y.kind = 2 then [(x.b0.toNat + x.ck * x.ce * wo, typeBytes y.otype (combineAll y.func ((winRanks y).map elems)))]
  else (winRanks y).map fun r => (x.b0.toNat + r * (y.span / tyBytes y.itype) * wo + x.ck * x.ce * wo, as r)

/-- A turn of the built-in program of a window's KIND (R334): once every rank's arrival is held it issues the chunk's writes, and
once they are performed it updates the BO. -/
def winChunk (s : State) (x : Ctx) (y : Win) : Out :=
  if winHeld s x y then .next s
  else if x.issued then
    match winUpdate s { y with bo := x.b1 } (portNo x.unit) 1 0 with
    | none => ctxMem s x (boError s y.ten x.b1.toNat)
    | some (s, false) => .next s
    | some (s, true) =>
      .next (updCtx { s with arrivals := freeArrivals x.owner x.unit x.ck [] s.arrivals } x.unit x.c fun z =>
        { z with ck := (x.ck + 1) % max 1 z.nc, abs := z.abs + 1, issued := false, retried := [], readyFor := 0, aged := false, used := s.turnNo })
  else if x.laneBad && y.kind == 2 then .next (laneRetry s x)
  else arrChecked s x ((winRanks y).filterMap (winArr s x y)) <| pathChecked s x <|
    match planWrites s x.tenant (winOuts s x y) with
    | .error e => ctxMem s x e
    | .ok ps => .next (putWrites s x ps fun z => { z with issued := true, readyFor := 0, aged := false, used := s.turnNo })

/-- A turn of a context that runs a built-in program. -/
def builtinTurn (s : State) (x : Ctx) : Out :=
  match x.owner with
  | .window w => match findWin s w with
    | some y => winChunk s x y
    | none => .next s
  | .inst g k => match findInst s g k, findGrp s g with
    | some i, some y => instChunk s x i y
    | _, _ => .next s

/-- Can a context's next instruction issue (R360)? -/
def ctxReady (s : State) (x : Ctx) : Bool :=
  if x.pc < 1024 ∧ x.first < 1024 then
    match x.owner with
    | .window w => (findWin s w).any fun y => !winHeld s x y
    | .inst g k => match findInst s g k, findGrp s g with
      | some i, some y => !instHeld s x i y
      | _, _ => false
  else wordReady s x

/-! ## Arming and disarming -/

/-- The entry of the host's table for a window: zeros before it is first written (Table 12-1). -/
def getWin (s : State) (w : Nat) : Win := (findWin s w).getD { (default : Win) with w := w }
def putWin (s : State) (x : Win) : State :=
  { s with wins := if s.wins.any (fun y => y.w == x.w) then updWhere (fun y => y.w == x.w) (fun _ => x) s.wins else s.wins ++ [x] }

/-- The checks of R331 in its order: the reason of a failure. -/
def armFails (s : State) (x : Win) (kind : Nat) : Option Nat :=
  let sc := bitsOf x.wbind 24 4
  let entry := bitsOf x.wbind 0 12
  let chOk := (List.range 12).any fun i => x.ch == 2 ^ (8 + i)
  let grp := findGrp s x.wgroup
  if (kind = 2 ∧ x.func = 3) ∨ 1 < x.itype ∨ 1 < x.otype ∨ x.m = 0 ∨ 64 < x.m ∨ (kind = 1 ∧ x.m ≠ 1) ∨ !chOk ∨ x.span = 0 ∨
      2 ^ 19 < x.span ∨ x.span % max 1 x.ch ≠ 0 ∨ x.dst.toNat % 256 ≠ 0 ∨ (kind ≠ 2 ∧ tyBytes x.otype < tyBytes x.itype) ∨ sc = 0 ∨
      8 < sc ∨ !portUp s x.port ∨ !(entry == 0 || s.progs.any fun p => p.entry == entry) ∨ (freeCtx s (unitNo x.port)).isNone ∨
      (kind = 1 ∧ ((grp.map (·.mloc)).getD 0 = 0)) then some 1
  else if !winBoOk s x then some 3
  else if x.spill.toNat % 4096 ≠ 0 ∨ !spillOk s x.ten x.spill.toNat (2 * x.ch * x.m) then some 4
  else none

/-- ARM_WINDOW (R331, R358): an armed window is disarmed first. Before CALD is set, the write waits for it (R480). -/
def execArmWindow (w : Nat) (kind : BitVec 2) (s : State) : Out :=
  if 256 ≤ w then .next s
  else if !caldUp s then .next { s with armQ := s.armQ ++ [(w, kind)] }
  else
    let s := disarmWin (putWin s (getWin s w)) w true
    let x := getWin s w
    if kind = 0 then .next s
    else
      match armFails s x kind.toNat with
      | some r => .next (winFail s w r)
      | none =>
        let unit := unitNo x.port
        let wi := tyBytes x.itype
        let entry := bitsOf x.wbind 0 12
        let prog := s.progs.find? fun p => p.entry == entry
        let c : Ctx := { newCtx unit ((freeCtx s unit).getD 0) (.window w) with
          pc := entry, first := if entry = 0 then 0 else (prog.map (·.first)).getD 0,
          len := if entry = 0 then 1024 else (prog.map (·.len)).getD 0, b0 := x.dst, b1 := x.bo, b2 := x.spill, b3 := x.mstr,
          ce := x.ch / wi, le := x.ch / wi, nc := x.span / max 1 x.ch, ti := x.itype, sc := bitsOf x.wbind 24 4,
          prio := bitsOf x.wbind 30 2, tenant := x.ten,
          ks := mset (mset [] 0 (BitVec.ofNat 12 (2 * w))) 1 (BitVec.ofNat 12 (2 * w + 1)) }
        .next (updWin { s with ctxs := s.ctxs ++ [c] } w fun x => 
          { x with kind := kind.toNat, spilled := false, suspended := (findGrp s x.wgroup).any (groupOut s) })

/-- DISARM_WINDOW (R358). -/
def execDisarmWindow (w : Nat) (s : State) : Out :=
  .next (disarmWin { s with armQ := s.armQ.filter fun e => e.1 != w } w true)

/-! ## Arrivals -/

/-- May a chunk be held by a context (R364): its current chunk or the next, which wraps where its program uses NEXTC.WRAP? -/
def takesChunk (s : State) (x : Ctx) (c : Nat) : Bool :=
  c == x.ck || c == (if usesWrap s x then (x.ck + 1) % max 1 x.nc else x.ck + 1)

/-- The port unit of a message for an instance whose contexts do not run yet: that of its first context, once it has one. -/
def unitLater : Nat := 99

/-- Chunk bytes and number of sources of an owner's spill region (R345). -/
def spillShape (s : State) (o : Owner) : Nat × Nat := match o with
  | .window w => ((findWin s w).map fun y => (y.ch, y.m)).getD (0, 0)
  | .inst g k => ((findInst s g k).map fun i =>
      (((i.members.head?).map fun m => m.blk.ch.toNat).getD 0, ((findGrp s g).map (·.mloc)).getD 0)).getD (0, 0)

/-- The place of a spilled arrival in its owner's region (R363): for a rank of a window that of the rank; for a message that of its
source, or the first that is free. None where no place within the region is free (log 49). -/
def spillPlace (s : State) (o : Owner) (z : Ctx) (rank : Option Nat) (src chunk len : Nat) : Option Nat :=
  let sh := spillShape s o
  let at_ := fun (j : Nat) => z.b2.toNat + (2 * j + chunk % 2) * sh.1
  let free := fun (j : Nat) => decide (j < sh.2 ∧ len ≤ sh.1) && !s.arrivals.any fun a => a.owner == some o && a.spilled && a.place == at_ j
  ((match rank with
    | some r => [r]
    | none => src :: List.range sh.2).find? free).map at_

/-- The rank that a window's arrival is from: its tag is one that only a rank page has. -/
def rankOfTag (s : State) (o : Owner) (key src : Nat) (ty : Nat) : Option Nat := match o with
  | .window w => (findWin s w).bind fun y => if y.itype = ty ∧ 32 * (key % 2) + src < y.m then some (32 * (key % 2) + src) else none
  | .inst _ _ => none

/-- An owner's arrival spills: SPILLED is set from now on (R345). -/
def markSpilled (s : State) (o : Owner) (n : Nat) : State := match o with
  | .window w => updWin s w fun y => { y with spilled := true, spilledBytes := y.spilledBytes + n }
  | .inst g k => updInst s g k fun i => { i with spilled := true }

/-- An entry of the error log for an error of the link to a port (R485, log 107). -/
def logLink (s : State) (port : Nat) : State := logError s 4 8 0xFFFF (BitVec.ofNat 32 port) 0

/-- A message's bytes as they came in at a unit, checked (R344): at the first failure they are sent again, at the second the owner
ends. -/
def linkChecked (s : State) (m : Msg) (unit : Nat) (o : Option Owner) (data : List Byte) (go : Out) : Out :=
  if sumOf (m.sent.getD data) = sumOf data then go
  else
  let s := logLink s (portNo unit)
  if m.tries = 0 then .next { s with msgs := updWhere (fun x => x.id == m.id) (fun x => { x with sent := none, tries := 1 }) s.msgs }
  else .next (o.elim (dropMsg s m.id) (endWith (dropMsg s m.id) · 3))

/-- A spill fails (R345, R478): the window, or the instance, ends for reason 4. -/
def failSpill (s : State) (o : Owner) : State := match o with
  | .window w => winFail s w 4
  | .inst g k => endInst s g k 4 4

/-- An arrival is held in a free slot; without one it goes to the spill region of its key's owner (R345, R363). -/
def holdArrival (s : State) (m : Msg) (a : Arrival) : Out :=
  if slotsUsed s < 256 then .next { dropMsg s m.id with arrivals := s.arrivals ++ [a] }
  else
    match a.owner.bind fun o => (ownerCtx s o).map fun z => (o, z) with
    | none => .next s
    | some (o, z) =>
      match spillPlace s o z (rankOfTag s o a.key a.src a.ty) a.src a.chunk a.data.length with
      | none => .next s
      | some p =>
        match devRange s (rootDie s) z.tenant .store p a.data.length with
        | .error e => ctxMem s z e
        | .ok ps =>
          if !devUp s ps then .next (failSpill s o)
          else
          let s := devPut .abuf ps a.data (markSpilled (dropMsg s m.id) o a.data.length)
          .next { s with arrivals := s.arrivals ++ [{ a with data := [], spilled := true, place := p, len := a.data.length, sum := sumOf a.data }] }

/-- ARRIVAL_HELD (R363, R364): a chunk's last flit comes in at the port unit, where its receiving context takes chunks ck and
ck + 1 only. Of one tag's, that of the earlier round comes first (R333). One whose owner has ended is discarded; one for an instance that has not begun waits; one whose key has no owner
waits for a free slot and is held (log 86). -/
def execArrivalHeld (msg : Nat) (s : State) : Out :=
  match s.msgs.find? fun x => x.id == msg with
  | some m =>
    match m.body with
    | .arrive owner unit0 key chunk src ty data =>
      let unit := if unit0 = unitLater then ((owner.bind (ownerCtx s)).map (·.unit)).getD unit0 else unit0
      let a : Arrival := { owner := owner, unit := unit, key := key, chunk := chunk, src := src, ty := ty, data := m.sent.getD data,
                           spilled := false, pkg := m.pkg }
      let mine := fun (x : Msg) => match x.body with
        | .arrive o u k c r _ _ => o == owner && u == unit0 && k == key && c == chunk && r == src
        | _ => false
      let first := ((s.msgs.find? mine).map (·.id)) == some msg
      let hold := if first then linkChecked s m unit owner data (holdArrival s m a) else .next s
      match owner with
      | none => hold
      | some o =>
        let open_ : Bool := match o with
          | .inst g k => ((findInst s g k).map fun i => i.state == 1).getD true
          | .window _ => false
        match s.ctxs.find? fun x => x.owner == o && x.unit == unit, ownerCtx s o with
        | none, none => if open_ then .next s else .next (dropMsg s msg)
        | some x, _ => if takesChunk s x chunk then hold else .next s
        | none, some _ => hold
    | _ => .next s
  | none => .next s

/-- Is an endpoint in the peer table of a valid group (R383)? -/
def knownPeer (s : State) (ep : BitVec 64) : Bool :=
  s.grps.any fun g => g.valid && (List.range g.p).any fun q =>
    match devGet s (rootDie s) g.tenant (g.peers.toNat + 16 * q) 8 with
    | some bs => fieldAt bs 0 8 == ep.toNat
    | none => false

/-- A Luanil message on its way from another package to a port unit. -/
def sendPeer (s : State) (pkg : Nat) (b : MsgBody) : State :=
  { s with msgs := s.msgs ++ [{ id := s.nextId, body := b, pkg := pkg }], nextId := s.nextId + 1 }

/-- UE_MESSAGE_RECEIVE (R344, R383, R384): an arrival on its way, tagged with its sender's port unit, or discarded; a request of a
feature that is absent gets its standard's response (R2); a second message of one tag whose checksum fails ends its owner with
status 3. The header is Table R384's, its reserved bytes ignored. -/
def execUeMessageReceive (m : UeMsg) (s : State) : Out :=
  if !portUp s m.port ∨ m.port < 16 then .next s
  else if m.kind ≠ .rudSend then .next { s with ueRefused := s.ueRefused + 1 }
  else if !knownPeer s m.endpoint then .next { s with ueDropped := s.ueDropped + 1 }
  else
    let h := fieldAt m.bytes
    let data := (m.bytes.drop 32).take (h 16 4)
    let o : Owner := if 0xFFFFF000 ≤ h 0 4 then .window (h 0 4 - 0xFFFFF000) else .inst (h 0 4) (h 4 4)
    let good := sumOf data == BitVec.ofNat 32 (h 20 4)
    let chunk := fun (s : State) (unit : Nat) => sendPeer s (h 24 2) (.arrive (some o) unit (h 8 2) (h 12 4) (h 10 1) (h 11 1) data)
    let tag := (o, h 8 2, h 12 4, h 10 1)
    if !good then
      let s := logLink s m.port
      if s.ueFails.contains tag then .next (endWith { s with ueFails := s.ueFails.filter (· != tag) } o 3)
      else .next { s with ueFails := tag :: s.ueFails }
    else
      let s := { s with ueFails := s.ueFails.filter (· != tag) }
      match ownerCtx s o with
      | some x => .next (chunk s x.unit)
      | none =>
        let waits : Bool := match o with
          | .inst g k => ((findInst s g k).map fun i => i.state == 1).getD true
          | .window _ => false
        .next (if waits then chunk s unitLater else s)

/-! ## Time -/

/-- Other packages answer some of the sends that wait, which ones being free (R382; log 121). -/
def answerSends (s : State) : State :=
  { s with ueWaits := (s.ueWaits.zipIdx.filter fun e => Config.freePick s.freeNo e.2 % 2 == 1).map (·.1), freeNo := s.freeNo + 1 }

/-- MEMBER_TIMEOUT (R346, R347, R382). -/
def execMemberTimeout (o : Owner) (s : State) : Out :=
  match o with
  | .window w => match findWin s w with
    | some x => if winLate s x then .next (winEnd s w 2) else .next s
    | none => .next s
  | .inst g k => match findInst s g k with
    | some i => if instLate s i then .next (endInst s g k 2 0) else .next s
    | none => .next s

/-! ## The program store -/

/-- The addresses of the LOOPs and ENDLs of a program that break R365: an ENDL without a LOOP, a LOOP more than four deep, a LOOP
without an ENDL; the open loops are given, the latest first. -/
def badLoops : List Nat → Nat → List (BitVec 64) → List Nat
  | open_, _, [] => open_
  | open_, a, x :: xs =>
    if lOp x = 0x0A then (if 4 ≤ open_.length then [a] else []) ++ badLoops (a :: open_) (a + 1) xs
    else if lOp x = 0x0B then (match open_ with
      | [] => a :: badLoops [] (a + 1) xs
      | _ :: rest => badLoops rest (a + 1) xs)
    else badLoops open_ (a + 1) xs

/-- The first of them. -/
def badLoop (a : Nat) (ws : List (BitVec 64)) : Option Nat := (badLoops [] a ws).min?

/-- Is a word legal at an address of a program (R365, R367)? -/
def wordFits (first len a : Nat) (x : BitVec 64) : Bool :=
  match decodeLuanil x with
  | .ok (.bnz w) | .ok (.jmp w) =>
    let t := (a : Int) + signedOf 12 w.key.toNat
    decide ((first : Int) ≤ t ∧ t < (first + len : Nat))
  | .ok _ => true
  | .error _ => false

/-- The address that a refused load reports (R365): the program's first address where no word is at fault (log 103), else that of
the first word that is; none for a load that is accepted. -/
def loadError (s : State) (first entry : Nat) (ws : List (BitVec 64)) : Option Nat :=
  let n := ws.length
  if !decide (1024 ≤ first ∧ first + n ≤ 4096 ∧ first ≤ entry ∧ entry < first + n) ∨
      s.ctxs.any (fun x => decide (1024 ≤ x.first ∧ x.first < first + n ∧ first < x.first + x.len)) then some first
  else
    let bad := (List.range n).find? fun i => !wordFits first n (first + i) (ws.getD i 0)
    match bad, badLoop first ws with
    | none, none => none
    | some i, none => some (first + i)
    | none, some a => some a
    | some i, some a => some (min (first + i) a)

/-- Extend a measurement (R483): M0 to M3 are entries 0 to 3. -/
def measure (s : State) (i : Nat) (image : List Byte) : State :=
  let old := s.meas.getD i (List.replicate 32 0)
  let new := sha256 (old ++ sha256 image)
  { s with meas := (List.range 4).map fun k => if k = i then new else s.meas.getD k (List.replicate 32 0) }

/-- PROGRAM_LOAD (R365): a refused load writes nothing and reports an address. -/
def execProgramLoad (first entry : Nat) (words : List (BitVec 64)) (s : State) : Out :=
  match loadError s first entry words with
  | some a => .next { s with loadBad := some a }
  | none =>
    let n := words.length
    let old := s.progs.filter fun p => !decide (p.first < first + n ∧ first < p.first + p.len)
    .next (measure { s with store := msetList s.store first words, progs := old ++ [{ first := first, len := n, entry := entry }] } 3
      (words.flatMap (toBytes · 8)))

end Sys2Proof.Machine
end

