-- ==== Sys2Proof/Machine/Control.lean ====
section
/-! DEFINITION. Sys2Proof/Machine/Control.lean: the control class (R87-R106) and the fragments' events (R82, R94, R95). -/

namespace Sys2Proof.Machine

open Sys2Proof

/-- The control class issues under R57. -/
def ctlCls : IssCls := { serial := true }

/-! ## Transfers (R87, R88, R101) -/

/-- A whole-fragment transfer: not taken, taken to where `go` says, or trap 0x10 (R87). -/
def transfer (x : Iss) (go : Out) : Out :=
  if x.tp = 0 then x.skip else if x.tp ≠ x.act then x.trapT 0x10 0 else go

/-- A target supplied by a register pair (R88). -/
def regTarget (x : Iss) (go : BitVec 64 → Out) : Out :=
  let ts := threadsOf x.tp
  let tgt := x.src2 x.w.a (ts.headD 0)
  if ts.any fun t => x.src2 x.w.a t != tgt then x.trapT 0x10 0
  else if bitsOf tgt 56 8 ≠ 0 ∨ bitsOf tgt 0 2 ≠ 0 then x.trap { cause := 0x03, tmask := x.tp, addr := tgt }
  else go tgt

/-- The link pair receives the next instruction's address (R101). -/
def writeLink (x : Iss) (p : Spindle) : Spindle := writeDst p x.w.d 2 0 (x.nextPc.setWidth 128)

/-- BRA (R100). -/
def execBra (w : JWord) (s : State) : Out :=
  issue (.bra w) ctlCls s fun x => transfer x (.next (x.commit (x.f.pc + jDisp w) id))

/-- JMPS (R101). -/
def execJmps (w : JWord) (s : State) : Out :=
  issue (.jmps w) ctlCls s fun x => transfer x (regTarget x fun tgt => .next (x.commit tgt id))

/-- CALL (R101). -/
def execCall (w : JWord) (s : State) : Out :=
  issue (.call w) ctlCls s fun x => transfer x (.next (x.commit (x.f.pc + jDisp w) (writeLink x)))

/-- CALLS (R101): the target is read before the link is written. -/
def execCalls (w : JWord) (s : State) : Out :=
  issue (.calls w) ctlCls s fun x => transfer x (regTarget x fun tgt => .next (x.commit tgt (writeLink x)))

/-- The debug service, while attached, records a return (R101). -/
def noteRet (x : Iss) (tgt : BitVec 64) (p : Spindle) : Spindle :=
  if debugOn x.s x.t then { p with rets := (x.f.pc, tgt) :: p.rets } else p

/-- RET (R101). -/
def execRet (w : JWord) (s : State) : Out :=
  issue (.ret w) ctlCls s fun x => transfer x (regTarget x fun tgt => .next (x.commit tgt (noteRet x tgt)))

/-! ## Structured divergence (R91) -/

/-- Nesting counter of a thread. -/
def nestOf (p : Spindle) (t : Nat) : Nat := (mget p.nest t).toNat

/-- The condition of IF, BREAK and CONT for a thread (R90). -/
def condHolds (p : Spindle) (d : BitVec 10) (t : Nat) : Bool :=
  let n := bitsOf d 0 6
  if n = 63 then true else (pget p n t) != d.getLsbD 6

/-- New counters for the live threads of the fragment: trap 0x09 where one exceeds 63, else they are written and the
program counter goes where `pc` says for them. -/
def nestTo (x : Iss) (n : Nat → Nat) (pc : Bool → BitVec 64) : Out :=
  let ms := threadsOf (liveIn x.p x.f)
  if ms.any fun t => 63 < n t then x.trapT 0x09 0
  else
    let some0 := ms.any fun t => n t == 0
    .next (x.commit (pc some0) fun p => { p with nest := ms.foldl (fun c t => mset c t (BitVec.ofNat 6 (n t))) p.nest })

/-- IF, ELSE, BREAK, CONT: skip forward when no thread is left active. -/
def skipPc (x : Iss) (some0 : Bool) : BitVec 64 := if some0 then x.nextPc else x.f.pc + jDisp x.w

/-- IF (R91). -/
def execIf (w : JWord) (s : State) : Out :=
  issue (.ifI w) ctlCls s fun x =>
    nestTo x (fun t => let c := nestOf x.p t; if 0 < c then c + 1 else if condHolds x.p w.d t then 0 else 1) (skipPc x)

/-- ELSE (R91). -/
def execElse (w : JWord) (s : State) : Out :=
  issue (.elseI w) ctlCls s fun x =>
    nestTo x (fun t => let c := nestOf x.p t; if c = 0 then 1 else if c = 1 then 0 else c) (skipPc x)

/-- ENDIF (R91). -/
def execEndif (w : JWord) (s : State) : Out :=
  issue (.endif w) ctlCls s fun x => nestTo x (fun t => nestOf x.p t - 1) (fun _ => x.nextPc)

/-- LOOP (R91). -/
def execLoop (w : JWord) (s : State) : Out :=
  issue (.loopI w) ctlCls s fun x =>
    if x.act = 0 then .next (x.commit (x.f.pc + jDisp w) id)
    else nestTo x (fun t => let c := nestOf x.p t; if 0 < c then c + 2 else 0) (fun _ => x.nextPc)

/-- BREAK (R91). -/
def execBreak (w : JWord) (s : State) : Out :=
  issue (.breakI w) ctlCls s fun x =>
    nestTo x (fun t => if x.act.getLsbD t && condHolds x.p w.d t then w.a.toNat + 2 else nestOf x.p t) (skipPc x)

/-- CONT (R91). -/
def execCont (w : JWord) (s : State) : Out :=
  issue (.contI w) ctlCls s fun x =>
    nestTo x (fun t => if x.act.getLsbD t && condHolds x.p w.d t then w.a.toNat + 1 else nestOf x.p t) (skipPc x)

/-- ENDLOOP (R91). -/
def execEndloop (w : JWord) (s : State) : Out :=
  issue (.endloop w) ctlCls s fun x =>
    let first := fun t => let c := nestOf x.p t; if c = 1 then 0 else c
    let ms := threadsOf (liveIn x.p x.f)
    if ms.any fun t => first t == 0 then nestTo x first (fun _ => x.f.pc + jDisp w)
    else nestTo x (fun t => first t - 2) (fun _ => x.nextPc)

/-! ## Fragments (R93-R96) -/

/-- The join entries on a fragment's chain, innermost first; a spindle has at most seven. -/
def joinChain (p : Spindle) : Nat → Option Nat → List Nat
  | 0, _ => []
  | _, none => []
  | n + 1, some j =>
    match p.joins.find? fun x => x.id == j with
    | none => []
    | some x => j :: joinChain p n x.parent

/-- What a spindle holds by fragment, with fragments `ids` fused into `i` (R94, R99). -/
def renameFrags (ids : List Nat) (i : Nat) (p : Spindle) : Spindle :=
  let go := fun (k : Nat) => if ids.contains k then i else k
  { p with pend := p.pend.map fun x => { x with frag := go x.frag }, hfrag := go p.hfrag,
           traps := p.traps.map fun e => (go e.1, e.2), stepFrag := p.stepFrag.map go }

/-- Fuse the fragments at a join whose arrived mask equals its expected mask (R94, R96): one fragment with that mask at
the join address, its link the parent, in the place of the fragment that split; a join that expects no thread frees. -/
def fuseAt (turn : Nat) (p : Spindle) (j : Nat) : Spindle :=
  match p.joins.find? fun x => x.id == j with
  | none => p
  | some e =>
    if e.arrived ≠ e.expected then p
    else
      let at_ := p.frags.filter fun f => f.join == some j && f.st == .atJoin
      let rest := p.frags.filter fun f => !(f.join == some j && f.st == .atJoin)
      let p := noLatch { p with joins := p.joins.filter fun x => x.id != j }
      match at_ with
      | [] => p
      | f0 :: _ =>
        let ids := at_.map (·.id)
        let id := if rest.any fun f => f.id == e.own then ids.foldl min f0.id else e.own
        let fused : Frag := { f0 with id := id, mask := e.expected, pc := e.addr, join := e.parent, st := .ready, fetched := none, replay := none, onChip := true, readyFor := 0, used := turn }
        { renameFrags ids id p with frags := fused :: rest }

/-- A number that no fragment of a spindle has, nor takes by fusing. -/
def freeFragId (p : Spindle) : Nat := (p.frags.map (·.id) ++ p.joins.map (·.own)).foldl (fun a b => max a (b + 1)) (p.hfrag + 1)

/-- Threads of a mask leave a fragment and the spindle (R96, R102): every join on the chain expects them no longer, a
fragment without a live thread ends, and a join that is then complete fuses. Pending traps are discarded where the handler
ends the spindle, or on a split spindle its own fragment (R98, R389; log 93): no fragment is then the handler's (log 41). -/
def exitThreads (turn : Nat) (frag : Nat) (m : BitVec 8) (p : Spindle) : Spindle :=
  match p.frag? frag with
  | none => p
  | some f =>
    let chain := joinChain p 8 f.join
    let joins := p.joins.map fun x => if chain.contains x.id then { x with expected := x.expected &&& ~~~m } else x
    let f' := { f with mask := f.mask &&& ~~~m }
    let ended := p.tlv && f'.mask == 0 && frag == p.hfrag
    let frags := (p.frags.map fun y => if y.id == frag then f' else y).filter fun y => y.mask != 0
    let p := { p with live := p.live &&& ~~~m, joins := joins, frags := frags, hfrag := if ended then freeFragId p else p.hfrag }
    let p := chain.foldl (fuseAt turn) p
    if p.live = 0 then { p with traps := [], frags := [], joins := [] }
    else if ended then { p with traps := [] }
    else p

/-- EXIT (R102). -/
def execExit (w : JWord) (s : State) : Out :=
  issue (.exitI w) ctlCls s fun x =>
    if x.tp = 0 then x.skip
    else .next (updSp (x.commit x.nextPc id) x.r.sp (exitThreads s.turnNo x.r.frag x.tp))

/-- The quarter of a spindle (R28). -/
def quarterOf (spx : Nat) : Nat := spx % 64 / 16

/-- Split-table entries of a core's quarter that are on chip: spindle, whether a join, its number, whether it is a ready
fragment, its last use and last move (R95). -/
def splitEntries (s : State) (t : Team) (q : Nat) (onChip : Bool) : List (Nat × Bool × Nat × Bool × Nat × Nat) :=
  (t.spindles.filter fun p => quarterOf p.spx == q).flatMap fun p =>
    ((p.frags.filter fun f => f.id != 0 && f.onChip == onChip).map fun f =>
      (p.spx, false, f.id, mayStart s t p f, f.used, f.since)) ++
    ((p.joins.filter fun j => j.onChip == onChip).map fun j => (p.spx, true, j.id, false, j.used, j.since))

/-- The bytes of a split-table entry (R403, Table 14-5). -/
def splitBytes (p : Spindle) (e : Nat × Bool × Nat) : List Byte :=
  if e.2.1 then (((p.joins.find? fun j => j.id == e.2.2).map (joinEntry p)).getD [])
  else ((p.frag? e.2.2).map (fragEntry p)).getD []

/-- The place of an entry in the entry field of its spindle's frame. -/
def splitIndex (p : Spindle) (e : Nat × Bool × Nat) : Nat :=
  if e.2.1 then ((joinLink p (some e.2.2)).toNat) else ((frameFrags p).findIdx? fun f => f.id == e.2.2).getD 0

/-- The split save area of a spindle (R95, R405): the entries' bytes of its header in its core's part of the swap area. -/
def splitSaveAt (g : Grid) (t : Team) (spx : Nat) : Nat :=
  (g.swap.toNat + t.lin g * 0x300000 + 0x240000 + 1024 * spx + 0x200) % 2 ^ 64

/-- Write an entry that moves out to its spindle's split save area; a firmware team has none. -/
def saveEntry (s : State) (t : Team) (e : Nat × Bool × Nat) : State :=
  match findGrid s t.grid, findSp s { team := t.id, spx := e.1 } with
  | some g, some p => devSet s (.l2 t.die) t.die g.tenant (splitSaveAt g t e.1 + 16 * splitIndex p e) (splitBytes p e)
  | _, _ => s

/-- Move one entry on or off chip, and count the move (R95). Moves are numbered, so that entries come back in order. -/
def moveEntry (s : State) (t : Team) (e : Nat × Bool × Nat) (onto : Bool) : State :=
  let (n, s) := fresh s
  let s := if onto then s else saveEntry s t e
  let s := updSp s { team := t.id, spx := e.1 } fun p =>
    if e.2.1 then
      { p with joins := p.joins.map fun j => if j.id == e.2.2 then { j with onChip := onto, since := n } else j }
    else p.updFrag e.2.2 fun f => { f with onChip := onto, since := n }
  let k := 4 * t.core + quarterOf e.1
  updDie s t.die fun d => { d with splsp := mset d.splsp k (mget d.splsp k + 1) }

/-- The entry with the least key. DESIGN CHOICE: of several with that key, such as the fragment and the join of one split, the
first of the list (log 109). -/
def leastBy {α : Type} (key : α → Nat) : List α → Option α
  | [] => none
  | x :: r => match leastBy key r with
    | none => some x
    | some y => if key y < key x then some y else some x

/-- The entry to move out: non-ready fragments and joins first, least recently used; then ready fragments, least recently
issued (R95). The issuing fragment stays. -/
def victim (s : State) (r : FragRef) (q : Nat) : Option (Nat × Bool × Nat) :=
  match findTeam s r.sp.team with
  | none => none
  | some t =>
    let es := (splitEntries s t q true).filter fun e => !(e.1 == r.sp.spx && !e.2.1 && e.2.2.1 == r.frag)
    let idle := es.filter fun e => !e.2.2.2.1
    let pick := match leastBy (fun e => e.2.2.2.2.1) idle with
      | some e => some e
      | none => leastBy (fun e => e.2.2.2.2.1) es
    pick.map fun e => (e.1, e.2.1, e.2.2.1)

/-- Make two entries of the quarter's 64 free (R95). -/
def makeRoom (r : FragRef) (q : Nat) : Nat → State → State
  | 0, s => s
  | n + 1, s =>
    match findTeam s r.sp.team with
    | none => s
    | some t =>
      if (splitEntries s t q true).length + 2 ≤ 64 then s
      else match victim s r q with
        | none => s
        | some e => makeRoom r q n (moveEntry s t e false)

/-- The split of R93: G takes the threads of T to the target, F keeps the rest, and both link to a new join. `seq` numbers
the move of the two entries onto the chip. -/
def splitFrag (turn seq : Nat) (frag : Nat) (m : BitVec 8) (tgt join : BitVec 64) (p : Spindle) : Spindle :=
  match p.frag? frag with
  | none => p
  | some f =>
    let jid := (p.joins.map (·.id)).foldl (fun a b => max a (b + 1)) 0
    let gid := freeFragId p
    let j : JoinEnt := { id := jid, addr := join, expected := liveIn p f, arrived := 0, parent := f.join, own := frag, onChip := true, used := turn, since := seq }
    let g : Frag := { f with id := gid, mask := m, pc := tgt, join := some jid, st := .ready, fetched := none, onChip := true, used := turn, since := seq }
    let p := p.updFrag frag fun f => { f with mask := liveIn p f &&& ~~~m, join := some jid }
    noLatch { p with joins := j :: p.joins, frags := p.frags ++ [g] }

/-- Can the split save area of a team's spindles be reached, should an entry have to move out (R15, R95)? -/
def splitAreaUp (s : State) (t : Team) : Bool :=
  ((findGrid s t.grid).map fun g => areaUp s t.die g.tenant ((g.swap.toNat + t.lin g * 0x300000 + 0x240000) % 2 ^ 64) (1024 * 512)).getD true

/-- BRD (R93). -/
def execBrd (w : JWord) (s : State) : Out :=
  issue (.brd w) ctlCls s fun x =>
    if x.tp = 0 then x.skip
    else if x.tp = x.act then .next (updSp (x.commit (x.f.pc + jDisp w) id) x.r.sp noLatch)
    else if 62 < (splitEntries x.s x.t (quarterOf x.p.spx) true).length && !splitAreaUp x.s x.t then .next x.s
    else
      let (n, s1) := fresh (makeRoom x.r (quarterOf x.p.spx) 64 (x.commit x.nextPc id))
      .next (updSp s1 x.r.sp (splitFrag s.turnNo n x.r.frag x.tp (x.f.pc + jDisp w) (x.f.pc + jJoin w)))

/-- FRAGMENT_AT_JOIN (R94): a fragment about to issue at its join address, which its windows let (R55), arrives there and stops; in a halted spindle the
focus of a step alone, whose step then issues nothing more (R99). -/
def execFragmentAtJoin (f : FragRef) (s : State) : Out :=
  match findTeam s f.sp.team, findSp s f.sp, findFrag s f with
  | some t, some p, some g =>
    match g.join with
    | some j =>
      if teamIssues s t && p.st == .running && (!p.halted || p.stepFrag == some g.id) && g.st == .ready && entriesOnChip p g && (!p.tlv || g.id == p.hfrag) &&
          joinAddr p g == some g.pc && windowLets p g ((g.fetched.map wordCls).getD {}) then
        .next (updSp s f.sp fun p =>
          let p := p.updFrag f.frag fun y => { y with st := .atJoin, fetched := none, waited := 0 }
          let p := { p with joins := p.joins.map fun e => if e.id == j then { e with arrived := e.arrived ||| g.mask, used := s.turnNo } else e }
          endStep (fuseAt s.turnNo p j))
      else .next s
    | none => .next s
  | _, _, _ => .next s

where
  /-- A step ends when its fragment waits at its join; the fragment that it fused into may still issue the instruction there. -/
  endStep (p : Spindle) : Spindle :=
    let go := p.stepFrag.filter fun i => (p.frag? i).any fun f => f.st != .atJoin
    { p with stepFrag := go, stepWaits := p.stepFrag.isSome && go.isNone }

/-- FRAGMENT_AGED (R82): ready for 32 issue cycles without issuing. -/
def execFragmentAged (f : FragRef) (s : State) : Out :=
  match findFrag s f with
  | some g => if 32 ≤ g.readyFor ∧ g.st = .ready then .next (updFrag s f fun y => { y with aged := true }) else .next s
  | none => .next s

/-- The resident team of a core. -/
def teamOnCore (s : State) (die core : Nat) : Option Team :=
  s.teams.find? fun t => t.die == die && t.core == core && t.st == .resident

/-- SPLIT_ENTRY_RESTORE (R95): the entry that has been out longest comes back as space frees. -/
def execSplitEntryRestore (die core quarter : Nat) (s : State) : Out :=
  match teamOnCore s die core with
  | none => .next s
  | some t =>
    if (splitEntries s t quarter true).length < 64 then
      match leastBy (fun e => e.2.2.2.2.2) (splitEntries s t quarter false) with
      | some e => .next (moveEntry s t (e.1, e.2.1, e.2.2.1) true)
      | none => .next s
    else .next s

/-- SPLIT_EXCHANGE (R95): while any entry is out, every 4,096 cycles, the fragment entry longest on chip is exchanged for
the entry longest out. -/
def execSplitExchange (die core quarter : Nat) (s : State) : Out :=
  match teamOnCore s die core with
  | none => .next s
  | some t =>
    match leastBy (fun e => e.2.2.2.2.2) (splitEntries s t quarter false),
      leastBy (fun e => e.2.2.2.2.2) ((splitEntries s t quarter true).filter fun e => !e.2.1) with
    | some o, some i => .next (moveEntry (moveEntry s t (i.1, i.2.1, i.2.2.1) false) t (o.1, o.2.1, o.2.2.1) true)
    | _, _ => .next s

/-! ## Lane and branch-unit forms of the class -/

/-- RFL (R103). -/
def execRfl (w : JWord) (s : State) : Out :=
  issue (.rfl w) ctlCls s fun x =>
    match threadsOf x.tp with
    | [] => x.skip
    | f :: ts =>
      let n := if w.mod.getLsbD 0 then 2 else 1
      let v := x.src w.a n false f
      let pn := bitsOf w.mod 6 6
      x.next fun p =>
        let p := writeDst p w.d n 0 v
        if pn = 63 then p else (f :: ts).foldl (fun p t => pset p pn t (x.src w.a n false t == v)) p

/-- The value of a GETID selector for a thread (Table 3-6). -/
def getidValue (x : Iss) (g : Grid) (sel t : Nat) : Nat :=
  if sel = 0x00 then t
  else if sel = 0x01 then x.tp.toNat
  else if sel = 0x02 then x.p.spx
  else if sel = 0x03 then x.p.role
  else if sel = 0x04 then x.p.rlx
  else if sel = 0x05 then x.p.rlx / gangSize g x.p.role
  else if sel = 0x06 then gangSize g x.p.role
  else if sel = 0x07 then x.p.spx % 64
  else if sel = 0x08 then quarterOf x.p.spx
  else if sel = 0x09 then x.p.spx / 64
  else if sel = 0x0A then (g.roles.map (·.spt)).sum
  else if sel = 0x0B then (roleOf g x.p.role).spt
  else if sel = 0x10 then x.t.vcx
  else if sel = 0x11 then x.t.vcy
  else if sel = 0x12 then x.t.vcx / 2
  else if sel = 0x13 then x.t.vcy / 2
  else if sel = 0x14 then x.t.kix
  else if sel = 0x15 then dixOf g x.t.vcx x.t.vcy
  else if sel = 0x16 then dpxOf g x.t.vcx
  else if sel = 0x17 then dpyOf g x.t.vcy
  else if sel = 0x18 then x.t.die
  else if sel = 0x19 then g.x0
  else if sel = 0x1A then g.y0
  else if sel = 0x1B then g.w
  else g.h

/-- GETID (R104). DESIGN CHOICE: a firmware core's team, which no launch made, reads the launch's numbers as 0, and a gang size
of 1 (log 110). -/
def execGetid (w : JWord) (s : State) : Out :=
  issue (.getid w) ctlCls s fun x =>
    let g := (findGrid s x.t.grid).getD default
    x.next (x.writeAll 1 (x.threads.map fun t => (t, BitVec.ofNat 128 (getidValue x g (bitsOf w.mod 0 8) t))))

/-- NOP (R105). -/
def execNop (w : JWord) (s : State) : Out := issue (.nop w) ctlCls s fun x => x.skip

/-- SLEEP (R106). -/
def execSleep (w : JWord) (s : State) : Out :=
  issue (.sleep w) ctlCls s fun x =>
    let n := bitsOf w.mod 0 20
    if x.tp = 0 ∨ n = 0 then x.skip
    else .next (updFrag (x.commit x.nextPc id) x.r fun f => { f with st := .sleeping n })

/-- SLEEP_EXPIRY (R106): the count has run down. -/
def execSleepExpiry (f : FragRef) (s : State) : Out :=
  match findFrag s f with
  | some g => if g.st = .sleeping 0 then .next (updFrag s f fun y => { y with st := .ready, readyFor := 0 }) else .next s
  | none => .next s

end Sys2Proof.Machine
end

