-- ==== Sys2Proof/Machine/Integer.lean ====
section
/-! DEFINITION. Sys2Proof/Machine/Integer.lean: the integer and bit forms (R110-R123). -/

namespace Sys2Proof.Machine

open Sys2Proof

/-- Element width of an integer type code (Table 2-8). -/
def elemW (ty : Nat) : Nat := if ty < 2 then 32 else if ty < 4 then 16 else if ty < 6 then 8 else 64
/-- Is the type signed? -/
def elemS (ty : Nat) : Bool := ty == 1 || ty == 3 || ty == 5
/-- Elements of an operand. -/
def elemCount (ty : Nat) : Nat := if ty = 6 then 1 else 32 / elemW ty

/-- Element `e` of a value, read per the type's signedness (R112). -/
def elemOf (ty e : Nat) (x : Nat) : Int :=
  let w := elemW ty
  if elemS ty then signedOf w (natBits x (w * e) w) else (natBits x (w * e) w : Int)

/-- Lowest and highest value of the type. -/
def typeLo (ty : Nat) : Int := if elemS ty then -(2 ^ (elemW ty - 1) : Int) else 0
def typeHi (ty : Nat) : Int := if elemS ty then 2 ^ (elemW ty - 1) - 1 else 2 ^ elemW ty - 1

/-- The clamp of K[0] (R112). -/
def clampTo (ty : Nat) (on : Bool) (r : Int) : Int := if on then min (max r (typeLo ty)) (typeHi ty) else r

/-- Build a value from its elements. -/
def ofElems (ty : Nat) (f : Nat → Int) : Nat :=
  ((List.range (elemCount ty)).map fun e => wrapTo (elemW ty) (f e) * 2 ^ (elemW ty * e)).sum

/-- An element operation on three values (R112). -/
def elemOp (ty : Nat) (clamp : Bool) (op : Int → Int → Int → Int) (a b c : Nat) : Nat :=
  ofElems ty fun e => clampTo ty clamp (op (elemOf ty e a) (elemOf ty e b) (elemOf ty e c))

/-- K[0] of a register form. -/
def clampBit (w : JWord) : Bool := !jImm w && jK w % 2 == 1

/-- A form whose result for each thread is a function of its A, B and C values of `na`, `nb`, `nc` registers. -/
def intForm (i : Instr) (w : JWord) (nd na nb nc : Nat) (s : State) (f : Nat → Nat → Nat → Nat) : Out :=
  issue i {} s fun x =>
    let sg := elemS (jType w)
    x.compute nd (x.threads.map fun t =>
      (t, BitVec.ofNat 128 (f (x.src w.a na sg t).toNat (x.src w.b nb sg t).toNat
        (if jImm w then 0 else (x.src (jC w) nc sg t).toNat)))) id

/-- The element forms of two or three sources. -/
def elemForm (i : Instr) (w : JWord) (op : Nat → Int → Int → Int → Int) (s : State) : Out :=
  let n := intRegs w
  intForm i w n n n n s fun a b c => elemOp (jType w) (clampBit w) (op (elemW (jType w))) a b c

/-! ## Element arithmetic (R112-R115) -/

/-- IADD (R112). -/
def execIadd (w : JWord) (s : State) : Out := elemForm (.iadd w) w (fun _ x y _ => x + y) s

/-- ISUB (R112). -/
def execIsub (w : JWord) (s : State) : Out := elemForm (.isub w) w (fun _ x y _ => x - y) s

/-- IMUL (R112). -/
def execImul (w : JWord) (s : State) : Out := elemForm (.imul w) w (fun _ x y _ => x * y) s

/-- IMULHI (R112). -/
def execImulhi (w : JWord) (s : State) : Out := elemForm (.imulhi w) w (fun w x y _ => (x * y).fdiv (2 ^ w)) s

/-- IMAD (R112). -/
def execImad (w : JWord) (s : State) : Out := elemForm (.imad w) w (fun _ x y z => x * y + z) s

/-- IMIN (R112). -/
def execImin (w : JWord) (s : State) : Out := elemForm (.imin w) w (fun _ x y _ => min x y) s

/-- IMAX (R112). -/
def execImax (w : JWord) (s : State) : Out := elemForm (.imax w) w (fun _ x y _ => max x y) s

/-- IABS (R112). -/
def execIabs (w : JWord) (s : State) : Out := elemForm (.iabs w) w (fun _ x _ _ => |x|) s

/-- INEG (R112). -/
def execIneg (w : JWord) (s : State) : Out := elemForm (.ineg w) w (fun _ x _ _ => -x) s

/-- The carry in of IADDX for a thread (R113). -/
def carryIn (x : Iss) (t : Nat) : Nat := if jP x.w = 63 then 0 else (pget x.p (jP x.w) t).toNat

/-- IADDX (R113). -/
def execIaddx (w : JWord) (s : State) : Out :=
  issue (.iaddx w) {} s fun x =>
    let sum := fun t => (x.src1 w.a t).toNat + (x.src1 w.b t).toNat + carryIn x t
    x.compute 1 (x.threads.map fun t => (t, BitVec.ofNat 128 (sum t % 2 ^ 32))) fun p =>
      if jK w = 63 then p else x.threads.foldl (fun p t => pset p (jK w) t (decide (2 ^ 32 ≤ sum t))) p

/-- IMADW (R114): C is a pair, read like the factors; the result wraps modulo 2^64. -/
def execImadw (w : JWord) (s : State) : Out :=
  intForm (.imadw w) w 2 1 1 2 s fun a b c =>
    let sg := jType w == 1
    let rd := fun (x : Nat) => if sg then signedOf 32 x else (x : Int)
    wrapTo 64 (rd a * rd b + (c : Int))

/-- IDOT4 (R115): the accumulator is s32 or n32. -/
def execIdot4 (w : JWord) (s : State) : Out :=
  intForm (.idot4 w) w 1 1 1 1 s fun a b c =>
    let ty := jType w
    let z : Int := if elemS ty then signedOf 32 c else c
    let r := z + ((List.range 4).map fun e => elemOf ty e a * elemOf ty e b).sum
    wrapTo 32 (clampTo (if elemS ty then 1 else 0) (clampBit w) r)

/-! ## Bit forms (R116-R119) -/

/-- Bits of a bitwise form's operands. -/
def bitW (w : JWord) : Nat := 32 * intRegs w

/-- A bitwise form of 32 or 64 bits. -/
def bitForm (i : Instr) (w : JWord) (op : BitVec 64 → BitVec 64 → BitVec 64) (s : State) : Out :=
  let n := intRegs w
  intForm i w n n n n s fun a b _ => (op (BitVec.ofNat 64 a) (BitVec.ofNat 64 b)).toNat % 2 ^ bitW w

/-- AND (R116). -/
def execAnd (w : JWord) (s : State) : Out := bitForm (.andI w) w (fun a b => a &&& b) s
/-- OR (R116). -/
def execOr (w : JWord) (s : State) : Out := bitForm (.orI w) w (fun a b => a ||| b) s
/-- XOR (R116). -/
def execXor (w : JWord) (s : State) : Out := bitForm (.xorI w) w (fun a b => a ^^^ b) s
/-- ANDN (R116). -/
def execAndn (w : JWord) (s : State) : Out := bitForm (.andn w) w (fun a b => a &&& ~~~b) s
/-- NOT (R116). -/
def execNot (w : JWord) (s : State) : Out := bitForm (.notI w) w (fun a _ => ~~~a) s

/-- A shift of each element by the matching element of B, read unsigned; in `.b64`, by the 32-bit value of B. The
function receives the width, the element as unsigned and signed, and the count. -/
def shiftForm (i : Instr) (w : JWord) (f : Nat → Nat → Int → Nat → Int) (s : State) : Out :=
  let n := intRegs w
  intForm i w n n 1 1 s fun a b _ =>
    let ty := jType w
    let ew := elemW ty
    ofElems ty fun e =>
      let x := natBits a (ew * e) ew
      f ew x (signedOf ew x) (if ty = 6 then b % 2 ^ 32 else natBits b (ew * e) ew)

/-- SHL (R116). -/
def execShl (w : JWord) (s : State) : Out := shiftForm (.shl w) w (fun ew x _ n => if n < ew then (x : Int) * 2 ^ n else 0) s
/-- SHR (R116). -/
def execShr (w : JWord) (s : State) : Out := shiftForm (.shr w) w (fun ew x _ n => if n < ew then (x / 2 ^ n : Nat) else 0) s
/-- SAR (R116). -/
def execSar (w : JWord) (s : State) : Out :=
  shiftForm (.sar w) w (fun ew _ y n => if n < ew then y.fdiv (2 ^ n) else if y < 0 then -1 else 0) s
/-- ROT (R116): left by n mod w. -/
def execRot (w : JWord) (s : State) : Out :=
  shiftForm (.rot w) w (fun ew x _ n => ((x * 2 ^ (n % ew) + x / 2 ^ (ew - n % ew) : Nat) : Int)) s

/-- FSHF (R117). -/
def execFshf (w : JWord) (s : State) : Out :=
  intForm (.fshf w) w 1 1 1 1 s fun a b c =>
    let x := c % 2 ^ 32 * 2 ^ 32 + a % 2 ^ 32
    let n := b % 64
    if jK w % 2 = 0 then x / 2 ^ n % 2 ^ 32 else x * 2 ^ n % 2 ^ 64 / 2 ^ 32

/-- Position and width of a field (R118). -/
def fieldPos (b : Nat) : Nat := min (b % 256) 32
def fieldWid (b : Nat) : Nat := min (b / 256 % 256) (32 - fieldPos b)

/-- BFE (R118). -/
def execBfe (w : JWord) (s : State) : Out :=
  intForm (.bfe w) w 1 1 1 1 s fun a b _ =>
    let r := natBits a (fieldPos b) (fieldWid b)
    if fieldWid b = 0 then 0 else if jType w = 1 then wrapTo 32 (signedOf (fieldWid b) r) else r

/-- BFI (R118): A is the field value, C the base. -/
def execBfi (w : JWord) (s : State) : Out :=
  intForm (.bfi w) w 1 1 1 1 s fun a b c =>
    let m := BitVec.ofNat 32 ((2 ^ fieldWid b - 1) * 2 ^ fieldPos b)
    ((BitVec.ofNat 32 c &&& ~~~m) ||| (BitVec.ofNat 32 (a * 2 ^ fieldPos b) &&& m)).toNat

/-- A one-source form that maps each element to a number; in `.b64` the result is 32 bits wide (R119). -/
def countForm (i : Instr) (w : JWord) (f : Nat → Nat → Int) (s : State) : Out :=
  intForm i w 1 (intRegs w) 1 1 s fun a _ _ =>
    let ty := jType w
    if ty = 6 then wrapTo 32 (f 64 (a % 2 ^ 64)) else ofElems ty fun e => f (elemW ty) (natBits a (elemW ty * e) (elemW ty))

/-- Bits of a number at a width, lowest first. -/
def bitList (w x : Nat) : List Bool := (List.range w).map x.testBit

/-- BREV (R119). -/
def execBrev (w : JWord) (s : State) : Out :=
  let n := intRegs w
  intForm (.brev w) w n n 1 1 s fun a _ _ =>
    ((bitList (bitW w) a).foldl (fun r b => 2 * r + b.toNat) 0)

/-- CLZ (R119, Table 4-5). -/
def execClz (w : JWord) (s : State) : Out :=
  countForm (.clz w) w (fun ew x => ((bitList ew x).reverse.takeWhile (! ·)).length) s
/-- FFS (R119, Table 4-5): all ones for zero. -/
def execFfs (w : JWord) (s : State) : Out :=
  countForm (.ffs w) w (fun ew x => if x = 0 then -1 else ((bitList ew x).takeWhile (! ·)).length) s
/-- POPC (R119). -/
def execPopc (w : JWord) (s : State) : Out := countForm (.popc w) w (fun ew x => ((bitList ew x).filter id).length) s

/-! ## Compare, select, move, address (R120-R123) -/

/-- The comparisons of Table 4-3. -/
def intCompare (code : Nat) (a b : Int) : Bool :=
  if code = 0 then a == b else if code = 1 then a != b else if code = 2 then decide (a < b)
  else if code = 3 then decide (a ≤ b) else if code = 4 then decide (b < a) else decide (b ≤ a)

/-- The combining step of ICMP and FCMP: AND, OR, XOR with p[P] (R120, R174). -/
def combine (w : JWord) (q r : Bool) : Bool :=
  if jImm w || jP w == 63 then q
  else if jK w = 0 then q && r else if jK w = 1 then q || r else q != r

/-- Write a predicate result per thread taking part. -/
def writePred (n : Nat) (res : List (Nat × Bool)) (p : Spindle) : Spindle := res.foldl (fun p e => pset p n e.1 e.2) p

/-- ICMP (R120). -/
def execIcmp (w : JWord) (s : State) : Out :=
  issue (.icmp w) {} s fun x =>
    let n := intRegs w
    let ty := jType w
    let rd := fun (v : BitVec 128) => elemOf ty 0 v.toNat
    x.next (writePred (bitsOf w.d 0 6) (x.threads.map fun t =>
      (t, combine w (intCompare (bitsOf w.d 6 4) (rd (x.src w.a n (elemS ty) t)) (rd (x.src w.b n (elemS ty) t)))
        (pget x.p (jP w) t))))

/-- SEL (R121). -/
def execSel (w : JWord) (s : State) : Out :=
  issue (.sel w) {} s fun x =>
    let n := intRegs w
    x.compute n (x.threads.map fun t =>
      (t, if jP w = 63 ∨ pget x.p (jP w) t then x.src w.a n false t else x.src w.b n false t)) id

/-- MOV (R122). -/
def execMov (w : JWord) (s : State) : Out :=
  intForm (.mov w) w (intRegs w) (intRegs w) 1 1 s fun a _ _ => a

/-- MOVI (R122). -/
def execMovi (w : JWord) (s : State) : Out :=
  intForm (.movi w) w (intRegs w) (intRegs w) 1 1 s fun a _ _ => a

/-- LEA (R123). -/
def execLea (w : JWord) (s : State) : Out :=
  intForm (.lea w) w 2 2 1 1 s fun a b _ =>
    let e : Int := if jType w = 1 then signedOf 32 b else (b % 2 ^ 32 : Nat)
    wrapTo 64 ((a : Int) + e * 2 ^ (if jImm w then 0 else jK w % 8))

end Sys2Proof.Machine
end

