-- ==== Sys2Proof/Machine/Special.lean ====
section
/-! DEFINITION. Sys2Proof/Machine/Special.lean: the exact real results of RSQ, EXP2, LOG2, SIN, COS and TANH to far more bits
than FP32 holds, and the error bounds of Table 6-5, within which the device's own function is free (R178; log 20). -/

namespace Sys2Proof.Machine

open Sys2Proof

/-- A real number (-1)^neg · m · 2^e, correct to more than 100 significant bits. -/
structure RealVal where
  neg : Bool
  m   : Nat
  e   : Int
  deriving DecidableEq, Repr, Inhabited

/-- One, in the fixed-point numbers below: 400 bits follow the point. -/
def fxOne : Nat := 2 ^ 400
/-- A product of fixed-point numbers. -/
def fxMul (a b : Nat) : Nat := a * b / fxOne
/-- 2π and the natural logarithm of 2. -/
def fxTau : Nat := 0x6487ed5110b4611a62633145c06e0e68948127044533e63a0105df531d89cd9128a5043cc71a026ef7ca8cd9e69d218d98158
def fxLn2 : Nat := 0xb17217f7d1cf79abc9e3b39803f2f6af40f343267298b62d8a0d175b8baafa2be7b876206debac98559552fb4afa1b10ed2e

/-- `n` terms of the exponential series of x, from the k-th, which is t. -/
def expSum (x : Nat) : Nat → Nat → Nat → Nat
  | 0, _, _ => 0
  | n + 1, k, t => t + expSum x n (k + 1) (fxMul t x / (k + 1))
/-- e^x for 0 ≤ x < 1. -/
def fxExp (x : Nat) : Nat := expSum x 100 0 fxOne

/-- `n` terms of an alternating series whose term t is a multiple of the j-th power, with r2 the square of the operand: the
series of sine (from j = 1) and cosine (from j = 0). -/
def altSum (r2 : Nat) : Nat → Nat → Nat → Int
  | 0, _, _ => 0
  | n + 1, j, t => t - altSum r2 n (j + 2) (fxMul t r2 / ((j + 1) * (j + 2)))

/-- `n` bits of the logarithm to base 2 of a fixed-point number in [1, 2), after the bits f. -/
def logBits : Nat → Nat → Nat → Nat
  | 0, _, f => f
  | n + 1, x, f =>
    let y := fxMul x x
    if 2 * fxOne ≤ y then logBits n (y / 2) (2 * f + 1) else logBits n y (2 * f)

/-- A power 2^n by repeated squaring. -/
def fxSquares : Nat → Nat → Nat
  | 0, x => x
  | n + 1, x => fxSquares n (fxMul x x)

def realOfInt (x : Int) (e : Int) : RealVal := { neg := decide (x < 0), m := x.natAbs, e := e }

/-- The fixed-point number |x| of an FP32 value m · 2^e, where e is at least -149. -/
def fxOf (m : Nat) (e : Int) : Nat := m * 2 ^ (e + 400).toNat

/-- The exact result of function 0 to 5 (RSQ, EXP2, LOG2, SIN, COS, TANH) of the finite value (-1)^neg · m · 2^e (R178). -/
def sfuReal (op : Nat) (neg : Bool) (m : Nat) (e : Int) : RealVal :=
  if op = 0 then
    let odd := e % 2 == 1
    let m' := if odd then 2 * m else m
    let e' := if odd then e - 1 else e
    { neg := false, m := Nat.sqrt (2 ^ 800 / m'), e := -(e' / 2) - 400 }
  else if op = 1 then
    let x := fxOf m e
    let i : Int := if neg then -((x + fxOne - 1) / fxOne : Nat) else (x / fxOne : Nat)
    let f : Nat := if neg then (fxOne - x % fxOne) % fxOne else x % fxOne
    { neg := false, m := fxExp (fxMul f fxLn2), e := i - 400 }
  else if op = 2 then
    let k := m.log2
    realOfInt ((k + e) * 2 ^ 160 + logBits 160 (m * fxOne / 2 ^ k) 0) (-160)
  else if op = 5 then
    let y := fxSquares 5 (fxExp (fxOf m e / 16))
    { neg := neg, m := (y - fxOne) * fxOne / (y + fxOne), e := -400 }
  else
    let r := fxOf m e % fxTau
    let r2 := fxMul r r
    if op = 3 then
      let y := realOfInt (altSum r2 80 1 r) (-400)
      { y with neg := y.neg != neg }
    else realOfInt (altSum r2 80 0 fxOne) (-400)

/-- Is an FP32 pattern within k ulp of a real number, ulp as R178 defines it? -/
def withinUlp (k : Nat) (y : RealVal) (bits : Nat) : Bool :=
  match Fmt.f32.read bits with
  | .fin neg m e =>
    let a : Int := (if y.neg then -1 else 1) * (y.m * 2 ^ (y.e + 700).toNat : Nat)
    let b : Int := (if neg then -1 else 1) * (m * 2 ^ (e + 700).toNat : Nat)
    let top : Int := max (y.m.log2 + y.e) (-126)
    decide ((a - b).natAbs ≤ k * 2 ^ (top - 23 + 700).toNat)
  | _ => false

/-- The bound of Table 6-5 in ulp. -/
def sfuUlp (op : Nat) : Nat := if op = 0 then 1 else 2

/-- The delivered bits: those of the device's fixed function, where they keep the bound of Table 6-5, as they always do; a
choice of them outside the bound counts as the nearest FP32 value (R178; log 20). An underflow to zero delivers +0. -/
def sfuBits (op : Nat) (neg : Bool) (m : Nat) (e : Int) (bits : Word) : Nat :=
  let y := sfuReal op neg m e
  let r := (Config.sfuValue op bits).toNat
  let z := if withinUlp (sfuUlp op) y r then r else (conv { rm := 1, sat := false, e4ov := false, ftzo := false } 0 .f32 (.fin y.neg y.m y.e)).bits
  if z = 0x80000000 then 0 else z

end Sys2Proof.Machine
end

