-- ==== Sys2Proof/Machine/Float.lean ====
section
/-! DEFINITION. Sys2Proof/Machine/Float.lean: the float and special-function forms (R166-R180). -/

namespace Sys2Proof.Machine

open Sys2Proof

/-! ## Shared -/

/-- The random word of each thread, and the generator states after the instruction (R142, R150, R168); a form that does not
round draws none (R62). -/
def Iss.random (x : Iss) : (Nat → Word) × SMap 32 :=
  if x.w.rnd = 6 ∨ x.w.rnd = 14 then (fun t => x.src1 (jZ x.w) t, x.p.gen)
  else if x.w.rnd = 0 ∧ x.sp.rnd ≠ .zero ∧ modeRm x.p.mode = 6 ∧ x.tp ≠ 0 then
    if modeSrsel x.p.mode = 1 ∨ x.w.uni then
      let g := stepGen (mget x.p.gen 0)
      (fun _ => g, mset x.p.gen 0 g)
    else
      (fun t => stepGen (mget x.p.gen t), (threadsOf x.tp).foldl (fun m t => mset m t (stepGen (mget x.p.gen t))) x.p.gen)
  else (fun _ => 0, x.p.gen)

/-- The conditions of an instruction enter MODE.FLG at its completion and its generators advance, or, where one of them is enabled, it
raises 0x0A with no effect: a long-latency form at its completion (R147, R168, R179). -/
def Iss.float (x : Iss) (fl : List (Nat × Flg)) (gen : SMap 32) (all : Bool) (ok : (Spindle → Spindle) → Flg → Out) : Out :=
  let en := modeEn x.p.mode
  let fpc := fl.foldl (fun a e => a ||| e.2) 0
  let hit := fl.filter fun e => e.2 &&& en != 0
  if hit.isEmpty then ok (fun p => { p with gen := gen }) fpc
  else
    let tm := if x.w.uni then 1 else if all then x.tp else maskOf (hit.map (·.1))
    if x.sp.long then
      let (id, s) := fresh x.s
      let x := { x with s := s }
      x.next (addPend (x.pend id (.fpTrap tm fpc x.pops) false none none [] []))
    else x.trap { cause := 0x0A, tmask := tm, fpc := fpc.toNat }

/-- A form whose result for each thread comes with conditions. -/
def Iss.floatAll (x : Iss) (n : Nat) (f : (Nat → Word) → Nat → Nat × Flg) : Out :=
  let w := x.random
  let res := x.threads.map fun t => (t, f w.1 t)
  x.float (res.map fun e => (e.1, e.2.2)) w.2 false (fun eff fpc => x.compute n (res.map fun e => (e.1, BitVec.ofNat 128 e.2.1)) eff fpc)

/-- A source's FP32 value after FTZI. -/
def Iss.f32 (x : Iss) (fld : BitVec 10) (t : Nat) : FV := Fmt.f32.source (modeFtzi x.p.mode) (x.src1 fld t).toNat
def Iss.rnd (x : Iss) : Rnd := rndOf x.w.rnd x.p.mode

/-- A rounded FP32 form: its exact value from the rounding mode and the operands of a thread. -/
def floatForm (i : Instr) (w : JWord) (s : State) (v : Nat → FV → FV → FV → FV × Flg) : Out :=
  issue i {} s fun x =>
    let c := x.rnd
    x.floatAll 1 fun rw t =>
      let r := fres c (randomOf (rw t) 0) .f32
        (v c.rm (x.f32 w.a t) (x.f32 w.b t) (if jImm w then .fin false 0 0 else x.f32 (jC w) t))
      (r.bits, r.fl)

/-- FADD (R171). -/
def execFadd (w : JWord) (s : State) : Out := floatForm (.fadd w) w s fun rm a b _ => addV rm a b
/-- FSUB (R171). -/
def execFsub (w : JWord) (s : State) : Out := floatForm (.fsub w) w s fun rm a b _ => addV rm a b.negate
/-- FMUL (R171). -/
def execFmul (w : JWord) (s : State) : Out := floatForm (.fmul w) w s fun _ a b _ => mulV a b
/-- FFMA (R171). -/
def execFfma (w : JWord) (s : State) : Out := floatForm (.ffma w) w s fmaV

/-- A packed form on the two 16-bit elements of each register (R172). -/
def packedForm (i : Instr) (w : JWord) (s : State) (v : Nat → FV → FV → FV → FV × Flg) : Out :=
  issue i {} s fun x =>
    let c := x.rnd
    let F := if jType w = 0 then Fmt.bf16 else .f16
    let el := fun (fld : BitVec 10) (t k : Nat) =>
      F.source (modeFtzi x.p.mode) (natBits (x.src1 fld t).toNat (16 * k) 16)
    x.floatAll 1 fun rw t =>
      let r := fun (k : Nat) => fres c (randomOf (rw t) k) F
        (v c.rm (el w.a t k) (el w.b t k) (if jImm w then .fin false 0 0 else el (jC w) t k))
      ((r 0).bits + (r 1).bits * 2 ^ 16, (r 0).fl ||| (r 1).fl)

/-- PKADD (R172). -/
def execPkadd (w : JWord) (s : State) : Out := packedForm (.pkadd w) w s fun rm a b _ => addV rm a b
/-- PKMUL (R172). -/
def execPkmul (w : JWord) (s : State) : Out := packedForm (.pkmul w) w s fun _ a b _ => mulV a b
/-- PKFMA (R172). -/
def execPkfma (w : JWord) (s : State) : Out := packedForm (.pkfma w) w s fmaV

/-! ## Minimum, maximum, compare, class -/

def minMaxForm (i : Instr) (w : JWord) (max : Bool) (s : State) : Out :=
  issue i {} s fun x => x.floatAll 1 fun _ t =>
    let r := minMax max (modeFtzi x.p.mode) (x.src1 w.a t).toNat (x.src1 w.b t).toNat
    (r.bits, r.fl)

/-- FMIN (R173). -/
def execFmin (w : JWord) (s : State) : Out := minMaxForm (.fmin w) w false s
/-- FMAX (R173). -/
def execFmax (w : JWord) (s : State) : Out := minMaxForm (.fmax w) w true s

/-- FCMP (R174). -/
def execFcmp (w : JWord) (s : State) : Out :=
  issue (.fcmp w) {} s fun x =>
    let fl := x.threads.map fun t => (t, flagIf ((x.f32 w.a t).isSig || (x.f32 w.b t).isSig) fIV)
    let res := x.threads.map fun t =>
      (t, combine w (floatCompare (bitsOf w.d 6 4) (x.f32 w.a t) (x.f32 w.b t)) (pget x.p (jP w) t))
    x.float fl x.p.gen false fun eff fpc => x.next fun p => writePred (bitsOf w.d 0 6) res (raiseFlags fpc (eff p))

/-- FCLASS (R175). -/
def execFclass (w : JWord) (s : State) : Out :=
  issue (.fclass w) {} s fun x =>
    x.compute 1 (x.threads.map fun t => (t, BitVec.ofNat 128 (2 ^ classBit (x.src1 w.a t).toNat))) id

/-! ## Special functions -/

/-- RCP (R177). -/
def execRcp (w : JWord) (s : State) : Out := floatForm (.rcp w) w s fun _ a _ _ => rcpV a
/-- SQRT (R177). -/
def execSqrt (w : JWord) (s : State) : Out := floatForm (.sqrt w) w s fun _ a _ _ => sqrtV a

/-- An exact FP32 result: rounding cannot change it. -/
def exactF32 (v : FV) : Nat := (conv ⟨1, false, false, false⟩ 0 .f32 v).bits

/-- The exact entries of Table 6-6 and the flags beside them, as a value; none where the result is approximate. -/
def sfuExact (op : Nat) (v : FV) : Option (FV × Flg) :=
  let one (neg : Bool) : FV := .fin neg 1 0
  match v with
  | .nan sig => some (.nan false, flagIf sig fIV)
  | .inf neg =>
    if op = 0 then some (if neg then (.nan false, fIV) else (.fin false 0 0, 0))
    else if op = 1 then some (if neg then .fin false 0 0 else .inf false, 0)
    else if op = 2 then some (if neg then (.nan false, fIV) else (.inf false, 0))
    else if op = 5 then some (one neg, 0)
    else some (.nan false, fIV)
  | .fin neg m e =>
    let ex : Int := m.log2 + e
    let pow2 := decide (m = 2 ^ m.log2)
    if m = 0 then
      if op = 0 then some (.inf neg, fDZ)
      else if op = 1 ∨ op = 4 then some (one false, 0)
      else if op = 2 then some (.inf true, fDZ)
      else some (.fin neg 0 0, 0)
    else if op = 0 then
      if neg then some (.nan false, fIV)
      else if pow2 ∧ ex % 2 = 0 then some (.fin false 1 (-(ex / 2)), 0) else none
    else if op = 1 then
      let n := roundAt 2 0 false m e 0
      let i := signedMag neg n.1
      if 128 ≤ i then some (.inf false, fOF ||| fNX)
      else if i < -150 ∨ (i = -150 ∧ n.2) then some (.fin false 0 0, fUF ||| fNX)
      else if ¬n.2 ∧ -149 ≤ i then some (.fin false 1 i, 0)
      else none
    else if op = 2 then
      if neg then some (.nan false, fIV)
      else if pow2 then some (ofSigned false ex 0, 0) else none
    else if op = 5 then
      if 91 * 2 ^ 200 ≤ 10 * (roundAt 2 0 false m e (-200)).1 then some (one neg, fNX) else none
    else none

/-- The magnitude of the operand tells whether the exact result is tiny (R146, R178): 2^x for x < -126; sin x and tanh x
for subnormal x. -/
def sfuTiny (op : Nat) : FV → Bool
  | .fin neg m e =>
    if op = 1 then neg && decide (126 * 2 ^ 200 < (roundAt 2 0 false m e (-200)).1)
    else (op == 3 || op == 5) && decide ((m.log2 : Int) + e < -126)
  | _ => false

/-- RSQ, EXP2, LOG2, SIN, COS, TANH by number 0 to 5 (R178): the exact entries, or the device's fixed function of the
operand within its error bound (log 20), then FTZO. MODE's rounding and saturation do not apply. -/
def sfuForm (i : Instr) (w : JWord) (op : Nat) (s : State) : Out :=
  issue i {} s fun x => x.floatAll 1 fun _ t =>
    let v := x.f32 w.a t
    let bits := if v.isZero then Fmt.f32.signed v.neg 0 else (x.src1 w.a t).toNat
    let r : FOut := match sfuExact op v with
      | some (y, fl) => ⟨exactF32 y, fl⟩
      | none => ⟨(match v with
          | .fin neg m e => sfuBits op neg m e (BitVec.ofNat 32 bits)
          | _ => 0), fNX ||| flagIf (sfuTiny op v) fUF⟩
    if modeFtzo x.p.mode && Fmt.f32.subnormal r.bits then
      (Fmt.f32.signed (r.bits.testBit 31) 0, r.fl ||| fUF ||| fNX)
    else (r.bits, r.fl)

/-- RSQ (R178). -/
def execRsq (w : JWord) (s : State) : Out := sfuForm (.rsq w) w 0 s
/-- EXP2 (R178). -/
def execExp2 (w : JWord) (s : State) : Out := sfuForm (.exp2 w) w 1 s
/-- LOG2 (R178). -/
def execLog2 (w : JWord) (s : State) : Out := sfuForm (.log2 w) w 2 s
/-- SIN (R178). -/
def execSin (w : JWord) (s : State) : Out := sfuForm (.sin w) w 3 s
/-- COS (R178). -/
def execCos (w : JWord) (s : State) : Out := sfuForm (.cos w) w 4 s
/-- TANH (R178). -/
def execTanh (w : JWord) (s : State) : Out := sfuForm (.tanh w) w 5 s

/-! ## Reductions across the spindle -/

/-- comb of R179: a present pair is added and rounded, with u of combination i; a lone value passes unchanged. -/
def sumComb (c : Rnd) (rw : Word) (i : Nat) (p q : Option FOut) : Option FOut :=
  match p, q with
  | some a, some b =>
    let r := fres c (randomOf rw i) .f32 (addV c.rm (Fmt.f32.read a.bits) (Fmt.f32.read b.bits))
    some ⟨r.bits, r.fl ||| a.fl ||| b.fl⟩
  | some a, none => some a
  | none, b => b

/-- FSUM (R179): IV for any signalling source, and a NaN is delivered in canonical form (R136). -/
def execFsum (w : JWord) (s : State) : Out :=
  issue (.fsum w) {} s fun x =>
    let c := x.rnd
    let rw := x.random
    let word := rw.1 ((threadsOf x.tp).headD 0)
    let ftzi := modeFtzi x.p.mode
    let leaf := fun t =>
      if x.tp.getLsbD t then
        let b := (x.src1 w.a t).toNat
        let v := Fmt.f32.source ftzi b
        some (⟨if v.isZero then Fmt.f32.signed (b.testBit 31) 0 else b, flagIf v.isSig fIV⟩ : FOut)
      else none
    let comb := fun i p q => sumComb c word i p q
    let y01 := comb 0 (leaf 0) (leaf 1)
    let y23 := comb 1 (leaf 2) (leaf 3)
    let y45 := comb 2 (leaf 4) (leaf 5)
    let y67 := comb 3 (leaf 6) (leaf 7)
    match comb 6 (comb 4 y01 y23) (comb 5 y45 y67) with
    | none => x.skip
    | some r =>
      let bits := if (Fmt.f32.read r.bits).isNan then Fmt.f32.nanBits else r.bits
      x.float [(0, r.fl)] rw.2 true (fun eff fpc => x.compute 1 (x.threads.map fun t => (t, BitVec.ofNat 128 bits)) eff fpc)

/-- FMAXR (R180). -/
def execFmaxr (w : JWord) (s : State) : Out :=
  issue (.fmaxr w) {} s fun x =>
    let ftzi := modeFtzi x.p.mode
    match x.threads.map fun t => (x.src1 w.a t).toNat with
    | [] => x.skip
    | a :: rest =>
      let top := rest.foldl (fun m y => (minMax true ftzi m y).bits) (minMax true ftzi a a).bits
      let fl := x.threads.map fun t => (t, flagIf (x.f32 w.a t).isSig fIV)
      x.float fl x.p.gen false (fun eff fpc => x.compute 1 (x.threads.map fun t => (t, BitVec.ofNat 128 top)) eff fpc)

end Sys2Proof.Machine
end

