-- ==== Sys2Proof/Machine/Convert.lean ====
section
/-! DEFINITION. Sys2Proof/Machine/Convert.lean: the conversion and mode forms (R153-R164). -/

namespace Sys2Proof.Machine

open Sys2Proof

/-- Float format codes of Table 5-6. -/
def fmtOf (code : Nat) : Fmt :=
  if code = 0 then .f32 else if code = 1 then .f16 else if code = 2 then .bf16 else if code = 3 then .e4m3 else .e5m2

/-- The integer type code of Table 2-8 for an integer format code 5 to 10 of Table 5-6. -/
def intFmtType (code : Nat) : Nat :=
  if code = 5 then 1 else if code = 6 then 0 else if code = 7 then 3 else if code = 8 then 2 else if code = 9 then 5 else 4

/-- An integer result of CVTI extended to 32 bits (R134). -/
def toIntWord (c : Rnd) (u code : Nat) (v : FV) : Nat × Flg :=
  let r := toInteger c u (typeLo (intFmtType code)) (typeHi (intFmtType code)) v
  (wrapTo 32 r.1, r.2)

/-- CVT (R157). -/
def execCvt (w : JWord) (s : State) : Out :=
  issue (.cvt w) {} s fun x => x.floatAll 1 fun rw t =>
    let F := fmtOf (bitsOf w.min 0 3)
    let r := conv x.rnd (randomOf (rw t) 0) (fmtOf (bitsOf w.min 3 3))
      (F.source (modeFtzi x.p.mode) (natBits (x.src1 w.a t).toNat 0 F.width))
    (r.bits, r.fl)

/-- CVTI (R158). -/
def execCvti (w : JWord) (s : State) : Out :=
  issue (.cvti w) {} s fun x => x.floatAll 1 fun rw t =>
    let F := fmtOf (bitsOf w.min 0 3)
    toIntWord x.rnd (randomOf (rw t) 0) (bitsOf w.min 3 4)
      (F.source (modeFtzi x.p.mode) (natBits (x.src1 w.a t).toNat 0 F.width))

/-- CVTF (R159). -/
def execCvtf (w : JWord) (s : State) : Out :=
  issue (.cvtf w) {} s fun x => x.floatAll 1 fun rw t =>
    let n := elemOf (intFmtType (bitsOf w.min 0 4)) 0 (x.src1 w.a t).toNat
    let r := conv x.rnd (randomOf (rw t) 0) (fmtOf (bitsOf w.min 4 3)) (ofSigned false n 0)
    (r.bits, r.fl)

/-- Put elements of a width side by side (R134). -/
def joinElems (width : Nat) (es : List (Nat × Flg)) : Nat × Flg :=
  (((List.range es.length).map fun i => (es.getD i default).1 % 2 ^ width * 2 ^ (width * i)).sum,
   es.foldl (fun a e => a ||| e.2) 0)

/-- The factor c of R160: the thread's value of C, or 1; never flushed. -/
def Iss.scale (x : Iss) (t : Nat) : FV := if jK x.w % 2 = 1 then Fmt.f32.read (x.src1 (jC x.w) t).toNat else .fin false 1 0

/-- CVTPK (R160). -/
def execCvtpk (w : JWord) (s : State) : Out :=
  issue (.cvtpk w) {} s fun x =>
    let cnt := 2 ^ (bitsOf w.min 4 3 + 1)
    let dst := bitsOf w.min 0 4
    let width := if dst < 3 then 16 else 8
    let c := x.rnd
    x.floatAll (cvtpkD w) fun rw t =>
      let a := (x.src w.a (min cnt 4) false t).toNat
      let b := if cnt = 8 then (x.src w.b 4 false t).toNat else 0
      joinElems width ((List.range cnt).map fun i =>
        let e := if i < 4 then natBits a (32 * i) 32 else natBits b (32 * (i - 4)) 32
        let v := mulV (Fmt.f32.source (modeFtzi x.p.mode) e) (x.scale t)
        let u := randomOf (rw t) i
        if 9 ≤ dst then
          let r := toIntWord c u dst v.1
          (r.1, r.2 ||| v.2)
        else
          let r := fres c u (fmtOf dst) v
          (r.bits, r.fl))

/-- CVTUP (R161). -/
def execCvtup (w : JWord) (s : State) : Out :=
  issue (.cvtup w) {} s fun x =>
    let cnt := 2 ^ (bitsOf w.min 5 2 + 1)
    let D := fmtOf (bitsOf w.min 3 2)
    let S := fmtOf (bitsOf w.min 0 3)
    let an := (cnt * S.width + 31) / 32
    let c := x.rnd
    x.floatAll ((cnt * D.width + 31) / 32) fun rw t =>
      let a := (x.src w.a an false t).toNat
      joinElems D.width ((List.range cnt).map fun i =>
        let e := S.source (modeFtzi x.p.mode) (natBits a (S.width * i) S.width)
        let r := fres c (randomOf (rw t) i) D (mulV e (x.scale t))
        (r.bits, r.fl))

/-- Multiply by a power of two. -/
def scaleV (n : Int) : FV → FV
  | .fin neg m e => .fin neg m (if m = 0 then 0 else e + n)
  | v => v

/-- FSCALE (R162). -/
def execFscale (w : JWord) (s : State) : Out :=
  issue (.fscale w) {} s fun x =>
    let F := if jType w = 0 then Fmt.f32 else if jType w = 1 then .bf16 else .f16
    x.floatAll 1 fun rw t =>
      joinElems F.width ((List.range (32 / F.width)).map fun i =>
        let e := F.source (modeFtzi x.p.mode) (natBits (x.src1 w.a t).toNat (F.width * i) F.width)
        let r := conv x.rnd (randomOf (rw t) i) F (scaleV (signedOf 32 (x.src1 w.b t).toNat) e)
        (r.bits, r.fl))

/-! ## MODE and the generators (R156, R163, R164) -/

/-- GETMODE, selector 0 (R163). -/
def execGetmode (w : JWord) (s : State) : Out :=
  issue (.getmode w) { modeSerial := true } s fun x => x.compute 1 (x.threads.map fun t => (t, x.p.mode.setWidth 128)) id

/-- GETMODE, selector 1 (R163). -/
def execGetmodeGen (w : JWord) (s : State) : Out :=
  issue (.getmodeGen w) { modeSerial := true } s fun x =>
    x.compute 1 (x.threads.map fun t => (t, (mget x.p.gen t).setWidth 128)) id

/-- A MODE write under R149 (Table 14-2: 0x02, reason 3). -/
def Iss.writeMode (x : Iss) (m : Word) : Out :=
  let m := m &&& 0x7FFFF
  if x.tp = 0 then x.skip
  else if modeOk m then x.next fun p => { p with mode := m }
  else x.trapT 0x02 3

/-- SETMODE, selector 0 (R164). -/
def execSetmode (w : JWord) (s : State) : Out :=
  issue (.setmode w) { modeSerial := true } s fun x =>
    let a := x.src1 w.a 0
    let b := x.src1 w.b 0
    x.writeMode ((x.p.mode &&& ~~~b) ||| (a &&& b))

/-- SETMODE, immediate (R164). -/
def execSetmodeImm (w : JWord) (s : State) : Out :=
  issue (.setmodeImm w) { modeSerial := true } s fun x => x.writeMode w.mod

/-- SETMODE, selector 1: a zero is stored as 1 (R150, R164). -/
def execSetmodeGen (w : JWord) (s : State) : Out :=
  issue (.setmodeGen w) { modeSerial := true } s fun x =>
    x.next fun p => { p with gen := x.threads.foldl (fun m t =>
      let a := x.src1 w.a t
      mset m t (if a = 0 then 1 else a)) p.gen }

end Sys2Proof.Machine
end

