-- ==== Sys2Proof/Machine/Copy.lean ====
section
/-! DEFINITION. Sys2Proof/Machine/Copy.lean: the tensor copy unit (R258-R277), and the scratchpad bytes that an engine may
read in between (R239). A copy's data moves at COPY_DONE, and some of its pieces before that at turns of its own (log 12). -/

namespace Sys2Proof.Machine

open Sys2Proof

/-! ## Formats of R268 -/

/-- Bits of an element in storage or tile. -/
def cpBits (code : Nat) : Nat := if code = 0 then 32 else if code ≤ 2 then 16 else if code ≤ 5 then 8 else 4

/-- The float format of a copy code 0 to 4. -/
def cpFmt (code : Nat) : Fmt := fmtOf code

/-- E2M1 as E4M3 (R137, Table 5-2). -/
def e2m1ToE4m3 (x : Nat) : Nat := [0x00, 0x30, 0x38, 0x3C, 0x40, 0x44, 0x48, 0x4C].getD (x % 8) 0 + (if x / 8 % 2 = 1 then 0x80 else 0)

/-- The exact widening of TCOPY and TGATHER (R272). -/
def cpWiden (sf tf x : Nat) : Nat :=
  if sf = tf then x
  else if sf = 6 then e2m1ToE4m3 x
  else (conv rne 0 (cpFmt tf) ((cpFmt sf).read x)).bits

/-- Rounding to E2M1 (R274). -/
def toE2m1 (rm : Nat) : FV → Nat
  | .nan _ => 0
  | .inf neg => if neg then 15 else 7
  | .fin neg m e =>
    let sgn := if neg then 8 else 0
    if m = 0 then sgn
    else
      let top : Int := m.log2 + e
      let big := decide (2 < top) || decide (3 * 2 ^ 60 < (roundAt 3 0 false m e (-59)).1)
      if big then sgn + 7
      else
        let q := max (top - 1) (-1)
        let n := (roundAt rm 0 neg m e q).1
        if n < 2 then sgn + n
        else
          let k := n.log2 - 1
          sgn + (q + k + 2).toNat * 2 + (n / 2 ^ k - 2)

/-- The narrowing of TSTORE and TSCATTER (R274): stochastic rounding becomes nearest, nothing is flushed. -/
def cpNarrow (c : Rnd) (tf sf x : Nat) : Nat :=
  let c := { c with rm := if c.rm = 6 then 1 else c.rm, ftzo := false }
  if sf = tf then x
  else if sf = 6 then toE2m1 c.rm ((cpFmt tf).read x)
  else (conv c 0 (cpFmt sf) ((cpFmt tf).read x)).bits

/-! ## Descriptors (Tables 9-2 to 9-4, 9-6) -/

/-- A copy instruction's descriptors, decoded. -/
structure CopyD where
  form : Nat
  sf : Nat
  tf : Nat
  trn : Bool
  sop : Nat
  base : BitVec 64
  pitch : Int
  extr : Nat
  extc : Nat
  tbase : Nat
  rows : Nat
  cols : Nat
  pad : Word
  idx : Nat
  scaled : Bool
  sbase : BitVec 64
  spitch : Int
  kind : Nat
  len : Nat
  deriving DecidableEq, Repr, Inhabited

def copyD (w : JWord) (form : Nat) (view shape scale : BitVec 128) (scaled : Bool) : CopyD :=
  { form := form, sf := bitsOf w.mod 0 4, tf := bitsOf w.mod 4 4, trn := w.mod.getLsbD 13, sop := bitsOf w.mod 11 2,
    base := view.extractLsb' 0 64, pitch := signedOf 32 (bitsOf view 64 32), extr := bitsOf view 96 16,
    extc := bitsOf view 112 16, tbase := bitsOf shape 0 32, rows := bitsOf shape 32 9, cols := bitsOf shape 48 11,
    pad := shape.extractLsb' 64 32, idx := bitsOf shape 96 32, scaled := scaled, sbase := scale.extractLsb' 0 64,
    spitch := signedOf 32 (bitsOf scale 64 32), kind := bitsOf scale 96 2, len := bitsOf scale 98 2 }

/-- Tile element width in bytes. -/
def CopyD.w (d : CopyD) : Nat := cpBits d.tf / 8
def CopyD.blockLen (d : CopyD) : Nat := 32 * 2 ^ d.len
/-- Rows and columns of the scale block, and the bytes of a scale row (R266). -/
def CopyD.nI (d : CopyD) : Nat := if d.kind = 0 then d.rows else d.rows / d.blockLen
def CopyD.nS (d : CopyD) : Nat := if d.kind = 0 then d.cols / d.blockLen else d.cols / 128
def CopyD.q (d : CopyD) : Nat := (4 * d.nS + 31) / 32 * 32
def CopyD.body (d : CopyD) : Nat := d.rows * d.cols * d.w
/-- Footprint F of the tile. -/
def CopyD.foot (d : CopyD) : Nat := d.body + (if d.scaled then d.nI * d.q else 0)
/-- Does the form read an index list? -/
def CopyD.indexed (d : CopyD) : Bool := d.form == 2 || d.form == 3
/-- Does the form write the tile? -/
def CopyD.fills (d : CopyD) : Bool := d.form == 0 || d.form == 2 || d.form == 4

/-- Offsets in the team scratchpad. -/
def CopyD.tileOff (d : CopyD) (r c : Nat) : Nat := d.tbase + r * d.cols * d.w + c * d.w
def CopyD.scaleOff (d : CopyD) (a b : Nat) : Nat := d.tbase + d.body + a * d.q + 4 * b

/-- The index of a tile row: its own, or the list's; none for a pad index, one outside the view, or an unreadable one. -/
def CopyD.row (d : CopyD) (idx : List (Option Word)) (r : Nat) : Option Nat :=
  if d.indexed then
    match idx.getD r none with
    | some k => if k = 0xFFFFFFFF ∨ d.extr ≤ k.toNat then none else some k.toNat
    | none => none
  else some r

/-- The view element of a tile element, if it is inside (R272, R273). -/
def CopyD.elem (d : CopyD) (idx : List (Option Word)) (r c : Nat) : Option (Nat × Nat) :=
  if d.form = 4 then none
  else
    match d.row idx r with
    | none => none
    | some k =>
      let ij := if d.trn then (c, r) else (k, c)
      if ij.1 < d.extr ∧ ij.2 < d.extc then some ij else none

/-- Generic address of a view element's byte. -/
def CopyD.viewAddr (d : CopyD) (ij : Nat × Nat) : BitVec 64 :=
  d.base + BitVec.ofInt 64 (ij.1 * d.pitch + (ij.2 * cpBits d.sf / 8 : Nat))
def CopyD.viewBytes (d : CopyD) : Nat := max 1 (cpBits d.sf / 8)

/-- Own-team generic address of a scratchpad offset. -/
def ownAddr (off : Nat) : BitVec 64 := BitVec.ofNat 64 (0x80 * 2 ^ 56 + off)

/-- The scale rows that are moved: the storage row of each scale row, none where it is written as zero or not at all. -/
def CopyD.scaleRow (d : CopyD) (idx : List (Option Word)) (a : Nat) : Option Nat := if d.indexed then d.row idx a else some a

def CopyD.scaleAddr (d : CopyD) (a b : Nat) : BitVec 64 := d.sbase + BitVec.ofInt 64 (a * d.spitch + (4 * b : Nat))

/-- Does scale (a, b) cover a tile element that is written to the view (R273)? -/
def CopyD.covers (d : CopyD) (idx : List (Option Word)) (a b : Nat) : Bool :=
  let rs := if d.kind = 0 then [a] else (List.range d.blockLen).map (a * d.blockLen + ·)
  let wid := if d.kind = 0 then d.blockLen else 128
  rs.any fun r => (List.range wid).any fun c => (d.elem idx r (b * wid + c)).isSome

/-- The rows and columns of a grid. -/
def grid2 (n m : Nat) : List (Nat × Nat) := (List.range n).flatMap fun r => (List.range m).map fun c => (r, c)

/-! ## Checks (R269) -/

/-- Step 1. -/
def CopyD.badShape (d : CopyD) : Bool :=
  d.rows == 0 || decide (256 < d.rows) || d.cols % 32 != 0 || decide (d.cols < 32) || decide (1024 < d.cols) ||
  decide (1024 < d.cols * d.w) ||
  (d.scaled && (decide (2 ≤ d.kind) || d.len == 3 || (d.kind == 0 && d.cols % d.blockLen != 0) ||
    (d.kind == 1 && (d.rows % d.blockLen != 0 || d.cols % 128 != 0)) || (d.kind == 1 && d.indexed))) ||
  (d.trn && d.rows % 32 != 0)

/-- Step 2: the address that fails it. -/
def CopyD.badAddr (d : CopyD) : Option (BitVec 64) :=
  let ap := fun (a : BitVec 64) => bitsOf a 56 8 != 0 && bitsOf a 56 8 != 0x81
  if d.indexed && d.idx % 4 != 0 then some (ownAddr d.idx)
  else if d.tbase % 256 ≠ 0 ∨ 2 ^ 19 ≤ d.tbase then some (ownAddr d.tbase)
  else if d.form ≠ 4 && (ap d.base || d.base.toNat % 16 != 0 || d.pitch % 16 != 0) then some d.base
  else if d.scaled && (ap d.sbase || d.sbase.toNat % 4 != 0 || d.spitch % 4 != 0) then some d.sbase
  else none

/-- Every access of the instruction, in the order in which the trap record names the first that fails. -/
def CopyD.accesses (d : CopyD) (idx : List (Option Word)) : List (AKind × Want) :=
  let tileK : AKind := if d.fills then .store else .load
  let viewK : AKind := if d.sop ≠ 0 ∧ d.form = 3 then .atomic else if d.form = 1 ∨ d.form = 3 then .store else .load
  let scK : AKind := if d.form = 1 ∨ d.form = 3 then .store else .load
  let want := fun (a : BitVec 64) (n : Nat) => ({ thread := 0, ea := a, n := n } : Want)
  (if d.indexed then (List.range d.rows).map fun r => (AKind.load, want (ownAddr (d.idx + 4 * r)) 4) else []) ++
  ((grid2 d.rows d.cols).flatMap fun rc =>
    (tileK, want (ownAddr (d.tileOff rc.1 rc.2)) d.w) ::
      (match d.elem idx rc.1 rc.2 with
       | some ij => [(viewK, want (d.viewAddr ij) d.viewBytes)]
       | none => [])) ++
  (if d.scaled then (grid2 d.nI (d.q / 4)).flatMap fun ab =>
    (tileK, want (ownAddr (d.scaleOff ab.1 ab.2)) 4) ::
      (match d.scaleRow idx ab.1 with
       | some a => if ab.2 < d.nS ∧ (d.fills ∨ d.covers idx ab.1 ab.2) then [(scK, want (d.scaleAddr a ab.2) 4)] else []
       | none => [])
   else [])

/-- A copy does not act on a page with an alias kind: such a page fails step 5. -/
def noAlias (r : Res) : Res :=
  match r with
  | .ok ps => if ps.any fun b => (match b.2.2 with | .win _ _ _ _ => true | _ => false) then .fail 5 5 5 else r
  | r => r

/-- Steps 3 to 5 of one access: a word past the end of the own scratchpad fails step 3, and step 5 is one step. -/
def copyRes (s : State) (t : Team) (spx : Nat) (a : AKind × Want) : Res :=
  if bitsOf a.2.ea 56 8 = 0x80 ∧ teamScratch s t < bitsOf a.2.ea 0 56 + a.2.n then .fail 3 5 4
  else match noAlias (resolve s t spx a.1 a.2) with
    | .fail n c r => .fail (min n 5) c r
    | r => r

/-- Steps 3 to 5 over every access: the first failing step decides, and within it the first failing access. -/
def CopyD.check (d : CopyD) (s : State) (t : Team) (spx : Nat) (idx : List (Option Word)) : Checked :=
  let rs := (d.accesses idx).map fun a => (a.2, copyRes s t spx a)
  let first := rs.foldl (fun m r => min m r.2.step) 99
  match rs.find? fun r => r.2.step == first with
  | some (w, .fail _ c r) => .trap c r w.ea 0
  | some (w, .walk g) => .walk g w.ea 0
  | _ => .ok []

/-! ## Issue -/

/-- The pending copies of a core that are accepted and not done (R258). -/
def coreCopies (s : State) (t : Team) : List (SpRef × Pend) :=
  (s.teams.filter fun u => u.die == t.die && u.core == t.core && u.st == .resident).flatMap fun u =>
    u.spindles.flatMap fun p => (p.pend.filter fun x => match x.kind with
      | .copy _ _ _ _ _ _ _ _ _ => x.paths.any fun e => !e.2
      | _ => false).map fun x => ({ team := u.id, spx := p.spx }, x)

def scopeFlag (on : Bool) (w : JWord) : Option Nat := if on then some (jScope w) else none

/-- A copy form issues and is accepted (R258 steps 1 to 3, R259): its descriptors are latched and cpy rises; it is checked
and performed by events. -/
def copyForm (i : Instr) (w : JWord) (form : Nat) (s : State) : Out :=
  issue i { memory := true } s fun x =>
    if x.tp = 0 then x.skip
    else if 16 ≤ (coreCopies x.s x.t).length then x.stall 0x42
    else if x.ctrStops [4] then x.stall 0x40
    else
      let q := fun (fld : BitVec 10) => x.src fld 4 false 0
      let scaled := (opnd (jC17 w)).kd == .s
      let (id, s) := fresh x.s
      let x := { x with s := s }
      let k := PendKind.copy form (q w.a) (q w.b) (if scaled then q (jC17 w) else 0) scaled x.p.mode [] [] []
      x.next (addPend { x.pend id k false none none [4] [] with accepted := some id })

/-- TCOPY (R272). -/
def execTcopy (w : JWord) (s : State) : Out := copyForm (.tcopy w) w 0 s
/-- TSTORE (R273). -/
def execTstore (w : JWord) (s : State) : Out := copyForm (.tstore w) w 1 s
/-- TGATHER (R272). -/
def execTgather (w : JWord) (s : State) : Out := copyForm (.tgather w) w 2 s
/-- TSCATTER (R273). -/
def execTscatter (w : JWord) (s : State) : Out := copyForm (.tscatter w) w 3 s
/-- TFILL (R275). -/
def execTfill (w : JWord) (s : State) : Out := copyForm (.tfill w) w 4 s

/-! ## What an engine reads (R238, R239) -/

/-- Has an engine instruction's acquire what it waits for (R238): every earlier load and acquire of its spindle is
complete. -/
def engAcqNow (p : Spindle) (x : Pend) : Bool := (before p x.id).all fun y => !(loadLike y || y.acq.isSome) || y.complete

/-- Every earlier access of the spindle is performed (R238, REL). -/
def engRelNow (s : State) (r : SpRef) (p : Spindle) (x : Pend) : Bool :=
  !(before p x.id).any pendOpen && (fencedFor s r []).isEmpty

/-- The performed stores that an engine's instruction may meet in part (R239): no WAIT saw them done before it issued. -/
def tornFor (p : Spindle) (id : Nat) : List Torn := p.torn.filter fun y => y.seen.all fun k => decide (id < k)

/-- The bytes that plain stores of a spindle to a scratchpad byte may leave for an engine (R239, Table 8-2): what stood there
before the first, and the values of the performed and of the pending ones. -/
def tornVals (p : Spindle) (id : Nat) (e : Nat × Nat) : List Byte :=
  let cut := (tornFor p id).filter fun y => y.team == e.1 && y.off == e.2
  (cut.getLast?.map (·.old)).toList ++ cut.map (·.new) ++
  p.pend.flatMap fun x => if isStore x then x.accs.filterMap fun a => match a.loc with
    | .scratch tm off => if tm = e.1 ∧ off ≤ e.2 ∧ e.2 < off + a.n then some (byteAt a.val (a.part + (e.2 - off))) else none
    | _ => none else []

/-- The scratchpad bytes that those stores write. -/
def tornPlaces (p : Spindle) (id : Nat) : List (Nat × Nat) :=
  (((tornFor p id).map fun y => (y.team, y.off)) ++ p.pend.flatMap fun x => if isStore x then x.accs.flatMap fun a => match a.loc with
    | .scratch tm off => (List.range a.n).map fun i => (tm, off + i)
    | _ => [] else []).dedup

/-- The scratchpads as an engine's instruction of a spindle reads them: each byte that the spindle's plain stores may have left in
between holds a free one of its values, unless its REL or a WAIT stands between (R239; log 99). -/
def tornView (s : State) (r : SpRef) (id : Nat) (rel : Bool) : State :=
  match findSp s r with
  | none => s
  | some p =>
    let places := tornPlaces p id
    if rel || places.isEmpty then s
    else places.zipIdx.foldl (fun v e => updTeam v e.1.1 fun u =>
      let vals := mget u.scratch e.1.2 :: tornVals p id e.1
      { u with scratch := mset u.scratch e.1.2 (vals.getD (Config.freePick s.freeNo e.2 % vals.length) 0) }) { s with freeNo := s.freeNo + 1 }

/-! ## Checks -/

/-- The words of the index list, none where they have bad ECC. -/
def readIndex (t : Team) (d : CopyD) : List (Option Word) :=
  if !d.indexed then []
  else (List.range d.rows).map fun r =>
    if scratchBad t (d.idx + 4 * r) 4 then none else some (ofBytes 32 (mgetList t.scratch (d.idx + 4 * r) 4))

/-- Pages that the accesses of a copy reach. -/
def heldPages (s : State) (t : Team) (ws : List Want) : List Tlb :=
  s.tlb.filter fun e => e.die == t.die && (e.core == some t.core || e.core == none) && e.tenant == teamTenant s t &&
    ws.any fun w => bitsOf w.ea 56 8 == 0 && decide (e.va ≤ w.ea.toNat ∧ w.ea.toNat < e.va + e.size)

/-- Scratchpad ranges of a copy (R260): team, offset, length. -/
def CopyD.ranges (d : CopyD) (s : State) (t : Team) (idx : List (Option Word)) : List (Nat × Nat × Nat) :=
  (t.id, d.tbase, d.foot) :: (if d.indexed then [(t.id, d.idx, 4 * d.rows)] else []) ++
  ((d.accesses idx).filterMap fun a =>
    if bitsOf a.2.ea 56 8 = 0x81 then (sibling s t (bitsOf a.2.ea 19 2)).map fun u => (u.id, bitsOf a.2.ea 0 19, a.2.n)
    else none)

def rangesMeet (a b : List (Nat × Nat × Nat)) : Bool :=
  a.any fun x => b.any fun y => x.1 == y.1 && decide (x.2.1 < y.2.1 + y.2.2 ∧ y.2.1 < x.2.1 + x.2.2)

/-- The decoded copy of a pending instruction, with its latched index list. -/
def copyOf (x : Pend) : Option (CopyD × List (Option Word) × List Tlb × Word) :=
  match x.kind with
  | .copy form view shape scale scaled mode idx pages _ =>
    some (copyD (jUnpack x.word) form view shape scale scaled, idx, pages, mode)
  | _ => none

/-- An earlier-accepted copy of the core, not done yet, overlaps these scratchpad ranges (R260); one that is not checked yet
may reach any scratchpad through a view, or scales, that its indices pick. -/
def copyBlocked (s : State) (t : Team) (x : Pend) (rs : List (Nat × Nat × Nat)) : Bool :=
  (coreCopies s t).any fun e =>
    match e.2.accepted, x.accepted, copyOf e.2, findTeam s e.1.team with
    | some a, some b, some (d', idx', _, _), some u =>
      decide (a < b) && (rangesMeet (d'.ranges s u idx') rs || (!e.2.complete && d'.indexed &&
        (bitsOf d'.base 56 8 == 0x81 || (d'.scaled && bitsOf d'.sbase 56 8 == 0x81))))
    | _, _, _, _ => false

/-- COPY_ACCEPT (R258 steps 4 and 5): the oldest copy of its spindle that is not checked makes its acquire and its checks, and
is complete; or traps as though it had never raised cpy. It reads its index list behind what its REL and R260 put before
it. A page that the TLBs lack is walked, and the copy keeps its place (R261). -/
def execCopyAccept (r : SpRef) (id : Nat) (s : State) : Out :=
  match findPend s r id with
  | some (t, p, x) =>
    match x.kind with
    | .copy form view shape scale scaled mode _ _ _ =>
      let w := jUnpack x.word
      let d := copyD w form view shape scale scaled
      let older := (before p id).any fun y => !y.complete && (copyOf y).isSome
      let early := d.indexed && (jRel w && !engRelNow s r p x || !(fencedFor s r (before p id)).isEmpty ||
        copyBlocked s t x [(t.id, d.idx, 4 * d.rows)])
      if x.complete ∨ older ∨ early ∨ (jAcq w ∧ ¬engAcqNow p x) then .next s
      else
        let s := if jAcq w then acquireAt s t (jScope w) else s
        let trap := fun (c : Cond) => Host.Outcome.next (pendTrap s r t p x { c with tmask := x.tmask })
        if d.badShape then trap { cause := 2, reason := 1 }
        else
          match d.badAddr with
          | some a => trap { cause := 3, addr := a }
          | none =>
            let v := if d.indexed ∧ d.idx + 4 * d.rows ≤ teamScratch s t then tornView s r id (jRel w) else s
            let idx := if d.indexed ∧ d.idx + 4 * d.rows ≤ teamScratch s t then readIndex ((findTeam v t.id).getD t) d else []
            let s := { s with freeNo := v.freeNo }
            match d.check s t p.spx idx with
            | .trap c rs ea _ => .next (pendTrap s r t p x { cause := c, reason := rs, tmask := x.tmask, addr := ea })
            | .walk g ea _ =>
             match tlbWalk s t g with
             | some s => .next s
             | none =>
              let fr : FragRef := { sp := r, frag := x.frag }
              match p.frag? x.frag with
              | none => .next s
              | some f =>
                -- the instruction executes again in full once the page has arrived (R269)
                let f' := { f with pc := x.pc, fetched := none,
                                   replay := if x.w = 0 then none else some (x.pc + BitVec.ofNat 64 (12 * (x.w + 1))) }
                let s := updSp (updSp s r fun p => cancelPend p id) r fun p => p.updFrag x.frag fun _ => f'
                .next (Machine.needWalk s fr t g ea x.tmask)
            | .ok _ =>
              let k := PendKind.copy form view shape scale scaled mode idx (heldPages s t ((d.accesses idx).map (·.2))) []
              let f := fun (y : Pend) => { y with kind := k, complete := true }
              .next (updSp s r fun p => settle { p with pend := updWhere (fun y => y.id == id) f p.pend })
    | _ => .next s
  | none => .next s

/-! ## Moving the data -/

/-- The place of a generic address for a copy that holds its translations (R270), be its memory lost since. -/
def placeOf (s : State) (t : Team) (spx : Nat) (pages : List Tlb) (k : AKind) (a : BitVec 64) (n : Nat) : Option Loc :=
  let held := { s with tlb := pages, ready := s.ready ||| 0x7F8, dies := s.dies.map fun d => { d with lost := false } }
  match resolve held t spx k { thread := 0, ea := a, n := n } with
  | .ok [(_, _, loc)] => some loc
  | _ => none

/-- An engine's read; none for bad data. Scratchpads are read as `v` shows them. A line of which the step itself has taken the
tokens, making room for another, is taken again. -/
def engRead (v s : State) (t : Team) (alloc : Bool) (loc : Loc) (n : Nat) : State × Option (List Byte) :=
  match loc with
  | .scratch _ _ => (s, ((readAt v t alloc loc n).toOption).map (·.2))
  | _ =>
    match readAt s t alloc loc n with
    | .ok (s, bs) => (s, some bs)
    | .error (.need line _) =>
      match readAt (takeLine s (.l2 t.die) line) t alloc loc n with
      | .ok (s, bs) => (passOn s (.l2 t.die) line, some bs)
      | .error _ => (passOn s (.l2 t.die) line, none)
    | .error _ => (s, none)

/-- An engine's write. -/
def engWrite (s : State) (t : Team) (alloc : Bool) (loc : Loc) (bs : List Byte) : State :=
  match writeAt s t alloc loc bs with
  | .ok s => s
  | .error (.need line _) =>
    match writeAt (takeLine s (.l2 t.die) line) t alloc loc bs with
    | .ok s => passOn s (.l2 t.die) line
    | .error _ => s
  | .error _ => s

/-- Mark the destination of bad data, where a write of it would go (R184, R271). -/
def markBad (s : State) (t : Team) (loc : Loc) : State :=
  match loc with
  | .scratch tm off => updTeam s tm fun u => { u with badScratch := (sectorOf off :: u.badScratch).dedup }
  | .mem pa owner cls pte base size =>
    let s := zeroFill s owner pte base size
    let low := { s with badSec := (sectorOf pa :: s.badSec).dedup }
    match cls, l1Find s t.die t.core pa owner with
    | .priv, some x => l1Put s { x with bad := true, dirty := true }
    | .shared, some x => l1Put low { x with bad := true }
    | _, _ => low
  | .win _ _ _ _ => s

/-- Record an error that a copy or a pass of a team's core met (R271, R298, R485: class 2): the sector within its line, and
the physical line, 0 for a scratchpad. -/
def logPoison (s : State) (t : Team) (loc : Loc) : State :=
  let (a, line) := match loc with | .mem pa _ _ _ _ _ => (pa, lineOf pa) | .scratch _ off => (off, 0) | _ => (0, 0)
  logError s 2 t.die (physCore s t.die t.core) (BitVec.ofNat 32 (a % 256 / 32)) (BitVec.ofNat 64 line)

/-- One write of a copy: its destination and width; its source, none where a constant is written; whether an unreadable index
makes it bad (R271); whether it keeps a part of its destination's old bytes, or adds to them (R265, R273); whether its bytes
count as written whole; and the value, from that of the source and that of the destination. -/
structure Move where
  dst  : Loc
  n    : Nat
  src  : Option (Loc × Nat)
  lost : Bool
  old  : Bool
  whole : Bool
  val  : Nat → Nat → Nat

/-- The writes of TCOPY, TGATHER and TFILL (R272, R275): the tile, then the scale block. -/
def movesIn (s : State) (t : Team) (spx : Nat) (pages : List Tlb) (d : CopyD) (idx : List (Option Word)) : List Move :=
  let pad := d.pad.toNat % 2 ^ (8 * d.w)
  let lost := fun (r : Nat) => d.indexed && (idx.getD r none).isNone
  let put := fun (off n : Nat) (src : Option (Loc × Nat)) (lost : Bool) (val : Nat → Nat) =>
    ({ dst := .scratch t.id off, n := n, src := src, lost := lost, old := false, whole := true, val := fun x _ => val x } : Move)
  let tile := (grid2 d.rows d.cols).map fun rc =>
    let off := d.tileOff rc.1 rc.2
    match d.elem idx rc.1 rc.2 with
    | none => put off d.w none (lost rc.1) fun _ => pad
    | some ij =>
      let pick := fun (x : Nat) => if d.sf = 6 then (if ij.2 % 2 = 0 then x % 16 else x / 16) else x
      let loc := placeOf s t spx pages .load (d.viewAddr ij) d.viewBytes
      put off d.w (loc.map fun l => (l, d.viewBytes)) loc.isNone fun x => cpWiden d.sf d.tf (pick x)
  if !d.scaled ∨ d.form = 4 then tile
  else tile ++ (grid2 d.nI (d.q / 4)).map fun ab =>
    let off := d.scaleOff ab.1 ab.2
    match (if ab.2 < d.nS then d.scaleRow idx ab.1 else none) with
    | none => put off 4 none (decide (ab.2 < d.nS) && lost ab.1) fun _ => 0
    | some a =>
      let loc := placeOf s t spx pages .load (d.scaleAddr a ab.2) 4
      put off 4 (loc.map fun l => (l, 4)) loc.isNone id

/-- The writes of TSTORE and TSCATTER (R273): an E2M1 element leaves the other nibble of its byte, of two that are written the
second stands for both; SOP 1 and 2 add (R243). -/
def movesOut (s : State) (t : Team) (spx : Nat) (pages : List Tlb) (c : Rnd) (d : CopyD) (idx : List (Option Word)) : List Move :=
  let k : AKind := if d.sop = 0 then .store else .atomic
  let tile := (grid2 d.rows d.cols).filterMap fun rc =>
    match d.elem idx rc.1 rc.2 with
    | none => none
    | some ij => (placeOf s t spx pages k (d.viewAddr ij) d.viewBytes).map fun dst =>
      { dst := dst, n := d.viewBytes, src := some (.scratch t.id (d.tileOff rc.1 rc.2), d.w), lost := false,
        old := d.sop != 0 || d.sf == 6, whole := d.sop == 0 && (d.sf != 6 || ij.2 % 2 == 1),
        val := fun x old =>
          if d.sop ≠ 0 then addRne (if d.sop = 1 then .f32 else .bf16) old x
          else
            let y := cpNarrow c d.tf d.sf x
            if d.sf ≠ 6 then y else if ij.2 % 2 = 0 then old / 16 * 16 + y else old % 16 + 16 * y }
  if !d.scaled then tile
  else tile ++ (grid2 d.nI d.nS).filterMap fun ab =>
    match d.scaleRow idx ab.1 with
    | none => none
    | some a =>
      if !d.covers idx ab.1 ab.2 then none
      else (placeOf s t spx pages .store (d.scaleAddr a ab.2) 4).map fun dst =>
        { dst := dst, n := 4, src := some (.scratch t.id (d.scaleOff ab.1 ab.2), 4), lost := false, old := false, whole := true,
          val := fun x _ => x }

/-- The writes of a copy, in their order. -/
def copyMoves (s : State) (t : Team) (spx : Nat) (w : JWord) (d : CopyD) (idx : List (Option Word)) (pages : List Tlb) (mode : Word) : List Move :=
  if d.fills then movesIn s t spx pages d idx else movesOut s t spx pages (rndOf w.rnd mode) d idx

/-- Does a copy's L1 keep what it reads and writes (R212)? -/
def copyAlloc (w : JWord) : Bool := bitsOf w.mod 14 3 != 2

/-- One write made: from a bad source its destination becomes bad, and is added to a list with the place of the source, none for an
unreadable index (R271). -/
def doMove (v : State) (t : Team) (alloc : Bool) (e : State × List (Loc × Option Loc)) (m : Move) : State × List (Loc × Option Loc) :=
  let write := fun (s : State) (x : Nat) =>
    let r := if m.old then engRead s s t alloc m.dst m.n else (s, none)
    engWrite r.1 t alloc m.dst (toBytes (BitVec.ofNat 64 (m.val x ((r.2.map ofBytesNat).getD 0))) m.n)
  if m.lost then (markBad e.1 t m.dst, e.2 ++ [(m.dst, none)])
  else
    match m.src with
    | none => (write e.1 0, e.2)
    | some (loc, n) =>
      let r := engRead v e.1 t alloc loc n
      match r.2 with
      | some bs => (write r.1 (ofBytesNat bs), e.2)
      | none => (markBad r.1 t m.dst, e.2 ++ [(m.dst, some loc)])

/-- What a write of a copy waits for before it can be made: the tokens of its source's line, or of its destination's (R193, R195,
R198). -/
def moveStop (s : State) (t : Team) (alloc : Bool) (m : Move) : Option Stop :=
  let src := m.src.bind fun e => match readAt s t alloc e.1 e.2 with
    | .error (.need l w) => some (.need l w)
    | .error .wait => some .wait
    | _ => none
  src.or (match writeAt s t alloc m.dst (List.replicate m.n 0) with
    | .error (.need l w) => some (.need l w)
    | .error .wait => some .wait
    | _ => none)

/-- What must be done before a copy moves its data: its checks, what its REL, R260 and R231 order before it, and the ports of
system memory that it uses (R479). -/
def copyMay (s : State) (r : SpRef) (t : Team) (p : Spindle) (x : Pend) (d : CopyD) (idx : List (Option Word)) (pages : List Tlb) : Bool :=
  let w := jUnpack x.word
  x.complete && x.paths.any (!·.2) && (!jRel w || engRelNow s r p x) && !copyBlocked s t x (d.ranges s t idx) &&
  (fencedFor s r (before p x.id)).isEmpty && pages.all fun e => isHbm (ptePa e.leaf) || sysUp s (ptePa e.leaf)

/-! ## Parts of a copy (R277) -/

/-- The space (0 memory, else a team's id plus 1) and the 16-byte piece of a place. -/
def pieceOf : Loc → Nat × Nat
  | .mem pa _ _ _ _ _ => (0, pa / 16)
  | .scratch tm off => (tm + 1, off / 16)
  | .win _ _ _ _ => (0, 0)

/-- The pieces that a copy has written, each with a mark where its source was bad. -/
def movedOf (x : Pend) : List ((Nat × Nat) × Bool) := match x.kind with | .copy _ _ _ _ _ _ _ _ m => m | _ => []

/-- Of the writes that count as whole, those that complete a sector with the pieces written before, none of which was bad: it
takes new ECC (R189, R205). -/
def coverMoves (s : State) (t : Team) (alloc : Bool) (moved : List ((Nat × Nat) × Bool)) (now : List (Nat × Nat)) (ms : List Move) : State :=
  let sector := fun (e : Nat × Nat) => (e.1, e.2 / 2)
  let here := (now.map sector).dedup.filter fun z => !moved.any fun e => e.2 && sector e.1 == z
  let ws := (ms.filter fun m => m.whole && here.contains (sector (pieceOf m.dst)) &&
    (now.contains (pieceOf m.dst) || moved.any fun e => e.1 == pieceOf m.dst)).map fun m => (m.dst, m.n)
  if s.badSec.isEmpty && s.teams.all (fun u => u.badScratch.isEmpty) && ws.all (fun e => !inL1 s t alloc e.1) then s
  else coverWhole s t alloc ws

/-- A turn of a copy (R277): of the pieces that it has not written yet, those are written whose lines its die holds the tokens of,
all of them or some, which ones being free (log 99); the tokens of other lines are asked for (R198). An error that is met is
recorded (R271). A copy with no piece left is done, if it is to be. -/
def copyTurn (s : State) (r : SpRef) (id : Nat) (all : Bool) : State :=
  match findPend s r id with
  | some (t, p, x) =>
    match copyOf x with
    | some (d, idx, pages, mode) =>
      if !copyMay s r t p x d idx pages then s
      else
        let w := jUnpack x.word
        let alloc := copyAlloc w
        let v := tornView s r id (jRel w)
        let ms := copyMoves s t p.spx w d idx pages mode
        let left := ms.filter fun m => !(movedOf x).any fun e => e.1 == pieceOf m.dst
        let stops := left.filterMap fun m => (moveStop s t alloc m).map fun e => (pieceOf m.dst, e)
        let ready := ((left.map fun m => pieceOf m.dst).dedup).filter fun e => !stops.any fun y => y.1 == e
        let now := (ready.zipIdx.filter fun e => all || Config.freePick v.freeNo e.2 % 2 == 1).map (·.1)
        let s := { s with freeNo := v.freeNo + 1 }
        let go := left.filter fun m => now.contains (pieceOf m.dst)
        let (s, bad) := go.foldl (doMove v t alloc) (coverMoves s t alloc (movedOf x) now ms, [])
        let s := (badPlaces bad).foldl (fun s loc => logPoison s t loc) s
        let s := (go.flatMap moveLocs).foldl (fun s l => served s (.l2 t.die) l) s
        let s := (stops.map (·.2)).dedup.foldl (fun s e => match e with
          | .need line wr => wantLine s (.l2 t.die) line wr
          | _ => s) s
        if all && stops.isEmpty then
          updSp ((lostIndex t d idx).foldl (fun s loc => logPoison s t loc) s) r fun p => finishPend p id
        else
          let more := now.map fun e => (e, bad.any fun b => pieceOf b.1 == e)
          let grow := fun (y : Pend) => { y with kind := match y.kind with
            | .copy a b c e f g h i m => .copy a b c e f g h i (m ++ more)
            | k => k }
          updSp s r fun p => { p with pend := updWhere (fun y => y.id == id) grow p.pend }
    | none => s
  | none => s
where
  /-- The sectors of the sources that were bad; an unreadable index is recorded once, at the end. -/
  badPlaces (bad : List (Loc × Option Loc)) : List Loc :=
    (bad.filterMap fun e => match e.2 with
      | some (.mem pa o c pte b z) => some (Loc.mem (sectorOf pa) o c pte b z)
      | some (.scratch tm off) => some (Loc.scratch tm (sectorOf off))
      | _ => none).dedup
  /-- The sectors of index words that could not be read. -/
  lostIndex (t : Team) (d : CopyD) (idx : List (Option Word)) : List Loc :=
    if d.indexed then ((List.range d.rows).filterMap fun r =>
      if (idx.getD r none).isNone then some (Loc.scratch t.id (sectorOf (d.idx + 4 * r))) else none).dedup
    else []
  /-- The lines of memory that a write reads and writes. -/
  moveLocs (m : Move) : List Nat := ((m.dst :: (m.src.map (·.1)).toList).filterMap fun l => match l with
    | .mem pa _ _ _ _ _ => some (lineOf pa)
    | _ => none)

/-- A copy writes some of its pieces (R277). -/
def copyPart (s : State) (r : SpRef) (id : Nat) : State := copyTurn s r id false

/-- COPY_DONE (R258 steps 6 to 8): once what its flags and R260 order before it is done, the data that it has not moved yet
moves, as far as its die holds the lines; with the last of it cpy falls. -/
def execCopyDone (r : SpRef) (id : Nat) (s : State) : Out := .next (copyTurn s r id true)

end Sys2Proof.Machine
end

