-- ==== Sys2Proof/Machine/Lathe.lean ====
section
/-! DEFINITION. Sys2Proof/Machine/Lathe.lean: what the Lathe reads and writes in memory: queue control blocks (R416), launch
records (R433), decision records (R444); launch states (R436), the start of an abort (R442), and what a queue does when it
stops (R431). -/

namespace Sys2Proof.Machine

open Sys2Proof

/-- LATHE (R479). -/
def latheUp (s : State) : Bool := s.ready.getLsbD 1

def findQueue (s : State) (q : Nat) : Option Queue := s.queues.find? fun x => x.n == q
def updQueue (s : State) (q : Nat) (f : Queue → Queue) : State := { s with queues := updWhere (fun x => x.n == q) f s.queues }

/-! ## Physical structures -/

/-- A write by physical address, within one line, under the key of the line's last writer (log 9). -/
def physWrite (s : State) (pa : Nat) (bs : List Byte) : State := devWrite s .abuf ((ownerAt s pa).getD 0) pa bs

/-- Physical address of a field of QCB n (R416). -/
def qcbAt (s : State) (q off : Nat) : Nat := s.lathe.lqtb.toNat + 128 * q + off
def qcb32 (s : State) (q off : Nat) : Word := read32 s (qcbAt s q off)
def qcb64 (s : State) (q off : Nat) : BitVec 64 := read64 s (qcbAt s q off)
def qcbWrite (s : State) (q off : Nat) (bs : List Byte) : State := physWrite s (qcbAt s q off) bs

/-- Bytes of a number. -/
def natBytes (x n : Nat) : List Byte := toBytes (BitVec.ofNat (8 * n) x) n

/-! ## Decision records (R444, R445) -/

/-- The 32 bytes of Table 15-9. -/
def decisionBytes (s : State) (q seq type reason die clu lr detail : Nat) : List Byte :=
  toBytes s.cycle 8 ++ natBytes type 1 ++ natBytes reason 1 ++ natBytes die 1 ++ natBytes clu 1 ++ natBytes q 2 ++ zeros 2 ++
  natBytes lr 8 ++ natBytes detail 4 ++ natBytes seq 4

/-- Write a decision record of a queue, and raise the counter of its type. -/
def decision (s : State) (q type reason die clu lr detail : Nat) : State :=
  match findQueue s q with
  | none => s
  | some x =>
    let s := if x.trb = 0 then s else
      let s := devSet s .abuf (rootDie s) x.tenant (x.trb.toNat + 32 * (x.nrec % x.trn)) (decisionBytes s q x.nrec type reason die clu lr detail)
      qcbWrite (updQueue s q fun x => { x with nrec := x.nrec + 1 }) q 0x48 (natBytes (x.nrec + 1) 8)
    if 2 ≤ type ∧ type ≤ 7 then
      let n := mget x.counters (type - 2) + 1
      qcbWrite (updQueue s q fun x => { x with counters := mset x.counters (type - 2) n }) q (0x50 + 8 * (type - 2)) (toBytes n 8)
    else s

/-- A decision of a grid that concerns no die. -/
def decisionOf (s : State) (g : Grid) (type reason detail : Nat) : State := decision s g.queue type reason 0xFF 0xFF g.lr detail

/-! ## Launch records (R433, R436) -/

/-- Write bytes of a launch record. -/
def setLr (s : State) (g : Grid) (off : Nat) (bs : List Byte) : State := devSet s .abuf (rootDie s) g.qten (g.lr + off) bs

/-- STATE codes (Table 15-7). -/
def gridCode : GridSt → Nat
  | .admitted => 1 | .running => 2 | .yielding => 3 | .yielded => 4 | .complete => 5 | .aborting => 7 | .aborted => 8

/-- A launch changes state: the record's STATE follows. -/
def gridTo (s : State) (g : Nat) (st : GridSt) : State :=
  match findGrid s g with
  | none => s
  | some x => setLr (updGrid s g fun g => { g with st := st }) x 0 (natBytes (gridCode st) 1)

/-- REQ of a launch record, 0 where it cannot be read. -/
def reqOf (s : State) (g : Grid) : Nat := ((devGet s (rootDie s) g.qten (g.lr + 4) 4).map ofBytesNat).getD 0

/-- The Lathe has acted on REQ: it writes 0 where REQ still holds the value (R436). -/
def clearReq (s : State) (g : Grid) : State := setLr s g 4 (zeros 4)

/-- A grid that is over. -/
def Grid.ended (g : Grid) : Bool := g.st == .complete || g.st == .aborted

/-- A launch becomes ABORTING (R387, R436); GRID_ABORT then stops issue in its teams (R442). -/
def abortGrid (s : State) (g : Nat) : State :=
  match findGrid s g with
  | none => s
  | some x => if x.ended || x.st == .aborting then s else gridTo s g .aborting

/-- A queue stops with an error (R431). -/
def stopQueue (s : State) (q err : Nat) : State :=
  let s := updQueue s q fun x => { x with armed := false, stopped := true, waiting := none }
  let s := qcbWrite s q 4 (natBytes err 4)
  let s := qcbWrite s q 0 (natBytes 2 4)
  decision s q 11 err 0xFF 0xFF 0 0

/-! ## Clusters -/

def findCluster (g : Grid) (c : Nat) : Option Cluster := g.clusters.find? fun x => x.cl == c
def updCluster (s : State) (g c : Nat) (f : Cluster → Cluster) : State :=
  updGrid s g fun g => { g with clusters := updWhere (fun x => x.cl == c) f g.clusters }

/-- The four teams of a cluster of a grid. -/
def teamsOf (s : State) (g : Grid) (c : Nat) : List Team := s.teams.filter fun t => t.grid == g.id && t.clNo g == c

def gridTeams (s : State) (g : Nat) : List Team := s.teams.filter fun t => t.grid == g

/-- Bytes that a spindle has issued and that are not done: none of its counters is raised and no access is open. -/
def drained (p : Spindle) : Bool :=
  (List.range 7).all (fun c => mget p.ctr c == 0) && p.pend.all fun x => x.accs.isEmpty

end Sys2Proof.Machine
end

