-- ==== Sys2Proof/Machine/System.lean ====
section
/-! DEFINITION. Sys2Proof/Machine/System.lean: the system class (R407-R414), firmware's actions on traps and faults
(R391, R392, R400, R401), the watchdog (R394), and how a spindle retires (R102). -/

namespace Sys2Proof.Machine

open Sys2Proof

/-- The system class issues under R57. -/
def sysCls : IssCls := { serial := true }

/-! ## Firmware actions (R392) -/

/-- W of a record. -/
def TrapRec.w (r : TrapRec) : Nat := r.info0.toNat % 16

/-- The fragment that a record concerns: fragments' masks are disjoint. -/
def recFrag (p : Spindle) (r : TrapRec) : Option Nat := (p.frags.find? fun f => f.mask == r.fmask).map (·.id)

/-- The spindle of a mesh core that is stopped for a firmware trap, and its record. -/
def stoppedAt (s : State) (die core spx : Nat) : Option (Team × SpRef × TrapRec) :=
  if 64 ≤ core then none
  else
    match teamOnCore s die core with
    | none => none
    | some t => match t.spindle? spx with
      | some p => match p.st with
        | .fwStopped r => some (t, { team := t.id, spx := spx }, r)
        | _ => none
      | none => none

/-- A stopped spindle runs again: `f` acts on the fragment of the record, and a pending trap may follow. -/
def restart (s : State) (sp : SpRef) (r : TrapRec) (f : Frag → Frag) : State :=
  let go := fun (p : Spindle) => match recFrag p r with
    | some i => { p.updFrag i f with st := .running }
    | none => { p with st := .running }
  deliverPending (updSp s sp go) sp

/-- SACT_RESUME (R392, ACT 0): the trapping instruction executes again; a watchdog's fragment waits again (R394). -/
def execSactResume (die core spx : Nat) (s : State) : Out :=
  match stoppedAt s die core spx with
  | none => .next s
  | some (_, sp, r) =>
    .next (restart s sp r fun f =>
      if r.cause = 0x0F then { f with waited := 0 }
      else { f with st := .ready, pc := r.pc, fetched := none, readyFor := 0,
                    replay := if r.w = 0 then none else some (r.pc + BitVec.ofNat 64 (12 * (r.w + 1))) })

/-- SACT_SKIP (R392, ACT 1). -/
def execSactSkip (die core spx : Nat) (s : State) : Out :=
  match stoppedAt s die core spx with
  | none => .next s
  | some (_, sp, r) =>
    .next (restart s sp r fun f =>
      { f with st := .ready, pc := r.pc + BitVec.ofNat 64 (12 * (r.w + 1)), fetched := none, replay := none, readyFor := 0,
               waited := 0 })

/-- SACT_ABORT (R392, ACT 4). -/
def execSactAbort (die core spx : Nat) (s : State) : Out :=
  match stoppedAt s die core spx with
  | none => .next s
  | some (t, _, _) => .next (abortGrid s t.grid)

/-- SACT_DELIVER (R392, ACT 2): as if it had gone to the handler first, so without the firmware bit. -/
def execSactDeliver (die core spx : Nat) (s : State) : Out :=
  match stoppedAt s die core spx with
  | none => .next s
  | some (t, sp, r) =>
    if t.thnd = 0 ∨ ((t.spindle? spx).map (·.tlv)).getD false then .next (abortGrid s t.grid)
    else
      .next (updSp s sp fun p =>
        let i := (recFrag p r).getD 0
        enterHandler t.thnd i { r with info0 := r.info0 &&& 0xCF } { p with st := .running })

/-- Every thread of a spindle exits (R102). -/
def exitAll (turn : Nat) (p : Spindle) : Spindle :=
  (p.frags.map (·.id)).foldl (fun p i => match p.frag? i with | some f => exitThreads turn i f.mask p | none => p) p

/-- SACT_END (R392, ACT 3). -/
def execSactEnd (die core spx : Nat) (s : State) : Out :=
  match stoppedAt s die core spx with
  | none => .next s
  | some (_, sp, _) => .next (updSp s sp fun p => exitAll s.turnNo { p with st := .running })

/-! ## Faults resolved (R401) -/

/-- The granules an FRSV acts on: those of the page that holds the address now, or its own alone. -/
def frsvHits (s : State) (die tenant vpn g : Nat) : Bool := samePage s die tenant g (vpn * 2 ^ 19)

/-- An FRSV: the entries free, and the spindles parked in them may return. -/
def frsv (s : State) (die tenant vpn : Nat) (fail : Bool) : State :=
  match findDie s die with
  | none => s
  | some d =>
    let gs := (d.merges.filter fun m => m.tenant == tenant && frsvHits s die tenant vpn m.granule).map (·.granule)
    let s := updDie s die fun d => { d with merges := d.merges.filter fun m => !(m.tenant == tenant && gs.contains m.granule) }
    let back := fun (p : Spindle) => match p.st with
      | .parked g false false => if gs.contains g then { p with st := .parked g (!fail) fail } else p
      | _ => p
    let mine := fun (t : Team) => t.die == die && teamTenant s t == tenant
    { s with teams := updWhere mine (fun t => { t with spindles := t.spindles.map back }) s.teams }

/-- FRSV_RESOLVE (R401). -/
def execFrsvResolve (die tenant vpn : Nat) (s : State) : Out := .next (frsv s die tenant vpn false)
/-- FRSV_FAIL (R401). -/
def execFrsvFail (die tenant vpn : Nat) (s : State) : Out := .next (frsv s die tenant vpn true)

/-! ## System registers (Table 14-7) -/

/-- A die's register as firmware reads it; SACT and FRSV read as zero. -/
def dieReg (d : Die) (n : Nat) : BitVec 64 :=
  if n = 0x100 then d.ftqb else if n = 0x101 then d.ftqn.setWidth 64 else if n = 0x102 then d.wdog.setWidth 64
  else if n = 0x105 then d.trtb else if n = 0x106 then d.pmap else if n = 0x107 then d.ecccnt else 0

/-- State of a step that answers next. -/
def outState (s : State) : Out → State
  | .next s => s
  | _ => s

/-- SACT (R392): ACT 5 to 7 are ignored. -/
def sact (s : State) (die : Nat) (v : BitVec 64) : State :=
  let spx := bitsOf v 16 9
  let core := bitsOf v 8 6
  let a := bitsOf v 0 3
  let go : Nat → Nat → Nat → State → Out :=
    if a = 0 then execSactResume else if a = 1 then execSactSkip else if a = 2 then execSactDeliver
    else if a = 3 then execSactEnd else if a = 4 then execSactAbort else fun _ _ _ s => .next s
  outState s (go die core spx s)

/-- A write of a die's register (R408). -/
def writeDieReg (s : State) (die n : Nat) (v : BitVec 64) : State :=
  if n = 0x103 then sact s die v
  else if n = 0x104 then frsv s die (bitsOf v 7 12) (bitsOf v 19 37) (v.getLsbD 1)
  else
    updDie s die fun d =>
      if n = 0x100 then { d with ftqb := v } else if n = 0x101 then { d with ftqn := v.setWidth 32 }
      else if n = 0x102 then { d with wdog := v.setWidth 32 } else if n = 0x105 then { d with trtb := v }
      else if n = 0x107 then { d with ecccnt := v } else d

/-- The value of a system register. -/
def sysRead (s : State) (t : Team) (p : Spindle) (n : Nat) : BitVec 64 :=
  if n = 0 then t.thnd
  else if n = 1 then t.stkb
  else if n = 2 then t.stks.setWidth 64
  else if n = 8 then p.epc
  else if n = 9 then p.enest
  else if 0x0C ≤ n ∧ n ≤ 0x0F then (mget p.sav (n - 0x0C)).setWidth 64
  else if 0x10 ≤ n ∧ n ≤ 0x17 then ofBytes 64 (mgetList p.trec (8 * (n - 0x10)) 8)
  else if n = 0x20 then p.entv
  else if n = 0x21 then BitVec.ofNat 64 (p.allot % 1024 + p.cls % 4 * 2 ^ 16 + p.role % 4 * 2 ^ 24)
  else if n = 0x22 then (if p.tlv then 1 else 0)
  else if n = 0x30 then s.cycle
  else if 0x40 ≤ n ∧ n ≤ 0x46 then mget p.stats n
  else if n = 0x48 then ((findDie s t.die).map fun d => mget d.splsp (4 * t.core + quarterOf p.spx)).getD 0
  else ((findDie s t.die).map fun d => dieReg d n).getD 0

/-- A write of a system register that its level may write. -/
def sysWrite (s : State) (sp : SpRef) (t : Team) (n : Nat) (v : BitVec 64) : State :=
  if n = 0 then updTeam s t.id fun t => { t with thnd := v }
  else if n = 1 then updTeam s t.id fun t => { t with stkb := v }
  else if n = 2 then updTeam s t.id fun t => { t with stks := v.setWidth 32 }
  else if n = 8 then updSp s sp fun p => { p with epc := v, epcW := 0 }
  else if n = 9 then updSp s sp fun p => { p with enest := v }
  else if 0x0C ≤ n ∧ n ≤ 0x0F then updSp s sp fun p => { p with sav := mset p.sav (n - 0x0C) (v.setWidth 32) }
  else if 0x40 ≤ n ∧ n ≤ 0x46 then updSp s sp fun p => { p with stats := mset p.stats n v }
  else if n = 0x48 then updDie s t.die fun d => { d with splsp := mset d.splsp (4 * t.core + quarterOf sp.spx) v }
  else writeDieReg s t.die n v

/-- Read-only at a level (Table 14-7). -/
def sysReadOnly (fw tlv : Bool) (n : Nat) : Bool :=
  decide (0x10 ≤ n ∧ n ≤ 0x30) || n == 0x106 || (!fw && ((n == 8 && !tlv) || n == 9 || decide (0x40 ≤ n ∧ n ≤ 0x48)))

/-- RDSYS (R408, R411). -/
def execRdsys (w : JWord) (s : State) : Out :=
  issue (.rdsys w) sysCls s fun x =>
    let n := bitsOf w.mod 0 12
    if x.tp = 0 then x.skip
    else if !x.t.fw && decide (0x100 ≤ n) then x.trapT 0x05 7
    else
      let v := (sysRead x.s x.t x.p n).setWidth 128
      x.next (x.writeAll ((sysRegs n).getD 1) (x.threads.map fun t => (t, v)))

/-- WRSYS (R408, R411). -/
def execWrsys (w : JWord) (s : State) : Out :=
  issue (.wrsys w) sysCls s fun x =>
    let n := bitsOf w.mod 0 12
    if x.tp = 0 then x.skip
    else if !x.t.fw && decide (0x100 ≤ n) then x.trapT 0x05 7
    else if sysReadOnly x.t.fw x.p.tlv n then x.trapT 0x05 8
    else
      let v : BitVec 64 := (x.src w.a ((sysRegs n).getD 1) false 0).setWidth 64
      .next (sysWrite (x.commit x.nextPc id) x.r.sp x.t n v)

/-! ## TRAP, ERET, BKPT, HALT (R409, R410) -/

/-- TRAP (R409). -/
def execTrap (w : JWord) (s : State) : Out :=
  issue (.trapI w) sysCls s fun x =>
    if x.tp = 0 then x.skip
    else x.trap { cause := 0x0C, tmask := x.tp, info := BitVec.ofNat 64 (bitsOf w.mod 0 16) }

/-- ERET (R410). -/
def execEret (w : JWord) (s : State) : Out :=
  issue (.eret w) sysCls s fun x =>
    if x.tp = 0 then x.skip
    else if !x.p.tlv then x.trapT 0x05 9
    else .next (deliverPending (updSp (x.commit x.nextPc id) x.r.sp (leaveHandler x.r.frag)) x.r.sp)

/-- BKPT (R409). -/
def execBkpt (w : JWord) (s : State) : Out :=
  issue (.bkpt w) sysCls s fun x =>
    if x.tp = 0 then x.skip
    else x.trap { cause := 0x0B, reason := 1, tmask := x.tp, info := BitVec.ofNat 64 (bitsOf w.mod 0 16) }

/-- HALT (R409): with a debugger attached the spindle halts behind it. -/
def execHalt (w : JWord) (s : State) : Out :=
  issue (.halt w) sysCls s fun x =>
    if x.tp = 0 then x.skip
    else if debugOn x.s x.t then x.next fun p => { p with halted := true }
    else x.trap { cause := 0x0B, reason := 2, tmask := x.tp }

/-! ## ROLESW (R412) -/

/-- Row groups in use on the home lane of a spindle (R21, R28). -/
def groupsInUse (t : Team) (spx : Nat) : List Nat := (t.spindles.filter fun p => p.spx % 64 == spx % 64).flatMap (·.gmap)

/-- The lowest-numbered free groups of a lane. -/
def freeGroups (t : Team) (spx : Nat) : List Nat := (List.range 32).filter fun g => !(groupsInUse t spx).contains g

/-- Registers above an allotment are not held. -/
def dropAbove (n : Nat) (p : Spindle) : Spindle := { p with v := mclear p.v (8 * n) (8 * 1024) }

/-- The new allotment with its groups; registers gained are zero. -/
def reallot (t : Team) (n : Nat) (p : Spindle) : Spindle :=
  let m := if p.allot < n then p.gmap ++ (freeGroups t p.spx).take ((n - p.allot) / 24) else p.gmap.take (n / 24)
  noLatch (dropAbove (min n p.allot) { p with allot := n, gmap := m })

/-- The class and entry vector that a ROLESW sets. -/
def roleswSet (cls : Option Nat) (entry : Option (BitVec 64)) (p : Spindle) : Spindle :=
  { p with cls := cls.getD p.cls, entv := entry.getD p.entv }

/-- May a spindle's request be met: enough groups are free, and no earlier request of its lane waits? -/
def rowsFree (t : Team) (p : Spindle) (n since : Nat) : Bool :=
  decide ((n - p.allot) / 24 ≤ (freeGroups t p.spx).length) &&
  !(t.spindles.any fun q => q.spx != p.spx && q.spx % 64 == p.spx % 64 && q.rsReq.isSome &&
      q.frags.any fun f => f.st == .rolesw && decide (f.used < since))

/-- ROLESW (R412). -/
def execRolesw (w : JWord) (s : State) : Out :=
  issue (.rolesw w) { serial := true, whole := 2 } s fun x =>
    let n := (x.src1 w.a 0).toNat
    let cls := if w.mod.getLsbD 2 then none else some (bitsOf w.mod 0 2)
    let entry := if w.b = 0x348 then none else some (x.src2 w.b 0)
    let bad := entry.any fun e => bitsOf e 56 8 != 0 || bitsOf e 0 2 != 0
    if n < 24 ∨ 768 < n ∨ n % 24 ≠ 0 then x.trapT 0x02 0
    else if bad then x.trap { cause := 3, tmask := x.tp, addr := entry.getD 0 }
    else if n ≤ x.p.allot ∨ rowsFree x.t x.p n x.s.turnNo then
      .next (x.commit (entry.getD x.nextPc) fun p => roleswSet cls entry (reallot x.t n p))
    else
      let s := x.waitIn .rolesw fun p => { noLatch p with rsReq := some (n, cls, entry) }
      .next (stallAt s x.r 0x44)

/-- ROLESW_ROWS_GRANTED (R412). -/
def execRoleswRowsGranted (sp : SpRef) (s : State) : Out :=
  match findTeam s sp.team, findSp s sp with
  | some t, some p =>
    match p.rsReq, p.frags.find? fun f => f.st == .rolesw with
    | some (n, cls, entry), some f =>
      if teamIssues s t && p.st == .running && !p.halted && rowsFree t p n f.used then
        .next (updSp s sp fun p =>
          let p := roleswSet cls entry (reallot t n { p with rsReq := none })
          p.updFrag f.id fun f => fragStep s.turnNo (entry.getD (f.pc + 12)) { f with st := .ready })
      else .next s
    | _, _ => .next s
  | _, _ => .next s

/-! ## TLBINV (R413) -/

/-- Does an entry go? -/
def tlbGone (form : Nat) (tenant va owner : Nat) (x : Tlb) : Bool :=
  if form = 0 then x.tenant == tenant && decide (x.va ≤ va ∧ va < x.va + x.size)
  else if form = 1 then pteOwner x.leaf == owner
  else true

/-- Was an access of a pending instruction translated through an entry that goes? -/
def accGone (form : Nat) (tenant va owner mine : Nat) (t : Team) (spx : Nat) (a : Acc) : Bool :=
  let g := globalOf t spx a.thread a.ea
  match a.loc with
  | .scratch _ _ => false
  | .mem pa o _ _ base size =>
    if form = 0 then tenant == mine && decide (g + a.part - (pa - base) ≤ va ∧ va < g + a.part - (pa - base) + size)
    else form == 2 || o == owner
  | .win _ _ off _ => if form = 0 then tenant == mine && decide (g - off ≤ va ∧ va < g - off + 2 ^ 31) else true

/-- Does a pending instruction still use an entry that goes: an open access, or a copy's held translation (R270)? -/
def pendGone (s : State) (form tenant va owner : Nat) (t : Team) (p : Spindle) (x : Pend) : Bool :=
  x.accs.any (accGone form tenant va owner (teamTenant s t) t p.spx) ||
  (match x.kind with
   | .copy _ _ _ _ _ _ _ pages _ => x.paths.any (!·.2) && pages.any (tlbGone form tenant va owner)
   | _ => false)

/-- Does a fragment wait on a barrier object through an entry that goes (R257)? -/
def fragGone (s : State) (form tenant va owner : Nat) (t : Team) (p : Spindle) (f : Frag) : Bool :=
  match f.st with
  | .bowait ea loc _ _ _ _ =>
    accGone form tenant va owner (teamTenant s t) t p.spx { thread := 0, ea := ea, n := 64, part := 0, loc := loc, val := 0, val2 := 0 }
  | _ => false

/-- Does a prefetch wait for its line through an entry that goes (R218)? -/
def prefGone (s : State) (form tenant va owner : Nat) (here : Nat → Bool) (e : Prefetch) : Bool :=
  match findTeam s e.team with
  | none => false
  | some t => here t.die &&
    accGone form tenant va owner (teamTenant s t) t 0 { thread := 0, ea := BitVec.ofNat 64 e.va, n := 1, part := 0, loc := e.loc, val := 0, val2 := 0 }

/-- Does anything of a spindle still use an entry that goes? -/
def spGone (s : State) (form tenant va owner : Nat) (t : Team) (p : Spindle) : Bool :=
  p.pend.any (pendGone s form tenant va owner t p) || p.frags.any (fragGone s form tenant va owner t p)

/-- The TLBINV forms: the entries go, and the fragment goes on once every access through one of them is done. -/
def tlbinvForm (i : Instr) (w : JWord) (form : Nat) (s : State) : Out :=
  issue i { serial := true, priv := true } s fun x =>
    if x.tp = 0 then x.skip
    else
      let va := (x.src2 w.a 0).toNat
      let tenant := (x.src1 w.b 0).toNat
      let owner := bitsOf w.mod 0 12
      let here := fun (d : Nat) => w.mod.getLsbD 12 || d == x.t.die
      let s := { x.s with tlb := x.s.tlb.filter fun y => !(here y.die && tlbGone form tenant va owner y) }
      let used := s.teams.any fun t => here t.die && t.spindles.any (spGone s form tenant va owner t)
      if used || s.prefs.any (prefGone s form tenant va owner here) then .next s else { x with s := s }.skip

/-- TLBINV.page (R413). -/
def execTlbinvPage (w : JWord) (s : State) : Out := tlbinvForm (.tlbinvPage w) w 0 s
/-- TLBINV.own (R413). -/
def execTlbinvOwn (w : JWord) (s : State) : Out := tlbinvForm (.tlbinvOwn w) w 1 s
/-- TLBINV.all (R413). -/
def execTlbinvAll (w : JWord) (s : State) : Out := tlbinvForm (.tlbinvAll w) w 2 s

/-! ## CTXSAVE, CTXLOAD (R414) -/

/-- The checked places of a frame at an address, in pieces of 256 bytes. -/
def Iss.framePlace (x : Iss) (k : AKind) (go : BitVec 64 → List (Want × List (Nat × Nat × Loc)) → Out) : Out :=
  let ea := x.src2 x.w.a 0
  let th := (threadsOf x.tp).headD 0
  let wants : List Want := (List.range (frameSize x.p / 256)).map fun i => { thread := th, ea := ea + BitVec.ofNat 64 (256 * i), n := 256 }
  match checkAll x.s x.t x.p.spx k wants with
  | .trap c r a _ => x.trap { cause := c, reason := r, tmask := x.tp, addr := a }
  | .walk g a _ => x.needWalk g a x.tp
  | .ok rs =>
    let kindOk := fun (b : Nat × Nat × Loc) => match b.2.2 with
      | .mem pa _ cls _ _ _ => isHbm pa && cls != .shared
      | _ => false
    match rs.find? fun r => r.2.any fun b => match b.2.2 with | .win _ _ _ _ => true | _ => false with
    | some r => x.trap { cause := 5, reason := 5, tmask := x.tp, addr := r.1.ea }
    | none => match rs.find? fun r => !r.2.all kindOk with
      | some r => x.trap { cause := 5, reason := 3, tmask := x.tp, addr := r.1.ea }
      | none => go ea rs

/-- A place some bytes on. -/
def locPlus (n : Nat) : Loc → Loc
  | .scratch t o => .scratch t (o + n)
  | .mem pa o c e b z => .mem (pa + n) o c e b z
  | .win w r o k => .win w r (o + n) k

/-- Checked pieces cut into places of at most 16 bytes, with their offsets in the frame. -/
def frameCuts (rs : List (Want × List (Nat × Nat × Loc))) : List (BitVec 64 × Nat × Nat × Loc) :=
  (rs.mapIdx fun i r => r.2.flatMap fun b => (List.range ((b.2.1 + 15) / 16)).map fun k =>
    (r.1.ea, 256 * i + b.1 + 16 * k, min 16 (b.2.1 - 16 * k), locPlus (16 * k) b.2.2)).flatten

/-- CTXSAVE (R414): the frame's bytes are one pending store that the fragment waits for. -/
def execCtxsave (w : JWord) (s : State) : Out :=
  issue (.ctxsave w) { serial := true, memory := true, whole := 2 } s fun x =>
    if x.tp = 0 then x.skip
    else
      x.framePlace .store fun ea rs =>
        if (List.range 7).any fun c => ctrOf x.p c != 0 then .next x.s
        else
          let f0 := { x.f with pc := x.nextPc, join := none, st := .ready }
          let rec_ := if x.p.tlv then mgetList x.p.trec 0 64 else []
          let bs := frameBytes { x.p with frags := [f0], joins := [] } false x.p.epcW rec_
          let accs : List Acc := (frameCuts rs).map fun c =>
            { thread := c.2.1 / 256, ea := ea + BitVec.ofNat 64 c.2.1, n := c.2.2.1, part := 0, loc := c.2.2.2,
              val := BitVec.ofNat 128 (fieldAt bs c.2.1 c.2.2.1), val2 := 0 }
          let (id, s) := fresh x.s
          let x := { x with s := s }
          let y := { x.pend id .store false none none [] accs with uni := true, left := 0 }
          .next (askTokens (x.commit x.nextPc (addPend y)) x.t y)

/-- Read the places of a frame. -/
def readFrame (t : Team) : List (BitVec 64 × Nat × Nat × Loc) → State → Except (Stop × BitVec 64) (State × List Byte)
  | [], s => .ok (s, [])
  | c :: rest, s =>
    match readAt s t true c.2.2.2 c.2.2.1 with
    | .error e => .error (e, c.1)
    | .ok (s, bs) => match readFrame t rest s with
      | .error e => .error e
      | .ok (s, r) => .ok (s, bs ++ r)

/-- CTXLOAD (R414): it waits until every byte can be read and no earlier store to the frame is open. -/
def execCtxload (w : JWord) (s : State) : Out :=
  issue (.ctxload w) { serial := true, memory := true, whole := 2 } s fun x =>
    if x.tp = 0 then x.skip
    else
      x.framePlace .load fun _ rs =>
        let cuts := frameCuts rs
        let mine : List Acc := cuts.map fun c =>
          { thread := 0, ea := c.1, n := c.2.2.1, part := 0, loc := c.2.2.2, val := 0, val2 := 0 }
        let open_ := pendMeets (x.p.pend ++ fencedFor x.s x.r.sp []) mine
        if open_ then .next x.s
        else
          match readFrame x.t cuts x.s with
          | .error (.need line wr, _) => .next (wantLine x.s (.l2 x.t.die) line wr)
          | .error (.wait, _) => .next x.s
          | .error (.bad reason info, ea) =>
            x.trap { cause := 0x0D, reason := reason, tmask := x.tp, addr := ea, info := BitVec.ofNat 64 info }
          | .ok (s, bs) =>
            let live : BitVec 8 := BitVec.ofNat 8 (fieldAt bs 0x0E 1)
            if fieldAt bs 8 2 ≠ x.p.allot ∨ live &&& ~~~x.p.live ≠ 0 then x.trapT 0x0E 14
            else
              let s1 := { x with s := s }.commit (word64At bs 0x200) fun p => noLatch (loadRegs bs p)
              .next (updSp s1 x.r.sp fun p =>
                if p.live &&& ~~~live = 0 then p else exitThreads s.turnNo x.r.frag (p.live &&& ~~~live) p)

/-! ## The firmware trap queue (R391) -/

/-- FTQ_RECORD_WRITE (R391): the oldest record, where the ring at FTQB has room; then the header under R255. -/
def execFtqRecordWrite (die : Nat) (s : State) : Out :=
  match findDie s die with
  | none => .next s
  | some d =>
    match d.trapQ with
    | [] => .next s
    | e :: rest =>
      let base := d.ftqb.toNat
      match devGet s die 0 (base + 32) 8, devBo s die 0 base with
      | some bs, some _ =>
        if d.lost ∨ d.written - ofBytesNat bs = d.ftqn.toNat ∨ d.ftqn = 0 then .next s
        else
          let s := devSet s (.l2 die) die 0 (base + 64 + 64 * (d.written % d.ftqn.toNat)) (recBytes e.2)
          let s := postBo s (.l2 die) die 0 base 1 0 0 (BitVec.ofNat 32 die)
          .next (updDie s die fun d => { d with trapQ := rest, written := d.written + 1 })
      | _, _ => .next s

/-! ## Page walks (R399, R400) -/

/-- Fragments of a die that wait for the walk of a granule of a tenant. -/
def walkers (s : State) (die tenant g : Nat) : List (FragRef × BitVec 64 × BitVec 8) :=
  (s.teams.filter fun t => t.die == die && teamTenant s t == tenant).flatMap fun t => t.spindles.flatMap fun p =>
    p.frags.filterMap fun f => match f.st with
      | .walking h ea m => if h = g then some ({ sp := { team := t.id, spx := p.spx }, frag := f.id }, ea, m) else none
      | _ => none

/-- Granules of a tenant that fragments of a die wait for. -/
def walkGranules (s : State) (die tenant : Nat) : List Nat :=
  ((s.teams.filter fun t => t.die == die && teamTenant s t == tenant).flatMap fun t => t.spindles.flatMap fun p =>
    p.frags.filterMap fun f => match f.st with | .walking h _ _ => some h | _ => none).dedup

/-- A fragment's instruction word: as fetched, or as its code reads. -/
def codeWord (s : State) (t : Team) (f : Frag) : IWord :=
  match f.fetched with
  | some w => w
  | none => ((devGet s t.die (teamTenant s t) f.pc.toNat 12).map (ofBytes 96)).getD 0

/-- The record of a fragment that waits for a walk. -/
def walkRec (s : State) (r : FragRef) (c : Cond) : Option TrapRec :=
  match findTeam s r.sp.team, findSp s r.sp, findFrag s r with
  | some t, some p, some f => some (mkRec s t p.spx f.mask f.pc (codeWord s t f) { c with w := replayW f })
  | _, _, _ => none

/-- A spindle waits parked in a granule whose fault is not open yet: its record (R399). -/
def unmerged (s : State) (die tenant g : Nat) : Option TrapRec :=
  (s.teams.filter fun t => t.die == die && teamTenant s t == tenant).findSome? fun t => t.spindles.findSome? fun p =>
    match p.st with
    | .parked h false false => if h = g then (parkRec p).map (·.2) else none
    | _ => none

/-- An entry of the fault-merge table opens where there is room, with one record to firmware (R399, R400). -/
def openMerge (s : State) (die tenant g reason : Nat) (r : TrapRec) : State :=
  match findDie s die with
  | none => s
  | some d =>
    if 256 ≤ d.merges.length ∨ mergeOpen s die tenant g then s
    else
      updDie s die fun d => { d with
        merges := d.merges ++ [{ tenant := tenant, granule := g, reason := reason }],
        trapQ := d.trapQ ++ [(none, { r with info0 := r.info0 ||| 16 })] }

/-- A spindle whose walk has failed parks, if none of its fragments has parked it yet; else the fragment tries again. -/
def parkWalker (g reason : Nat) (s : State) (e : FragRef × BitVec 64 × BitVec 8) : State :=
  match findTeam s e.1.sp.team, findSp s e.1.sp, walkRec s e.1 { cause := 4, reason := reason, tmask := e.2.2, addr := e.2.1 } with
  | some t, some p, some r =>
    if t.st = .resident ∧ p.st = .running then parkSpindle s e.1.sp e.1.frag g r
    else updFrag s e.1 fun f => { f with st := .ready }
  | _, _, _ => s

/-- Fragments by their lowest thread: traps of one cycle are taken in that order (R98). -/
def byLowest (s : State) (ws : List (FragRef × BitVec 64 × BitVec 8)) : List (FragRef × BitVec 64 × BitVec 8) :=
  let key := fun (y : FragRef × BitVec 64 × BitVec 8) => ((findSp s y.1.sp).map (lowestThread · y.1.frag)).getD 8
  (List.range 9).flatMap fun k => ws.filter fun y => key y == k

/-- Page walkers of a die (R13): the walks beyond them wait their turn. -/
def pageWalkers : Nat := 64

/-- Fragments that had joined a walk of what is no longer their page ask for one of their own (R399). -/
def walkAgain (s : State) (die tenant granule : Nat) : State :=
  let lost := (walkGranules s die tenant).filter fun g => !samePage s die tenant g granule &&
    !(((findDie s die).map (·.walks)).getD []).any fun e => e.1 == tenant && samePage s die tenant g e.2
  (lost.flatMap (walkers s die tenant)).foldl (fun s y => updFrag s y.1 fun f => { f with st := .ready }) s

/-- PAGE_WALK_COMPLETE (R395, R396, R399, R402): a translation enters the TLBs; trap 0x04 opens a fault-merge entry, and
every spindle that waits parks; a table or page of a lost die raises trap 0x0D. -/
def execPageWalkComplete (die tenant granule : Nat) (s : State) : Out :=
  match findDie s die with
  | none => .next s
  | some d =>
    if !(d.walks.take pageWalkers).contains (tenant, granule) then
      match unmerged s die tenant granule with
      | some r => .next (openMerge s die tenant granule r.reason.toNat r)
      | none => .next s
    else
      let ws := ((walkGranules s die tenant).filter fun g => samePage s die tenant g granule).flatMap (walkers s die tenant)
      let s := updDie s die fun d => { d with walks := d.walks.filter fun e => !(e.1 == tenant && samePage s die tenant e.2 granule) }
      let s := walkAgain s die tenant granule
      match walk s die tenant granule with
      | .leaf e pte base size =>
        let x : Tlb := { die := die, core := none, tenant := tenant, va := base, size := size, leaf := e, pte := pte }
        let cores := (ws.filterMap fun y => (findTeam s y.1.sp.team).map (·.core)).dedup
        let s := cores.foldl (fun s c => tlbPut s { x with core := some c }) (tlbPut s x)
        .next (ws.foldl (fun s y => updFrag s y.1 fun f => { f with st := .ready }) s)
      | .fault 4 r _ =>
        let first := ws.findSome? fun y => walkRec s y.1 { cause := 4, reason := r, tmask := y.2.2, addr := y.2.1 }
        let s := ws.foldl (parkWalker granule r) s
        .next (match first with | some rec_ => openMerge s die tenant granule r rec_ | none => s)
      | .fault c r pa =>
        .next ((byLowest s ws).foldl (fun s y =>
          match walkRec s y.1 { cause := c, reason := r, tmask := y.2.2, addr := y.2.1,
                                info := BitVec.ofNat 64 (lineOf pa + pa % 256 / 32) } with
          | some rec_ => raiseTrap s y.1.sp y.1.frag rec_
          | none => s) s)

/-! ## Return from a park (R401) -/

/-- Does another parked spindle of the lane, parked earlier, come first? -/
def parkedEarlier (t : Team) (p : Spindle) : Bool :=
  let time := fun (q : Spindle) => ((parkRec q).map fun e => e.2.time.toNat).getD 0
  t.spindles.any fun q => q.spx % 64 == p.spx % 64 && q.gmap.isEmpty &&
    (match q.st with | .parked _ r f => r || f | _ => false) &&
    (decide (time q < time p) || (time q == time p && decide (q.spx < p.spx)))

/-- The record of a fault that firmware did not resolve, as it stands at its delivery (R401). -/
def failedRec (s : State) (sp : SpRef) (r : TrapRec) : TrapRec :=
  match findTeam s sp.team with
  | some t => mkRec s t sp.spx r.fmask r.pc r.word { cause := 4, reason := 3, tmask := r.tmask, addr := r.addr, info := r.info, w := r.w }
  | none => { r with reason := 3 }

/-- The frame is read again and the spindle runs; a failed fault is trap 0x04, reason 3. -/
def unpark (s : State) (sp : SpRef) (frame : Option (List Byte)) (groups : List Nat) (failed : Bool) : State :=
  match (findSp s sp).bind parkRec with
  | none => updSp s sp fun p => { p with st := .running }
  | some (frag, r) =>
    let s := updSp s sp fun p =>
      let p := match frame with | some bs => loadFrame bs p | none => p
      { p with st := .running, gmap := if groups.isEmpty then p.gmap else groups, traps := p.traps.filter fun e => e.2 != r }
    if failed then raiseTrap s sp frag (failedRec s sp r) else deliverPending s sp

/-- SPINDLE_UNPARK (R400, R401): a park whose frame was not yet written completes; a spindle whose fault is resolved or
reported takes row groups in its lane and returns, one that still holds its own at once. -/
def execSpindleUnpark (sp : SpRef) (s : State) : Out :=
  match findTeam s sp.team, findSp s sp with
  | some t, some p =>
    match p.st with
    | .parked _ resolved failed =>
      if t.st ≠ .resident ∨ !teamIssues s t then .next s
      else
        match findGrid s t.grid with
        | none => if resolved || failed then .next (unpark s sp none [] failed) else .next s
        | some g =>
          if !p.gmap.isEmpty then
            .next (if resolved || failed then unpark s sp none [] failed else finishPark s sp)
          else if !(resolved || failed) then .next s
          else
            let n := p.allot / 24
            let free := freeGroups t p.spx
            if free.length < n ∨ parkedEarlier t p then .next s
            else
              match devGet s t.die g.tenant (faultFrame g t p.spx) (frameSize p) with
              | none => .next s
              | some bs => .next (unpark s sp (some bs) (free.take n) failed)
    | _ => .next s
  | _, _ => .next s

/-! ## The watchdog (R394) -/

/-- Is a fragment in one of the waits that R394 names? Of the stalls these are WAIT (0), counter (0x40), queue (0x41) and
ROLESW (0x44). -/
def inWait (s : State) (t : Team) (p : Spindle) (f : Frag) : Bool :=
  match f.st with
  | .barrier _ _ _ _ | .bowait _ _ _ _ _ _ | .atJoin | .rolesw => true
  | .ready => (heldStall s t p f).isSome
  | _ => false

/-- WATCHDOG (R394): the trap goes to firmware, and the wait itself is kept; its record names only other stops as pending (R393). -/
def execWatchdog (r : FragRef) (s : State) : Out :=
  match findTeam s r.sp.team, findSp s r.sp, findFrag s r with
  | some t, some p, some f =>
    if watchdogDue s t f ∧ t.st = .resident ∧ inWait s t p f ∧ canDeliver p f.id then
      let word := codeWord s t f
      let c : Cond := { cause := 0x0F, reason := 1, tmask := takingPart p f (jUnpack word), w := replayW f }
      let s' := updFrag s r fun f => { f with waited := 0 }
      .next (deliver s r.sp r.frag (mkRec s' ((findTeam s' r.sp.team).getD t) p.spx f.mask f.pc word c))
    else .next s
  | _, _, _ => .next s

/-! ## The end of a spindle (R102, R206, R252) -/

/-- A spindle has exited and has not yet retired, or still holds resources. -/
def spindleDone (p : Spindle) : Bool := p.live == 0 && drained p && p.pend.isEmpty

/-- SPINDLE_RETIRE (R102, R133, R206, R250): with its last thread gone the spindle retires, and the barriers of its units
are checked; once its counters are zero, its row groups and port bindings are released. -/
def execSpindleRetire (sp : SpRef) (s : State) : Out :=
  match findTeam s sp.team, findSp s sp with
  | some t, some p =>
    if p.live ≠ 0 ∨ t.st ≠ .resident then .next s
    else
      let s := if p.retired then s else checkBars (updSp s sp fun p => { p with retired := true }) t
      if spindleDone p then
        let free := fun (t : Team) => { t with ports := t.ports.map fun y => if y.bound = some sp.spx then unbind y else y }
        .next (updTeam (updSp s sp fun p => { p with gmap := [] }) t.id free)
      else .next s
  | _, _ => .next s

/-! ## Instruction fetch (R72, R81, R192) -/

/-- Pieces that a core's instruction cache holds: 64 KiB (R192). -/
def icacheCap : Nat := 16384

/-- A piece enters a core's instruction cache; which one a full cache gives up is free (log 99). -/
def icPut (s : State) (c : ICell) : State :=
  let mine := fun (y : ICell) => y.die == c.die && y.core == c.core
  let rest := s.icache.filter fun y => !(mine y && y.pa == c.pa)
  let held := rest.filter mine
  if held.length < icacheCap then { s with icache := c :: rest }
  else
    let out := held.getD (Config.freePick s.freeNo 0 % icacheCap) c
    { s with icache := c :: rest.filter (· != out), freeNo := s.freeNo + 1 }

/-- The piece of a word that the core's instruction cache supplies, unless it is fetched anew. -/
def icHit (s : State) (t : Team) (pa : Nat) (anew : Bool) : Option ICell :=
  if anew then none else s.icache.find? fun c => c.die == t.die && c.core == t.core && c.pa == pa

/-- Does a piece have to be read from memory that holds bad data, or that its port does not serve (R15, R184, R205)? -/
def fetchBad (s : State) (t : Team) (anew : BitVec 3) (e : Nat × Nat × Nat × Nat) : Bool :=
  (icHit s t e.2.1 (anew.getLsbD e.1)).isNone && !pageDiscarded s e.2.2.2 && memBad s e.2.1 4
def fetchDown (s : State) (t : Team) (anew : BitVec 3) (e : Nat × Nat × Nat × Nat) : Bool :=
  (icHit s t e.2.1 (anew.getLsbD e.1)).isNone && !isHbm e.2.1 && !sysUp s e.2.1

/-- One aligned piece of a word: from the core's instruction cache, unless it is fetched anew. -/
def fetchPiece (s : State) (t : Team) (pa owner pte : Nat) (anew : Bool) : State × Word :=
  match icHit s t pa anew with
  | some c => (s, c.word)
  | none =>
    let w := if pageDiscarded s pte then 0 else ofBytes 32 (memBytes s owner pa 4)
    (icPut s { die := t.die, core := t.core, pa := pa, word := w }, w)

/-- The three pieces of a word. -/
def fetchPieces (t : Team) (anew : BitVec 3) : Nat → List (Nat × Nat × Nat) → State → State × List Word
  | _, [], s => (s, [])
  | i, (pa, owner, pte) :: rest, s =>
    let r := fetchPiece s t pa owner pte (anew.getLsbD i)
    let q := fetchPieces t anew (i + 1) rest r.1
    (q.1, r.2 :: q.2)

/-- INSTRUCTION_FETCH (R72, R81, R88, R397): a fault of the fetch is raised by the instruction at the address; a bit of
`anew` fetches its piece from memory though the cache holds one. -/
def execInstructionFetch (r : FragRef) (anew : BitVec 3) (s : State) : Out :=
  match findTeam s r.sp.team, findSp s r.sp, findFrag s r with
  | some t, some p, some f =>
    if f.fetched.isSome ∨ !fragReady s t p f then .next s
    else
      let trap := fun (m : BitVec 8) (c : Cond) => (.next (raiseTrap s r.sp r.frag (mkRec s t p.spx f.mask f.pc 0 { c with tmask := m, w := replayW f })) : Out)
      let a := activeOf p f
      let wants : List Want := (List.range 3).map fun i =>
        { thread := i, ea := f.pc + BitVec.ofNat 64 (4 * i), n := 4, badEa := bitsOf f.pc 56 8 != 0 }
      match checkAll s t p.spx .exec wants with
      | .trap c rs ea _ =>
        trap a { cause := c, reason := rs, addr := ea,
                 info := if c = 0x0D then lostInfo s t p.spx ea 1 else 0 }
      | .walk g ea _ => .next (needWalk s r t g ea a)
      | .ok rs =>
        let ps := rs.filterMap fun x => match x.2 with
          | [(_, _, .mem pa owner _ pte _ _)] => some (pa, owner, pte)
          | _ => none
        let ips := (List.range 3).zip ps
        match ips.find? (fetchBad s t anew) with
        | some (_, e) => trap a { cause := 0x0D, reason := 1, addr := f.pc, info := BitVec.ofNat 64 (lineOf e.1 + e.1 % 256 / 32) }
        | none =>
         if ips.any (fetchDown s t anew) then .next s
         else
          let q := fetchPieces t anew 0 ps s
          .next (updFrag q.1 r fun f => { f with fetched := some (ofBytes 96 (wordBytes q.2)) })
  | _, _, _ => .next s

/-! ## The debug service (R99, R406) -/

/-- DEBUG_ATTACH (R406); a spindle is halted only while the service is attached. -/
def execDebugAttach (grid : Nat) (on : Bool) (s : State) : Out :=
  let s := updGrid s grid fun g => { g with debug := on }
  if on then .next s
  else
    let free := fun (p : Spindle) => { p with halted := false, stepFrag := none }
    .next { s with teams := updWhere (fun t => t.grid == grid) (fun t => { t with spindles := t.spindles.map free }) s.teams }

/-- DEBUG_HALT (R393, R406): at the next instruction boundary. -/
def execDebugHalt (sp : SpRef) (s : State) : Out :=
  match findTeam s sp.team with
  | some t => if debugOn s t then .next (updSp s sp fun p => { p with halted := true, stepFrag := none }) else .next s
  | none => .next s

/-- A fragment that a breakpoint stopped for the debugger. -/
def atBreak (p : Spindle) (f : Frag) : Bool := p.st == .running && f.st == .trapped && !p.traps.any fun e => e.1 == f.id

/-- A fragment that a breakpoint stopped may issue again. -/
def leaveBreak (p : Spindle) : Spindle :=
  { p with frags := p.frags.map fun f => if atBreak p f then { f with st := .ready, readyFor := 0 } else f }

/-- DEBUG_RESUME (R406). -/
def execDebugResume (sp : SpRef) (s : State) : Out :=
  match findSp s sp with
  | some p =>
    if p.halted then .next (deliverPending (updSp s sp fun p => { leaveBreak p with halted := false, stepFrag := none }) sp)
    else .next s
  | none => .next s

/-- DEBUG_STEP (R99): one instruction of the fragment that holds the focus thread; one that waits at its join issues none and
is reported. -/
def execDebugStep (sp : SpRef) (focus : Option Nat) (s : State) : Out :=
  match findSp s sp with
  | none => .next s
  | some p =>
    let low := (threadsOf p.live).headD 0
    let t := match focus with | some t => if p.live.getLsbD t then t else low | none => low
    match p.frags.find? fun f => f.mask.getLsbD t with
    | some f =>
      if !p.halted then .next s
      else if f.st = .atJoin then .next (updSp s sp fun p => { p with stepWaits := true })
      else .next (updSp s sp fun p => { leaveBreak p with stepFrag := some f.id, stepWaits := false })
    | none => .next s

/-- DEBUG_STATE_ACCESS (R406): a halted spindle's frame is read into the host buffer, or written from bytes of its size. -/
def execDebugStateAccess (sp : SpRef) (write : Option (List Byte)) (s : State) : Out :=
  match findSp s sp with
  | none => .next s
  | some p =>
    if !p.halted then .next s
    else
      match write with
      | none =>
        let r := match nextTrap p with | some e => recBytes e.2 | none => mgetList p.trec 0 64
        .next { s with dbgBuf := frameBytes p false p.epcW r }
      | some bs => if bs.length = frameSize p then .next (updSp s sp (loadFrame bs)) else .next s

end Sys2Proof.Machine
end

