-- ==== Sys2Proof/Machine/Queue.lean ====
section
/-! DEFINITION. Sys2Proof/Machine/Queue.lean: queues (R416-R419), how the Lathe reaches a packet (R420, R424-R426, R432),
the packets other than LAUNCH (R423-R430), and the queue events. -/

namespace Sys2Proof.Machine

open Sys2Proof

/-! ## Arming (R416, R418) -/

def powerOf2 (lo hi n : Nat) : Bool := ((List.range 33).any fun k => 2 ^ k == n) && decide (lo ≤ n ∧ n ≤ hi)

/-- The fields of QCB n as arming reads them. -/
def readQcb (s : State) (n : Nat) : Queue :=
  let base := qcb64 s n 8
  let rp := (qcb64 s n 0x10).toNat
  let size := (qcb32 s n 0x20).toNat
  { n := n, armed := true, stopped := false, base := base, size := size, prio := (qcb32 s n 0x24).toNat,
    tenant := (qcb32 s n 0x28).toNat, fa := (qcb32 s n 0x2C).toNat, share := (qcb32 s n 0x30).toNat,
    grace := (qcb32 s n 0x34).toNat, trb := qcb64 s n 0x38, trn := (qcb32 s n 0x40).toNat, rp := rp,
    wp := (qcb64 s n 0x18).toNat, levels := [{ base := base, len := size, pos := rp, blocks := [], skip := none }],
    words := [], nrec := (qcb64 s n 0x48).toNat,
    counters := msetList [] 0 ((List.range 6).map fun i => qcb64 s n (0x50 + 8 * i)),
    launches := ((findQueue s n).map (·.launches)).getD [], aged := false, readyFor := 0, waiting := none }

/-- A field breaks Table 15-2 (R418); BASE is a global address. -/
def badQcb (x : Queue) : Bool :=
  decide (2 ^ 56 ≤ x.base.toNat) || x.base.toNat % 256 != 0 || !powerOf2 4096 (2 ^ 30) x.size || decide (7 < x.prio) || decide (4095 < x.tenant) ||
  (x.fa != 0 && !(x.fa % 64 == 0 && decide (64 ≤ x.fa ∧ x.fa ≤ 65536))) || decide (100000 < x.grace) ||
  (x.trb != 0 && (x.trb.toNat % 32 != 0 || !powerOf2 16 (2 ^ 24) x.trn))

/-- ARM_QUEUE (R418, R480): the Lathe sees STATE 1 of a queue that is not armed. -/
def execArmQueue (q : Nat) (s : State) : Out :=
  if !latheUp s ∨ 1024 ≤ q ∨ qcb32 s q 0 ≠ 1 ∨ ((findQueue s q).map (·.armed)).getD false then .next s
  else
    let x := readQcb s q
    let s := { s with queues := s.queues.filter (fun y => y.n != q) ++ [x] }
    if badQcb x then
      let trb := if x.trb.toNat % 32 ≠ 0 ∨ !powerOf2 16 (2 ^ 24) x.trn then 0 else x.trb
      .next (stopQueue (updQueue s q fun y => { y with trb := trb }) q 11)
    else .next s

/-- DISARM_QUEUE (R418): a wait is abandoned. -/
def execDisarmQueue (q : Nat) (s : State) : Out :=
  match findQueue s q with
  | some x =>
    if latheUp s && x.armed && qcb32 s q 0 == 0 then .next (updQueue s q fun x => { x with armed := false, waiting := none })
    else .next s
  | none => .next s

/-! ## Levels and words (R424, R432) -/

/-- Depth of the level a queue is in: 0 the ring. -/
def Queue.depth (x : Queue) : Nat := x.levels.length - 1
def Queue.level (x : Queue) : Level := x.levels.headD default
def updLevel (f : Level → Level) (x : Queue) : Queue :=
  { x with levels := match x.levels with | l :: r => f l :: r | [] => [] }

/-- Key and address of the word at a position of a level, by its depth. -/
def wordKey (depth : Nat) (l : Level) (pos : Nat) : Nat := if depth = 0 then pos else l.base.toNat + pos
def wordAddr (x : Queue) (depth : Nat) (l : Level) (pos : Nat) : Nat :=
  l.base.toNat + (if depth = 0 then pos % max 1 x.size else pos)

/-- Read bytes in a queue's tables; none where the access fails (R422). -/
def latheRead (s : State) (x : Queue) (k : AKind) (va n : Nat) : Option (List DLoc × List Byte) :=
  match devRange s (rootDie s) x.tenant k va n with
  | .ok ps => if devBad s ps then none else some (ps, devRead s ps)
  | .error _ => none

/-- A word of a level of a queue: as it was fetched, or fetched now. -/
def fetchAt (s : State) (x : Queue) (depth : Nat) (l : Level) (pos : Nat) : Option (State × Word) :=
  let key := wordKey depth l pos
  match x.words.find? fun w => w.1 == depth && w.2.1 == key with
  | some w => some (s, w.2.2)
  | none =>
    (latheRead s x .load (wordAddr x depth l pos) 4).map fun r =>
      let w : Word := ofBytes 32 r.2
      (updQueue s x.n fun x => { x with words := (depth, key, w) :: x.words }, w)

/-- A word of the current level. -/
def fetchWord (s : State) (q pos : Nat) : Option (State × Word) :=
  (findQueue s q).bind fun x => fetchAt s x x.depth x.level pos

/-- `n` words from a position. -/
def fetchWords (q pos : Nat) : Nat → State → Option (State × List Word)
  | 0, s => some (s, [])
  | n + 1, s =>
    match fetchWord s q pos with
    | none => none
    | some (s, w) => (fetchWords q (pos + 4) n s).map fun r => (r.1, w :: r.2)

/-- RP follows the ring where no loop is open there (R417). -/
def saveRp (s : State) (q : Nat) : State :=
  match findQueue s q with
  | none => s
  | some x =>
    match x.levels with
    | [l] =>
      if l.blocks.any (·.isSome) then s
      else
        let s := updQueue s q fun x => { x with rp := l.pos, words := x.words.filter fun w => !(w.1 == 0 && decide (w.2.1 < l.pos)) }
        qcbWrite s q 0x10 (natBytes l.pos 8)
    | _ => s

/-- A packet of `n` bytes finishes. -/
def finishPacket (s : State) (q n : Nat) : State :=
  saveRp (updQueue s q fun x => { updLevel (fun l => { l with pos := l.pos + n }) x with waiting := none, readyFor := 0, aged := false }) q

/-- The body of a packet meaning: the queue that executes it, and the packet's bytes. -/
def packet (s : State) (body : Queue → Nat → Out) : Out :=
  match s.cur with
  | .queue q n => match findQueue s q with
    | some x => body x n
    | none => .fault .noQueue
  | _ => .fault .noQueue

/-- A packet that has taken effect. -/
def Queue.done (x : Queue) (n : Nat) (s : State) : Out := .next (finishPacket s x.n n)
/-- A packet that stops its queue. -/
def Queue.stop (x : Queue) (err : Nat) (s : State) : Out := .next (stopQueue s x.n err)

/-! ## Blocks (R425, R426) -/

def condsOpen (l : Level) : Nat := (l.blocks.filter (·.isNone)).length + ((l.skip.getD []).filter (!·)).length
def loopsOpen (l : Level) : Nat := (l.blocks.filter (·.isSome)).length + ((l.skip.getD []).filter id).length

/-- One header stepped over while skipping: the blocks opened since, or an error. -/
def skipHeader (ty : Nat) (l : Level) : Except Nat (Option (List Bool)) :=
  let st := l.skip.getD []
  let pop := fun (loop : Bool) => match st with
    | b :: r => if b = loop then .ok (if r.isEmpty then none else some r) else .error 5
    | [] => .error 5
  if ty = 0x07 then (if 8 ≤ condsOpen l then .error 4 else .ok (some (false :: st)))
  else if ty = 0x09 then (if 4 ≤ loopsOpen l then .error 4 else .ok (some (true :: st)))
  else if ty = 0x08 then pop false
  else if ty = 0x0A then pop true
  else .ok (some st)

/-- COND_END (R425). -/
def execCondEnd (_ : Packet) (s : State) : Out :=
  packet s fun x n =>
    match x.level.blocks with
    | none :: r => x.done n (updQueue s x.n (updLevel fun l => { l with blocks := r }))
    | _ => x.stop 5 s

/-- LOOP_BEGIN (R426): a count of 0 skips. -/
def execLoopBegin (p : Packet) (s : State) : Out :=
  packet s fun x n =>
    let c := (pkWord p 0).toNat
    if 4 ≤ loopsOpen x.level then x.stop 4 s
    else if c = 0 then x.done n (updQueue s x.n (updLevel fun l => { l with skip := some [true] }))
    else x.done n (updQueue s x.n (updLevel fun l => { l with blocks := some (l.pos + n, c) :: l.blocks }))

/-- LOOP_END (R426, R432): with a pass left, back behind the LOOP_BEGIN with every fetched byte of the level discarded. -/
def execLoopEnd (_ : Packet) (s : State) : Out :=
  packet s fun x n =>
    match x.level.blocks with
    | some (start, left) :: r =>
      if 1 < left then
        .next (updQueue s x.n fun x =>
          let y := updLevel (fun l => { l with pos := start, blocks := some (start, left - 1) :: r }) x
          { y with words := y.words.filter (fun w => w.1 != x.depth), waiting := none, readyFor := 0, aged := false })
      else x.done n (updQueue s x.n (updLevel fun l => { l with blocks := r }))
    | _ => x.stop 5 s

/-- The fetched words of a depth that an INDIRECT enters: it may use each, or fetch it anew (R432), by free choices. -/
def reuseWords (n depth : Nat) (ws : List (Nat × Nat × Word)) : List (Nat × Nat × Word) :=
  ws.filter fun w => w.1 != depth || Config.freePick n w.2.1 % 2 == 0

/-- INDIRECT (R424). -/
def execIndirect (p : Packet) (s : State) : Out :=
  packet s fun x _ =>
    let va := pkDword p 0
    let len := (pkWord p 2).toNat
    if len = 0 ∨ 2 ^ 24 < len then x.stop 2 s
    else if va.toNat % 4 ≠ 0 then x.stop 6 s
    else if 4 ≤ x.depth then x.stop 4 s
    else
      let l : Level := { base := va, len := 4 * len, pos := 0, blocks := [], skip := none }
      .next (updQueue { s with freeNo := s.freeNo + 1 } x.n fun x =>
        { x with levels := l :: x.levels, words := reuseWords s.freeNo (x.depth + 1) x.words, readyFor := 0, aged := false })

/-! ## Memory packets (R421-R423, R428) -/

/-- A write of a queue: error 6 or 7, or the state. -/
def latheWrite (s : State) (x : Queue) (va align : Nat) (bs : List Byte) : Except Nat State :=
  if va % align ≠ 0 then .error 6
  else
    match devRange s (rootDie s) x.tenant .store va bs.length with
    | .ok ps => .ok (devPut .abuf ps bs s)
    | .error _ => .error 7

/-- Finish with a write's state, or stop with its error. -/
def Queue.finish (x : Queue) (n : Nat) (s : State) : Except Nat State → Out
  | .ok s => x.done n s
  | .error e => x.stop e s

/-- NOP packet (R420). -/
def execNopPacket (_ : Packet) (s : State) : Out := packet s fun x n => x.done n s

/-- WRITE32. -/
def execWrite32 (p : Packet) (s : State) : Out :=
  packet s fun x n => x.finish n s (latheWrite s x (pkDword p 0).toNat 4 (toBytes (pkWord p 2) 4))

/-- WRITE64. -/
def execWrite64 (p : Packet) (s : State) : Out :=
  packet s fun x n => x.finish n s (latheWrite s x (pkDword p 0).toNat 8 (toBytes (pkDword p 2) 8))

/-- TIMESTAMP (R428). -/
def execTimestamp (p : Packet) (s : State) : Out :=
  packet s fun x n => x.finish n s (latheWrite s x (pkDword p 0).toNat 8 (toBytes s.cycle 8))

/-- Width in bytes of a condition or an atomic. -/
def pkBytes (p : Packet) : Nat := if pkW64 p then 8 else 4

/-- The test of R423. -/
def condTest (p : Packet) (v : Nat) : Bool :=
  let w := 8 * pkBytes p
  let m := (pkDword p 4).toNat % 2 ^ w
  let x := v &&& m
  let r := (pkDword p 2).toNat % 2 ^ w &&& m
  let op := pkOp p
  if op = 0 then x == r else if op = 1 then x != r else if op = 2 then decide (r ≤ x) else if op = 3 then decide (x < r)
  else if op = 4 then decide (signedOf w r ≤ signedOf w x) else decide (signedOf w x < signedOf w r)

/-- The read of WAIT_MEM and COND_BEGIN. -/
def condRead (s : State) (x : Queue) (p : Packet) : Except Nat Nat :=
  let va := (pkDword p 0).toNat
  if va % pkBytes p ≠ 0 then .error 6
  else match latheRead s x .load va (pkBytes p) with
    | some r => .ok (ofBytesNat r.2)
    | none => .error 7

/-- WAIT_MEM (R423): where the condition does not hold, WAIT_MEM_REREAD reads again. -/
def execWaitMem (p : Packet) (s : State) : Out :=
  packet s fun x n =>
    match condRead s x p with
    | .error e => x.stop e s
    | .ok v => if condTest p v then x.done n s else .next (updQueue s x.n fun x => { x with waiting := some (p, n) })

/-- WAIT_MEM_REREAD (R423). -/
def execWaitMemReread (q : Nat) (s : State) : Out :=
  match findQueue s q with
  | none => .next s
  | some x =>
    match x.waiting with
    | none => .next s
    | some (p, n) =>
      match condRead s x p with
      | .error e => x.stop e s
      | .ok v => if condTest p v then x.done n s else .next s

/-- COND_BEGIN (R425). -/
def execCondBegin (p : Packet) (s : State) : Out :=
  packet s fun x n =>
    if 8 ≤ condsOpen x.level then x.stop 4 s
    else
      match condRead s x p with
      | .error e => x.stop e s
      | .ok v =>
        if condTest p v then x.done n (updQueue s x.n (updLevel fun l => { l with blocks := none :: l.blocks }))
        else x.done n (updQueue s x.n (updLevel fun l => { l with skip := some [false] }))

/-- ATOMIC_MEM (R423): old value and operand to the new value. -/
def atomicPacket (p : Packet) (s : State) (f : Nat → Nat → Nat → Nat) : Out :=
  packet s fun x n =>
    let w := 8 * pkBytes p
    let va := (pkDword p 0).toNat
    if va % pkBytes p ≠ 0 then x.stop 6 s
    else
      match latheRead s x .atomic va (pkBytes p) with
      | none => x.stop 7 s
      | some (ps, bs) =>
        let y := f (ofBytesNat bs) ((pkDword p 2).toNat % 2 ^ w) ((pkDword p 4).toNat % 2 ^ w) % 2 ^ w
        x.done n (devPut .abuf ps (natBytes y (pkBytes p)) s)

/-- ATOMIC_MEM, AOP 0. -/
def execAtomicMemAdd (p : Packet) (s : State) : Out := atomicPacket p s fun old b _ => old + b
/-- ATOMIC_MEM, AOP 1. -/
def execAtomicMemAnd (p : Packet) (s : State) : Out := atomicPacket p s fun old b _ => old &&& b
/-- ATOMIC_MEM, AOP 2. -/
def execAtomicMemOr (p : Packet) (s : State) : Out := atomicPacket p s fun old b _ => old ||| b
/-- ATOMIC_MEM, AOP 3. -/
def execAtomicMemExch (p : Packet) (s : State) : Out := atomicPacket p s fun _ b _ => b
/-- ATOMIC_MEM, AOP 4. -/
def execAtomicMemCas (p : Packet) (s : State) : Out := atomicPacket p s fun old b c => if old = c then b else old

/-- BO_SIGNAL (R428). -/
def execBoSignal (p : Packet) (s : State) : Out :=
  packet s fun x n =>
    let va := (pkDword p 0).toNat
    if va % 64 ≠ 0 then x.stop 6 s
    else match devBo s (rootDie s) x.tenant va with
      | none => x.stop 7 s
      | some _ => x.done n (postBo s .abuf (rootDie s) x.tenant va (pkWord p 2).toNat (pkWord p 3).toNat 0 0xFFFFFFFF)

/-- Pages and lines of a DISCARD_RANGE, as DISCARD takes them (R219). -/
def rangePieces (va n : Nat) (ps : List DLoc) : List (Nat × Nat × Nat) × List (Nat × Nat × Nat) :=
  let at_ := (granules va n).zip ps
  let page := fun (e : (Nat × Nat) × DLoc) => e.1.1 - (e.2.pa - e.2.base)
  let whole := fun (e : (Nat × Nat) × DLoc) => decide (va ≤ page e ∧ page e + e.2.size ≤ va + n)
  ((at_.filter fun e => !whole e).map fun e => (e.2.pa, e.2.len, e.2.owner),
   ((at_.filter whole).map fun e => (e.2.pte, e.2.base, e.2.size)).dedup)

/-- DISCARD_RANGE (R428). -/
def execDiscardRange (p : Packet) (s : State) : Out :=
  packet s fun x n =>
    let va := (pkDword p 0).toNat
    let len := (pkDword p 2).toNat
    if va % 256 ≠ 0 ∨ len % 256 ≠ 0 then x.stop 6 s
    else
      match devRange s (rootDie s) x.tenant .discard va len with
      | .error _ => x.stop 7 s
      | .ok ps =>
        let r := rangePieces va len ps
        x.done n (discardNow s .abuf r.1 r.2)

/-- FETCH_FENCE (R432): every earlier write is performed with its packet; every fetched byte goes. -/
def execFetchFence (_ : Packet) (s : State) : Out :=
  packet s fun x n => x.done n (updQueue s x.n fun x => { x with words := [] })

/-! ## COLLECTIVE, ERT_PRELOAD, SET_SHARE, RESYNC (R427, R429, R430, R481) -/

/-- COLLECTIVE (R427, R480): it waits for the Caldera. A block of no valid group is aborted, and the queue stops (R361). -/
def execCollective (p : Packet) (s : State) : Out :=
  packet s fun x n =>
    let va := (pkDword p 0).toNat
    let i := bitsOf (pkWord p 2) 0 10
    if va % 128 ≠ 0 then x.stop 6 s
    else
      match latheRead s x .load va 128 with
      | none => x.stop 7 s
      | some (ps, bs) =>
        if ps.any fun y => y.cls != .coherent then x.stop 7 s
        else if !caldUp s then .next s
        else
          let b := parseBlock bs
          match findGrp s b.group.toNat with
          | none => x.stop 9 (abortBlock s 10 x.tenant b)
          | some g => if g.mloc ≤ i then x.stop 9 s else x.done n (acceptBlock s g i va 10 x.tenant b).1

/-- What ERT_PRELOAD does on one die. -/
def preload (reset : Bool) (e : Nat) (s : State) (die : Nat) : State :=
  match findDie s die with
  | none => s
  | some d =>
    let y := ertOf d e
    if y.state = 0 then loadOrFail s die e
    else if y.state = 3 ∧ reset then updDie s die fun d => setErt d { ertOf d e with state := 0 }
    else s

/-- ERT_PRELOAD (R429). -/
def execErtPreload (p : Packet) (s : State) : Out :=
  packet s fun x n =>
    let ctl := pkWord p 0
    let e := bitsOf (pkWord p 1) 0 10
    let dies := (List.range 8).filter fun d => ctl.getLsbD d && dieUp s d
    if x.tenant ≠ 0 ∧ dies.any fun d => ((findDie s d).map (·.exown)).getD 0 != x.tenant then x.stop 10 s
    else x.done n (dies.foldl (preload (ctl.getLsbD 8) e) s)

/-- SET_SHARE (R430). -/
def execSetShare (p : Packet) (s : State) : Out :=
  packet s fun x n =>
    if x.tenant ≠ 0 then x.stop 8 s
    else x.done n { s with lathe := { s.lathe with shares := mset s.lathe.shares (bitsOf (pkWord p 0) 0 12) (pkWord p 1) } }

/-- Records written to a die's trap queue and not yet consumed, and those that wait (R391). -/
def trapsPending (s : State) (d : Die) : Nat :=
  let consumed := ((devGet s d.id 0 (d.ftqb.toNat + 32) 8).map ofBytesNat).getD d.written
  d.written - consumed + d.trapQ.length

/-- A 16-byte entry of the RESYNC summary. -/
def resyncEntry (kind die num state last : Nat) : List Byte :=
  natBytes kind 1 ++ natBytes die 1 ++ natBytes num 2 ++ natBytes state 4 ++ natBytes last 8

/-- The instances that have not ended, by group and number. -/
def openInsts (s : State) : List Inst := sortBy (·.group) (sortBy (·.k) (s.insts.filter fun i => i.state == 1 || i.state == 2))

/-- The entries of the summary: in kind order, then number order (R481). -/
def resyncEntries (s : State) : List (List Byte) :=
  ((List.range 1024).filterMap fun q => (s.queues.find? fun x => x.n == q && x.armed).map fun _ => resyncEntry 1 0xFF q 1 0) ++
  ((sortBy (·.queue) (s.grids.filter fun g => !g.ended)).map fun g => resyncEntry 2 0xFF g.queue (gridCode g.st) g.lr) ++
  ((openInsts s).map fun i => resyncEntry 3 0xFF 0 (if instOut s i then 3 else i.state) (i.group + i.k % 2 ^ 32 * 2 ^ 32)) ++
  ((List.range 256).filterMap fun w => (s.wins.find? fun x => x.w == w && x.kind != 0).map fun x => resyncEntry 4 0xFF w x.stat 0) ++
  ((List.range 1024).flatMap fun e => s.dies.filterMap fun d => (d.ert.find? fun y => y.e == e && y.state != 0).map fun y =>
    resyncEntry 5 d.id e y.state (ertBits y)) ++
  ((s.dies.filter fun d => trapsPending s d != 0).map fun d => resyncEntry 6 d.id 0 0 (trapsPending s d))

/-- The summary cut to a buffer's size. -/
def resyncBytes (s : State) (size : Nat) : List Byte :=
  let es := resyncEntries s
  let fit := min es.length ((size - 64) / 16)
  let count := fun (n : Nat) => natBytes n 2
  ((natBytes (64 + 16 * es.length) 4 ++ natBytes 1 4 ++ toBytes s.cycle 8 ++ toBytes s.ready 8 ++
    count (s.queues.filter (·.armed)).length ++ count (s.grids.filter fun g => !g.ended).length ++
    count (s.teams.filter fun t => t.st == .resident && !t.fw).length ++
    count ((openInsts s).length + (s.wins.filter fun x => x.kind != 0).length) ++
    count (s.dies.map fun d => (d.ert.filter fun y => y.state != 0).length).sum ++
    count (s.dies.map (trapsPending s)).sum ++ count fit ++ zeros 26).take size) ++ (es.take fit).flatten

/-- RESYNC (R430, R481). -/
def execResync (p : Packet) (s : State) : Out :=
  packet s fun x n =>
    if x.tenant ≠ 0 then x.stop 8 s
    else x.finish n s (latheWrite s x (pkDword p 0).toNat 1 (resyncBytes s (pkWord p 2).toNat))

/-! ## Events -/

/-- Fetch-ahead in a level: of the words up to D bytes beyond the packet in progress, those that a free value picks (R432). -/
def fetchAhead (q depth : Nat) (l : Level) : List Nat → State → State
  | [], s => s
  | pos :: rest, s =>
    let pick := (Config.freeWord s.freeNo).getLsbD 0
    let s := { s with freeNo := s.freeNo + 1 }
    let s := if pick then (match (findQueue s q).bind fun x => fetchAt s x depth l pos with | some (s, _) => s | none => s) else s
    fetchAhead q depth l rest s

/-- The positions of a level that may be fetched ahead: not beyond the WP that was read, nor the end of the buffer. -/
def aheadOf (x : Queue) (depth : Nat) (l : Level) : List Nat :=
  let d := if x.fa = 0 then 2048 else x.fa
  let room := if depth = 0 then x.wp - l.pos else l.len - l.pos
  (List.range (min d room / 4)).map fun i => l.pos + 4 * i

/-- WP_UPDATE (R417, R432): the Lathe reads WP, and fetches ahead at every level. -/
def execWpUpdate (q : Nat) (s : State) : Out :=
  match findQueue s q with
  | none => .next s
  | some x =>
    if !latheUp s ∨ !x.armed then .next s
    else
      let x := { x with wp := (qcb64 s q 0x18).toNat }
      let s := updQueue s q fun y => { y with wp := x.wp }
      .next ((x.levels.reverse.mapIdx fun i l => (i, l)).foldl (fun s e => fetchAhead q e.1 e.2 (aheadOf x e.1 e.2) s) s)

/-- QUEUE_AGED (R419): ready for 100 µs without being served. -/
def execQueueAged (q : Nat) (s : State) : Out :=
  match findQueue s q with
  | some x => if x.armed ∧ 120000 ≤ x.readyFor then .next (updQueue s q fun x => { x with aged := true }) else .next s
  | none => .next s

/-! ## Reaching the next packet -/

/-- Words of a packet by type, none for NOP (Table 15-3). -/
def typeLen (ty : Nat) : Option Nat :=
  ([(1, 3), (2, 4), (3, 5), (4, 7), (5, 7), (6, 4), (7, 7), (8, 1), (9, 2), (10, 1), (11, 1), (12, 4), (13, 5), (14, 3),
    (15, 5), (16, 3), (17, 3), (18, 4)].find? fun e => e.1 == ty).map (·.2)

/-- Every launch of a queue has ended (SYNC, R420). -/
def launchesEnded (s : State) (x : Queue) : Bool :=
  x.launches.all fun g => ((findGrid s g).map (·.ended)).getD true

/-- Has a queue a packet ready to begin (R419)? Not while it waits, while WP does not cover its next packet, or while SYNC or, for a
COLLECTIVE, the Caldera (R480) holds that back. -/
def queueReady (s : State) (x : Queue) : Bool :=
  let l := x.level
  let ring := decide (x.depth = 0)
  x.armed && x.waiting.isNone && !(ring && decide (x.wp < l.pos + 4)) &&
  ((!ring && decide (l.len ≤ l.pos)) || (fetchWord s x.n l.pos).all fun r =>
    l.skip.isSome || !((ring && decide (x.wp < l.pos + 4 * pkLen r.2)) || (r.2.getLsbD 0 && !launchesEnded s x) ||
      (pkType r.2 == 0x0C && !caldUp s)))

/-- What a queue's turn comes to: a packet to run, or a state. -/
inductive Packeted where
  | run (i : Instr) (s : State)
  | done (s : State)

/-- The buffer of the innermost level has ended: error 5 with a block open; else the INDIRECT finishes (R424, R426). -/
def endBuffer (s : State) (x : Queue) : State :=
  let l := x.level
  if !l.blocks.isEmpty || l.skip.isSome then stopQueue s x.n 5
  else finishPacket (updQueue s x.n fun x => { x with levels := x.levels.tail }) x.n 16

/-- The next packet of a queue (R420, R424, R425, R431, R432). -/
def nextPacket (s : State) (q : Nat) : Packeted :=
  match findQueue s q with
  | none => .done s
  | some x =>
    let l := x.level
    let ring := decide (x.depth = 0)
    if !latheUp s ∨ !x.armed ∨ x.waiting.isSome ∨ (ring ∧ x.wp < l.pos + 4) then .done s
    else if !ring ∧ l.len ≤ l.pos then .done (endBuffer s x)
    else
      match fetchWord s q l.pos with
      | none => .done (stopQueue s q 7)
      | some (s, h) =>
        let len := pkLen h
        let off := if ring then l.pos % max 1 x.size else l.pos
        let crosses := decide (l.len < off + 4 * len)
        let known := decide (pkType h ≤ 0x12)
        if l.skip.isSome then
          if len = 0 then .done (stopQueue s q 2)
          else if crosses then .done (stopQueue s q 3)
          else
            match skipHeader (pkType h) l with
            | .error e => .done (stopQueue s q e)
            | .ok sk => .done (finishPacket (updQueue s q (updLevel fun l => { l with skip := sk })) q (4 * len))
        else if !known then .done (stopQueue s q 1)
        else if len = 0 ∨ (typeLen (pkType h)).getD len ≠ len then .done (stopQueue s q 2)
        else if crosses then .done (stopQueue s q 3)
        else if ring ∧ x.wp < l.pos + 4 * len then .done s
        else if h.getLsbD 0 ∧ !launchesEnded s x then .done s
        else
          match fetchWords q l.pos len s with
          | none => .done (stopQueue s q 7)
          | some (s, ws) =>
            match decodePacket ws with
            | .ok i => .run i { s with cur := .queue q (4 * len) }
            | .error (.packet e) => .done (stopQueue s q e)
            | .error _ => .done (stopQueue s q 2)

end Sys2Proof.Machine
end

