-- ==== Sys2Proof/Machine/Grids.lean ====
section
/-! DEFINITION. Sys2Proof/Machine/Grids.lean: launches: admission and rejection (R27-R33, R433, R434), placement, rounds
and pre-emption (R438, R439), the start of teams (R435), swaps (R35, R36, R405), yields and resumes (R309, R436, R440,
R441), retirement and completion (R39, R437), aborts (R442), link shares (R325, R443). -/

namespace Sys2Proof.Machine

open Sys2Proof

/-! ## Die parts and clusters of a grid (R31, R438) -/

/-- Clusters per row of the rectangle. -/
def Grid.cols (g : Grid) : Nat := g.w / 2
/-- Die parts per row, and in all. -/
def Grid.partCols (g : Grid) : Nat := (g.w + 7) / 8
def Grid.partCount (g : Grid) : Nat := g.partCols * ((g.h + 7) / 8)
/-- DIX of a cluster. -/
def Grid.partAt (g : Grid) (c : Nat) : Nat := dixOf g (g.x0 + 2 * (c % g.cols)) (g.y0 + 2 * (c / g.cols))
/-- A cluster's column and row within its die part. -/
def Grid.offsetOf (g : Grid) (c : Nat) : Nat × Nat := (c % g.cols % 4, c / g.cols % 4)
/-- Columns and rows of clusters of a die part. -/
def Grid.partShape (g : Grid) (dix : Nat) : Nat × Nat :=
  (min 4 (g.cols - 4 * (dix % g.partCols)), min 4 (g.h / 2 - 4 * (dix / g.partCols)))

/-- Has a cluster an unretired team? -/
def clusterLive (s : State) (g : Grid) (c : Nat) : Bool :=
  (teamsOf s g c).any fun t => t.st != .retired && t.st != .discarded

/-- Is a grid admitted and not ended? -/
def Grid.live (g : Grid) : Bool := !g.ended

/-- PRIO of the queue that launched a grid. -/
def prioOf (s : State) (g : Grid) : Nat := ((findQueue s g.queue).map (·.prio)).getD 0

/-! ## Free cores (R33, R438) -/

/-- Does a grid in place keep cores for its clusters? -/
def Grid.keeps (g : Grid) : Bool := g.st == .admitted || g.st == .running || g.st == .yielding

/-- Clusters of a die that are taken: by resident teams, and those kept for clusters that run in place; some grids left
out. -/
def taken (s : State) (die : Nat) (but : List Nat) : List Nat :=
  s.grids.flatMap fun g =>
    if but.contains g.id then []
    else g.clusters.flatMap fun c =>
      if c.die ≠ die then []
      else
        (if c.resident then [c.phys] else []) ++
        (if g.keeps && clusterLive s g c.cl then c.home.toList else [])

/-- Clusters of a die that grids in place keep. -/
def keptHomes (s : State) (die : Nat) : List Nat :=
  (s.grids.flatMap fun g => if !g.keeps then [] else g.clusters.flatMap fun c =>
    if c.die = die ∧ clusterLive s g c.cl then c.home.toList else []).dedup

/-- The places of a part's unretired clusters with its block at a column and row. -/
def placesAt (s : State) (g : Grid) (dix x y : Nat) : List (Nat × Nat) :=
  (g.clusters.filter fun c => c.dix == dix && clusterLive s g c.cl).map fun c =>
    let o := g.offsetOf c.cl
    (c.cl, 4 * (y + o.2) + x + o.1)

/-- The first place for one die part: scanning rows, then columns. -/
def fitPart (s : State) (g : Grid) (occ : List Nat) (dix : Nat) : Option (List (Nat × Nat)) :=
  let sh := g.partShape dix
  ((List.range (5 - sh.2)).flatMap fun y => (List.range (5 - sh.1)).map fun x => placesAt s g dix x y).find? fun l =>
    l.all fun e => !occ.contains e.2

/-- Places for die parts, in DIX order: cluster and the die's cluster number. -/
def fitParts (s : State) (g : Grid) : List Nat → List Nat → Option (List (Nat × Nat))
  | _, [] => some []
  | occ, dix :: rest =>
    match fitPart s g occ dix with
    | none => none
    | some l => (fitParts s g (occ ++ l.map (·.2)) rest).map (l ++ ·)

/-- DIX of the grid's parts bound to a die. -/
def Grid.partsOn (g : Grid) (die : Nat) : List Nat := (g.parts.filter fun p => p.die == die).map (·.dix)

/-- Places for a grid on a die, with the cores of some grids counted free; its own always are. -/
def fitDie (s : State) (g : Grid) (die : Nat) (but : List Nat) : Option (List (Nat × Nat)) :=
  fitParts s g (taken s die (g.id :: but)) (g.partsOn die)

/-- A grid runs in place on a die, at given places, or is time-sliced there. -/
def setPlace (s : State) (grid die : Nat) (l : Option (List (Nat × Nat))) (demoted : Bool) : State :=
  updGrid s grid fun g =>
    { g with
      parts := updWhere (fun p => p.die == die) (fun p => { p with inPlace := l.isSome, demoted := demoted, waits := false }) g.parts,
      clusters := updWhere (fun c => c.die == die)
        (fun c => { c with home := ((l.getD []).find? fun e => e.1 == c.cl).map (·.2) }) g.clusters }

/-- Dies that hold a grid's parts, ascending. -/
def Grid.diesOf (g : Grid) : List Nat := (List.range 8).filter fun d => g.parts.any fun p => p.die == d

/-- Placement on every die, at admission and at a resume (R33, R441). -/
def placeAll (s : State) (grid : Nat) : State :=
  match findGrid s grid with
  | none => s
  | some g => g.diesOf.foldl (fun s d =>
    match findGrid s grid with
    | none => s
    | some g => setPlace s grid d (fitDie s g d []) false) s

/-! ## Admission and rejection (R433, R434) -/

/-- Role entries of a record (Table 15-6), as 64-bit values. -/
def roleWords (bs : List Byte) : List Nat := (List.range 4).map fun i => fieldAt bs (0x20 + 8 * i) 8

def roleSpt (e : Nat) : Nat := natBits e 32 11
def parseRole (e : Nat) : RoleEnt :=
  let c := natBits e 52 3
  { gang := if c = 0 then 0 else 2 ^ (c - 1), cls := natBits e 50 2, regs := 24 * natBits e 44 6, spt := roleSpt e,
    entry := natBits e 0 32 }

/-- Does a present role break Table 15-6 or Table 1-5? -/
def badRole (e : Nat) : Bool :=
  let r := parseRole e
  decide (e / 2 ^ 55 ≠ 0) || decide (natBits e 43 1 ≠ 0) || decide (natBits e 52 3 = 7) || decide (r.regs < 24 ∨ 768 < r.regs) ||
  decide (512 < r.spt) || decide (r.entry % 4 ≠ 0) || decide (r.gang ≠ 0 ∧ r.spt % r.gang ≠ 0)

/-- The grid of a record, before its parts are bound. -/
def parseGrid (bs : List Byte) (id lr q qten : Nat) : Grid :=
  let f := fieldAt bs
  let rect := f 8 8
  { (default : Grid) with
    id := id, lr := lr, queue := q, qten := qten, tenant := f 0x80 4 % 4096, st := .admitted,
    x0 := natBits rect 0 8, y0 := natBits rect 8 8, w := natBits rect 16 9, h := natBits rect 32 9,
    code := BitVec.ofNat 64 (f 0x10 8), karg := BitVec.ofNat 64 (f 0x18 8),
    roles := ((roleWords bs).filter fun e => roleSpt e != 0).map parseRole,
    scratch := f 0x60 4, ffb := BitVec.ofNat 64 (f 0x68 8), swap := BitVec.ofNat 64 (f 0x70 8),
    bo := BitVec.ofNat 64 (f 0x78 8), share := f 0x88 4, mode := f 0x46 2 % 4,
    x := f 0x40 2, y := f 0x42 2, z := f 0x44 2, next := f 0x48 8, area := BitVec.ofNat 64 (f 0x50 8),
    cap := f 0x58 4, experts := f 0x5C 4 }

/-- Home lane and row groups of each spindle of a team, in spindle order (R28). -/
def spindleRoles (g : Grid) : List (Nat × Nat × RoleEnt) :=
  (g.roles.mapIdx fun r e => (List.range e.spt).map fun k => (r, k, e)).flatten

/-- Registers that the spindles before a number hold on its lane. -/
def laneBefore (l : List (Nat × Nat × RoleEnt)) (spx : Nat) : Nat :=
  ((List.range (spx / 64)).map fun k => ((l[spx % 64 + 64 * k]?).map fun e => e.2.2.regs).getD 0).sum

/-- The occupancy check (R29). -/
def lanesFit (g : Grid) : Bool :=
  let l := spindleRoles g
  (List.range 64).all fun lane => decide (laneBefore l (lane + 64 * 8) ≤ 768)

/-- Is a range writable and coherent, without an alias kind, in the launch's tenant (R305)? -/
def areaOk (s : State) (g : Grid) (n : Nat) : Bool :=
  match devRange s (rootDie s) g.tenant .store g.area.toNat n with
  | .ok ps => ps.all fun p => p.cls == .coherent
  | .error _ => false

/-- The dispense state breaks R305. -/
def badDispense (s : State) (g : Grid) : Bool :=
  decide (g.x = 0 ∨ g.y = 0 ∨ g.z = 0) || decide (2 ≤ g.mode) || decide (g.area.toNat % 256 ≠ 0) ||
  (if g.mode = 0 then decide (16 < g.cap) || !areaOk s g 256
   else
     decide (g.cap < 64 ∨ 2 ^ 24 < g.cap ∨ g.cap % 64 ≠ 0) || decide (g.experts < 1 ∨ 1024 < g.experts) ||
     !areaOk s g (g.partCount * g.experts * g.cap * 8))

/-- The first reason to reject a launch, 0 for none (R434). -/
def rejectReason (s : State) (bs : List Byte) (g : Grid) : Nat :=
  let es := roleWords bs
  let n := g.roles.length
  let rect := fieldAt bs 8 8
  let gaps := (es.take n).any fun e => roleSpt e == 0
  if n = 0 ∨ gaps ∨ (es.take n).any badRole ∨ 512 < g.spindles ∨ 2 ^ 19 < g.scratch ∨ g.scratch % 256 ≠ 0 then 1
  else if rect / 2 ^ 41 ≠ 0 ∨ natBits rect 25 7 ≠ 0 ∨ g.x0 % 2 ≠ 0 ∨ g.y0 % 2 ≠ 0 ∨ g.w % 2 ≠ 0 ∨ g.h % 2 ≠ 0 ∨
    g.w < 2 ∨ 256 < g.w ∨ g.h < 2 ∨ 256 < g.h ∨ 256 < g.x0 + g.w ∨ 256 < g.y0 + g.h then 2
  else if !lanesFit g then 3
  else if badDispense s g then 4
  else if g.code.toNat % 4 ≠ 0 ∨ g.ffb.toNat % 256 ≠ 0 ∨ g.swap.toNat % 256 ≠ 0 ∨ g.lr % 256 ≠ 0 ∨
    (devBo s (rootDie s) g.tenant g.bo.toNat).isNone then 5
  else if g.tenant ≠ g.qten ∧ g.qten ≠ 0 then 6
  else if !(List.range 8).any (dieUp s) then 7
  else 0

/-- Unretired clusters bound to a die (R32). -/
def boundLoad (s : State) (die : Nat) : Nat :=
  (s.grids.map fun g => if g.ended then 0 else (g.clusters.filter fun c => c.die == die && clusterLive s g c.cl).length).sum

/-- The available die with the least load. -/
def leastDie (s : State) (load : List (Nat × Nat)) : Nat :=
  let key := fun (d : Nat) => boundLoad s d + ((load.filter fun e => e.1 == d).map (·.2)).sum
  (((List.range 8).filter (dieUp s)).foldl (fun b d => match b with
    | none => some d
    | some e => if key d < key e then some d else b) none).getD 0

/-- The dies of a grid's parts in DIX order, each with its clusters (R32). -/
def bindParts (s : State) (g : Grid) : List (Nat × Nat) :=
  (List.range g.partCount).foldl (fun l dix =>
    let sh := g.partShape dix
    l ++ [(leastDie s l, sh.1 * sh.2)]) []

def noBar : Bar := { gen := 0, arr := 0, exp := 0 }

/-- The teams of a grid at admission: waiting, on no core. -/
def newTeams (g : Grid) (id : Nat) : List Team :=
  (List.range (g.w * g.h)).map fun i =>
    { (default : Team) with id := id + i, grid := g.id, idx := i, vcx := g.x0 + i % g.w, vcy := g.y0 + i / g.w, st := .waiting }

/-- Ranges that an earlier run handed back, from the return area (R309). -/
def readReturned (s : State) (g : Grid) : List (Nat × Nat) :=
  if g.mode ≠ 0 then []
  else ((List.range g.cap).filterMap fun i =>
    (devGet s (rootDie s) g.tenant (g.area.toNat + 16 * i) 16).map fun bs => (fieldAt bs 0 8, fieldAt bs 8 4)).filter fun r => r.2 != 0

/-- GRID_ADMISSION (R32, R307, R436): the parts are bound, the first blocks granted, the record written. -/
def admitGrid (s : State) (g : Grid) : State :=
  let bound := bindParts s g
  let dieOf := fun (dix : Nat) => ((bound[dix]?).map (·.1)).getD 0
  let parts := (List.range g.partCount).map fun dix =>
    { dix := dix, die := dieOf dix, inPlace := false, demoted := false, waits := false, bars := List.replicate 8 noBar : Part }
  let clusters := (List.range (g.cols * (g.h / 2))).map fun c =>
    { cl := c, dix := g.partAt c, die := dieOf (g.partAt c), phys := 0, home := none, bars := List.replicate 4 noBar, grace := 0,
      placed := false, resident := false, stopping := false, why := 0 : Cluster }
  let g := { g with parts := parts, clusters := clusters, returned := readReturned s g, held := s.lathe.held.contains g.tenant }.admitGrants
  let s := { s with grids := s.grids ++ [g], teams := s.teams ++ newTeams g s.nextId, nextId := s.nextId + g.w * g.h }
  let s := placeAll (updQueue s g.queue fun x => { x with launches := x.launches ++ [g.id] }) g.id
  let s := setLr (setLr s g 2 (natBytes g.queue 2)) g 0x90 (toBytes s.cycle 8)
  decisionOf (gridTo s g.id .admitted) g 1 0 parts.length

/-- The completion barrier object of a launch: one increment and a status (R39, R434, R436). -/
def completionBo (s : State) (g : Grid) (status : Nat) : State :=
  postBo s .abuf (rootDie s) g.tenant g.bo.toNat 1 status 0 0xFFFFFFFF

/-- A rejection (R434). -/
def reject (s : State) (g : Grid) (reason : Nat) : State :=
  let s := setLr (setLr s g 1 (natBytes reason 1)) g 0x98 (toBytes s.cycle 8)
  decisionOf (completionBo (setLr s g 0 (natBytes 6 1)) g 4) g 8 reason 0

/-- LAUNCH (R422, R433, R434, R436). -/
def execLaunch (p : Packet) (s : State) : Out :=
  packet s fun x n =>
    let lr := (pkDword p 0).toNat
    match latheRead s x .load lr 256 with
    | none => x.stop 7 s
    | some (_, bs) =>
      if fieldAt bs 0 1 ≠ 0 then x.stop 2 s
      else
        let g := parseGrid bs s.nextId lr x.n x.tenant
        let r := rejectReason s bs g
        x.done n (if r ≠ 0 then reject s g r else admitGrid { s with nextId := s.nextId + 1 } g)

/-! ## The start of a team (R21, R28, R150, R435) -/

def newPort : Port :=
  { bound := none, base := 0, w := 1, wcode := 0, d0 := 0, d1 := 0, d2 := 0, n0 := 0, n1 := 0, n2 := 0, pos := 0,
    fetched := [], pushed := [] }

/-- A generator's state at team start (R150). -/
def genStart (spx t : Nat) : Word := BitVec.ofNat 32 ((8 * spx + t + 1) * 0x9E3779B9)

def newFrag (pc : BitVec 64) (turn : Nat) : Frag :=
  { id := 0, mask := 0xFF, pc := pc, join := none, st := .ready, fetched := none, replay := none, onChip := true, aged := false,
    readyFor := 0, waited := 0, stall := none, used := turn, since := turn }

/-- A spindle at team start. -/
def newSpindle (g : Grid) (turn : Nat) (l : List (Nat × Nat × RoleEnt)) (spx : Nat) (e : Nat × Nat × RoleEnt) : Spindle :=
  let entv := g.code + BitVec.ofNat 64 e.2.2.entry
  { (default : Spindle) with
    spx := spx, role := e.1, rlx := e.2.1, allot := e.2.2.regs, cls := e.2.2.cls, entv := entv,
    gmap := (List.range (e.2.2.regs / 24)).map fun i => laneBefore l spx / 24 + i, live := 0xFF,
    s := msetList [] 0 [g.karg.setWidth 32, (g.karg >>> 32).setWidth 32],
    gen := msetList [] 0 ((List.range 8).map (genStart spx)), mode := 1, frags := [newFrag entv turn], st := .running }

/-- The spindles of a team at its start. -/
def newSpindles (g : Grid) (turn : Nat) : List Spindle :=
  let l := spindleRoles g
  l.mapIdx fun spx e => newSpindle g turn l spx e

/-- A waiting team starts. -/
def startTeam (g : Grid) (turn : Nat) (t : Team) : Team :=
  { t with st := .resident, graceOut := false, sawYield := false, thnd := 0, stkb := 0, stks := 0, scratch := [], basin := [],
           badScratch := [], badBasin := [], ports := List.replicate 8 newPort, bars := List.replicate 16 noBar,
           spindles := newSpindles g turn }

/-- The mesh core of a cluster's core index (R16). -/
def coreOf (phys k : Nat) : Nat := 8 * (2 * (phys / 4) + k / 2) + 2 * (phys % 4) + k % 2

/-! ## Giving a cluster cores (R435-R438) -/

/-- Does the grid wait for the yields of R439? -/
def awaits (s : State) (g : Grid) : Bool := s.grids.any fun v => v.yieldedFor == some g.id && v.st == .yielding

/-- May a team come to a core now? -/
def teamMayCome (g : Grid) (t : Team) : Bool :=
  match t.st with
  | .waiting => g.st == .admitted || g.st == .running
  | .out => (g.st == .admitted || g.st == .running || g.st == .yielding) && !t.graceOut
  | _ => false

/-- May a cluster be given cores now? -/
def mayPlace (s : State) (g : Grid) (c : Cluster) : Bool :=
  dieUp s c.die && !g.held && !c.resident && (teamsOf s g c.cl).any (teamMayCome g) && !awaits s g

/-- A cluster is given cores: waiting teams start, teams that are out are restored, and the placement or the resume is
recorded (R435, R437, R445). -/
def giveCores (s : State) (grid c phys : Nat) : State :=
  match findGrid s grid with
  | none => s
  | some g =>
    match findCluster g c with
    | none => s
    | some k =>
      let fresh := !(teamsOf s g c).any fun t => t.st == .out
      let come := fun (t : Team) =>
        let t' := if !teamMayCome g t then t else if t.st = .waiting then startTeam g s.turnNo t else { t with st := .resident }
        { t' with die := k.die, core := coreOf phys t.kix }
      let s := { s with teams := updWhere (fun t => t.grid == grid && t.clNo g == c) come s.teams }
      let s := updCluster s grid c fun k =>
        { k with phys := phys, resident := true, placed := true, stopping := false, bars := if fresh then List.replicate 4 noBar else k.bars }
      let s := ((teamsOf s g c).filter fun t => t.st == .resident).foldl (fun s t => acquireAt s t 4) s
      let s := decision s g.queue (if k.placed then 6 else 2) 0 k.die phys g.lr 0
      let s := { s with lathe := { s.lathe with active := g.tenant :: s.lathe.active } }
      let s := updGrid s grid fun g =>
        { g with parts := updWhere (fun p => p.die == k.die) (fun p => { p with settled := true }) g.parts }
      if g.st = .admitted then gridTo s grid .running else s

/-- Clusters of a die that no one has. -/
def freeOn (s : State) (die : Nat) : List Nat := let t := taken s die []; (List.range 16).filter fun i => !t.contains i

/-- A cluster of the slice is given cores: its slice counts from here (R34). -/
def giveSlice (s : State) (die grid c phys : Nat) : State :=
  giveCores (updDie s die fun d => { d with sliceNext := d.sliceNext.erase (grid, c), sliceFrom := s.cycle }) grid c phys

/-- The next slice's clusters take the cores that are free, lowest first (R438). -/
def fillSlice (s : State) (die : Nat) : State :=
  (((findDie s die).map (·.sliceNext)).getD []).foldl (fun s e =>
    let drop := updDie s die fun d => { d with sliceNext := d.sliceNext.erase e }
    match findGrid s e.1 with
    | none => drop
    | some g => match findCluster g e.2 with
      | none => drop
      | some k =>
        if mayPlace s g k then
          match freeOn s die with
          | f :: _ => giveSlice s die e.1 e.2 f
          | [] => s
        else if k.resident then s else drop) s

/-- Is a die's cluster free of resident teams? -/
def placeFree (s : State) (die phys : Nat) : Bool :=
  !s.grids.any fun g => g.clusters.any fun c => c.die == die && c.resident && c.phys == phys

/-! ## Pre-emption (R439) -/

/-- Grids whose yield lets a grid run in place on a die, taken one after another. -/
def pickVictims (s : State) (g : Grid) (die : Nat) : List Grid → List Nat → Option (List Nat)
  | [], _ => none
  | v :: vs, acc =>
    if (fitDie s g die (acc ++ [v.id])).isSome then some (acc ++ [v.id]) else pickVictims s g die vs (acc ++ [v.id])

/-- The grids to yield so that a grid can run in place on a die: lower priority, in place there, lowest priority first and
latest admitted first among equals; none where yielding all of them would not suffice. -/
def victims (s : State) (g : Grid) (die : Nat) : Option (List Nat) :=
  let already := (s.grids.filter fun v => v.yieldedFor == some g.id && v.st == .yielding).map (·.id)
  if !already.isEmpty ∧ (fitDie s g die already).isSome then some []
  else
    let here := fun (v : Grid) => v.st == .running && decide (prioOf s v < prioOf s g) &&
      v.parts.any fun p => p.die == die && p.inPlace
    (pickVictims s g die (sortBy (prioOf s) (s.grids.filter here).reverse) already).map fun l => l.filter fun v => !already.contains v

/-- Is pre-emption still to come for a grid on a die: none of its clusters has been given cores there since its admission? -/
def mayPreempt (s : State) (g : Grid) (die : Nat) : Bool :=
  (g.st == .admitted || g.st == .running) && dieUp s die &&
  (g.parts.any fun p => p.die == die && !p.inPlace && !p.waits && !p.demoted && !p.settled) && (victims s g die).isSome

/-- The yield signal (R309, R436, R440): TFETCHs return YIELD; in Mode 0 the Geysers hand back what they hold, but for those of
lost dies, whose indices are never dispensed (R329); requests not yet granted are cancelled; grace counts start. -/
def signalYield (s : State) (grid : Nat) (forGrid : Option Nat) : State :=
  let back := fun (g : Grid) =>
    let held := ((g.geysers.filter fun y => dieUp s y.die).flatMap (·.ranges)) ++ g.returned
    { g with
      returned := if g.mode = 0 then sortBy (·.1) held else g.returned,
      geysers := g.geysers.map fun y => { y with req := false, ranges := if g.mode = 0 ∧ dieUp s y.die then [] else y.ranges },
      yieldedFor := forGrid, clusters := g.clusters.map fun c => { c with grace := 0 } }
  gridTo (updGrid s grid back) grid .yielding

/-- PREEMPTION (R439). -/
def execPreemption (grid die : Nat) (s : State) : Out :=
  match findGrid s grid with
  | none => .next s
  | some g =>
    if !latheUp s ∨ !mayPreempt s g die then .next s
    else
      let vs := (victims s g die).getD []
      let s := updGrid s grid fun g => { g with parts := updWhere (fun p => p.die == die) (fun p => { p with waits := true, settled := true }) g.parts }
      .next (vs.foldl (fun s v => signalYield s v (some grid)) s)

/-- With the yields of R439 over, the waiting parts are placed where they fit, or time-sliced. -/
def settleWaits (s : State) (grid : Nat) : State :=
  match findGrid s grid with
  | none => s
  | some g =>
    if awaits s g then s
    else (g.diesOf.filter fun d => g.parts.any fun p => p.die == d && p.waits).foldl (fun s d =>
      match findGrid s grid with
      | none => s
      | some g => setPlace s grid d (fitDie s g d []) false) s

/-- TEAM_START (R435, R437): a cluster in place takes its cores when they are free; a time-sliced one takes free cores
when it is its turn. -/
def execTeamStart (grid cluster : Nat) (s : State) : Out :=
  let s := settleWaits s grid
  match findGrid s grid with
  | none => .next s
  | some g =>
    match findCluster g cluster with
    | none => .next s
    | some k =>
      if !latheUp s ∨ !mayPlace s g k ∨ mayPreempt s g k.die then .next s
      else
        match k.home with
        | some h => if placeFree s k.die h then .next (giveCores s grid cluster h) else .next s
        | none =>
          match ((findDie s k.die).map (·.sliceNext)).getD [] |>.contains (grid, cluster), freeOn s k.die with
          | true, f :: _ =>
            .next (giveSlice s k.die grid cluster f)
          | _, _ => .next s

/-! ## Rounds (R34, R438) -/

/-- The clusters of a die in the order of R438. -/
def clusterOrder (s : State) (die : Nat) : List (Nat × Nat) :=
  (sortBy (fun g => 7 - prioOf s g) s.grids).flatMap fun g =>
    (sortBy (·.dix) (g.clusters.filter fun c => c.die == die)).map fun c => (g.id, c.cl)

/-- Is a cluster time-sliced? -/
def isSliced (s : State) (e : Nat × Nat) : Bool :=
  (((findGrid s e.1).bind fun g => findCluster g e.2).map fun c => c.home.isNone).getD false

/-- The clusters of a die that are time-sliced, in that order. -/
def sliceOrder (s : State) (die : Nat) : List (Nat × Nat) := (clusterOrder s die).filter (isSliced s)

/-- Does a time-sliced cluster take part in the next slice (R42, R438)? -/
def takesPart (s : State) (e : Nat × Nat) : Bool :=
  match findGrid s e.1 with
  | none => false
  | some g => match findCluster g e.2 with
    | none => false
    | some c => (g.st == .admitted || g.st == .running || g.st == .yielding) && !g.held && !awaits s g && !mayPreempt s g c.die &&
        (teamsOf s g e.2).any fun t => teamMayCome g t || (t.st == .resident && !(c.stopping && c.why == 1))

/-- A list turned so that it starts behind an element. -/
def turnTo {α : Type} [BEq α] (x : Option α) (l : List α) : List α :=
  match x.bind fun x => l.findIdx? (· == x) with
  | some i => l.drop (i + 1) ++ l.take (i + 1)
  | none => l

/-- Stop issue in a cluster for a swap (R35 step 1). -/
def stopCluster (s : State) (grid c why : Nat) : State :=
  updCluster s grid c fun k => if k.resident && !k.stopping then { k with stopping := true, why := why } else k

/-- A demoted grid runs in place on a die again where its cores fit and no time-sliced cluster is left without (R33, R438);
a cluster resident elsewhere moves. -/
def promote (die : Nat) (s : State) (grid : Nat) : State :=
  match findGrid s grid with
  | none => s
  | some g =>
    if !(g.parts.any fun p => p.die == die && p.demoted) || !(g.st == .admitted || g.st == .running) then s
    else
      match fitDie s g die [] with
      | none => s
      | some l =>
        let others := (sliceOrder s die).any fun e => e.1 != grid && takesPart s e
        if others ∧ 16 ≤ (keptHomes s die ++ l.map (·.2)).dedup.length then s
        else
          let s := setPlace s grid die (some l) false
          l.foldl (fun s e => match (findGrid s grid).bind fun g => findCluster g e.1 with
            | some c => if c.resident ∧ c.phys ≠ e.2 then stopCluster s grid e.1 0 else s
            | none => s) s

/-- Grids in place on a die join its rounds (R438). -/
def demoteAll (s : State) (die : Nat) : State :=
  s.grids.foldl (fun s g =>
    if g.parts.any fun p => p.die == die && p.inPlace then setPlace s g.id die none true else s) s

/-- Clusters in place that are out take their own cores again. -/
def restoreHomes (s : State) (die : Nat) : State :=
  (s.grids.flatMap fun g => (g.clusters.filter fun c => c.die == die && c.home.isSome).map fun c => (g.id, c.cl)).foldl (fun s e =>
    match findGrid s e.1 with
    | none => s
    | some g => match findCluster g e.2 with
      | none => s
      | some c => match c.home with
        | none => s
        | some h => if c.placed && mayPlace s g c && placeFree s die h then giveCores s e.1 e.2 h else s) s

/-- The clusters of the next slice: those of the last one that were given no cores, then the following ones in turn, also where the
last one to come is no longer time-sliced (R42, R438). -/
def nextSlice (s : State) (die room : Nat) : List (Nat × Nat) :=
  let d := (findDie s die).getD default
  let left := d.sliceNext.filter fun e => isSliced s e && takesPart s e
  let rest := (turnTo d.sliceAt (clusterOrder s die)).filter fun e => isSliced s e && takesPart s e && !left.contains e
  (left ++ rest).take room

/-- Is a core free for a cluster of the slice, or about to be? -/
def coreComes (s : State) (die : Nat) : Bool :=
  !(freeOn s die).isEmpty || s.grids.any fun g => g.clusters.any fun c => c.die == die && c.resident && c.stopping

/-- Has the die's slice run out: each of its clusters for which a core comes has been given cores, and LSLICE has passed since
(R34, R42)? -/
def sliceOver (s : State) (die : Nat) : Bool :=
  match findDie s die with
  | none => false
  | some d =>
    d.sliceAt.isNone || (!(coreComes s die && d.sliceNext.any (fun e => takesPart s e && comes e)) &&
      decide (s.lathe.lslice.toNat * 1200 ≤ (s.cycle - d.sliceFrom).toNat))
where
  comes (e : Nat × Nat) : Bool :=
    (((findGrid s e.1).bind fun g => findCluster g e.2).map fun c => !c.resident || c.stopping).getD false

/-- SLICE_END (R34, R42, R438). -/
def execSliceEnd (die : Nat) (s : State) : Out :=
  if !latheUp s ∨ !dieUp s die ∨ !sliceOver s die then .next s
  else
    let s := (s.grids.map (·.id)).foldl (promote die) s
    let s := if (sliceOrder s die).any (takesPart s) && decide (16 ≤ (keptHomes s die).length) then demoteAll s die else s
    let order := sliceOrder s die
    let room := 16 - (keptHomes s die).length
    let window := nextSlice s die room
    let isIn := fun (s : State) (e : Nat × Nat) =>
      (((findGrid s e.1).bind fun g => findCluster g e.2).map fun c => c.resident && !c.stopping).getD false
    let s := order.foldl (fun s e => if isIn s e && !window.contains e then stopCluster s e.1 e.2 0 else s) s
    let next := window.filter fun e => !isIn s e
    let s := updDie s die fun d => { d with sliceAt := window.getLast?.or d.sliceAt, sliceNext := next, sliceFrom := s.cycle }
    .next (restoreHomes (fillSlice s die) die)

/-! ## Swaps (R35, R36, R237, R405) -/

/-- May a spindle's team be saved (R35, R237, R323): its counters are zero, its copies accepted and done, no dispense
instruction of it is incomplete. A parked spindle needs no more: it issues nothing. -/
def spindleDrained (s : State) (t : Team) (p : Spindle) : Bool :=
  drained p && !p.pend.any (fun x => !x.complete && decide (0x90 ≤ jMaj x.word ∧ jMaj x.word ≤ 0x95)) &&
  !s.matReqs.any fun q => q.sp == { team := t.id, spx := p.spx }

/-- Has every spindle of a team retired and let go of what it held? -/
def teamOver (t : Team) : Bool := t.spindles.all fun p => p.retired && spindleDone p

/-- Registers of a spindle in the image: offset and bytes of each row it fills. -/
def imageRows (p : Spindle) : List (Nat × List Byte) :=
  if p.gmap.isEmpty then []
  else (List.range p.allot).map fun n =>
    (p.spx % 64 * 24576 + (128 * (n % 6) + 4 * p.gmap.getD (n / 24) 0 + n / 6 % 4) * 32, wordBytes (mgetList p.v (8 * n) 8))

/-- The record a spindle's header carries. -/
def headRec (p : Spindle) : List Byte := match nextTrap p with
  | some e => recBytes e.2
  | none => mgetList p.trec 0 64

/-- A barrier in the image: its generation, arrivals and expected count. DESIGN CHOICE: 4 bytes each, then zeros (log 113). -/
def barBytes (b : Bar) : List Byte := toBytes b.gen 4 ++ natBytes b.arr 4 ++ natBytes b.exp 4 ++ zeros 4

/-- A queue port in the image: a function of what R405 names (log 113). -/
def portBytes (y : Port) : List Byte :=
  let vals := [match y.bound with | none => 0 | some b => b + 1, y.base.toNat, y.wcode, wrapTo 32 y.d0, wrapTo 32 y.d1, wrapTo 32 y.d2,
               y.n0, y.n1, y.n2, y.pos, 8 * y.pushed.length]
  (List.range 64).map (Config.portByte vals)

/-- A team's swap image (R405), piece by piece. -/
def imagePieces (g : Grid) (c : Cluster) (t : Team) : List (Nat × List Byte) :=
  t.spindles.flatMap imageRows ++
  [(0x180000, wordBytes (mgetList t.basin 0 65536)), (0x1C0000, mgetList t.scratch 0 g.scratch)] ++
  (t.spindles.map fun p => (0x240000 + 1024 * p.spx, frameHeader p false p.epcW (headRec p))) ++
  (t.ports.mapIdx fun i y => (0x2C0000 + 64 * i, portBytes y)) ++
  (t.bars.mapIdx fun i b => (0x2C0200 + 16 * i, barBytes b)) ++
  (if t.kix = 0 then c.bars.mapIdx fun i b => (0x2C0300 + 16 * i, barBytes b) else []) ++
  [(0x2C0400, toBytes t.thnd 8 ++ toBytes t.stkb 8 ++ toBytes (t.stks.setWidth 64) 8)]

/-- Write a team's image to the swap area; what is not mapped there is not written. -/
def writeImage (s : State) (g : Grid) (c : Cluster) (t : Team) : State :=
  let base := g.swap.toNat + t.lin g * 0x300000
  (imagePieces g c t).foldl (fun s e => devSet s (.l2 t.die) t.die g.tenant ((base + e.1) % 2 ^ 64) e.2) s

/-- Can the ports that a team's swap area needs be used (R15)? -/
def imageUp (s : State) (g : Grid) (t : Team) : Bool :=
  areaUp s t.die g.tenant ((g.swap.toNat + t.lin g * 0x300000) % 2 ^ 64) 0x300000

/-- A spindle as it goes out: its latches are released, and what was on its way to it is asked for again. -/
def outSpindle (p : Spindle) : Spindle :=
  { noLatch p with frags := p.frags.map fun f =>
      match f.st with
      | .walking _ _ _ => { f with st := .ready, fetched := none }
      | .ready => { f with fetched := none }
      | _ => f }

/-- The scratchpad of a team that retired before the save is saved as long as a team of its cluster is unretired (R36). -/
def writeScratch (s : State) (g : Grid) (t : Team) : State :=
  devSet s (.l2 t.die) t.die g.tenant ((g.swap.toNat + t.lin g * 0x300000 + 0x1C0000) % 2 ^ 64) (mgetList t.scratch 0 g.scratch)

/-- A resident team goes out. -/
def outTeam (why : Nat) (t : Team) : Team :=
  { t with st := .out, graceOut := why == 1, spindles := t.spindles.map outSpindle,
           ports := t.ports.map fun y => { y with fetched := [] } }

/-- A core's array holds no chuck of a team that leaves it. -/
def dropChuck (s : State) (die core : Nat) : State :=
  { s with arrays := updWhere (fun a => a.die == die && a.core == core) (fun a => { a with chuck := none }) s.arrays }

/-- SWAP_SAVE (R35 steps 2 and 3, R36, R437): once every resident team of the stopped cluster is drained. -/
def execSwapSave (grid cluster : Nat) (s : State) : Out :=
  match findGrid s grid with
  | none => .next s
  | some g =>
    match findCluster g cluster with
    | none => .next s
    | some c =>
      let here := (teamsOf s g cluster).filter fun t => t.st == .resident
      let mayGo := here.all fun t => t.spindles.all (spindleDrained s t) && !teamOver t
      if !latheUp s ∨ !(c.resident && c.stopping) ∨ g.ended ∨ g.st = .aborting ∨ here.isEmpty ∨ !mayGo ∨ !(teamsOf s g cluster).all (imageUp s g) then .next s
      else
        let s := here.foldl (fun s t => dropChuck (flushCore s t.die t.core) t.die t.core) s
        let gone := (teamsOf s g cluster).filter fun t => t.st == .retired || t.st == .yieldExited
        let s := gone.foldl (fun s t => writeScratch s g t) (here.foldl (fun s t => writeImage s g c t) s)
        let ids := here.map (·.id)
        let s := { s with teams := updWhere (fun t => ids.contains t.id) (outTeam c.why) s.teams }
        let s := here.foldl suspendTeam s
        let s := updCluster s grid cluster fun c => { c with resident := false, stopping := false }
        let s := setLr (updGrid s grid fun g => { g with nswap := g.nswap + 1 }) g 0xA0 (natBytes (g.nswap + 1) 8)
        let s := decision s g.queue (if c.why = 2 then 7 else 5) (if c.why = 1 then 1 else 0) c.die c.phys g.lr 0
        .next (fillSlice s c.die)

/-- CLUSTER_SWAP_PARKED (R400): every spindle of the cluster's teams is parked. -/
def execClusterSwapParked (grid cluster : Nat) (s : State) : Out :=
  match findGrid s grid with
  | none => .next s
  | some g =>
    let sps := ((teamsOf s g cluster).filter fun t => t.st == .resident).flatMap fun t => t.spindles.filter fun p => !p.retired
    let parked := fun (p : Spindle) => match p.st with | .parked _ _ _ => true | _ => false
    if latheUp s && g.keeps && !sps.isEmpty && sps.all parked then .next (stopCluster s grid cluster 2) else .next s

/-- GRACE_EXPIRY (R440). -/
def execGraceExpiry (grid cluster : Nat) (s : State) : Out :=
  match findGrid s grid with
  | none => .next s
  | some g =>
    match findCluster g cluster with
    | none => .next s
    | some c =>
      let us := ((findQueue s g.queue).map (·.grace)).getD 0
      let limit := (if us = 0 then 50 else us) * 1200
      if latheUp s && g.st == .yielding && c.resident && decide (limit ≤ c.grace) && clusterLive s g cluster then
        .next (stopCluster s grid cluster 1)
      else .next s

/-! ## Yields and resumes (R309, R436, R441) -/

/-- The Lathe acts on a REQ (R436): one of value `v` takes its effect where the state lets it. Whatever REQ holds, it is cleared where
it does not apply: a value that is none of the three also. -/
def actOnReq (grid v : Nat) (s : State) (f : Grid → State) : Out :=
  match findGrid s grid with
  | none => .next s
  | some g =>
    let r := reqOf s g
    if !latheUp s then .next s
    else if r = v then .next (clearReq (f g) g)
    else if 3 < r then .next (clearReq s g)
    else .next s

/-- REQ_YIELD (R436): REQ 1 applies to a running grid. -/
def execReqYield (grid : Nat) (s : State) : Out :=
  actOnReq grid 1 s fun g => if g.st = .running then signalYield s grid none else s

/-- GRID_YIELDED (R309 steps 3 and 4, R436). -/
def execGridYielded (grid : Nat) (s : State) : Out :=
  match findGrid s grid with
  | none => .next s
  | some g =>
    let ts := gridTeams s grid
    let done := fun (t : Team) => match t.st with
      | .retired | .yieldExited | .waiting => true
      | .out => t.graceOut
      | _ => false
    if !latheUp s ∨ g.st ≠ .yielding ∨ !ts.all done ∨ ts.all (fun t => t.st == .retired) then .next s
    else
      let s := if g.mode ≠ 0 then s
        else
          let r := g.returned.take 16
          let s := (r.mapIdx fun i e => (i, e)).foldl (fun s e =>
            devSet s .abuf (rootDie s) g.tenant (g.area.toNat + 16 * e.1) (natBytes e.2.1 8 ++ natBytes e.2.2 4 ++ zeros 4)) s
          setLr s g 0x58 (natBytes r.length 4)
      let s := setLr s g 0x48 (natBytes g.next 8)
      let s := setLr (updGrid s grid fun g => { g with nyield := g.nyield + 1 }) g 0xA8 (natBytes (g.nyield + 1) 4)
      let swapped := (g.clusters.filter fun c => (teamsOf s g c.cl).any fun t => t.st == .out).length
      .next (decisionOf (gridTo s grid .yielded) g 4 (if g.yieldedFor.isSome then 1 else 0) swapped)

/-- A yielded grid resumes (R441). -/
def resumeGrid (s : State) (grid : Nat) : State :=
  let again := fun (t : Team) => match t.st with
    | .yieldExited => { t with st := .waiting, graceOut := false }
    | _ => { t with graceOut := false }
  let s := { s with teams := updWhere (fun t => t.grid == grid) again s.teams }
  let s := updGrid s grid fun g =>
    let g : Grid := { g with yieldedFor := none, parts := g.parts.map fun (p : Part) => { p with settled := true } }
    if g.mode = 0 then g.admitGrants else g
  placeAll (gridTo s grid .running) grid

/-- REQ_RESUME (R436). -/
def execReqResume (grid : Nat) (s : State) : Out :=
  actOnReq grid 3 s fun g => if g.st = .yielded then resumeGrid s grid else s

/-- GRID_RESUME (R439, R441): the grid that it yielded for has ended or yielded. -/
def execGridResume (grid : Nat) (s : State) : Out :=
  match findGrid s grid with
  | none => .next s
  | some g =>
    let isOver := match g.yieldedFor with
      | none => false
      | some k => ((findGrid s k).map fun x => x.ended || x.st == .yielded).getD true
    if latheUp s && g.st == .yielded && isOver then .next (resumeGrid s grid) else .next s

/-! ## Retirement and completion (R39, R437) -/

/-- Is a team bound to a lost die? -/
def teamLost (s : State) (g : Grid) (t : Team) : Bool :=
  (((g.parts.find? fun p => p.dix == dixOf g t.vcx t.vcy).bind fun p => findDie s p.die).map (·.lost)).getD false

/-- TEAM_RETIRE (R437). -/
def execTeamRetire (team : Nat) (s : State) : Out :=
  match findTeam s team with
  | none => .next s
  | some t =>
    match findGrid s t.grid with
    | none => .next s
    | some g =>
      if !latheUp s ∨ t.st ≠ .resident ∨ !teamOver t ∨ g.ended ∨ g.st = .aborting ∨ teamLost s g t then .next s
      else
        let s := if g.st = .yielding ∧ t.sawYield then suspendTeam (updTeam s team fun t => { t with st := .yieldExited }) t
          else
            setLr (updGrid (updTeam s team fun t => { t with st := .retired }) t.grid fun g => { g with nret := g.nret + 1 }) g 0xAC
              (natBytes (g.nret + 1) 4)
        let s := dropChuck s t.die t.core
        let c := t.clNo g
        .next (if (teamsOf s g c).any fun u => u.st == .resident then s
          else fillSlice (updCluster s t.grid c fun k => { k with resident := false, stopping := false }) t.die)

/-- The end of a launch: TEND, STATE, the completion barrier object, the decision record, and what it held. -/
def endGrid (s : State) (g : Grid) (st : GridSt) (status type : Nat) : State :=
  let s := setLr s g 0x98 (toBytes s.cycle 8)
  let s := completionBo (gridTo s g.id st) g status
  dropGridTiles (decisionOf s g type 0 0) g.id

/-- GRID_COMPLETE (R39, R436): DIE_LOST where a die that holds parts of the grid is lost. -/
def execGridComplete (grid : Nat) (s : State) : Out :=
  match findGrid s grid with
  | none => .next s
  | some g =>
    let lost := g.parts.any fun p => ((findDie s p.die).map (·.lost)).getD false
    let ts := (gridTeams s grid).filter fun t => !teamLost s g t
    let isOver := ts.all fun t => t.st == .retired && t.spindles.all drained
    let may := g.st == .running || g.st == .yielding || (lost && (g.st == .admitted || g.st == .yielded))
    if !latheUp s ∨ !may ∨ !isOver then .next s
    else
      let s := if lost then setLr s g 1 (natBytes 1 1) else s
      .next (endGrid s g .complete (if lost then 1 else 0) 9)

/-! ## Aborts (R442) -/

/-- REQ_ABORT (R436). -/
def execReqAbort (grid : Nat) (s : State) : Out := actOnReq grid 2 s fun _ => abortGrid s grid

/-- GRID_ABORT (R442 step 1): issue stops in every resident team. -/
def execGridAbort (grid : Nat) (s : State) : Out :=
  match findGrid s grid with
  | none => .next s
  | some g =>
    if latheUp s && g.st == .aborting then .next (g.clusters.foldl (fun s c => stopCluster s grid c.cl 0) s) else .next s

/-- ABORT_DISCARD (R442 steps 2 to 4): every team goes, with its pending traps and parked frames. -/
def execAbortDiscard (grid : Nat) (s : State) : Out :=
  match findGrid s grid with
  | none => .next s
  | some g =>
    let here := (gridTeams s grid).filter fun t => t.st == .resident && !teamLost s g t
    let stopped := g.clusters.all fun c => !c.resident || c.stopping
    if !latheUp s ∨ g.st ≠ .aborting ∨ !stopped ∨ !here.all (fun t => t.spindles.all (spindleDrained s t)) then .next s
    else
      let s := here.foldl (fun s t => dropChuck s t.die t.core) s
      let s := { s with teams := updWhere (fun t => t.grid == grid) (fun t => { t with st := .discarded, spindles := [] }) s.teams }
      let s := updGrid s grid fun g =>
        { g with geysers := [], clusters := g.clusters.map fun c => { c with resident := false, stopping := false } }
      .next (g.diesOf.foldl fillSlice (endGrid s g .aborted 4 10))

/-! ## Link shares (R325, R443) -/

/-- The share of a tenant, 0 for no limit. -/
def shareOf (s : State) (tenant : Nat) : Nat :=
  let xs := (mget s.lathe.shares tenant).toNat ::
    (((s.queues.filter fun q => q.armed && q.tenant == tenant).map (·.share)) ++
     ((s.grids.filter fun g => g.live && g.tenant == tenant).map (·.share)))
  ((xs.filter (· != 0)).foldl (fun b x => match b with | none => some x | some y => some (min x y)) none).getD 0

/-- The share window that a package cycle lies in (R443). -/
def shareWindow (s : State) : Nat := s.cycle.toNat / 120000

/-- Tenants of which a team is resident. -/
def residentTenants (s : State) : List Nat :=
  ((s.grids.filter fun g => (gridTeams s g.id).any fun t => t.st == .resident).map (·.tenant)).dedup

/-- SHARE_WINDOW_END (R325, R443, R445), at a multiple of 120,000 cycles: the count of flits of a tenant whose teams have run in the
window is a free value, that of any other is 0; a tenant above its share is held back for the next window. -/
def execShareWindowEnd (s : State) : Out :=
  if !latheUp s ∨ shareWindow s ≤ s.lathe.window then .next s
  else
    let tenants := s.lathe.active.dedup
    let s := { s with grids := s.grids.map fun g => { g with held := false },
                      lathe := { s.lathe with held := [], window := shareWindow s, active := residentTenants s } }
    .next (tenants.foldl (fun s ten =>
      let n := (Config.freeWord s.freeNo).toNat
      let sh := shareOf s ten
      let isOver := decide (sh ≠ 0 ∧ sh * 1024 < n)
      let mine := fun (g : Grid) => g.live && g.tenant == ten
      let s := { s with freeNo := s.freeNo + 1, grids := updWhere mine (fun g => { g with held := isOver }) s.grids,
                        lathe := { s.lathe with held := if isOver then ten :: s.lathe.held else s.lathe.held } }
      if isOver then (s.grids.filter mine).foldl (fun s g => decisionOf s g 3 0 (n / 1024)) s else s) s)

end Sys2Proof.Machine
end

