-- ==== Sys2Proof/Machine/Host.lean ====
section
/-! DEFINITION. Sys2Proof/Machine/Host.lean: the outside of the package: microcode images (R446-R449), register writes (R7,
R314, R330, R358, R361, R398, R415), BAR0 and BAR2 (R475), the error log and telemetry as read (R485, R486), attestation
(R484), package reset (R17, R18, R483), the loss of a die (R39, R329, R346, R402), released CXL capacity (R477). -/

namespace Sys2Proof.Machine

open Sys2Proof

/-- HCX (R479). -/
def hostUp (s : State) : Bool := s.ready.getLsbD 0

/-! ## Identity (R482) -/

/-- A compute die that came up at the last reset, or is going to. -/
def dieAvailable (s : State) (d : Nat) : Bool :=
  (s.ready ||| s.coming).getLsbD (3 + d) || ((findDie s d).map (·.lost)).getD false

def diesAvailable (s : State) : Nat := ((List.range 8).filter (dieAvailable s)).length

/-- A byte of the identity block: what the spec states, else a free value (log 23). -/
def identityByte (s : State) (i : Nat) : Byte :=
  let stated := natBytes 1 2 ++ natBytes 0 2 ++ natBytes 8160 4
  if i < 8 then stated.getD i 0
  else if 0x10 ≤ i ∧ i < 0x14 then (natBytes (64 * diesAvailable s) 2 ++ natBytes (128 * diesAvailable s) 2).getD (i - 0x10) 0
  else if 0x1E0 ≤ i ∧ i < 0x260 then ((s.meas.getD ((i - 0x1E0) / 32) []).getD ((i - 0x1E0) % 32) 0)
  else if 0x260 ≤ i then 0
  else Config.identity i

/-- The microcode version floor (R447, R482). -/
def microcodeFloor (s : State) : Nat := ofBytesNat ((List.range 4).map fun i => identityByte s (0x5C + i))

/-! ## Microcode (R446-R449) -/

/-- Why an image is refused, 0 where it passes (R448): its header and code. -/
def refuseImage (s : State) (h : List Byte) (code : List Byte) : Nat :=
  let len := fieldAt h 8 4
  let zero := fun (o n : Nat) => ((h.drop o).take n).all (· == 0)
  if fieldAt h 0 4 ≠ 1 ∨ len % 4 ≠ 0 ∨ len < 4 ∨ 262144 < len ∨ !zero 0x10 16 ∨ !zero 0x1C0 64 ∨ code.length ≠ len then 1
  else if sha256 code ≠ (h.drop 0x20).take 32 then 2
  else if !Config.rsaVerify (h.take 0x1C0) then 3
  else if fieldAt h 4 4 < microcodeFloor s then 4
  else 0

/-- LUCMD_LOAD (R448): LUSTAT becomes 1; the image at LUCA is to be copied and checked. A write while LUSTAT is 1 does nothing. -/
def execLucmdLoad (s : State) : Out :=
  let l := s.lathe
  if !latheUp s ∨ bitsOf l.lustat 0 2 = 1 then .next s
  else .next { s with lathe := { l with lustat := 1, loading := some l.luca } }

/-- The Lathe has copied an image, which it reads in the tables of tenant 0, and checks it (R446, R448): the running microcode goes on
where it is refused. -/
def checkMicrocode (s : State) : State :=
  match s.lathe.loading with
  | none => s
  | some luca =>
    let h := (devGet s (rootDie s) 0 luca.toNat 512).getD []
    let code := (devGet s (rootDie s) 0 (luca.toNat + 512) (fieldAt h 8 4 % 2 ^ 19)).getD []
    let r := refuseImage s h code
    let l := { s.lathe with loading := none }
    if !latheUp s then s
    else if r ≠ 0 then { s with lathe := { l with lustat := BitVec.ofNat 32 (3 + r * 256) } }
    else
      let u : Microcode := { version := BitVec.ofNat 32 (fieldAt h 4 4), entry := fieldAt h 12 4, code := code }
      measure { s with lathe := { l with ucode := some u } } 2 code

/-- MICROCODE_SWITCH (R449): the new code runs from its ENTRY; no queue, launch, team or record changes. -/
def execMicrocodeSwitch (s : State) : Out :=
  match s.lathe.ucode with
  | none => .next s
  | some u =>
    if latheUp s then
      .next { s with lathe := { s.lathe with lustat := 2, luver := u.version, ucode := none, running := some u } }
    else .next s

/-! ## Register writes (R7) -/

/-- A write of a Lathe register (R415, Table 15-1). -/
def writeLathe (s : State) (off : Nat) (v : BitVec 64) : State :=
  let pa := v.toNat
  if off = 0x000 then
    if pa % 4096 = 0 ∧ paKind pa = 0 ∧ (paFault s pa).isNone ∧ pa < 2 ^ 52 then { s with lathe := { s.lathe with lqtb := v } } else s
  else if off = 0x008 then
    let us := bitsOf v 0 32
    if 100 ≤ us ∧ us ≤ 100000 then { s with lathe := { s.lathe with lslice := BitVec.ofNat 32 us } } else s
  else if off = 0x010 then
    if pa % 4096 = 0 ∧ pa < 2 ^ 56 then { s with lathe := { s.lathe with luca := v } } else s
  else if off = 0x018 then (if v.getLsbD 0 then outState s (execLucmdLoad s) else s)
  else s

/-- A write of an expert configuration register: ignored while the ERT holds an entry that is not absent (R314). DESIGN
CHOICE: a value outside its range or alignment is stored as written (log 104). -/
def writeEx (s : State) (die : Nat) (f : Die → Die) : State :=
  updDie s die fun d => if d.ert.any fun x => x.state != 0 then d else f d

/-- The RW fields of a window table entry other than KIND (Table 12-1). -/
def writeWin (s : State) (w : Nat) (v : BitVec 512) : State :=
  if 256 ≤ w then s
  else
    putWin s { getWin s w with
      spill := v.extractLsb' 320 64, bo := v.extractLsb' 256 64, mstr := v.extractLsb' 192 64, dst := v.extractLsb' 128 64,
      span := bitsOf v 96 32, ch := bitsOf v 64 32, tenant := bitsOf v 48 16, m := bitsOf v 40 8, func := bitsOf v 34 2,
      otype := bitsOf v 32 2, itype := bitsOf v 30 2 }

/-- A WBIND write: reserved fields stay zero (Table 13-3). -/
def writeWbind (s : State) (w : Nat) (v : BitVec 64) : State :=
  if 256 ≤ w then s else putWin s { getWin s w with wbind := v &&& 0x00000FFFCF1F0FFF }

/-- A group table write: ignored while an instance of the group is unfinished (R361, Table 13-4). -/
def writeGrp (s : State) (g : Nat) (v : BitVec 512) : State :=
  if 4096 ≤ g ∨ s.insts.any (fun i => i.group == g && (i.state == 1 || i.state == 2)) then s
  else
    let old := s.grps.find? fun y => y.g == g
    let y : Grp := { g := g, peers := v.extractLsb' 192 64, rankl := v.extractLsb' 128 64, timeout := bitsOf v 108 20,
                     keyb := bitsOf v 96 12, q := bitsOf v 84 12, mloc := bitsOf v 74 10, p := bitsOf v 61 13, m := bitsOf v 44 17,
                     tenant := bitsOf v 32 12, rbase := bitsOf v 16 16, valid := v.getLsbD 0, nextK := (old.map (·.nextK)).getD [] }
    { s with grps := if old.isSome then updWhere (fun z => z.g == g) (fun _ => y) s.grps else s.grps ++ [y] }

/-- The key that an owner's slot holds. -/
def keyOf (s : State) (owner : Nat) : Option (BitVec 512) := (s.keys.find? fun e => e.1 == owner).map (·.2)

/-- A key slot is loaded (R398): lines written under another key of the owner no longer read as they were written, and those written
under this key, which the slot held before, do so again. -/
def writeKey (s : State) (owner : Nat) (k : BitVec 512) : State :=
  if 4096 ≤ owner ∨ keyOf s owner = some k then s
  else
    let gone := 4096 + s.nextId
    let back := (s.oldKeys.find? fun e => e.1 == owner && e.2.1 == k).map (·.2.2)
    let now := fun (o : Nat) => if o = owner then gone else if back = some o then owner else o
    { s with keys := (owner, k) :: s.keys.filter (fun e => e.1 != owner), nextId := s.nextId + 1,
             oldKeys := (match keyOf s owner with | some j => [(owner, j, gone)] | none => []) ++
               s.oldKeys.filter (fun e => !(e.1 == owner && e.2.1 == k)),
             lineOwner := s.lineOwner.map fun e => (e.1, e.2.1, now e.2.2) }

/-- CTRL.REQ of the attestation mailbox (R484). -/
def reqSet (s : State) : Bool := (mget s.mailbox 0x8020).getLsbD 0

/-- The host sets REQ: the request is taken, with the nonce as it is (R484); one made while REQ is set is ignored. -/
def takeRequest (s : State) : State :=
  if reqSet s then s else { s with mailbox := mset s.mailbox 0x8020 1, attest := mgetList s.mailbox 0x8000 32 }

/-- Eight bytes written in a mailbox of BAR0: NONCE of the attestation mailbox, its CTRL, and the host complex's mailbox. -/
def writeMailbox (s : State) (off : Nat) (v : BitVec 64) : State :=
  if off = 0x8020 then (if v.getLsbD 0 ∧ hostUp s then takeRequest s else s)
  else
  let nonce := decide (0x8000 ≤ off ∧ off + 8 ≤ 0x8020)
  let hc := decide (0x100000 ≤ off ∧ off + 8 ≤ 0x200000)
  if nonce ∨ hc then { s with mailbox := msetList s.mailbox off (toBytes v 8) } else s

/-- A byte of flash, as the drive holds it; 0 is not listed. -/
def writeFlash (s : State) (iod nsid off : Nat) (b : Byte) : State :=
  let rest := s.flash.filter fun (e : Nat × Nat × Nat × Byte) => !(e.1 == iod && e.2.1 == nsid && e.2.2.1 == off)
  { s with flash := if b = 0 then rest else (iod, nsid, off, b) :: rest }

/-- The host complex maps a granule of a function's BAR2, where bit 0 is set, or unmaps it (R475; log 123). -/
def writeBar2 (s : State) (fn granule : Nat) (v : BitVec 64) : State :=
  if 2 ≤ fn ∨ 131072 ≤ granule then s
  else
    let rest := s.bar2.filter fun e => e.1 != (fn, granule)
    { s with bar2 := if v.getLsbD 0 then ((fn, granule), v.toNat / 2 ^ 19 * 2 ^ 19) :: rest else rest }

/-- The host complex unmaps a range of CXL capacity, which ends its poison (R477). -/
def unmapCapacity (s : State) (addr len : Nat) : State :=
  { s with poison := s.poison.flatMap fun e =>
      ([(e.1, min (e.1 + e.2) addr - e.1), (max e.1 (addr + len), e.1 + e.2 - max e.1 (addr + len))].filter fun r => r.2 != 0) }

/-- REGISTER_WRITE (R7, R8): registers that have no row of their own. Out-of-range EX values: log 104. -/
def execRegisterWrite (r : HostReg) (value : BitVec 512) (s : State) : Out :=
  let v64 : BitVec 64 := value.setWidth 64
  match r with
  | .dieReg die num => .next (writeDieReg s die num v64)
  | .exdir die => .next (writeEx s die fun d => { d with exdir := v64 })
  | .exslb die => .next (writeEx s die fun d => { d with exslb := v64 })
  | .exsls die => .next (writeEx s die fun d => { d with exsls := value.setWidth 32 })
  | .exns die => .next (writeEx s die fun d => { d with exns := bitsOf value 0 9 })
  | .exown die => .next (writeEx s die fun d => { d with exown := bitsOf value 0 12 })
  | .window w => .next (writeWin s w value)
  | .wbind w => .next (writeWbind s w v64)
  | .group g => .next (writeGrp s g value)
  | .saveBase => .next (if v64.toNat % 2 ^ 21 = 0 then { s with saveBase := v64 } else s)
  | .lathe off => .next (writeLathe s off v64)
  | .keySlot owner => .next (writeKey s owner value)
  | .mailbox off => .next (writeMailbox s off v64)
  | .flash iod nsid off => .next (writeFlash s iod nsid off (value.setWidth 8))
  | .bar2 fn granule => .next (writeBar2 s fn granule v64)
  | .capacity addr len => .next (unmapCapacity s addr len)

/-! ## BAR0 as the host reads it (R475) -/

/-- The 32 bytes of an error-log entry (R485). -/
def errBytes (e : ErrEnt) : List Byte :=
  toBytes e.cycle 8 ++ natBytes e.cls 1 ++ natBytes e.die 1 ++ natBytes e.core 2 ++ toBytes e.detail 4 ++ toBytes e.line 8 ++ zeros 8

/-- A byte of the error log region (R485): the count, then the last 256 entries. -/
def errLogByte (s : State) (o : Nat) : Byte :=
  if o < 8 then (natBytes s.errCount 8).getD o 0
  else if o < 0x40 ∨ 0x2040 ≤ o then 0
  else
    let n := (o - 0x40) / 32
    match (List.range s.errLog.length).reverse.find? fun i => i % 256 == n with
    | none => 0
    | some i => ((s.errLog[i]?).map fun e => (errBytes e).getD ((o - 0x40) % 32) 0).getD 0

/-- The Lathe's registers as they are read (Table 15-1). -/
def readLathe (s : State) (off : Nat) : BitVec 64 :=
  let l := s.lathe
  if off = 0x000 then l.lqtb else if off = 0x008 then l.lslice.setWidth 64 else if off = 0x010 then l.luca
  else if off = 0x020 then l.lustat.setWidth 64 else if off = 0x028 then l.luver.setWidth 64 else 0

/-- A byte of BAR0 (Table 19-2). -/
def bar0Byte (s : State) (o : Nat) : Byte :=
  if o < 0x1000 then identityByte s o
  else if 0x1000 ≤ o ∧ o < 0x1008 then byteAt s.ready (o - 0x1000)
  else if 0x2000 ≤ o ∧ o < 0x5000 then errLogByte s (o - 0x2000)
  else if 0x5000 ≤ o ∧ o < 0x6000 then mget s.telemetry (o - 0x5000)
  else if 0x8000 ≤ o ∧ o < 0x9000 then mget s.mailbox o
  else if 0x10000 ≤ o ∧ o < 0x20000 then byteAt (readLathe s ((o - 0x10000) / 8 * 8)) ((o - 0x10000) % 8)
  else if 0x100000 ≤ o ∧ o < 0x200000 then mget s.mailbox o
  else 0

/-! ## Attestation (R484) -/

/-- Report bytes +0x000 to +0x107 for a nonce. -/
def reportHead (s : State) (nonce : List Byte) : List Byte :=
  natBytes 1 4 ++ zeros 4 ++ nonce ++ (List.range 96).map (identityByte s) ++ (List.range 128).map fun i => identityByte s (0x1E0 + i)

/-- ATTESTATION_REQUEST (R484): the host sets REQ, if it has not yet; the device writes the report and clears REQ. -/
def execAttestationRequest (s : State) : Out :=
  if !hostUp s then .next s
  else
    let s := takeRequest s
    let head := reportHead s s.attest
    let report := head ++ padTo 384 (Config.sign head)
    .next { s with mailbox := mset (msetList s.mailbox 0x8100 report) 0x8020 0, attest := [] }

/-! ## BAR2 (R475) -/

/-- The places of a range of a function's BAR2: each granule's own mapping (R475); none where one is not mapped or fails its check. -/
def bar2Range (s : State) (fn : Nat) (k : AKind) (off n : Nat) : Option (List DLoc) :=
  let piece := fun (g : Nat × Nat) => (s.bar2.find? fun e => e.1 == (fn, g.1 / 2 ^ 19)).bind fun e =>
    match devPiece s (rootDie s) 0 k (e.2 + g.1 % 2 ^ 19) g.2 with
    | .ok p => some p
    | .error _ => none
  if 2 ^ 36 < off + n then none else (granules off n).mapM piece

/-- HOST_BAR2_ACCESS (R332, R475): a read or a write through a function's BAR2, or Unsupported Request, which an AtomicOp always
receives (R2, R474). The I/O die's port has to be up. -/
def execHostBar2Access (addr len : Nat) (req : HostReq) (s : State) : Out :=
  let fn := addr / 2 ^ 36
  let off := addr % 2 ^ 36
  if 2 ≤ fn ∨ !s.ready.getLsbD (11 + fn) then .next s
  else
    match req with
    | .atomicOp => .next { s with hostResp := some none }
    | .read =>
      match bar2Range s fn .load off len with
      | some ps => .next { s with hostResp := some (if devBad s ps then none else some (devRead s ps)) }
      | none => .next { s with hostResp := some none }
    | .write bs =>
      match bar2Range s fn .store off bs.length with
      | some ps => .next { devPut (.dma fn) ps bs s with hostResp := some (some []) }
      | none => .next { s with hostResp := some none }

/-! ## CXL capacity (R477) -/

/-- DYNAMIC_CAPACITY_RELEASE (R477): the range reads as poison. -/
def execDynamicCapacityRelease (addr len : Nat) (s : State) : Out :=
  if paKind addr = 1 ∧ len ≠ 0 then .next { s with poison := s.poison ++ [(addr, len)] } else .next s

/-! ## The loss of a die (R39, R329, R346, R402) -/

/-- A line homed on a live die whose owner token was lost has bad ECC (R402). -/
def spoilLine (s : State) (die line : Nat) : State :=
  if paDie line = die then s
  else { s with badSec := s.badSec ++ ((List.range 8).map fun i => line + 32 * i).filter fun x => !s.badSec.contains x }

/-- The requester and destination of a message between holders. -/
def msgEnds : MsgBody → List Holder
  | .trs _ r d | .trx _ r d => [r, d]
  | .tok _ d _ _ _ => [d]
  | .preq _ _ r => [r]
  | .pact _ r d _ => [r, d]
  | .pdeact d _ _ => [d]
  | _ => []

/-- Line of a message between holders. -/
def msgLine : MsgBody → Option Nat
  | .trs l _ _ | .trx l _ _ | .tok l _ _ _ _ | .wbk l _ _ _ | .preq l _ _ | .pact l _ _ _ | .pdone l _ | .pdeact _ l _ => some l
  | .arrive _ _ _ _ _ _ _ => none

/-- The token protocol without a die: what it held is regenerated by the homes, and its own lines are gone (R402). -/
def dropHolder (s : State) (die : Nat) : State :=
  let h := Holder.l2 die
  let home := fun (l : Nat) => isHbm l && paDie l == die
  let dead := fun (m : Msg) => (msgEnds m.body).contains h || ((msgLine m.body).map home).getD false
  let lines := ((s.toks.filter fun x => x.h == h && x.owner).map (·.line)) ++
    ((s.msgs.filter dead).filterMap fun m => match m.body with | .tok l _ _ true _ => some l | _ => none)
  let s := lines.foldl (fun s l => spoilLine s die l) s
  { s with toks := s.toks.filter (fun x => !(x.h == h || home x.line)), msgs := s.msgs.filter (fun m => !dead m),
           reqs := s.reqs.filter (fun r => !(r.h == h || home r.line)),
           preqs := s.preqs.filter (fun p => !(p.die == die || p.req == h)),
           acts := s.acts.filter (fun a => !(a.1 == h || a.2.2.1 == h || home a.2.1)),
           deacts := s.deacts.filter (fun a => !(a.1 == h || home a.2.1)) }

/-- Does a range of a tenant reach memory of a lost die? -/
def rangeLost (s : State) (tenant va n : Nat) : Bool :=
  match devRange s (rootDie s) tenant .store va n with
  | .error (0x0D, _) => true
  | _ => false

/-- Is a local rank bound to a lost die? -/
def rankLost (s : State) (g : Grp) (i : Nat) : Bool :=
  match rankEntry s g i with
  | none => false
  | some (lr, x, y) => s.grids.any fun gr => gr.lr == lr && !gr.ended &&
      gr.parts.any fun p => p.dix == dixOf gr x y && ((findDie s p.die).map (·.lost)).getD false

/-- Does a window lose a rank of its group, or does its result reach lost memory (R346)? -/
def winLost (s : State) (x : Win) : Bool :=
  let n := x.span / tyBytes x.itype * tyBytes x.otype
  if ((findGrp s x.wgroup).map fun g => (List.range g.mloc).any (rankLost s g)).getD false then true
  else if x.kind = 1 then (List.range (winMembers s x)).any fun m => rangeLost s x.ten (x.dst.toNat + m * x.mstr.toNat) n
  else if x.kind = 2 then rangeLost s x.ten x.dst.toNat n
  else rangeLost s x.ten x.dst.toNat (n * x.m)

/-- An unfinished instance loses a rank or a destination: status 1 to the members that are left (R346). -/
def instLoss (s : State) (i : Inst) : State :=
  match findGrp s i.group with
  | none => s
  | some g =>
    let gone := fun (m : Member) => rankLost s g (m.rank - g.rbase)
    if (i.state = 1 ∨ i.state = 2) ∧ ((List.range g.mloc).any (rankLost s g) ∨
        i.members.any fun m => rangeLost s m.tenant m.blk.dst.toNat (destSpan g m)) then
      let s := landSome s (.inst i.group i.k)
      let s := (i.members.filter fun m => !gone m).foldl (fun s m => memberPost s i m 0 1) s
      updInst (endOwner s (.inst i.group i.k) false) i.group i.k fun i => { i with state := 5, reason := 0 }
    else s

/-- A die is marked lost (R39, R329, R402, R479): its READY bit clears in the same update. -/
def loseDie (s : State) (die : Nat) : State :=
  if !dieUp s die then s
  else
    let s : State := { s with ready := s.ready &&& ~~~((1 : BitVec 64) <<< (3 + die)) }
    let s : State := updDie s die fun d =>
      { d with lost := true, ert := [], waitQ := [], merges := [], walks := [], trapQ := [], sliceNext := [] }
    let out := fun (t : Team) => if t.fw then { t with st := .discarded } else { t with st := .out, graceOut := true }
    let s : State := { s with
      teams := updWhere (fun (t : Team) => t.die == die && t.st == .resident) out s.teams,
      grids := s.grids.map fun g => { g with
        clusters := updWhere (fun c => c.die == die) (fun c => { c with resident := false, stopping := false }) g.clusters,
        geysers := updWhere (fun y => y.die == die) (fun y => { y with req := false }) g.geysers },
      l1 := s.l1.filter (fun x => x.die != die), l1c := s.l1c.filter (fun x => x.die != die),
      icache := s.icache.filter (fun x => x.die != die), tlb := s.tlb.filter (fun x => x.die != die),
      arrays := s.arrays.filter (fun x => x.die != die), matReqs := s.matReqs.filter (fun x => x.die != die) }
    let s := (s.grids.filter fun (g : Grid) => !g.ended && g.parts.any fun p => p.die == die).foldl (fun s g => dropRefs s g.id) s
    let s := dropHolder s die
    let s := (s.wins.filter fun x => x.kind != 0 && winLost s x).foldl (fun s x => winEnd (landSome s (.window x.w)) x.w 1) s
    s.insts.foldl instLoss s

/-- DIE_LOST (R39, R329, R402, R479). -/
def execDieLost (die : Nat) (s : State) : Out := .next (loseDie s die)

/-! ## Telemetry (R45, R486) -/

/-- A measured value of a refresh (log 24). -/
def measured (n field : Nat) : Word := Config.telemetry n field

/-- Is the Caldera (0) or an I/O die (1, 2) in use? -/
def otherUp (s : State) (k : Nat) : Bool := if k = 0 then caldUp s else s.ready.getLsbD (10 + k)

/-- The power of a component as telemetry reports it: a compute die (0 to 7), a stack (8 to 23), the Caldera and the I/O dies (24 to
26); 0 where its die is unavailable or lost. -/
def powerOf (s : State) (n i : Nat) : Word :=
  if (if i < 8 then dieUp s i else if i < 24 then dieUp s ((i - 8) / 2) else otherUp s (i - 24)) then measured n i else 0

/-- Is a limit of R45 reached that is not one compute die's own: the Caldera's, an I/O die's, or the package's, which the
measured components and the share of its regulation add up to (log 98)? Then every compute die slows down. -/
def packageHot (s : State) (n : Nat) : Bool :=
  let power := fun (i : Nat) => (powerOf s n i).toNat
  decide (250000 ≤ power 24) || decide (80000 ≤ power 25) || decide (80000 ≤ power 26) ||
  decide (4200000 ≤ ((List.range 27).map power).sum + 190000)

/-- Throttling and shutdown of one compute die from its measured power, those of its stacks, and its temperature. -/
def limitDie (n : Nat) (hot2 : Bool) (s : State) (die : Nat) : State :=
  let power := (measured n die).toNat
  let hot := signedOf 16 (measured n (27 + die)).toNat
  let s := updDie s die fun d =>
    let limit := decide (380000 ≤ power ∨ 35000 ≤ (measured n (8 + 2 * die)).toNat ∨ 35000 ≤ (measured n (9 + 2 * die)).toNat ∨ 950 ≤ hot ∨ hot2)
    { d with power := power, temp := (measured n (27 + die)).toNat % 2 ^ 16, clock := if limit ∧ 600 < d.clock then d.clock - 100 else d.clock }
  if 1050 ≤ hot ∧ dieUp s die then loseDie (logError s 5 die 0xFFFF (BitVec.ofInt 32 hot) 0) die else s

/-- The Caldera or an I/O die at its shutdown temperature loses its READY bits. -/
def limitOther (n : Nat) (s : State) (e : Nat × BitVec 64) : State :=
  let hot := signedOf 16 (measured n (27 + e.1)).toNat
  if 1050 ≤ hot ∧ s.ready &&& e.2 ≠ 0 then
    { logError s 5 e.1 0xFFFF (BitVec.ofInt 32 hot) 0 with ready := s.ready &&& ~~~e.2 }
  else s

/-- The bytes of the telemetry page (R486). -/
def telemetryPage (n : Nat) (s : State) : List Byte :=
  let up := fun (d : Nat) => dieUp s d
  let die := fun (d : Nat) => (findDie s d).getD default
  toBytes s.cycle 8 ++
  (List.range 8).flatMap (fun d => natBytes (if up d then (die d).clock else 0) 2) ++ zeros 8 ++
  (List.range 27).flatMap (fun i => toBytes (powerOf s n i) 4) ++ zeros 4 ++
  (List.range 8).flatMap (fun d => natBytes (if up d then (measured n (27 + d)).toNat % 2 ^ 16 else 0x7FFF) 2) ++
  (List.range 3).flatMap (fun k => natBytes (if otherUp s k then (measured n (35 + k)).toNat % 2 ^ 16 else 0x7FFF) 2) ++ zeros 2 ++ toBytes s.cycle 8

/-- TELEMETRY_REFRESH (R486), 1 ms after the refresh whose TIME the page holds: limits are checked, then the page is written. -/
def execTelemetryRefresh (s : State) : Out :=
  if s.cycle - ofBytes 64 (mgetList s.telemetry 0 8) < 1200000 then .next s
  else
    let n := s.freeNo
    let s := { s with freeNo := n + 1 }
    let s := ((List.range 8).filter (dieUp s)).foldl (limitDie n (packageHot s n)) s
    let s := [(8, (0x7 : BitVec 64)), (9, 0x800), (10, 0x1000)].foldl (limitOther n) s
    .next { s with telemetry := msetList s.telemetry 0 (telemetryPage n s) }

/-! ## Package reset (R17, R18, R479, R483) -/

/-- Does a core of a die pass its boot test; do a die's L2, links and stacks; does a READY function (log 25)? -/
def corePasses (d core : Nat) : Bool := Config.bootPasses (100 * d + core)
def diePasses (d : Nat) : Bool := Config.bootPasses (100 * d + 90)
def fnPasses (bit : Nat) : Bool := Config.bootPasses (1000 + bit)

/-- The firmware image: the bytes of I/O die 0's flash namespace 1, by offset (R483). -/
def bootImage (s : State) : List (Nat × Byte) :=
  sortBy (·.1) ((s.flash.filter fun e => e.1 == 0 && e.2.1 == 1).map fun e => e.2.2)

/-- The firmware core of a die and the map of its mesh cores to spares (R17). -/
def coreMap (d : Nat) : Nat × List (Nat × Nat) :=
  let good := (List.range 4).filterMap fun i => if corePasses d (64 + i) then some (64 + i) else none
  let bad := (List.range 64).filter fun n => !corePasses d n
  ((good.head?).getD 64, bad.zip good.tail)

/-- A die is available: at least 65 cores and everything else pass (R18). -/
def dieBoots (d : Nat) : Bool := decide (65 ≤ ((List.range 68).filter (corePasses d)).length) && diePasses d

/-- The READY bits of the functions that pass bring-up (R479): none where the firmware image does not verify (R483; log 22). -/
def bootReady (s : State) : BitVec 64 :=
  if !Config.firmwareVerify (bootImage s) then 0
  else ((List.range 16).filter fun b => if 3 ≤ b ∧ b ≤ 10 then dieBoots (b - 3) else fnPasses b).foldl
    (fun r b => r ||| BitVec.twoPow 64 b) 0

/-- A die after a package reset. -/
def bootDie (d : Nat) : Die :=
  let m := coreMap d
  { Die.reset d with
    ftqb := Config.bootField (3 * d), ftqn := (Config.bootField (3 * d + 1)).setWidth 32, trtb := Config.bootField (3 * d + 2),
    fwCore := m.1, spare := m.2, pmap := m.2.foldl (fun (r : BitVec 64) e => r ||| BitVec.twoPow 64 e.1) 0 }

/-- M0 to M2 are extended by the digests of the images that boot loads from the firmware image, whose layout the spec does not give;
M3 is extended by program loads (R483; log 22). -/
def bootMeas (s : State) : List (List Byte) :=
  (List.range 3).map (fun i => sha256 (zeros 32 ++ (List.range 32).map (Config.imageDigest i (bootImage s)))) ++ [zeros 32]

/-- The spindle that a firmware core runs its firmware on. -/
def firmwareSpindle (d turn : Nat) : Spindle :=
  let entv := Config.firmwareEntry d
  { (default : Spindle) with
    allot := 768, gmap := List.range 32, entv := entv, live := 0xFF, gen := msetList [] 0 ((List.range 8).map (genStart 0)), mode := 1,
    frags := [newFrag entv turn], st := .running }

/-- A die's firmware core starts (R19): a team of no launch, which the Lathe places nowhere. DESIGN CHOICE: one spindle of eight
threads, everything else as R435 starts a team (log 122). -/
def startFirmware (s : State) (d : Nat) : State :=
  match findDie s d with
  | none => s
  | some x =>
    let t : Team := { (default : Team) with
      id := s.nextId, grid := s.nextId, die := d, core := x.fwCore, st := .resident, ports := List.replicate 8 newPort,
      bars := List.replicate 16 noBar, spindles := [firmwareSpindle d s.turnNo] }
    { s with teams := s.teams ++ [t], nextId := s.nextId + 1 }

/-- A function passes bring-up: its READY bit is set, and it may be used from now on (R479). A die's firmware starts; the Caldera reads
the KIND writes made so far (R480). -/
def bringUp (s : State) (b : Nat) : State :=
  if !s.coming.getLsbD b then s
  else
    let s := { s with ready := s.ready ||| BitVec.twoPow 64 b, coming := s.coming &&& ~~~(BitVec.twoPow 64 b) }
    let s := if 3 ≤ b ∧ b ≤ 10 then startFirmware s (b - 3) else s
    if b = 2 then s.armQ.foldl (fun s e => outState s (execArmWindow e.1 e.2 s)) { s with armQ := [] } else s

/-- The key slots that the firmware loads: free values; owner 0's is another at every boot (R483; log 79). -/
def bootKeys (s : State) (boot : Nat) : State :=
  let now := fun (o : Nat) => if o = 0 then 4096 + boot else if keyOf s o = some (Config.bootKey boot o) then o else 4096 + boot + o
  { s with keys := (List.range 4096).map fun o => (o, Config.bootKey boot o),
           oldKeys := s.keys.map (fun e => (e.1, e.2, 4096 + boot + e.1)) ++ s.oldKeys,
           lineOwner := s.lineOwner.map fun e => if e.2.2 < 4096 then (e.1, e.2.1, now e.2.2) else e }

/-- PACKAGE_RESET (R483): everything in the package is as after reset; host memory, CXL memory and flash keep their bytes, but what
was written under another key no longer reads as it was written (log 79). The firmware's LQTB is a write of that register, with
its check (R415). Which functions are up at its end is a free choice; the others come up one by one (R479; log 105). -/
def execPackageReset (s : State) : Out :=
  let outside := fun (a : Nat) => paKind a != 0
  let keep := bootKeys s s.nextId
  let r : State := { State.reset with
    turns := s.turns, turnNo := s.turnNo, freeNo := s.freeNo + 1, nextId := s.nextId + 4096, ready := bootReady s,
    mem := s.mem.filter (fun e => outside e.1), lineOwner := keep.lineOwner.filter (fun e => outside e.1),
    badSec := s.badSec.filter outside, flash := s.flash, dies := (List.range 8).map bootDie, meas := bootMeas s,
    keys := keep.keys, oldKeys := keep.oldKeys, lathe := { Lathe.reset with luver := (Config.bootField 25).setWidth 32 } }
  let r := { writeLathe r 0 (Config.bootField 24) with ready := 0, coming := bootReady s }
  .next (((List.range 16).filter fun b => (Config.freeWord s.freeNo).getLsbD b).foldl bringUp r)

end Sys2Proof.Machine
end

