-- ==== Sys2Proof/Machine/Matrix.lean ====
section
/-! DEFINITION. Sys2Proof/Machine/Matrix.lean: the matrix array and the Basin (R278-R304). An MMA's A block is latched at
its grant; its pass starts behind what its flags order before its reads; B is read and the Basin written at its end, while
nothing else acts on its tiles (log 102). -/

namespace Sys2Proof.Machine

open Sys2Proof

/-! ## Fields -/

/-- Table 10-4 and MIN of an MMA. -/
structure MmaD where
  fa : Nat
  fb : Nat
  sc : Bool
  cx : Bool
  pair : Bool
  tile : Nat
  za : Bool
  pitch : Nat
  lac : Nat
  lbc : Nat
  sq : Nat
  sb : Nat
  tb : Nat
  deriving DecidableEq, Repr, Inhabited

def mmaD (w : JWord) (b : BitVec 128) : MmaD :=
  { fa := bitsOf w.min 0 3, fb := bitsOf w.min 3 3, sc := w.min.getLsbD 6, cx := w.min.getLsbD 7, pair := w.mod.getLsbD 16,
    tile := bitsOf w.mod 14 2, za := w.mod.getLsbD 13, pitch := bitsOf b 112 16, lac := bitsOf b 102 2,
    lbc := bitsOf b 100 2, sq := bitsOf b 64 32, sb := bitsOf b 32 32, tb := bitsOf b 0 32 }

/-- Element width in bytes, K, B rows, block lengths, and the promotion block G (R279, R283, R287). -/
def MmaD.w (d : MmaD) : Nat := if d.fa < 3 then 1 else 2
def MmaD.k (d : MmaD) : Nat := if d.fa < 3 then 64 else 32
def MmaD.kb (d : MmaD) : Nat := if d.cx then 16 else d.k
def MmaD.la (d : MmaD) : Nat := 32 * 2 ^ d.lac
def MmaD.lb (d : MmaD) : Nat := 32 * 2 ^ d.lbc
def MmaD.g (d : MmaD) : Nat := if d.sc then min d.la (min d.lb d.k) else 32

/-- The value of an element by its code of Table 10-1. -/
def mmaElem (code x : Nat) : FV :=
  if code = 2 then ofSigned false (signedOf 8 x) 0
  else (if code = 0 then Fmt.e4m3 else if code = 1 then .e5m2 else if code = 3 then .bf16 else .f16).read x

/-- Element (m, k) of the A block, held register by register and thread by thread (R280). -/
def MmaD.aElem (d : MmaD) (a : List Word) (m k : Nat) : FV :=
  if d.w = 1 then mmaElem d.fa (bitsOf (a.getD ((2 * m + k / 32) * 8 + k % 32 / 4) 0) (8 * (k % 4)) 8)
  else mmaElem d.fa (bitsOf (a.getD ((2 * m + k / 16) * 8 + k % 16 / 2) 0) (16 * (k % 2)) 16)

/-- A scale of K-block β, row m (R281). -/
def MmaD.aScale (d : MmaD) (sc : List Word) (m β : Nat) : Nat :=
  (sc.getD ((8 * (β * d.g / min d.la d.k) + m / 8) * 8 + m % 8) 0).toNat

/-- Offsets of element (k, n) and of the scale of K-block β and column n in the scratchpad (R283). -/
def MmaD.bOff (d : MmaD) (k n : Nat) : Nat := d.tb + k * d.pitch + n * d.w
def MmaD.bScaleOff (d : MmaD) (β n : Nat) : Nat := d.sb + β * d.g / min d.lb d.k * d.sq + 4 * (n / 128)

/-! ## Arithmetic (R287-R290) -/

def mulRne (F : Fmt) (a b : Nat) : Nat := (fres rne 0 F (mulV (F.read a) (F.read b))).bits
def roundRne (F : Fmt) (v : FV) : Nat := (conv rne 0 F v).bits

/-- The exact sum of products of a block; a zero is +0 (R288). -/
def exactSum (ps : List (FV × FV)) : FV :=
  let v := ps.foldl (fun acc p => (addV 1 acc (mulV p.1 p.2).1).1) (.fin false 0 0)
  if v.isZero then .fin false 0 0 else v

/-- The exact integer sum of a block of s8 products. -/
def intSum (ps : List (FV × FV)) : Int :=
  (ps.map fun p => match p.1, p.2 with
    | .fin s m _, .fin s' m' _ => signedMag s m * signedMag s' m'
    | _, _ => 0).sum

/-- One output word of a real MMA: its accumulator, A and B elements by k, and scales by β (R287). -/
def mmaWord (d : MmaD) (acc : Nat) (a b : Nat → FV) (sa sb : Nat → Nat) : Nat :=
  (List.range (d.k / d.g)).foldl (fun acc β =>
    let ps := (List.range d.g).map fun i => (a (β * d.g + i), b (β * d.g + i))
    if d.fa = 2 ∧ ¬d.sc then wrapTo 32 (signedOf 32 acc + intSum ps)
    else
      let x := roundRne .f32 (exactSum ps)
      let x := if d.sc then mulRne .f32 (mulRne .f32 x (sa β)) (sb β) else x
      addRne .f32 acc x) acc

/-- The sign of an FP32 pattern changed. -/
def negF32 (x : Nat) : Nat := if 2 ^ 31 ≤ x then x - 2 ^ 31 else x + 2 ^ 31

/-- One complex output: the words of its real and imaginary parts (R290). -/
def mmaComplex (re im : Nat) (a b : Nat → FV × FV) : Nat × Nat :=
  (List.range 16).foldl (fun r q =>
    let mul := fun (x y : FV) => (fres rne 0 .f32 (mulV x y)).bits
    let ar := (a q).1
    let ai := (a q).2
    let br := (b q).1
    let bi := (b q).2
    let minus := mul ai bi
    let pr := addRne .f32 (mul ar br) (if (Fmt.f32.read minus).isNan then minus else negF32 minus)
    let pi := addRne .f32 (mul ar bi) (mul ai br)
    (addRne .f32 r.1 pr, addRne .f32 r.2 pi)) (re, im)

/-- Basin word key. -/
def bKey (tile m n : Nat) : Nat := 16384 * tile + 256 * m + n

/-- The B bytes that output column n of a core's array reads, by row. -/
def bRead (t : Team) (d : MmaD) (k n : Nat) : Nat := ofBytesNat (mgetList t.scratch (d.bOff k n) d.w)

/-- Was bad data used for column n (R298)? -/
def bBad (t : Team) (d : MmaD) (n : Nat) : Bool :=
  if t.badScratch.isEmpty then false
  else (List.range d.kb).any (fun k => scratchBad t (d.bOff k n) d.w) ||
    (d.sc && (List.range (d.k / d.g)).any fun β => scratchBad t (d.bScaleOff β n) 4)

/-- A place of the first sector of bad data that an MMA's B or B scales hold; 0 where only a Basin word is bad. -/
def mmaBadAt (t : Team) (d : MmaD) : Nat :=
  let b := ((grid2 d.kb 256).map fun kn => (d.bOff kn.1 kn.2, d.w)) ++
    (if d.sc then (grid2 (d.k / d.g) 256).map fun kn => (d.bScaleOff kn.1 kn.2, 4) else [])
  match t.badScratch.isEmpty, b.find? fun e => scratchBad t e.1 e.2 with
  | false, some e => e.1
  | _, _ => 0

/-- The tile that one core's array computes from the scratchpad and Basin of a team, with the words that used bad data: in the
complex form a bad byte of B reaches both parts, a bad accumulator word its own (R290, R298). -/
def mmaTile (t : Team) (d : MmaD) (a sc : List Word) : List (Nat × Nat) × List Nat :=
  let acc := fun (m n : Nat) => if d.za then 0 else (mget t.basin (bKey d.tile m n)).toNat
  let badAcc := fun (m n : Nat) => !d.za && t.badBasin.contains (bKey d.tile m n)
  let words :=
    if d.cx then (grid2 64 128).flatMap fun mj =>
      let m := mj.1
      let j := mj.2
      let r := mmaComplex (acc m (2 * j)) (acc m (2 * j + 1)) (fun q => (d.aElem a m (2 * q), d.aElem a m (2 * q + 1)))
        (fun q => (mmaElem d.fb (bRead t d q (2 * j)), mmaElem d.fb (bRead t d q (2 * j + 1))))
      [(bKey d.tile m (2 * j), r.1), (bKey d.tile m (2 * j + 1), r.2)]
    else (grid2 64 256).map fun mn =>
      (bKey d.tile mn.1 mn.2, mmaWord d (acc mn.1 mn.2) (d.aElem a mn.1) (fun k => mmaElem d.fb (bRead t d k mn.2))
        (d.aScale sc mn.1) (fun β => ofBytesNat (mgetList t.scratch (d.bScaleOff β mn.2) 4)))
  let cols := fun (n : Nat) => if d.cx then bBad t d (2 * (n / 2)) || bBad t d (2 * (n / 2) + 1) else bBad t d n
  let bad := if t.badScratch.isEmpty && t.badBasin.isEmpty then []
    else ((grid2 64 256).filter fun mn => cols mn.2 || badAcc mn.1 mn.2).map fun mn => bKey d.tile mn.1 mn.2
  (words, bad)

/-! ## Arrays, tiles, requests -/

def getArr (s : State) (die core : Nat) : MatArr :=
  (s.arrays.find? fun a => a.die == die && a.core == core).getD
    { die := die, core := core, staged := none, chuck := none, running := none, slaved := false }
def setArr (s : State) (a : MatArr) : State :=
  { s with arrays := a :: s.arrays.filter fun b => !(b.die == a.die && b.core == a.core) }

/-- Is a core the follower of its pair (R16)? -/
def isFollower (t : Team) : Bool := t.kix % 2 == 1

/-- The follower team of a leader's. -/
def followerOf (s : State) (t : Team) : Option Team := sibling s t (t.kix + 1)

/-- The team and tiles that a pending matrix instruction acts on: (team, tile) pairs. -/
def tilesOf (s : State) (t : Team) (x : Pend) : List (Nat × Nat) :=
  let fol := ((followerOf s t).map (·.id)).toList
  match x.kind with
  | .mma b _ =>
    let d := mmaD (jUnpack x.word) b
    (t.id, d.tile) :: (if d.pair then fol.map fun f => (f, d.tile) else [])
  | .acc _ _ _ _ tile pair => if pair then fol.map fun f => (f, tile) else [(t.id, tile)]
  | _ => []

/-- Earlier operations of the spindle on the same tile are done (R296). -/
def tileTurn (s : State) (t : Team) (p : Spindle) (x : Pend) : Bool :=
  !(before p x.id).any fun y => y.paths.any (!·.2) && (tilesOf s t y).any fun e => (tilesOf s t x).contains e

/-- A pass is accumulating into one of the tiles (R296). -/
def tileBusy (s : State) (tiles : List (Nat × Nat)) : Bool :=
  s.arrays.any fun a => match a.running with
    | none => false
    | some q => match findTeam s q.sp.team, (findSp s q.sp).bind fun p => p.pend.find? fun x => x.id == q.id with
      | some t, some x => (tilesOf s t x).any tiles.contains
      | _, _ => false

/-! ## MMA -/

/-- Does B, or a B scale, lie beyond the scratchpad (R286 step 4)? -/
def MmaD.outside (d : MmaD) (scratch : Nat) : Option Nat :=
  if scratch < d.tb + (d.kb - 1) * d.pitch + 256 * d.w then some d.tb
  else if d.sc ∧ scratch < d.bScaleOff (d.k / d.g - 1) 128 + 4 then some d.sb
  else none

/-- A spindle whose hold has been released has nothing in a chuck (R60, R292). -/
def freeChucks (s : State) (sp : SpRef) : State :=
  { s with arrays := updWhere (fun a => a.chuck.any fun e => e.1 == sp) (fun a => { a with chuck := none }) s.arrays }

/-- MMA (R284-R286, R291): checked, then posted to its cluster's reservation table. DESIGN CHOICE: ADDR of the trap of SQ, which
is a distance and no address, is that of SB (log 114). -/
def execMma (w : JWord) (s : State) : Out :=
  issue (.mma w) { memory := true, whole := 1 } s fun x =>
    let b := x.src w.b 4 false 0
    let d := mmaD w b
    let cluster := x.t.core / 16 * 4 + x.t.core % 8 / 2
    if d.pair ∧ isFollower x.t then x.trapT 0x05 6
    else if !([256, 512, 768, 1024].contains d.pitch) || decide (d.pitch < 256 * d.w) || (d.sc && (d.lac == 3 || d.lbc == 3)) then
      x.trapT 0x02 1
    else if d.tb % 256 ≠ 0 ∨ 2 ^ 19 ≤ d.tb then x.trap { cause := 3, tmask := x.tp, addr := ownAddr d.tb }
    else if d.sc ∧ d.sb % 32 ≠ 0 then x.trap { cause := 3, tmask := x.tp, addr := ownAddr d.sb }
    else if d.sc ∧ d.sq % 32 ≠ 0 then x.trap { cause := 3, tmask := x.tp, addr := ownAddr d.sb }
    else
      match d.outside (teamScratch x.s x.t) with
      | some o => x.trap { cause := 5, reason := 4, tmask := x.tp, addr := ownAddr o }
      | none =>
        if x.ctrStops [5] then x.stall 0x40
        else if 8 ≤ (x.s.matReqs.filter fun q => q.die == x.t.die && q.cluster == cluster).length then x.stall 0x43
        else
          let (id, s) := fresh x.s
          let q : MatReq := { die := x.t.die, cluster := cluster, sp := x.r.sp, id := id, core := x.t.core, pair := d.pair, cls := x.p.cls, seq := id, granted := false }
          let s := if x.p.held.isNone then freeChucks s x.r.sp else s
          let x := { x with s := { s with matReqs := s.matReqs ++ [q] } }
          x.next (addPend (x.pend id (.mma b x.p.cls) false none none [5] []))

/-- Cores whose arrays a request names. -/
def MatReq.cores (q : MatReq) : List Nat := if q.pair then [q.core, q.core + 1] else [q.core]

/-- Key order of R293: higher class, earlier posting, lower core. -/
def reqBefore (a b : MatReq) : Bool :=
  decide (b.cls < a.cls) || (a.cls == b.cls && (decide (a.seq < b.seq) || (a.seq == b.seq && decide (a.core ≤ b.core))))

/-- Is a request grantable (R293, R294)? -/
def grantable (s : State) (q : MatReq) : Bool :=
  q.cores.all fun c => let a := getArr s q.die c; a.staged.isNone && !a.slaved

/-- The first request in key order that is grantable and whose arrays no earlier one withholds. -/
def pickGrant (s : State) : List MatReq → List Nat → Option MatReq
  | [], _ => none
  | q :: rest, held =>
    if q.cores.any held.contains then pickGrant s rest (held ++ q.cores)
    else if grantable s q then some q
    else pickGrant s rest (held ++ q.cores)

/-- The A block and the scales of an MMA: first register and number of each (R280, R281). -/
def MmaA (x : Pend) : (Nat × Nat) × (Nat × Nat) :=
  let w := jUnpack x.word
  let first := fun (fld : BitVec 10) => match opnd fld with | .v r => r | _ => 0
  let nsc := match x.kind with | .mma b _ => if bitsOf b 102 2 = 0 then 16 else 8 | _ => 8
  ((first w.a, aBlockRegs), (first (jC17 w), if w.min.getLsbD 6 then nsc else 0))

/-- The words of n registers from one on, register by register and thread by thread. -/
def regWords (p : Spindle) (r : Nat × Nat) : List Word :=
  (List.range r.2).flatMap fun i => (List.range 8).map fun t => vget p (r.1 + i) t

/-- Has an element of those registers an uncorrectable error (R286)? -/
def regsBad (p : Spindle) (r : Nat × Nat) : Bool := p.badV.any fun k => decide (8 * r.1 ≤ k ∧ k < 8 * (r.1 + r.2))

/-- MMA_GRANT (R291 steps 3 to 5, R293, R294): the A block and scales are read and staged; the MMA is complete. A register of
them with an uncorrectable error raises trap 0x0D at the MMA, which leaves no request (R286). -/
def execMmaGrant (die cluster : Nat) (s : State) : Out :=
  let qs := (s.matReqs.filter fun q => q.die == die && q.cluster == cluster && !q.granted).mergeSort reqBefore
  match pickGrant s qs [] with
  | none => .next s
  | some q =>
    match findTeam s q.sp.team, findSp s q.sp with
    | some t, some p =>
      match p.pend.find? fun x => x.id == q.id with
      | none => .next s
      | some x =>
        let r := MmaA x
        if regsBad p r.1 ∨ regsBad p r.2 then
          let s := { s with matReqs := s.matReqs.filter fun y => y.id != q.id }
          .next (pendTrap s q.sp t p x { cause := 0x0D, reason := 1, tmask := x.tmask })
        else
          let ps : Pass := { sp := q.sp, id := q.id, aRows := regWords p r.1, sRows := regWords p r.2 }
          let s := { s with matReqs := updWhere (fun y => y.id == q.id) (fun y => { y with granted := true }) s.matReqs }
          let s := q.cores.foldl (fun s c =>
            setArr s { getArr s die c with staged := some ps, slaved := q.pair && c != q.core }) s
          let f := fun (y : Pend) => { y with complete := true }
          .next (updSp s q.sp fun p => settle { p with pend := updWhere (fun y => y.id == q.id) f p.pend })
    | _, _ => .next s

/-- The teams whose arrays a pass uses: the issuer's, and its follower's in the pair form. -/
def passTeams (s : State) (t : Team) (pair : Bool) : List Team := if pair then t :: (followerOf s t).toList else [t]

/-- The scratchpad bytes that a pass reads on a team's core: from the first to the last byte of B, and of its scales. -/
def MmaD.reads (d : MmaD) (u : Team) : List Acc :=
  let one := fun (off n : Nat) => ({ thread := 0, ea := ownAddr off, n := n, part := 0, loc := .scratch u.id off, val := 0, val2 := 0 } : Acc)
  one d.tb ((d.kb - 1) * d.pitch + 256 * d.w) ::
    (if d.sc then [one d.sb (d.bScaleOff (d.k / d.g - 1) 128 + 4 - d.sb)] else [])

/-- MMA_PASS_START (R291 step 6, R292, R296, R298): the pass starts once its arrays are free, the earlier operations on its
tiles are done, its flags are served and no store stands before its reads (R233). -/
def execMmaPassStart (die core : Nat) (s : State) : Out :=
  match (getArr s die core).staged with
  | none => .next s
  | some q =>
    match findPend s q.sp q.id with
    | none => .next s
    | some (t, p, x) =>
      match x.kind with
      | .mma b _ =>
        let w := jUnpack x.word
        let d := mmaD w b
        let ts := passTeams s t d.pair
        let free := ts.all fun u => (getArr s die u.core).running.isNone
        let behind := pendMeets (fencedFor s q.sp (before p x.id)) (ts.flatMap d.reads)
        if t.core ≠ core ∨ ¬free ∨ ¬tileTurn s t p x ∨ behind ∨ (jAcq w ∧ ¬engAcqNow p x) ∨ (jRel w ∧ ¬engRelNow s q.sp p x) then
          .next s
        else
          let s := if jAcq w then acquireAt s t (min 2 (jScope w)) else s
          let r := MmaA x
          .next (ts.foldl (fun s u =>
            setArr s { getArr s die u.core with staged := none, chuck := some (q.sp, r.1.1, r.2.1, r.2.2), running := some q }) s)
      | _ => .next s

/-- The bytes of scratchpads that an unfinished copy could write now, as if it did: each byte then is the old one or the copy's,
freely, and a sector is bad where one of its bytes comes from a bad one (R277, R298). -/
def copyMix (s : State) (v : State) (e : SpRef × Pend) : State :=
  match findPend s e.1 e.2.id, copyOf e.2 with
  | some (u, p, x), some (d, idx, pages, mode) =>
    if !copyMay s e.1 u p x d idx pages then v
    else
      let w := jUnpack x.word
      let here := fun (m : Move) => match m.dst with | .scratch _ _ => true | _ => false
      let ms := (copyMoves s u p.spx w d idx pages mode).filter fun m =>
        here m && !((movedOf x).any fun y => y.1 == pieceOf m.dst) && (moveStop s u (copyAlloc w) m).isNone
      let n := v.freeNo
      let after := (ms.foldl (doMove v u (copyAlloc w)) (v, [])).1
      let sel := fun (tm off : Nat) => Config.freePick (n + tm) off % 2 == 1
      let ws := ms.map fun m => (m.dst, m.n)
      let wrote := fun (tm off : Nat) => sel tm off && ws.any fun e => match e.1 with
        | .scratch k o => k == tm && decide (o ≤ off ∧ off < o + e.2)
        | _ => false
      let mix := fun (o : Team) => match findTeam after o.id with
        | none => o
        | some a =>
          let keys := (ws.flatMap fun e => match e.1 with
            | .scratch k off => if k = o.id then (List.range e.2).map (off + ·) else []
            | _ => []).filter (wrote o.id)
          let all := fun (z : Nat) => (List.range 32).all fun i => wrote o.id (z + i)
          let some_ := fun (z : Nat) => (List.range 32).any fun i => wrote o.id (z + i)
          { o with scratch := keys.foldl (fun m k => mset m k (mget a.scratch k)) o.scratch,
                   badScratch := (o.badScratch.filter (fun z => !all z || a.badScratch.contains z) ++ a.badScratch.filter some_).dedup }
      { v with teams := v.teams.map mix, freeNo := n + s.nextId + 1 }
  | _, _ => v

/-- The scratchpads of a cluster's teams while copies of its cores are writing them. -/
def copyView (s : State) (t : Team) (v : State) : State :=
  ((s.teams.filter (sameCluster t)).flatMap (coreCopies s)).foldl (copyMix s) v

/-- What a pass reads: the scratchpads as its spindle's own plain stores and a copy that is writing may leave them (R239,
R277), the Basin as it stands. -/
def passView (s : State) (q : Pass) (t : Team) (rel : Bool) : State :=
  copyView s t (tornView s q.sp q.id rel)

/-- Write a result into a team's tile: every word of the tile is replaced, with new ECC but for the bad ones (R298). -/
def writeTile (tile : Nat) (result : SMap 32) (bad : List Nat) (u : Team) : Team :=
  let lo := 16384 * tile
  let inTile := fun (k : Nat) => decide (lo ≤ k ∧ k < lo + 16384)
  { u with basin := result.foldl (fun m e => mset m e.1 e.2) (mclear u.basin lo (lo + 16384)),
           badBasin := (u.badBasin.filter fun k => !inTile k) ++ bad }

/-- The result of a pass in a team's tile, from the scratchpads of a view; bad data is recorded in the error log (R298). -/
def passTile (v : State) (d : MmaD) (q : Pass) (s : State) (u : Team) : State :=
  let r := mmaTile ((findTeam v u.id).getD u) d q.aRows q.sRows
  let s := if r.2.isEmpty then s else logPoison s u (.scratch u.id (mmaBadAt u d))
  let s := updTeam s u.id (writeTile d.tile (r.1.foldl (fun m e => mset m e.1 (BitVec.ofNat 32 e.2)) []) r.2)
  setArr s { getArr s u.die u.core with running := none, slaved := false }

/-- MMA_BASIN_WRITE (R287-R291, R295): the tiles are written, the release follows, and mtx falls. -/
def execMmaBasinWrite (die core : Nat) (s : State) : Out :=
  match (getArr s die core).running with
  | none => .next s
  | some q =>
    match findPend s q.sp q.id with
    | none => .next s
    | some (t, _, x) =>
      match x.kind with
      | .mma b _ =>
        let w := jUnpack x.word
        let d := mmaD w b
        if t.core ≠ core then .next s
        else
          let v := passView s q t (jRel w)
          let s := (passTeams s t d.pair).foldl (passTile v d q)
            { s with freeNo := v.freeNo, matReqs := s.matReqs.filter fun y => y.id != q.id }
          .next (updSp s q.sp fun p => finishPend p q.id)
      | _ => .next s

/-! ## Moving Basin data (R300-R304) -/

/-- ACCLD, ACCST and ACCZ issue: the window is checked; an ACCST reads its registers, and is complete when it has read the
last of them (R304); the tile access is an event. -/
def accForm (i : Instr) (w : JWord) (form : Nat) (s : State) : Out :=
  issue i { memory := true, whole := 1 } s fun x =>
    let a := match opnd w.a with | .s r => sget x.p r | _ => 0
    let pair := w.mod.getLsbD 13
    let row := if form = 2 then 0 else bitsOf w.mod 21 6 + bitsOf a 0 16
    let cg := if form = 2 then 0 else bitsOf w.mod 16 5 + bitsOf a 16 16
    let n := if form = 2 then 64 else bitsOf w.mod 7 6 + 1
    if pair ∧ isFollower x.t then x.trapT 0x05 6
    else if 64 < row + n ∨ 31 < cg then x.trapT 0x02 2
    else if x.ctrStops [5] then x.stall 0x40
    else
      let (id, s) := fresh x.s
      let x := { x with s := s }
      let got := match form, opnd w.b with
        | 1, .v r => (List.range n).flatMap fun j => (List.range 8).map fun t => (8 * j + t, (vget x.p (r + j) t).setWidth 128)
        | _, _ => []
      let y := { x.pend id (.acc form row cg n (bitsOf w.mod 14 2) pair) (form == 2) none none [5] [] with got := got }
      x.next (addPend y)

/-- ACCLD (R301). -/
def execAccld (w : JWord) (s : State) : Out := accForm (.accld w) w 0 s
/-- ACCST (R302). -/
def execAccst (w : JWord) (s : State) : Out := accForm (.accst w) w 1 s
/-- ACCZ (R303). -/
def execAccz (w : JWord) (s : State) : Out := accForm (.accz w) w 2 s

/-- The cells of a window: register and thread, and the Basin word (R301). -/
def accCells (row cg n tile : Nat) : List ((Nat × Nat) × Nat) :=
  (grid2 n 8).map fun jt => (jt, bKey tile (row + jt.1) (8 * cg + jt.2))

/-- The team and Basin tile that an ACCLD, ACCST or ACCZ may act on now: nothing earlier of its spindle acts on the tile, and
no pass (R296). -/
def accMay (s : State) (t : Team) (p : Spindle) (x : Pend) : Option Team :=
  match tilesOf s t x with
  | (tm, tile) :: _ => if !tileTurn s t p x || tileBusy s [(tm, tile)] then none else findTeam s tm
  | [] => none

/-- The registers that an ACCLD has not written yet. -/
def accLeft (x : Pend) (d n : Nat) : List Nat := (List.range n).filter fun j => x.wr.contains (.v (d + j))

/-- The words of an ACCLD's window: latched when its first register is written, so that nothing comes between (R296). -/
def accWords (u : Team) (x : Pend) (row cg n tile : Nat) : List (Nat × BitVec 128) :=
  if x.got.isEmpty then (accCells row cg n tile).map fun c => (8 * c.1.1 + c.1.2, (mget u.basin c.2).setWidth 128) else x.got

/-- The registers of an ACCLD from those words. -/
def accWrite (d : Nat) (js : List Nat) (vals : List (Nat × BitVec 128)) (p : Spindle) : Spindle :=
  vals.foldl (fun p e => if js.contains (e.1 / 8) then vset p (d + e.1 / 8) (e.1 % 8) (e.2.setWidth 32) else p) p

/-- An ACCLD writes the first of its registers that is not written yet, which is then pending no longer (R304); a bad word of
its window raises its trap before any is. -/
def accPart (s : State) (r : SpRef) (id : Nat) : State :=
  match findPend s r id with
  | some (t, p, x) =>
    match x.kind, accMay s t p x, opnd (jUnpack x.word).d with
    | .acc 0 row cg n tile _, some u, .v d =>
      match accLeft x d n with
      | j :: _ :: _ =>
        if x.got.isEmpty ∧ (accCells row cg n tile).any fun c => u.badBasin.contains c.2 then s
        else
          let vals := accWords u x row cg n tile
          let less := fun (y : Pend) => { y with wr := y.wr.filter (· != .v (d + j)), got := vals }
          updSp s r fun p =>
            let p := accWrite d [j] vals p
            { p with pend := updWhere (fun y => y.id == id) less p.pend }
      | _ => s
    | _, _, _ => s
  | none => s

/-- An ACCST has read the last of its registers (R304): it is complete, and still to be done. -/
def accStRead (p : Spindle) (id : Nat) : Spindle :=
  let f := fun (y : Pend) => match y.kind with | .acc 1 _ _ _ _ _ => { y with complete := true } | _ => y
  settle { p with pend := updWhere (fun y => y.id == id) f p.pend }

/-- BASIN_TILE_ACCESS (R296, R301-R304). -/
def execBasinTileAccess (r : SpRef) (id : Nat) (s : State) : Out :=
  match findPend s r id with
  | none => .next s
  | some (t, p, x) =>
    match x.kind, accMay s t p x with
    | .acc form row cg n tile _, some u =>
      let cells := accCells row cg n tile
      if form = 0 then
        let d := match opnd (jUnpack x.word).d with | .v v => v | _ => 0
        if x.got.isEmpty ∧ cells.any fun c => u.badBasin.contains c.2 then
          .next (pendTrap s r t p x { cause := 0x0D, reason := 1, tmask := x.tmask })
        else .next (updSp s r fun p => finishPend (accWrite d (accLeft x d n) (accWords u x row cg n tile) p) id)
      else if form = 1 then
        let s := updTeam s u.id fun u =>
          { u with basin := cells.foldl (fun m c =>
                     mset m c.2 (((x.got.find? fun e => e.1 == 8 * c.1.1 + c.1.2).map (·.2.setWidth 32)).getD 0)) u.basin,
                   badBasin := u.badBasin.filter fun k => !cells.any fun c => c.2 == k }
        .next (updSp s r fun p => finishPend p id)
      else
        .next (updSp (updTeam s u.id (writeTile tile [] [])) r fun p => finishPend p id)
    | _, _ => .next s

end Sys2Proof.Machine
end

