-- ==== Sys2Proof/Machine/Predicate.lean ====
section
/-! DEFINITION. Sys2Proof/Machine/Predicate.lean: predicate logic and the cross-thread forms of one spindle (R124-R129). -/

namespace Sys2Proof.Machine

open Sys2Proof

/-- A predicate source of a thread (R125): 63 is the constant 1; bit 6 negates. -/
def predSrc (p : Spindle) (fld : BitVec 10) (t : Nat) : Bool :=
  let n := bitsOf fld 0 6
  (if n = 63 then true else pget p n t) != fld.getLsbD 6

/-- A predicate logic form (R126). -/
def plogForm (i : Instr) (w : JWord) (op : Bool → Bool → Bool) (s : State) : Out :=
  issue i {} s fun x =>
    x.next (writePred (bitsOf w.d 0 6) (x.threads.map fun t => (t, op (predSrc x.p w.a t) (predSrc x.p w.b t))))

/-- PAND (R126). -/
def execPand (w : JWord) (s : State) : Out := plogForm (.pand w) w (fun a b => a && b) s
/-- POR (R126). -/
def execPor (w : JWord) (s : State) : Out := plogForm (.por w) w (fun a b => a || b) s
/-- PXOR (R126). -/
def execPxor (w : JWord) (s : State) : Out := plogForm (.pxor w) w (fun a b => a != b) s
/-- PNOT (R126). -/
def execPnot (w : JWord) (s : State) : Out := plogForm (.pnot w) w (fun a _ => !a) s

/-- P2V (R126). -/
def execP2v (w : JWord) (s : State) : Out :=
  issue (.p2v w) {} s fun x =>
    let b := bitsOf w.a 0 6
    x.compute 1 (x.threads.map fun t => (t, BitVec.ofNat 128
      (((List.range 32).map fun i => if w.mod.getLsbD i && pget x.p (b + i) t then 2 ^ i else 0).sum))) id

/-- V2P (R126). -/
def execV2p (w : JWord) (s : State) : Out :=
  issue (.v2p w) {} s fun x =>
    let b := bitsOf w.d 0 6
    x.next fun p => x.threads.foldl (fun p t =>
      (List.range 32).foldl (fun p i => if w.mod.getLsbD i then pset p (b + i) t ((x.src1 w.a t).getLsbD i) else p) p) p

/-- The mask of the threads taking part whose source is 1 (R128). -/
def ballotMask (x : Iss) : BitVec 8 := maskOf ((threadsOf x.tp).filter fun t => predSrc x.p x.w.a t)

/-- BALLOT (R128): every thread that takes part receives the mask, or an s register once. -/
def execBallot (w : JWord) (s : State) : Out :=
  issue (.ballot w) {} s fun x => x.compute 1 (x.threads.map fun t => (t, (ballotMask x).setWidth 128)) id

/-- One predicate value for every thread that takes part (R128). -/
def voteForm (i : Instr) (w : JWord) (v : Iss → Bool) (s : State) : Out :=
  issue i {} s fun x => x.next (writePred (bitsOf w.d 0 6) (x.threads.map fun t => (t, v x)))

/-- VOTE.ALL (R128). -/
def execVoteAll (w : JWord) (s : State) : Out := voteForm (.voteAll w) w (fun x => ballotMask x == x.tp) s
/-- VOTE.ANY (R128). -/
def execVoteAny (w : JWord) (s : State) : Out := voteForm (.voteAny w) w (fun x => ballotMask x != 0) s
/-- VOTE.SAME (R128). -/
def execVoteSame (w : JWord) (s : State) : Out :=
  voteForm (.voteSame w) w (fun x => ballotMask x == 0 || ballotMask x == x.tp) s

/-- PICK (R129): the source thread of a thread, and whether it takes part. -/
def pickForm (i : Instr) (w : JWord) (src : Int → Int → Int) (s : State) : Out :=
  issue i {} s fun x =>
    let from_ := fun (t : Nat) => src (t : Int) ((x.src1 w.b t).toNat : Int)
    let ok := fun (t : Nat) => decide (0 ≤ from_ t ∧ from_ t ≤ 7) && x.tp.getLsbD (from_ t).toNat
    x.compute 1 (x.threads.map fun t => (t, (x.src1 w.a (if ok t then (from_ t).toNat else t)).setWidth 128)) fun p =>
      if jImm w || jP w == 63 then p else x.threads.foldl (fun p t => pset p (jP w) t (ok t)) p

/-- The bits of n inverted in a thread index (R129). -/
def flipBits (t n : Int) : Int := ((t.toNat ^^^ n.toNat : Nat) : Int)

/-- PICK.AT (R129). -/
def execPickAt (w : JWord) (s : State) : Out := pickForm (.pickAt w) w (fun _ n => n) s
/-- PICK.BELOW (R129). -/
def execPickBelow (w : JWord) (s : State) : Out := pickForm (.pickBelow w) w (fun t n => t - n) s
/-- PICK.ABOVE (R129). -/
def execPickAbove (w : JWord) (s : State) : Out := pickForm (.pickAbove w) w (fun t n => t + n) s
/-- PICK.FLIP (R129). -/
def execPickFlip (w : JWord) (s : State) : Out := pickForm (.pickFlip w) w flipBits s

/-! ## Gang forms (R130-R132) -/

/-- A gang form issues: it takes the spindle's next sequence number and waits, with what each thread contributes: its
source value or predicate, and its pick count (R130, R131). -/
def gangForm (i : Instr) (w : JWord) (contrib : Iss → Nat → Word × Word) (s : State) : Out :=
  issue i {} s fun x =>
    let (id, s) := fresh x.s
    let x := { x with s := s }
    let k := x.p.gseq
    let c := (threadsOf x.tp).map fun t => (t, contrib x t)
    x.next fun p => addPend (x.pend id (.gang k w.min c) false none none [] []) { p with gseq := p.gseq + 1 }

/-- The contribution of a ballot. -/
def ballotPart (x : Iss) (t : Nat) : Word × Word := (if predSrc x.p x.w.a t then 1 else 0, 0)
/-- The contribution of a pick. -/
def pickPart (x : Iss) (t : Nat) : Word × Word := (x.src1 x.w.a t, x.src1 x.w.b t)

/-- GBALLOT.POPC (R130). -/
def execGballotPopc (w : JWord) (s : State) : Out := gangForm (.gballotPopc w) w ballotPart s
/-- GBALLOT.ANY (R130). -/
def execGballotAny (w : JWord) (s : State) : Out := gangForm (.gballotAny w) w ballotPart s
/-- GBALLOT.ALL (R130). -/
def execGballotAll (w : JWord) (s : State) : Out := gangForm (.gballotAll w) w ballotPart s
/-- GBALLOT.PFX (R130). -/
def execGballotPfx (w : JWord) (s : State) : Out := gangForm (.gballotPfx w) w ballotPart s
/-- GBALLOT.MASK (R130). -/
def execGballotMask (w : JWord) (s : State) : Out := gangForm (.gballotMask w) w ballotPart s
/-- GPICK.AT (R130). -/
def execGpickAt (w : JWord) (s : State) : Out := gangForm (.gpickAt w) w pickPart s
/-- GPICK.BELOW (R130). -/
def execGpickBelow (w : JWord) (s : State) : Out := gangForm (.gpickBelow w) w pickPart s
/-- GPICK.ABOVE (R130). -/
def execGpickAbove (w : JWord) (s : State) : Out := gangForm (.gpickAbove w) w pickPart s
/-- GPICK.FLIP (R130). -/
def execGpickFlip (w : JWord) (s : State) : Out := gangForm (.gpickFlip w) w pickPart s

/-- The k-th gang instruction of a spindle, while it waits. -/
def gangPend (p : Spindle) (k : Nat) : Option (Pend × BitVec 8 × List (Nat × Word × Word)) :=
  p.pend.findSome? fun x => match x.kind with
    | .gang j m c => if j = k ∧ !x.complete then some (x, m, c) else none
    | _ => none

/-- The members of a gang of a team: member index and spindle, a retired member included (R26). -/
def gangMembers (g : Grid) (t : Team) (role gang : Nat) : List (Nat × Spindle) :=
  let n := gangSize g role
  (t.spindles.filter fun p => p.role == role && p.rlx / n == gang).map fun p => (p.rlx % n, p)

/-- The gang value of a form for thread t of member m, from all contributions as (gang thread index, value) (R130). -/
def gangValue (min : Nat) (all : List (Nat × Word × Word)) (g m t : Nat) : Word × Bool :=
  let ones := all.filter fun e => e.2.1 == 1
  let j := 8 * m + t
  let pick := fun (src : Int) =>
    match (if 0 ≤ src ∧ src < 8 * (g : Int) then all.find? fun e => e.1 == src.toNat else none) with
    | some e => (e.2.1, true)
    | none => (((all.find? fun e => e.1 == j).map (·.2.1)).getD 0, false)
  let n := ((all.find? fun e => e.1 == j).map (·.2.2.toNat)).getD 0
  if min = 0x00 then (BitVec.ofNat 32 ones.length, false)
  else if min = 0x01 then (0, !ones.isEmpty)
  else if min = 0x02 then (0, ones.length == all.length)
  else if min = 0x03 then (BitVec.ofNat 32 (ones.filter fun e => e.1 < j).length, false)
  else if min = 0x04 then
    (BitVec.ofNat 32 (((List.range g).map fun k => if ones.any fun e => e.1 / 8 == k then 2 ^ k else 0).sum), false)
  else
    let v := min % 16
    pick (if v = 0 then n else if v = 1 then j - n else if v = 2 then j + n else flipBits j n)

/-- Write a member's results and complete its gang instruction (R130, R132). -/
def gangWrite (all : List (Nat × Word × Word)) (g m : Nat) (x : Pend) (min : BitVec 8) (p : Spindle) : Spindle :=
  let w := jUnpack x.word
  let mn := min.toNat
  let p := (threadsOf x.tmask).foldl (fun p t =>
    let r := gangValue (mn % 128) all g m t
    if mn = 1 ∨ mn = 2 then pset p (bitsOf w.d 0 6) t r.2
    else
      let p := writeDst p w.d 1 t (r.1.setWidth 128)
      if mn < 16 ∨ jImm w ∨ jP w = 63 then p else pset p (jP w) t r.2) p
  finishPend p x.id

/-- RENDEZVOUS (R131): the lowest-numbered gang instruction that every member has issued or will never issue completes.
Unlike forms trap each member with W of its window (R58). -/
def execRendezvous (team role gang : Nat) (s : State) : Out :=
  match findTeam s team with
  | none => .next s
  | some t =>
    match findGrid s t.grid with
    | none => .next s
    | some g =>
      if t.st ≠ .resident then .next s
      else
      let ms := gangMembers g t role gang
      let ks := ms.flatMap fun e => e.2.pend.filterMap fun x => match x.kind with
        | .gang j _ _ => if x.complete then none else some j
        | _ => none
      match leastBy' ks with
      | none => .next s
      | some k =>
        if ms.all fun e => (gangPend e.2 k).isSome || e.2.retired then
          let here := ms.filterMap fun e => (gangPend e.2 k).map fun x => (e.1, e.2, x)
          let mins := (here.map fun e => e.2.2.2.1).dedup
          if mins.length ≤ 1 then
            let all := here.flatMap fun e => e.2.2.2.2.map fun c => (8 * e.1 + c.1, c.2)
            .next (here.foldl (fun s e => updSp s { team := team, spx := e.2.1.spx }
              (gangWrite all (gangSize g role) e.1 e.2.2.1 e.2.2.2.1)) s)
          else
            .next (here.foldl (fun s e =>
              let x := e.2.2.1
              let r : SpRef := { team := team, spx := e.2.1.spx }
              let fm := ((e.2.1.frag? x.frag).map (·.mask)).getD 0
              let rec_ := mkRec s t e.2.1.spx fm x.pc x.word { cause := 0x0E, reason := 1, tmask := x.tmask, w := x.w }
              raiseGangTrap (updSp s r fun p => cancelPend p x.id) r x.frag rec_) s)
        else .next s
where
  leastBy' : List Nat → Option Nat
    | [] => none
    | x :: r => some (r.foldl min x)

end Sys2Proof.Machine
end

