-- ==== Sys2Proof/Machine/Dispatch.lean ====
section
/-! DEFINITION. Sys2Proof/Machine/Dispatch.lean: one arm per constructor of Instr, each a direct call of its meaning. -/

namespace Sys2Proof.Machine

open Sys2Proof

def exec (i : Instr) (s : State) : Host.Outcome State Fault Refusal :=
  match i with
  | .bra w => Sys2Proof.Machine.execBra w s
  | .brd w => Sys2Proof.Machine.execBrd w s
  | .jmps w => Sys2Proof.Machine.execJmps w s
  | .call w => Sys2Proof.Machine.execCall w s
  | .calls w => Sys2Proof.Machine.execCalls w s
  | .ret w => Sys2Proof.Machine.execRet w s
  | .ifI w => Sys2Proof.Machine.execIf w s
  | .elseI w => Sys2Proof.Machine.execElse w s
  | .endif w => Sys2Proof.Machine.execEndif w s
  | .loopI w => Sys2Proof.Machine.execLoop w s
  | .breakI w => Sys2Proof.Machine.execBreak w s
  | .contI w => Sys2Proof.Machine.execCont w s
  | .endloop w => Sys2Proof.Machine.execEndloop w s
  | .exitI w => Sys2Proof.Machine.execExit w s
  | .rfl w => Sys2Proof.Machine.execRfl w s
  | .getid w => Sys2Proof.Machine.execGetid w s
  | .nop w => Sys2Proof.Machine.execNop w s
  | .sleep w => Sys2Proof.Machine.execSleep w s
  | .iadd w => Sys2Proof.Machine.execIadd w s
  | .isub w => Sys2Proof.Machine.execIsub w s
  | .iaddx w => Sys2Proof.Machine.execIaddx w s
  | .imul w => Sys2Proof.Machine.execImul w s
  | .imulhi w => Sys2Proof.Machine.execImulhi w s
  | .imad w => Sys2Proof.Machine.execImad w s
  | .imadw w => Sys2Proof.Machine.execImadw w s
  | .imin w => Sys2Proof.Machine.execImin w s
  | .imax w => Sys2Proof.Machine.execImax w s
  | .iabs w => Sys2Proof.Machine.execIabs w s
  | .ineg w => Sys2Proof.Machine.execIneg w s
  | .andI w => Sys2Proof.Machine.execAnd w s
  | .orI w => Sys2Proof.Machine.execOr w s
  | .xorI w => Sys2Proof.Machine.execXor w s
  | .andn w => Sys2Proof.Machine.execAndn w s
  | .notI w => Sys2Proof.Machine.execNot w s
  | .shl w => Sys2Proof.Machine.execShl w s
  | .shr w => Sys2Proof.Machine.execShr w s
  | .sar w => Sys2Proof.Machine.execSar w s
  | .rot w => Sys2Proof.Machine.execRot w s
  | .fshf w => Sys2Proof.Machine.execFshf w s
  | .bfe w => Sys2Proof.Machine.execBfe w s
  | .bfi w => Sys2Proof.Machine.execBfi w s
  | .brev w => Sys2Proof.Machine.execBrev w s
  | .clz w => Sys2Proof.Machine.execClz w s
  | .ffs w => Sys2Proof.Machine.execFfs w s
  | .popc w => Sys2Proof.Machine.execPopc w s
  | .icmp w => Sys2Proof.Machine.execIcmp w s
  | .sel w => Sys2Proof.Machine.execSel w s
  | .mov w => Sys2Proof.Machine.execMov w s
  | .movi w => Sys2Proof.Machine.execMovi w s
  | .lea w => Sys2Proof.Machine.execLea w s
  | .idot4 w => Sys2Proof.Machine.execIdot4 w s
  | .pand w => Sys2Proof.Machine.execPand w s
  | .por w => Sys2Proof.Machine.execPor w s
  | .pxor w => Sys2Proof.Machine.execPxor w s
  | .pnot w => Sys2Proof.Machine.execPnot w s
  | .p2v w => Sys2Proof.Machine.execP2v w s
  | .v2p w => Sys2Proof.Machine.execV2p w s
  | .ballot w => Sys2Proof.Machine.execBallot w s
  | .voteAll w => Sys2Proof.Machine.execVoteAll w s
  | .voteAny w => Sys2Proof.Machine.execVoteAny w s
  | .voteSame w => Sys2Proof.Machine.execVoteSame w s
  | .pickAt w => Sys2Proof.Machine.execPickAt w s
  | .pickBelow w => Sys2Proof.Machine.execPickBelow w s
  | .pickAbove w => Sys2Proof.Machine.execPickAbove w s
  | .pickFlip w => Sys2Proof.Machine.execPickFlip w s
  | .gballotPopc w => Sys2Proof.Machine.execGballotPopc w s
  | .gballotAny w => Sys2Proof.Machine.execGballotAny w s
  | .gballotAll w => Sys2Proof.Machine.execGballotAll w s
  | .gballotPfx w => Sys2Proof.Machine.execGballotPfx w s
  | .gballotMask w => Sys2Proof.Machine.execGballotMask w s
  | .gpickAt w => Sys2Proof.Machine.execGpickAt w s
  | .gpickBelow w => Sys2Proof.Machine.execGpickBelow w s
  | .gpickAbove w => Sys2Proof.Machine.execGpickAbove w s
  | .gpickFlip w => Sys2Proof.Machine.execGpickFlip w s
  | .cvt w => Sys2Proof.Machine.execCvt w s
  | .cvti w => Sys2Proof.Machine.execCvti w s
  | .cvtf w => Sys2Proof.Machine.execCvtf w s
  | .cvtpk w => Sys2Proof.Machine.execCvtpk w s
  | .cvtup w => Sys2Proof.Machine.execCvtup w s
  | .fscale w => Sys2Proof.Machine.execFscale w s
  | .getmode w => Sys2Proof.Machine.execGetmode w s
  | .getmodeGen w => Sys2Proof.Machine.execGetmodeGen w s
  | .setmode w => Sys2Proof.Machine.execSetmode w s
  | .setmodeImm w => Sys2Proof.Machine.execSetmodeImm w s
  | .setmodeGen w => Sys2Proof.Machine.execSetmodeGen w s
  | .fadd w => Sys2Proof.Machine.execFadd w s
  | .fsub w => Sys2Proof.Machine.execFsub w s
  | .fmul w => Sys2Proof.Machine.execFmul w s
  | .ffma w => Sys2Proof.Machine.execFfma w s
  | .fmin w => Sys2Proof.Machine.execFmin w s
  | .fmax w => Sys2Proof.Machine.execFmax w s
  | .fcmp w => Sys2Proof.Machine.execFcmp w s
  | .fclass w => Sys2Proof.Machine.execFclass w s
  | .pkadd w => Sys2Proof.Machine.execPkadd w s
  | .pkmul w => Sys2Proof.Machine.execPkmul w s
  | .pkfma w => Sys2Proof.Machine.execPkfma w s
  | .rcp w => Sys2Proof.Machine.execRcp w s
  | .sqrt w => Sys2Proof.Machine.execSqrt w s
  | .rsq w => Sys2Proof.Machine.execRsq w s
  | .exp2 w => Sys2Proof.Machine.execExp2 w s
  | .log2 w => Sys2Proof.Machine.execLog2 w s
  | .sin w => Sys2Proof.Machine.execSin w s
  | .cos w => Sys2Proof.Machine.execCos w s
  | .tanh w => Sys2Proof.Machine.execTanh w s
  | .fsum w => Sys2Proof.Machine.execFsum w s
  | .fmaxr w => Sys2Proof.Machine.execFmaxr w s
  | .ld w => Sys2Proof.Machine.execLd w s
  | .st w => Sys2Proof.Machine.execSt w s
  | .ldl w => Sys2Proof.Machine.execLdl w s
  | .stl w => Sys2Proof.Machine.execStl w s
  | .ldc w => Sys2Proof.Machine.execLdc w s
  | .stc w => Sys2Proof.Machine.execStc w s
  | .pref w => Sys2Proof.Machine.execPref w s
  | .discard w => Sys2Proof.Machine.execDiscard w s
  | .cctlWb w => Sys2Proof.Machine.execCctlWb w s
  | .cctlInv w => Sys2Proof.Machine.execCctlInv w s
  | .cctlIinv w => Sys2Proof.Machine.execCctlIinv w s
  | .cctlInvrs w => Sys2Proof.Machine.execCctlInvrs w s
  | .cctlWball w => Sys2Proof.Machine.execCctlWball w s
  | .qcfg w => Sys2Proof.Machine.execQcfg w s
  | .qcfgFree w => Sys2Proof.Machine.execQcfgFree w s
  | .qstatPos w => Sys2Proof.Machine.execQstatPos w s
  | .qstatLeft w => Sys2Proof.Machine.execQstatLeft w s
  | .qstatStat w => Sys2Proof.Machine.execQstatStat w s
  | .wait w => Sys2Proof.Machine.execWait w s
  | .atomAdd w => Sys2Proof.Machine.execAtomAdd w s
  | .atomMin w => Sys2Proof.Machine.execAtomMin w s
  | .atomMax w => Sys2Proof.Machine.execAtomMax w s
  | .atomAnd w => Sys2Proof.Machine.execAtomAnd w s
  | .atomOr w => Sys2Proof.Machine.execAtomOr w s
  | .atomXor w => Sys2Proof.Machine.execAtomXor w s
  | .atomExch w => Sys2Proof.Machine.execAtomExch w s
  | .atomFadd w => Sys2Proof.Machine.execAtomFadd w s
  | .atomBfadd w => Sys2Proof.Machine.execAtomBfadd w s
  | .acas w => Sys2Proof.Machine.execAcas w s
  | .redAdd w => Sys2Proof.Machine.execRedAdd w s
  | .redMin w => Sys2Proof.Machine.execRedMin w s
  | .redMax w => Sys2Proof.Machine.execRedMax w s
  | .redAnd w => Sys2Proof.Machine.execRedAnd w s
  | .redOr w => Sys2Proof.Machine.execRedOr w s
  | .redXor w => Sys2Proof.Machine.execRedXor w s
  | .redFadd w => Sys2Proof.Machine.execRedFadd w s
  | .redBfadd w => Sys2Proof.Machine.execRedBfadd w s
  | .barT w => Sys2Proof.Machine.execBarT w s
  | .barC w => Sys2Proof.Machine.execBarC w s
  | .barD w => Sys2Proof.Machine.execBarD w s
  | .arriveT w => Sys2Proof.Machine.execArriveT w s
  | .arriveC w => Sys2Proof.Machine.execArriveC w s
  | .arriveD w => Sys2Proof.Machine.execArriveD w s
  | .arriveG w => Sys2Proof.Machine.execArriveG w s
  | .waitbT w => Sys2Proof.Machine.execWaitbT w s
  | .waitbC w => Sys2Proof.Machine.execWaitbC w s
  | .waitbD w => Sys2Proof.Machine.execWaitbD w s
  | .bowait w => Sys2Proof.Machine.execBowait w s
  | .tcopy w => Sys2Proof.Machine.execTcopy w s
  | .tstore w => Sys2Proof.Machine.execTstore w s
  | .tgather w => Sys2Proof.Machine.execTgather w s
  | .tscatter w => Sys2Proof.Machine.execTscatter w s
  | .tfill w => Sys2Proof.Machine.execTfill w s
  | .mma w => Sys2Proof.Machine.execMma w s
  | .accld w => Sys2Proof.Machine.execAccld w s
  | .accst w => Sys2Proof.Machine.execAccst w s
  | .accz w => Sys2Proof.Machine.execAccz w s
  | .tfetch w => Sys2Proof.Machine.execTfetch w s
  | .tfetchX w => Sys2Proof.Machine.execTfetchX w s
  | .tfetchXe w => Sys2Proof.Machine.execTfetchXe w s
  | .tretire w => Sys2Proof.Machine.execTretire w s
  | .route w => Sys2Proof.Machine.execRoute w s
  | .exacq w => Sys2Proof.Machine.execExacq w s
  | .exrel w => Sys2Proof.Machine.execExrel w s
  | .dqstatQ w => Sys2Proof.Machine.execDqstatQ w s
  | .dqstatErt w => Sys2Proof.Machine.execDqstatErt w s
  | .dqstatGy w => Sys2Proof.Machine.execDqstatGy w s
  | .dqstatHand w => Sys2Proof.Machine.execDqstatHand w s
  | .coll w => Sys2Proof.Machine.execColl w s
  | .progv w => Sys2Proof.Machine.execProgv w s
  | .collstat w => Sys2Proof.Machine.execCollstat w s
  | .collstatW w => Sys2Proof.Machine.execCollstatW w s
  | .trapI w => Sys2Proof.Machine.execTrap w s
  | .eret w => Sys2Proof.Machine.execEret w s
  | .rdsys w => Sys2Proof.Machine.execRdsys w s
  | .wrsys w => Sys2Proof.Machine.execWrsys w s
  | .rolesw w => Sys2Proof.Machine.execRolesw w s
  | .bkpt w => Sys2Proof.Machine.execBkpt w s
  | .tlbinvPage w => Sys2Proof.Machine.execTlbinvPage w s
  | .tlbinvOwn w => Sys2Proof.Machine.execTlbinvOwn w s
  | .tlbinvAll w => Sys2Proof.Machine.execTlbinvAll w s
  | .ctxsave w => Sys2Proof.Machine.execCtxsave w s
  | .ctxload w => Sys2Proof.Machine.execCtxload w s
  | .halt w => Sys2Proof.Machine.execHalt w s
  | .matchL w => Sys2Proof.Machine.execMatch w s
  | .cmb w => Sys2Proof.Machine.execCmb w s
  | .fwd w => Sys2Proof.Machine.execFwd w s
  | .fwdMem w => Sys2Proof.Machine.execFwdMem w s
  | .fwdRank w => Sys2Proof.Machine.execFwdRank w s
  | .gath w => Sys2Proof.Machine.execGath w s
  | .spill w => Sys2Proof.Machine.execSpill w s
  | .fillSave w => Sys2Proof.Machine.execFillSave w s
  | .fillSrc w => Sys2Proof.Machine.execFillSrc w s
  | .fillMem w => Sys2Proof.Machine.execFillMem w s
  | .boupd w => Sys2Proof.Machine.execBoupd w s
  | .chk w => Sys2Proof.Machine.execChk w s
  | .progw w => Sys2Proof.Machine.execProgw w s
  | .luanilLoop w => Sys2Proof.Machine.execLuanilLoop w s
  | .endl w => Sys2Proof.Machine.execEndl w s
  | .bnz w => Sys2Proof.Machine.execBnz w s
  | .setk w => Sys2Proof.Machine.execSetk w s
  | .nextc w => Sys2Proof.Machine.execNextc w s
  | .doneL w => Sys2Proof.Machine.execDone w s
  | .setc w => Sys2Proof.Machine.execSetc w s
  | .addc w => Sys2Proof.Machine.execAddc w s
  | .jmp w => Sys2Proof.Machine.execJmp w s
  | .luanilNop w => Sys2Proof.Machine.execLuanilNop w s
  | .nopPacket p => Sys2Proof.Machine.execNopPacket p s
  | .launch p => Sys2Proof.Machine.execLaunch p s
  | .write32 p => Sys2Proof.Machine.execWrite32 p s
  | .write64 p => Sys2Proof.Machine.execWrite64 p s
  | .waitMem p => Sys2Proof.Machine.execWaitMem p s
  | .atomicMemAdd p => Sys2Proof.Machine.execAtomicMemAdd p s
  | .atomicMemAnd p => Sys2Proof.Machine.execAtomicMemAnd p s
  | .atomicMemOr p => Sys2Proof.Machine.execAtomicMemOr p s
  | .atomicMemExch p => Sys2Proof.Machine.execAtomicMemExch p s
  | .atomicMemCas p => Sys2Proof.Machine.execAtomicMemCas p s
  | .indirect p => Sys2Proof.Machine.execIndirect p s
  | .condBegin p => Sys2Proof.Machine.execCondBegin p s
  | .condEnd p => Sys2Proof.Machine.execCondEnd p s
  | .loopBegin p => Sys2Proof.Machine.execLoopBegin p s
  | .loopEnd p => Sys2Proof.Machine.execLoopEnd p s
  | .fetchFence p => Sys2Proof.Machine.execFetchFence p s
  | .collective p => Sys2Proof.Machine.execCollective p s
  | .boSignal p => Sys2Proof.Machine.execBoSignal p s
  | .timestamp p => Sys2Proof.Machine.execTimestamp p s
  | .discardRange p => Sys2Proof.Machine.execDiscardRange p s
  | .ertPreload p => Sys2Proof.Machine.execErtPreload p s
  | .setShare p => Sys2Proof.Machine.execSetShare p s
  | .resync p => Sys2Proof.Machine.execResync p s
  | .sleepExpiry f => Sys2Proof.Machine.execSleepExpiry f s
  | .rendezvous team role gang => Sys2Proof.Machine.execRendezvous team role gang s
  | .streamFetch team port => Sys2Proof.Machine.execStreamFetch team port s
  | .streamPushPerform team port => Sys2Proof.Machine.execStreamPushPerform team port s
  | .loadDataArrival sp id => Sys2Proof.Machine.execLoadDataArrival sp id s
  | .accessDone sp id => Sys2Proof.Machine.execAccessDone sp id s
  | .systemMemoryTimeout sp id => Sys2Proof.Machine.execSystemMemoryTimeout sp id s
  | .trs msg => Sys2Proof.Machine.execTrs msg s
  | .trx msg => Sys2Proof.Machine.execTrx msg s
  | .tok msg => Sys2Proof.Machine.execTok msg s
  | .wbk msg => Sys2Proof.Machine.execWbk msg s
  | .preq msg => Sys2Proof.Machine.execPreq msg s
  | .pact msg => Sys2Proof.Machine.execPact msg s
  | .pdone msg => Sys2Proof.Machine.execPdone msg s
  | .pdeact msg => Sys2Proof.Machine.execPdeact msg s
  | .transientAttemptTimeout h line => Sys2Proof.Machine.execTransientAttemptTimeout h line s
  | .l2Eviction die line => Sys2Proof.Machine.execL2Eviction die line s
  | .bowaitReread f => Sys2Proof.Machine.execBowaitReread f s
  | .barrierRelease f => Sys2Proof.Machine.execBarrierRelease f s
  | .copyAccept sp id => Sys2Proof.Machine.execCopyAccept sp id s
  | .copyDone sp id => Sys2Proof.Machine.execCopyDone sp id s
  | .mmaGrant die cluster => Sys2Proof.Machine.execMmaGrant die cluster s
  | .mmaPassStart die core => Sys2Proof.Machine.execMmaPassStart die core s
  | .mmaBasinWrite die core => Sys2Proof.Machine.execMmaBasinWrite die core s
  | .basinTileAccess sp id => Sys2Proof.Machine.execBasinTileAccess sp id s
  | .geyserRefillRequest grid die => Sys2Proof.Machine.execGeyserRefillRequest grid die s
  | .refillGrant grid die => Sys2Proof.Machine.execRefillGrant grid die s
  | .pageInComplete die expert => Sys2Proof.Machine.execPageInComplete die expert s
  | .pageInError die expert => Sys2Proof.Machine.execPageInError die expert s
  | .instanceCheck group k => Sys2Proof.Machine.execInstanceCheck group k s
  | .instanceRestart group k => Sys2Proof.Machine.execInstanceRestart group k s
  | .arrivalHeld msg => Sys2Proof.Machine.execArrivalHeld msg s
  | .ueMessageReceive m => Sys2Proof.Machine.execUeMessageReceive m s
  | .memberTimeout o => Sys2Proof.Machine.execMemberTimeout o s
  | .armWindow w kind => Sys2Proof.Machine.execArmWindow w kind s
  | .disarmWindow w => Sys2Proof.Machine.execDisarmWindow w s
  | .programLoad first entry words => Sys2Proof.Machine.execProgramLoad first entry words s
  | .contextAged unit ctx => Sys2Proof.Machine.execContextAged unit ctx s
  | .roleswRowsGranted sp => Sys2Proof.Machine.execRoleswRowsGranted sp s
  | .ftqRecordWrite die => Sys2Proof.Machine.execFtqRecordWrite die s
  | .sactResume die core spx => Sys2Proof.Machine.execSactResume die core spx s
  | .sactSkip die core spx => Sys2Proof.Machine.execSactSkip die core spx s
  | .sactDeliver die core spx => Sys2Proof.Machine.execSactDeliver die core spx s
  | .sactEnd die core spx => Sys2Proof.Machine.execSactEnd die core spx s
  | .sactAbort die core spx => Sys2Proof.Machine.execSactAbort die core spx s
  | .frsvResolve die tenant vpn => Sys2Proof.Machine.execFrsvResolve die tenant vpn s
  | .frsvFail die tenant vpn => Sys2Proof.Machine.execFrsvFail die tenant vpn s
  | .pageWalkComplete die tenant granule => Sys2Proof.Machine.execPageWalkComplete die tenant granule s
  | .spindleUnpark sp => Sys2Proof.Machine.execSpindleUnpark sp s
  | .watchdog f => Sys2Proof.Machine.execWatchdog f s
  | .fragmentAtJoin f => Sys2Proof.Machine.execFragmentAtJoin f s
  | .fragmentAged f => Sys2Proof.Machine.execFragmentAged f s
  | .splitEntryRestore die core quarter => Sys2Proof.Machine.execSplitEntryRestore die core quarter s
  | .splitExchange die core quarter => Sys2Proof.Machine.execSplitExchange die core quarter s
  | .spindleRetire sp => Sys2Proof.Machine.execSpindleRetire sp s
  | .debugHalt sp => Sys2Proof.Machine.execDebugHalt sp s
  | .debugResume sp => Sys2Proof.Machine.execDebugResume sp s
  | .debugStep sp focus => Sys2Proof.Machine.execDebugStep sp focus s
  | .debugStateAccess sp write => Sys2Proof.Machine.execDebugStateAccess sp write s
  | .armQueue q => Sys2Proof.Machine.execArmQueue q s
  | .disarmQueue q => Sys2Proof.Machine.execDisarmQueue q s
  | .wpUpdate q => Sys2Proof.Machine.execWpUpdate q s
  | .queueAged q => Sys2Proof.Machine.execQueueAged q s
  | .reqYield grid => Sys2Proof.Machine.execReqYield grid s
  | .reqAbort grid => Sys2Proof.Machine.execReqAbort grid s
  | .reqResume grid => Sys2Proof.Machine.execReqResume grid s
  | .preemption grid die => Sys2Proof.Machine.execPreemption grid die s
  | .gridYielded grid => Sys2Proof.Machine.execGridYielded grid s
  | .gridResume grid => Sys2Proof.Machine.execGridResume grid s
  | .gridAbort grid => Sys2Proof.Machine.execGridAbort grid s
  | .abortDiscard grid => Sys2Proof.Machine.execAbortDiscard grid s
  | .teamStart grid cluster => Sys2Proof.Machine.execTeamStart grid cluster s
  | .teamRetire team => Sys2Proof.Machine.execTeamRetire team s
  | .gridComplete grid => Sys2Proof.Machine.execGridComplete grid s
  | .sliceEnd die => Sys2Proof.Machine.execSliceEnd die s
  | .swapSave grid cluster => Sys2Proof.Machine.execSwapSave grid cluster s
  | .clusterSwapParked grid cluster => Sys2Proof.Machine.execClusterSwapParked grid cluster s
  | .graceExpiry grid cluster => Sys2Proof.Machine.execGraceExpiry grid cluster s
  | .shareWindowEnd => Sys2Proof.Machine.execShareWindowEnd s
  | .lucmdLoad => Sys2Proof.Machine.execLucmdLoad s
  | .microcodeSwitch => Sys2Proof.Machine.execMicrocodeSwitch s
  | .registerWrite r value => Sys2Proof.Machine.execRegisterWrite r value s
  | .packageReset => Sys2Proof.Machine.execPackageReset s
  | .dieLost die => Sys2Proof.Machine.execDieLost die s
  | .telemetryRefresh => Sys2Proof.Machine.execTelemetryRefresh s
  | .attestationRequest => Sys2Proof.Machine.execAttestationRequest s
  | .hostBar2Access addr len req => Sys2Proof.Machine.execHostBar2Access addr len req s
  | .instructionFetch f refetch => Sys2Proof.Machine.execInstructionFetch f refetch s
  | .waitMemReread q => Sys2Proof.Machine.execWaitMemReread q s
  | .fwdWritePerformed unit ctx => Sys2Proof.Machine.execFwdWritePerformed unit ctx s
  | .debugAttach grid on => Sys2Proof.Machine.execDebugAttach grid on s
  | .dynamicCapacityRelease addr len => Sys2Proof.Machine.execDynamicCapacityRelease addr len s

end Sys2Proof.Machine
end

