-- ==== Sys2Proof/Machine/Turns.lean ====
section
/-! DEFINITION. Sys2Proof/Machine/Turns.lean: what a turn leads to before an instruction runs: a fragment's fetched word,
a context's program word, a queue's packet, an event; and the turns that run none: time, an L1's own eviction, the
completion of a computing form. At its end, how a word is placed where the next turn runs it (log 7). -/

namespace Sys2Proof.Machine

open Sys2Proof

/-- What a turn comes to: an instruction to run at a state, or a next state without one. -/
inductive Prep where
  | run (i : Instr) (s : State)
  | done (s : State)

/-! ## The three instruction streams -/

/-- A fragment issues the word fetched into its quarter (R81); a word that fails steps 1 to 3 of Table 2-9 traps (R70). -/
def prepIssue (s : State) (r : FragRef) : Prep :=
  match findTeam s r.sp.team, findSp s r.sp, findFrag s r with
  | some t, some p, some f =>
    match f.fetched with
    | none => .done s
    | some word =>
      match decodeJolisol word with
      | .ok i => .run i { s with cur := .frag r word }
      | .error e =>
        if fragReady s t p f && windowLets p f (wordCls word) then
          let c := match e with | .operand => 2 | _ => 1
          .done (outState s (trapAt s r t p f word { cause := c, tmask := takingPart p f (jUnpack word) }))
        else .done s
  | _, _, _ => .done s

/-- A context executes the word at its pc (R359, R365): a built-in program moves on by one chunk; a pc outside its program,
or a word that is no instruction, faults (R368). -/
def prepLuanil (s : State) (unit c : Nat) : Prep :=
  match findCtx s unit c with
  | none => .done s
  | some x =>
    if !caldUp s then .done s
    else if x.pc < 1024 ∧ x.first < 1024 then .done (outState s (builtinTurn s x))
    else if x.pc < x.first ∨ x.first + x.len ≤ x.pc then .done (outState s (ctxFault s x .past))
    else
      match decodeLuanil (mget s.store x.pc) with
      | .ok i => .run i { s with cur := .ctx unit c }
      | .error _ => .done (outState s (ctxFault s x .past))

/-- A queue executes its next packet (R420). -/
def prepPacket (s : State) (q : Nat) : Prep :=
  match nextPacket s q with
  | .run i s => .run i s
  | .done s => .done s

/-- Is an instruction an event or host act, which no word encodes? -/
def isEvent (i : Instr) : Bool := (jMajOf i).isNone && (lOpOf i).isNone && (pTypeOf i).isNone

/-! ## Time -/

/-- A fragment of a resident team after `n` cycles of its core's clock and `k` of the package's: its sleep runs down, its
ready time or its wait grows (R82, R106, R394). -/
def tickFrag (s : State) (t : Team) (p : Spindle) (n k : Nat) (f : Frag) : Frag :=
  let st := match f.st with | .sleeping c => .sleeping (c - n) | y => y
  let held := inWait s t p f
  let f := if mayStart s t p f then { f with readyFor := f.readyFor + n } else f
  { f with st := st, waited := if held && p.st == .running then f.waited + k else f.waited }

/-- The statistics whose wait a spindle's fragments are in (Table 14-7): 0x40 to 0x44. -/
def stallStats (s : State) (t : Team) (p : Spindle) : List Nat :=
  (p.frags.filterMap fun f => match f.st with
    | .ready => (heldStall s t p f).or (f.stall.filter (0x42 ≤ ·))
    | .rolesw => if p.rsReq.isSome then some 0x44 else none
    | _ => none).dedup.filter fun k => decide (0x40 ≤ k ∧ k ≤ 0x44)

/-- Statistics after `n` cycles, parked cycles among them. -/
def tickStats (s : State) (t : Team) (p : Spindle) (n : Nat) : SMap 64 :=
  let ks := match p.st with
    | .parked _ _ _ => [0x46]
    | .running => stallStats s t p
    | _ => []
  ks.foldl (fun m k => mset m k (mget m k + BitVec.ofNat 64 n)) p.stats

def tickSpindle (s : State) (t : Team) (n k : Nat) (p : Spindle) : Spindle :=
  { p with stats := tickStats s t p n, frags := p.frags.map (tickFrag s t p n k) }

/-- Cycles of a die's core clock in `n` package cycles, and the parts of 1,200 that stay over (R5, R486). -/
def coreCycles (d : Die) (n : Nat) : Nat × Nat := ((d.frac + n * d.clock) / 1200, (d.frac + n * d.clock) % 1200)

def tickTeam (s : State) (n : Nat) (t : Team) : Team :=
  let c := ((findDie s t.die).map fun d => (coreCycles d n).1).getD n
  if t.st = .resident then { t with spindles := t.spindles.map (tickSpindle s t c n) } else t

/-- Is a team that speaks for a rank of a window's group not resident (R347)? -/
def winOut (s : State) (x : Win) : Bool := (findGrp s x.wgroup).any (groupAway s)

/-- The grace of a cluster counts while it is resident during a yield (R440). -/
def tickGrid (n : Nat) (g : Grid) : Grid :=
  if g.st = .yielding then
    { g with clusters := g.clusters.map fun c => if c.resident then { c with grace := c.grace + n } else c }
  else g

/-- A context's cycles are the switch's, five for every three of the package (R5, R360). -/
def tickCtx (s : State) (n : Nat) (x : Ctx) : Ctx :=
  if ctxReady s x then { x with readyFor := x.readyFor + (s.swFrac + 5 * n) / 3 } else x

/-- A queue that could be served has been ready for longer (R419). -/
def tickQueue (s : State) (n : Nat) (x : Queue) : Queue := if queueReady s x then { x with readyFor := x.readyFor + n } else x

/-- `n` package cycles pass. -/
def tick (s : State) (n : Nat) : State :=
  { s with
    cycle := s.cycle + BitVec.ofNat 64 n,
    swFrac := (s.swFrac + 5 * n) % 3,
    dies := s.dies.map fun d => { d with frac := (coreCycles d n).2 },
    teams := s.teams.map (tickTeam s n),
    grids := s.grids.map (tickGrid n),
    wins := s.wins.map fun x => if winOut s x then x else { x with timers := x.timers.map fun e => (e.1, e.2 + n) },
    insts := s.insts.map fun i => if instWaits s i then { i with timer := i.timer + n } else i,
    ueWaits := s.ueWaits.map fun e => (e.1, e.2 + n),
    ctxs := s.ctxs.map (tickCtx s n),
    queues := s.queues.map (tickQueue s n),
    reqs := s.reqs.map fun r => { r with age := r.age + n, total := r.total + n } }

/-! ## Turns of an L1 and of a computing form -/

/-- An L1 gives up a sector, written back first if dirty, or a coherent line (R191, R194). -/
def l1Evict (s : State) (die core sec : Nat) : State :=
  let here := fun (x : L1Sec) => ofCore die core x && x.sec == sec
  let s := writeBack s here
  { s with l1 := s.l1.filter (fun x => !here x),
           l1c := s.l1c.filter fun x => !(x.die == die && x.core == core && x.line == lineOf sec) }

/-- Some bits of byte `i` of a chunk on its way, or of a mapped slot, turn over (R344). -/
def flipMsg (i : Nat) (b : Byte) (x : Msg) : Msg :=
  match x.body with
  | .arrive _ _ _ _ _ _ data => { x with sent := some ((x.sent.getD data).modify i (· ^^^ b)) }
  | _ => x
def flipSlot (i : Nat) (b : Byte) (y : Slot) : Slot := { y with data := y.data.modify i (· ^^^ b) }

/-- A soft error strikes (R205): a corrected one is counted, an uncorrectable one stays until its place is written whole. -/
def softError (s : State) : SoftErr → State
  | .corrected d => updDie s d fun x => { x with ecccnt := x.ecccnt + 1 }
  | .mem sec => { s with badSec := (sectorOf sec :: s.badSec).dedup }
  | .l1 d c sec => { s with l1 := updWhere (fun x => ofCore d c x && x.sec == sectorOf sec) (fun x => { x with bad := true }) s.l1 }
  | .scratch tm sec => updTeam s tm fun u => { u with badScratch := (sectorOf sec :: u.badScratch).dedup }
  | .basin tm key => updTeam s tm fun u => { u with badBasin := (key :: u.badBasin).dedup }
  | .link m i b => { s with msgs := updWhere (fun x => x.id == m) (flipMsg i b) s.msgs }
  | .slot u c v i b => updCtx s u c fun x => { x with slots := updWhere (fun e => e.1 == v) (fun e => (e.1, flipSlot i b e.2)) x.slots }
  | .lane u c => updCtx s u c fun x => { x with laneBad := true }
  | .path u c => updCtx s u c fun x => { x with pathBad := true }
  | .spill i => match s.arrivals[i]? with
    | some a => match a.owner with
      | some o => if a.spilled then failSpill s o else s
      | none => s
    | none => s
  | .vreg r n t => updSp s r fun p => if n < p.allot ∧ t < 8 then { p with badV := ((8 * n + t) :: p.badV).dedup } else p

/-- The groups that a trapping form's streams supplied are the next ones again (R9, R147). -/
def unpop (spx : Nat) (pops : List (Nat × List Word)) (t : Team) : Team :=
  pops.foldl (fun t e => setPort t e.1 fun y =>
    if y.bound = some spx ∧ 0 < y.pos then { y with pos := y.pos - 1, fetched := e.2.map (·, false) :: y.fetched } else y) t

/-- A long-latency computing form completes (R55) and its flags enter MODE.FLG (R147, R176), or it raises its enabled
condition (R58, R147); a dispense form makes its acquire, once its entries are written (R312, R321); an ACCST has read its last
register (R304). -/
def completeForm (s : State) (r : SpRef) (id : Nat) : State :=
  match findTeam s r.team, findSp s r with
  | some t, some p =>
    match p.pend.find? fun x => x.id == id with
    | some x =>
      match x.kind with
      | .compute fpc =>
        if x.complete || entriesWait s id then s
        else
          let s := updSp s r fun p => finishPend (raiseFlags fpc p) id
          match x.acq with | some sc => acquireAt s t sc | none => s
      | .fpTrap tm fpc pops => pendTrap (updTeam s r.team (unpop p.spx pops)) r t p x { cause := 0x0A, tmask := tm, fpc := fpc.toNat }
      | .acc _ _ _ _ _ _ => updSp s r fun p => accStRead p id
      | _ => s
    | none => s
  | _, _ => s

/-! ## Arbitration (R30, R80, R82, R340, R360, R419) -/

/-- A list of numbers comes before another: the first difference decides. -/
def lexBefore : List Nat → List Nat → Bool
  | a :: as, b :: bs => decide (a < b) || (a == b && lexBefore as bs)
  | _, _ => false

/-- The first entry of a list with the least key. -/
def firstBy {α : Type} (key : α → List Nat) : List α → Option α
  | [] => none
  | x :: r => match firstBy key r with
    | none => some x
    | some y => if lexBefore (key y) (key x) then some y else some x

/-- The resource that a fragment's next word needs (R80): its quarter's uniform unit or branch unit, or its home lane. -/
def resourceOf (t : Team) (p : Spindle) (w : IWord) : Nat × Nat × Nat × Nat :=
  let m := jMaj w
  if (jUnpack w).uni then (t.die, t.core, 1, quarterOf p.spx)
  else if m ≤ 0x07 ∨ m = 0x09 then (t.die, t.core, 2, quarterOf p.spx)
  else (t.die, t.core, 3, p.spx % 64)

/-- A fragment that contends: the resource it needs and its place in the order of R82. DESIGN CHOICE: between spindles of one
home lane that are alike in all that R82 names, on the uniform or the branch unit, the lower spindle index comes first (log 111). -/
def contends (s : State) (r : FragRef) : Option (FragRef × (Nat × Nat × Nat × Nat) × List Nat) :=
  match findTeam s r.sp.team, findSp s r.sp, findFrag s r with
  | some t, some p, some f =>
    match f.fetched with
    | none => none
    | some w =>
      if mayStart s t p f then
        let late := 2 ^ 64 - f.readyFor
        let aged := f.aged || decide (32 ≤ f.readyFor)
        some (r, resourceOf t p w, [if aged then 0 else 1, if aged then late else 3 - p.cls, late,
          if (resourceOf t p w).2.2.1 = 3 then p.spx / 64 else p.spx % 64, p.spx, lowestThread p f.id])
      else none
  | _, _, _ => none

/-- Of the fragments that the timing lets start, the resource of the first that is ready takes the one that R82 puts first;
where none is known to be ready, the first of the list tries again. -/
def pickFrag (s : State) (rs : List FragRef) : Option FragRef :=
  match rs.filterMap (contends s) with
  | [] => rs.head?
  | x :: r => (firstBy (fun e => e.2.2) (x :: r.filter fun e => e.2.1 == x.2.1)).map (·.1)

/-- The place of a context in the order of R360: the context that issued least recently has the least `used`. -/
def pickCtx (s : State) (u : Nat) (cs : List Nat) : Option Nat :=
  let ready := (cs.filterMap fun c => findCtx s u c).filter (ctxReady s)
  match firstBy (fun (x : Ctx) => [if x.aged || decide (256 ≤ x.readyFor) then 0 else 1, 255 - x.prio, x.used, x.c]) ready with
  | some x => some x.c
  | none => cs.head?

/-- The queue that the Lathe serves of all that have a packet ready to begin (R419): one that has been ready for 100 µs is aged. -/
def pickQueue (s : State) : Option Nat :=
  let aged := fun (x : Queue) => x.aged || decide (120000 ≤ x.readyFor)
  (firstBy (fun (x : Queue) => [if aged x then 0 else 1, if aged x then 2 ^ 64 - x.readyFor else 2 ^ 32 - x.prio, x.n])
    (s.queues.filter (queueReady s))).map (·.n)

/-! ## A turn -/

/-- What a turn leads to. -/
def prepare (t : Turn) (s : State) : Prep :=
  match t with
  | .issue rs => (pickFrag s rs).elim (.done s) (prepIssue s)
  | .luanil u cs => (pickCtx s u cs).elim (.done s) (prepLuanil s u)
  | .packet => (pickQueue s).elim (.done s) (prepPacket s)
  | .event i => if isEvent i then .run i { s with cur := .none } else .done s
  | .tick n => .done (tick s n)
  | .l1Evict d c x => .done (l1Evict s d c x)
  | .complete r id => .done (completeForm s r id)
  | .accPart r id => .done (accPart s r id)
  | .copyPart r id => .done (copyPart s r id)
  | .retry => .done (answerSends (retryPrefs (retryEntries s)))
  | .softError e => .done (softError s e)
  | .part r id m => .done (partTurn s r id m)
  | .bringUp b => .done (bringUp s b)
  | .microcode => .done (checkMicrocode s)

/-! ## Placing a word (log 7) -/

/-- The fragment that a placed Jolisol word is fetched into. -/
def placedRef : FragRef := { sp := { team := 0, spx := 0 }, frag := 0 }

/-- Its fragment: all eight threads, the word fetched. -/
def placedFrag (x : IWord) : Frag :=
  { id := 0, mask := 0xFF, pc := 0, join := none, st := .ready, fetched := some x, replay := none, onChip := true, aged := false,
    readyFor := 0, waited := 0, stall := none, used := 0, since := 0 }

/-- Its spindle, as a launch would leave it: 256 v registers, MODE as Table 5-5 starts it, everything else zero. -/
def placedSpindle (x : IWord) : Spindle :=
  { (default : Spindle) with allot := 256, mode := 1, gmap := List.range 32, live := 0xFF, frags := [placedFrag x] }

/-- Its team, on die 0's mesh core 0. -/
def placedTeam (x : IWord) : Team := { (default : Team) with st := .resident, spindles := [placedSpindle x] }

/-- A Jolisol word, fetched by a fragment that issues next. -/
def placeJolisol (s : State) (x : IWord) : State :=
  { s with teams := placedTeam x :: s.teams.filter (fun t => t.id != 0), turns := [.issue [placedRef]] }

/-- A Luanil word at address 1,024 of the program store, for context 0 of port unit 0, which runs next. -/
def placeLuanil (s : State) (x : BitVec 64) : State :=
  let c : Ctx := { (default : Ctx) with owner := .window 0, first := 1024, len := 1, pc := 1024, nc := 1 }
  { s with store := mset s.store 1024 x, ctxs := c :: s.ctxs.filter (fun y => !(y.unit == 0 && y.c == 0)), turns := [.luanil 0 [0]] }

/-- A packet's words, fetched by queue 0, which is armed, at the start of its ring; its turn is next. -/
def placePacket (s : State) (ws : List Word) : State :=
  let l : Level := { base := 0, len := 4096, pos := 0, blocks := [], skip := none }
  let x : Queue := { (default : Queue) with armed := true, size := 4096, wp := 4 * ws.length, levels := [l],
                                            words := ws.mapIdx fun i w => (0, 4 * i, w) }
  { s with queues := x :: s.queues.filter (fun y => y.n != 0), turns := [.packet] }

/-- The instruction of `nbits` bits, placed for the stream whose decoder takes it, as decodeTableWord asks them; every
function is brought up (READY bits 0-15, R479). -/
def placeWord (s : State) (nbits w : Nat) : State :=
  let s := { s with ready := 0xFFFF }
  if nbits = 96 ∧ (exceptOpt (decodeJolisol (BitVec.ofNat 96 w))).isSome then placeJolisol s (BitVec.ofNat 96 w)
  else if nbits = 64 ∧ (exceptOpt (decodeLuanil (BitVec.ofNat 64 w))).isSome then placeLuanil s (BitVec.ofNat 64 w)
  else placePacket s (tablePacket (if nbits = 96 then 3 else if nbits = 64 then 2 else (nbits + 31) / 32) w)

end Sys2Proof.Machine
end

