-- ==== Sys2Proof/Machine/Step.lean ====
section
/-! DEFINITION. Sys2Proof/Machine/Step.lean: one step: the next turn is taken, what it leads to is prepared, and the
instruction it runs, if any, is executed. -/

namespace Sys2Proof.Machine

open Sys2Proof

/-- The turn to take: the next listed one, else the free value of the turn counter (log 1). -/
def nextTurn (s : State) : Turn := s.turns.headD (Config.freeTurn s.turnNo)

/-- The state as a turn is taken. -/
def takeTurn (s : State) : State := { s with turns := s.turns.tail, turnNo := s.turnNo + 1, cur := .none }

/-- One step. -/
def step (s : State) : Host.Outcome State Fault Refusal :=
  match prepare (nextTurn s) (takeTurn s) with
  | .run i s' => exec i s'
  | .done s' => .next s'

/-- `s` with an instruction placed where the next step fetches it (log 7). -/
def State.withFetchWord (s : State) (nbits w : Nat) : State := placeWord s nbits w

end Sys2Proof.Machine
end

