-- ==== Sys2Proof/Safety.lean ====
section
/-! DEFINITION. Sys2Proof/Safety.lean: what counts as a safe run, and the terms in which claims are made: what an issue
leaves alone, the registers it writes, the state it leads to. -/

namespace Sys2Proof.Machine

open Sys2Proof

/-- A state steps on. -/
def StepsOn (s : State) : Prop := ∃ t, step s = .next t

/-- The canonical form of the package's memory (log 3). -/
abbrev Memory.wf (s : State) : Prop := mwf s.mem = true

/-- `i` issues at `s` for the acting fragment: every check of R70 has passed, and `x` is what it finds there. -/
def Issues (i : Instr) (k : IssCls) (s : State) (x : Iss) : Prop := prologue i k s = .go x

/-- A state whose requests for line tokens, and what a die's L2 or an L1 gave up for them, are those of `s` (R194, R198). -/
def tokensOf (s t : State) : State :=
  { t with reqs := s.reqs, msgs := s.msgs, toks := s.toks, l1c := s.l1c, freeNo := s.freeNo, errLog := s.errLog, errCount := s.errCount }

/-- A state whose caches, and the data that left an L1 to make room, are those of `s` (R189, R218). -/
def cachesOf (s t : State) : State :=
  { tokensOf s t with l1 := s.l1, l1Keep := s.l1Keep, tlb := s.tlb, prefs := s.prefs, mem := s.mem, lineOwner := s.lineOwner, badSec := s.badSec }

/-- Everything outside one spindle is as it was: memory and every other agent, every other team and spindle, and its own
team but for the ports, which streams move. -/
def KeepsOthers (s t : State) (r : SpRef) : Prop :=
  { t with teams := s.teams, nextId := s.nextId } = s ∧
  (∀ m, m ≠ r.team → findTeam t m = findTeam s m) ∧
  (∀ q, q ≠ r → findSp t q = findSp s q) ∧
  ∀ a b, findTeam s r.team = some a → findTeam t r.team = some b → { b with spindles := a.spindles, ports := a.ports } = a

/-- Bookkeeping of the issue that no instruction reads back: open windows, latches, the hold on the chuck, fragments, a
debugger's step. -/
def sameArch (p q : Spindle) : Prop :=
  { p with pend := q.pend, latchA := q.latchA, latchB := q.latchB, held := q.held, frags := q.frags, stepFrag := q.stepFrag } = q

/-- The issuing fragment goes on at `pc`, or behind the window it executes again for (R58); the others are as they were. -/
def Moved (x : Iss) (pc : BitVec 64) (p : Spindle) : Prop :=
  (∃ f, p.frag? x.r.frag = some f ∧ f.pc = x.f.replay.getD pc ∧ f.mask = x.f.mask ∧ f.st = .ready ∧ f.fetched = none) ∧
  ∀ k, k ≠ x.r.frag → p.frag? k = x.p.frag? k

/-- The state after the issue of `x`, which goes on at `pc`: its spindle is `q` but for bookkeeping, the groups it popped are
consumed, and its open windows hold `new` beside the ones that were open (R55, R208). -/
def After (x : Iss) (pc : BitVec 64) (q : Spindle) (new : List Pend) (t : State) : Prop :=
  KeepsOthers x.s t x.r.sp ∧
  (∀ b, findTeam t x.r.sp.team = some b → b.ports = (popStep x.t x.pops).ports) ∧
  ∃ p, findSp t x.r.sp = some p ∧ sameArch p q ∧ p.pend = (x.windows x.p).pend ++ new ∧ Moved x pc p

/-- `n` registers named by a destination field hold `f` of each thread; no other register changes (Table 2-2). An s
register is written once per thread of the list, so that the last one's value stays. -/
def RegsWritten (p q : Spindle) (d : BitVec 10) (n : Nat) (ths : List Nat) (f : Nat → BitVec 128) : Prop :=
  match opnd d with
  | .v r => q.s = p.s ∧ ∀ k t, t < 8 → vget q k t =
      if t ∈ ths ∧ r ≤ k ∧ k < r + n then (f t).extractLsb' (32 * (k - r)) 32 else vget p k t
  | .s r => q.v = p.v ∧ ∀ k, sget q k =
      match ths.getLast? with
      | some t => if r ≤ k ∧ k < r + n then (f t).extractLsb' (32 * (k - r)) 32 else sget p k
      | none => sget p k
  | _ => q.v = p.v ∧ q.s = p.s

/-- Element `t` of v register `k` is among those that a destination field of `n` registers writes for a list of threads. -/
def Writes (d : BitVec 10) (n : Nat) (ths : List Nat) (k t : Nat) : Prop := ∃ r, opnd d = .v r ∧ t ∈ ths ∧ r ≤ k ∧ k < r + n

/-- A spindle that differs from `p` only as registers have been written (R47), a written element with new ECC (R205). -/
def OnlyRegs (p q : Spindle) (d : BitVec 10) (n : Nat) (ths : List Nat) (f : Nat → BitVec 128) : Prop :=
  RegsWritten p q d n ths f ∧ sameArch { q with v := p.v, s := p.s, badV := p.badV } p ∧
  ∀ k t, t < 8 → (8 * k + t ∈ q.badV ↔ 8 * k + t ∈ p.badV ∧ ¬Writes d n ths k t)

/-- Predicate `n` of the threads of a list is `f` of the thread; no other predicate changes. -/
def PredWritten (p q : Spindle) (n : Nat) (ths : List Nat) (f : Nat → Bool) : Prop :=
  ∀ k t, t < 8 → k < 48 → pget q k t = if t ∈ ths ∧ k = n then f t else pget p k t

/-- The window that a long-latency computing form opens, which keeps its conditions for its completion (R147): none for a short
form (R55). One that executes again opens what it had left (R58). -/
def OpensWindow (x : Iss) (fl : Flg) (new : List Pend) : Prop :=
  if x.sp.long then ∃ e, new = [e] ∧ e.complete = false ∧ e.kind = .compute fl ∧ e.frag = x.r.frag ∧
    e.left = x.w.la.toNat - replayW x.f ∧ e.rd = jReads x.w x.sp ∧ e.wr = jWrites x.w x.sp
  else new = []

/-- The accesses of the group that a form pushes: its threads' elements at the addresses checked for them (R209). -/
def pushedAccs (x : Iss) (rs : List (Want × List (Nat × Nat × Loc))) (f : Nat → BitVec 128) : List Acc :=
  pushAccs rs (x.threads.map fun t => (t, f t))

/-- A group of eight elements may be pushed to store stream `q`, whose addresses `rs` have been checked (R209, R210). -/
def PushAccepted (x : Iss) (q : Nat) (rs : List (Want × List (Nat × Nat × Loc))) (f : Nat → BitVec 128) : Prop :=
  ∃ y, x.t.port q = some y ∧ 8 * y.pos < y.total ∧ checkAll x.s x.t x.p.spx .store (y.wants y.pos) = .ok rs ∧ y.full = false ∧
    x.ctrStops (pathsOf false (pushedAccs x rs f)) = false

/-- The state after a push: the port holds one more group, with the value `f t` for thread t's element; of the spindle no
register changes, and the rest is as `eff` leaves it but for the counters that the group raises. -/
def Pushed (x : Iss) (c : Nat) (rs : List (Want × List (Nat × Nat × Loc))) (f : Nat → BitVec 128) (eff : Spindle → Spindle) (t : State) : Prop :=
  KeepsOthers x.s t x.r.sp ∧
  (∃ b y z, findTeam t x.r.sp.team = some b ∧ x.t.port c = some y ∧ b.port c = some z ∧ z.pos = y.pos + 1 ∧
    z.pushed = y.pushed ++ [(x.s.nextId, pushedAccs x rs f)]) ∧
  ∃ p, findSp t x.r.sp = some p ∧ sameArch { p with ctr := (eff x.p).ctr } (eff x.p) ∧ Moved x x.nextPc p

/-- A computing form comes to its end (R47, R49, R55, R147, R209): `eff` says what it does beyond its result, and `fl` its
conditions, which enter MODE.FLG now or with the window's completion; with the destination a register, or none, its threads'
registers hold `f`; with a store stream, an accepted group is pushed. -/
def LaneDone (x : Iss) (n : Nat) (f : Nat → BitVec 128) (eff : Spindle → Spindle) (o : Out) (fl : Flg := 0) : Prop :=
  match pushPort x.w x.sp with
  | none => ∃ t q new, o = .next t ∧ OnlyRegs (if x.sp.long then eff x.p else raiseFlags fl (eff x.p)) q x.w.d n x.threads f ∧
      OpensWindow x fl new ∧ After x x.nextPc q new t
  | some c => ∀ rs, x.tp ≠ 0 → PushAccepted x c rs f → ∃ t, o = .next t ∧
      Pushed x c rs f (fun p => if x.sp.long then eff p else raiseFlags fl (eff p)) t ∧
      (x.sp.long = true → ∃ p e, findSp t x.r.sp = some p ∧ e ∈ p.pend ∧ e.complete = false ∧ e.kind = .compute fl ∧
        e.frag = x.r.frag ∧ e.left = x.w.la.toNat - replayW x.f ∧ e.rd = jReads x.w x.sp)

/-- A spindle that differs from `p` only in predicate `n` of the threads of a list, which is `f` of the thread. -/
def OnlyPred (p q : Spindle) (n : Nat) (ths : List Nat) (f : Nat → Bool) : Prop :=
  PredWritten p q n ths f ∧ sameArch { q with p := p.p } p

/-- A form without a register result comes to its end: the spindle is `q` but for bookkeeping. -/
def EndsWith (x : Iss) (pc : BitVec 64) (R : Spindle → Prop) (o : Out) : Prop :=
  ∃ t q, o = .next t ∧ R q ∧ After x pc q [] t

/-- Element `e` of a value, for elements of `w` bits. -/
def elemBits (x : BitVec 128) (w e : Nat) : Nat := natBits x.toNat (w * e) w

/-- The unsigned value that a source field of `n` registers supplies to a thread. -/
def Iss.num (x : Iss) (fld : BitVec 10) (n : Nat) (sgn : Bool) (t : Nat) : Nat := (x.src fld n sgn t).toNat

/-- C of a register form, 0 in the immediate form. -/
def Iss.numC (x : Iss) (n : Nat) (sgn : Bool) (t : Nat) : Nat := if jImm x.w then 0 else x.num (jC x.w) n sgn t

/-- A form issues and stays pending (R55, R204): the spindle is `q` but for bookkeeping, and its new entry is `e`. -/
def StaysPending (x : Iss) (pc : BitVec 64) (R : Spindle → Prop) (P : Pend → Prop) (o : Out) : Prop :=
  ∃ t q e, o = .next t ∧ R q ∧ P e ∧ After x pc q [e] t

/-- The contributions of a gang's members to the rendezvous of their k-th gang instructions, by gang thread index (R130). -/
def gangParts (ms : List (Nat × Spindle)) (k : Nat) : List (Nat × Word × Word) :=
  ms.flatMap fun e => match gangPend e.2 k with
    | some (_, _, c) => c.map fun c => (8 * e.1 + c.1, c.2)
    | none => []

/-- The nesting counters of a fragment's live threads become `n` and nothing else of its spindle changes (R91). -/
def NestDone (x : Iss) (n : Nat → Nat) (pc : BitVec 64) (o : Out) : Prop :=
  EndsWith x pc (fun q => sameArch { q with nest := x.p.nest } x.p ∧
    ∀ t, t < 8 → nestOf q t = if (liveIn x.p x.f).getLsbD t then n t else nestOf x.p t) o

/-- Some live thread of the fragment has a counter of 0 after the change. -/
def anyZero (x : Iss) (n : Nat → Nat) : Bool := (threadsOf (liveIn x.p x.f)).any fun t => n t == 0

/-- The OR of the conditions of the threads of a list (R147). -/
def allFlags (ths : List Nat) (f : Nat → Nat × Flg) : Flg := ths.foldl (fun a t => a ||| (f t).2) 0

/-- A float form none of whose conditions is enabled comes to its end: its result, its conditions in MODE.FLG, and the
generators as they are after it (R147, R150). -/
def FloatDone (x : Iss) (n : Nat) (f : Nat → Nat × Flg) (gen : SMap 32) (o : Out) : Prop :=
  LaneDone x n (fun t => BitVec.ofNat 128 (f t).1) (fun p => { p with gen := gen }) o (allFlags x.threads f)

/-- No thread raises a condition that MODE enables (R147). -/
def Quiet (x : Iss) (f : Nat → Nat × Flg) : Prop := ∀ t ∈ x.threads, (f t).2 &&& modeEn x.p.mode = 0

/-- The operand of a thread as a real number, infinity or NaN, after the input flush of MODE. -/
def Iss.real (x : Iss) (F : Fmt) (fld : BitVec 10) (k t : Nat) : FV :=
  F.source (modeFtzi x.p.mode) (natBits (x.src1 fld t).toNat (F.width * k) F.width)

/-- A spindle on which an issue raises one in-flight counter and changes nothing else (R203). -/
def Raised (x : Iss) (c : Nat) (q : Spindle) : Prop :=
  sameArch { q with ctr := x.p.ctr } x.p ∧ ∀ k, ctrOf q k = ctrOf x.p k + if k = c then 1 else 0

/-- An instruction of the memory class issues and stays pending (R204, R217): nothing of its spindle changes but the in-flight
counters of its accesses' paths, each one higher; its entry holds its accesses; tokens may have been asked for. -/
def Launched (x : Iss) (k : PendKind) (ld complete : Bool) (acq rel : Option Nat) (accs : List Acc) (o : Out) : Prop :=
  ∃ t q e, o = .next t ∧ After x x.nextPc q [e] (tokensOf x.s t) ∧
    sameArch { q with ctr := x.p.ctr } x.p ∧ (∀ c, ctrOf q c = ctrOf x.p c + if c ∈ pathsOf ld accs then 1 else 0) ∧
    e.kind = k ∧ e.complete = complete ∧ e.acq = acq ∧ e.rel = rel ∧ e.accs = accs ∧ e.tmask = x.tp ∧ e.frag = x.r.frag ∧ e.pc = x.f.pc

/-- A pending instruction is complete and done on every path it still counts on, or forgotten (R204). -/
def Done (q : Spindle) (id : Nat) : Prop := ∀ y ∈ q.pend, y.id = id → y.complete = true ∧ y.accs = [] ∧ ∀ e ∈ y.paths, e.2 = true

/-- What performing a pending instruction's accesses comes to, thread by thread, behind the mark of a narrow release (R216, R217,
R231, R242). -/
def performed (s : State) (r : SpRef) (t : Team) (p : Spindle) (x : Pend) : Work :=
  let s := match x.rel with
    | some sc => updSp s r (fenceOff (((before p x.id).filter pendOpen).map (·.id)) sc)
    | none => s
  (byThread x.accs).foldl (workStep r t p x) { s := coverStore s r t p x, left := [], got := x.got, bad := none }

/-- The byte at a place, `k` bytes on, as memory or a scratchpad holds it. -/
def locByte (s : State) (l : Loc) (k : Nat) : Byte :=
  match l with
  | .scratch tm off => ((findTeam s tm).map fun u => mget u.scratch (off + k)).getD 0
  | .mem pa owner _ _ _ _ => memByte s owner (pa + k)
  | .win _ _ _ _ => 0

/-- A core's L1 holds nothing but good, clean copies of what memory holds. -/
def L1Clean (s : State) (t : Team) : Prop :=
  ∀ y ∈ s.l1, ofCore t.die t.core y = true → y.dirty = false ∧ y.bad = false ∧ y.data = memBytes s y.owner y.sec 32

/-- Two ranges of bytes, of one owner's memory or of scratchpads, have no byte in common. -/
def Apart (l : Loc) (n : Nat) (l' : Loc) (n' : Nat) : Prop :=
  match l, l' with
  | .scratch t o, .scratch u o' => t = u → o + n ≤ o' ∨ o' + n' ≤ o
  | .mem pa owner _ _ _ _, .mem pa' owner' _ _ _ _ => owner = owner' ∧ (pa + n ≤ pa' ∨ pa' + n' ≤ pa)
  | _, _ => True

/-- A place whose bytes an engine of a team's core finds in memory or a scratchpad, and good: of HBM no private data, nor data that
the core's L1 holds a copy of. -/
def PlainLoc (s : State) (t : Team) (l : Loc) (n : Nat) : Prop :=
  match l with
  | .scratch tm off => ∃ u, findTeam s tm = some u ∧ scratchBad u off n = false
  | .mem pa owner cls pte _ _ => pageDiscarded s pte = false ∧
      (isHbm pa = false → sysUp s pa = true ∧ memBad s pa n = false) ∧
      (isHbm pa = true → homeLost s pa = false ∧ cls ≠ .priv ∧ memBad s (sectorOf pa) 32 = false ∧ l1Find s t.die t.core pa owner = none)
  | .win _ _ _ _ => False

/-- A form goes on, its spindle as it was. -/
def GoesOn (x : Iss) (o : Out) : Prop := EndsWith x x.nextPc (fun q => q = x.p) o

/-- A dispense form comes to its end: the state is `s'` but for its spindle, whose registers named by D hold `v`, and its entry, for
which entry writes may wait, keeps an acquire open at the scope `acq` until it completes (R312, R320, R321). -/
def DispenseDone (x : Iss) (s' : State) (n : Nat) (v : BitVec 128) (acq : Option Nat) (o : Out) : Prop :=
  ∃ t q e, o = .next t ∧ OnlyRegs x.p q x.w.d n [0] (fun _ => v) ∧ e.id = x.s.nextId ∧ e.complete = false ∧ e.acq = acq ∧
    After { x with s := s' } x.nextPc q [e] t

/-- A form that raises gst and is done once its entries are written comes to its end, from `s'`: of its spindle only predicates,
as `R` says, and the counter change (R322, R324). -/
def EntryDone (x : Iss) (s' : State) (complete : Bool) (R : Spindle → Prop) (o : Out) : Prop :=
  ∃ t q e, o = .next t ∧ R q ∧ sameArch { q with p := x.p.p, ctr := x.p.ctr } x.p ∧ ctrOf q 1 = ctrOf x.p 1 + 1 ∧ e.id = x.s.nextId ∧ e.kind = .dispense ∧
    e.complete = complete ∧ After { x with s := s' } x.nextPc q [e] t

/-- COLL and PROGV come to their end, from `s'`: of the spindle only what `R` says and the counter col change (R350, R351). -/
def ColDone (x : Iss) (s' : State) (complete : Bool) (addr : Nat) (R : Spindle → Prop) (o : Out) : Prop :=
  ∃ t q e, o = .next t ∧ R q ∧ sameArch { q with v := x.p.v, s := x.p.s, ctr := x.p.ctr } x.p ∧ ctrOf q 6 = ctrOf x.p 6 + 1 ∧ e.kind = .coll addr ∧
    e.complete = complete ∧ After { x with s := s' } x.nextPc q [e] t

/-- `x` is the context that acts. -/
def Acts (s : State) (x : Ctx) : Prop := s.cur = .ctx x.unit x.c ∧ findCtx s x.unit x.c = some x

/-- A context goes on at an address as `y`; the other contexts, and the rest of the state, are those of `s'`. -/
def CtxGoes (s' : State) (x : Ctx) (pc : Nat) (y : Ctx) (o : Out) : Prop :=
  ∃ t, o = .next t ∧ { t with ctxs := s'.ctxs } = s' ∧
    findCtx t x.unit x.c = some { y with pc := pc % 4096, readyFor := 0, aged := false, used := s'.turnNo } ∧
    ∀ u c, (u, c) ≠ (x.unit, x.c) → findCtx t u c = findCtx s' u c

/-- A slot that an instruction may use at once: in the context's range, and mapped or with a physical slot free (R356). -/
def SlotReady (s : State) (x : Ctx) (v : Nat) : Prop := v < x.sc ∧ ((lookSlot x.slots v).isSome = true ∨ slotsUsed s < 256)

/-- What a slot holds, mapped or in its image, and the context with it mapped. -/
def slotOf (s : State) (x : Ctx) (v : Nat) : Option Slot := (lookSlot x.slots v).or ((lookSlot x.saved v).map (readImage s x v))
def mapped (x : Ctx) (v : Nat) (y : Slot) : Ctx := if (lookSlot x.slots v).isSome then x else setSlot v y x

/-- A slot's checksum and residue are good (R374). -/
def Slot.good (y : Slot) : Prop := sumOf y.valid = y.sum ∧ y.residue = false

/-- A spindle has entered its team's handler for the trap of a record in fragment `i` (R389): TREC holds the record, EPC the
instruction's address or, after TRAP, the next one, ENEST the live threads' nesting counters, which become 0; TLV is set and the
fragment is ready at THND; registers, predicates and MODE stay. -/
def InHandler (thnd : BitVec 64) (p q : Spindle) (i : Nat) (r : TrapRec) : Prop :=
  q.tlv = true ∧ q.hfrag = i ∧ (∀ k < 64, mget q.trec k = (recBytes r).getD k 0) ∧ q.epc = (if r.cause = 0x0C then r.pc + 12 else r.pc) ∧
    q.epcW = r.info0.toNat % 16 ∧ q.v = p.v ∧ q.s = p.s ∧ q.p = p.p ∧ q.mode = p.mode ∧ q.live = p.live ∧ q.sav = p.sav ∧ q.entv = p.entv ∧
    ∀ f, p.frag? i = some f → (∀ t, t < 8 → nestOf q t = if (liveIn p f).getLsbD t then 0 else nestOf p t) ∧
      (∀ t, t < 8 → (liveIn p f).getLsbD t = true → (q.enest.extractLsb' (6 * t) 6) = mget p.nest t) ∧
      ∃ g, q.frag? i = some g ∧ g.pc = thnd ∧ g.st = .ready ∧ g.mask = f.mask

/-- A mesh core's spindle that is stopped for a firmware trap, as SACT names it (R392), and its record. -/
def Stopped (s : State) (die core spx : Nat) (t : Team) (p : Spindle) (r : TrapRec) : Prop :=
  core < 64 ∧ teamOnCore s die core = some t ∧ findTeam s t.id = some t ∧ t.spindle? spx = some p ∧ p.st = .fwStopped r

/-- The system registers that every level may read (Table 14-7), with what they hold. -/
def userRegs : List (Nat × (State → Team → Spindle → BitVec 64)) :=
  [(0x00, fun _ t _ => t.thnd), (0x01, fun _ t _ => t.stkb), (0x02, fun _ t _ => t.stks.setWidth 64), (0x08, fun _ _ p => p.epc),
   (0x09, fun _ _ p => p.enest), (0x0C, fun _ _ p => (mget p.sav 0).setWidth 64), (0x0D, fun _ _ p => (mget p.sav 1).setWidth 64),
   (0x0E, fun _ _ p => (mget p.sav 2).setWidth 64), (0x0F, fun _ _ p => (mget p.sav 3).setWidth 64),
   (0x10, fun _ _ p => ofBytes 64 (mgetList p.trec 0 8)), (0x11, fun _ _ p => ofBytes 64 (mgetList p.trec 8 8)),
   (0x12, fun _ _ p => ofBytes 64 (mgetList p.trec 16 8)), (0x13, fun _ _ p => ofBytes 64 (mgetList p.trec 24 8)),
   (0x14, fun _ _ p => ofBytes 64 (mgetList p.trec 32 8)), (0x15, fun _ _ p => ofBytes 64 (mgetList p.trec 40 8)),
   (0x16, fun _ _ p => ofBytes 64 (mgetList p.trec 48 8)), (0x17, fun _ _ p => ofBytes 64 (mgetList p.trec 56 8)), (0x20, fun _ _ p => p.entv),
   (0x21, fun _ _ p => BitVec.ofNat 64 (p.allot % 1024 + p.cls % 4 * 2 ^ 16 + p.role % 4 * 2 ^ 24)), (0x22, fun _ _ p => if p.tlv then 1 else 0),
   (0x30, fun s _ _ => s.cycle), (0x40, fun _ _ p => mget p.stats 0x40), (0x41, fun _ _ p => mget p.stats 0x41),
   (0x42, fun _ _ p => mget p.stats 0x42), (0x43, fun _ _ p => mget p.stats 0x43), (0x44, fun _ _ p => mget p.stats 0x44),
   (0x45, fun _ _ p => mget p.stats 0x45), (0x46, fun _ _ p => mget p.stats 0x46),
   (0x48, fun s t p => ((findDie s t.die).map fun d => mget d.splsp (4 * t.core + quarterOf p.spx)).getD 0)]

/-- The registers of the firmware core's own die (Table 14-7); SACT and FRSV read as 0. -/
def dieRegs : List (Nat × (Die → BitVec 64)) :=
  [(0x100, fun d => d.ftqb), (0x101, fun d => d.ftqn.setWidth 64), (0x102, fun d => d.wdog.setWidth 64), (0x103, fun _ => 0), (0x104, fun _ => 0), (0x105, fun d => d.trtb),
   (0x106, fun d => d.pmap), (0x107, fun d => d.ecccnt)]

/-- Queue `x` executes a packet of `n` bytes (R420). -/
def Runs (s : State) (x : Queue) (n : Nat) : Prop := s.cur = .queue x.n n ∧ findQueue s x.n = some x

/-- Outside memory and the queues, a state is another (the line tokens and copies that a write moves apart). -/
def SameAgents (s t : State) : Prop :=
  t.teams = s.teams ∧ t.grids = s.grids ∧ t.dies = s.dies ∧ t.lathe = s.lathe ∧ t.wins = s.wins ∧ t.grps = s.grps ∧ t.insts = s.insts ∧
  t.ctxs = s.ctxs ∧ t.store = s.store ∧ t.cycle = s.cycle ∧ t.ready = s.ready

/-- A packet of `n` bytes takes effect (R420): `s'` is the state with its effect on everything but its own queue's levels, which
become as `f` leaves them and move on by `n`; of memory only RP of its QCB changes, and it follows where no loop is open (R417). -/
def PacketEnds (s' : State) (x : Queue) (n : Nat) (f : Level → Level) (o : Out) : Prop :=
  ∃ t y, o = .next t ∧ findQueue t x.n = some y ∧ y.armed = x.armed ∧ y.waiting = none ∧
    y.levels = (updLevel (fun l => { f l with pos := (f l).pos + n }) x).levels ∧
    (∀ l, y.levels = [l] → l.blocks.any (·.isSome) = false → y.rp = l.pos) ∧
    (∀ k, k ≠ x.n → findQueue t k = findQueue s' k) ∧ SameAgents s' t ∧
    (s'.lathe.lqtb.toNat % 4096 = 0 → ∀ a, a < qcbAt s' x.n 0x10 ∨ qcbAt s' x.n 0x18 ≤ a → mget t.mem a = mget s'.mem a)

/-- A packet stops its queue with an error (R431): it is armed no more, its position stays, and its QCB holds STATE 2 and the
error. -/
def QueueStops (s : State) (x : Queue) (err : Nat) (o : Out) : Prop :=
  ∃ t y, o = .next t ∧ findQueue t x.n = some y ∧ y.armed = false ∧ y.stopped = true ∧ y.waiting = none ∧ y.levels = x.levels ∧ y.rp = x.rp ∧
    (∀ k, k ≠ x.n → findQueue t k = findQueue s k) ∧ SameAgents s t ∧
    (s.lathe.lqtb.toNat % 4096 = 0 → x.trb = 0 → qcb32 t x.n 0 = 2 ∧ qcb32 t x.n 4 = BitVec.ofNat 32 err)

/-- What every step keeps of the package's own data: memory in its canonical form (log 3), the addresses and the slice length
that their registers' checks let in (R356, R415), and identifiers that lie below the next one (log 6). -/
structure StateInv (s : State) : Prop where
  mem   : Memory.wf s
  lqtb  : s.lathe.lqtb.toNat % 4096 = 0
  slice : 100 ≤ s.lathe.lslice.toNat ∧ s.lathe.lslice.toNat ≤ 100000
  save  : s.saveBase.toNat % 2 ^ 21 = 0
  ids   : ∀ g ∈ s.grids, g.id < s.nextId

/-- R195: every line's 16 line tokens are with its home, with one other holder each, or in messages, and none is created or
lost; at most one of them is the owner token outside the home; whoever has it, and every message that carries it to a holder, has
the data. -/
structure TokensKept (s : State) : Prop where
  total : ∀ l, homeTok s l + heldTok s l + flightTok s l = 16
  owner : ∀ l, (s.toks.filter fun x => x.line == l && x.owner).length + (s.msgs.filter fun m => (msgTok l m.body).2).length ≤ 1
  data  : ∀ x ∈ s.toks, x.owner = true → x.valid = true
  sent  : ∀ m ∈ s.msgs, ∀ l h n v, m.body = .tok l h n true v → v = true
  away  : ∀ x ∈ s.toks, x.h ≠ .home ∧ x.n ≠ 0
  once  : (s.toks.map fun x => (x.h, x.line)).Nodup

/-- A fragment is about to issue `i`, whose class is `k`: it is ready, and its windows let it (R55, R57, R81); `x` is what its
issue finds before its checks. -/
def AtIssue (i : Instr) (k : IssCls) (s : State) (x : Iss) : Prop :=
  ∃ r word t p f w sp, s.cur = .frag r word ∧ findTeam s r.sp.team = some t ∧ findSp s r.sp = some p ∧ findFrag s r = some f ∧
    jspec (nscOf p i) i = some (w, sp) ∧ fragReady s t p f = true ∧ windowLets p f (k.named w sp) = true ∧ x = issOf s r word w sp t p f

end Sys2Proof.Machine
end

