-- ==== Sys2Proof/Certificates/Slice0/Obligations.lean ====
section
/-! DEFINITION. Sys2Proof/Certificates/Slice0/Obligations.lean: the statements for the provers. An issue of an instruction is
`Issues` (Sys2Proof/Safety.lean): every check of R70 has passed; what `LaneDone`, `EndsWith`, `After` and their like say of the
next state holds its frame: memory, every other agent, spindle and register as before, but for what the form names. -/

open Sys2Proof Sys2Proof.Machine

/-- R435, R479, R483, Table 15-1, Table 14-7: the state right after reset: no READY bit set, no queue armed, no launch, window, program or record, the
timestamp at 0, LSLICE at 2000 µs, every die's clock at 1,200 MHz; values that the spec does not give are the model's (log 4). -/
def Obligations.ResetState : Prop :=
  State.reset.cycle = 0 ∧ State.reset.ready = 0 ∧ State.reset.coming = 0 ∧ State.reset.queues = [] ∧ State.reset.grids = [] ∧ State.reset.teams = [] ∧
  State.reset.wins = [] ∧ State.reset.insts = [] ∧ State.reset.progs = [] ∧ State.reset.errCount = 0 ∧ State.reset.lathe.lslice = 2000 ∧
  State.reset.lathe.lustat = 0 ∧ State.reset.lathe.lqtb = 0 ∧ State.reset.dies.length = 8 ∧
  (∀ d ∈ State.reset.dies, d.clock = 1200 ∧ d.lost = false ∧ d.ert = [] ∧ d.fwCore = 64 ∧ d.exdir = 0) ∧
  (∀ a, mget State.reset.mem a = 0) ∧ (∀ l, tokCount State.reset .home l = 16 ∧ tokOwner State.reset .home l = true)

/-- Both invariants hold right after reset. -/
def Obligations.ResetKeeps : Prop :=
  StateInv State.reset ∧ TokensKept State.reset

/-- R70, R72, R81, R359, R365, R420, Tables 2-9 and 15-4: a step takes its turn: it executes the instruction that the fetched Jolisol
word, the program word at a context's pc or the words at a queue's position decode to; an event of the table takes place; time
passes; a word that fails steps 1 to 3 of Table 2-9 traps with cause 0x01 or 0x02. The order of turns, nextTurn, and how a word is placed
for one are the model's (logs 1 and 7). -/
def Obligations.StepRunsDecoded : Prop :=
  (∀ s rs r t p f word, nextTurn s = .issue rs → pickFrag (takeTurn s) rs = some r → findTeam s r.sp.team = some t → findSp s r.sp = some p → findFrag s r = some f → f.fetched = some word →
    (∀ i, decodeJolisol word = .ok i → step s = exec i { takeTurn s with cur := .frag r word }) ∧
    (∀ e, decodeJolisol word = .error e → fragReady (takeTurn s) t p f = true → windowLets p f (wordCls word) = true →
      step s = trapAt (takeTurn s) r t p f word { cause := if e = .operand then 2 else 1, tmask := takingPart p f (jUnpack word) })) ∧
  (∀ s u cs c x, nextTurn s = .luanil u cs → pickCtx (takeTurn s) u cs = some c → findCtx s u c = some x → caldUp s = true → x.first ≤ x.pc → x.pc < x.first + x.len → 1024 ≤ x.first →
    ∀ i, decodeLuanil (mget s.store x.pc) = .ok i → step s = exec i { takeTurn s with cur := .ctx u c }) ∧
  (∀ s q x h ws s0 s1 i, nextTurn s = .packet → pickQueue (takeTurn s) = some q → findQueue s q = some x → latheUp s = true → x.armed = true → x.waiting = none → x.level.skip = none →
    (x.depth = 0 → x.level.pos + 4 * pkLen h ≤ x.wp ∧ x.level.pos % max 1 x.size + 4 * pkLen h ≤ x.level.len) →
    (x.depth ≠ 0 → x.level.pos + 4 * pkLen h ≤ x.level.len) → fetchWord (takeTurn s) q x.level.pos = some (s0, h) →
    fetchWords q x.level.pos (pkLen h) s0 = some (s1, ws) → ws.head? = some h → decodePacket ws = .ok i → h.getLsbD 0 = false →
    step s = exec i { s1 with cur := .queue q (4 * pkLen h) }) ∧
  (∀ s i, nextTurn s = .event i → isEvent i = true → step s = exec i { takeTurn s with cur := .none }) ∧
  ∀ s n, nextTurn s = .tick n → ∃ t, step s = .next t ∧ t.cycle = s.cycle + BitVec.ofNat 64 n ∧ t.mem = s.mem ∧ t.msgs = s.msgs ∧
    (∀ sp p, findSp s sp = some p → ∃ q, findSp t sp = some q ∧ q.v = p.v ∧ q.s = p.s ∧ q.p = p.p ∧ q.pend = p.pend)

/-- R46, R366, R420: the two worked encodings of chapter 2 (FFMA and LD) and words written out from the encoding tables decode to the
instructions that they stand for, and those two encode to the chapter's bytes. -/
def Obligations.WordsDecode : Prop :=
  let ffma : Instr := .ffma { min := 0, d := 10, a := 2, b := 7, grd := 5, gneg := false, la := 0, hlda := true, hldb := false, uni := false, rnd := 0,
                              mod := 0x07F48FC0 }
  let ld : Instr := .ld { min := 2, d := 40, a := 20, b := 0x348, grd := 63, gneg := false, la := 2, hlda := false, hldb := false, uni := false, rnd := 0,
                          mod := 0x88000040 }
  decodeJolisol 0x43000280201C504007F48FC0 = .ok ffma ∧ encode ffma = [0x07F48FC0, 0x201C5040, 0x43000280] ∧
  decodeJolisol 0x60020A014D23F10088000040 = .ok ld ∧ encode ld = [0x88000040, 0x4D23F100, 0x60020A01] ∧
  decodeLuanil 0x4C00000000000000 = .ok (.luanilNop { flags := 0, slot := 0, key := 0, mask := 0 }) ∧
  decodeLuanil 0x0400000500000003 = .ok (.matchL { flags := 0, slot := 0, key := 5, mask := 3 }) ∧
  decodePacket [0x02004000, 0x1000, 0, 7] = .ok (.write32 { flags := 0, body := [0x1000, 0, 7] }) ∧
  decodePacket [0x00001000] = .ok (.nopPacket { flags := 0, body := [] }) ∧
  decodeJolisol 0 = .error .instruction ∧ decodePacket [0x7F001000] = .error (.packet 1)

/-- R46, R68, R366, R367, R420: the encoder and the decoder agree: every well-formed instruction, of Jolisol, Luanil or the
packets, decodes from its own encoding. -/
def Obligations.DecodeOfEncode : Prop :=
  (∀ i x, WellFormed i → encodeJolisol i = some x → decodeJolisol x = .ok i) ∧
  (∀ i x, WellFormed i → encodeLuanil i = some x → decodeLuanil x = .ok i) ∧
  ∀ i ws, WellFormed i → encodePacket i = some ws → decodePacket ws = .ok i

/-- R46, R366, R420, the other direction: no two words decode to one instruction, and what decodes is well formed. -/
def Obligations.EncodeOfDecode : Prop :=
  (∀ i x, decodeJolisol x = .ok i → WellFormed i ∧ encodeJolisol i = some x) ∧
  (∀ i x, decodeLuanil x = .ok i → WellFormed i ∧ encodeLuanil i = some x) ∧
  ∀ i ws, decodePacket ws = .ok i → WellFormed i ∧ encodePacket i = some ws

/-- Every step keeps memory's canonical form and the other bounds of `StateInv`. -/
def Obligations.StepKeepsInv : Prop :=
  ∀ s t, StateInv s → step s = .next t → StateInv t

/-- R195, every step: line tokens are never created or destroyed, and one of each line is the owner token. -/
def Obligations.StepKeepsTokens : Prop :=
  ∀ s t, TokensKept s → step s = .next t → TokensKept t

/-- R5: the package timestamp moves only with time, and at a package reset; no instruction, context, packet or other event moves it.
R385, R408: no instruction of a user team changes a system register of a die, an expert register, the key slots, the program store, a
field of the group table (but the count of blocks that each rank gave) or a register of the Lathe. -/
def Obligations.WholeMachineRules : Prop :=
  (
    ∀ s t, step s = .next t → (∀ n, nextTurn s ≠ .tick n) → nextTurn s ≠ .event .packageReset → t.cycle = s.cycle) ∧
  (
    ∀ s u rs r t, step s = .next u → nextTurn s = .issue rs → pickFrag (takeTurn s) rs = some r → findTeam s r.sp.team = some t → t.fw = false →
      u.keys = s.keys ∧ u.store = s.store ∧ u.lathe = s.lathe ∧ u.ready = s.ready ∧ u.saveBase = s.saveBase ∧
      (u.grps.map fun g => { g with nextK := [] }) = (s.grps.map fun g => { g with nextK := [] }) ∧
      ∀ k d, findDie s k = some d → ∃ c, findDie u k = some c ∧
        (c.ftqb, c.ftqn, c.wdog, c.trtb, c.pmap, c.ecccnt) = (d.ftqb, d.ftqn, d.wdog, d.trtb, d.pmap, d.ecccnt) ∧
        (c.exdir, c.exslb, c.exsls, c.exns, c.exown) = (d.exdir, d.exslb, d.exsls, d.exns, d.exown))

/-- R49, R56, R70: the checks of an issue and their order: a register beyond the allotment (0x11), a hazard with an open window
(0x06), privilege (0x05 reason 7), a partial team (0x07), a port that is not the spindle's (0x08 reason 1), where a thread takes part. -/
def Obligations.IssueChecks : Prop :=
  let regs := fun (x : Iss) => jReads x.w x.sp ++ jWrites x.w x.sp
  let beyond := fun (x : Iss) => ∃ n, RegId.v n ∈ regs x ∧ x.p.allot ≤ n
  let clash := fun (x : Iss) => ∃ y ∈ x.p.pend, y.frag = x.f.id ∧ y.complete = false ∧
    ((∃ a ∈ jReads x.w x.sp, a ∈ y.wr) ∨ ∃ a ∈ jWrites x.w x.sp, a ∈ y.wr ∨ a ∈ y.rd)
  (∀ c ∈ ([.iadd, .imad, .icmp, .mov, .fadd, .ffma, .rcp, .cvt, .ballot] : List (JWord → Instr)), ∀ w s x, AtIssue (c w) {} s x →
    (beyond x → exec (c w) s = x.trapT 0x11 0) ∧
    (¬beyond x → clash x → exec (c w) s = x.trapT 0x06 0) ∧
    (¬beyond x → ¬clash x → x.tp ≠ 0 → (∃ q ∈ popPorts x.w x.sp, ∀ y, x.t.port q = some y → y.bound ≠ some x.p.spx) → exec (c w) s = x.trapT 0x08 1)) ∧
  (∀ c ∈ ([.tlbinvPage, .tlbinvOwn, .tlbinvAll] : List (JWord → Instr)), ∀ w s x, AtIssue (c w) { serial := true, priv := true } s x →
    ¬beyond x → x.t.fw = false → x.tp ≠ 0 → exec (c w) s = x.trapT 0x05 7) ∧
  (∀ w s x, AtIssue (.mma w) { memory := true, whole := 1 } s x → ¬beyond x → ¬clash x → x.tp ≠ 0xFF → exec (.mma w) s = x.trapT 0x07 0)

/-- R112, all nine element forms: element k of a taking-part thread's result is OP of the elements of A, B and C, exact,
clamped to the type's range when K[0] is 1, modulo 2^w; nothing else changes (log 11: the result is written at the issue). -/
def Obligations.ElementArithmetic : Prop :=
  ∀ e ∈ ([(.iadd, fun _ a b _ => a + b), (.isub, fun _ a b _ => a - b), (.imul, fun _ a b _ => a * b),
      (.imulhi, fun w a b _ => a * b / 2 ^ w), (.imad, fun _ a b c => a * b + c), (.imin, fun _ a b _ => min a b),
      (.imax, fun _ a b _ => max a b), (.iabs, fun _ a _ _ => |a|), (.ineg, fun _ a _ _ => -a)] :
      List ((JWord → Instr) × (Nat → Int → Int → Int → Int))),
  ∀ w s x, Issues (e.1 w) {} s x →
    ∃ f, LaneDone x (intRegs w) f id (exec (e.1 w) s) ∧
      ∀ t ∈ x.threads, ∀ k < elemCount (jType w),
        elemBits (f t) (elemW (jType w)) k = wrapTo (elemW (jType w)) (clampTo (jType w) (clampBit w)
          (e.2 (elemW (jType w)) (elemOf (jType w) k (x.num w.a (intRegs w) (elemS (jType w)) t))
            (elemOf (jType w) k (x.num w.b (intRegs w) (elemS (jType w)) t))
            (elemOf (jType w) k (x.numC (intRegs w) (elemS (jType w)) t))))

/-- R113, R114, R115, R123: IADDX with its carry in and out, IMADW, IDOT4 and LEA write their sums, wrapped.
R116: AND, OR, XOR, ANDN and NOT across the full 32 or 64 bits: each bit of the result is the function of the bits of
A and B.
R116, second table: SHL, SHR, SAR and ROT of each element of width w by the matching element of B, read unsigned; in
`.b64` forms by the 32-bit value of B. -/
def Obligations.WideAndBitForms : Prop :=
  (
    (∀ w s x, Issues (.iaddx w) {} s x →
      ∃ eff, LaneDone x 1 (fun t => BitVec.ofNat 128 (((x.src1 w.a t).toNat + (x.src1 w.b t).toNat + carryIn x t) % 2 ^ 32)) eff
          (exec (.iaddx w) s) ∧
        (jK w = 63 → eff x.p = x.p) ∧
        (jK w ≠ 63 → OnlyPred x.p (eff x.p) (jK w) x.threads
          fun t => decide (2 ^ 32 ≤ (x.src1 w.a t).toNat + (x.src1 w.b t).toNat + carryIn x t))) ∧
    (∀ w s x, Issues (.imadw w) {} s x →
      ∃ f, LaneDone x 2 f id (exec (.imadw w) s) ∧ ∀ t ∈ x.threads,
        let sg := elemS (jType w)
        let rd := fun (n : Nat) => if jType w = 1 then signedOf 32 n else (n : Int)
        ((f t).toNat : Int) = (rd (x.num w.a 1 sg t) * rd (x.num w.b 1 sg t) + x.numC 2 sg t) % 2 ^ 64) ∧
    (∀ w s x, Issues (.idot4 w) {} s x →
      ∃ f, LaneDone x 1 f id (exec (.idot4 w) s) ∧ ∀ t ∈ x.threads,
        let sg := elemS (jType w)
        let c := x.numC 1 sg t
        let el := fun (d : BitVec 10) (k : Nat) => elemOf (jType w) k (x.num d 1 sg t)
        let r := (if sg then signedOf 32 c else (c : Int)) + (el w.a 0 * el w.b 0 + el w.a 1 * el w.b 1 + el w.a 2 * el w.b 2 + el w.a 3 * el w.b 3)
        let lo : Int := if sg then -(2 ^ 31) else 0
        let hi : Int := if sg then 2 ^ 31 - 1 else 2 ^ 32 - 1
        ((f t).toNat : Int) = (if clampBit w then min (max r lo) hi else r) % 2 ^ 32) ∧
    ∀ w s x, Issues (.lea w) {} s x →
      ∃ f, LaneDone x 2 f id (exec (.lea w) s) ∧ ∀ t ∈ x.threads,
        let sg := elemS (jType w)
        let b := x.num w.b 1 sg t
        ((f t).toNat : Int) = (x.num w.a 2 sg t + (if jType w = 1 then signedOf 32 b else ((b % 2 ^ 32 : Nat) : Int)) *
            2 ^ (if jImm w then 0 else jK w % 8)) % 2 ^ 64) ∧
  (
    ∀ e ∈ ([(.andI, fun a b => a && b), (.orI, fun a b => a || b), (.xorI, fun a b => a ^^ b), (.andn, fun a b => a && !b),
        (.notI, fun a _ => !a)] : List ((JWord → Instr) × (Bool → Bool → Bool))),
    ∀ w s x, Issues (e.1 w) {} s x →
      ∃ f, LaneDone x (intRegs w) f id (exec (e.1 w) s) ∧
        ∀ t ∈ x.threads, ∀ k, (f t).getLsbD k = (decide (k < 32 * intRegs w) &&
          e.2 ((x.num w.a (intRegs w) (elemS (jType w)) t).testBit k) ((x.num w.b (intRegs w) (elemS (jType w)) t).testBit k))) ∧
  (
    ∀ e ∈ ([(.shl, fun w x _ n => if n < w then (x * 2 ^ n) % 2 ^ w else 0), (.shr, fun w x _ n => if n < w then x / 2 ^ n else 0),
        (.sar, fun w _ y n => if n < w then y / 2 ^ n else if y < 0 then -1 else 0),
        (.rot, fun w x _ n => (x * 2 ^ (n % w)) % 2 ^ w + x / 2 ^ (w - n % w))] :
        List ((JWord → Instr) × (Nat → Int → Int → Nat → Int))),
    ∀ w s x, Issues (e.1 w) {} s x →
      ∃ f, LaneDone x (intRegs w) f id (exec (e.1 w) s) ∧
        ∀ t ∈ x.threads, ∀ k < elemCount (jType w),
          let ew := elemW (jType w)
          let a := natBits (x.num w.a (intRegs w) (elemS (jType w)) t) (ew * k) ew
          let b := x.num w.b 1 (elemS (jType w)) t
          elemBits (f t) ew k = wrapTo ew (e.2 ew a (signedOf ew a) (if jType w = 6 then b % 2 ^ 32 else natBits b (ew * k) ew)))

/-- R117: FSHF shifts the 64-bit value made of C and A by B mod 64, right or left, and keeps 32 bits of it. -/
def Obligations.FunnelShift : Prop :=
  ∀ w s x, Issues (.fshf w) {} s x →
    let v := fun t => (x.numC 1 (elemS (jType w)) t % 2 ^ 32) * 2 ^ 32 + x.num w.a 1 (elemS (jType w)) t % 2 ^ 32
    let n := fun t => x.num w.b 1 (elemS (jType w)) t % 64
    ∃ f, LaneDone x 1 f id (exec (.fshf w) s) ∧ ∀ t ∈ x.threads, (f t).toNat =
      if jK w % 2 = 0 then v t / 2 ^ n t % 2 ^ 32 else v t * 2 ^ n t % 2 ^ 64 / 2 ^ 32

/-- R118: BFE and BFI with pos = min(b[7:0], 32) and wid = min(b[15:8], 32 - pos): bit by bit. -/
def Obligations.BitFields : Prop :=
  let pos := fun (b : Nat) => min (b % 256) 32
  let wid := fun (b : Nat) => min (b / 256 % 256) (32 - pos b)
  (∀ w s x, Issues (.bfe w) {} s x →
    ∃ f, LaneDone x 1 f id (exec (.bfe w) s) ∧ ∀ t ∈ x.threads,
      let a := x.num w.a 1 (elemS (jType w)) t
      let b := x.num w.b 1 (elemS (jType w)) t
      ∀ k, (f t).getLsbD k = (decide (k < 32 ∧ wid b ≠ 0) &&
        if k < wid b then a.testBit (pos b + k) else decide (jType w = 1) && a.testBit (pos b + wid b - 1))) ∧
  ∀ w s x, Issues (.bfi w) {} s x →
    ∃ f, LaneDone x 1 f id (exec (.bfi w) s) ∧ ∀ t ∈ x.threads,
      let a := x.num w.a 1 (elemS (jType w)) t
      let b := x.num w.b 1 (elemS (jType w)) t
      let c := x.numC 1 (elemS (jType w)) t
      ∀ k, (f t).getLsbD k = (decide (k < 32) &&
        if pos b ≤ k ∧ k < pos b + wid b then a.testBit (k - pos b) else c.testBit k)

/-- R119: BREV reverses the 32 or 64 bits; CLZ, FFS and POPC of each element, and of the whole value in `.b64`, with
Table 4-5's results of zero: the width, all ones, 0. -/
def Obligations.BitCounts : Prop :=
  (∀ w s x, Issues (.brev w) {} s x →
    ∃ f, LaneDone x (intRegs w) f id (exec (.brev w) s) ∧ ∀ t ∈ x.threads, ∀ k,
      (f t).getLsbD k = (decide (k < 32 * intRegs w) && (x.num w.a (intRegs w) (elemS (jType w)) t).testBit (32 * intRegs w - 1 - k))) ∧
  ∀ e ∈ ([(.clz, fun w a r => (∀ i : Nat, i < r → a.testBit (w - 1 - i) = false) ∧ (r = w ∨ (r < w ∧ a.testBit (w - 1 - r) = true))),
      (.ffs, fun w a r => if a = 0 then r = 2 ^ min w 32 - 1 else a.testBit r = true ∧ ∀ i : Nat, i < r → a.testBit i = false),
      (.popc, fun w a r => r = ((List.range w).filter fun i => a.testBit i).length)] :
      List ((JWord → Instr) × (Nat → Nat → Nat → Prop))),
  ∀ w s x, Issues (e.1 w) {} s x →
    ∃ f, LaneDone x 1 f id (exec (e.1 w) s) ∧ ∀ t ∈ x.threads,
      let a := x.num w.a (intRegs w) (elemS (jType w)) t
      if jType w = 6 then e.2 64 (a % 2 ^ 64) (f t).toNat
      else ∀ k < elemCount (jType w), e.2 (elemW (jType w)) (natBits a (elemW (jType w) * k) (elemW (jType w))) (elemBits (f t) (elemW (jType w)) k)

/-- R120, R121, R122: ICMP with Table 4-3's comparisons and the combining step; SEL by its predicate; MOV and MOVI.
R126, Table 4-6: PAND, POR, PXOR, PNOT, P2V and V2P. -/
def Obligations.CompareAndPredicateForms : Prop :=
  (
    let cmp := fun (c : Nat) (a b : Int) => if c = 0 then decide (a = b) else if c = 1 then decide (a ≠ b)
      else if c = 2 then decide (a < b) else if c = 3 then decide (a ≤ b) else if c = 4 then decide (a > b) else decide (a ≥ b)
    (∀ w s x, Issues (.icmp w) {} s x →
      EndsWith x x.nextPc (fun q => OnlyPred x.p q (bitsOf w.d 0 6) x.threads fun t =>
        let n := intRegs w
        let c := cmp (bitsOf w.d 6 4) (elemOf (jType w) 0 (x.num w.a n (elemS (jType w)) t)) (elemOf (jType w) 0 (x.num w.b n (elemS (jType w)) t))
        let r := pget x.p (jP w) t
        if jImm w = true ∨ jP w = 63 then c else if jK w = 0 then c && r else if jK w = 1 then c || r else c ^^ r)
        (exec (.icmp w) s)) ∧
    (∀ w s x, Issues (.sel w) {} s x →
      LaneDone x (intRegs w) (fun t => if jP w = 63 ∨ pget x.p (jP w) t = true then x.src w.a (intRegs w) false t
        else x.src w.b (intRegs w) false t) id (exec (.sel w) s)) ∧
    ∀ c ∈ ([.mov, .movi] : List (JWord → Instr)), ∀ w s x, Issues (c w) {} s x →
      LaneDone x (intRegs w) (fun t => x.src w.a (intRegs w) (elemS (jType w)) t) id (exec (c w) s)) ∧
  (
    (∀ e ∈ ([(.pand, fun a b => a && b), (.por, fun a b => a || b), (.pxor, fun a b => a ^^ b), (.pnot, fun a _ => !a)] :
        List ((JWord → Instr) × (Bool → Bool → Bool))),
      ∀ w s x, Issues (e.1 w) {} s x →
        EndsWith x x.nextPc (fun q => OnlyPred x.p q (bitsOf w.d 0 6) x.threads fun t => e.2 (predSrc x.p w.a t) (predSrc x.p w.b t))
          (exec (e.1 w) s)) ∧
    (∀ w s x, Issues (.p2v w) {} s x →
      ∃ f, LaneDone x 1 f id (exec (.p2v w) s) ∧ ∀ t ∈ x.threads, ∀ i,
        (f t).getLsbD i = (decide (i < 32) && w.mod.getLsbD i && pget x.p (bitsOf w.a 0 6 + i) t)) ∧
    ∀ w s x, Issues (.v2p w) {} s x →
      EndsWith x x.nextPc (fun q => sameArch { q with p := x.p.p } x.p ∧ ∀ k t, t < 8 → k < 48 → pget q k t =
        if t ∈ x.threads ∧ bitsOf w.d 0 6 ≤ k ∧ k < bitsOf w.d 0 6 + 32 ∧ w.mod.getLsbD (k - bitsOf w.d 0 6) = true
        then (x.src1 w.a t).getLsbD (k - bitsOf w.d 0 6) else pget x.p k t) (exec (.v2p w) s))

/-- R128, R129: BALLOT, VOTE and PICK among the threads that take part. -/
def Obligations.CrossThreadForms : Prop :=
  (∀ w s x, Issues (.ballot w) {} s x →
    ∃ f, LaneDone x 1 f id (exec (.ballot w) s) ∧ ∀ t ∈ x.threads, ∀ i,
      (f t).getLsbD i = (decide (i < 8) && x.tp.getLsbD i && predSrc x.p w.a i)) ∧
  (∀ e ∈ ([(.voteAll, fun all _ => all), (.voteAny, fun _ some => some), (.voteSame, fun all some => all || !some)] :
      List ((JWord → Instr) × (Bool → Bool → Bool))),
    ∀ w s x, Issues (e.1 w) {} s x →
      EndsWith x x.nextPc (fun q => OnlyPred x.p q (bitsOf w.d 0 6) x.threads fun _ =>
        e.2 ((threadsOf x.tp).all (predSrc x.p w.a)) ((threadsOf x.tp).any (predSrc x.p w.a))) (exec (e.1 w) s)) ∧
  ∀ e ∈ ([(.pickAt, fun _ n => (n : Int)), (.pickBelow, fun t n => (t : Int) - n), (.pickAbove, fun t n => (t : Int) + n),
      (.pickFlip, fun t n => ((t ^^^ n : Nat) : Int))] : List ((JWord → Instr) × (Nat → Nat → Int))),
    ∀ w s x, Issues (e.1 w) {} s x →
      let from_ := fun t => e.2 t (x.src1 w.b t).toNat
      let ok := fun t => decide (0 ≤ from_ t ∧ from_ t ≤ 7) && x.tp.getLsbD (from_ t).toNat
      ∃ eff, LaneDone x 1 (fun t => (x.src1 w.a (if ok t then (from_ t).toNat else t)).setWidth 128) eff (exec (e.1 w) s) ∧
        (jImm w = true ∨ jP w = 63 → eff x.p = x.p) ∧
        (¬(jImm w = true ∨ jP w = 63) → OnlyPred x.p (eff x.p) (jP w) x.threads ok)

/-- R131: a gang form takes its spindle's next sequence number and stays pending with what its threads contribute.
R130, R131: the rendezvous of the lowest gang number k for which members wait, once every member has issued its k-th gang
form or retired: where the forms agree, each member's threads receive what Table 4-8 says; where they differ, every member that
has issued traps with cause 0x0E and nothing is written. -/
def Obligations.GangForms : Prop :=
  (
    let ballot := fun (x : Iss) (t : Nat) => ((if predSrc x.p x.w.a t then 1 else 0 : Word), (0 : Word))
    let pick := fun (x : Iss) (t : Nat) => (x.src1 x.w.a t, x.src1 x.w.b t)
    ∀ e ∈ ([(.gballotPopc, ballot), (.gballotAny, ballot), (.gballotAll, ballot), (.gballotPfx, ballot), (.gballotMask, ballot),
        (.gpickAt, pick), (.gpickBelow, pick), (.gpickAbove, pick), (.gpickFlip, pick)] : List ((JWord → Instr) × (Iss → Nat → Word × Word))),
    ∀ w s x, Issues (e.1 w) {} s x →
      StaysPending x x.nextPc (fun q => q = { x.p with gseq := x.p.gseq + 1 })
        (fun y => y.complete = false ∧ y.kind = .gang x.p.gseq w.min ((threadsOf x.tp).map fun t => (t, e.2 x t)) ∧ y.tmask = x.tp)
        (exec (e.1 w) s)) ∧
  (
    ∀ s team role gang t g k, findTeam s team = some t → findGrid s t.grid = some g → t.st = .resident →
      (t.spindles.map (·.spx)).Nodup →
      (∃ e ∈ gangMembers g t role gang, (gangPend e.2 k).isSome) →
      (∀ j < k, ∀ e ∈ gangMembers g t role gang, gangPend e.2 j = none) →
      (∀ e ∈ gangMembers g t role gang, (gangPend e.2 k).isSome = true ∨ e.2.retired = true) →
      let all := gangParts (gangMembers g t role gang) k
      let ones := all.filter fun c => c.2.1 == 1
      let size := gangSize g role
      (∀ mn : BitVec 8, (∀ e ∈ gangMembers g t role gang, ∀ y m c, gangPend e.2 k = some (y, m, c) → m = mn) →
        ∃ u, exec (.rendezvous team role gang) s = .next u ∧ u.mem = s.mem ∧
          ∀ e ∈ gangMembers g t role gang, ∀ y c, gangPend e.2 k = some (y, mn, c) →
            ∃ q, findSp u { team := team, spx := e.2.spx } = some q ∧ (∀ z ∈ q.pend, z.id = y.id → z.complete = true) ∧
              ∀ th ∈ threadsOf y.tmask,
                let j := 8 * e.1 + th
                let w := jUnpack y.word
                let dst := fun (v : Word) => ∀ n, opnd w.d = .v n → vget q n th = v
                let prd := fun (b : Bool) => bitsOf w.d 0 6 < 48 → pget q (bitsOf w.d 0 6) th = b
                (mn = 0x00 → dst (BitVec.ofNat 32 ones.length)) ∧
                (mn = 0x01 → prd (decide (ones ≠ []))) ∧
                (mn = 0x02 → prd (decide (∀ c ∈ all, c.2.1 = 1))) ∧
                (mn = 0x03 → dst (BitVec.ofNat 32 (ones.filter fun c => c.1 < j).length)) ∧
                (mn = 0x04 → size ≤ 32 → ∀ n, opnd w.d = .v n → ∀ i < 32,
                  (vget q n th).getLsbD i = (decide (i < size) && ones.any fun c => c.1 / 8 == i)) ∧
                ∀ e ∈ ([(0x10, fun _ n => (n : Int)), (0x11, fun j n => (j : Int) - n), (0x12, fun j n => (j : Int) + n),
                    (0x13, fun j n => ((j ^^^ n : Nat) : Int))] : List (Nat × (Nat → Nat → Int))),
                  mn.toNat % 128 = e.1 → ∀ own, (all.find? fun c => c.1 == j) = some own →
                  let src := e.2 j own.2.2.toNat
                  let at_ := if 0 ≤ src ∧ src ≤ 8 * (size : Int) - 1 then all.find? fun c => c.1 == src.toNat else none
                  dst (match at_ with | some c => c.2.1 | none => own.2.1) ∧
                  (jImm w = false → jP w < 48 → pget q (jP w) th = at_.isSome)) ∧
      ((∃ e ∈ gangMembers g t role gang, ∃ e' ∈ gangMembers g t role gang, ∃ y m c y' m' c',
          gangPend e.2 k = some (y, m, c) ∧ gangPend e'.2 k = some (y', m', c') ∧ m ≠ m') →
        ∃ u, exec (.rendezvous team role gang) s = .next u ∧ u.mem = s.mem ∧
          ∀ e ∈ gangMembers g t role gang, ∀ y m c, gangPend e.2 k = some (y, m, c) →
            ∃ q r, findSp u { team := team, spx := e.2.spx } = some q ∧ (∀ z ∈ q.pend, z.id ≠ y.id) ∧
              q.v = e.2.v ∧ q.s = e.2.s ∧ q.p = e.2.p ∧ q.gseq = e.2.gseq ∧
              r.cause = 0x0E ∧ r.reason = 1 ∧ r.pc = y.pc ∧ r.word = y.word ∧ r.tmask = y.tmask ∧ r.info0.toNat % 16 = y.w % 16 ∧
              (e.2.halted = true ∨ e.2.tlv = true ∨ e.2.st ≠ .running → (y.frag, r) ∈ q.traps) ∧
              (e.2.halted = false → e.2.tlv = false → e.2.st = .running → t.thnd ≠ 0 → (e.2.frag? y.frag).isSome = true →
                InHandler t.thnd e.2 q y.frag r)))

/-- R53, R87, R102, R106: with no thread taking part a transfer, BRD, EXIT and SLEEP have no effect but to go on.
R87, R88, R100, R101: a transfer that every active thread takes: BRA and CALL to the displacement, JMPS, CALLS and RET to
the address that all of them supply; CALL and CALLS leave the next instruction's address in the link pair, and RET is recorded as
a return while a debugger is attached.
R87, R88: where only some active threads take the transfer, or the supplied targets differ, it traps with cause 0x10; where
the one target has a nonzero byte [63:56] or is no multiple of 4, with cause 0x03 at the target. -/
def Obligations.Transfers : Prop :=
  (
    ∀ c ∈ ([.bra, .jmps, .call, .calls, .ret, .brd, .exitI, .sleep] : List (JWord → Instr)), ∀ w s x, Issues (c w) ctlCls s x → x.tp = 0 →
      EndsWith x x.nextPc (fun q => q = x.p) (exec (c w) s)) ∧
  (
    let link := fun (x : Iss) (q : Spindle) => OnlyRegs x.p q x.w.d 2 [0] fun _ => x.nextPc.setWidth 128
    (∀ w s x, Issues (.bra w) ctlCls s x → x.tp ≠ 0 → x.tp = x.act →
      EndsWith x (x.f.pc + jDisp w) (fun q => q = x.p) (exec (.bra w) s)) ∧
    (∀ w s x, Issues (.call w) ctlCls s x → x.tp ≠ 0 → x.tp = x.act →
      EndsWith x (x.f.pc + jDisp w) (link x) (exec (.call w) s)) ∧
    ∀ e ∈ ([(.jmps, fun x _ q => q = x.p), (.calls, fun x _ q => link x q),
        (.ret, fun x tgt q => q = { x.p with rets := if debugOn x.s x.t then (x.f.pc, tgt) :: x.p.rets else x.p.rets })] :
        List ((JWord → Instr) × (Iss → BitVec 64 → Spindle → Prop))),
      ∀ w s x tgt, Issues (e.1 w) ctlCls s x → x.tp ≠ 0 → x.tp = x.act → (∀ t ∈ threadsOf x.tp, x.src2 w.a t = tgt) →
        bitsOf tgt 56 8 = 0 → bitsOf tgt 0 2 = 0 →
        EndsWith x tgt (e.2 x tgt) (exec (e.1 w) s)) ∧
  (
    (∀ e ∈ ([.bra, .jmps, .call, .calls, .ret] : List (JWord → Instr)), ∀ w s x, Issues (e w) ctlCls s x → x.tp ≠ 0 → x.tp ≠ x.act →
      exec (e w) s = x.trapT 0x10 0) ∧
    ∀ e ∈ ([.jmps, .calls, .ret] : List (JWord → Instr)), ∀ w s x, Issues (e w) ctlCls s x → x.tp = x.act →
      ((∃ t ∈ threadsOf x.tp, ∃ u ∈ threadsOf x.tp, x.src2 w.a t ≠ x.src2 w.a u) → exec (e w) s = x.trapT 0x10 0) ∧
      ∀ tgt, x.tp ≠ 0 → (∀ t ∈ threadsOf x.tp, x.src2 w.a t = tgt) → (bitsOf tgt 56 8 ≠ 0 ∨ bitsOf tgt 0 2 ≠ 0) →
        exec (e w) s = x.trap { cause := 0x03, tmask := x.tp, addr := tgt })

/-- R91: IF, ELSE, ENDIF, LOOP, BREAK, CONT and ENDLOOP give every live thread of the fragment its new nesting counter, where
none exceeds 63, and skip forward, or back, as the counters say; where one would exceed 63 the form traps with cause 0x09; LOOP
with no active thread only skips. -/
def Obligations.StructuredDivergence : Prop :=
  let skip := fun (x : Iss) (n : Nat → Nat) => if anyZero x n then x.nextPc else x.f.pc + jDisp x.w
  (∀ e ∈ ([(.ifI, fun x t => if nestOf x.p t > 0 then nestOf x.p t + 1 else if condHolds x.p x.w.d t then 0 else 1),
      (.elseI, fun x t => if nestOf x.p t = 0 then 1 else if nestOf x.p t = 1 then 0 else nestOf x.p t),
      (.breakI, fun x t => if x.act.getLsbD t && condHolds x.p x.w.d t then x.w.a.toNat + 2 else nestOf x.p t),
      (.contI, fun x t => if x.act.getLsbD t && condHolds x.p x.w.d t then x.w.a.toNat + 1 else nestOf x.p t)] :
      List ((JWord → Instr) × (Iss → Nat → Nat))),
    ∀ w s x, Issues (e.1 w) ctlCls s x →
      ((∀ t ∈ threadsOf (liveIn x.p x.f), e.2 x t ≤ 63) → NestDone x (e.2 x) (skip x (e.2 x)) (exec (e.1 w) s)) ∧
      ((∃ t ∈ threadsOf (liveIn x.p x.f), 63 < e.2 x t) → exec (e.1 w) s = x.trapT 0x09 0)) ∧
  (∀ w s x, Issues (.endif w) ctlCls s x → NestDone x (fun t => nestOf x.p t - 1) x.nextPc (exec (.endif w) s)) ∧
  (∀ w s x, Issues (.loopI w) ctlCls s x → x.act = 0 → EndsWith x (x.f.pc + jDisp w) (fun q => q = x.p) (exec (.loopI w) s)) ∧
  (∀ w s x, Issues (.loopI w) ctlCls s x → x.act ≠ 0 →
    let n := fun t => if nestOf x.p t > 0 then nestOf x.p t + 2 else 0
    ((∀ t ∈ threadsOf (liveIn x.p x.f), n t ≤ 63) → NestDone x n x.nextPc (exec (.loopI w) s)) ∧
    ((∃ t ∈ threadsOf (liveIn x.p x.f), 63 < n t) → exec (.loopI w) s = x.trapT 0x09 0)) ∧
  ∀ w s x, Issues (.endloop w) ctlCls s x →
    let back := fun t => if nestOf x.p t = 1 then 0 else nestOf x.p t
    if anyZero x back then NestDone x back (x.f.pc + jDisp w) (exec (.endloop w) s)
    else NestDone x (fun t => back t - 2) x.nextPc (exec (.endloop w) s)

/-- R93: BRD taken by every active thread jumps; taken by some of them it splits: the fragment F goes on behind it, ready, with the
other live threads, a new fragment G has the threads that take part, ready at the target, and both link to a new join that expects
all of them. Nothing else changes, outside the spindle nothing at all where the quarter's split table has two entries free; else
other spindles' entries, with their bytes in the team-swap area, only move (R95).
R55, R94, R96: a fragment about to issue at its join address, which its windows let, arrives and stops; the last arrival fuses the join's fragments
into one with the expected mask at the join address, linked to the join's parent. -/
def Obligations.SplitsAndJoins : Prop :=
  (
    (∀ w s x, Issues (.brd w) ctlCls s x → x.tp ≠ 0 → x.tp = x.act →
      ∃ t q, exec (.brd w) s = .next t ∧ KeepsOthers s t x.r.sp ∧ findSp t x.r.sp = some q ∧ sameArch q x.p ∧
        Moved x (x.f.pc + jDisp w) q) ∧
    ∀ w s x, Issues (.brd w) ctlCls s x → x.tp ≠ 0 → x.tp ≠ x.act →
      let used := (splitEntries s x.t (quarterOf x.p.spx) true).length
      used ≤ 62 ∨ splitAreaUp s x.t = true →
      ∃ t q f g j, exec (.brd w) s = .next t ∧ findSp t x.r.sp = some q ∧ sameArch { q with joins := x.p.joins } x.p ∧
        (used ≤ 62 → KeepsOthers s t x.r.sp ∧ q.joins = j :: x.p.joins ∧ ∀ k, k ≠ x.r.frag → k ≠ g.id → q.frag? k = x.p.frag? k) ∧
        (∀ y p, y ≠ x.r.sp → findSp s y = some p → ∃ p', findSp t y = some p' ∧ { p' with frags := p.frags, joins := p.joins } = p) ∧
        q.frag? x.r.frag = some f ∧ f.mask = liveIn x.p x.f &&& ~~~x.tp ∧ f.pc = x.f.replay.getD x.nextPc ∧ f.st = .ready ∧ f.join = some j.id ∧
        q.frag? g.id = some g ∧ g.id ≠ x.r.frag ∧ g.mask = x.tp ∧ g.pc = x.f.pc + jDisp w ∧ g.join = some j.id ∧ g.st = .ready ∧
        j ∈ q.joins ∧ j.addr = x.f.pc + jJoin w ∧ j.expected = liveIn x.p x.f ∧ j.arrived = 0 ∧ j.parent = x.f.join) ∧
  (
    ∀ s f t p g j e, findTeam s f.sp.team = some t → findSp s f.sp = some p → findFrag s f = some g → g.join = some j →
      (p.joins.find? fun x => x.id == j) = some e → e.onChip = true → g.onChip = true → e.addr = g.pc → teamIssues s t = true → p.st = .running →
      p.halted = false → g.st = .ready → p.tlv = false → windowLets p g ((g.fetched.map wordCls).getD {}) = true →
      ∃ u q, exec (.fragmentAtJoin f) s = .next u ∧ KeepsOthers s u f.sp ∧ findSp u f.sp = some q ∧ q.v = p.v ∧ q.s = p.s ∧
        if e.arrived ||| g.mask = e.expected then
          (q.joins.find? fun x => x.id == j) = none ∧
          ∃ h, q.frags.head? = some h ∧ h.mask = e.expected ∧ h.pc = e.addr ∧ h.join = e.parent ∧ h.st = .ready
        else
          ((q.joins.find? fun x => x.id == j).map (·.arrived)) = some (e.arrived ||| g.mask) ∧
          (q.frag? f.frag).map (·.st) = some .atJoin)

/-- R82, R106, R95: a sleep that has run down ends; a fragment ready for 32 cycles ages; an entry that is out comes back, alone
or in exchange for the fragment entry longest on chip, and the quarter's count of moves rises (R95, Table 14-7). -/
def Obligations.FragmentEvents : Prop :=
  (∀ s f g, findFrag s f = some g → g.st = .sleeping 0 →
    ∃ u h, exec (.sleepExpiry f) s = .next u ∧ KeepsOthers s u f.sp ∧ findFrag u f = some h ∧ h = { g with st := .ready, readyFor := 0 }) ∧
  (∀ s f g, findFrag s f = some g → g.st = .ready → 32 ≤ g.readyFor →
    ∃ u h, exec (.fragmentAged f) s = .next u ∧ KeepsOthers s u f.sp ∧ findFrag u f = some h ∧ h = { g with aged := true }) ∧
  (∀ s die core quarter t e, teamOnCore s die core = some t → (splitEntries s t quarter true).length < 64 →
    leastBy (fun e => e.2.2.2.2.2) (splitEntries s t quarter false) = some e →
    exec (.splitEntryRestore die core quarter) s = .next (moveEntry s t (e.1, e.2.1, e.2.2.1) true)) ∧
  (∀ s die core quarter t o i, teamOnCore s die core = some t →
    leastBy (fun e => e.2.2.2.2.2) (splitEntries s t quarter false) = some o →
    leastBy (fun e => e.2.2.2.2.2) ((splitEntries s t quarter true).filter fun e => !e.2.1) = some i →
    exec (.splitExchange die core quarter) s =
      .next (moveEntry (moveEntry s t (i.1, i.2.1, i.2.2.1) false) t (o.1, o.2.1, o.2.2.1) true)) ∧
  ∀ s (t : Team) p n id onto, findTeam s t.id = some t → findSp s { team := t.id, spx := n } = some p →
    (∀ d, findDie (moveEntry s t (n, false, id) onto) t.die = some d →
      ∃ d0, findDie s t.die = some d0 ∧
        mget d.splsp (4 * t.core + quarterOf n) = mget d0.splsp (4 * t.core + quarterOf n) + 1) ∧
    ((p.frag? id).isSome = true →
      (findFrag (moveEntry s t (n, false, id) onto) { sp := { team := t.id, spx := n }, frag := id }).map (·.onChip) = some onto)

/-- R102, R133: EXIT ends the threads that take part: they are live no more, in any fragment; registers, predicates and MODE
stay.
R103, R104, R105, R106: RFL gives the lowest taking-part thread's value to D and compares every thread with it; GETID
gives Table 3-6's value of each selector; NOP has no effect; SLEEP with a count makes its fragment sleep for it. -/
def Obligations.SmallControlForms : Prop :=
  (
    ∀ w s x, Issues (.exitI w) ctlCls s x → x.tp ≠ 0 →
      ∃ t q, exec (.exitI w) s = .next t ∧ KeepsOthers s t x.r.sp ∧ findSp t x.r.sp = some q ∧ q.live = x.p.live &&& ~~~x.tp ∧
        q.v = x.p.v ∧ q.s = x.p.s ∧ q.p = x.p.p ∧ q.mode = x.p.mode ∧ q.nest = x.p.nest ∧ q.ctr = x.p.ctr ∧
        (q.live = 0 → q.frags = [] ∧ q.joins = [])) ∧
  (
    (∀ w s x f0, Issues (.rfl w) ctlCls s x → (threadsOf x.tp).head? = some f0 →
      let n := if w.mod.getLsbD 0 then 2 else 1
      EndsWith x x.nextPc (fun q => OnlyRegs x.p { q with p := x.p.p } w.d n [0] (fun _ => x.src w.a n false f0) ∧
        (bitsOf w.mod 6 6 = 63 → q.p = x.p.p) ∧
        (bitsOf w.mod 6 6 ≠ 63 → PredWritten x.p q (bitsOf w.mod 6 6) (threadsOf x.tp) fun t => x.src w.a n false t == x.src w.a n false f0))
        (exec (.rfl w) s)) ∧
    (∀ w s x g, Issues (.getid w) ctlCls s x → findGrid s x.t.grid = some g →
      let gsz := max 1 (roleOf g x.p.role).gang
      let i := (x.t.vcx - g.x0) / 8
      let j := (x.t.vcy - g.y0) / 8
      ∀ e ∈ ([(0x00, fun t => t), (0x01, fun _ => x.tp.toNat), (0x02, fun _ => x.p.spx), (0x03, fun _ => x.p.role), (0x04, fun _ => x.p.rlx),
          (0x05, fun _ => x.p.rlx / gsz), (0x06, fun _ => gsz), (0x07, fun _ => x.p.spx % 64), (0x08, fun _ => x.p.spx % 64 / 16),
          (0x09, fun _ => x.p.spx / 64), (0x0A, fun _ => (g.roles.map (·.spt)).sum), (0x0B, fun _ => (roleOf g x.p.role).spt),
          (0x10, fun _ => x.t.vcx), (0x11, fun _ => x.t.vcy), (0x12, fun _ => x.t.vcx / 2), (0x13, fun _ => x.t.vcy / 2),
          (0x14, fun _ => 2 * (x.t.vcy % 2) + x.t.vcx % 2), (0x15, fun _ => j * ((g.w + 7) / 8) + i), (0x16, fun _ => i), (0x17, fun _ => j),
          (0x18, fun _ => x.t.die), (0x19, fun _ => g.x0), (0x1A, fun _ => g.y0), (0x1B, fun _ => g.w), (0x1C, fun _ => g.h)] :
          List (Nat × (Nat → Nat))), bitsOf w.mod 0 8 = e.1 →
        EndsWith x x.nextPc (fun q => OnlyRegs x.p q w.d 1 x.threads fun t => BitVec.ofNat 128 (e.2 t)) (exec (.getid w) s)) ∧
    (∀ w s x, Issues (.nop w) ctlCls s x → EndsWith x x.nextPc (fun q => q = x.p) (exec (.nop w) s)) ∧
    ∀ w s x, Issues (.sleep w) ctlCls s x → x.tp ≠ 0 → bitsOf w.mod 0 20 ≠ 0 →
      ∃ t q f, exec (.sleep w) s = .next t ∧ KeepsOthers s t x.r.sp ∧ findSp t x.r.sp = some q ∧ sameArch q x.p ∧
        q.frag? x.r.frag = some f ∧ f.st = .sleeping (bitsOf w.mod 0 20) ∧ f.pc = x.f.replay.getD x.nextPc ∧ f.mask = x.f.mask)

/-- R171, R172, R140: FADD, FSUB, FMUL and FFMA, and PKADD, PKMUL and PKFMA on both 16-bit elements, round the exact result of
their operands once, and their conditions enter MODE.FLG.
R173, R174, R175: FMIN and FMAX, which draw no random bits (R142), FCMP with its combining step, FCLASS. -/
def Obligations.FloatForms : Prop :=
  (
    (∀ e ∈ ([(.fadd, fun rm a b _ => addV rm a b), (.fsub, fun rm a b _ => addV rm a b.negate), (.fmul, fun _ a b _ => mulV a b),
        (.ffma, fmaV)] : List ((JWord → Instr) × (Nat → FV → FV → FV → FV × Flg))),
      ∀ w s x, Issues (e.1 w) {} s x →
        let f := fun t => let r := fres x.rnd (randomOf (x.random.1 t) 0) .f32 (e.2 x.rnd.rm (x.f32 w.a t) (x.f32 w.b t)
          (if jImm w then .fin false 0 0 else x.f32 (jC w) t)); (r.bits, r.fl)
        Quiet x f → FloatDone x 1 f x.random.2 (exec (e.1 w) s)) ∧
    ∀ e ∈ ([(.pkadd, fun rm a b _ => addV rm a b), (.pkmul, fun _ a b _ => mulV a b), (.pkfma, fmaV)] :
        List ((JWord → Instr) × (Nat → FV → FV → FV → FV × Flg))),
      ∀ w s x, Issues (e.1 w) {} s x →
        let F := if jType w = 0 then Fmt.bf16 else .f16
        let el := fun (d : BitVec 10) (k t : Nat) => F.source (modeFtzi x.p.mode) (natBits (x.src1 d t).toNat (16 * k) 16)
        let r := fun (k t : Nat) => fres x.rnd (randomOf (x.random.1 t) k) F (e.2 x.rnd.rm (el w.a k t) (el w.b k t)
          (if jImm w then .fin false 0 0 else el (jC w) k t))
        let f := fun t => ((r 0 t).bits + (r 1 t).bits * 2 ^ 16, (r 0 t).fl ||| (r 1 t).fl)
        Quiet x f → FloatDone x 1 f x.random.2 (exec (e.1 w) s)) ∧
  (
    (∀ e ∈ ([(.fmin, false), (.fmax, true)] : List ((JWord → Instr) × Bool)), ∀ w s x, Issues (e.1 w) {} s x →
      let f := fun t => let r := minMax e.2 (modeFtzi x.p.mode) (x.src1 w.a t).toNat (x.src1 w.b t).toNat; (r.bits, r.fl)
      Quiet x f → FloatDone x 1 f x.p.gen (exec (e.1 w) s)) ∧
    (∀ w s x, Issues (.fcmp w) {} s x →
      let fl := fun t => flagIf ((x.f32 w.a t).isSig || (x.f32 w.b t).isSig) fIV
      (∀ t ∈ x.threads, fl t &&& modeEn x.p.mode = 0) →
      EndsWith x x.nextPc (fun q => q.mode = modeRaise x.p.mode (allFlags x.threads fun t => (0, fl t)) ∧
        OnlyPred x.p { q with mode := x.p.mode } (bitsOf w.d 0 6) x.threads fun t =>
          combine w (floatCompare (bitsOf w.d 6 4) (x.f32 w.a t) (x.f32 w.b t)) (pget x.p (jP w) t)) (exec (.fcmp w) s)) ∧
    ∀ w s x, Issues (.fclass w) {} s x →
      LaneDone x 1 (fun t => BitVec.ofNat 128 (2 ^ classBit (x.src1 w.a t).toNat)) id (exec (.fclass w) s))

/-- R176 to R178: RCP and SQRT are correctly rounded; RSQ, EXP2, LOG2, SIN, COS and TANH give Table 6-6's exact entries, and
elsewhere, inexactly, the device's own bits wherever they keep the bound of Table 6-5 (log 20), an underflow to zero as +0; they draw
no random bits. The result stands in its register from the issue on, which no reader meets (log 11).
R179, R180: FSUM adds the taking-part threads' values along the fixed tree, and FMAXR takes their maximum; every thread
that takes part receives the one result. FSUM's canonical result for a lone NaN is the model's choice (log 34). -/
def Obligations.SpecialFunctionsAndReductions : Prop :=
  (
    (∀ e ∈ ([(.rcp, rcpV), (.sqrt, sqrtV)] : List ((JWord → Instr) × (FV → FV × Flg))), ∀ w s x, Issues (e.1 w) {} s x →
      let f := fun t => let r := fres x.rnd (randomOf (x.random.1 t) 0) .f32 (e.2 (x.f32 w.a t)); (r.bits, r.fl)
      Quiet x f → FloatDone x 1 f x.random.2 (exec (e.1 w) s)) ∧
    ∀ e ∈ ([(.rsq, 0), (.exp2, 1), (.log2, 2), (.sin, 3), (.cos, 4), (.tanh, 5)] : List ((JWord → Instr) × Nat)),
      ∀ w s x, Issues (e.1 w) {} s x → modeEn x.p.mode = 0 →
        ∃ f, FloatDone x 1 f x.p.gen (exec (e.1 w) s) ∧ ∀ t ∈ x.threads, modeFtzo x.p.mode = false →
          (∀ v fl, sfuExact e.2 (x.f32 w.a t) = some (v, fl) → f t = (exactF32 v, fl)) ∧
          ∀ neg m n, sfuExact e.2 (x.f32 w.a t) = none → x.f32 w.a t = .fin neg m n →
            (f t).2 = (fNX ||| flagIf (sfuTiny e.2 (x.f32 w.a t)) fUF) ∧
            let r := Config.sfuValue e.2 (x.src1 w.a t)
            (withinUlp (sfuUlp e.2) (sfuReal e.2 neg m n) r.toNat = true → (f t).1 = if r.toNat = 2 ^ 31 then 0 else r.toNat)) ∧
  (
    (∀ w s x, Issues (.fsum w) {} s x → x.tp ≠ 0 →
      let word := x.random.1 ((threadsOf x.tp).headD 0)
      let leaf := fun t => if x.tp.getLsbD t then
          let b := (x.src1 w.a t).toNat
          let v := Fmt.f32.source (modeFtzi x.p.mode) b
          some (⟨if v.isZero then Fmt.f32.signed (b.testBit 31) 0 else b, flagIf v.isSig fIV⟩ : FOut)
        else none
      let c := sumComb x.rnd word
      ∀ r, c 6 (c 4 (c 0 (leaf 0) (leaf 1)) (c 1 (leaf 2) (leaf 3))) (c 5 (c 2 (leaf 4) (leaf 5)) (c 3 (leaf 6) (leaf 7))) = some r →
        r.fl &&& modeEn x.p.mode = 0 →
        LaneDone x 1 (fun _ => BitVec.ofNat 128 (if (Fmt.f32.read r.bits).isNan then Fmt.f32.nanBits else r.bits))
          (fun p => { p with gen := x.random.2 }) (exec (.fsum w) s) r.fl) ∧
    ∀ w s x a rest, Issues (.fmaxr w) {} s x → x.threads = a :: rest →
      let m := fun t => (x.src1 w.a t).toNat
      let f := fun t => ((rest.foldl (fun y u => (minMax true (modeFtzi x.p.mode) y (m u)).bits) (minMax true (modeFtzi x.p.mode) (m a) (m a)).bits),
        flagIf (x.f32 w.a t).isSig fIV)
      Quiet x f → FloatDone x 1 f x.p.gen (exec (.fmaxr w) s))

/-- R157 to R162: CVT, CVTI, CVTF, CVTPK, CVTUP and FSCALE convert element by element, each element rounded once;
when a long-latency form's result is written is log 11. -/
def Obligations.Conversions : Prop :=
  (∀ w s x, Issues (.cvt w) {} s x →
    let F := fmtOf (bitsOf w.min 0 3)
    let f := fun t => let r := conv x.rnd (randomOf (x.random.1 t) 0) (fmtOf (bitsOf w.min 3 3)) (x.real F w.a 0 t); (r.bits, r.fl)
    Quiet x f → FloatDone x 1 f x.random.2 (exec (.cvt w) s)) ∧
  (∀ w s x, Issues (.cvti w) {} s x →
    let F := fmtOf (bitsOf w.min 0 3)
    let f := fun t => toIntWord x.rnd (randomOf (x.random.1 t) 0) (bitsOf w.min 3 4) (x.real F w.a 0 t)
    Quiet x f → FloatDone x 1 f x.random.2 (exec (.cvti w) s)) ∧
  (∀ w s x, Issues (.cvtf w) {} s x →
    let n := fun t => ofSigned false (elemOf (intFmtType (bitsOf w.min 0 4)) 0 (x.src1 w.a t).toNat) 0
    let f := fun t => let r := conv x.rnd (randomOf (x.random.1 t) 0) (fmtOf (bitsOf w.min 4 3)) (n t); (r.bits, r.fl)
    Quiet x f → FloatDone x 1 f x.random.2 (exec (.cvtf w) s)) ∧
  (∀ w s x, Issues (.cvtpk w) {} s x →
    let cnt := 2 ^ (bitsOf w.min 4 3 + 1)
    let dst := bitsOf w.min 0 4
    let el := fun (t i : Nat) =>
      let e := if i < 4 then natBits (x.num w.a (min cnt 4) false t) (32 * i) 32 else natBits (if cnt = 8 then x.num w.b 4 false t else 0) (32 * (i - 4)) 32
      let v := mulV (Fmt.f32.source (modeFtzi x.p.mode) e) (x.scale t)
      if 9 ≤ dst then let r := toIntWord x.rnd (randomOf (x.random.1 t) i) dst v.1; (r.1, r.2 ||| v.2)
      else let r := fres x.rnd (randomOf (x.random.1 t) i) (fmtOf dst) v; (r.bits, r.fl)
    let f := fun t => joinElems (if dst < 3 then 16 else 8) ((List.range cnt).map (el t))
    Quiet x f → FloatDone x (cvtpkD w) f x.random.2 (exec (.cvtpk w) s)) ∧
  (∀ w s x, Issues (.cvtup w) {} s x →
    let cnt := 2 ^ (bitsOf w.min 5 2 + 1)
    let D := fmtOf (bitsOf w.min 3 2)
    let S := fmtOf (bitsOf w.min 0 3)
    let f := fun t => joinElems D.width ((List.range cnt).map fun i =>
      let e := S.source (modeFtzi x.p.mode) (natBits (x.num w.a ((cnt * S.width + 31) / 32) false t) (S.width * i) S.width)
      let r := fres x.rnd (randomOf (x.random.1 t) i) D (mulV e (x.scale t))
      (r.bits, r.fl))
    Quiet x f → FloatDone x ((cnt * D.width + 31) / 32) f x.random.2 (exec (.cvtup w) s)) ∧
  ∀ w s x, Issues (.fscale w) {} s x →
    let F := if jType w = 0 then Fmt.f32 else if jType w = 1 then .bf16 else .f16
    let f := fun t => joinElems F.width ((List.range (32 / F.width)).map fun i =>
      let r := conv x.rnd (randomOf (x.random.1 t) i) F (scaleV (signedOf 32 (x.src1 w.b t).toNat) (x.real F w.a i t))
      (r.bits, r.fl))
    Quiet x f → FloatDone x 1 f x.random.2 (exec (.fscale w) s)

/-- R149, R163, R164: GETMODE reads MODE or a thread's generator; SETMODE writes the bits of A that B names, or the immediate,
where the value is one MODE may hold; SETMODE of a generator stores 1 for a zero.
R147, R168: a form one of whose threads raises an enabled condition traps with cause 0x0A and has no effect: a short form
at its issue; a long-latency form stays pending and traps at its completion, with W of its window (R58) and the groups it popped
back in their ports. A long-latency form that
completes puts its conditions into MODE.FLG then (R176); its result stands in its register from the issue on, which no reader meets (log 11). -/
def Obligations.ModeAndConditionTraps : Prop :=
  (
    (∀ w s x, Issues (.getmode w) { modeSerial := true } s x →
      LaneDone x 1 (fun _ => x.p.mode.setWidth 128) id (exec (.getmode w) s)) ∧
    (∀ w s x, Issues (.getmodeGen w) { modeSerial := true } s x →
      LaneDone x 1 (fun t => (mget x.p.gen t).setWidth 128) id (exec (.getmodeGen w) s)) ∧
    (∀ w s x, Issues (.setmode w) { modeSerial := true } s x → x.tp ≠ 0 →
      let m := ((x.p.mode &&& ~~~(x.src1 w.b 0)) ||| (x.src1 w.a 0 &&& x.src1 w.b 0)) &&& 0x7FFFF
      if modeOk m then EndsWith x x.nextPc (fun q => q = { x.p with mode := m }) (exec (.setmode w) s)
      else exec (.setmode w) s = x.trapT 0x02 3) ∧
    (∀ w s x, Issues (.setmodeImm w) { modeSerial := true } s x → x.tp ≠ 0 →
      if modeOk (w.mod &&& 0x7FFFF) then EndsWith x x.nextPc (fun q => q = { x.p with mode := w.mod &&& 0x7FFFF }) (exec (.setmodeImm w) s)
      else exec (.setmodeImm w) s = x.trapT 0x02 3) ∧
    ∀ w s x, Issues (.setmodeGen w) { modeSerial := true } s x →
      EndsWith x x.nextPc (fun q => sameArch { q with gen := x.p.gen } x.p ∧ ∀ t, t < 8 → mget q.gen t =
        if t ∈ x.threads then (if x.src1 w.a t = 0 then 1 else x.src1 w.a t) else mget x.p.gen t) (exec (.setmodeGen w) s)) ∧
  (
    (∀ w s x, Issues (.fadd w) {} s x →
      let f := fun t => let r := fres x.rnd (randomOf (x.random.1 t) 0) .f32 (addV x.rnd.rm (x.f32 w.a t) (x.f32 w.b t)); (r.bits, r.fl)
      (∃ t ∈ x.threads, (f t).2 &&& modeEn x.p.mode ≠ 0) → x.w.uni = false →
      exec (.fadd w) s = x.trap { cause := 0x0A, fpc := (allFlags x.threads f).toNat,
                                  tmask := maskOf (x.threads.filter fun t => (f t).2 &&& modeEn x.p.mode != 0) }) ∧
    (∀ w s x, Issues (.rcp w) {} s x →
      let f := fun t => let r := fres x.rnd (randomOf (x.random.1 t) 0) .f32 (rcpV (x.f32 w.a t)); (r.bits, r.fl)
      (∃ t ∈ x.threads, (f t).2 &&& modeEn x.p.mode ≠ 0) →
      x.w.uni = false →
      StaysPending x x.nextPc (fun q => q = x.p) (fun e => e.complete = false ∧
        e.kind = .fpTrap (maskOf (x.threads.filter fun t => (f t).2 &&& modeEn x.p.mode != 0)) (allFlags x.threads f) x.pops) (exec (.rcp w) s)) ∧
    (∀ s r id t p y fl, findTeam s r.team = some t → findSp s r = some p → (p.pend.find? fun z => z.id == id) = some y →
      y.kind = .compute fl → y.complete = false → y.acq = none → entriesWait s id = false → s.turns.head? = some (.complete r id) →
      ∃ u q, step s = .next u ∧ KeepsOthers (takeTurn s) u r ∧ findSp u r = some q ∧ Done q id ∧ q.mode = modeRaise p.mode fl ∧
        q.v = p.v ∧ q.s = p.s ∧ q.p = p.p ∧ q.gen = p.gen ∧ q.frags = p.frags) ∧
    ∀ s r id t p y tm fpc pops, findTeam s r.team = some t → findSp s r = some p → (p.pend.find? fun z => z.id == id) = some y →
      y.kind = .fpTrap tm fpc pops → s.turns.head? = some (.complete r id) →
      step s = .next (pendTrap (updTeam (takeTurn s) r.team (unpop p.spx pops)) r t p y { cause := 0x0A, tmask := tm, fpc := fpc.toNat }))

/-- R213, R215, R216, R203, R204: LD, LDL, LDC, ST, STL and STC whose addresses pass R214's checks issue: a load binds its
destination later, a store carries its threads' data; an acquire load and a release store keep their scope.
R241, R242, R245: ATOM and RED of the operation in MIN, and ACAS, issue with each thread's operand; an ATOM and an ACAS
count as loads and bind D later, a RED without an acquire is complete at once and counts as a store. -/
def Obligations.MemoryFormsIssue : Prop :=
  (
    (∀ e ∈ ([(.ld, wantPair), (.ldl, wantOff 0x80 19), (.ldc, wantOff 0x81 21)] : List ((JWord → Instr) × (Nat → Iss → Nat → Want))),
      ∀ w s x rs, Issues (e.1 w) { memory := true } s x → x.tp ≠ 0 →
        checkAll s x.t x.p.spx .load (x.threads.map (e.2 (widthBytes w.min.toNat) x)) = .ok rs →
        let accs := accsOf rs (fun _ => 0) fun _ => 0
        x.ctrStops (pathsOf true accs) = false →
        Launched x (.load w.min.toNat w.d) true false (if jOrder w = 1 then some (narrow accs (jScope w)) else none) none accs (exec (e.1 w) s)) ∧
    (∀ e ∈ ([(.st, wantPair), (.stl, wantOff 0x80 19), (.stc, wantOff 0x81 21)] : List ((JWord → Instr) × (Nat → Iss → Nat → Want))),
      ∀ w s x rs, Issues (e.1 w) { memory := true } s x → x.tp ≠ 0 →
        checkAll s x.t x.p.spx .store (x.threads.map (e.2 (widthBytes w.min.toNat) x)) = .ok rs →
        let accs := accsOf rs (fun t => x.src w.b (widthRegs w.min.toNat) false t) fun _ => 0
        x.ctrStops (pathsOf false accs) = false →
        Launched x .store false true none (if jOrder w = 2 then some (narrow accs (jScope w)) else none) accs (exec (e.1 w) s)) ∧
    (∀ n x t, (wantPair n x t).ea = x.src2 x.w.a t + (x.w.mod.extractLsb' 0 24).signExtend 64) ∧
    ∀ tag bits n x t, let o := x.src1 x.w.a t + ((x.w.mod.extractLsb' 0 24).signExtend 64).setWidth 32
      (wantOff tag bits n x t).badEa = decide (2 ^ bits ≤ o.toNat) ∧
      (o.toNat < 2 ^ bits → (wantOff tag bits n x t).ea = BitVec.ofNat 64 (tag * 2 ^ 56 + o.toNat))) ∧
  (
    (∀ e ∈ ([(.atomAdd, false), (.atomMin, false), (.atomMax, false), (.atomAnd, false), (.atomOr, false), (.atomXor, false),
        (.atomExch, false), (.atomFadd, false), (.atomBfadd, false), (.redAdd, true), (.redMin, true), (.redMax, true), (.redAnd, true),
        (.redOr, true), (.redXor, true), (.redFadd, true), (.redBfadd, true)] : List ((JWord → Instr) × Bool)),
      ∀ w s x rs, Issues (e.1 w) { memory := true } s x → x.tp ≠ 0 →
        let n := widthBytes (bitsOf w.min 0 3)
        checkAll s x.t x.p.spx .atomic (x.threads.map fun t => { thread := t, ea := x.src2 w.a t + jOffA w, n := n }) = .ok rs →
        let accs := accsOf rs (fun t => x.src w.b (n / 4) false t) fun _ => 0
        let acq := decide (jOrder w = 1 ∨ jOrder w = 3)
        x.ctrStops (pathsOf (!e.2) accs) = false →
        Launched x (.atom (bitsOf w.min 3 4) n (if e.2 then 0x348 else w.d)) (!e.2) (e.2 && !acq)
          (if acq then some (narrow accs (jScope w)) else none)
          (if 2 ≤ jOrder w then some (narrow accs (jScope w)) else none) accs (exec (e.1 w) s)) ∧
    ∀ w s x rs, Issues (.acas w) { memory := true } s x → x.tp ≠ 0 →
      let n := widthBytes w.min.toNat
      checkAll s x.t x.p.spx .atomic (x.threads.map fun t => { thread := t, ea := x.src2 w.a t + jOffA w, n := n }) = .ok rs →
      let accs := accsOf rs (fun t => x.src w.b (n / 4) false t) fun t => x.src (jC17 w) (n / 4) false t
      x.ctrStops (pathsOf true accs) = false →
      Launched x (.acas n w.d) true false (if jOrder w = 1 ∨ jOrder w = 3 then some (narrow accs (jScope w)) else none)
        (if 2 ≤ jOrder w then some (narrow accs (jScope w)) else none) accs (exec (.acas w) s))

/-- R214, R388, R399: a memory form one of whose addresses fails a check takes that check's trap, with the failing threads, or the
active ones of a uniform form; where only a translation is missing its fragment waits for the walk of its page.
R188, R205: an access to system memory that gets no answer, and a load that meets bad data, trap with cause 0x0D. -/
def Obligations.AddressAndAccessTraps : Prop :=
  (
    ∀ e ∈ ([(.ld, wantPair), (.ldl, wantOff 0x80 19), (.ldc, wantOff 0x81 21)] : List ((JWord → Instr) × (Nat → Iss → Nat → Want))),
    ∀ w s x, Issues (e.1 w) { memory := true } s x → x.tp ≠ 0 →
      (∀ c r ea m, checkAll s x.t x.p.spx .load (x.threads.map (e.2 (widthBytes w.min.toNat) x)) = .trap c r ea m →
        exec (e.1 w) s = x.trap { cause := c, reason := r, tmask := if w.uni then x.tp else m, addr := ea }) ∧
      (∀ g ea m, checkAll s x.t x.p.spx .load (x.threads.map (e.2 (widthBytes w.min.toNat) x)) = .walk g ea m →
        ∃ u, exec (e.1 w) s = .next u ∧ u.mem = s.mem ∧ findFrag u x.r = some { x.f with st := .walking g ea (if w.uni then x.tp else m) } ∧
          ∀ d, findDie u x.t.die = some d → ∃ h, (teamTenant s x.t, h) ∈ d.walks ∧ (h = g ∨ samePage s x.t.die (teamTenant s x.t) g h = true))) ∧
  (
    (∀ s r id t p x a rest, findPend s r id = some (t, p, x) → x.uni = false →
      ((∃ c d, x.kind = .load c d) ∨ x.kind = .store ∨ (∃ o n d, x.kind = .atom o n d) ∨ ∃ n d, x.kind = .acas n d) →
      (x.accs.filter fun a => match a.loc with | .mem pa _ _ _ _ _ => !isHbm pa | _ => false) = a :: rest →
      exec (.systemMemoryTimeout r id) s =
        .next (pendTrap s r t p x { cause := 0x0D, reason := 2, tmask := maskOf ((a :: rest).map (·.thread)), addr := a.ea,
                                        info := BitVec.ofNat 64 (badInfo (accPa a)) })) ∧
    ∀ s r id t p x a c d pa owner cls pte base size, findPend s r id = some (t, p, x) → x.kind = .load c d → x.accs = [a] → x.uni = false →
      pendMay s r p x = true → x.rel = none → groupMay s r p x [] [a] = true →
      a.loc = .mem pa owner cls pte base size → isHbm pa = false → sysUp s pa = true → pageDiscarded s pte = false → memBad s pa a.n = true →
      exec (.loadDataArrival r id) s = .next (pendTrap s r t p x { cause := 0x0D, reason := 1, tmask := maskOf [a.thread], addr := a.ea, info := BitVec.ofNat 64 (badInfo pa) }))

/-- R217, R204, R216, R242: a load whose accesses are all performed writes what it read and is done; a store or an atomic likewise;
each thread's accesses are performed by one read, write or update, an update of an atomic as Table 8-4 says. -/
def Obligations.AccessesPerformed : Prop :=
  (∀ s r id t p x, findPend s r id = some (t, p, x) → pendMay s r p x = true →
    let w := performed s r t p x
    w.left = [] → w.bad = none →
    ((∃ c d, x.kind = .load c d) → ∃ u q, exec (.loadDataArrival r id) s = .next u ∧ u.mem = w.s.mem ∧ findSp u r = some q ∧
      q.v = (writeGot x w.got p).v ∧ q.s = (writeGot x w.got p).s ∧ q.p = p.p ∧ Done q id) ∧
    (x.kind = .store ∨ isAtomic x.kind = true → ∃ u q, exec (.accessDone r id) s = .next u ∧ u.mem = w.s.mem ∧ findSp u r = some q ∧
      q.v = (writeGot x w.got p).v ∧ q.s = (writeGot x w.got p).s ∧ q.p = p.p ∧ Done q id ∧
      (findTeam u r.team).map (·.ports) = some (dropPushed t id).ports)) ∧
  (∀ r t p x (w : Work) g s1 v, w.bad = none → w.left = [] → groupMay w.s r p x [] g = true → actOn t x g w.s = .ok (s1, v) →
    let z := workStep r t p x w g
    z.s.mem = s1.mem ∧ z.left = [] ∧ z.bad = none ∧
      z.got = w.got ++ (v.map fun v => ((g.headD default).thread, BitVec.ofNat 128 v)).toList) ∧
  (∀ s t x a, x.kind = .store → actOn t x [a] s =
    (writeAt s t (keepsL1 x) a.loc ((List.range a.n).map fun i => byteAt a.val (a.part + i))).map fun s => (s, none)) ∧
  ∀ s team port t y e p, findTeam s team = some t → t.port port = some y → y.pushed.head? = some e →
    (t.spindles.find? fun p => p.pend.any fun x => x.id == e.1) = some p →
    ∃ u, exec (.streamPushPerform team port) s = .next u ∧ exec (.accessDone { team := team, spx := p.spx } e.1) s = .next u

/-- R216, R189, R193, R398: what a store leaves is what a read of the same bytes then finds; of one owner's memory, and of a
scratchpad, every other byte reads as before. -/
def Obligations.WritesLandExactly : Prop :=
  (∀ s (t u : Team) al off bs s1, findTeam s u.id = some u → writeAt s t al (.scratch u.id off) bs = .ok s1 →
    s1.mem = s.mem ∧ ∃ v, findTeam s1 u.id = some v ∧
      ∀ i, mget v.scratch i = if off ≤ i ∧ i < off + bs.length then bs.getD (i - off) 0 else mget u.scratch i) ∧
  (∀ s owner pa bs b, memByte (writeMem s owner pa bs) owner b =
    if pa ≤ b ∧ b < pa + bs.length then bs.getD (b - pa) 0 else memByte s owner b) ∧
  ∀ s (t : Team) pa owner cls pte base size bs st al s1 s2 out, (∀ x ∈ s.l1, x.data.length = 32 ∧ x.sec % 32 = 0) →
    base % 256 = 0 → size % 256 = 0 → pa % 32 + bs.length ≤ 32 →
    writeAt s t st (.mem pa owner cls pte base size) bs = .ok s1 → pageDiscarded s1 pte = false →
    readAt s1 t al (.mem pa owner cls pte base size) bs.length = .ok (s2, out) → out = bs

/-- R218, R219, R220: PREF changes no register and no counter, and moves data between caches alone: a line that the die's L2 may
read enters the L1, with the retention of its policy, and else its tokens are asked for (log 39); CCTL.INVRS drops its core's read-shared sectors, the other CCTL forms and
DISCARD stay pending with their lines (what CCTL checks is log 35), and at their performance write the selected sectors back, drop copies, or make the
discarded lines and stack words zero (log 36) and the discarded pages discarded. -/
def Obligations.CacheForms : Prop :=
  (∀ w s x, Issues (.pref w) { memory := true } s x →
    ∃ t p, exec (.pref w) s = .next t ∧ findSp t x.r.sp = some p ∧ sameArch p x.p ∧ Moved x x.nextPc p ∧ KeepsOthers s (cachesOf s t) x.r.sp ∧
      ((l1Lines s x.t.die x.t.core).length + 8 ≤ l1Cap → t.mem = s.mem)) ∧
  (∀ s (t : Team) policy va pa owner cls pte base size, isHbm pa = true → pageDiscarded s pte = false → homeLost s pa = false →
    (mayRead s (.l2 t.die) (lineOf pa) = true → cls ≠ .coherent → (∀ i < 8, memBad s (lineOf pa + 32 * i) 32 = false) → policy ≠ 2 →
      (policy = 1 ∨ policy = 3 →
        (t.die, t.core, lineOf pa, policy == 3) ∈ (prefetch t policy va s (.mem pa owner cls pte base size)).l1Keep) ∧
      ∀ i < 8, (l1Find (prefetch t policy va s (.mem pa owner cls pte base size)) t.die t.core (lineOf pa + 32 * i) owner).isSome = true) ∧
    (mayRead s (.l2 t.die) (lineOf pa) = false →
      ∃ q ∈ (prefetch t policy va s (.mem pa owner cls pte base size)).reqs, q.h = .l2 t.die ∧ q.line = lineOf pa)) ∧
  (∀ w s x, Issues (.cctlInvrs w) { memory := true } s x → x.tp ≠ 0 →
    ∃ t p, exec (.cctlInvrs w) s = .next t ∧ KeepsOthers s { t with l1 := s.l1 } x.r.sp ∧ findSp t x.r.sp = some p ∧ sameArch p x.p ∧
      Moved x x.nextPc p ∧ t.l1 = s.l1.filter fun y => !(y.die == x.t.die && y.core == x.t.core && y.cls == .shared)) ∧
  (∀ e ∈ ([(.cctlWb, 0), (.cctlInv, 1), (.cctlIinv, 2)] : List ((JWord → Instr) × Nat)),
    ∀ w s x rs, Issues (e.1 w) { memory := true } s x → x.tp ≠ 0 → checkAll s x.t x.p.spx .pref (x.threads.map (wantPair 1 x)) = .ok rs →
      let accs := (accsOf rs (fun _ => 0) fun _ => 0).filter fun a => match a.loc with
        | .mem pa _ _ _ _ _ => e.2 == 2 || isHbm pa
        | _ => false
      if accs = [] then GoesOn x (exec (e.1 w) s)
      else x.ctrStops [1] = false → StaysPending x x.nextPc (Raised x 1)
        (fun y => y.kind = .cctl e.2 ∧ y.complete = true ∧ y.accs = accs) (exec (e.1 w) s)) ∧
  (∀ w s x, Issues (.cctlWball w) { memory := true } s x → x.tp ≠ 0 → x.ctrStops [1] = false →
    StaysPending x x.nextPc (Raised x 1) (fun y => y.kind = .cctl 4 ∧ y.complete = true ∧ y.accs = []) (exec (.cctlWball w) s)) ∧
  (∀ w s x rs, Issues (.discard w) { memory := true } s x →
    let at_ := fun (t : Nat) => x.src2 w.a t + jOffM w
    let len := fun (t : Nat) => (x.src1 w.b t).toNat
    let wants := x.threads.flatMap fun t => discardWants x.t.stks.toNat (at_ t) (len t) t
    (wants = [] → GoesOn x (exec (.discard w) s)) ∧
    (wants ≠ [] → checkAll (if wants.length ≤ 16384 then s else walkAll s x.t x.p.spx wants) x.t x.p.spx .discard wants = .ok rs →
      x.ctrStops [1] = false → StaysPending x x.nextPc (Raised x 1) (fun y => y.kind = .discard ∧ y.complete = true ∧
        y.accs = x.threads.flatMap fun t => discardAccs (at_ t) (len t) t (rs.filter fun r => r.1.thread == t)) (exec (.discard w) s))) ∧
  (∀ s r id t p x a pa owner cls pte base size, findPend s r id = some (t, p, x) → x.kind = .discard → x.accs = [a] →
    a.loc = .mem pa owner cls pte base size → homeLost s pa = false → pageDiscarded s pte = false → pendMay s r p x = true →
    groupMay s r p x [] [a] = true →
    (∀ k, a.part = 0 → a.n = 256 * k → (∀ i < k, isHbm (pa + 256 * i) = true ∧ mayWrite s (.l2 t.die) (pa + 256 * i) = true ∧
        ∀ q ∈ s.reqs, q.h ≠ .l2 t.die ∨ q.line ≠ pa + 256 * i) →
      ∃ u q, exec (.accessDone r id) s = .next u ∧ findSp u r = some q ∧ Done q id ∧ q.v = p.v ∧ q.s = p.s ∧
        ∀ b, mget u.mem b = if pa ≤ b ∧ b < pa + a.n then 0 else mget s.mem b) ∧
    (a.part = 1 →
      ∃ u q, exec (.accessDone r id) s = .next u ∧ findSp u r = some q ∧ Done q id ∧ q.v = p.v ∧ q.s = p.s ∧ pageDiscarded u pte = true ∧
        ∀ b, (b < pte ∨ pte + 8 ≤ b) → mget u.mem b = mget s.mem b) ∧
    (∀ s1, a.part = 2 → writeAt s t true a.loc (List.replicate a.n 0) = .ok s1 →
      ∃ u q, exec (.accessDone r id) s = .next u ∧ u.mem = s1.mem ∧ findSp u r = some q ∧ Done q id ∧ q.v = p.v ∧ q.s = p.s)) ∧
  (∀ s r id t p x op, findPend s r id = some (t, p, x) → x.kind = .cctl op → op ≠ 2 → (before p id).any pendOpen = false →
    ∃ u q, exec (.accessDone r id) s = .next u ∧ findSp u r = some q ∧ Done q id ∧ q.v = p.v ∧ q.s = p.s ∧
      ∀ y ∈ u.l1, ofCore t.die t.core y = true → (op = 4 → y.cls = .priv → y.dirty = false) ∧
        ∀ a ∈ x.accs, lineOf y.sec = lineOf (accPa a) → (op = 0 → y.dirty = false) ∧ op ≠ 1) ∧
  ∀ s r id t p x, findPend s r id = some (t, p, x) → x.kind = .cctl 2 →
    ∃ u q, exec (.accessDone r id) s = .next u ∧ u.mem = s.mem ∧ findSp u r = some q ∧ Done q id ∧ q.v = p.v ∧ q.s = p.s ∧
      ∀ a ∈ x.accs, ∀ c ∈ u.icache, lineOf c.pa ≠ lineOf (accPa a)

/-- R206, R207, R221, R222, R223: QCFG (its operands are s registers: it pops nothing) binds a port to the
spindle with the pattern that A and B give, QCFG.FREE ends a binding,
QSTAT reads position (0 of a port that is free: log 37), remaining elements, modulo 2^32 (log 100), and status, WAIT goes on once the counter is low enough.
R208, R399: STREAM_FETCH brings the next group of a load stream into its port, as the pop will deliver it, behind the walk of a
translation that is not cached; a group that cannot be read, for whatever fault (log 112), is marked, to trap when it is popped. -/
def Obligations.Streams : Prop :=
  (
    (∀ w s x y, Issues (.qcfg w) { memory := true } s x → x.tp ≠ 0 → x.pops = [] →
      let q := bitsOf w.mod 0 3
      let a := x.src w.a 4 false 0
      let b := x.src w.b 4 false 0
      let base : BitVec 64 := a.extractLsb' 0 64
      let n := widthBytes (bitsOf w.mod 4 3)
      x.t.port q = some y → (y.bound = none ∨ y.bound = some x.p.spx) → bitsOf base 56 8 ∈ [0, 0x80, 0x81] → base.toNat % n = 0 →
      bitsOf a 64 32 % n = 0 → bitsOf a 96 32 % n = 0 → bitsOf b 0 32 % n = 0 →
      let total := bitsOf b 32 32 * bitsOf b 64 32 * bitsOf b 96 32
      total ≠ 0 → total % 8 = 0 → total ≤ 2 ^ 32 →
      ∃ t p c z, exec (.qcfg w) s = .next t ∧ KeepsOthers s t x.r.sp ∧ findSp t x.r.sp = some p ∧ sameArch p x.p ∧ Moved x x.nextPc p ∧
        findTeam t x.r.sp.team = some c ∧ c.port q = some z ∧ z.bound = some x.p.spx ∧ z.base = base ∧ z.w = n ∧ z.wcode = bitsOf w.mod 4 3 ∧
        z.d0 = signedOf 32 (bitsOf a 64 32) ∧ z.d1 = signedOf 32 (bitsOf a 96 32) ∧ z.d2 = signedOf 32 (bitsOf b 0 32) ∧
        z.n0 = bitsOf b 32 32 ∧ z.n1 = bitsOf b 64 32 ∧ z.n2 = bitsOf b 96 32 ∧ z.pos = 0 ∧ z.fetched = [] ∧ ∀ k, k ≠ q → c.port k = x.t.port k) ∧
    (∀ w s x y, Issues (.qcfgFree w) {} s x → x.tp ≠ 0 → x.t.port (bitsOf w.mod 0 3) = some y → y.bound = some x.p.spx →
      ∃ t p c z, exec (.qcfgFree w) s = .next t ∧ KeepsOthers s t x.r.sp ∧ findSp t x.r.sp = some p ∧ sameArch p x.p ∧ Moved x x.nextPc p ∧
        findTeam t x.r.sp.team = some c ∧ c.port (bitsOf w.mod 0 3) = some z ∧ z.bound = none ∧ z.fetched = []) ∧
    (∀ e ∈ ([(.qstatPos, fun _ _ y => 8 * y.pos), (.qstatLeft, fun _ _ y => if y.bound.isSome then y.total - 8 * y.pos else 0),
        (.qstatStat, fun me q y => (if y.bound.isSome then 1 else 0) + (if y.bound = some me then 2 else 0) + (if 4 ≤ q then 4 else 0) +
          (if y.fetched.any fun g => g.any (·.2) then 8 else 0) + 256 * ((y.fetched.length + y.pushed.length) % 256))] :
        List ((JWord → Instr) × (Nat → Nat → Port → Nat))),
      ∀ w s x, Issues (e.1 w) { memory := true } s x →
        LaneDone x 1 (fun _ => BitVec.ofNat 128 (((x.t.port (bitsOf w.mod 0 3)).map (e.2 x.p.spx (bitsOf w.mod 0 3))).getD 0 % 2 ^ 32)) id (exec (e.1 w) s)) ∧
    ∀ w s x, Issues (.wait w) { serial := true, memory := true } s x → x.tp ≠ 0 →
      let c := if w.a = 0x348 then bitsOf w.mod 0 6 else (x.src1 w.a 0).toNat
      (ctrOf x.p w.min.toNat ≤ c → EndsWith x x.nextPc (fun q => q = if w.min = 3 then seenStores x.s.nextId x.p else x.p) (exec (.wait w) s)) ∧
      (c < ctrOf x.p w.min.toNat → exec (.wait w) s = .next (stallAt s x.r 0))) ∧
  (
    ∀ s team port t y spx rs, findTeam s team = some t → t.port port = some y → y.bound = some spx → t.st = .resident → port < 4 →
      8 * (y.pos + y.fetched.length) < y.total → (y.fetched.length + 1) * 8 * y.w ≤ 1024 →
      let g := y.pos + y.fetched.length
      let own := ((t.spindle? spx).map (·.pend)).getD []
      let mine := accsOf rs (fun _ => 0) fun _ => 0
      (∀ s1 e, checkAll s t spx .load (y.wants g) = .ok rs → threadMeets own mine = false →
        pendMeets (fencedFor s { team := team, spx := spx } own) mine = false → fetchGroup t y rs s = .ok (s1, e) →
        ∃ u c z, exec (.streamFetch team port) s = .next u ∧ u.mem = s1.mem ∧ findTeam u team = some c ∧ c.port port = some z ∧
          z = { y with fetched := y.fetched ++ [e] }) ∧
      (∀ h ea m s1, checkAll s t spx .load (y.wants g) = .walk h ea m → tlbWalk s t h = some s1 → exec (.streamFetch team port) s = .next s1) ∧
      ((∃ c r ea m, checkAll s t spx .load (y.wants g) = .trap c r ea m) ∨
        (∃ c i, checkAll s t spx .load (y.wants g) = .ok rs ∧ threadMeets own mine = false ∧
          pendMeets (fencedFor s { team := team, spx := spx } own) mine = false ∧ fetchGroup t y rs s = .error (.bad c i)) →
        ∃ u d z, exec (.streamFetch team port) s = .next u ∧ findTeam u team = some d ∧ d.port port = some z ∧
          z.pos = y.pos ∧ ∃ e, z.fetched = y.fetched ++ [e] ∧ ∀ k ∈ e, k.2 = true))

/-- R194, R196, R197: a holder's answer to TRS and TRX, and what TOK and WBK leave with their destination; no message changes
memory.
R194, R198, R199, R200: a new attempt after 500 ns, PREQ once the fourth has failed or after 2 µs; the home activates the oldest entry of
a line and tells every holder; an activated holder gives its tokens to the requester, and PDONE ends it; an eviction gives the
line to the home. -/
def Obligations.TokenProtocol : Prop :=
  (
    (∀ s m line req h, findMsg s m = some (.trs line req h) → h ≠ req → req ≠ .home → (∀ x ∈ s.toks, x.h ≠ .home) →
      let s0 := dropMsg s m
      ((ownRequest s0 h line = true ∨ tokOwner s0 h line = false) → exec (.trs m) s = .next s0) ∧
      (ownRequest s0 h line = false → tokOwner s0 h line = true → 1 ≤ tokCount s0 h line →
        ∃ u, exec (.trs m) s = .next u ∧ u.mem = s.mem ∧
          u.msgs = s0.msgs ++ [({ id := s.nextId, body := .tok line req 1 (decide (tokCount s0 h line = 1)) true } : Msg)] ∧
          tokCount u h line = tokCount s0 h line - 1 ∧ (2 ≤ tokCount s0 h line → tokOwner u h line = true) ∧
          (∀ k, k ≠ h → k ≠ .home → tokAt u k line = tokAt s k line) ∧ ∀ k l, l ≠ line → tokAt u k l = tokAt s k l)) ∧
    (∀ s m line req h, findMsg s m = some (.trx line req h) → h ≠ req → req ≠ .home → (∀ x ∈ s.toks, x.h ≠ .home) →
      let s0 := dropMsg s m
      ((ownRequest s0 h line = true ∨ tokCount s0 h line = 0) → exec (.trx m) s = .next s0) ∧
      (ownRequest s0 h line = false → tokCount s0 h line ≠ 0 →
        ∃ u, exec (.trx m) s = .next u ∧ u.mem = s.mem ∧ u.msgs = s0.msgs ++ [({ id := s.nextId, body := .tok line req (tokCount s0 h line) (tokOwner s0 h line) (tokOwner s0 h line) } : Msg)] ∧ tokCount u h line = 0 ∧
          (∀ x ∈ u.l1c, h = .l2 x.die → x.line ≠ line) ∧
          (∀ k, k ≠ h → k ≠ .home → tokAt u k line = tokAt s k line) ∧ ∀ k l, l ≠ line → tokAt u k l = tokAt s k l)) ∧
    (∀ s m line n owner data h, findMsg s m = some (.tok line h n owner data) → h ≠ .home → n ≠ 0 →
      let s0 := dropMsg s m
      ((actFor s h line = none ∨ actFor s h line = some h) → (∀ k, lineRoom h = some k → (s.toks.filter fun x => x.h == h).length < k) →
        ∃ u, exec (.tok m) s = .next u ∧ u.mem = s.mem ∧ u.msgs = s0.msgs ∧
        tokCount u h line = tokCount s h line + n ∧ tokOwner u h line = (tokOwner s h line || owner) ∧
        tokValid u h line = (tokValid s h line || data)) ∧
      (∀ r, actFor s h line = some r → r ≠ h → r ≠ .home → ∃ u, exec (.tok m) s = .next u ∧ u.mem = s.mem ∧ u.toks = s.toks ∧
        u.msgs = s0.msgs ++ [({ id := s.nextId, body := .tok line r n owner owner } : Msg)])) ∧
    ∀ s m line n owner data, findMsg s m = some (.wbk line n owner data) → (∀ x ∈ s.toks, x.h ≠ .home) →
      let s0 := dropMsg s m
      ((actFor s .home line = none ∨ actFor s .home line = some .home) → ∃ u, exec (.wbk m) s = .next u ∧ u.mem = s.mem ∧ u.toks = s.toks ∧
        u.msgs = s0.msgs) ∧
      ∀ r, actFor s .home line = some r → r ≠ .home → ∃ u, exec (.wbk m) s = .next u ∧ u.mem = s.mem ∧ u.toks = s.toks ∧
        u.msgs = s0.msgs ++ [({ id := s.nextId, body := .tok line r n owner owner } : Msg)]) ∧
  (
    (∀ s h line r, (s.reqs.find? fun r => r.h == h && r.line == line) = some r → r.persistent = false → reqMet s r = false →
      (r.attempts < 4 → r.total < 2400 → 600 ≤ r.age →
        ∃ u x, exec (.transientAttemptTimeout h line) s = .next u ∧ u.mem = s.mem ∧ u.toks = s.toks ∧
          (u.reqs.find? fun r => r.h == h && r.line == line) = some x ∧ x.attempts = r.attempts + 1 ∧ x.age = 0 ∧ x.persistent = false ∧
          u.msgs.map (·.body) = s.msgs.map (·.body) ++ ((allHolders.filter (· != h)).map fun d =>
            if r.write then MsgBody.trx line h d else .trs line h d)) ∧
      ((4 ≤ r.attempts ∧ 600 ≤ r.age) ∨ 2400 ≤ r.total → preqCount s h (homeDie line) < 4 →
        ∃ u x, exec (.transientAttemptTimeout h line) s = .next u ∧ u.mem = s.mem ∧ u.toks = s.toks ∧
          (u.reqs.find? fun r => r.h == h && r.line == line) = some x ∧ x.persistent = true ∧
          u.msgs.map (·.body) = s.msgs.map (·.body) ++ [.preq line r.write h])) ∧
    (∀ s m line write req d, findMsg s m = some (.preq line write req) → findDie s (homeDie line) = some d →
      ∃ u, exec (.preq m) s = .next u ∧ u.mem = s.mem ∧ u.toks = s.toks ∧
        ((∃ p ∈ s.preqs, p.line = line) → (∀ p ∈ s.preqs, p.line = line → p.seq.isSome) → u.msgs = (dropMsg s m).msgs) ∧
        ((∀ p ∈ s.preqs, p.line ≠ line) → u.msgs.map (·.body) = (dropMsg s m).msgs.map (·.body) ++
          allHolders.map fun h => .pact line req h (d.preqSeq + 1)) ∧
        (u.preqs.map fun p => (p.line, p.req)) = (s.preqs.map fun p => (p.line, p.req)) ++ [(line, req)]) ∧
    (∀ s m line req h q, findMsg s m = some (.pact line req h q) → (h, line, q) ∉ s.deacts → req ≠ .home → (∀ x ∈ s.toks, x.h ≠ .home) →
      ∃ u, exec (.pact m) s = .next u ∧ u.mem = s.mem ∧ u.acts = (h, line, req, q) :: s.acts ∧
        (h ≠ req → tokCount (dropMsg s m) h line ≠ 0 → tokCount u h line = 0 ∧ u.msgs = (dropMsg s m).msgs ++ [({ id := s.nextId, body := .tok line req (tokCount (dropMsg s m) h line) (tokOwner (dropMsg s m) h line) (tokOwner (dropMsg s m) h line) } : Msg)]) ∧
        (h = req → u.toks = s.toks ∧ u.msgs = (dropMsg s m).msgs)) ∧
    (∀ s m line q, findMsg s m = some (.pdone line q) → (∀ p ∈ s.preqs, p.line = line → p.seq = some q) →
      ∃ u, exec (.pdone m) s = .next u ∧ u.mem = s.mem ∧ u.toks = s.toks ∧ u.preqs = s.preqs.filter (fun p => !(p.line == line && p.seq == some q)) ∧
        u.msgs.map (·.body) = (dropMsg s m).msgs.map (·.body) ++ allHolders.map fun h => .pdeact h line q) ∧
    (∀ s m h line q, findMsg s m = some (.pdeact h line q) →
      ∃ u, exec (.pdeact m) s = .next u ∧ u.mem = s.mem ∧ u.toks = s.toks ∧ u.msgs = (dropMsg s m).msgs ∧ ∀ r, (h, line, r, q) ∉ u.acts) ∧
    ∀ s die line n, tokAt s (.l2 die) line = some n → n.n ≠ 0 →
      ∃ u, exec (.l2Eviction die line) s = .next u ∧ u.mem = s.mem ∧ tokCount u (.l2 die) line = 0 ∧ (∀ x ∈ u.l1c, x.die = die → x.line ≠ line) ∧
        u.msgs = s.msgs ++ [({ id := s.nextId, body := .wbk line n.n n.owner n.owner } : Msg)])

/-- R247, R250, R251: BAR and ARRIVE of the three levels arrive at their barrier and WAITB waits at it: the count must be that of the
generation, the arrival counts one up and completes the generation when the expected number has arrived; BAR and WAITB wait
while the generation has not changed, ARRIVE gives D the generation it arrived in.
R250, R253: a fragment whose barrier's generation has changed goes on behind its BAR or WAITB; one whose generation has not
stays. -/
def Obligations.HardwareBarriers : Prop :=
  (
    let arrived := fun (x : Iss) (level : Nat) (t : State) =>
      let b := getBar x.s x.t level (barId x.w)
      { t with teams := x.s.teams, grids := x.s.grids, nextId := x.s.nextId } = x.s ∧
      ∀ u : Team, findTeam t x.t.id = some u → (level = 0 ∨ (findGrid x.s x.t.grid).isSome) →
        getBar t u level (barId x.w) = if (if b.arr = 0 then (if barCount x.w = 0 then barUnit x.s x.t level else barCount x.w)
            else if b.exp = 0 then barUnit x.s x.t level else b.exp) ≤ b.arr + 1
          then { gen := b.gen + 1, arr := 0, exp := if b.arr = 0 then barCount x.w else b.exp }
          else { gen := b.gen, arr := b.arr + 1, exp := if b.arr = 0 then barCount x.w else b.exp }
    (∀ e ∈ ([(.barT, 0), (.barC, 1), (.barD, 2)] : List ((JWord → Instr) × Nat)), ∀ w s x,
      Issues (e.1 w) { serial := true, memory := true, whole := 2 } s x →
      let b := getBar s x.t e.2 (barId w)
      (b.arr = 0 ∨ barCount w = b.exp) → (2 ≤ jOrder w → releaseNow s x.r.sp (x.p.pend.filter pendOpen) (jScope w) = true) →
      (e.2 = 1 → ∃ g c, findGrid s x.t.grid = some g ∧ c ∈ g.clusters ∧ c.cl = x.t.clNo g) →
      (e.2 = 2 → ∃ g d, findGrid s x.t.grid = some g ∧ d ∈ g.parts ∧ d.dix = dixOf g x.t.vcx x.t.vcy) → barId w < barIds e.2 →
      ∃ t f, exec (e.1 w) s = .next t ∧ arrived x e.2 t ∧ findFrag t x.r = some f ∧ f.pc = x.f.pc ∧ f.mask = x.f.mask ∧
        f.st = .barrier e.2 (barId w) b.gen (acqScope w)) ∧
    (∀ e ∈ ([(.arriveT, 0), (.arriveC, 1), (.arriveD, 2)] : List ((JWord → Instr) × Nat)), ∀ w s x,
      Issues (e.1 w) { memory := true, whole := 2 } s x →
      let b := getBar s x.t e.2 (barId w)
      (b.arr = 0 ∨ barCount w = b.exp) → (2 ≤ jOrder w → releaseNow s x.r.sp (x.p.pend.filter pendOpen) (jScope w) = true) →
      (e.2 = 1 → ∃ g c, findGrid s x.t.grid = some g ∧ c ∈ g.clusters ∧ c.cl = x.t.clNo g) →
      (e.2 = 2 → ∃ g d, findGrid s x.t.grid = some g ∧ d ∈ g.parts ∧ d.dix = dixOf g x.t.vcx x.t.vcy) → barId w < barIds e.2 →
      pushPort w x.sp = none →
      ∃ t q, exec (e.1 w) s = .next t ∧ arrived x e.2 t ∧ findSp t x.r.sp = some q ∧ Moved x x.nextPc q ∧
        OnlyRegs x.p q w.d 1 [0] fun _ => b.gen.setWidth 128) ∧
    (∀ e ∈ ([(.barT, 0), (.barC, 1), (.barD, 2)] : List ((JWord → Instr) × Nat)), ∀ w s x,
      Issues (e.1 w) { serial := true, memory := true, whole := 2 } s x → (getBar s x.t e.2 (barId w)).arr ≠ 0 →
      barCount w ≠ (getBar s x.t e.2 (barId w)).exp → exec (e.1 w) s = x.trapT 0x0E 2) ∧
    ∀ e ∈ ([(.waitbT, 0), (.waitbC, 1), (.waitbD, 2)] : List ((JWord → Instr) × Nat)), ∀ w s x,
      Issues (e.1 w) { serial := true, memory := true } s x → x.tp ≠ 0 →
      if (getBar s x.t e.2 (barId w)).gen ≠ x.src1 w.a 0 then
        ∃ t p, exec (e.1 w) s = .next t ∧ KeepsOthers s { t with l1 := s.l1 } x.r.sp ∧ findSp t x.r.sp = some p ∧ sameArch p x.p ∧ Moved x x.nextPc p
      else ∃ t f, exec (e.1 w) s = .next t ∧ KeepsOthers s t x.r.sp ∧ findFrag t x.r = some f ∧ f.pc = x.f.pc ∧
        f.st = .barrier e.2 (barId w) (x.src1 w.a 0) (acqScope w)) ∧
  (
    ∀ s r t f level id gen acq, findTeam s r.sp.team = some t → findFrag s r = some f → f.st = .barrier level id gen acq → t.st = .resident →
      ((getBar s t level id).gen = gen → exec (.barrierRelease r) s = .next s) ∧
      ((getBar s t level id).gen ≠ gen →
        ∃ u g, exec (.barrierRelease r) s = .next u ∧ KeepsOthers s { u with l1 := s.l1 } r.sp ∧ findFrag u r = some g ∧ g.st = .ready ∧
          g.pc = f.replay.getD (f.pc + 12) ∧ g.mask = f.mask))

/-- R254 to R257: ARRIVE.G and BOWAIT of a barrier object in coherent memory: the one stays pending until it is performed, which adds 1
to COUNT and gives D the count before; the other reads the object at once and again while it waits: a read that finds COUNT at the
target or STATUS not 0 ends it, giving D the STATUS, or traps 0x0E where it is to check it. How long the line tokens for it are asked for
is log 85. -/
def Obligations.BarrierObjects : Prop :=
  let place := fun (x : Iss) (k : AKind) (pa owner pte base size : Nat) => let ea := x.src2 x.w.a 0
    checkAll x.s x.t x.p.spx k [{ thread := (threadsOf x.tp).headD 0, ea := ea, n := 8, badLen := ea.toNat % 64 != 0 }] =
      .ok [({ thread := (threadsOf x.tp).headD 0, ea := ea, n := 8, badLen := ea.toNat % 64 != 0 }, [(0, 8, .mem pa owner .coherent pte base size)])]
  let readable := fun (s : State) (t : Team) (pa pte : Nat) => isHbm pa = true ∧ pageDiscarded s pte = false ∧ mayRead s (.l2 t.die) (lineOf pa) = true ∧
    memBad s pa 64 = false ∧ (l1Lines s t.die t.core).length < l1Cap
  let count := fun (s : State) (pa owner : Nat) => ofBytesNat ((memBytes s owner pa 64).take 8)
  let status := fun (s : State) (pa owner : Nat) => ofBytesNat (((memBytes s owner pa 64).drop 12).take 4)
  (∀ w s x pa owner pte base size, Issues (.arriveG w) { memory := true } s x → x.tp ≠ 0 → place x .atomic pa owner pte base size →
    let accs : List Acc := [{ thread := (threadsOf x.tp).headD 0, ea := x.src2 w.a 0, n := 8, part := 0, loc := .mem pa owner .coherent pte base size, val := 0, val2 := 0 }]
    x.ctrStops (pathsOf true accs) = false →
    Launched x (.arriveG w.d) true false none (if jOrder w = 2 then some (jScope w) else none) accs (exec (.arriveG w) s)) ∧
  (∀ s r id t p x a d pa owner pte base size, findPend s r id = some (t, p, x) → x.kind = .arriveG d → x.accs = [a] → a.n = 8 → a.part = 0 → a.thread < 8 →
    a.loc = .mem pa owner .coherent pte base size → pa % 64 = 0 → x.rel = none → x.got = [] → pendMay s r p x = true → groupMay s r p x [] [a] = true →
    readable s t pa pte → mayWrite s (.l2 t.die) (lineOf pa) = true → homeLost s pa = false → memBad s (sectorOf pa) 32 = false →
    let old := ofBytesNat (memBytes s owner pa 8)
    ∃ u q, exec (.accessDone r id) s = .next u ∧ ofBytesNat (memBytes u owner pa 8) = (old + 1) % 2 ^ 64 ∧
      (∀ b, (b < pa ∨ pa + 8 ≤ b) → memByte u owner b = memByte s owner b) ∧ findSp u r = some q ∧ Done q id ∧
      RegsWritten p q d 2 [a.thread] fun _ => BitVec.ofNat 128 old) ∧
  (∀ w s x pa owner pte base size, Issues (.bowait w) { serial := true, memory := true } s x → x.tp ≠ 0 → place x .load pa owner pte base size →
    readable s x.t pa pte → boBehind s x.r x.p (x.src2 w.a 0) (.mem pa owner .coherent pte base size) = false →
    ((x.src2 w.b 0).toNat ≤ count s pa owner ∨ status s pa owner ≠ 0 → (w.mod.getLsbD 0 = false ∨ status s pa owner = 0) →
      ∃ t q, exec (.bowait w) s = .next t ∧ KeepsOthers s { tokensOf s t with l1 := s.l1 } x.r.sp ∧ findSp t x.r.sp = some q ∧ Moved x x.nextPc q ∧
        OnlyRegs x.p q w.d 1 [0] fun _ => BitVec.ofNat 128 (status s pa owner)) ∧
    (count s pa owner < (x.src2 w.b 0).toNat → status s pa owner = 0 →
      ∃ t f, exec (.bowait w) s = .next t ∧ KeepsOthers s (tokensOf s t) x.r.sp ∧ findFrag t x.r = some f ∧ f.pc = x.f.pc ∧
        f.st = .bowait (x.src2 w.a 0) (.mem pa owner .coherent pte base size) (x.src2 w.b 0) w.d (w.mod.getLsbD 0) (jScope w))) ∧
  ∀ s r t p f ea pa owner cls pte base size target d chk acq, findTeam s r.sp.team = some t → findSp s r.sp = some p → findFrag s r = some f →
    f.st = .bowait ea (.mem pa owner cls pte base size) target d chk acq → t.st = .resident → readable s t pa pte →
    boBehind s r p ea (.mem pa owner cls pte base size) = false →
    (count s pa owner < target.toNat → status s pa owner = 0 → ∃ u, exec (.bowaitReread r) s = .next u ∧ u.mem = s.mem ∧ u.teams = s.teams) ∧
    (target.toNat ≤ count s pa owner ∨ status s pa owner ≠ 0 → (chk = false ∨ status s pa owner = 0) →
      ∃ u q g, exec (.bowaitReread r) s = .next u ∧ u.mem = s.mem ∧ findSp u r.sp = some q ∧
        RegsWritten p q d 1 [0] (fun _ => BitVec.ofNat 128 (status s pa owner)) ∧
        findFrag u r = some g ∧ g.st = .ready ∧ g.pc = f.replay.getD (f.pc + 12)) ∧
    (status s pa owner ≠ 0 → chk = true → ∃ u g, exec (.bowaitReread r) s = .next u ∧ u.mem = s.mem ∧ findFrag u r = some g ∧
      (t.thnd = 0 ∨ p.tlv = true → g.st = .trapped))

/-- R258, R259, R203: TCOPY, TSTORE, TGATHER, TSCATTER and TFILL issue and are accepted with their descriptors and MODE latched and
cpy raised, incomplete until they are checked; nothing else is new.
R258, R259, R269: the oldest copy of its spindle that is not checked, of an index list behind what its REL, R260 and R231 put
before it, is checked and complete, its index list latched; a page that the TLBs lack is walked first (R261); a bad shape traps 0x02 reason 1, a bad address 0x03 and a bad access as
its check says, as though it had never issued. The ADDR of such a trap is log 45, when the data moves log 12. -/
def Obligations.CopiesAccepted : Prop :=
  (
    ∀ e ∈ ([(.tcopy, 0), (.tstore, 1), (.tgather, 2), (.tscatter, 3), (.tfill, 4)] : List ((JWord → Instr) × Nat)),
    ∀ w s x, Issues (e.1 w) { memory := true } s x → x.tp ≠ 0 → (coreCopies s x.t).length < 16 → x.ctrStops [4] = false →
      let scaled := (opnd (jC17 w)).kd == .s
      StaysPending x x.nextPc (Raised x 4)
        (fun y => y.kind = .copy e.2 (x.src w.a 4 false 0) (x.src w.b 4 false 0) (if scaled then x.src (jC17 w) 4 false 0 else 0) scaled x.p.mode [] [] [] ∧
          y.complete = false ∧ y.paths = [(4, false)] ∧ y.accepted = some y.id) (exec (e.1 w) s)) ∧
  (
    ∀ s r id t p x form view shape scale scaled mode i0 p0 m0, findPend s r id = some (t, p, x) →
      x.kind = .copy form view shape scale scaled mode i0 p0 m0 → x.complete = false → jAcq (jUnpack x.word) = false →
      ((before p id).any fun y => !y.complete && (copyOf y).isSome) = false →
      let d := copyD (jUnpack x.word) form view shape scale scaled
      let rel := jRel (jUnpack x.word)
      (d.indexed = true → (rel = true → engRelNow s r p x = true) ∧ fencedFor s r (before p id) = [] ∧ copyBlocked s t x [(t.id, d.idx, 4 * d.rows)] = false) →
      let reads := decide (d.indexed = true ∧ d.idx + 4 * d.rows ≤ teamScratch s t)
      let v := if reads then tornView s r id rel else s
      let idx := if reads then readIndex ((findTeam v t.id).getD t) d else []
      let s' := { s with freeNo := v.freeNo }
      (d.badShape = true → exec (.copyAccept r id) s = .next (pendTrap s r t p x { cause := 2, reason := 1, tmask := x.tmask })) ∧
      (∀ a, d.badShape = false → d.badAddr = some a →
        exec (.copyAccept r id) s = .next (pendTrap s r t p x { cause := 3, tmask := x.tmask, addr := a })) ∧
      (d.badShape = false → d.badAddr = none →
        (∀ c rs ea m, d.check s' t p.spx idx = .trap c rs ea m →
          exec (.copyAccept r id) s = .next (pendTrap s' r t p x { cause := c, reason := rs, tmask := x.tmask, addr := ea })) ∧
        (∀ g ea m s1, d.check s' t p.spx idx = .walk g ea m → tlbWalk s' t g = some s1 → exec (.copyAccept r id) s = .next s1) ∧
        (d.check s' t p.spx idx = .ok [] → x.paths.any (!·.2) = true →
          ∃ u q y, exec (.copyAccept r id) s = .next u ∧ KeepsOthers s' u r ∧ findSp u r = some q ∧ sameArch { q with ctr := p.ctr } p ∧
            y ∈ q.pend ∧ y.id = id ∧ y.complete = true ∧ y.accepted = x.accepted ∧
            ∃ pages, y.kind = .copy form view shape scale scaled mode idx pages [])))

/-- R258, R260, R265, R266, R272, R275: the end of a copy that fills a tile: of memory, registers and scratchpads nothing but the tile's
bytes in the own scratchpad changes; TFILL and every element outside the view give the pad value; TCOPY and TGATHER give each
element the widened value of its view element, and each scale word its own, from HBM, system memory or a scratchpad, where no
plain store of its spindle may stand in between (R239).
R243, R265, R266, R273, R274: the end of a TSTORE or TSCATTER into HBM, system memory or a scratchpad, each element in bytes of its
own: every element inside the view is its tile element narrowed, or, in SOP 1 and 2, the rounded sum of what stood there and its tile
element; an E2M1 element its nibble of a byte that two may share, whose other nibble stays where no element writes it; every scale
that covers such an element is its word of the tile; nothing else changes. -/
def Obligations.CopiesEnd : Prop :=
  (
    ∀ s r id t p x d idx pages mode, findPend s r id = some (t, p, x) → copyOf x = some (d, idx, pages, mode) → d.fills = true →
      copyMay s r t p x d idx pages = true → movedOf x = [] → jRel (jUnpack x.word) = true ∨ tornPlaces p id = [] →
      L1Clean s t →
      let alloc := copyAlloc (jUnpack x.word)
      (∀ m ∈ copyMoves s t p.spx (jUnpack x.word) d idx pages mode, moveStop s t alloc m = none) →
      ∃ u q v, exec (.copyDone r id) s = .next u ∧ u.mem = s.mem ∧ findSp u r = some q ∧ q.v = p.v ∧ q.s = p.s ∧ q.p = p.p ∧ Done q id ∧
        findTeam u t.id = some v ∧ v.basin = t.basin ∧
        (∀ i, i < d.tbase ∨ d.tbase + d.foot ≤ i → mget v.scratch i = mget t.scratch i) ∧
        (∀ rr c k, rr < d.rows → c < d.cols → k < d.w →
          (d.elem idx rr c = none → (d.indexed = true → (idx.getD rr none).isSome = true) →
            mget v.scratch (d.tileOff rr c + k) = byteAt (d.pad.setWidth 128) k) ∧
          ∀ ij loc s2 bs, d.elem idx rr c = some ij → placeOf s t p.spx pages .load (d.viewAddr ij) d.viewBytes = some loc →
            readAt s t alloc loc d.viewBytes = .ok (s2, bs) →
            let v0 := ofBytesNat bs
            mget v.scratch (d.tileOff rr c + k) =
              byteAt (BitVec.ofNat 128 (cpWiden d.sf d.tf (if d.sf = 6 then (if ij.2 % 2 = 0 then v0 % 16 else v0 / 16) else v0))) k) ∧
        (d.scaled = true → d.form ≠ 4 → ∀ a b k, a < d.nI → b < d.q / 4 → k < 4 →
          (d.nS ≤ b → mget v.scratch (d.scaleOff a b + k) = 0) ∧
          ∀ y loc s2 bs, b < d.nS → d.scaleRow idx a = some y → placeOf s t p.spx pages .load (d.scaleAddr y b) 4 = some loc →
            readAt s t alloc loc 4 = .ok (s2, bs) → mget v.scratch (d.scaleOff a b + k) = bs.getD k 0)) ∧
  (
    ∀ s r id t p x d idx pages mode, findPend s r id = some (t, p, x) → copyOf x = some (d, idx, pages, mode) → d.form = 1 ∨ d.form = 3 →
      copyMay s r t p x d idx pages = true → movedOf x = [] → jRel (jUnpack x.word) = true ∨ tornPlaces p id = [] → t.badScratch = [] →
      L1Clean s t →
      (∀ m ∈ copyMoves s t p.spx (jUnpack x.word) d idx pages mode, moveStop s t (copyAlloc (jUnpack x.word)) m = none) →
      let pairs := (grid2 d.rows d.cols).filterMap fun rc => (d.elem idx rc.1 rc.2).map fun ij => (rc, ij)
      let scales := if d.scaled then ((grid2 d.nI d.nS).filter fun ab => d.covers idx ab.1 ab.2).filterMap fun ab =>
        (d.scaleRow idx ab.1).map fun y => (ab, y) else []
      let n := d.viewBytes
      ∀ el sc : Nat × Nat → Loc,
        (∀ e ∈ pairs, placeOf s t p.spx pages (if d.sop = 0 then .store else .atomic) (d.viewAddr e.2) n = some (el e.2) ∧ PlainLoc s t (el e.2) n) →
        (∀ e ∈ scales, placeOf s t p.spx pages .store (d.scaleAddr e.2 e.1.2) 4 = some (sc e.1) ∧ PlainLoc s t (sc e.1) 4) →
        (∀ e ∈ pairs, ∀ e' ∈ pairs, e ≠ e' → Apart (el e.2) n (el e'.2) n ∨
          (d.sf = 6 ∧ d.sop = 0 ∧ el e.2 = el e'.2 ∧ e.2.2 % 2 ≠ e'.2.2 % 2)) →
        (∀ e ∈ scales, (∀ e' ∈ scales, e ≠ e' → Apart (sc e.1) 4 (sc e'.1) 4) ∧ ∀ e' ∈ pairs, Apart (sc e.1) 4 (el e'.2) n) →
        (∀ e ∈ pairs, ∀ pa owner cls pte base size, (el e.2 = .mem pa owner cls pte base size ∨ ∃ y ∈ scales, sc y.1 = .mem pa owner cls pte base size) →
          (∀ e' ∈ pairs, Apart (.mem pte owner .coherent 0 0 0) 8 (el e'.2) n) ∧ ∀ e' ∈ scales, Apart (.mem pte owner .coherent 0 0 0) 8 (sc e'.1) 4) →
        ∃ u q, exec (.copyDone r id) s = .next u ∧ findSp u r = some q ∧ q.v = p.v ∧ q.s = p.s ∧ Done q id ∧
          (∀ e ∈ pairs,
            let y := ofBytesNat (mgetList t.scratch (d.tileOff e.1.1 e.1.2) d.w)
            let old := ofBytesNat ((List.range n).map (locByte s (el e.2)))
            let out := cpNarrow (rndOf (jUnpack x.word).rnd mode) d.tf d.sf y
            (d.sop = 0 → d.sf ≠ 6 → ∀ k < n, locByte u (el e.2) k = byteAt (BitVec.ofNat 128 out) k) ∧
            (d.sop ≠ 0 → ∀ k < n, locByte u (el e.2) k = byteAt (BitVec.ofNat 128 (addRne (if d.sop = 1 then .f32 else .bf16) old y)) k) ∧
            (d.sop = 0 → d.sf = 6 → let b := (locByte u (el e.2) 0).toNat
              (if e.2.2 % 2 = 0 then b % 16 else b / 16) = out ∧
              ((∀ e' ∈ pairs, el e'.2 = el e.2 → e' = e) → (if e.2.2 % 2 = 0 then b / 16 else b % 16) = if e.2.2 % 2 = 0 then old / 16 else old % 16))) ∧
          (∀ e ∈ scales, ∀ k < 4, locByte u (sc e.1) k = mget t.scratch (d.scaleOff e.1.1 e.1.2 + k)) ∧
          ∀ l, (∃ tm off, l = .scratch tm off) ∨ (∃ pa owner cls pte base size, l = .mem pa owner cls pte base size ∧
              (∀ e ∈ pairs, ∀ pa' o' c' pt' b' z', el e.2 = .mem pa' o' c' pt' b' z' → o' = owner) ∧
              ∀ e ∈ scales, ∀ pa' o' c' pt' b' z', sc e.1 = .mem pa' o' c' pt' b' z' → o' = owner) →
            (∀ e ∈ pairs, Apart l 1 (el e.2) n) → (∀ e ∈ scales, Apart l 1 (sc e.1) 4) → locByte u l 0 = locByte s l 0)

/-- R284, R285, R286, R291: MMA posts its request to its cluster's reservation table and stays pending; its first failing check
traps: a pair form on a follower, a bad pitch, a misplaced B block or scales (for SQ, ADDR is SB's: log 114), a block beyond the
scratchpad. A spindle without a hold frees the chuck (R60, R292).
R286, R291, R293, R295: a grant takes the first request in R293's order, latches its A block and is complete, or traps 0x0D where
a register of the block or of its scales is bad; a pass starts on its array; the Basin write replaces the tile's words by its result
and no other, and ends the MMA. When that result is formed is log 102, the ADDR of a trap on a descriptor log 45. -/
def Obligations.MmaRuns : Prop :=
  (
    ∀ w s x, Issues (.mma w) { memory := true, whole := 1 } s x →
      let b := x.src w.b 4 false 0
      let d := mmaD w b
      (d.pair = true → x.t.kix % 2 = 1 → exec (.mma w) s = x.trapT 0x05 6) ∧
      ((d.pair = true → x.t.kix % 2 = 0) →
        let badP := d.pitch ∉ [256, 512, 768, 1024] ∨ d.pitch < 256 * d.w ∨ (d.sc = true ∧ (d.lac = 3 ∨ d.lbc = 3))
        let badB := d.tb % 256 ≠ 0 ∨ 2 ^ 19 ≤ d.tb
        let badS := d.sc = true ∧ (d.sb % 32 ≠ 0 ∨ d.sq % 32 ≠ 0)
        (badP → exec (.mma w) s = x.trapT 0x02 1) ∧
        (¬badP → badB → exec (.mma w) s = x.trap { cause := 3, tmask := x.tp, addr := ownAddr d.tb }) ∧
        (¬badP → ¬badB → badS → exec (.mma w) s = x.trap { cause := 3, tmask := x.tp, addr := ownAddr d.sb }) ∧
        (∀ o, ¬badP → ¬badB → ¬badS → d.outside (teamScratch s x.t) = some o →
          exec (.mma w) s = x.trap { cause := 5, reason := 4, tmask := x.tp, addr := ownAddr o }) ∧
        (¬badP → ¬badB → ¬badS → d.outside (teamScratch s x.t) = none → x.ctrStops [5] = false →
          let cluster := x.t.core / 16 * 4 + x.t.core % 8 / 2
          (s.matReqs.filter fun q => q.die == x.t.die && q.cluster == cluster).length < 8 →
          ∃ t q e m, exec (.mma w) s = .next t ∧ t.matReqs = s.matReqs ++ [m] ∧
            t.arrays = (if x.p.held.isNone then freeChucks s x.r.sp else s).arrays ∧ After x x.nextPc q [e] { t with matReqs := s.matReqs, arrays := s.arrays } ∧
            Raised x 5 q ∧ e.kind = .mma b x.p.cls ∧ e.complete = false ∧ e.paths = [(5, false)] ∧
            m.sp = x.r.sp ∧ m.id = e.id ∧ m.core = x.t.core ∧ m.pair = d.pair ∧ m.cls = x.p.cls ∧ m.granted = false))) ∧
  (
    (∀ s die cluster q t p x, pickGrant s ((s.matReqs.filter fun q => q.die == die && q.cluster == cluster && !q.granted).mergeSort reqBefore) [] = some q →
      findTeam s q.sp.team = some t → findSp s q.sp = some p → (p.pend.find? fun x => x.id == q.id) = some x →
      let bad := regsBad p (MmaA x).1 || regsBad p (MmaA x).2
      (bad = true → exec (.mmaGrant die cluster) s =
        .next (pendTrap { s with matReqs := s.matReqs.filter fun y => y.id != q.id } q.sp t p x { cause := 0x0D, reason := 1, tmask := x.tmask })) ∧
      (bad = false → ∃ u a ps, exec (.mmaGrant die cluster) s = .next u ∧ u.mem = s.mem ∧ a ∈ u.arrays ∧ a.die = die ∧ a.core = q.core ∧
        a.staged = some ps ∧ ps.sp = q.sp ∧ ps.id = q.id ∧
        (∀ v, opnd (jUnpack x.word).a = .v v → ∀ i th, i < 128 → th < 8 → ps.aRows.getD (8 * i + th) 0 = vget p (v + i) th) ∧
        ∀ z, findSp u q.sp = some z → ∀ y ∈ z.pend, y.id = q.id → y.complete = true)) ∧
    (∀ s die core ps t p x b cls, (getArr s die core).staged = some ps → findPend s ps.sp ps.id = some (t, p, x) → x.kind = .mma b cls →
      let d := mmaD (jUnpack x.word) b
      t.core = core → d.pair = false → (getArr s die core).running = none → tileTurn s t p x = true →
      jAcq (jUnpack x.word) = false → jRel (jUnpack x.word) = false → pendMeets (fencedFor s ps.sp (before p x.id)) (d.reads t) = false →
      ∃ u, exec (.mmaPassStart die core) s = .next u ∧ { u with arrays := s.arrays } = s ∧ (getArr u die core).staged = none ∧
        (getArr u die core).running = some ps ∧ (getArr u die core).chuck.map (·.1) = some ps.sp ∧
        ∀ e c, (e, c) ≠ (die, core) → getArr u e c = getArr s e c) ∧
    ∀ s die core ps t p x b cls, (getArr s die core).running = some ps → findPend s ps.sp ps.id = some (t, p, x) → x.kind = .mma b cls →
      let d := mmaD (jUnpack x.word) b
      t.die = die → t.core = core → d.pair = false → (∀ u ∈ s.teams, sameCluster t u = true → coreCopies s u = []) →
      jRel (jUnpack x.word) = true ∨ tornPlaces p ps.id = [] →
      let acc := fun (m n : Nat) => if d.za then 0 else (mget t.basin (16384 * d.tile + 256 * m + n)).toNat
      let bElem := fun (k n : Nat) => mmaElem d.fb (ofBytesNat (mgetList t.scratch (d.tb + k * d.pitch + n * d.w) d.w))
      ∃ u v q, exec (.mmaBasinWrite die core) s = .next u ∧ u.mem = s.mem ∧ findTeam u t.id = some v ∧ v.scratch = t.scratch ∧ findSp u ps.sp = some q ∧
        Done q ps.id ∧ q.v = p.v ∧ q.s = p.s ∧ (getArr u die core).running = none ∧
        (d.cx = false → ∀ m n, m < 64 → n < 256 → mget v.basin (16384 * d.tile + 256 * m + n) =
          BitVec.ofNat 32 (mmaWord d (acc m n) (d.aElem ps.aRows m) (fun k => bElem k n) (d.aScale ps.sRows m)
            (fun β => ofBytesNat (mgetList t.scratch (d.bScaleOff β n) 4)))) ∧
        (d.cx = true → ∀ m j, m < 64 → j < 128 →
          let r := mmaComplex (acc m (2 * j)) (acc m (2 * j + 1)) (fun k => (d.aElem ps.aRows m (2 * k), d.aElem ps.aRows m (2 * k + 1)))
            (fun k => (bElem k (2 * j), bElem k (2 * j + 1)))
          mget v.basin (16384 * d.tile + 256 * m + 2 * j) = BitVec.ofNat 32 r.1 ∧
          mget v.basin (16384 * d.tile + 256 * m + (2 * j + 1)) = BitVec.ofNat 32 r.2) ∧
        ∀ k, k < 16384 * d.tile ∨ 16384 * d.tile + 16384 ≤ k → mget v.basin k = mget t.basin k)

/-- R287, R288: one output word of an unscaled MMA: of s8, the sum of the accumulator and the 64 products modulo 2^32; of FP8, the
accumulator plus the once-rounded exact sums of products 0 to 31 and 32 to 63, one after the other, each sum rounded to nearest; of
16-bit floats, plus the one such sum of its 32 products. In a scaled form of one K block the sum is first rounded, then multiplied by
the scale of A and by that of B, each product rounded. -/
def Obligations.MmaArithmetic : Prop :=
  (∀ (d : MmaD) acc (a b : Nat → Nat) sa sb, d.fa = 2 → d.fb = 2 → d.sc = false → acc < 2 ^ 32 →
    mmaWord d acc (fun k => mmaElem 2 (a k)) (fun k => mmaElem 2 (b k)) sa sb =
      wrapTo 32 (signedOf 32 acc + ((List.range 64).map fun k => signedOf 8 (a k) * signedOf 8 (b k)).sum)) ∧
  (∀ (d : MmaD) acc (a b : Nat → FV) sa sb, d.fa < 2 → d.sc = false →
    let part := fun (k0 : Nat) => roundRne .f32 (exactSum ((List.range 32).map fun k => (a (k0 + k), b (k0 + k))))
    mmaWord d acc a b sa sb = addRne .f32 (addRne .f32 acc (part 0)) (part 32)) ∧
  (∀ (d : MmaD) acc (a b : Nat → FV) sa sb, 3 ≤ d.fa → d.sc = false →
    mmaWord d acc a b sa sb = addRne .f32 acc (roundRne .f32 (exactSum ((List.range 32).map fun k => (a k, b k))))) ∧
  ∀ (d : MmaD) acc (a b : Nat → FV) sa sb, d.sc = true → d.g = d.k →
    mmaWord d acc a b sa sb = addRne .f32 acc
      (mulRne .f32 (mulRne .f32 (roundRne .f32 (exactSum ((List.range d.k).map fun k => (a k, b k)))) (sa 0)) (sb 0))

/-- R300 to R304: ACCLD, ACCST and ACCZ issue with their window, or trap 0x02 reason 2 where it leaves the tile, or 0x05 for a pair form
on a follower; the access moves the window's words between registers and Basin, or clears the tile, and changes no other word; a bad
word of an ACCLD's window traps 0x0D. -/
def Obligations.BasinMoves : Prop :=
  (∀ e ∈ ([(.accld, 0), (.accst, 1), (.accz, 2)] : List ((JWord → Instr) × Nat)),
    ∀ w s x, Issues (e.1 w) { memory := true, whole := 1 } s x →
      let a := match opnd w.a with | .s r => sget x.p r | _ => 0
      let row := if e.2 = 2 then 0 else bitsOf w.mod 21 6 + bitsOf a 0 16
      let cg := if e.2 = 2 then 0 else bitsOf w.mod 16 5 + bitsOf a 16 16
      let n := if e.2 = 2 then 64 else bitsOf w.mod 7 6 + 1
      (w.mod.getLsbD 13 = true → x.t.kix % 2 = 1 → exec (e.1 w) s = x.trapT 0x05 6) ∧
      ((w.mod.getLsbD 13 = true → x.t.kix % 2 = 0) →
      (64 < row + n ∨ 31 < cg → exec (e.1 w) s = x.trapT 0x02 2) ∧
      (row + n ≤ 64 → cg ≤ 31 → x.ctrStops [5] = false →
        StaysPending x x.nextPc (Raised x 5)
          (fun y => y.kind = .acc e.2 row cg n (bitsOf w.mod 14 2) (w.mod.getLsbD 13) ∧ y.complete = (e.2 == 2) ∧ y.paths = [(5, false)] ∧
            ∀ r, e.2 = 1 → opnd w.b = .v r → ∀ j th, j < n → th < 8 → (8 * j + th, (vget x.p (r + j) th).setWidth 128) ∈ y.got) (exec (e.1 w) s)))) ∧
  ∀ s r id t p x form row cg n tile, findPend s r id = some (t, p, x) → x.kind = .acc form row cg n tile false → tileTurn s t p x = true →
    tileBusy s [(t.id, tile)] = false → row + n ≤ 64 → cg ≤ 31 →
    let cell := fun (j th : Nat) => 16384 * tile + 256 * (row + j) + (8 * cg + th)
    (form = 0 → x.got = [] → (∃ j th, j < n ∧ th < 8 ∧ cell j th ∈ t.badBasin) →
      exec (.basinTileAccess r id) s = .next (pendTrap s r t p x { cause := 0x0D, reason := 1, tmask := x.tmask })) ∧
    (∀ d, form = 0 → x.got = [] → (∀ j th, j < n → th < 8 → cell j th ∉ t.badBasin) → opnd (jUnpack x.word).d = .v d → ∃ u q, exec (.basinTileAccess r id) s = .next u ∧ u.mem = s.mem ∧ findSp u r = some q ∧ Done q id ∧
      q.s = p.s ∧ ∀ k th, th < 8 → vget q k th = if d ≤ k ∧ k < d + n ∧ k - d ∈ accLeft x d n then mget t.basin (cell (k - d) th) else vget p k th) ∧
    (form = 1 → ∃ u q v, exec (.basinTileAccess r id) s = .next u ∧ u.mem = s.mem ∧ findSp u r = some q ∧ Done q id ∧ q.v = p.v ∧ q.s = p.s ∧
      findTeam u t.id = some v ∧ v.scratch = t.scratch ∧
      (∀ j th, j < n → th < 8 → mget v.basin (cell j th) = ((List.find? (fun e : Nat × BitVec 128 => e.1 == 8 * j + th) x.got).elim 0 fun e => e.2).setWidth 32) ∧
      ∀ k, (∀ j th, j < n → th < 8 → k ≠ cell j th) → mget v.basin k = mget t.basin k) ∧
    (form = 2 → ∃ u q v, exec (.basinTileAccess r id) s = .next u ∧ u.mem = s.mem ∧ findSp u r = some q ∧ Done q id ∧ q.v = p.v ∧ q.s = p.s ∧
      findTeam u t.id = some v ∧ v.scratch = t.scratch ∧
      ∀ k, mget v.basin k = if 16384 * tile ≤ k ∧ k < 16384 * tile + 16384 then 0 else mget t.basin k)

/-- R307, R308, R313, R321: TFETCH gives the lowest index its Geyser holds, by its coordinates, or a status: 3 while the grid
yields, 2 once nothing is left, 4 where it holds none now; a die that holds fewer than 32 may ask for a refill, and the
oldest request gets the next block.
R310, R311, R312, R321: TFETCH.X and TFETCH.XE give a tile of one expert: the die's oldest re-entered one, or else up to 64 rows from
the head of the queue with the most undispensed rows (whose entries are written: log 30), of equal ones that of the lower die part,
then expert; the head advances by them, and its entries take STATE 2. -/
def Obligations.WorkDispensed : Prop :=
  (
    (∀ w s x, Issues (.tfetch w) { memory := true } s x → x.tp ≠ 0 →
      let g := gridOf s x.t
      let y := g.geyser x.t.die
      let acq := if jAcq w then some (jScope w) else none
      if g.yieldOn then DispenseDone x (updTeam s x.t.id fun t => { t with sawYield := true }) 4 (quad 3 0 0 0) none (exec (.tfetch w) s)
      else if g.ungranted = false ∧ y.held = 0 then DispenseDone x s 4 (quad 2 0 0 0) none (exec (.tfetch w) s)
      else if g.held then DispenseDone x s 4 (quad (4 + 512) 0 0 0) none (exec (.tfetch w) s)
      else match y.ranges with
        | [] => DispenseDone x s 4 (quad (4 + 256) 0 0 0) none (exec (.tfetch w) s)
        | (k, n) :: rest =>
          DispenseDone x (updGrid s x.t.grid fun g => { g.setGeyser { y with ranges := if n ≤ 1 then rest else (k + 1, n - 1) :: rest } with
              dispensed := (k, x.t.die) :: g.dispensed })
            4 (quad 0 (k % g.x) (k / g.x % g.y) (k / (g.x * g.y))) acq (exec (.tfetch w) s)) ∧
    (∀ s grid die g, findGrid s grid = some g → dieUp s die = true → (g.st = .admitted ∨ g.st = .running) →
      (g.parts.any fun p => p.die == die) = true → (g.geyser die).held < 32 → (g.geyser die).req = false →
      ∃ u h, exec (.geyserRefillRequest grid die) s = .next u ∧ findGrid u grid = some h ∧ h.geysers.getLast? = some { g.geyser die with req := true } ∧
        { u with grids := s.grids } = s ∧ { h with geysers := g.geysers } = g) ∧
    ∀ s grid die g x r, findGrid s grid = some g → (g.geysers.find? (·.req)) = some x → x.die = die → (g.st = .admitted ∨ g.st = .running) →
      g.returned = [] → g.next < g.count → r = (g.next, min ((g.next / 64 + 1) * 64) g.count - g.next) →
      ∃ u h, exec (.refillGrant grid die) s = .next u ∧ { u with grids := s.grids } = s ∧ findGrid u grid = some h ∧
        h.next = r.1 + r.2 ∧ (h.geyser die).req = false ∧ (h.geyser die).ranges = addRange r x.ranges) ∧
  (
    (∀ e ∈ ([(.tfetchX, fun _ => none), (.tfetchXe, fun x => some (x.src1 x.w.a 0).toNat)] : List ((JWord → Instr) × (Iss → Option Nat))),
    ∀ w s x, Issues (e.1 w) { memory := true } s x → x.tp ≠ 0 →
      let g := gridOf s x.t
      let want := e.2 x
      (g.mode = 0 → exec (e.1 w) s = x.trapT 0x0E 4) ∧
      (∀ n, g.mode ≠ 0 → want = some n → g.experts ≤ n → exec (e.1 w) s = x.trapT 0x0E 5) ∧
      (g.mode ≠ 0 → (∀ n, want = some n → n < g.experts) → g.yieldOn = false →
        if allRetired s g = true ∧ heldTiles s x.t.die x.t.grid want = [] ∧ ∀ q ∈ queuesOn g x.t.die want, q.waiting = 0 then
          DispenseDone x s 4 (quad 2 0 0 0) none (exec (e.1 w) s)
        else if g.held then DispenseDone x s 4 (quad (4 + 512) 0 0 0) none (exec (e.1 w) s)
        else match takeTile { s with nextId := s.nextId + 1 } x.t.die x.t.grid want s.nextId with
          | none => DispenseDone x s 4 (quad (4 + 256) 0 0 0) none (exec (e.1 w) s)
          | some (s', y) =>
            DispenseDone x s' 4 (quad (1 + y.dix * 2 ^ 16) y.expert y.base y.count) (if jAcq w then some (jScope w) else none) (exec (e.1 w) s))) ∧
    ∀ s die grid want id g d, findGrid s grid = some g → findDie s die = some d → (∀ q ∈ g.queues, g.queueOf q.p q.e = q) →
      let qs := queuesOn g die want
      let state2 := fun (s' : State) (p e base n : Nat) => ∃ h, findGrid s' grid = some h ∧
        ∀ i < n, ∀ row, (g.queueOf p e).rows[base + i]? = some row → (h.queueOf p e).rows[base + i]? = some (row.1, row.2.1, 2)
      (∀ z, (heldTiles s die grid want).find? (·.entered) = some z →
        ∃ s', takeTile s die grid want id = some (s', z) ∧ (findDie s' die).map (·.waitQ) = some (d.waitQ.erase z) ∧
          state2 s' z.dix z.expert z.base z.count) ∧
      ((∀ z ∈ heldTiles s die grid want, z.entered = false) →
        ((∀ q ∈ qs, rowsOut s grid q = 0) → takeTile s die grid want id = none) ∧
        ∀ q ∈ qs, rowsOut s grid q ≠ 0 →
          (∀ q' ∈ qs, rowsOut s grid q' < rowsOut s grid q ∨
            (rowsOut s grid q' = rowsOut s grid q ∧ (q.p < q'.p ∨ (q.p = q'.p ∧ q.e ≤ q'.e)))) →
          ∃ s' y h, takeTile s die grid want id = some (s', y) ∧ y.expert = q.e ∧ y.dix = q.p ∧ y.base = q.head ∧
            y.count = min 64 (rowsOut s grid q) ∧ findGrid s' grid = some h ∧ (h.queueOf q.p q.e).head = q.head + y.count ∧
            state2 s' q.p q.e q.head y.count))

/-- R322, R324: TRETIRE retires a dispensed index once, or traps 0x0E reason 11; ROUTE appends each thread's row to its expert's
queue, in thread order, and says in its predicate which were queued. Either is done once its entries are written, and a TRETIRE waits
for its spindle's earlier ROUTEs. TMASK of a ROUTE out of range is log 47.
R315, R316, R319, R326, R327, R328: EXACQ of a resident expert counts a reference and gives its slot's address; of a failed one
status 2; EXREL counts one down; a page-in makes a loading expert resident, or failed; DQSTAT reads queues, residency, Geyser and
clock hand (what DQSTAT.ERT checks of its operands is log 46). -/
def Obligations.RoutesAndExperts : Prop :=
  (
    (∀ w s x, Issues (.tretire w) { memory := true } s x → x.tp ≠ 0 →
      let g := gridOf s x.t
      let q := x.src w.a 4 false 0
      let i := wordOf q 1 + g.x * (wordOf q 2 + g.y * wordOf q 3)
      ((2 ≤ wordOf q 0 % 256 ∧ wordOf q 0 % 256 ≤ 4) ∨ (wordOf q 0 % 256 = 0 ∧ g.mode = 0) → GoesOn x (exec (.tretire w) s)) ∧
      (5 ≤ wordOf q 0 % 256 → exec (.tretire w) s = x.trapT 0x0E 11) ∧
      ((wordOf q 0 % 256 = 1 ∨ (wordOf q 0 % 256 = 0 ∧ g.mode ≠ 0)) → routeOpen x.p = true → exec (.tretire w) s = .next s) ∧
      ∀ s0 p0, routeOpen x.p = false → x.ctrStops [1] = false → x.release (jRel w) = some s0 → findSp s0 x.r.sp = some p0 →
      let x0 := { x with p := p0 }
      let s1 := { s0 with nextId := s0.nextId + 1 }
      (wordOf q 0 % 256 = 0 → g.mode ≠ 0 →
        if wordOf q 1 < g.x ∧ wordOf q 2 < g.y ∧ wordOf q 3 < g.z ∧ i ∉ g.retiredIx ∧ (g.dispensed.any fun e => e.1 == i) = true then
          EntryDone x0 (updGrid s1 x.t.grid fun g => { g with retiredIx := i :: g.retiredIx }) true (fun r => r.p = x.p.p) (exec (.tretire w) s)
        else exec (.tretire w) s = x.trapT 0x0E 11) ∧
      (wordOf q 0 % 256 = 1 →
        let p := wordOf q 0 / 2 ^ 16
        if tileOut g p (wordOf q 1) (wordOf q 2) (wordOf q 3) then
          EntryDone x0 (if ((findDie s (g.dieOfPart p)).map (·.lost)).getD false then s1
            else setEntries s1 x.t.grid p (wordOf q 1) (wordOf q 2) (wordOf q 3) 4 (some s.nextId)) true (fun r => r.p = x.p.p) (exec (.tretire w) s)
        else exec (.tretire w) s = x.trapT 0x0E 11)) ∧
    (∀ w s x, Issues (.route w) { memory := true } s x → x.tp ≠ 0 →
      let g := gridOf s x.t
      let ex := fun t => (x.src1 w.b t).toNat
      let pt := fun t => (x.src1 (jC17 w) t).toNat
      (g.mode = 0 → exec (.route w) s = x.trapT 0x0E 4) ∧
      (g.mode ≠ 0 → g.count ≤ g.retiredIx.length → exec (.route w) s = x.trapT 0x0E 6) ∧
      (g.mode ≠ 0 → g.retiredIx.length < g.count → (∃ t ∈ threadsOf x.tp, g.experts ≤ ex t ∨ g.parts.length ≤ pt t) →
        exec (.route w) s = x.trapT 0x0E 7) ∧
      (∀ s0 p0, g.mode ≠ 0 → g.retiredIx.length < g.count → (∀ t ∈ threadsOf x.tp, ex t < g.experts ∧ pt t < g.parts.length) →
        x.ctrStops [1] = false → x.release (jRel w) = some s0 → findSp s0 x.r.sp = some p0 →
        let r := (threadsOf x.tp).foldl (fun (a : State × List (Nat × Bool)) t =>
          let b := routeRow a.1 s.nextId x.t.grid (x.src1 w.a t) (ex t) (pt t) (bitsOf w.mod 8 3)
          (b.1, a.2 ++ [(t, b.2)])) ({ s0 with nextId := s0.nextId + 1 }, [])
        EntryDone { x with p := p0 } r.1 (bitsOf w.mod 11 6 == 63) (fun q => if bitsOf w.mod 11 6 = 63 then q.p = x.p.p
          else PredWritten x.p q (bitsOf w.mod 11 6) (threadsOf x.tp) fun t => ((r.2.find? fun e => e.1 == t).map (·.2)).getD false) (exec (.route w) s)) ∧
      ∀ id grid row e p choice h, findGrid s grid = some h → (h.queueOf p e).rows.length < h.cap → dieUp s (h.dieOfPart p) = true →
        (routeRow s id grid row e p choice).2 = true ∧ ∀ k, findGrid (routeRow s id grid row e p choice).1 grid = some k →
          (k.queueOf p e).rows = (h.queueOf p e).rows ++ [(row, choice, 1)]) ∧
    ∀ s r id t p y, findPend s r id = some (t, p, y) → y.kind = .dispense →
      (entriesWait s id = true → exec (.accessDone r id) s = .next s) ∧
      (entriesWait s id = false → ∃ u q, exec (.accessDone r id) s = .next u ∧ KeepsOthers s u r ∧ findSp u r = some q ∧ Done q id ∧
        q.v = p.v ∧ q.s = p.s ∧ q.p = p.p)) ∧
  (
    (∀ w s x d, Issues (.exacq w) { memory := true } s x → x.tp ≠ 0 → findDie s x.t.die = some d →
      let e := (x.src1 w.a 0).toNat
      let y := ertOf d e
      let bad := (opnd w.b).kd = .s ∧ (wordOf (x.src w.b 4 false 0) 0 % 256 ≠ 1 ∨ wordOf (x.src w.b 4 false 0) 1 ≠ e)
      (d.exns = 0 ∨ teamTenant s x.t ≠ d.exown → exec (.exacq w) s = x.trapT 0x05 10) ∧
      (d.exns ≠ 0 → teamTenant s x.t = d.exown → 1024 ≤ e → exec (.exacq w) s = x.trapT 0x0E 5) ∧
      (d.exns ≠ 0 → teamTenant s x.t = d.exown → e < 1024 → ¬bad →
        (y.state = 2 → y.ref < 65535 →
          let a := (d.exslb.toNat + y.slot * d.exsls.toNat) % 2 ^ 64
          DispenseDone x (updGrid (updDie s d.id fun d => setErt d { y with ref := y.ref + 1, use := true }) x.t.grid fun g => bumpRef g d.id e true)
            4 (quad 0 0 a (a / 2 ^ 32)) (some 4) (exec (.exacq w) s)) ∧
        (y.state = 3 → DispenseDone x s 4 (quad 2 0 0 0) none (exec (.exacq w) s)) ∧
        (y.state = 1 → (opnd w.b).kd ≠ .s → DispenseDone x s 4 (quad 1 0 0 0) none (exec (.exacq w) s)))) ∧
    (∀ w s x d, Issues (.exrel w) { memory := true } s x → x.tp ≠ 0 → findDie s x.t.die = some d → loadsDone x.p = true →
      let e := (x.src1 w.a 0).toNat
      let y := ertOf d e
      (1024 ≤ e → exec (.exrel w) s = x.trapT 0x0E 5) ∧
      (e < 1024 → y.ref = 0 → exec (.exrel w) s = x.trapT 0x0E 10) ∧
      (e < 1024 → y.ref ≠ 0 → DispenseDone x (updGrid (updDie s d.id fun d =>
          if y.ref = 1 then retrySlots (setErt d { y with ref := y.ref - 1 }) else setErt d { y with ref := y.ref - 1 }) x.t.grid fun g => bumpRef g d.id e false) 0 0 none (exec (.exrel w) s))) ∧
    (∀ s die e d, findDie s die = some d → d.id = die → (ertOf d e).state = 1 → (ertOf d e).wantSlot = false → d.lost = false →
      (∃ u c, exec (.pageInComplete die e) s = .next u ∧ findDie u die = some c ∧ (ertOf c e).state = if (pageIn s d (ertOf d e)).isSome then 2 else 3) ∧
      ∃ u c, exec (.pageInError die e) s = .next u ∧ u.mem = s.mem ∧ findDie u die = some c ∧ (ertOf c e).state = 3) ∧
    (∀ w s x d, Issues (.dqstatErt w) { memory := true } s x → x.tp ≠ 0 → findDie s x.t.die = some d →
      let v := ertBits (ertOf d (x.src1 w.a 0).toNat)
      if (x.src1 w.a 0).toNat < 1024 ∧ (x.src1 w.b 0).toNat < max 1 (gridOf s x.t).parts.length then
        DispenseDone x s 2 (quad v (v / 2 ^ 32) 0 0) none (exec (.dqstatErt w) s)
      else exec (.dqstatErt w) s = x.trapT 0x0E 5) ∧
    (∀ w s x, Issues (.dqstatGy w) { memory := true } s x → x.tp ≠ 0 →
      DispenseDone x s 2 (quad ((gridOf s x.t).geyser x.t.die).held ((gridOf s x.t).dispensed.length - (gridOf s x.t).retiredIx.length) 0 0) none (exec (.dqstatGy w) s)) ∧
    (∀ w s x d, Issues (.dqstatHand w) { memory := true } s x → x.tp ≠ 0 → findDie s x.t.die = some d →
      let free := ((List.range d.exns).filter fun i => (slotHolder d i).isNone).length
      DispenseDone x s 2 (quad d.hand (4096 - d.waitQ.length + free * 2 ^ 16) 0 0) none (exec (.dqstatHand w) s)) ∧
    ∀ w s x, Issues (.dqstatQ w) { memory := true } s x → x.tp ≠ 0 →
      let g := gridOf s x.t
      let e := (x.src1 w.a 0).toNat
      let p := (x.src1 w.b 0).toNat
      let q := g.queueOf p e
      let tiles := (heldTiles s (g.dieOfPart p) x.t.grid (some e)).filter fun y => y.dix == p
      (g.mode ≠ 0 → g.experts ≤ e ∨ g.parts.length ≤ p → exec (.dqstatQ w) s = x.trapT 0x0E 5) ∧
      (g.mode ≠ 0 → e < g.experts → p < g.parts.length → DispenseDone x s 2 (quad q.rows.length (q.waiting % 2 ^ 16 + tiles.length * 2 ^ 16) 0 0) none (exec (.dqstatQ w) s)))

/-- R337, R349 to R351, R361: COLL hands the parameter block of the team's next local rank to the Caldera and gives D the instance
number; one that names no valid group aborts the block. PROGV raises READY to the larger value; both count in col. COLLSTAT and
COLLSTAT.W read a member's and a window's status, in whole KiB of spilled bytes (log 103). Which rank a team's next block counts for
is log 32; the instance number of an aborted block is free (log 26); what COLLSTAT reads of a block of no instance is log 52, the ADDR of a trap log 45.
R339, R345 to R349, R359: once every local rank's block has arrived an instance is checked: a bad one aborts with its reason, a
good one runs, from chunk 0 or when restarted from the least LW, in its turn for a context; its member timeout ends it. An abort
posts status 4, and a timeout status 2, with increment 0 to the BO of every member; its contexts are gone. What other packages' ranks
gave is log 51, which member gives PRIO and SPILL log 120, the tenant check log 118, the updater where no context runs log 26. -/
def Obligations.CollectiveInstances : Prop :=
  (
    (∀ w s x pa owner pte base size, Issues (.coll w) { memory := true } s x → x.tp ≠ 0 →
      let ea := x.src2 w.a 0
      let want : Want := { thread := (threadsOf x.tp).headD 0, ea := ea, n := 128 }
      checkAll s x.t x.p.spx .load [want] = .ok [(want, [(0, 128, .mem pa owner .coherent pte base size)])] → pageDiscarded s pte = false →
      let b := parseBlock (memBytes s owner pa 128)
      let rank := fun (g : Grp) => (if b.restart then restartRank s g else nextRank g) (ranksOf s g x.t)
      caldUp s = true → x.ctrStops [6] = false →
      pendMeets ((if jRel w then x.p.pend else []) ++ fencedFor s x.r.sp x.p.pend)
        [{ thread := 0, ea := ea, n := 128, part := 0, loc := .mem pa owner .coherent pte 0 0, val := 0, val2 := 0 }] = false →
      (∀ g, findGrp s b.group.toNat = some g → rank g = none →
        exec (.coll w) s = x.trap { cause := 0x0E, reason := 12, tmask := x.tp, addr := ea }) ∧
      ∀ s0 p0, x.release (jRel w) = some s0 → findSp s0 x.r.sp = some p0 →
        (findGrp s b.group.toNat = none →
          ColDone { x with p := p0 } (abortBlock { s0 with freeNo := s0.freeNo + 1, aborts := (x.t.id, ea.toNat) :: s0.aborts } x.t.die (teamTenant s x.t) b)
            (w.d == 0x348) ea.toNat (fun q => RegsWritten x.p q w.d 1 [0] fun _ => (Config.freeWord s0.freeNo).setWidth 128) (exec (.coll w) s)) ∧
        ∀ g i, findGrp s b.group.toNat = some g → rank g = some i →
          let r := acceptBlock { s0 with aborts := s0.aborts.filter (· != (x.t.id, ea.toNat)) } g i ea.toNat x.t.die (teamTenant s x.t) b
          ColDone { x with p := p0 } r.1 (w.d == 0x348) ea.toNat (fun q => RegsWritten x.p q w.d 1 [0] fun _ => BitVec.ofNat 128 (r.2 % 2 ^ 32))
            (exec (.coll w) s)) ∧
    (∀ s g i addr port tenant b, b.restart = false →
      let k := ((g.nextK.find? fun e => e.1 == g.rbase + i).map (·.2)).getD 0
      let r := acceptBlock s g i addr port tenant b
      r.2 = k ∧ r.1.mem = s.mem ∧ ∃ z, findInst r.1 g.g k = some z ∧ z.members.getLast? = some (newMember (g.rbase + i) addr tenant 0 k b) ∧
        z.members.dropLast = ((findInst s g.g k).map (·.members)).getD []) ∧
    (∀ s port tenant b p, devBo s (rootDie s) tenant b.bo.toNat = some p → (devCoherent s (rootDie s) tenant .store b.pv.toNat 64).isOk = false →
      (abortBlock s port tenant b).mem = (boUpdate (zeroFill s p.owner p.pte p.base p.size) .abuf p.owner p.pa 0 4 0 (BitVec.ofNat 32 port)).mem) ∧
    (∀ w s x i m, Issues (.progv w) { memory := true } s x → x.tp ≠ 0 → x.ctrStops [6] = false →
      let ea := x.src2 w.a 0
      memberAt s x.t ea.toNat = some (i, m) →
      (i.state ≠ 1 → i.state ≠ 2 → exec (.progv w) s = x.trap { cause := 0x0E, reason := 13, tmask := x.tp, addr := ea }) ∧
      ∀ s0 p0, i.state = 1 ∨ i.state = 2 → x.release (jRel w) = some s0 → findSp s0 x.r.sp = some p0 →
        let ready := max m.ready (x.src1 w.b 0).toNat
        ColDone { x with p := p0 } (devSet (updInst s0 i.group i.k fun i =>
              { i with members := updWhere (fun y => y.rank == m.rank) (fun y => { y with ready := ready }) i.members })
            .abuf (rootDie s) m.tenant (m.blk.pv.toNat + 24) (toBytes (BitVec.ofNat 64 ready) 8))
          true ea.toNat (fun q => q.v = x.p.v ∧ q.s = x.p.s) (exec (.progv w) s)) ∧
    (∀ w s x, Issues (.collstat w) { memory := true } s x → x.tp ≠ 0 →
      let ea := (x.src2 w.a 0).toNat
      ((x.t.id, ea) ∈ s.aborts → DispenseDone x s 2 (quad (5 + 256) 0 0 0) none (exec (.collstat w) s)) ∧
      (memberAt s x.t ea = none → (x.t.id, ea) ∉ s.aborts → DispenseDone x s 2 (quad (5 * 256) 0 0 0) none (exec (.collstat w) s)) ∧
      ∀ i m, memberAt s x.t ea = some (i, m) → (x.t.id, ea) ∉ s.aborts →
        DispenseDone x s 2 (quad ((if m.state = 4 then 4 else if i.state = 5 then 5 else if instOut s i then 3 else i.state) + i.reason * 256)
          m.done.length 0 0) none (exec (.collstat w) s)) ∧
    ∀ w s x, Issues (.collstatW w) { memory := true } s x → x.tp ≠ 0 →
      let a := (x.src1 w.a 0).toNat
      (256 ≤ a → exec (.collstatW w) s = x.trapT 0x0E 15) ∧
      (a < 256 → findWin s a = none → DispenseDone x s 2 0 none (exec (.collstatW w) s)) ∧
      ∀ y, a < 256 → findWin s a = some y →
        DispenseDone x s 2 (quad (y.kind + y.stat * 256 + y.round * 2 ^ 16) (min (y.spilledBytes / 1024) (2 ^ 32 - 1)) 0 0) none (exec (.collstatW w) s)) ∧
  (
    let posted := fun (s : State) (k : Nat) (i : Inst) (status : Nat) =>
      i.members.foldl (fun s m => memberPost (putPv s k { m with state := 5 }) i m 0 status) s
    (∀ s group k i g, findInst s group k = some i → findGrp s group = some g → i.state = 1 → i.restart = false → g.mloc ≤ i.members.length →
      (∀ r, i.checked = false → badBlocks s g i.members (peerBlocks g i) = some r →
        ∃ u j, exec (.instanceCheck group k) s = .next u ∧ findInst u group k = some j ∧ j.state = 5 ∧ j.reason = r ∧
          (∀ y ∈ u.ctxs, y.owner ≠ .inst group k) ∧ u.mem = (posted s k i (if instLate s i then 2 else 4)).mem) ∧
      (i.checked = true ∨ badBlocks s g i.members (peerBlocks g i) = none →
        (∀ m rest un c, firstWaiting s i = true → i.members = m :: rest → freePlace s = some (un, c) →
          ∃ u j y, exec (.instanceCheck group k) s = .next u ∧ u.mem = s.mem ∧ findInst u group k = some j ∧ j.state = 2 ∧ y ∈ u.ctxs ∧
            y.owner = .inst i.group i.k ∧ y.unit = un ∧ y.c = c ∧ y.ck = 0 ∧ y.nc = m.blk.chunks ∧ y.b0 = m.blk.dst ∧ y.prio = bitsOf m.blk.prio 0 2) ∧
        (firstWaiting s i = false ∨ freePlace s = none → ∃ u, exec (.instanceCheck group k) s = .next u ∧ { u with insts := s.insts } = s ∧
          findInst u group k = some { i with checked := true }))) ∧
    (∀ s group k i g m rest un c, findInst s group k = some i → findGrp s group = some g → i.state = 1 → i.restart = true → g.mloc ≤ i.members.length →
      i.checked = true ∨ badBlocks s g i.members (peerBlocks g i) = none → firstWaiting s i = true → i.members = m :: rest → freePlace s = some (un, c) →
      ∃ u j y, exec (.instanceRestart group k) s = .next u ∧ u.mem = s.mem ∧ findInst u group k = some j ∧ j.state = 2 ∧ y ∈ u.ctxs ∧
        y.owner = .inst i.group i.k ∧ y.unit = un ∧ y.c = c ∧ y.ck ≤ m.blk.chunks ∧ (∀ n ∈ i.members, y.ck ≤ pvLw s n) ∧
        ∀ n ∈ j.members, n.done = List.range y.ck) ∧
    (∀ s group k i, findInst s group k = some i →
      ((instWaits s i = true ∧ timeoutCycles s group < i.timer) ∨ ∃ n, (Owner.inst group k, n) ∈ s.ueWaits ∧ timeoutCycles s group < n) →
      ∃ u j, exec (.memberTimeout (.inst group k)) s = .next u ∧ findInst u group k = some j ∧ j.state = 5 ∧ j.reason = 0 ∧
        (∀ y ∈ u.ctxs, y.owner ≠ .inst group k) ∧ (∀ a ∈ u.arrivals, a.owner ≠ some (.inst group k)) ∧ u.mem = (posted s k i 2).mem) ∧
    (∀ s i m inc status p, devBo s (rootDie s) m.tenant m.blk.bo.toNat = some p → ∃ up,
      (memberPost s i m inc status).mem = (boUpdate (zeroFill s p.owner p.pte p.base p.size) .abuf p.owner p.pa inc status ((if i.spilled then 1 else 0) + (if i.suspended then 2 else 0)) up).mem ∧
      ∀ c, ownerCtx s (.inst i.group i.k) = some c → up = BitVec.ofNat 32 (portNo c.unit)) ∧
    ∀ s w x, findWin s w = some x →
      ((x.timers.any fun e => decide (timeoutCycles s x.wgroup < e.2)) = true ∨ ∃ n, (Owner.window w, n) ∈ s.ueWaits ∧ timeoutCycles s x.wgroup < n) →
      ∃ u y, exec (.memberTimeout (.window w)) s = .next u ∧ findWin u w = some y ∧ y.kind = 0 ∧ y.round = x.round ∧ (∀ c ∈ u.ctxs, c.owner ≠ .window w) ∧
        ∀ p, x.tenant < 4096 → devBo s (rootDie s) x.tenant x.bo.toNat = some p → isHbm p.pa = true →
          u.mem = (boUpdate (zeroFill s p.owner p.pte p.base p.size) .abuf p.owner p.pa 0 2 ((if x.spilled then 1 else 0) + (if x.suspended then 2 else 0)) (BitVec.ofNat 32 x.port)).mem)

/-- R331 to R333, R345, R358, R363, R365, R383, R384: arming checks a window, starts its context, or fails with the reason; disarming
ends it and keeps ROUND; a message from a known peer, and a chunk's last flit, become held data, in a slot or in the spill region
(log 49); a program load writes its words and extends M3, or reports an address (log 103). A write of KIND before CALD is set waits for
it (R480); a store that breaks R332 fails its window with reason 3 and status 4; how a store meets an entry written while its window
is armed is log 116; in which state a message waits is log 53. -/
def Obligations.WindowsAndArrivals : Prop :=
  (∀ s w (kind : BitVec 2), w < 256 → caldUp s = true → kind ≠ 0 →
    let s1 := disarmWin (putWin s (getWin s w)) w true
    let x := getWin s1 w
    (∀ r, armFails s1 x kind.toNat = some r → ∃ u y, exec (.armWindow w kind) s = .next u ∧ findWin u w = some y ∧ y.kind = 0 ∧ y.stat = r) ∧
    (armFails s1 x kind.toNat = none → ∃ u y c, exec (.armWindow w kind) s = .next u ∧ u.mem = s1.mem ∧ findWin u w = some y ∧
      y = { x with kind := kind.toNat, spilled := false, suspended := (findGrp s1 x.wgroup).any (groupOut s1) } ∧
      c ∈ u.ctxs ∧ c.owner = .window w ∧ c.unit = unitNo x.port ∧ c.b0 = x.dst ∧ c.b1 = x.bo ∧ c.ce = x.ch / tyBytes x.itype ∧ c.tenant = x.ten ∧ c.ck = 0)) ∧
  (∀ s w (kind : BitVec 2), w < 256 → caldUp s = false → exec (.armWindow w kind) s = .next { s with armQ := s.armQ ++ [(w, kind)] }) ∧
  (∀ s w x, findWin s w = some x → ∃ u y, exec (.disarmWindow w) s = .next u ∧ findWin u w = some y ∧ y = { x with kind := 0, stored := [], timers := [] } ∧
    (∀ c ∈ u.ctxs, c.owner ≠ .window w) ∧ (∀ a ∈ u.arrivals, a.owner ≠ some (.window w)) ∧ ∀ e ∈ u.armQ, e.1 ≠ w) ∧
  (∀ s msg (m : Msg) o unit key chunk src ty data x, (s.msgs.find? fun x => x.id == msg) = some m → m.body = .arrive (some o) unit key chunk src ty data →
    unit < unitLater → (s.ctxs.find? fun x => x.owner == o && x.unit == unit) = some x → takesChunk s x chunk = true →
    ((s.msgs.takeWhile fun x => x.id != msg).all fun y => match y.body with
      | .arrive o' u' k' c' r' _ _ => !(o' == some o && u' == unit && k' == key && c' == chunk && r' == src)
      | _ => true) = true →
    let d := m.sent.getD data
    sumOf d = sumOf data →
    (slotsUsed s < 256 →
      ∃ u, exec (.arrivalHeld msg) s = .next u ∧ { u with msgs := s.msgs, arrivals := s.arrivals } = s ∧ findMsg u msg = none ∧
        u.arrivals = s.arrivals ++ [{ owner := some o, unit := unit, key := key, chunk := chunk, src := src, ty := ty, data := d, spilled := false, pkg := m.pkg }]) ∧
    ∀ z p ps, 256 ≤ slotsUsed s → ownerCtx s o = some z → spillPlace s o z (rankOfTag s o key src ty) src chunk d.length = some p →
      devRange s (rootDie s) z.tenant .store p d.length = .ok ps → devUp s ps = true →
      ∃ u, exec (.arrivalHeld msg) s = .next u ∧ u.mem = (devPut .abuf ps d (markSpilled (dropMsg s msg) o d.length)).mem ∧
        (∀ w y, o = .window w → findWin s w = some y → findWin u w = some { y with spilled := true, spilledBytes := y.spilledBytes + d.length }) ∧
        u.arrivals = s.arrivals ++
          [{ owner := some o, unit := unit, key := key, chunk := chunk, src := src, ty := ty, data := [], spilled := true, place := p,
             len := d.length, sum := sumOf d, pkg := m.pkg }]) ∧
  (∀ s (m : UeMsg) x, portUp s m.port = true → 16 ≤ m.port → m.kind = .rudSend → knownPeer s m.endpoint = true →
    let h := fieldAt m.bytes
    let data := (m.bytes.drop 32).take (h 16 4)
    h 0 4 < 0xFFFFF000 → (Owner.inst (h 0 4) (h 4 4), h 8 2, h 12 4, h 10 1) ∉ s.ueFails → ownerCtx s (.inst (h 0 4) (h 4 4)) = some x → sumOf data = BitVec.ofNat 32 (h 20 4) →
    ∃ u z, exec (.ueMessageReceive m) s = .next u ∧ { u with msgs := s.msgs, nextId := s.nextId } = s ∧ u.msgs = s.msgs ++ [z] ∧
      z.body = .arrive (some (.inst (h 0 4) (h 4 4))) x.unit (h 8 2) (h 12 4) (h 10 1) (h 11 1) data ∧ z.pkg = h 24 2) ∧
  (∀ s (m : UeMsg), portUp s m.port = true → 16 ≤ m.port →
    (m.kind ≠ .rudSend → exec (.ueMessageReceive m) s = .next { s with ueRefused := s.ueRefused + 1 }) ∧
    (m.kind = .rudSend → knownPeer s m.endpoint = false → exec (.ueMessageReceive m) s = .next { s with ueDropped := s.ueDropped + 1 })) ∧
  (∀ s first entry ws,
    (∀ a, loadError s first entry ws = some a → exec (.programLoad first entry ws) s = .next { s with loadBad := some a }) ∧
    (loadError s first entry ws = none →
      ∃ u, exec (.programLoad first entry ws) s = .next u ∧ { u with store := s.store, progs := s.progs, meas := s.meas } = s ∧
        (∀ a, mget u.store a = if first ≤ a ∧ a < first + ws.length then ws.getD (a - first) 0 else mget s.store a) ∧
        ({ first := first, len := ws.length, entry := entry } : Prog) ∈ u.progs ∧
        u.meas.getD 3 [] = sha256 (s.meas.getD 3 (List.replicate 32 0) ++ sha256 (ws.flatMap (toBytes · 8))))) ∧
  ∀ s tenant w rank off kind bs x, caldUp s = true → findWin s w = some x →
    (x.kind = 0 → winStore s tenant w rank off kind bs = some { s with dropped := s.dropped + 1 }) ∧
    (x.kind ≠ 0 → kind ≠ x.kind ∨ tenant ≠ x.tenant ∨ x.span ≤ off ∨ x.m ≤ rank →
      ∃ u y, winStore s tenant w rank off kind bs = some u ∧ findWin u w = some y ∧ y.kind = 0 ∧ y.stat = 3 ∧ y.round = x.round ∧ y.stored = [] ∧
        (∀ c ∈ u.ctxs, c.owner ≠ .window w) ∧
        ∀ p, x.tenant < 4096 → devBo s (rootDie s) x.tenant x.bo.toNat = some p → isHbm p.pa = true →
          u.mem = (boUpdate (zeroFill s p.owner p.pte p.base p.size) .abuf p.owner p.pa 0 (if winLate s x then 2 else 4) ((if x.spilled then 1 else 0) + (if x.suspended then 2 else 0))
            (BitVec.ofNat 32 x.port)).mem) ∧
    (x.kind ≠ 0 → kind = x.kind → tenant = x.tenant → off < x.span → rank < x.m →
      let c := off / x.ch
      ∀ data, rankChunk (putStored x rank off bs) rank c = some data → rankAt x c rank = false →
        ∃ u z, winStore s tenant w rank off kind bs = some u ∧ u.mem = s.mem ∧ u.msgs = s.msgs ++ [z] ∧
          z.body = .arrive (some (.window w)) (unitNo x.port) (2 * w + rank / 32) c (rank % 32) x.itype data)

/-- R366, R370, R378, R379: MATCH waits for its arrivals; LOOP, ENDL, BNZ, JMP, SETK, SETC, ADDC and NOP move the context's pc, loop
stack and registers; NEXTC frees the chunk's arrivals and moves on; DONE ends the context. -/
def Obligations.LuanilControl : Prop :=
  (∀ w s x, Acts s x → if allHeld s x (x.key w) (maskBits w.mask) then CtxGoes s x (x.pc + 1) x (exec (.matchL w) s) else exec (.matchL w) s = .next s) ∧
  (∀ w s x, Acts s x →
    let n := if w.flags.getLsbD 5 then (mget x.cs (bitsOf w.key 0 4)).toNat else w.key.toNat
    if n = 0 then CtxGoes s x (afterEndl s (x.first + x.len - x.pc - 1) 0 (x.pc + 1)) x (exec (.luanilLoop w) s)
    else if 4 ≤ x.loops.length then exec (.luanilLoop w) s = ctxFault s x .loops
    else CtxGoes s x (x.pc + 1) { x with loops := (x.pc + 1, n) :: x.loops } (exec (.luanilLoop w) s)) ∧
  (∀ w s x, Acts s x → match x.loops with
    | [] => exec (.endl w) s = ctxFault s x .endl
    | (a, n) :: rest => if n ≤ 1 then CtxGoes s x (x.pc + 1) { x with loops := rest } (exec (.endl w) s)
      else CtxGoes s x a { x with loops := (a, n - 1) :: rest } (exec (.endl w) s)) ∧
  (∀ w s x, Acts s x →
    let i := bitsOf w.flags 0 4
    let n := if w.flags.getLsbD 5 then mget x.cs i - 1 else mget x.cs i
    CtxGoes s x (if n = 0 then x.pc + 1 else ((x.pc : Int) + signedOf 12 w.key.toNat).toNat) { x with cs := mset x.cs i n } (exec (.bnz w) s)) ∧
  (∀ w s x, Acts s x → CtxGoes s x ((x.pc : Int) + signedOf 12 w.key.toNat).toNat x (exec (.jmp w) s)) ∧
  (∀ w s x, Acts s x →
    let v := if w.flags.getLsbD 3 then mget x.ks (bitsOf w.flags 0 3) + w.key else w.key
    CtxGoes s x (x.pc + 1) { x with ks := mset x.ks (bitsOf w.flags 0 3) v } (exec (.setk w) s)) ∧
  (∀ w s x, Acts s x → CtxGoes s x (x.pc + 1) { x with cs := mset x.cs (bitsOf w.flags 0 4) w.mask } (exec (.setc w) s)) ∧
  (∀ w s x, Acts s x →
    let v := mget x.cs (bitsOf w.flags 0 4) + w.key.signExtend 32
    CtxGoes s x (x.pc + 1) { x with cs := mset x.cs (bitsOf w.flags 0 4) v } (exec (.addc w) s)) ∧
  (∀ w s x, Acts s x → CtxGoes s x (x.pc + 1) x (exec (.luanilNop w) s)) ∧
  (∀ w s x, Acts s x →
    let n := x.ck + w.key.toNat
    let n := if w.flags.getLsbD 5 = true ∧ x.nc ≤ n then n - x.nc else n
    CtxGoes { s with arrivals := freeArrivals x.owner x.unit x.ck [] s.arrivals } x (x.pc + 1) { x with ck := n % 2 ^ 32, abs := x.abs + w.key.toNat, retried := [] } (exec (.nextc w) s)) ∧
  (∀ w s x v, Acts s x → x.owner = .window v → ∃ u, exec (.doneL w) s = .next u ∧ (∀ c ∈ u.ctxs, c.owner ≠ .window v) ∧ (∀ y, findWin u v = some y → y.kind = 0)) ∧
  (∀ w s x g k, Acts s x → x.owner = .inst g k → ∃ u, exec (.doneL w) s = .next u ∧ u.ctxs = s.ctxs.filter fun y => !(y.unit == x.unit && y.c == x.c)) ∧
  (∀ s unit c x, findCtx s unit c = some x → ∃ u, exec (.contextAged unit c) s = .next u ∧ { u with ctxs := s.ctxs } = s ∧
    findCtx u unit c = some { x with aged := x.aged || decide (256 ≤ x.readyFor) })

/-- R341, R356, R371 to R375: CMB folds its arrivals' elements, in ascending source order, into a slot; GATH lays them side by side and
keeps the bytes between (a slot whose lane fails its residue check keeps its bytes, marked); FWD sends a slot to the ports, FWD.mem and FWD.rank issue writes; SPILL and FILL move slots out and in; CHK
checks one. Which of several choices a step takes is log 99.
R255, R375 to R377, R381: BOUPD posts to its window's, or its members', barrier objects (in an order of log 33) and PROGW records the chunk at its members,
once the context's writes are performed; one piece of them, whichever, is performed whole; a posted update adds to COUNT and keeps
the first status. -/
def Obligations.LuanilData : Prop :=
  (
    let taken := fun (s : State) (x : Ctx) (w : LWord) =>
      (maskBits w.mask).filterMap fun j => (heldArr s x (x.key w) j).map fun a => (j, a.ty, arrBytes s x a)
    let ready := fun (s : State) (x : Ctx) (w : LWord) => Acts s x ∧ allHeld s x (x.key w) (maskBits w.mask) = true ∧ SlotReady s x w.slot.toNat ∧
      ∀ j ∈ maskBits w.mask, ∀ a, heldArr s x (x.key w) j = some a → arrBad s x a = false
    (∀ w s x, ready s x w →
      let f := combStep (x.func s (bitsOf w.flags 2 2))
      let xs := (taken s x w).map fun e => elemsOf e.2.1 e.2.2 x.e
      let made := fun (r : List Word) => ∃ z, CtxGoes s x (x.pc + 1) (setSlot w.slot.toNat z { x with laneBad := false }) (exec (.cmb w) s) ∧
        z.sum = sumOf z.valid ∧ z.residue = x.laneBad ∧ (x.laneBad = false → z.ty = 0 ∧ z.valid = wordBytes r) ∧
        (x.laneBad = true → z.data = ((slotOf s x w.slot.toNat).map (·.data)).getD [])
      (w.flags.getLsbD 4 = true → ∀ y ys, xs = y :: ys → made (ys.foldl (List.zipWith f) y)) ∧
      (w.flags.getLsbD 4 = false → ∀ y, slotOf s x w.slot.toNat = some y → made (xs.foldl (List.zipWith f) (elemsOf y.ty y.data x.e)))) ∧
    (∀ w s x ty, ready s x w → (∀ e ∈ taken s x w, e.2.1 = ty) → maskBits w.mask ≠ [] →
      let wide := ty = 0 ∨ w.flags.getLsbD 4 = true
      let wo := if wide then 4 else 2
      let top := ((maskBits w.mask).getLastD 0 + 1) * x.e * wo
      top ≤ 2 ^ 19 →
      ∃ u y z, exec (.gath w) s = .next u ∧ u.mem = s.mem ∧ findCtx u x.unit x.c = some y ∧ y.pc = (x.pc + 1) % 4096 ∧ lookSlot y.slots w.slot.toNat = some z ∧
        z.ty = (if wide then 0 else 1) ∧ z.len = top ∧ z.sum = sumOf z.valid ∧ z.residue = false ∧
        (∀ e ∈ taken s x w, ∀ i < x.e * wo,
          z.data.getD (e.1 * x.e * wo + i) 0 = (if wide then wordBytes (elemsOf ty e.2.2 x.e) else e.2.2).getD i 0) ∧
        ∀ y0 i, slotOf s x w.slot.toNat = some y0 → i < y0.data.length → (∀ e ∈ taken s x w, i < e.1 * x.e * wo ∨ e.1 * x.e * wo + x.e * wo ≤ i) →
          z.data.getD i 0 = y0.data.getD i 0) ∧
    (∀ w s x y, Acts s x → SlotReady s x w.slot.toNat → slotOf s x w.slot.toNat = some y → y.good → fwdWaits s x w = false →
      (bitsOf w.mask 16 16 = 0 ∨ (mget x.cs 14).toNat < ((x.grp? s).map (·.p)).getD 0) →
      let ports := (maskBits w.mask).filter fun p => p < 16 && portUp s p
      CtxGoes (send (if bitsOf w.mask 16 16 = 0 then s else { s with ueWaits := s.ueWaits ++ [(x.owner, 0)] }) (ports.map fun p => .arrive (keyOwner s x (x.key w)) (unitNo p) (x.key w) x.ck x.unit (fwdData w y).1 (fwdData w y).2)) x (x.pc + 1)
        (mapped x w.slot.toNat y) (exec (.fwd w) s)) ∧
    (∀ w s x y ps, Acts s x → x.pathBad = false → (∀ i ∈ maskBits w.mask, 32 * x.key w + i < x.members s) → SlotReady s x w.slot.toNat → slotOf s x w.slot.toNat = some y → y.good →
      planWrites s x.tenant ((maskBits w.mask).map fun i => (x.base w + (32 * x.key w + i) * x.b3.toNat + x.ck * x.ce * tyBytes (fwdData w y).1, (fwdData w y).2)) = .ok ps →
      CtxGoes (ps.foldl (fun s e => zeroFill s e.1.owner e.1.pte e.1.base e.1.size) s) x (x.pc + 1)
        { mapped x w.slot.toNat y with writes := x.writes ++ ps.flatMap writePieces16 } (exec (.fwdMem w) s)) ∧
    (∀ w s x y ps, Acts s x → x.pathBad = false → SlotReady s x w.slot.toNat → slotOf s x w.slot.toNat = some y → y.good →
      let ms := (maskBits w.mask).filterMap fun j => x.member? s j
      let d := fwdData w y
      let wo := tyBytes d.1
      ms.length = (maskBits w.mask).length →
      planWrites s x.tenant (ms.flatMap fun e =>
        (joinRuns wo (((e.2.2.blk.dests e.2.1.m e.2.2.rank x.ck).take (d.2.length / wo)).mapIdx fun i t => (t.1, (d.2.drop (i * wo)).take wo))).map
          fun r => (e.2.2.blk.dst.toNat + r.1, r.2)) = .ok ps →
      CtxGoes (ps.foldl (fun s e => zeroFill s e.1.owner e.1.pte e.1.base e.1.size) s) x (x.pc + 1)
        { mapped x w.slot.toNat y with writes := x.writes ++ ps.flatMap writePieces16 } (exec (.fwdRank w) s)) ∧
    (∀ w s x y, Acts s x → SlotReady s x w.slot.toNat → slotOf s x w.slot.toNat = some y → y.good →
      CtxGoes s x (x.pc + 1) (mapped x w.slot.toNat y) (exec (.chk w) s) ∧
      let v := w.slot.toNat
      CtxGoes (devWrite s .abuf 0 (imageAt s x v) y.data) x (x.pc + 1)
        { x with slots := x.slots.filter (fun e => e.1 != v), saved := (v, { y with data := [] }) :: x.saved.filter fun e => e.1 != v } (exec (.spill w) s)) ∧
    (∀ w s x y, Acts s x → SlotReady s x w.slot.toNat → lookSlot x.saved w.slot.toNat = some y →
      ∃ b, CtxGoes s x (x.pc + 1) (setSlot w.slot.toNat { readImage s x w.slot.toNat y with src := b } x) (exec (.fillSave w) s)) ∧
    let filled := fun (s : State) (x : Ctx) (w : LWord) (ps : List DLoc) =>
      let old := ((slotOf s x w.slot.toNat).map (·.data)).getD []
      if w.flags.getLsbD 3 then overSlot x.ti (devRead s ps) old else overSlot 0 (wordBytes (elemsOf x.ti (devRead s ps) x.e)) old
    (∀ w s x ps, Acts s x → x.pathBad = false → SlotReady s x w.slot.toNat →
      devCoherent s (rootDie s) x.tenant .load ((x.base w + x.ck * x.ce * tyBytes x.ti) % 2 ^ 64) (x.e * tyBytes x.ti) = .ok ps →
      ∃ b, CtxGoes s x (x.pc + 1) (setSlot w.slot.toNat { filled s x w ps with src := b } x) (exec (.fillMem w) s)) ∧
    ∀ w s x ps i g m, Acts s x → x.pathBad = false → SlotReady s x w.slot.toNat → x.member? s ((maskBits w.mask).headD 0) = some (i, g, m) → (m.blk.gated = true → x.ck < m.ready) →
      devCoherent s (rootDie s) m.tenant .load ((m.blk.src.toNat + x.ck * m.blk.ch.toNat) % 2 ^ 64) (x.e * tyBytes x.ti) = .ok ps →
      ∃ b, CtxGoes s x (x.pc + 1) (setSlot w.slot.toNat { filled s x w ps with src := b } x) (exec (.fillSrc w) s)) ∧
  (
    (∀ w s x y s', Acts s x → x.writes = [] → w.flags.getLsbD 5 = false → x.win? s = some y →
      winUpdate s { y with bo := x.b1 } (portNo x.unit) w.key.toNat (bitsOf w.flags 2 3) = some (s', true) → CtxGoes s' x (x.pc + 1) x (exec (.boupd w) s)) ∧
    (∀ w s x, Acts s x → x.writes = [] → w.flags.getLsbD 5 = false → x.win? s = none → (devBo s (rootDie s) x.tenant x.b1.toNat).isSome = true →
      CtxGoes (postBo s .abuf (rootDie s) x.tenant x.b1.toNat w.key.toNat (bitsOf w.flags 2 3) (x.flags s) (BitVec.ofNat 32 (portNo x.unit)))
        x (x.pc + 1) x (exec (.boupd w) s)) ∧
    (∀ w s x, Acts s x → x.writes = [] → w.flags.getLsbD 5 = true →
      let ms := (maskBits w.mask).filterMap fun j => x.member? s j
      ms.length = (maskBits w.mask).length → (∀ e ∈ ms, (devBo s (rootDie s) e.2.2.tenant e.2.2.blk.bo.toNat).isSome = true) →
      CtxGoes (ms.foldl (fun s e => postBo s .abuf (rootDie s) e.2.2.tenant e.2.2.blk.bo.toNat w.key.toNat (bitsOf w.flags 2 3)
          ((if e.1.spilled then 1 else 0) + (if e.1.suspended then 2 else 0)) (BitVec.ofNat 32 (portNo x.unit))) s)
        x (x.pc + 1) x (exec (.boupd w) s)) ∧
    (∀ w s x, Acts s x → x.writes = [] →
      let ms := (maskBits w.mask).filterMap fun j => x.member? s j
      ms.length = (maskBits w.mask).length →
      (∀ e ∈ ms, ∃ ps, devCoherent s (rootDie s) e.2.2.tenant .store e.2.2.blk.pv.toNat 64 = .ok ps) →
      CtxGoes (ms.foldl (fun s e => progress s e.1.group e.1.k e.2.2.rank x.ck) s) x (x.pc + 1) x (exec (.progw w) s)) ∧
    (∀ w s x, Acts s x → x.writes ≠ [] → exec (.progw w) s = .next s ∧ exec (.boupd w) s = .next s) ∧
    (∀ s unit c x, findCtx s unit c = some x → x.writes ≠ [] → (∀ l ∈ s.lineOwner, l.1 % 256 = 0 ∧ l.2.1 % 256 = 0) →
      ∃ i e u, i = Config.freePick s.freeNo x.writes.length % x.writes.length ∧ x.writes[i]? = some e ∧
        exec (.fwdWritePerformed unit c) s = .next u ∧ findCtx u unit c = some { x with writes := x.writes.eraseIdx i } ∧
        ∀ b, memByte u e.2.1 b = if e.1 ≤ b ∧ b < e.1 + e.2.2.length then e.2.2.getD (b - e.1) 0 else memByte s e.2.1 b) ∧
    (∀ s g k rank c i m, findInst s g k = some i → (i.members.find? fun m => m.rank == rank) = some m →
      (c ∈ m.done → progress s g k rank c = s) ∧
      (c ∉ m.done →
        ∃ j n, findInst (progress s g k rank c) g k = some j ∧ (j.members.find? fun m => m.rank == rank) = some n ∧ n.done = m.done ++ [c] ∧
          n.state = if m.blk.chunks ≤ m.done.length + 1 then 4 else 2)) ∧
    ∀ s h owner pa inc status flags up, (∀ l ∈ s.lineOwner, l.1 % 256 = 0 ∧ l.2.1 % 256 = 0) →
      let old := memBytes s owner pa 64
      let new := memBytes (boUpdate s h owner pa inc status flags up) owner pa 64
      ofBytesNat (new.take 8) = (ofBytesNat (old.take 8) + inc) % 2 ^ 64 ∧ (new.drop 8).take 4 = (old.drop 8).take 4 ∧
      ofBytesNat ((new.drop 12).take 4) = (if ofBytesNat ((old.drop 12).take 4) = 0 then status % 2 ^ 32 else ofBytesNat ((old.drop 12).take 4)) ∧
      ∀ b, (b < pa ∨ pa + 64 ≤ b) → memByte (boUpdate s h owner pa inc status flags up) owner b = memByte s owner b)

/-- R386, R389 to R391: a trap of a spindle that may take one now enters the team handler; with THND 0 or TLV 1, or of cause 0x0F,
it goes to the firmware queue and the spindle stops; memory and everything outside the spindle stay, but for the error
log, where a trap of cause 0x0D is recorded (log 84).
R409, R410: TRAP enters the team handler with its immediate in INFO and EPC at the next instruction; BKPT enters it too where no
debugger is attached, and else halts the spindle with its record in TREC; HALT halts the spindle behind it for a debugger and else stops it for firmware; ERET leaves the handler: it
restores the nesting counters, clears TLV and goes on at EPC, to execute that instruction again and then go on behind its window
(R58). HALT and BKPT under a debugger are log 60. -/
def Obligations.TrapsAndReturns : Prop :=
  (
    ∀ s (sp : SpRef) t p f r, findTeam s sp.team = some t → findSp s sp = some p → p.frag? f.id = some f → canDeliver p f.id = true →
      (t.thnd ≠ 0 → p.tlv = false → r.cause ≠ 0x0F → (r.cause = 0x0B → debugOn s t = false ∧ r.reason ≠ 2) →
        (raiseTrap s sp f.id r).errCount = s.errCount + (if r.cause = 0x0D then 1 else 0) ∧
          KeepsOthers (logTrap s r) (raiseTrap s sp f.id r) sp ∧ ∃ q, findSp (raiseTrap s sp f.id r) sp = some q ∧ InHandler t.thnd p q f.id r) ∧
      (t.thnd = 0 ∨ p.tlv = true ∨ r.cause = 0x0F → (r.cause = 0x0B → debugOn s t = false) →
        let u := raiseTrap s sp f.id r
        u.mem = s.mem ∧ ∃ q r', findSp u sp = some q ∧ q.st = .fwStopped r' ∧ q.v = p.v ∧ q.s = p.s ∧ q.epc = p.epc ∧ (q.frag? f.id).map (·.st) = some .trapped ∧
          r' = { r with info0 := r.info0 ||| BitVec.ofNat 8 (16 + if p.tlv then 32 else 0) } ∧
          ∀ d, findDie s t.die = some d → (findDie u t.die).map (·.trapQ) = some (d.trapQ ++ [(some sp, r')]))) ∧
  (
    (∀ w s x, Issues (.trapI w) sysCls s x → x.tp ≠ 0 → x.t.thnd ≠ 0 → x.p.tlv = false →
      ∃ u q r, exec (.trapI w) s = .next u ∧ KeepsOthers s u x.r.sp ∧ findSp u x.r.sp = some q ∧ InHandler x.t.thnd x.p q x.r.frag r ∧
        r.cause = 0x0C ∧ r.pc = x.f.pc ∧ r.tmask = x.tp ∧ r.fmask = x.f.mask ∧ r.word = x.word ∧ r.info = BitVec.ofNat 64 (bitsOf w.mod 0 16)) ∧
    (∀ w s x, Issues (.bkpt w) sysCls s x → x.tp ≠ 0 →
      (x.t.thnd ≠ 0 → x.p.tlv = false → debugOn s x.t = false →
        ∃ u q r, exec (.bkpt w) s = .next u ∧ KeepsOthers s u x.r.sp ∧ findSp u x.r.sp = some q ∧ InHandler x.t.thnd x.p q x.r.frag r ∧
          r.cause = 0x0B ∧ r.reason = 1 ∧ r.pc = x.f.pc ∧ r.info = BitVec.ofNat 64 (bitsOf w.mod 0 16)) ∧
      (debugOn s x.t = true → ∃ u q, exec (.bkpt w) s = .next u ∧ KeepsOthers s u x.r.sp ∧ findSp u x.r.sp = some q ∧ q.halted = true ∧
        q.tlv = x.p.tlv ∧ q.v = x.p.v ∧ q.s = x.p.s ∧ mget q.trec 0 = 0x0B ∧ mget q.trec 1 = 1)) ∧
    (∀ w s x, Issues (.halt w) sysCls s x → x.tp ≠ 0 →
      (debugOn s x.t = true → EndsWith x x.nextPc (fun q => q = { x.p with halted := true }) (exec (.halt w) s)) ∧
      (debugOn s x.t = false → ∃ u q r, exec (.halt w) s = .next u ∧ u.mem = s.mem ∧ findSp u x.r.sp = some q ∧ q.st = .fwStopped r ∧
        r.cause = 0x0B ∧ r.reason = 2 ∧ r.pc = x.f.pc)) ∧
    ∀ w s x, Issues (.eret w) sysCls s x → x.tp ≠ 0 →
      (x.p.tlv = false → exec (.eret w) s = x.trapT 0x05 9) ∧
      (x.p.tlv = true → x.p.traps = [] → ∃ u q g, exec (.eret w) s = .next u ∧ KeepsOthers s u x.r.sp ∧ findSp u x.r.sp = some q ∧ q.tlv = false ∧
        q.v = x.p.v ∧ q.s = x.p.s ∧ q.p = x.p.p ∧ q.mode = x.p.mode ∧ q.epc = x.p.epc ∧ q.trec = x.p.trec ∧ q.sav = x.p.sav ∧
        q.frag? x.r.frag = some g ∧ g.pc = x.p.epc ∧ g.st = .ready ∧
        g.replay = (if x.p.epcW = 0 then none else some (x.p.epc + BitVec.ofNat 64 (12 * (x.p.epcW + 1)))) ∧
        ∀ t, t < 8 → mget q.nest t = if (liveIn x.p x.f).getLsbD t then x.p.enest.extractLsb' (6 * t) 6 else mget x.p.nest t))

/-- R408, R411, Table 14-7: RDSYS reads each system register, SACT and FRSV as 0; WRSYS writes one and leaves every other as it was, a write of EPC
also ending its window's repetition; a write of SACT or FRSV acts as the event of its action does, behind the instruction (R392, R401); above the level a register is privileged (0x05 reason 7), or read-only (reason 8). -/
def Obligations.SystemRegisters : Prop :=
  (∀ w s x, Issues (.rdsys w) sysCls s x → x.tp ≠ 0 → ∀ e ∈ userRegs, bitsOf w.mod 0 12 = e.1 →
    EndsWith x x.nextPc (fun q => OnlyRegs x.p q w.d ((sysRegs e.1).getD 1) x.threads fun _ => (e.2 s x.t x.p).setWidth 128) (exec (.rdsys w) s)) ∧
  (∀ w s x d, Issues (.rdsys w) sysCls s x → x.tp ≠ 0 → x.t.fw = true → findDie s x.t.die = some d → ∀ e ∈ dieRegs, bitsOf w.mod 0 12 = e.1 →
    EndsWith x x.nextPc (fun q => OnlyRegs x.p q w.d ((sysRegs e.1).getD 1) x.threads fun _ => (e.2 d).setWidth 128) (exec (.rdsys w) s)) ∧
  (∀ w s x, Issues (.wrsys w) sysCls s x → x.tp ≠ 0 → ∀ e ∈ userRegs, bitsOf w.mod 0 12 = e.1 → sysReadOnly x.t.fw x.p.tlv e.1 = false →
    ∃ u b q, exec (.wrsys w) s = .next u ∧ { u with teams := s.teams } = s ∧ findTeam u x.r.sp.team = some b ∧ findSp u x.r.sp = some q ∧ Moved x x.nextPc q ∧
      q.v = x.p.v ∧ q.s = x.p.s ∧ q.p = x.p.p ∧ q.mode = x.p.mode ∧ (e.1 = 8 → q.epcW = 0) ∧
      (let v := (x.src w.a ((sysRegs e.1).getD 1) false 0).setWidth 64
       e.2 u b q = if (sysRegs e.1).getD 1 = 1 then v % 2 ^ 32 else v) ∧
      ∀ g ∈ userRegs, g.1 ≠ e.1 → g.2 u b q = g.2 s x.t x.p) ∧
  (∀ w s x d, Issues (.wrsys w) sysCls s x → x.tp ≠ 0 → x.t.fw = true → findDie s x.t.die = some d →
    ∀ e ∈ dieRegs, bitsOf w.mod 0 12 = e.1 → e.1 ≠ 0x103 → e.1 ≠ 0x104 → e.1 ≠ 0x106 →
    ∃ u c, exec (.wrsys w) s = .next u ∧ u.mem = s.mem ∧ findDie u x.t.die = some c ∧
      (let v := (x.src w.a ((sysRegs e.1).getD 1) false 0).setWidth 64
       e.2 c = if (sysRegs e.1).getD 1 = 1 then v % 2 ^ 32 else v) ∧
      ∀ g ∈ dieRegs, g.1 ≠ e.1 → g.2 c = g.2 d) ∧
  (∀ w s x, Issues (.wrsys w) sysCls s x → x.tp ≠ 0 → x.t.fw = true →
    let v := x.src w.a ((sysRegs (bitsOf w.mod 0 12)).getD 1) false 0
    (bitsOf w.mod 0 12 = 0x103 → ∃ u, EndsWith x x.nextPc (fun q => q = x.p) (.next u) ∧
      let core := bitsOf v 8 6
      let spx := bitsOf v 16 9
      exec (.wrsys w) s = match bitsOf v 0 3 with
        | 0 => exec (.sactResume x.t.die core spx) u
        | 1 => exec (.sactSkip x.t.die core spx) u
        | 2 => exec (.sactDeliver x.t.die core spx) u
        | 3 => exec (.sactEnd x.t.die core spx) u
        | 4 => exec (.sactAbort x.t.die core spx) u
        | _ => .next u) ∧
    (bitsOf w.mod 0 12 = 0x104 → ∃ u, EndsWith x x.nextPc (fun q => q = x.p) (.next u) ∧
      exec (.wrsys w) s = if v.getLsbD 1 then exec (.frsvFail x.t.die (bitsOf v 7 12) (bitsOf v 19 37)) u
        else exec (.frsvResolve x.t.die (bitsOf v 7 12) (bitsOf v 19 37)) u)) ∧
  (∀ w s x, x.tp ≠ 0 → x.t.fw = false → 0x100 ≤ bitsOf w.mod 0 12 →
    (Issues (.rdsys w) sysCls s x → exec (.rdsys w) s = x.trapT 0x05 7) ∧ (Issues (.wrsys w) sysCls s x → exec (.wrsys w) s = x.trapT 0x05 7)) ∧
  ∀ w s x, Issues (.wrsys w) sysCls s x → x.tp ≠ 0 → (x.t.fw = true ∨ bitsOf w.mod 0 12 < 0x100) → sysReadOnly x.t.fw x.p.tlv (bitsOf w.mod 0 12) = true →
    exec (.wrsys w) s = x.trapT 0x05 8

/-- R412, R413: ROLESW sets the allotment, class and entry vector and goes on there, its registers gained reading 0, or waits for row
groups until they are granted; TLBINV drops the selected translations and goes on once no open access uses one.
R403, R414: CTXSAVE stores its spindle's frame as one pending store of the frame's bytes; CTXLOAD loads the v and s registers,
predicates, generators, nesting counters, MODE, CLASS, ENTV and SAV of a frame of the same allotment as they stand (what a reserved value of
MODE then does is log 58) and goes on at its pc, the threads not live in it ending, or traps 0x0E reason 14. -/
def Obligations.RolesAndContexts : Prop :=
  (
    (∀ w s x, Issues (.rolesw w) { serial := true, whole := 2 } s x →
      let n := (x.src1 w.a 0).toNat
      let entry := if w.b = 0x348 then none else some (x.src2 w.b 0)
      let set := fun (q : Spindle) => q.allot = n ∧ q.cls = (if w.mod.getLsbD 2 then x.p.cls else bitsOf w.mod 0 2) ∧ q.entv = entry.getD x.p.entv ∧
        q.s = x.p.s ∧ q.p = x.p.p ∧ q.mode = x.p.mode ∧ q.nest = x.p.nest ∧ q.ctr = x.p.ctr ∧
        ∀ k t, k < 1024 → t < 8 → vget q k t = if k < min n x.p.allot then vget x.p k t else 0
      (n < 24 ∨ 768 < n ∨ n % 24 ≠ 0 → exec (.rolesw w) s = x.trapT 0x02 0) ∧
      (∀ e, 24 ≤ n → n ≤ 768 → n % 24 = 0 → entry = some e → bitsOf e 56 8 ≠ 0 ∨ bitsOf e 0 2 ≠ 0 →
        exec (.rolesw w) s = x.trap { cause := 3, tmask := x.tp, addr := e }) ∧
      (24 ≤ n → n ≤ 768 → n % 24 = 0 → (∀ e, entry = some e → bitsOf e 56 8 = 0 ∧ bitsOf e 0 2 = 0) →
        (n ≤ x.p.allot ∨ rowsFree x.t x.p n s.turnNo = true →
          ∃ t p q, exec (.rolesw w) s = .next t ∧ KeepsOthers s t x.r.sp ∧ findSp t x.r.sp = some p ∧ set q ∧ sameArch p q ∧ Moved x (entry.getD x.nextPc) p) ∧
        (x.p.allot < n → rowsFree x.t x.p n s.turnNo = false →
          ∃ t p f, exec (.rolesw w) s = .next t ∧ KeepsOthers s t x.r.sp ∧ findSp t x.r.sp = some p ∧
            p.rsReq = some (n, if w.mod.getLsbD 2 then none else some (bitsOf w.mod 0 2), entry) ∧ p.allot = x.p.allot ∧ p.v = x.p.v ∧
            p.frag? x.r.frag = some f ∧ f.st = .rolesw ∧ f.pc = x.f.pc))) ∧
    (∀ s (sp : SpRef) t p n cls entry f, findTeam s sp.team = some t → findSp s sp = some p → p.rsReq = some (n, cls, entry) →
      (p.frags.find? fun f => f.st == .rolesw) = some f → p.frag? f.id = some f → teamIssues s t = true → p.st = .running → p.halted = false → rowsFree t p n f.used = true →
      ∃ u q g, exec (.roleswRowsGranted sp) s = .next u ∧ KeepsOthers s u sp ∧ findSp u sp = some q ∧ q.rsReq = none ∧ q.allot = n ∧
        q.cls = cls.getD p.cls ∧ q.entv = entry.getD p.entv ∧ q.frag? f.id = some g ∧ g.st = .ready ∧ g.pc = f.replay.getD (entry.getD (f.pc + 12))) ∧
    ∀ e ∈ ([(.tlbinvPage, fun x y => y.tenant == (x.src1 x.w.b 0).toNat && decide (y.va ≤ (x.src2 x.w.a 0).toNat ∧ (x.src2 x.w.a 0).toNat < y.va + y.size)),
        (.tlbinvOwn, fun x y => pteOwner y.leaf == bitsOf x.w.mod 0 12), (.tlbinvAll, fun _ _ => true)] : List ((JWord → Instr) × (Iss → Tlb → Bool))),
      ∀ w s x, Issues (e.1 w) { serial := true, priv := true } s x → x.tp ≠ 0 →
        let kept := s.tlb.filter fun y => !((w.mod.getLsbD 12 || y.die == x.t.die) && e.2 x y)
        ((∀ t ∈ s.teams, ∀ p ∈ t.spindles, (∀ y ∈ p.pend, y.accs = [] ∧ y.paths.any (!·.2) = false) ∧
            ∀ f ∈ p.frags, ∀ a b c d g h, f.st ≠ .bowait a b c d g h) → s.prefs = [] →
          ∃ t p, exec (e.1 w) s = .next t ∧ KeepsOthers s { t with tlb := s.tlb } x.r.sp ∧ findSp t x.r.sp = some p ∧ sameArch p x.p ∧ Moved x x.nextPc p ∧
            t.tlb = kept) ∧
        (∀ t ∈ s.teams, ∀ p ∈ t.spindles, ∀ y ∈ p.pend, ∀ a ∈ y.accs, ∀ pa owner cls pte base size, a.loc = .mem pa owner cls pte base size →
          owner < 4096 → t.die = x.t.die →
          let va := globalOf t p.spx a.thread a.ea + a.part - (pa - base)
          e.2 x (Tlb.mk t.die none (teamTenant s t) va size (BitVec.ofNat 64 (owner * 2 ^ 52)) pte) = true →
          exec (e.1 w) s = .next { s with tlb := kept })) ∧
  (
    let place := fun (x : Iss) (k : AKind) (rs : List (Want × List (Nat × Nat × Loc))) =>
      checkAll x.s x.t x.p.spx k ((List.range (frameSize x.p / 256)).map fun i =>
        { thread := (threadsOf x.tp).headD 0, ea := x.src2 x.w.a 0 + BitVec.ofNat 64 (256 * i), n := 256 }) = .ok rs ∧
      ∀ r ∈ rs, ∀ b ∈ r.2, ∃ pa owner cls pte base size, b.2.2 = .mem pa owner cls pte base size ∧ isHbm pa = true ∧ cls ≠ .shared
    (∀ w s x rs, Issues (.ctxsave w) { serial := true, memory := true, whole := 2 } s x → place x .store rs → (∀ c < 7, ctrOf x.p c = 0) →
      ∃ t q e, exec (.ctxsave w) s = .next t ∧ After x x.nextPc q [e] (tokensOf s t) ∧ q = x.p ∧ e.kind = .store ∧ e.complete = false ∧ e.left = 0 ∧
        let f0 := { x.f with pc := x.nextPc, join := none, st := .ready }
        let bs := frameBytes { x.p with frags := [f0], joins := [] } false x.p.epcW (if x.p.tlv then mgetList x.p.trec 0 64 else [])
        ∀ a ∈ e.accs, ∃ o, a.ea = x.src2 w.a 0 + BitVec.ofNat 64 o ∧ a.val = BitVec.ofNat 128 (fieldAt bs o a.n)) ∧
    ∀ w s x rs s1 bs, Issues (.ctxload w) { serial := true, memory := true, whole := 2 } s x → place x .load rs →
      ((x.p.pend ++ fencedFor s x.r.sp []).all fun y => y.accs.isEmpty) = true → readFrame x.t (frameCuts rs) s = .ok (s1, bs) →
      let live : BitVec 8 := BitVec.ofNat 8 (fieldAt bs 0x0E 1)
      (fieldAt bs 8 2 ≠ x.p.allot ∨ live &&& ~~~x.p.live ≠ 0 → exec (.ctxload w) s = x.trapT 0x0E 14) ∧
      (fieldAt bs 8 2 = x.p.allot → live &&& ~~~x.p.live = 0 →
        ∃ u q, exec (.ctxload w) s = .next u ∧ u.mem = s1.mem ∧ findSp u x.r.sp = some q ∧ q.live = live ∧ q.entv = word64At bs 0 ∧ q.cls = fieldAt bs 0x0A 1 ∧
          q.mode = word32At bs 0x10 &&& 0x7FFFF ∧ q.allot = x.p.allot ∧ q.ctr = x.p.ctr ∧ q.trec = x.p.trec ∧ q.tlv = x.p.tlv ∧
          (∀ t < 8, mget q.nest t = BitVec.ofNat 6 (fieldAt bs (0x18 + t) 1) ∧ mget q.gen t = word32At bs (0x20 + 4 * t) ∧
            (∀ k < 48, pget q k t = (fieldAt bs (0xC0 + 8 * t) 6).testBit k) ∧
            ∀ k < x.p.allot, vget q k t = word32At bs (0x400 + 32 * k + 4 * t)) ∧
          (∀ k < 64, sget q k = word32At bs (0x100 + 4 * k)) ∧
          (∀ k < 4, mget q.sav k = word32At bs (0x58 + 4 * k)) ∧
          (live = x.p.live → ∃ f, q.frag? x.r.frag = some f ∧ f.pc = x.f.replay.getD (word64At bs 0x200))))

/-- R391, R392, R394: the oldest record's 64 bytes go to place n mod FTQN of its die's queue, whose header counts them (log 57); SACT's actions on a stopped spindle (log 56): resume at the instruction, skip
it, hand the trap to the team handler, end the threads, abort the grid; the watchdog stops a fragment that waited too long. -/
def Obligations.FirmwareActions : Prop :=
  (∀ s die d e rest bs place, findDie s die = some d → d.trapQ = e :: rest → devGet s die 0 (d.ftqb.toNat + 32) 8 = some bs →
    devBo s die 0 d.ftqb.toNat = some place → d.lost = false → d.written - ofBytesNat bs ≠ d.ftqn.toNat → d.ftqn ≠ 0 →
    ∃ u c, exec (.ftqRecordWrite die) s = .next u ∧ u.teams = s.teams ∧ findDie u die = some c ∧ c.trapQ = rest ∧ c.written = d.written + 1 ∧
      ∀ p, devRange s die 0 .store (d.ftqb.toNat + 64 + 64 * (d.written % d.ftqn.toNat)) 64 = .ok [p] → p.owner = place.owner →
        (p.pa + 64 ≤ place.pa ∨ place.pa + 64 ≤ p.pa) → pageDiscarded s p.pte = false → pageDiscarded s place.pte = false →
        (∀ l ∈ s.lineOwner, l.1 % 256 = 0 ∧ l.2.1 % 256 = 0) →
        let old := memBytes s place.owner place.pa 64
        let new := memBytes u place.owner place.pa 64
        memBytes u p.owner p.pa 64 = recBytes e.2 ∧ fieldAt new 0 8 = (fieldAt old 0 8 + 1) % 2 ^ 64 ∧ fieldAt new 20 4 = die % 2 ^ 32 ∧
        (new.drop 8).take 4 = (old.drop 8).take 4 ∧ fieldAt new 12 4 = fieldAt old 12 4 ∧
        ∀ b, (b < p.pa ∨ p.pa + 64 ≤ b) → (b < place.pa ∨ place.pa + 64 ≤ b) → memByte u p.owner b = memByte s p.owner b) ∧
  (∀ s die core spx t p r i f, Stopped s die core spx t p r → recFrag p r = some i → p.frag? i = some f → p.traps = [] →
    (r.cause ≠ 0x0F → ∃ u q g, exec (.sactResume die core spx) s = .next u ∧ KeepsOthers s u { team := t.id, spx := spx } ∧
      findSp u { team := t.id, spx := spx } = some q ∧ q.st = .running ∧ q.v = p.v ∧ q.s = p.s ∧ q.frag? i = some g ∧ g.pc = r.pc ∧ g.st = .ready) ∧
    ∃ u q g, exec (.sactSkip die core spx) s = .next u ∧ KeepsOthers s u { team := t.id, spx := spx } ∧
      findSp u { team := t.id, spx := spx } = some q ∧ q.st = .running ∧ q.v = p.v ∧ q.s = p.s ∧ q.frag? i = some g ∧
      g.pc = r.pc + BitVec.ofNat 64 (12 * (r.info0.toNat % 16 + 1)) ∧ g.st = .ready) ∧
  (∀ s die core spx t p r i, Stopped s die core spx t p r → recFrag p r = some i → t.thnd ≠ 0 → p.tlv = false →
    ∃ u q, exec (.sactDeliver die core spx) s = .next u ∧ KeepsOthers s u { team := t.id, spx := spx } ∧ findSp u { team := t.id, spx := spx } = some q ∧
      q.st = .running ∧ InHandler t.thnd p q i { r with info0 := r.info0 &&& 0xCF }) ∧
  (∀ s die core spx t p r, Stopped s die core spx t p r → p.joins = [] → (∀ k, p.live.getLsbD k = true → ∃ f ∈ p.frags, f.mask.getLsbD k = true) → (p.frags.map (·.id)).Nodup →
    ∃ u q, exec (.sactEnd die core spx) s = .next u ∧ KeepsOthers s u { team := t.id, spx := spx } ∧ findSp u { team := t.id, spx := spx } = some q ∧
      q.live = 0 ∧ q.v = p.v ∧ q.s = p.s) ∧
  (∀ s die core spx t p r g, Stopped s die core spx t p r → findGrid s t.grid = some g → (g.st = .running ∨ g.st = .admitted ∨ g.st = .yielding ∨ g.st = .yielded) →
    ∃ u h, exec (.sactAbort die core spx) s = .next u ∧ findGrid u t.grid = some h ∧ h.st = .aborting) ∧
  ∀ s r t p f d, findTeam s r.sp.team = some t → findSp s r.sp = some p → findFrag s r = some f → findDie s t.die = some d →
    d.wdog ≠ 0 → d.wdog.toNat * 1200 < f.waited → t.st = .resident → inWait s t p f = true → canDeliver p f.id = true →
    ∃ u q k, exec (.watchdog r) s = .next u ∧ u.mem = s.mem ∧ findSp u r.sp = some q ∧ q.st = .fwStopped k ∧ k.cause = 0x0F ∧ k.reason = 1 ∧ k.pc = f.pc ∧
      q.frag? r.frag = some f

/-- R395, R399 to R401: a walk that finds a leaf puts it into the TLBs and its fragments go on; FRSV frees the granules' entries and
their parked spindles may return, which then run again from their frames once row groups are free (what a
frame says of a fragment's state is log 59).
R72, R81, R99, R102, R406: a fetch gives a ready fragment the twelve bytes at its pc; a spindle whose threads have all exited retires
and frees its rows and ports; the debug service attaches, halts, steps, resumes and reads or writes a halted spindle
(its corners are log 60). -/
def Obligations.FaultsAndSpindleEvents : Prop :=
  (
    (∀ s die tenant g d e pte base size, findDie s die = some d → (tenant, g) ∈ d.walks.take pageWalkers → walk s die tenant g = .leaf e pte base size →
      ∃ u c, exec (.pageWalkComplete die tenant g) s = .next u ∧ u.mem = s.mem ∧ findDie u die = some c ∧ (tenant, g) ∉ c.walks ∧
        (∀ y ∈ walkers s die tenant g, ∀ f, findFrag s y.1 = some f → (findFrag u y.1).map (·.st) = some .ready) ∧
        ∃ x ∈ u.tlb, x.die = die ∧ x.core = none ∧ x.tenant = tenant ∧ x.va = base ∧ x.size = size ∧ x.leaf = e) ∧
    (∀ e ∈ ([(.frsvResolve, false), (.frsvFail, true)] : List ((Nat → Nat → Nat → Instr) × Bool)), ∀ s die tenant vpn d, findDie s die = some d →
      ∃ u c, exec (e.1 die tenant vpn) s = .next u ∧ u.mem = s.mem ∧ findDie u die = some c ∧
        (∀ m ∈ c.merges, m.tenant = tenant → frsvHits s die tenant vpn m.granule = false) ∧
        ∀ (sp : SpRef) t p g, findTeam s sp.team = some t → findSp s sp = some p → t.die = die → teamTenant s t = tenant → p.st = .parked g false false →
          (∃ m ∈ d.merges, m.tenant = tenant ∧ m.granule = g) → frsvHits s die tenant vpn g = true →
          (findSp u sp).map (·.st) = some (.parked g (!e.2) e.2)) ∧
    ∀ s (sp : SpRef) t p g gr bs, findTeam s sp.team = some t → findSp s sp = some p → p.st = .parked gr true false → t.st = .resident → teamIssues s t = true →
      findGrid s t.grid = some g → p.gmap = [] → p.allot / 24 ≤ (freeGroups t p.spx).length → parkedEarlier t p = false →
      devGet s t.die g.tenant (faultFrame g t p.spx) (frameSize p) = some bs → (∃ x, p.traps = [x] ∧ x.2.cause = 4) →
      ∃ u q, exec (.spindleUnpark sp) s = .next u ∧ KeepsOthers s u sp ∧ findSp u sp = some q ∧ q.st = .running ∧ q.traps = [] ∧
        q.gmap = (freeGroups t p.spx).take (p.allot / 24) ∧ q.live = BitVec.ofNat 8 (fieldAt bs 0x0E 1) ∧ q.epc = word64At bs 0x48 ∧
        ∀ k < 64, sget q k = word32At bs (0x100 + 4 * k)) ∧
  (
    (∀ s r t p f rs, findTeam s r.sp.team = some t → findSp s r.sp = some p → findFrag s r = some f → f.fetched = none → fragReady s t p f = true →
      checkAll s t p.spx .exec ((List.range 3).map fun i =>
        { thread := i, ea := f.pc + BitVec.ofNat 64 (4 * i), n := 4, badEa := bitsOf f.pc 56 8 != 0 }) = .ok rs →
      ∀ pa owner cls pte base size pa1 owner1 cls1 pte1 base1 size1 pa2 owner2 cls2 pte2 base2 size2,
        rs.map (·.2) = [[(0, 4, .mem pa owner cls pte base size)], [(0, 4, .mem pa1 owner1 cls1 pte1 base1 size1)], [(0, 4, .mem pa2 owner2 cls2 pte2 base2 size2)]] →
        (∀ e ∈ [pa, pa1, pa2], memBad s e 4 = false ∧ (isHbm e = true ∨ sysUp s e = true)) → (∀ e ∈ [pte, pte1, pte2], pageDiscarded s e = false) →
        ∃ u g, exec (.instructionFetch r 7) s = .next u ∧ KeepsOthers s { u with icache := s.icache, freeNo := s.freeNo } r.sp ∧ findFrag u r = some g ∧
          g = { f with fetched := some (ofBytes 96 (memBytes s owner pa 4 ++ memBytes s owner1 pa1 4 ++ memBytes s owner2 pa2 4)) }) ∧
    (∀ s (sp : SpRef) t p, findTeam s sp.team = some t → findSp s sp = some p → p.live = 0 → t.st = .resident →
      ∃ u q, exec (.spindleRetire sp) s = .next u ∧ u.mem = s.mem ∧ findSp u sp = some q ∧ (q.retired = true) ∧ q.v = p.v ∧
        (spindleDone p = true → q.gmap = [] ∧ ∀ b, findTeam u sp.team = some b → ∀ y ∈ b.ports, y.bound ≠ some sp.spx)) ∧
    (∀ s grid g, findGrid s grid = some g → ∃ u, exec (.debugAttach grid true) s = .next u ∧ findGrid u grid = some { g with debug := true } ∧ { u with grids := s.grids } = s) ∧
    (∀ s grid g, findGrid s grid = some g → ∃ u, exec (.debugAttach grid false) s = .next u ∧ findGrid u grid = some { g with debug := false } ∧
      ∀ t ∈ u.teams, t.grid = grid → ∀ p ∈ t.spindles, p.halted = false) ∧
    (∀ s (sp : SpRef) t p, findTeam s sp.team = some t → findSp s sp = some p → debugOn s t = true →
      ∃ u, exec (.debugHalt sp) s = .next u ∧ KeepsOthers s u sp ∧ findSp u sp = some { p with halted := true, stepFrag := none }) ∧
    (∀ s (sp : SpRef) p, findSp s sp = some p → p.halted = true → p.traps = [] →
      ∃ u q, exec (.debugResume sp) s = .next u ∧ KeepsOthers s u sp ∧ findSp u sp = some q ∧ q.halted = false ∧ q.v = p.v ∧ q.s = p.s) ∧
    (∀ s (sp : SpRef) p k f, findSp s sp = some p → p.halted = true → p.live.getLsbD k = true → (p.frags.find? fun f => f.mask.getLsbD k) = some f →
      ∃ u q, exec (.debugStep sp (some k)) s = .next u ∧ KeepsOthers s u sp ∧ findSp u sp = some q ∧ q.halted = true ∧
        if f.st = .atJoin then q.stepWaits = true ∧ q.stepFrag = p.stepFrag else q.stepWaits = false ∧ q.stepFrag = some f.id) ∧
    (∀ s (sp : SpRef) p, findSp s sp = some p → p.halted = true →
      ∃ r, exec (.debugStateAccess sp none) s = .next { s with dbgBuf := frameBytes p false p.epcW r }) ∧
    ∀ s (sp : SpRef) p bs, findSp s sp = some p → p.halted = true → bs.length = frameSize p →
      ∃ u, exec (.debugStateAccess sp (some bs)) s = .next u ∧ KeepsOthers s u sp ∧ findSp u sp = some (loadFrame bs p))

/-- R420, R422, R423, R428, R431: the packets that write memory write their words at an aligned address of the queue's tenant and
go on; WAIT_MEM goes on when its test holds, and waits where it does not; a breach stops the queue with its error. -/
def Obligations.MemoryPackets : Prop :=
  let tests : List (Nat × (Nat → BitVec 64 → BitVec 64 → Prop)) :=
    [(0, fun _ v r => v = r), (1, fun _ v r => v ≠ r), (2, fun _ v r => r.toNat ≤ v.toNat), (3, fun _ v r => v.toNat < r.toNat),
     (4, fun w v r => signedOf w r.toNat ≤ signedOf w v.toNat), (5, fun w v r => signedOf w v.toNat < signedOf w r.toNat)]
  let holds := fun (p : Packet) (v : Nat) => ∃ e ∈ tests, e.1 = pkOp p ∧
    (let m := if pkW64 p then pkDword p 4 else (pkDword p 4) &&& 0xFFFFFFFF
     e.2 (8 * pkBytes p) (BitVec.ofNat 64 v &&& m) (pkDword p 2 &&& m))
  (∀ p s x n, Runs s x n → PacketEnds s x n id (exec (.nopPacket p) s)) ∧
  (∀ p s x n, Runs s x n → PacketEnds s x n id (exec (.fetchFence p) s) ∧
    ∀ t y, exec (.fetchFence p) s = .next t → findQueue t x.n = some y → y.words = []) ∧
  (∀ e ∈ ([(.write32, 4, fun p _ => toBytes (pkWord p 2) 4), (.write64, 8, fun p _ => toBytes (pkDword p 2) 8),
      (.timestamp, 8, fun _ s => toBytes s.cycle 8)] : List ((Packet → Instr) × Nat × (Packet → State → List Byte))),
    ∀ p s x n, Runs s x n →
      let va := (pkDword p 0).toNat
      (va % e.2.1 ≠ 0 → QueueStops s x 6 (exec (e.1 p) s)) ∧
      (∀ r, va % e.2.1 = 0 → devRange s (rootDie s) x.tenant .store va e.2.1 = .error r → QueueStops s x 7 (exec (e.1 p) s)) ∧
      ∀ ps, va % e.2.1 = 0 → devRange s (rootDie s) x.tenant .store va e.2.1 = .ok ps →
        PacketEnds (devPut .abuf ps (e.2.2 p s) s) x n id (exec (e.1 p) s)) ∧
  (∀ p s x n, Runs s x n →
    let va := (pkDword p 0).toNat
    (va % pkBytes p ≠ 0 → QueueStops s x 6 (exec (.waitMem p) s)) ∧
    (va % pkBytes p = 0 → latheRead s x .load va (pkBytes p) = none → QueueStops s x 7 (exec (.waitMem p) s)) ∧
    ∀ ps bs, va % pkBytes p = 0 → pkOp p < 6 → latheRead s x .load va (pkBytes p) = some (ps, bs) → bs.length = pkBytes p →
      (holds p (ofBytesNat bs) → PacketEnds s x n id (exec (.waitMem p) s)) ∧
      (¬holds p (ofBytesNat bs) → ∃ t, exec (.waitMem p) s = .next t ∧ { t with queues := s.queues } = s ∧
        (∀ k, k ≠ x.n → findQueue t k = findQueue s k) ∧ findQueue t x.n = some { x with waiting := some (p, n) })) ∧
  (∀ s q x p n ps bs, findQueue s q = some x → x.waiting = some (p, n) → (pkDword p 0).toNat % pkBytes p = 0 → pkOp p < 6 →
    latheRead s x .load (pkDword p 0).toNat (pkBytes p) = some (ps, bs) → bs.length = pkBytes p →
    (holds p (ofBytesNat bs) → PacketEnds s x n id (exec (.waitMemReread q) s)) ∧
    (¬holds p (ofBytesNat bs) → exec (.waitMemReread q) s = .next s)) ∧
  (∀ e ∈ ([(.atomicMemAdd, fun a b _ => a + b), (.atomicMemAnd, fun a b _ => a &&& b), (.atomicMemOr, fun a b _ => a ||| b),
      (.atomicMemExch, fun _ b _ => b), (.atomicMemCas, fun a b c => if a = c then b else a)] :
      List ((Packet → Instr) × (BitVec 64 → BitVec 64 → BitVec 64 → BitVec 64))),
    ∀ p s x n ps bs, Runs s x n → (pkDword p 0).toNat % pkBytes p = 0 →
      latheRead s x .atomic (pkDword p 0).toNat (pkBytes p) = some (ps, bs) → bs.length = pkBytes p →
      let cut := fun (v : BitVec 64) => if pkW64 p then v else v &&& 0xFFFFFFFF
      PacketEnds (devPut .abuf ps (toBytes (e.2 (BitVec.ofNat 64 (ofBytesNat bs)) (cut (pkDword p 2)) (cut (pkDword p 4))) (pkBytes p)) s) x n id
        (exec (e.1 p) s)) ∧
  ∀ p s x n, Runs s x n →
    ((pkDword p 0).toNat % 64 ≠ 0 → QueueStops s x 6 (exec (.boSignal p) s)) ∧
    ∀ y, devBo s (rootDie s) x.tenant (pkDword p 0).toNat = some y → pageDiscarded s y.pte = false →
      PacketEnds (boUpdate s .abuf y.owner y.pa (pkWord p 2).toNat (pkWord p 3).toNat 0 0xFFFFFFFF) x n id (exec (.boSignal p) s)

/-- R424, R425, R426, R431: COND and LOOP open and close blocks, a false condition and a count of 0 skip to the matching end, a
LOOP_END with a pass left goes back behind its LOOP_BEGIN with the level's fetched words discarded, and INDIRECT descends into its
buffer, whose words fetched before it may use or fetch anew (log 99); too deep, or unmatched, they stop the queue. -/
def Obligations.BlockPackets : Prop :=
  (∀ p s x n v, Runs s x n → condRead s x p = .ok v →
    (8 ≤ condsOpen x.level → QueueStops s x 4 (exec (.condBegin p) s)) ∧
    (condsOpen x.level < 8 → condTest p v = true → PacketEnds s x n (fun l => { l with blocks := none :: l.blocks }) (exec (.condBegin p) s)) ∧
    (condsOpen x.level < 8 → condTest p v = false → PacketEnds s x n (fun l => { l with skip := some [false] }) (exec (.condBegin p) s))) ∧
  (∀ p s x n, Runs s x n →
    (∀ r, x.level.blocks = none :: r → PacketEnds s x n (fun l => { l with blocks := r }) (exec (.condEnd p) s)) ∧
    (x.level.blocks.head?.join.isSome = true ∨ x.level.blocks = [] → QueueStops s x 5 (exec (.condEnd p) s))) ∧
  (∀ p s x n, Runs s x n →
    (4 ≤ loopsOpen x.level → QueueStops s x 4 (exec (.loopBegin p) s)) ∧
    (loopsOpen x.level < 4 → pkWord p 0 = 0 → PacketEnds s x n (fun l => { l with skip := some [true] }) (exec (.loopBegin p) s)) ∧
    (loopsOpen x.level < 4 → pkWord p 0 ≠ 0 →
      PacketEnds s x n (fun l => { l with blocks := some (l.pos + n, (pkWord p 0).toNat) :: l.blocks }) (exec (.loopBegin p) s))) ∧
  (∀ p s x n, Runs s x n →
    (∀ r start left l ls, x.levels = l :: ls → l.blocks = some (start, left) :: r → 1 < left →
      ∃ t y, exec (.loopEnd p) s = .next t ∧ { t with queues := s.queues } = s ∧ (∀ k, k ≠ x.n → findQueue t k = findQueue s k) ∧
        findQueue t x.n = some y ∧ y.levels = { l with pos := start, blocks := some (start, left - 1) :: r } :: ls ∧
        (∀ w ∈ y.words, w.1 ≠ x.depth) ∧ y.rp = x.rp) ∧
    (∀ r start left, x.level.blocks = some (start, left) :: r → left ≤ 1 →
      PacketEnds s x n (fun l => { l with blocks := r }) (exec (.loopEnd p) s)) ∧
    (x.level.blocks.head? = some none ∨ x.level.blocks = [] → QueueStops s x 5 (exec (.loopEnd p) s))) ∧
  ∀ p s x n, Runs s x n →
    let len := (pkWord p 2).toNat
    (len = 0 ∨ 2 ^ 24 < len → QueueStops s x 2 (exec (.indirect p) s)) ∧
    (0 < len → len ≤ 2 ^ 24 → (pkDword p 0).toNat % 4 ≠ 0 → QueueStops s x 6 (exec (.indirect p) s)) ∧
    (0 < len → len ≤ 2 ^ 24 → (pkDword p 0).toNat % 4 = 0 →
      (4 ≤ x.depth → QueueStops s x 4 (exec (.indirect p) s)) ∧
      (x.depth < 4 → ∃ t y, exec (.indirect p) s = .next t ∧ { t with queues := s.queues, freeNo := s.freeNo } = s ∧ (∀ k, k ≠ x.n → findQueue t k = findQueue s k) ∧
        findQueue t x.n = some y ∧ y.rp = x.rp ∧ (∀ w ∈ y.words, w ∈ x.words) ∧ (∀ w ∈ x.words, w.1 ≠ x.depth + 1 → w ∈ y.words) ∧
        y.levels = { base := pkDword p 0, len := 4 * len, pos := 0, blocks := [], skip := none } :: x.levels))

/-- R427 to R430, R480, R481: DISCARD_RANGE discards its bytes; COLLECTIVE gives its block to the Caldera, waits for it, or stops for a block of no valid group, which is aborted;
ERT_PRELOAD starts page-ins; SET_SHARE and RESYNC are tenant 0's, and stop any other queue with error 8.
The errors of a COLLECTIVE's address are log 67, RESYNC's entries log 68.
R422, R433 to R436: LAUNCH of a record that breaks no check admits a grid: its parts are bound to available dies, its teams
wait, its queue goes on; a record that breaks one is rejected, and no grid or team comes; a bad record stops the queue. -/
def Obligations.UnitPackets : Prop :=
  (
    (∀ p s x n, Runs s x n →
      let va := (pkDword p 0).toNat
      let len := (pkDword p 2).toNat
      (va % 256 ≠ 0 ∨ len % 256 ≠ 0 → QueueStops s x 6 (exec (.discardRange p) s)) ∧
      (∀ r, va % 256 = 0 → len % 256 = 0 → devRange s (rootDie s) x.tenant .discard va len = .error r →
        QueueStops s x 7 (exec (.discardRange p) s)) ∧
      ∀ ps, va % 256 = 0 → len % 256 = 0 → devRange s (rootDie s) x.tenant .discard va len = .ok ps →
        PacketEnds (discardNow s .abuf (rangePieces va len ps).1 (rangePieces va len ps).2) x n id (exec (.discardRange p) s)) ∧
    (∀ p s x n, Runs s x n →
      let va := (pkDword p 0).toNat
      let i := bitsOf (pkWord p 2) 0 10
      (va % 128 ≠ 0 → QueueStops s x 6 (exec (.collective p) s)) ∧
      ∀ ps bs, va % 128 = 0 → latheRead s x .load va 128 = some (ps, bs) → (∀ y ∈ ps, y.cls = .coherent) →
        (caldUp s = false → exec (.collective p) s = .next s) ∧
        (caldUp s = true → findGrp s (parseBlock bs).group.toNat = none →
          QueueStops (abortBlock s 10 x.tenant (parseBlock bs)) x 9 (exec (.collective p) s)) ∧
        ∀ g, caldUp s = true → findGrp s (parseBlock bs).group.toNat = some g →
          (g.mloc ≤ i → QueueStops s x 9 (exec (.collective p) s)) ∧
          (i < g.mloc → PacketEnds (acceptBlock s g i va 10 x.tenant (parseBlock bs)).1 x n id (exec (.collective p) s))) ∧
    (∀ p s x n, Runs s x n →
      let e := bitsOf (pkWord p 1) 0 10
      let dies := (List.range 8).filter fun d => (pkWord p 0).getLsbD d && dieUp s d
      (x.tenant ≠ 0 → (∃ d ∈ dies, ((findDie s d).map (·.exown)).getD 0 ≠ x.tenant) → QueueStops s x 10 (exec (.ertPreload p) s)) ∧
      (x.tenant = 0 ∨ (∀ d ∈ dies, ((findDie s d).map (·.exown)).getD 0 = x.tenant) →
        ∃ s', PacketEnds s' x n id (exec (.ertPreload p) s) ∧ s'.mem = s.mem ∧
          ∀ d c, findDie s d = some c → ∃ c', findDie s' d = some c' ∧
            (d ∉ dies → c' = c) ∧
            (d ∈ dies → (ertOf c e).state = 0 → (ertOf c' e).state = 1 ∨ (ertOf c' e).state = 3) ∧
            (d ∈ dies → (ertOf c e).state = 1 ∨ (ertOf c e).state = 2 → c' = c) ∧
            (d ∈ dies → (ertOf c e).state = 3 → (ertOf c' e).state = if (pkWord p 0).getLsbD 8 then 0 else 3))) ∧
    (∀ p s x n, Runs s x n →
      (x.tenant ≠ 0 → QueueStops s x 8 (exec (.setShare p) s)) ∧
      (x.tenant = 0 → ∃ m, PacketEnds { s with lathe := { s.lathe with shares := m } } x n id (exec (.setShare p) s) ∧
        ∀ k, mget m k = if k = bitsOf (pkWord p 0) 0 12 then pkWord p 1 else mget s.lathe.shares k)) ∧
    ∀ p s x n, Runs s x n →
      (x.tenant ≠ 0 → QueueStops s x 8 (exec (.resync p) s)) ∧
      ∀ ps, x.tenant = 0 → devRange s (rootDie s) 0 .store (pkDword p 0).toNat (resyncBytes s (pkWord p 2).toNat).length = .ok ps →
        PacketEnds (devPut .abuf ps (resyncBytes s (pkWord p 2).toNat) s) x n id (exec (.resync p) s)) ∧
  (
    ∀ p s x n, Runs s x n →
      let lr := (pkDword p 0).toNat
      (latheRead s x .load lr 256 = none → QueueStops s x 7 (exec (.launch p) s)) ∧
      ∀ ps bs, latheRead s x .load lr 256 = some (ps, bs) →
        let g := parseGrid bs s.nextId lr x.n x.tenant
        (fieldAt bs 0 1 ≠ 0 → QueueStops s x 2 (exec (.launch p) s)) ∧
        (fieldAt bs 0 1 = 0 → rejectReason s bs g ≠ 0 →
          ∃ t y, exec (.launch p) s = .next t ∧ t.grids = s.grids ∧ t.teams = s.teams ∧ t.dies = s.dies ∧ findQueue t x.n = some y ∧
            y.levels = (updLevel (fun l => { l with pos := l.pos + n }) x).levels ∧ y.launches = x.launches) ∧
        (fieldAt bs 0 1 = 0 → rejectReason s bs g = 0 → (∀ y ∈ s.grids, y.id < s.nextId) →
          ∃ t y h, exec (.launch p) s = .next t ∧ findQueue t x.n = some y ∧
            y.levels = (updLevel (fun l => { l with pos := l.pos + n }) x).levels ∧ y.launches = x.launches ++ [s.nextId] ∧
            findGrid t s.nextId = some h ∧ h.st = .admitted ∧ h.lr = lr ∧ h.queue = x.n ∧ h.tenant = fieldAt bs 0x80 4 % 4096 ∧
            (∀ k, k ≠ s.nextId → findGrid t k = findGrid s k) ∧
            h.parts.length = g.partCount ∧ (∀ e ∈ h.parts, dieUp s e.die = true) ∧ h.clusters.length = g.cols * (g.h / 2) ∧
            t.teams.map (fun u => (u.id, u.grid, u.idx, u.st)) = s.teams.map (fun u => (u.id, u.grid, u.idx, u.st)) ++
              (List.range (g.w * g.h)).map fun i => (s.nextId + 1 + i, s.nextId, i, .waiting)))

/-- R416 to R419, R423, R480: arming reads the QCB, and a field that breaks Table 15-2 stops the queue with error 11; disarming
abandons a wait; the Lathe reads WP; a queue ready for 100 µs ages. -/
def Obligations.QueueEvents : Prop :=
  (∀ s q, latheUp s = true → q < 1024 → qcb32 s q 0 = 1 → ((findQueue s q).map (·.armed)).getD false = false →
    let x := readQcb s q
    (badQcb x = false → ∃ u y, exec (.armQueue q) s = .next u ∧ { u with queues := s.queues } = s ∧ (∀ k, k ≠ q → findQueue u k = findQueue s k) ∧
      findQueue u q = some y ∧ y.armed = true ∧ y.stopped = false ∧ y.base = qcb64 s q 8 ∧ y.size = (qcb32 s q 0x20).toNat ∧ y.rp = (qcb64 s q 0x10).toNat ∧
      y.wp = (qcb64 s q 0x18).toNat ∧ y.prio = (qcb32 s q 0x24).toNat ∧ y.tenant = (qcb32 s q 0x28).toNat ∧ y.fa = (qcb32 s q 0x2C).toNat ∧
      y.share = (qcb32 s q 0x30).toNat ∧ y.grace = (qcb32 s q 0x34).toNat ∧ y.trb = qcb64 s q 0x38 ∧ y.trn = (qcb32 s q 0x40).toNat ∧
      y.nrec = (qcb64 s q 0x48).toNat ∧ y.words = [] ∧ y.depth = 0 ∧ y.level.pos = y.rp) ∧
    (badQcb x = true → ∃ u y, exec (.armQueue q) s = .next u ∧ findQueue u q = some y ∧ y.armed = false ∧ y.stopped = true ∧ SameAgents s u ∧
      (s.lathe.lqtb.toNat % 4096 = 0 → x.trb = 0 → qcb32 u q 0 = 2 ∧ qcb32 u q 4 = 11))) ∧
  (∀ s q x, findQueue s q = some x → latheUp s = true → x.armed = true → qcb32 s q 0 = 0 →
    ∃ u, exec (.disarmQueue q) s = .next u ∧ { u with queues := s.queues } = s ∧ (∀ k, k ≠ q → findQueue u k = findQueue s k) ∧
      findQueue u q = some { x with armed := false, waiting := none }) ∧
  (∀ s q x, findQueue s q = some x → latheUp s = true → x.armed = true →
    ∃ u y, exec (.wpUpdate q) s = .next u ∧ { u with queues := s.queues, freeNo := s.freeNo } = s ∧ (∀ k, k ≠ q → findQueue u k = findQueue s k) ∧
      findQueue u q = some y ∧ { y with words := x.words } = { x with wp := (qcb64 s q 0x18).toNat } ∧ ∀ w ∈ x.words, w ∈ y.words) ∧
  ∀ s q x, findQueue s q = some x → x.armed = true → 120000 ≤ x.readyFor →
    ∃ u, exec (.queueAged q) s = .next u ∧ { u with queues := s.queues } = s ∧ findQueue u q = some { x with aged := true }

/-- R309, R436, R439 to R442: what a request, a pre-emption or the end of a yield makes of a launch's state; no team starts or
stops by it, but at a resume the teams that left for the yield wait again; a request that does not apply, or has no meaning, is cleared. -/
def Obligations.LaunchStates : Prop :=
  (∀ s k g, findGrid s k = some g → latheUp s = true → g.st = .running → reqOf s g = 1 →
    ∃ u h, exec (.reqYield k) s = .next u ∧ u.teams = s.teams ∧ findGrid u k = some h ∧ h.st = .yielding ∧ h.yieldedFor = none ∧
      (∀ y ∈ h.geysers, y.req = false ∧ (g.mode = 0 → dieUp s y.die = true → y.ranges = [])) ∧ (∀ c ∈ h.clusters, c.grace = 0) ∧
      (g.mode = 0 → h.returned.Perm (((g.geysers.filter fun y => dieUp s y.die).flatMap (·.ranges)) ++ g.returned)) ∧
      ∀ j, j ≠ k → findGrid u j = findGrid s j) ∧
  (∀ s k g, findGrid s k = some g → latheUp s = true → g.ended = false → g.st ≠ .aborting → reqOf s g = 2 →
    ∃ u h, exec (.reqAbort k) s = .next u ∧ u.teams = s.teams ∧ findGrid u k = some h ∧ h = { g with st := .aborting }) ∧
  (∀ s k g, findGrid s k = some g → latheUp s = true → g.st = .yielded →
    ∀ i ∈ ([.reqResume k, .gridResume k] : List Instr), (i = .reqResume k → reqOf s g = 3) →
      (i = .gridResume k → ∃ v h, g.yieldedFor = some v ∧ findGrid s v = some h ∧ (h.ended = true ∨ h.st = .yielded)) →
      ∃ u h, exec i s = .next u ∧ findGrid u k = some h ∧ h.st = .running ∧ h.yieldedFor = none ∧ (∀ p ∈ h.parts, p.die < 8 → p.waits = false ∧ p.demoted = false) ∧
        ∀ m t, findTeam s m = some t → ∃ v, findTeam u m = some v ∧ v.spindles = t.spindles ∧
          v.st = if t.grid = k ∧ t.st = .yieldExited then .waiting else t.st) ∧
  (∀ s k g, findGrid s k = some g → latheUp s = true →
    ∀ e ∈ ([(.reqYield k, 1, g.st = .running), (.reqResume k, 3, g.st = .yielded), (.reqAbort k, 2, g.ended = false ∧ g.st ≠ .aborting)] :
      List (Instr × Nat × Prop)),
      (3 < reqOf s g → exec e.1 s = .next (clearReq s g)) ∧ (reqOf s g = e.2.1 → ¬e.2.2 → exec e.1 s = .next (clearReq s g)) ∧
      (reqOf s g ≤ 3 → reqOf s g ≠ e.2.1 → exec e.1 s = .next s)) ∧
  (∀ s k die g, findGrid s k = some g → latheUp s = true → mayPreempt s g die = true →
    ∃ u vs, exec (.preemption k die) s = .next u ∧ u.teams = s.teams ∧ victims s g die = some vs ∧
      (∀ v ∈ vs, ∃ y ∈ s.grids, y.id = v ∧ y.st = .running ∧ prioOf s y < prioOf s g ∧ ∃ p ∈ y.parts, p.die = die ∧ p.inPlace = true) ∧
      ((∀ y ∈ s.grids, ∀ z ∈ s.grids, y.id = z.id → y = z) → ∀ j y, findGrid s j = some y → ∃ h, findGrid u j = some h ∧
        (j ∈ vs → h.st = .yielding ∧ h.yieldedFor = some k) ∧ (j ∉ vs → h.st = y.st ∧ h.yieldedFor = y.yieldedFor))) ∧
  (∀ s k g, findGrid s k = some g → latheUp s = true → g.st = .yielding →
    (∀ t ∈ gridTeams s k, t.st = .retired ∨ t.st = .yieldExited ∨ t.st = .waiting ∨ (t.st = .out ∧ t.graceOut = true)) →
    (∃ t ∈ gridTeams s k, t.st ≠ .retired) →
    ∃ u h, exec (.gridYielded k) s = .next u ∧ u.teams = s.teams ∧ findGrid u k = some h ∧ h = { g with st := .yielded, nyield := g.nyield + 1 }) ∧
  (∀ s k g, findGrid s k = some g → latheUp s = true → g.st = .aborting →
    ∃ u h, exec (.gridAbort k) s = .next u ∧ u.teams = s.teams ∧ u.mem = s.mem ∧ findGrid u k = some h ∧
      (∀ c ∈ h.clusters, c.resident = true → c.stopping = true) ∧ h.st = .aborting) ∧
  ∀ s k g, findGrid s k = some g → latheUp s = true → g.st = .aborting → (∀ c ∈ g.clusters, c.resident = true → c.stopping = true) →
    (∀ t ∈ gridTeams s k, t.st = .resident → ∀ p ∈ t.spindles, spindleDrained s t p = true) →
    ∃ u h, exec (.abortDiscard k) s = .next u ∧ findGrid u k = some h ∧ h.st = .aborted ∧ (∀ c ∈ h.clusters, c.resident = false) ∧
      (∀ t ∈ u.teams, t.grid = k → t.st = .discarded ∧ t.spindles = []) ∧ ∀ m t, findTeam s m = some t → t.grid ≠ k → findTeam u m = some t

/-- R28, R35, R150, R400, R435, R437, R438, R440: the start of a cluster's waiting teams in Table 15-8's state, its swap, its
stops by grace, parks and slices, retirement and completion, and link shares, by a free count of flits (log 26). -/
def Obligations.Residency : Prop :=
  (∀ s k c g y h, findGrid s k = some g → findCluster g c = some y → latheUp s = true → (∀ p ∈ g.parts, p.waits = false) →
    mayPlace s g y = true → mayPreempt s g y.die = false → y.home = some h → placeFree s y.die h = true → g.st = .admitted ∨ g.st = .running →
    ∃ u gu yu, exec (.teamStart k c) s = .next u ∧ findGrid u k = some gu ∧ gu.st = .running ∧ findCluster gu c = some yu ∧ yu.resident = true ∧ yu.phys = h ∧
      ∀ m t, findTeam s m = some t → t.grid = k → t.clNo g = c → t.st = .waiting →
        ∃ v, findTeam u m = some v ∧ v.st = .resident ∧ v.die = y.die ∧ v.core = coreOf h t.kix ∧ v.thnd = 0 ∧ v.stkb = 0 ∧ v.stks = 0 ∧
          v.scratch = [] ∧ v.basin = [] ∧ (∀ b ∈ v.bars, b = noBar) ∧ v.spindles.length = g.spindles ∧
          ∀ p ∈ v.spindles, ∃ e ∈ g.roles, ∃ f, p.allot = e.regs ∧ p.cls = e.cls ∧ p.entv = g.code + BitVec.ofNat 64 e.entry ∧ p.live = 0xFF ∧
            (∀ n th, vget p n th = 0) ∧ (∀ n, sget p n = if n = 0 then g.karg.setWidth 32 else if n = 1 then (g.karg >>> 32).setWidth 32 else 0) ∧
            (∀ n th, pget p n th = false) ∧ (∀ th, th < 8 → mget p.gen th = BitVec.ofNat 32 ((8 * p.spx + th + 1) * 0x9E3779B9)) ∧
            p.mode = 1 ∧ (∀ n, ctrOf p n = 0) ∧ p.tlv = false ∧ p.pend = [] ∧ p.frags = [f] ∧ f.pc = p.entv ∧ f.mask = 0xFF ∧ f.st = .ready) ∧
  (∀ s k c g y, findGrid s k = some g → findCluster g c = some y → latheUp s = true → y.resident = true → y.stopping = true →
    g.ended = false → g.st ≠ .aborting → (∃ t ∈ teamsOf s g c, t.st = .resident) →
    (∀ t ∈ teamsOf s g c, t.st = .resident → (∀ p ∈ t.spindles, spindleDrained s t p = true) ∧ teamOver t = false) →
    (∀ d, findDie s y.die = some d → (k, c) ∉ d.sliceNext) → (∀ t ∈ teamsOf s g c, imageUp s g t = true) →
    ∃ u gu yu, exec (.swapSave k c) s = .next u ∧ findGrid u k = some gu ∧ gu.nswap = g.nswap + 1 ∧ findCluster gu c = some yu ∧ yu.resident = false ∧
      ∀ m t, findTeam s m = some t → t.grid = k → t.clNo g = c → t.st = .resident → ∃ v, findTeam u m = some v ∧ v.st = .out ∧
        v.scratch = t.scratch ∧ v.basin = t.basin ∧ v.bars = t.bars ∧ v.thnd = t.thnd ∧
        v.spindles.map (fun p => (p.v, p.s, p.p, p.nest, p.mode, p.pend)) = t.spindles.map (fun p => (p.v, p.s, p.p, p.nest, p.mode, p.pend))) ∧
  (∀ s k c g y, findGrid s k = some g → findCluster g c = some y → latheUp s = true → y.resident = true → y.stopping = false →
    ((g.keeps = true → (∃ t ∈ teamsOf s g c, t.st = .resident ∧ ∃ p ∈ t.spindles, p.retired = false) →
      (∀ t ∈ teamsOf s g c, t.st = .resident → ∀ p ∈ t.spindles, p.retired = true ∨ ∃ a b d, p.st = .parked a b d) →
      ∃ u gu yu, exec (.clusterSwapParked k c) s = .next u ∧ u.teams = s.teams ∧ u.mem = s.mem ∧ findGrid u k = some gu ∧ findCluster gu c = some yu ∧
        yu.stopping = true ∧ yu.why = 2) ∧
     (g.st = .yielding → clusterLive s g c = true →
      (let us := ((findQueue s g.queue).map (·.grace)).getD 0; (if us = 0 then 50 else us) * 1200 ≤ y.grace) →
      ∃ u gu yu, exec (.graceExpiry k c) s = .next u ∧ u.teams = s.teams ∧ u.mem = s.mem ∧ findGrid u k = some gu ∧ findCluster gu c = some yu ∧
        yu.stopping = true ∧ yu.why = 1))) ∧
  (∀ s die d, latheUp s = true → dieUp s die = true → findDie s die = some d → sliceOver s die = true → (∀ g ∈ s.grids, ∀ c ∈ g.clusters, c.die = die → c.home = none) →
    (∀ g ∈ s.grids, ∀ p ∈ g.parts, p.demoted = false ∧ p.inPlace = false) →
    let part := fun (e : Nat × Nat) => isSliced s e && takesPart s e
    let left := d.sliceNext.filter part
    let slots := (left ++ (turnTo d.sliceAt (clusterOrder s die)).filter fun e => part e && !left.contains e).take 16
    ∃ u c, exec (.sliceEnd die) s = .next u ∧ findDie u die = some c ∧ c.sliceAt = slots.getLast?.or d.sliceAt ∧
      ∀ e ∈ sliceOrder s die, e ∉ slots → ∀ g y, findGrid s e.1 = some g → findCluster g e.2 = some y → y.resident = true →
        ∃ gu yu, findGrid u e.1 = some gu ∧ findCluster gu e.2 = some yu ∧ yu.stopping = true) ∧
  (∀ s m t g, findTeam s m = some t → findGrid s t.grid = some g → latheUp s = true → t.st = .resident → teamOver t = true → g.ended = false →
    g.st ≠ .aborting → teamLost s g t = false → (∀ d, findDie s t.die = some d → (t.grid, t.clNo g) ∉ d.sliceNext) →
    ∃ u v gu, exec (.teamRetire m) s = .next u ∧ findTeam u m = some v ∧ findGrid u t.grid = some gu ∧
      if g.st = .yielding ∧ t.sawYield = true then v = { t with st := .yieldExited } ∧ gu.nret = g.nret
      else v = { t with st := .retired } ∧ gu.nret = g.nret + 1) ∧
  (∀ s k g, findGrid s k = some g → latheUp s = true → g.st = .running → (∀ p ∈ g.parts, ((findDie s p.die).map (·.lost)).getD false = false) →
    (∀ t ∈ gridTeams s k, t.st = .retired ∧ ∀ p ∈ t.spindles, drained p = true) →
    ∃ u gu, exec (.gridComplete k) s = .next u ∧ u.teams = s.teams ∧ findGrid u k = some gu ∧ gu = { g with st := .complete, refs := [] }) ∧
  ∀ s, latheUp s = true → s.lathe.window < shareWindow s → ∃ u, exec .shareWindowEnd s = .next u ∧ u.teams = s.teams ∧
    u.lathe.window = shareWindow s ∧ (∀ g ∈ u.grids, g.ended = false → (g.held = true ↔ g.tenant ∈ u.lathe.held)) ∧
    ∀ k g, findGrid s k = some g → g.ended = false →
    ∃ gu m, findGrid u k = some gu ∧ gu = { g with held := decide (g.tenant ∈ s.lathe.active ∧ shareOf s g.tenant ≠ 0 ∧ shareOf s g.tenant * 1024 < (Config.freeWord m).toNat) }

/-- R7, R314, R356, R361, R398, R415, R475: writes of the registers that have no row of their own, each with what it leaves
unchanged: expert registers are ignored while an ERT entry is in use, a group while an instance of it is unfinished, a Lathe
address that is not aligned; a key slot's change leaves the lines written under the old key unreadable (log 79) until that key is back; a
granule of BAR2 is mapped or not (log 123), a range of capacity is unmapped (log 108), REQ takes a nonce (log 75); what a value outside its
range leaves in an expert register is log 104.
R332, R447 to R449, R475, R477, R484: the host's other acts: a microcode image is taken for checking, and then refused with the first
failing check's reason or ready for its switch, which changes LUSTAT, LUVER and what runs alone; the attestation report carries the
nonce that REQ took and the measurements under a signature, and REQ clears (log 75); a function's BAR2 reads and writes the addresses that
its granules are mapped to (log 123) or answers Unsupported Request, as every AtomicOp receives. When
M2 is extended is log 53. -/
def Obligations.RegistersAndHost : Prop :=
  (
    (∀ s die d (v : BitVec 512), findDie s die = some d →
      ∀ e ∈ ([(.exdir die, { d with exdir := v.setWidth 64 }), (.exslb die, { d with exslb := v.setWidth 64 }), (.exsls die, { d with exsls := v.setWidth 32 }),
          (.exns die, { d with exns := bitsOf v 0 9 }), (.exown die, { d with exown := bitsOf v 0 12 })] : List (HostReg × Die)),
        ∃ u, exec (.registerWrite e.1 v) s = .next u ∧ { u with dies := s.dies } = s ∧ (∀ k, k ≠ die → findDie u k = findDie s k) ∧
          ((∀ x ∈ d.ert, x.state = 0) → findDie u die = some e.2) ∧ ((∃ x ∈ d.ert, x.state ≠ 0) → findDie u die = some d)) ∧
    (∀ s die d (v : BitVec 512), findDie s die = some d →
      ∀ e ∈ ([(0x100, { d with ftqb := v.setWidth 64 }), (0x101, { d with ftqn := v.setWidth 32 }), (0x102, { d with wdog := v.setWidth 32 }),
          (0x105, { d with trtb := v.setWidth 64 }), (0x106, d), (0x107, { d with ecccnt := v.setWidth 64 })] : List (Nat × Die)),
        ∃ u, exec (.registerWrite (.dieReg die e.1) v) s = .next u ∧ { u with dies := s.dies } = s ∧ findDie u die = some e.2 ∧
          ∀ k, k ≠ die → findDie u k = findDie s k) ∧
    (∀ s w (v : BitVec 512), w < 256 →
      (∃ u y, exec (.registerWrite (.window w) v) s = .next u ∧ { u with wins := s.wins } = s ∧ findWin u w = some y ∧
        { y with spill := (getWin s w).spill, bo := (getWin s w).bo, mstr := (getWin s w).mstr, dst := (getWin s w).dst, span := (getWin s w).span, ch := (getWin s w).ch, tenant := (getWin s w).tenant, m := (getWin s w).m, func := (getWin s w).func, otype := (getWin s w).otype, itype := (getWin s w).itype } = getWin s w ∧
        y.spill = v.extractLsb' 320 64 ∧ y.bo = v.extractLsb' 256 64 ∧ y.mstr = v.extractLsb' 192 64 ∧ y.dst = v.extractLsb' 128 64 ∧
        y.span = (v.extractLsb' 96 32).toNat ∧ y.ch = (v.extractLsb' 64 32).toNat ∧ y.tenant = (v.extractLsb' 48 16).toNat ∧ y.m = (v.extractLsb' 40 8).toNat ∧
        y.func = (v.extractLsb' 34 2).toNat ∧ y.otype = (v.extractLsb' 32 2).toNat ∧ y.itype = (v.extractLsb' 30 2).toNat ∧
        ∀ k, k ≠ w → findWin u k = findWin s k) ∧
      ∃ u y, exec (.registerWrite (.wbind w) v) s = .next u ∧ { u with wins := s.wins } = s ∧ findWin u w = some y ∧
        y = { getWin s w with wbind := v.setWidth 64 &&& 0x00000FFFCF1F0FFF } ∧ ∀ k, k ≠ w → findWin u k = findWin s k) ∧
    (∀ s g (v : BitVec 512), g < 4096 →
      ((∃ i ∈ s.insts, i.group = g ∧ (i.state = 1 ∨ i.state = 2)) → exec (.registerWrite (.group g) v) s = .next s) ∧
      ((∀ i ∈ s.insts, i.group = g → i.state ≠ 1 ∧ i.state ≠ 2) → v.getLsbD 0 = true →
        ∃ u y, exec (.registerWrite (.group g) v) s = .next u ∧ { u with grps := s.grps } = s ∧ findGrp u g = some y ∧
          y.peers = v.extractLsb' 192 64 ∧ y.rankl = v.extractLsb' 128 64 ∧ y.timeout = (v.extractLsb' 108 20).toNat ∧ y.keyb = (v.extractLsb' 96 12).toNat ∧
          y.q = (v.extractLsb' 84 12).toNat ∧ y.mloc = (v.extractLsb' 74 10).toNat ∧ y.p = (v.extractLsb' 61 13).toNat ∧ y.m = (v.extractLsb' 44 17).toNat ∧
          y.tenant = (v.extractLsb' 32 12).toNat ∧ y.rbase = (v.extractLsb' 16 16).toNat)) ∧
    (∀ s (v : BitVec 512), let x : BitVec 64 := v.setWidth 64
      (x.toNat % 2 ^ 21 = 0 → exec (.registerWrite .saveBase v) s = .next { s with saveBase := x }) ∧
      (x.toNat % 2 ^ 21 ≠ 0 → exec (.registerWrite .saveBase v) s = .next s) ∧
      (x.toNat % 4096 = 0 → x.toNat < 2 ^ 56 → exec (.registerWrite (.lathe 0x10) v) s = .next { s with lathe := { s.lathe with luca := x } }) ∧
      (2 ^ 56 ≤ x.toNat → exec (.registerWrite (.lathe 0x10) v) s = .next s) ∧
      (x.toNat % 4096 ≠ 0 → exec (.registerWrite (.lathe 0x10) v) s = .next s ∧ exec (.registerWrite (.lathe 0) v) s = .next s) ∧
      (x.toNat % 4096 = 0 → x.toNat < 2 ^ 52 → isHbm x.toNat = true → paFault s x.toNat = none →
        exec (.registerWrite (.lathe 0) v) s = .next { s with lathe := { s.lathe with lqtb := x } }) ∧
      (100 ≤ bitsOf v 0 32 → bitsOf v 0 32 ≤ 100000 →
        exec (.registerWrite (.lathe 8) v) s = .next { s with lathe := { s.lathe with lslice := v.setWidth 32 } }) ∧
      ((bitsOf v 0 32 < 100 ∨ 100000 < bitsOf v 0 32) → exec (.registerWrite (.lathe 8) v) s = .next s)) ∧
    (∀ s owner (k : BitVec 512), owner < 4096 → keyOf s owner ≠ some k →
      ∃ u, exec (.registerWrite (.keySlot owner) k) s = .next u ∧ u.mem = s.mem ∧ (∀ j, (owner, j) ∈ u.keys ↔ j = k) ∧
        (∀ o j, o ≠ owner → ((o, j) ∈ u.keys ↔ (o, j) ∈ s.keys)) ∧
        ((∀ e ∈ s.oldKeys, (e.1, e.2.1) ≠ (owner, k)) → ∀ a, ownerAt u a ≠ some owner ∧
          ∀ o, o ≠ owner → ownerAt s a = some o → ownerAt u a = some o) ∧
        ∀ j, keyOf s owner = some j → ∃ v, exec (.registerWrite (.keySlot owner) j) u = .next v ∧ v.mem = s.mem ∧
          ∀ a, ownerAt s a = some owner → ownerAt v a = some owner) ∧
    (∀ s fn granule (v : BitVec 512), fn < 2 → granule < 131072 →
      ∃ u, exec (.registerWrite (.bar2 fn granule) v) s = .next u ∧ { u with bar2 := s.bar2 } = s ∧
        ∀ x a, (x, a) ∈ u.bar2 ↔ if x = (fn, granule) then v.getLsbD 0 = true ∧ a = (v.extractLsb' 19 45).toNat * 2 ^ 19 else (x, a) ∈ s.bar2) ∧
    (∀ s addr len (v : BitVec 512), ∃ u, exec (.registerWrite (.capacity addr len) v) s = .next u ∧ { u with poison := s.poison } = s ∧
      ∀ a, (∃ e ∈ u.poison, e.1 ≤ a ∧ a < e.1 + e.2) ↔ (∃ e ∈ s.poison, e.1 ≤ a ∧ a < e.1 + e.2) ∧ (a < addr ∨ addr + len ≤ a)) ∧
    (∀ s (v : BitVec 512),
      ((v.getLsbD 0 = false ∨ hostUp s = false ∨ (mget s.mailbox 0x8020).getLsbD 0 = true) → exec (.registerWrite (.mailbox 0x8020) v) s = .next s) ∧
      (v.getLsbD 0 = true → hostUp s = true → (mget s.mailbox 0x8020).getLsbD 0 = false →
        ∃ u, exec (.registerWrite (.mailbox 0x8020) v) s = .next u ∧ { u with mailbox := s.mailbox, attest := s.attest } = s ∧
          u.attest = mgetList s.mailbox 0x8000 32 ∧ ∀ k, mget u.mailbox k = if k = 0x8020 then 1 else mget s.mailbox k)) ∧
    (∀ s off (v : BitVec 512), (0x8000 ≤ off ∧ off + 8 ≤ 0x8020) ∨ (0x100000 ≤ off ∧ off + 8 ≤ 0x200000) →
      ∃ u, exec (.registerWrite (.mailbox off) v) s = .next u ∧ { u with mailbox := s.mailbox } = s ∧
        ∀ k, mget u.mailbox k = if off ≤ k ∧ k < off + 8 then byteAt (v.setWidth 64 : BitVec 64) (k - off) else mget s.mailbox k) ∧
    ∀ s iod nsid off (v : BitVec 512), ∃ u, exec (.registerWrite (.flash iod nsid off) v) s = .next u ∧ { u with flash := s.flash } = s ∧
      ∀ a b c x, (a, b, c, x) ∈ u.flash ↔ if (a, b, c) = (iod, nsid, off) then x = v.setWidth 8 ∧ x ≠ 0 else (a, b, c, x) ∈ s.flash) ∧
  (
    (∀ s, latheUp s = true →
      (bitsOf s.lathe.lustat 0 2 ≠ 1 → exec .lucmdLoad s = .next { s with lathe := { s.lathe with lustat := 1, loading := some s.lathe.luca } }) ∧
      (bitsOf s.lathe.lustat 0 2 = 1 → exec .lucmdLoad s = .next s)) ∧
    (∀ s luca h code, nextTurn s = .microcode → latheUp s = true → s.lathe.loading = some luca → devGet s (rootDie s) 0 luca.toNat 512 = some h →
      devGet s (rootDie s) 0 (luca.toNat + 512) (fieldAt h 8 4 % 2 ^ 19) = some code →
      let a := takeTurn s
      let r := refuseImage s h code
      (r ≠ 0 → step s = .next { a with lathe := { s.lathe with loading := none, lustat := BitVec.ofNat 32 (3 + 256 * r) } }) ∧
      (r = 0 → ∃ u, step s = .next u ∧ { u with lathe := s.lathe, meas := s.meas } = a ∧
        u.lathe = { s.lathe with loading := none,
                                 ucode := some { version := BitVec.ofNat 32 (fieldAt h 4 4), entry := fieldAt h 12 4, code := code } } ∧
        u.meas.getD 2 [] = sha256 (s.meas.getD 2 (List.replicate 32 0) ++ sha256 code) ∧
        ∀ i, i < 4 → i ≠ 2 → u.meas.getD i [] = s.meas.getD i (List.replicate 32 0))) ∧
    (∀ s m, latheUp s = true → s.lathe.ucode = some m →
      exec .microcodeSwitch s = .next { s with lathe := { s.lathe with lustat := 2, luver := m.version, ucode := none, running := some m } }) ∧
    (∀ s, hostUp s = true → ((mget s.mailbox 0x8020).getLsbD 0 = true → s.attest.length = 32) →
      ∃ u, exec .attestationRequest s = .next u ∧ { u with mailbox := s.mailbox, attest := s.attest } = s ∧ u.attest = [] ∧
      let at_ := fun (k : Nat) => mget u.mailbox (0x8100 + k)
      (∀ k, k < 4 → at_ k = byteAt (1 : BitVec 32) k) ∧ (∀ k, 4 ≤ k → k < 8 → at_ k = 0) ∧
      (∀ k, k < 32 → at_ (8 + k) = if (mget s.mailbox 0x8020).getLsbD 0 then s.attest.getD k 0 else mget s.mailbox (0x8000 + k)) ∧
      (∀ k, k < 96 → at_ (40 + k) = identityByte s k) ∧
      (∀ k, k < 128 → at_ (136 + k) = identityByte s (0x1E0 + k)) ∧ ∀ k, k < 0x8100 → mget u.mailbox k = if k = 0x8020 then 0 else mget s.mailbox k) ∧
    (∀ s fn off len, fn < 2 → s.ready.getLsbD (11 + fn) = true → off < 2 ^ 36 →
      let place := fun (k : AKind) (n : Nat) => (s.bar2.find? fun e => e.1 == (fn, off / 2 ^ 19)).map fun e =>
        devPiece s (rootDie s) 0 k (e.2 + off % 2 ^ 19) n
      let go := fun (req : HostReq) => exec (.hostBar2Access (fn * 2 ^ 36 + off) len req) s
      let refused : Host.Outcome State Fault Refusal := .next { s with hostResp := some none }
      go .atomicOp = refused ∧
      (0 < len → off % 2 ^ 19 + len ≤ 2 ^ 19 →
        (place .load len = none → go .read = refused) ∧ (∀ e, place .load len = some (.error e) → go .read = refused) ∧
        (∀ p, place .load len = some (.ok p) → go .read = .next { s with hostResp := some (if devBad s [p] then none else some (devRead s [p])) })) ∧
      ∀ bs : List Byte, bs ≠ [] → off % 2 ^ 19 + bs.length ≤ 2 ^ 19 →
        (place .store bs.length = none → go (.write bs) = refused) ∧ (∀ e, place .store bs.length = some (.error e) → go (.write bs) = refused) ∧
        (∀ p, place .store bs.length = some (.ok p) → pageDiscarded s p.pte = false → (∀ l ∈ s.lineOwner, l.1 % 256 = 0 ∧ l.2.1 % 256 = 0) →
          ∃ u, go (.write bs) = .next u ∧ u.hostResp = some (some []) ∧ SameAgents s u ∧ ∀ b,
            memByte u p.owner b = if p.pa ≤ b ∧ b < p.pa + bs.length then bs.getD (b - p.pa) 0 else memByte s p.owner b)) ∧
    ∀ s addr len, paKind addr = 1 → len ≠ 0 →
      ∃ u, exec (.dynamicCapacityRelease addr len) s = .next u ∧ { u with poison := s.poison } = s ∧
        ∀ pa n, memBad u pa n = (memBad s pa n || decide (addr < pa + n ∧ pa < addr + len)))

/-- R17, R18, R39, R45, R402, R479, R483, R486: the loss of a die clears its READY bit, its caches and its line tokens and puts its
teams out; a refresh of telemetry, 1 ms after the last, measures, lowers the clock of a die over a limit (log 76), its own or the package's,
and shuts down one that is too hot; a package
reset leaves the state after reset and keeps what lies outside the package; the functions that pass come up then or one by one (log 105),
and on a die that is up its firmware core runs (log 122). What limits the package's power is log 98, a walk to bad data log 106, the keys
of a boot log 79, the image's check log 22. -/
def Obligations.PackageEvents : Prop :=
  (∀ s die d, dieUp s die = true → findDie s die = some d →
    ∃ u c, exec (.dieLost die) s = .next u ∧ u.ready = s.ready &&& ~~~((1 : BitVec 64) <<< (3 + die)) ∧ findDie u die = some c ∧ c.lost = true ∧
      c.ert = [] ∧ c.merges = [] ∧ c.trapQ = [] ∧ (∀ x ∈ u.toks, x.h ≠ .l2 die) ∧ (∀ x ∈ u.l1, x.die ≠ die) ∧ (∀ x ∈ u.tlb, x.die ≠ die) ∧
      ∀ m t, findTeam s m = some t → ∃ v, findTeam u m = some v ∧
        v.st = if t.die = die ∧ t.st = .resident then (if t.fw then .discarded else .out) else t.st) ∧
  (∀ s die d, dieUp s die = true → findDie s die = some d → 1200000 ≤ (s.cycle - ofBytes 64 (mgetList s.telemetry 0 8)).toNat →
    let m := fun (k : Nat) => Config.telemetry s.freeNo k
    let hot := (m (27 + die)).toNat % 2 ^ 16
    let up := fun (k : Nat) => if k < 8 then dieUp s k else if k < 24 then dieUp s ((k - 8) / 2) else if k = 24 then caldUp s else s.ready.getLsbD (k - 14)
    let w := fun (k : Nat) => if up k then (m k).toNat else 0
    let shared := 250000 ≤ w 24 ∨ 80000 ≤ w 25 ∨ 80000 ≤ w 26 ∨ 4200000 ≤ ((List.range 27).map w).sum + 190000
    ∃ u c, exec .telemetryRefresh s = .next u ∧ findDie u die = some c ∧ c.power = (m die).toNat ∧ c.temp = hot ∧
      (c.clock = if (380000 ≤ (m die).toNat ∨ 35000 ≤ (m (8 + 2 * die)).toNat ∨ 35000 ≤ (m (9 + 2 * die)).toNat ∨ (950 ≤ hot ∧ hot < 2 ^ 15) ∨ shared) ∧ 600 < d.clock
        then d.clock - 100 else d.clock) ∧
      ((1050 ≤ hot ∧ hot < 2 ^ 15) → c.lost = true ∧ dieUp u die = false) ∧ (∀ k, k < 8 → mget u.telemetry k = byteAt s.cycle k) ∧
      ∀ k, k < 8 → dieUp u k = false → ∀ i, i < 4 → mget u.telemetry (0x20 + 4 * k + i) = 0 ∧ mget u.telemetry (0x40 + 8 * k + i) = 0 ∧
        mget u.telemetry (0x44 + 8 * k + i) = 0) ∧
  (∀ s, ∃ u, exec .packageReset s = .next u ∧
    (∀ a, mget u.mem a = if paKind a = 0 then 0 else mget s.mem a) ∧ u.flash = s.flash ∧ u.ready ||| u.coming = bootReady s ∧ u.ready &&& u.coming = 0 ∧
    (Config.firmwareVerify (bootImage s) = false → u.ready = 0 ∧ u.coming = 0 ∧ u.teams = []) ∧
    (∀ t ∈ u.teams, dieUp u t.die = true ∧ 64 ≤ t.core ∧ t.st = .resident ∧ ∃ p, t.spindles = [p] ∧ p.live = 0xFF ∧ p.v = [] ∧ p.s = [] ∧ p.p = []) ∧
    (∀ d, dieUp u d = true → ∃ t ∈ u.teams, t.die = d) ∧ (∀ o, o < 4096 → keyOf u o = some (Config.bootKey s.nextId o)) ∧
    u.cycle = 0 ∧ u.lathe.lslice = 2000 ∧ u.lathe.luca = 0 ∧ u.lathe.lustat = 0 ∧ u.lathe.ucode = none ∧ u.lathe.shares = [] ∧ u.grids = [] ∧ u.queues = [] ∧ u.wins = [] ∧ u.grps = [] ∧ u.insts = [] ∧ u.ctxs = [] ∧
    u.store = [] ∧ u.poison = [] ∧ u.toks = [] ∧ u.l1 = [] ∧ u.tlb = [] ∧ u.errLog = [] ∧ u.errCount = 0 ∧ u.mailbox = [] ∧
    ∀ die, die < 8 → ∃ c, findDie u die = some c ∧ c.lost = false ∧ c.wdog = 0 ∧ c.ecccnt = 0 ∧ c.exdir = 0 ∧ c.exns = 0 ∧ c.clock = 1200 ∧ c.ert = []) ∧
  ∀ s b, nextTurn s = .bringUp b →
    (s.coming.getLsbD b = false → step s = .next (takeTurn s)) ∧
    (s.coming.getLsbD b = true → ∃ u, step s = .next u ∧ u.ready = s.ready ||| BitVec.twoPow 64 b ∧ u.coming = s.coming &&& ~~~(BitVec.twoPow 64 b) ∧
      (b = 2 → u.armQ = []) ∧ ((b < 3 ∨ 10 < b) → u.teams = s.teams) ∧ (b ≠ 2 → u.mem = s.mem ∧ u.wins = s.wins))
end

