-- ==== Sys2Proof/Laws/Maps.lean ====
section
/-! SUPPORT. Sys2Proof/Laws/Maps.lean: the laws of sparse maps: read after write, and the canonical form kept. -/

namespace Sys2Proof.Machine

open Sys2Proof

/-! ## Read after write -/

theorem mget_mins_eq {w : Nat} (m : SMap w) (x : Nat) (y : BitVec w) : mget (mins m x y) x = y := by
  induction m with
  | nil => simp [mins, mget]
  | cons e r ih =>
    obtain ⟨k, v⟩ := e
    simp only [mins]
    split
    · simp [mget]
    · split
      · simp [mget]
      · simpa [mget, *] using ih

theorem mget_mins_ne {w : Nat} (m : SMap w) (x z : Nat) (y : BitVec w) (h : z ≠ x) : mget (mins m x y) z = mget m z := by
  induction m with
  | nil => simp [mins, mget, Ne.symm h]
  | cons e r ih =>
    obtain ⟨k, v⟩ := e
    simp only [mins]
    split
    · subst_vars; simp [mget, Ne.symm h]
    · split
      · simp [mget, Ne.symm h]
      · simp [mget, ih]

theorem mget_mdel_eq {w : Nat} (m : SMap w) (x : Nat) : mget (mdel m x) x = 0 := by
  induction m with
  | nil => rfl
  | cons e r ih =>
    obtain ⟨k, v⟩ := e
    simp only [mdel]
    split
    · exact ih
    · simpa [mget, *] using ih

theorem mget_mdel_ne {w : Nat} (m : SMap w) (x z : Nat) (h : z ≠ x) : mget (mdel m x) z = mget m z := by
  induction m with
  | nil => rfl
  | cons e r ih =>
    obtain ⟨k, v⟩ := e
    simp only [mdel]
    split
    · subst_vars; simp [mget, Ne.symm h, ih]
    · simp [mget, ih]

@[simp] theorem mget_mset_eq {w : Nat} (m : SMap w) (x : Nat) (y : BitVec w) : mget (mset m x y) x = y := by
  unfold mset
  split
  · simp [mget_mdel_eq, *]
  · exact mget_mins_eq m x y

theorem mget_mset_ne {w : Nat} (m : SMap w) (x z : Nat) (y : BitVec w) (h : z ≠ x) : mget (mset m x y) z = mget m z := by
  unfold mset
  split
  · exact mget_mdel_ne m x z h
  · exact mget_mins_ne m x z y h

theorem mget_mset {w : Nat} (m : SMap w) (x z : Nat) (y : BitVec w) : mget (mset m x y) z = if z = x then y else mget m z := by
  split
  · subst_vars; simp
  · exact mget_mset_ne m x z y ‹_›

/-- A list write reads back its values, and leaves every other key alone. -/
theorem mget_msetList {w : Nat} (ys : List (BitVec w)) (m : SMap w) (x z : Nat) :
    mget (msetList m x ys) z = if x ≤ z ∧ z < x + ys.length then ys.getD (z - x) 0 else mget m z := by
  induction ys generalizing m x with
  | nil => simp only [msetList, List.length_nil]; rw [if_neg (by omega)]
  | cons y ys ih =>
    simp only [msetList, ih, mget_mset, List.length_cons]
    by_cases h : z = x
    · subst h; simp
    · by_cases h2 : x + 1 ≤ z ∧ z < x + 1 + ys.length
      · have h3 : x ≤ z ∧ z < x + (ys.length + 1) := by omega
        obtain ⟨k, hk⟩ : ∃ k, z - x = k + 1 := ⟨z - x - 1, by omega⟩
        have h4 : z - (x + 1) = k := by omega
        simp [h2, h3, hk, h4]
      · have h3 : ¬ (x ≤ z ∧ z < x + (ys.length + 1)) := by omega
        rw [if_neg h2, if_neg h, if_neg h3]

theorem mget_mclear {w : Nat} (m : SMap w) (lo hi z : Nat) :
    mget (mclear m lo hi) z = if lo ≤ z ∧ z < hi then 0 else mget m z := by
  unfold mclear
  induction m with
  | nil => simp [mget]
  | cons e r ih =>
    obtain ⟨k, v⟩ := e
    by_cases hk : k < lo ∨ hi ≤ k
    · have : (decide (k < lo) || decide (hi ≤ k)) = true := by simpa using hk
      simp only [List.filter_cons, this, if_true, mget]
      by_cases hz : k = z
      · subst hz; rw [if_pos rfl, if_pos rfl, if_neg (by omega)]
      · simp [hz, ih]
    · have : (decide (k < lo) || decide (hi ≤ k)) = false := by simpa using hk
      rw [List.filter_cons, this, if_neg (by simp)]
      simp only [mget]
      by_cases hz : k = z
      · subst hz; rw [ih, if_pos rfl, if_pos (by omega), if_pos (by omega)]
      · rw [ih, if_neg hz]

/-! ## The canonical form -/

theorem mwfFrom_mono {w : Nat} (m : SMap w) (a b : Nat) (h : a ≤ b) (hm : mwfFrom b m = true) : mwfFrom a m = true := by
  cases m with
  | nil => rfl
  | cons e r =>
    obtain ⟨k, v⟩ := e
    simp only [mwfFrom, Bool.and_eq_true, decide_eq_true_eq] at *
    exact ⟨⟨by omega, hm.1.2⟩, hm.2⟩

theorem mwfFrom_mdel {w : Nat} (m : SMap w) (x lo : Nat) (hm : mwfFrom lo m = true) : mwfFrom lo (mdel m x) = true := by
  induction m generalizing lo with
  | nil => rfl
  | cons e r ih =>
    obtain ⟨k, v⟩ := e
    simp only [mwfFrom, Bool.and_eq_true, decide_eq_true_eq] at hm
    simp only [mdel]
    split
    · exact ih lo (mwfFrom_mono r lo (k + 1) (by omega) hm.2)
    · simp only [mwfFrom, Bool.and_eq_true, decide_eq_true_eq]
      exact ⟨hm.1, ih _ hm.2⟩

theorem mwfFrom_mins {w : Nat} (m : SMap w) (x lo : Nat) (y : BitVec w) (hy : y ≠ 0) (hx : lo ≤ x) (hm : mwfFrom lo m = true) :
    mwfFrom lo (mins m x y) = true := by
  induction m generalizing lo with
  | nil => simp only [mins, mwfFrom, Bool.and_eq_true, decide_eq_true_eq]; exact ⟨⟨hx, hy⟩, trivial⟩
  | cons e r ih =>
    obtain ⟨k, v⟩ := e
    simp only [mwfFrom, Bool.and_eq_true, decide_eq_true_eq] at hm
    simp only [mins]
    split
    · subst_vars; simp only [mwfFrom, Bool.and_eq_true, decide_eq_true_eq]; exact ⟨⟨hx, hy⟩, hm.2⟩
    · split
      · simp only [mwfFrom, Bool.and_eq_true, decide_eq_true_eq]
        exact ⟨⟨hx, hy⟩, ⟨by omega, hm.1.2⟩, hm.2⟩
      · simp only [mwfFrom, Bool.and_eq_true, decide_eq_true_eq]
        exact ⟨hm.1, ih _ (by omega) hm.2⟩

theorem mwf_mset {w : Nat} (m : SMap w) (x : Nat) (y : BitVec w) (hm : mwf m = true) : mwf (mset m x y) = true := by
  unfold mwf mset at *
  split
  · exact mwfFrom_mdel m x 0 hm
  · exact mwfFrom_mins m x 0 y ‹_› (Nat.zero_le x) hm

theorem mwf_msetList {w : Nat} (ys : List (BitVec w)) (m : SMap w) (x : Nat) (hm : mwf m = true) : mwf (msetList m x ys) = true := by
  induction ys generalizing m x with
  | nil => exact hm
  | cons y ys ih => exact ih _ _ (mwf_mset m x y hm)

theorem mwfFrom_filter {w : Nat} (p : Nat × BitVec w → Bool) (m : SMap w) (lo : Nat) (hm : mwfFrom lo m = true) :
    mwfFrom lo (m.filter p) = true := by
  induction m generalizing lo with
  | nil => rfl
  | cons e r ih =>
    obtain ⟨k, v⟩ := e
    simp only [mwfFrom, Bool.and_eq_true, decide_eq_true_eq] at hm
    simp only [List.filter_cons]
    split
    · simp only [mwfFrom, Bool.and_eq_true, decide_eq_true_eq]
      exact ⟨hm.1, ih _ hm.2⟩
    · exact ih lo (mwfFrom_mono r lo (k + 1) (by omega) hm.2)

theorem mwf_mclear {w : Nat} (m : SMap w) (lo hi : Nat) (hm : mwf m = true) : mwf (mclear m lo hi) = true :=
  mwfFrom_filter _ m 0 hm

/-- A canonical map reads 0 below its first key. -/
theorem mget_below {w : Nat} (m : SMap w) (lo x : Nat) (hm : mwfFrom lo m = true) (h : x < lo) : mget m x = 0 := by
  induction m generalizing lo with
  | nil => rfl
  | cons e r ih =>
    obtain ⟨k, v⟩ := e
    simp only [mwfFrom, Bool.and_eq_true, decide_eq_true_eq] at hm
    have : k ≠ x := by omega
    simpa [mget, this] using ih (k + 1) hm.2 (by omega)

end Sys2Proof.Machine
end

