-- ==== Sys2Proof/Laws/Find.lean ====
section
/-! SUPPORT. Sys2Proof/Laws/Find.lean: finding after updating: an update of the element with a key is found under that key,
and every other key finds what it found before. -/

namespace Sys2Proof.Machine

open Sys2Proof

/-- Updating the elements with one key, by a function that keeps keys. -/
theorem find_updWhere {α : Type} (key : α → Nat) (f : α → α) (k m : Nat) (l : List α) (hf : ∀ x, key (f x) = key x) :
    (updWhere (fun x => key x == k) f l).find? (fun x => key x == m) =
      if m = k then (l.find? fun x => key x == k).map f else l.find? fun x => key x == m := by
  induction l with
  | nil => simp [updWhere]
  | cons x r ih =>
    unfold updWhere at ih ⊢
    simp only [List.map_cons]
    by_cases hk : key x = k
    · rw [if_pos (by simpa using hk)]
      by_cases hm : m = k
      · rw [List.find?_cons_of_pos (by simp [hf, hk, hm]), List.find?_cons_of_pos (by simpa using hk), if_pos hm]; rfl
      · rw [if_neg hm] at ih ⊢
        rw [List.find?_cons_of_neg (by simp [hf, hk, Ne.symm hm]), List.find?_cons_of_neg (by simp [hk, Ne.symm hm]), ih]
    · rw [if_neg (by simpa using hk)]
      rw [List.find?_cons_of_neg (p := fun x => key x == k) (by simpa using hk)]
      by_cases hm : key x = m
      · have : m ≠ k := fun h => hk (hm.trans h)
        rw [List.find?_cons_of_pos (by simpa using hm), if_neg this, List.find?_cons_of_pos (by simpa using hm)]
      · rw [List.find?_cons_of_neg (by simpa using hm), List.find?_cons_of_neg (p := fun x => key x == m) (by simpa using hm), ih]

/-! ## Teams, spindles, fragments -/

theorem findTeam_updTeam (s : State) (t m : Nat) (f : Team → Team) (hf : ∀ x, (f x).id = x.id) :
    findTeam (updTeam s t f) m = if m = t then (findTeam s t).map f else findTeam s m :=
  find_updWhere Team.id f t m s.teams hf

theorem findTeam_id {s : State} {m : Nat} {t : Team} (h : findTeam s m = some t) : t.id = m := by
  simpa using List.find?_some h

theorem spindle_spx {t : Team} {k : Nat} {p : Spindle} (h : t.spindle? k = some p) : p.spx = k := by
  simpa using List.find?_some h

theorem frag_id {p : Spindle} {k : Nat} {f : Frag} (h : p.frag? k = some f) : f.id = k := by
  simpa using List.find?_some h

theorem frag_updFrag (p : Spindle) (i k : Nat) (f : Frag → Frag) (hf : ∀ x, (f x).id = x.id) :
    (p.updFrag i f).frag? k = if k = i then (p.frag? i).map f else p.frag? k :=
  find_updWhere Frag.id f i k p.frags hf

/-- A spindle after an update of one. -/
theorem findSp_updSp (s : State) (r q : SpRef) (f : Spindle → Spindle) (hf : ∀ x, (f x).spx = x.spx) :
    findSp (updSp s r f) q = if q = r then (findSp s r).map f else findSp s q := by
  unfold findSp updSp
  rw [findTeam_updTeam]
  swap
  · intro x; rfl
  obtain ⟨qt, qs⟩ := q
  obtain ⟨rt, rs⟩ := r
  by_cases ht : qt = rt
  · subst ht
    rw [if_pos rfl]
    cases findTeam s qt with
    | none => simp
    | some t =>
      simp only [Option.map_some, Option.bind_some, Team.spindle?]
      rw [find_updWhere Spindle.spx f rs qs t.spindles hf]
      by_cases hs : qs = rs
      · subst hs; simp
      · simp [hs]
  · have : ¬ (SpRef.mk qt qs = SpRef.mk rt rs) := by simp [ht]
    simp [ht]

theorem findTeam_updSp (s : State) (r : SpRef) (m : Nat) (f : Spindle → Spindle) :
    findTeam (updSp s r f) m =
      if m = r.team then (findTeam s r.team).map fun t => { t with spindles := updWhere (fun x => x.spx == r.spx) f t.spindles }
      else findTeam s m :=
  findTeam_updTeam s r.team m _ fun _ => rfl

/-- A spindle after an update of its team that leaves spindles alone. -/
theorem findSp_updTeam (s : State) (t : Nat) (q : SpRef) (f : Team → Team) (hi : ∀ x, (f x).id = x.id)
    (hf : ∀ x, (f x).spindles = x.spindles) : findSp (updTeam s t f) q = findSp s q := by
  unfold findSp
  rw [findTeam_updTeam _ _ _ _ hi]
  by_cases h : q.team = t
  · rw [if_pos h, h]
    cases findTeam s t <;> simp [Team.spindle?, hf]
  · rw [if_neg h]

/-! ## Grids, dies, windows, contexts, queues -/

theorem findGrid_updGrid (s : State) (g m : Nat) (f : Grid → Grid) (hf : ∀ x, (f x).id = x.id) :
    findGrid (updGrid s g f) m = if m = g then (findGrid s g).map f else findGrid s m :=
  find_updWhere Grid.id f g m s.grids hf

theorem findDie_updDie (s : State) (d m : Nat) (f : Die → Die) (hf : ∀ x, (f x).id = x.id) :
    findDie (updDie s d f) m = if m = d then (findDie s d).map f else findDie s m :=
  find_updWhere Die.id f d m s.dies hf

theorem findWin_updWin (s : State) (w m : Nat) (f : Win → Win) (hf : ∀ x, (f x).w = x.w) :
    findWin (updWin s w f) m = if m = w then (findWin s w).map f else findWin s m :=
  find_updWhere Win.w f w m s.wins hf

theorem findQueue_updQueue (s : State) (q m : Nat) (f : Queue → Queue) (hf : ∀ x, (f x).n = x.n) :
    findQueue (updQueue s q f) m = if m = q then (findQueue s q).map f else findQueue s m :=
  find_updWhere Queue.n f q m s.queues hf

end Sys2Proof.Machine
end

