-- ==== Sys2Proof/Laws/Issue.lean ====
section
/-! SUPPORT. Sys2Proof/Laws/Issue.lean: what an issue finds and what it leads to: the facts of a prologue that lets an
instruction act, register writes, and the state after `commit`. -/

namespace Sys2Proof.Machine

open Sys2Proof

/-! ## The prologue -/

/-- What an issue has found: its fragment is the acting one of the state. -/
structure IssFacts (i : Instr) (k : IssCls) (s : State) (x : Iss) : Prop where
  state : x.s = s
  cur   : s.cur = .frag x.r x.word
  team  : findTeam s x.r.sp.team = some x.t
  sp    : findSp s x.r.sp = some x.p
  frag  : findFrag s x.r = some x.f
  spec  : jspec (nscOf x.p i) i = some (x.w, x.sp)
  ready : fragReady s x.t x.p x.f = true
  lets  : windowLets x.p x.f (k.named x.w x.sp) = true
  act   : x.act = activeOf x.p x.f
  tp    : x.tp = takingPart x.p x.f x.w
  passes : x.check i k = none
  pops  : ∀ e ∈ x.pops, e.1 ∈ popPorts x.w x.sp

/-- The groups that a prologue pops are of the ports asked for. -/
theorem popAll_ports {t : Team} {qs : List Nat} {gs : List (Nat × List Word)} (h : popAll t qs = .ok gs) : ∀ e ∈ gs, e.1 ∈ qs := by
  induction qs generalizing gs with
  | nil =>
    simp only [popAll, Except.ok.injEq] at h
    subst h
    simp
  | cons q qs ih =>
    unfold popAll at h
    split at h
    · simp at h
    · split at h
      · cases hp : popAll t qs with
        | error e => rw [hp] at h; simp [Except.map] at h
        | ok l =>
          rw [hp] at h
          simp only [Except.map, Except.ok.injEq] at h
          subst h
          intro e he
          rcases List.mem_cons.mp he with rfl | he
          · simp
          · exact List.mem_cons_of_mem _ (ih hp e he)
      · simp at h

theorem begin_facts {i : Instr} {k : IssCls} {x y : Iss} (h : x.begin i k = .go y) (h0 : x.pops = []) :
    x.check i k = none ∧ ∃ gs, y = { x with pops := gs } ∧ ∀ e ∈ gs, e.1 ∈ popPorts x.w x.sp := by
  unfold Iss.begin at h
  split at h
  · simp [Iss.trap, trapAt, Pro.ofOut] at h
  · refine ⟨‹_›, ?_⟩
    split at h
    · exact ⟨x.pops, (Pro.go.inj h).symm, by simp [h0]⟩
    · split at h
      · exact ⟨_, (Pro.go.inj h).symm, popAll_ports ‹_›⟩
      · rename_i e _
        obtain ⟨q, e⟩ := e
        exfalso
        unfold Iss.popStop at h
        cases e with
        | deferred =>
          simp only at h
          repeat' split at h
          all_goals simp [Iss.trap, trapAt, Iss.needWalk, Pro.ofOut] at h
        | _ => simp [Iss.trap, Iss.trapT, trapAt, Pro.ofOut] at h

theorem prologue_facts {i : Instr} {k : IssCls} {s : State} {x : Iss} (h : prologue i k s = .go x) : IssFacts i k s x := by
  unfold prologue at h
  split at h
  · rename_i r word hc
    split at h
    · rename_i t p f ht hp hf
      split at h
      · cases h
      · rename_i w sp hj
        split at h
        · rename_i hr
          obtain ⟨hn, gs, rfl, hg⟩ := begin_facts h rfl
          simp only [Bool.and_eq_true] at hr
          exact ⟨rfl, hc, ht, hp, hf, hj, hr.1, hr.2, rfl, rfl, hn, hg⟩
        · cases h
    · cases h
  · cases h

/-! ## Register writes -/

theorem threadsOf_lt {m : BitVec 8} {t : Nat} (h : t ∈ threadsOf m) : t < 8 := by
  simp only [threadsOf, List.mem_filter, List.mem_range] at h
  exact h.1

theorem threads_lt {x : Iss} {t : Nat} (h : t ∈ x.threads) : t < 8 := by
  unfold Iss.threads at h
  split at h
  · exact threadsOf_lt (List.mem_of_mem_take h)
  · exact threadsOf_lt h

theorem vget_vset (p : Spindle) (n t k u : Nat) (y : Word) (ht : t < 8) (hu : u < 8) :
    vget (vset p n t y) k u = if k = n ∧ u = t then y else vget p k u := by
  simp only [vget, vset, dropLatch, mget_mset]
  have : (8 * k + u = 8 * n + t) ↔ (k = n ∧ u = t) := by omega
  simp [this]

@[simp] theorem vset_s (p : Spindle) (n t : Nat) (y : Word) : (vset p n t y).s = p.s := rfl
@[simp] theorem sset_v (p : Spindle) (n : Nat) (y : Word) : (sset p n y).v = p.v := rfl

theorem sget_sset (p : Spindle) (n k : Nat) (y : Word) : sget (sset p n y) k = if k = n then y else sget p k := by
  simp [sget, sset, mget_mset]

/-- A fold of updates that each keep a view keeps it. -/
theorem foldl_keeps {α β γ : Type} (view : β → γ) (g : β → α → β) (h : ∀ b a, view (g b a) = view b) (l : List α) (b : β) :
    view (l.foldl g b) = view b := by
  induction l generalizing b with
  | nil => rfl
  | cons a r ih => rw [List.foldl_cons, ih, h]

theorem vget_vsetN (r t k u n : Nat) (x : BitVec 128) (p : Spindle) (ht : t < 8) (hu : u < 8) :
    vget (vsetN p r n t x) k u = if u = t ∧ r ≤ k ∧ k < r + n then x.extractLsb' (32 * (k - r)) 32 else vget p k u := by
  unfold vsetN
  induction n with
  | zero => rw [if_neg (by omega)]; rfl
  | succ n ih =>
    rw [List.range_succ, List.foldl_append, List.foldl_cons, List.foldl_nil, vget_vset _ _ _ _ _ _ ht hu, ih]
    by_cases h : k = r + n ∧ u = t
    · obtain ⟨rfl, rfl⟩ := h
      simp
    · rw [if_neg h]
      have : (u = t ∧ r ≤ k ∧ k < r + (n + 1)) ↔ (u = t ∧ r ≤ k ∧ k < r + n) := by omega
      simp only [this]

theorem sget_ssetN (r k n : Nat) (x : BitVec 128) (p : Spindle) :
    sget (ssetN p r n x) k = if r ≤ k ∧ k < r + n then x.extractLsb' (32 * (k - r)) 32 else sget p k := by
  unfold ssetN
  induction n with
  | zero => rw [if_neg (by omega)]; rfl
  | succ n ih =>
    rw [List.range_succ, List.foldl_append, List.foldl_cons, List.foldl_nil, sget_sset, ih]
    by_cases h : k = r + n
    · subst h; simp
    · rw [if_neg h]
      have : (r ≤ k ∧ k < r + (n + 1)) ↔ (r ≤ k ∧ k < r + n) := by omega
      simp only [this]

@[simp] theorem vsetN_s (p : Spindle) (r n t : Nat) (x : BitVec 128) : (vsetN p r n t x).s = p.s :=
  foldl_keeps Spindle.s (fun q i => vset q (r + i) t (x.extractLsb' (32 * i) 32)) (fun _ _ => rfl) _ p
@[simp] theorem ssetN_v (p : Spindle) (r n : Nat) (x : BitVec 128) : (ssetN p r n x).v = p.v :=
  foldl_keeps Spindle.v (fun q i => sset q (r + i) (x.extractLsb' (32 * i) 32)) (fun _ _ => rfl) _ p

theorem mem_badV_vset (p : Spindle) (n t k u : Nat) (y : Word) (ht : t < 8) (hu : u < 8) :
    8 * k + u ∈ (vset p n t y).badV ↔ 8 * k + u ∈ p.badV ∧ ¬(u = t ∧ k = n) := by
  have : (8 * k + u = 8 * n + t) ↔ (u = t ∧ k = n) := by omega
  simp [vset, dropLatch, this]

theorem mem_badV_vsetN (r t k u n : Nat) (x : BitVec 128) (p : Spindle) (ht : t < 8) (hu : u < 8) :
    8 * k + u ∈ (vsetN p r n t x).badV ↔ 8 * k + u ∈ p.badV ∧ ¬(u = t ∧ r ≤ k ∧ k < r + n) := by
  unfold vsetN
  induction n with
  | zero => simp
  | succ n ih =>
    rw [List.range_succ, List.foldl_append, List.foldl_cons, List.foldl_nil, mem_badV_vset _ _ _ _ _ _ ht hu, ih, and_assoc]
    refine and_congr_right fun _ => ?_
    omega

@[simp] theorem ssetN_badV (p : Spindle) (r n : Nat) (x : BitVec 128) : (ssetN p r n x).badV = p.badV :=
  foldl_keeps Spindle.badV (fun q i => sset q (r + i) (x.extractLsb' (32 * i) 32)) (fun _ _ => rfl) _ p

/-- What a register write leaves alone: everything but the register files, their ECC, the latches and the chuck. -/
def restOf (p : Spindle) : Spindle := { p with v := [], s := [], badV := [], latchA := none, latchB := none, held := none }

theorem restOf_writeDst (p : Spindle) (d : BitVec 10) (n t : Nat) (x : BitVec 128) : restOf (writeDst p d n t x) = restOf p := by
  unfold writeDst
  split
  · rename_i r _; exact foldl_keeps restOf (fun q i => vset q (r + i) t (x.extractLsb' (32 * i) 32)) (fun _ _ => rfl) _ p
  · rename_i r _; exact foldl_keeps restOf (fun q i => sset q (r + i) (x.extractLsb' (32 * i) 32)) (fun _ _ => rfl) _ p
  · rfl

theorem restOf_writeAll (x : Iss) (n : Nat) (res : List (Nat × BitVec 128)) (p : Spindle) : restOf (x.writeAll n res p) = restOf p :=
  foldl_keeps restOf (fun q (e : Nat × BitVec 128) => writeDst q x.w.d n e.1 e.2) (fun q e => restOf_writeDst q x.w.d n e.1 e.2) _ p

/-- Vector registers after a write for each thread of a list. -/
theorem vfold_regs (r n : Nat) (ths : List Nat) (f : Nat → BitVec 128) (p : Spindle) (h : ∀ t ∈ ths, t < 8) (k t : Nat) (ht : t < 8) :
    vget (ths.foldl (fun q a => vsetN q r n a (f a)) p) k t =
      if t ∈ ths ∧ r ≤ k ∧ k < r + n then (f t).extractLsb' (32 * (k - r)) 32 else vget p k t := by
  induction ths generalizing p with
  | nil => simp
  | cons a ths ih =>
    rw [List.foldl_cons, ih _ (fun t ht => h t (by simp [ht])), vget_vsetN r a k t n (f a) p (h a (by simp)) ht]
    by_cases h3 : r ≤ k ∧ k < r + n
    · by_cases h1 : t ∈ ths
      · rw [if_pos ⟨h1, h3⟩, if_pos ⟨by simp [h1], h3⟩]
      · rw [if_neg (fun c => h1 c.1)]
        by_cases h2 : t = a
        · subst h2; rw [if_pos ⟨rfl, h3⟩, if_pos ⟨by simp, h3⟩]
        · rw [if_neg (fun c => h2 c.1), if_neg (by simp [h1, h2])]
    · rw [if_neg (fun c => h3 c.2), if_neg (fun c => h3 c.2), if_neg (fun c => h3 c.2)]

/-- Scalar registers after a write for each thread of a list: the last one stays. -/
theorem sfold_regs (r n : Nat) (ths : List Nat) (f : Nat → BitVec 128) (p : Spindle) (k : Nat) :
    sget (ths.foldl (fun q a => ssetN q r n (f a)) p) k =
      match ths.getLast? with
      | some t => if r ≤ k ∧ k < r + n then (f t).extractLsb' (32 * (k - r)) 32 else sget p k
      | none => sget p k := by
  induction ths generalizing p with
  | nil => rfl
  | cons a ths ih =>
    rw [List.foldl_cons, ih]
    cases ths with
    | nil => exact sget_ssetN r k n (f a) p
    | cons b rest =>
      rw [List.getLast?_cons_cons]
      cases hl : (b :: rest).getLast? with
      | none => simp at hl
      | some u =>
        simp only [sget_ssetN]
        split <;> rfl

theorem writeAll_map (x : Iss) (n : Nat) (ths : List Nat) (f : Nat → BitVec 128) (p : Spindle) :
    x.writeAll n (ths.map fun t => (t, f t)) p = ths.foldl (fun q a => writeDst q x.w.d n a (f a)) p := by
  unfold Iss.writeAll
  rw [List.foldl_map]

/-- The registers after a write for each thread of a list. -/
theorem writeAll_regs (x : Iss) (n : Nat) (ths : List Nat) (f : Nat → BitVec 128) (p : Spindle) (h : ∀ t ∈ ths, t < 8) :
    RegsWritten p (x.writeAll n (ths.map fun t => (t, f t)) p) x.w.d n ths f := by
  rw [writeAll_map]
  unfold RegsWritten
  cases hd : opnd x.w.d with
  | v r =>
    have e : (fun (q : Spindle) a => writeDst q x.w.d n a (f a)) = fun q a => vsetN q r n a (f a) := by
      funext q a; simp [writeDst, hd]
    rw [e]
    exact ⟨foldl_keeps Spindle.s (fun q a => vsetN q r n a (f a)) (fun _ _ => vsetN_s ..) _ p, fun k t ht => vfold_regs r n ths f p h k t ht⟩
  | s r =>
    have e : (fun (q : Spindle) a => writeDst q x.w.d n a (f a)) = fun q a => ssetN q r n (f a) := by
      funext q a; simp [writeDst, hd]
    rw [e]
    exact ⟨foldl_keeps Spindle.v (fun q a => ssetN q r n (f a)) (fun _ _ => ssetN_v ..) _ p, fun k => sfold_regs r n ths f p k⟩
  | _ =>
    have e : (fun (q : Spindle) a => writeDst q x.w.d n a (f a)) = fun q _ => q := by
      funext q a; simp [writeDst, hd]
    rw [e]
    exact ⟨foldl_keeps Spindle.v (fun q _ => q) (fun _ _ => rfl) ths p, foldl_keeps Spindle.s (fun q _ => q) (fun _ _ => rfl) ths p⟩

/-- ECC of the registers after a write for each thread of a list. -/
theorem writeAll_badV (x : Iss) (n : Nat) (ths : List Nat) (f : Nat → BitVec 128) (p : Spindle) (h : ∀ t ∈ ths, t < 8) (k t : Nat)
    (ht : t < 8) : 8 * k + t ∈ (x.writeAll n (ths.map fun t => (t, f t)) p).badV ↔ 8 * k + t ∈ p.badV ∧ ¬Writes x.w.d n ths k t := by
  rw [writeAll_map]
  induction ths generalizing p with
  | nil => simp [Writes]
  | cons a ths ih =>
    rw [List.foldl_cons, ih _ (fun t ht => h t (by simp [ht]))]
    unfold writeDst
    cases hd : opnd x.w.d with
    | v r =>
      simp only [Writes, hd, Opnd.v.injEq]
      rw [mem_badV_vsetN r a k t n (f a) p (h a (by simp)) ht, and_assoc]
      refine and_congr_right fun _ => ?_
      simp only [List.mem_cons, exists_eq_left']
      tauto
    | s r => simp [Writes, hd]
    | _ => simp [Writes, hd]

/-! ## The state after an issue -/

/-- The issuing spindle as its form's own effect finds it. -/
abbrev startOf (x : Iss) : Spindle := x.begun x.p

/-- An issue's start changes bookkeeping alone. -/
theorem sameArch_begun (x : Iss) (p : Spindle) : sameArch (x.begun p) p := by
  unfold Iss.begun Iss.windows sameArch
  split_ifs <;> rfl
theorem begun_spx (x : Iss) (p : Spindle) : (x.begun p).spx = p.spx := (congrArg Spindle.spx (sameArch_begun x p)).symm ▸ rfl
theorem begun_frags (x : Iss) (p : Spindle) : (x.begun p).frags = p.frags := by
  unfold Iss.begun Iss.windows
  split_ifs <;> rfl
theorem begun_pend (x : Iss) (p : Spindle) : (x.begun p).pend = (x.windows p).pend := by
  unfold Iss.begun
  split_ifs <;> rfl

theorem popStep_keeps (t : Team) (pops : List (Nat × List Word)) :
    ({ popStep t pops with spindles := t.spindles, ports := t.ports } : Team) = t :=
  foldl_keeps (fun (u : Team) => ({ u with spindles := t.spindles, ports := t.ports } : Team)) popOne (fun _ _ => rfl) pops t

theorem popStep_id (t : Team) (pops : List (Nat × List Word)) : (popStep t pops).id = t.id :=
  foldl_keeps Team.id popOne (fun _ _ => rfl) pops t
theorem popStep_spindles (t : Team) (pops : List (Nat × List Word)) : (popStep t pops).spindles = t.spindles :=
  foldl_keeps Team.spindles popOne (fun _ _ => rfl) pops t

/-- The issuing spindle after `commit`. -/
theorem commit_findSp {x : Iss} (pc : BitVec 64) (eff : Spindle → Spindle) (hp : findSp x.s x.r.sp = some x.p)
    (hs : ∀ p, (eff p).spx = p.spx) :
    findSp (x.commit pc eff) x.r.sp = some ((eff (startOf x)).updFrag x.r.frag (fragStep x.s.turnNo pc)) := by
  unfold Iss.commit
  rw [findSp_updSp]
  · rw [if_pos rfl, findSp_updTeam _ _ _ _ (fun t => popStep_id t _) (fun t => popStep_spindles t _), hp]
    rfl
  · intro p
    simp only [Spindle.updFrag, hs, begun_spx]

/-- Everything else after `commit`. -/
theorem commit_keeps {x : Iss} (pc : BitVec 64) (eff : Spindle → Spindle) (ht : findTeam x.s x.r.sp.team = some x.t)
    (hs : ∀ p, (eff p).spx = p.spx) :
    KeepsOthers x.s (x.commit pc eff) x.r.sp ∧
      ∀ b, findTeam (x.commit pc eff) x.r.sp.team = some b → b.ports = (popStep x.t x.pops).ports := by
  have hid := findTeam_id ht
  have hsp : ∀ p : Spindle, ((eff (x.begun p)).updFrag x.r.frag (fragStep x.s.turnNo pc)).spx = p.spx := by
    intro p
    simp only [Spindle.updFrag, hs, begun_spx]
  have hteam : findTeam (x.commit pc eff) x.r.sp.team =
      some { popStep x.t x.pops with spindles := updWhere (fun y => y.spx == x.r.sp.spx) (fun p =>
        (eff (x.begun p)).updFrag x.r.frag (fragStep x.s.turnNo pc)) (popStep x.t x.pops).spindles } := by
    unfold Iss.commit
    rw [findTeam_updSp, if_pos rfl, findTeam_updTeam _ _ _ _ (fun t => popStep_id t _), if_pos hid.symm, hid, ht]
    rfl
  refine ⟨⟨rfl, ?_, ?_, ?_⟩, ?_⟩
  · intro m hm
    unfold Iss.commit
    rw [findTeam_updSp, if_neg hm, findTeam_updTeam _ _ _ _ (fun t => popStep_id t _), if_neg (by rw [hid]; exact hm)]
  · intro q hq
    unfold Iss.commit
    rw [findSp_updSp _ _ _ _ hsp, if_neg hq, findSp_updTeam _ _ _ _ (fun t => popStep_id t _) (fun t => popStep_spindles t _)]
  · intro a b ha hb
    rw [hteam] at hb
    rw [ht] at ha
    obtain rfl := Option.some.inj ha
    obtain rfl := Option.some.inj hb
    exact popStep_keeps x.t x.pops
  · intro b hb
    rw [hteam] at hb
    obtain rfl := Option.some.inj hb
    rfl

/-- The fragment that issued, and the others. -/
theorem fragStep_moved {x : Iss} {pc : BitVec 64} {q : Spindle} (hf : q.frags = x.p.frags) (hx : x.p.frag? x.r.frag = some x.f)
    (hr : x.f.st = .ready) : Moved x pc (q.updFrag x.r.frag (fragStep x.s.turnNo pc)) := by
  have hq : ∀ k, q.frag? k = x.p.frag? k := fun k => by simp [Spindle.frag?, hf]
  refine ⟨⟨fragStep x.s.turnNo pc x.f, ?_, rfl, rfl, hr, rfl⟩, ?_⟩
  · rw [frag_updFrag q x.r.frag _ (fragStep x.s.turnNo pc) (fun _ => rfl), if_pos rfl, hq, hx]; rfl
  · intro k hk
    rw [frag_updFrag q x.r.frag _ (fragStep x.s.turnNo pc) (fun _ => rfl), if_neg hk, hq]

theorem ready_of {s : State} {t : Team} {p : Spindle} {f : Frag} (h : fragReady s t p f = true) : f.st = .ready := by
  unfold fragReady at h
  simp only [Bool.and_eq_true, beq_iff_eq] at h
  exact h.1.1.1.1.1.2

theorem facts_frag {i : Instr} {k : IssCls} {s : State} {x : Iss} (h : IssFacts i k s x) : x.p.frag? x.r.frag = some x.f := by
  have := h.frag
  unfold findFrag at this
  rw [h.sp] at this
  exact this

/-- `commit` with an effect that adds `new` to what is pending and leaves fragments alone. -/
theorem commit_after {i : Instr} {k : IssCls} {s : State} {x : Iss} (h : IssFacts i k s x) (pc : BitVec 64)
    (eff : Spindle → Spindle) (q : Spindle) (new : List Pend) (hs : ∀ p, (eff p).spx = p.spx)
    (hf : (eff (startOf x)).frags = x.p.frags) (hq : sameArch (eff (startOf x)) q)
    (hn : (eff (startOf x)).pend = (x.windows x.p).pend ++ new) : After x pc q new (x.commit pc eff) := by
  obtain ⟨rfl, hc, ht, hp, hfr, -, hr, -, -, -, -, -⟩ := id h
  obtain ⟨k1, k2⟩ := commit_keeps pc eff ht hs
  exact ⟨k1, k2, _, commit_findSp pc eff hp hs, hq, hn, fragStep_moved hf (facts_frag h) (ready_of hr)⟩

/-! ## Computing forms -/

/-- An effect beyond a form's result that leaves bookkeeping, register files and names alone. -/
structure Mild (eff : Spindle → Spindle) : Prop where
  spx   : ∀ p, (eff p).spx = p.spx
  frags : ∀ p, (eff p).frags = p.frags
  pend  : ∀ p, (eff p).pend = p.pend
  same  : ∀ p q, sameArch p q → sameArch (eff p) (eff q)

theorem mild_id : Mild id := ⟨fun _ => rfl, fun _ => rfl, fun _ => rfl, fun _ _ h => h⟩

/-- Bookkeeping apart, the counters are the same too. -/
theorem sameArch_ctr {p q : Spindle} (h : sameArch p q) : p.ctr = q.ctr := by
  have := congrArg Spindle.ctr h
  exact this

theorem sameArch_start (x : Iss) : sameArch (startOf x) x.p := sameArch_begun x x.p

theorem sameArch_trans {p q r : Spindle} (h : sameArch p q) (g : sameArch q r) : sameArch p r := by
  unfold sameArch at *
  rw [← g, ← h]

theorem sameArch_symm {p q : Spindle} (h : sameArch p q) : sameArch q p := by
  unfold sameArch at *
  rw [← h]

/-- Register writes see only registers. -/
theorem writeAll_same (x : Iss) (n : Nat) (res : List (Nat × BitVec 128)) (p q : Spindle) (h : sameArch p q) :
    sameArch (x.writeAll n res p) (x.writeAll n res q) := by
  unfold Iss.writeAll
  induction res generalizing p q with
  | nil => exact h
  | cons e r ih =>
    refine ih _ _ ?_
    unfold writeDst
    split
    · unfold vsetN
      generalize List.range n = l
      induction l generalizing p q with
      | nil => exact h
      | cons i l ih2 =>
        refine ih2 _ _ ?_
        unfold sameArch at *
        rw [← h]
        rfl
    · unfold ssetN
      generalize List.range n = l
      induction l generalizing p q with
      | nil => exact h
      | cons i l ih2 =>
        refine ih2 _ _ ?_
        unfold sameArch at *
        rw [← h]
        rfl
    · exact h

theorem restOf_frags {p q : Spindle} (h : restOf p = restOf q) : p.frags = q.frags :=
  show (restOf p).frags = (restOf q).frags by rw [h]
theorem restOf_pend {p q : Spindle} (h : restOf p = restOf q) : p.pend = q.pend :=
  show (restOf p).pend = (restOf q).pend by rw [h]
theorem restOf_spx {p q : Spindle} (h : restOf p = restOf q) : p.spx = q.spx :=
  show (restOf p).spx = (restOf q).spx by rw [h]
theorem restOf_same {p q : Spindle} (h : restOf q = restOf p) : sameArch { q with v := p.v, s := p.s, badV := p.badV } p := by
  have := congrArg (fun z : Spindle => ({ z with v := p.v, s := p.s, badV := p.badV, pend := p.pend, latchA := p.latchA,
                                                  latchB := p.latchB, held := p.held, frags := p.frags, stepFrag := p.stepFrag } : Spindle)) h
  exact this

/-- Conditions enter MODE.FLG and change nothing else. -/
theorem mild_raise {eff : Spindle → Spindle} (he : Mild eff) (fl : Flg) : Mild fun p => raiseFlags fl (eff p) where
  spx := he.spx
  frags := he.frags
  pend := he.pend
  same := fun p q h => by
    have := he.same p q h
    unfold sameArch at this ⊢
    rw [← this]
    rfl

/-- Drawing an identifier first changes nothing else. -/
theorem after_fresh {x : Iss} {pc : BitVec 64} {q : Spindle} {new : List Pend} {t : State}
    (h : After { x with s := (fresh x.s).2 } pc q new t) : After x pc q new t := by
  obtain ⟨⟨a, b, c, d⟩, e, f⟩ := h
  refine ⟨⟨?_, b, c, d⟩, e, f⟩
  have := congrArg (fun z : State => ({ z with nextId := x.s.nextId } : State)) a
  exact this

theorem facts_fresh {i : Instr} {k : IssCls} {s : State} {x : Iss} (h : IssFacts i k s x) :
    IssFacts i k (fresh s).2 { x with s := (fresh x.s).2 } := by
  obtain ⟨e, a1, a2, a3, a4, a5, a6, a7, a8, a9, a10, a11⟩ := h
  subst e
  exact ⟨rfl, a1, a2, a3, a4, a5, a6, a7, a8, a9, a10, a11⟩

theorem restOf_mild_start {x : Iss} {eff : Spindle → Spindle} (he : Mild eff) (n : Nat) (res : List (Nat × BitVec 128)) :
    (x.writeAll n res (eff (startOf x))).frags = x.p.frags ∧
    (x.writeAll n res (eff (startOf x))).pend = (x.windows x.p).pend := by
  have h := restOf_writeAll x n res (eff (startOf x))
  exact ⟨(restOf_frags h).trans ((he.frags _).trans (begun_frags x x.p)), (restOf_pend h).trans ((he.pend _).trans (begun_pend x x.p))⟩

/-- Everything a computing form with a register destination, or none, does. -/
theorem compute_reg {i : Instr} {k : IssCls} {s : State} {x : Iss} (h : IssFacts i k s x) (n : Nat) (f : Nat → BitVec 128)
    (eff : Spindle → Spindle) (fl : Flg) (he : Mild eff) (hp : pushPort x.w x.sp = none) :
    ∃ t q new, x.compute n (x.threads.map fun t => (t, f t)) eff fl = .next t ∧
      OnlyRegs (if x.sp.long then eff x.p else raiseFlags fl (eff x.p)) q x.w.d n x.threads f ∧
      OpensWindow x fl new ∧ After x x.nextPc q new t := by
  have hq : ∀ p, OnlyRegs p (x.writeAll n (x.threads.map fun t => (t, f t)) p) x.w.d n x.threads f := fun p =>
    ⟨writeAll_regs x n x.threads f p (fun _ => threads_lt), restOf_same (restOf_writeAll ..),
      fun k t ht => writeAll_badV x n x.threads f p (fun _ => threads_lt) k t ht⟩
  have hs : ∀ {g : Spindle → Spindle}, Mild g → sameArch (x.writeAll n (x.threads.map fun t => (t, f t)) (g (startOf x)))
      (x.writeAll n (x.threads.map fun t => (t, f t)) (g x.p)) :=
    fun hg => writeAll_same _ _ _ _ _ (hg.same _ _ (sameArch_start x))
  unfold Iss.compute
  rw [hp]
  by_cases hl : x.sp.long
  · have hr := restOf_mild_start (x := x) he n (x.threads.map fun t => (t, f t))
    simp only [hl, if_true]
    refine ⟨_, _, [x.pend x.s.nextId (.compute fl) false none none [] []], rfl, hq _, ?_, ?_⟩
    · simp only [OpensWindow, hl, if_true]
      exact ⟨_, rfl, rfl, rfl, rfl, rfl, rfl, rfl⟩
    · refine after_fresh ?_
      exact commit_after (facts_fresh h) x.nextPc (fun p => addPend (x.pend x.s.nextId (.compute fl) false none none [] [])
        (x.writeAll n (x.threads.map fun t => (t, f t)) (eff p)))
        (x.writeAll n (x.threads.map fun t => (t, f t)) (eff x.p)) [x.pend x.s.nextId (.compute fl) false none none [] []]
        (fun p => (restOf_spx (restOf_writeAll ..)).trans (he.spx p)) hr.1 (hs he)
        (congrArg (· ++ [x.pend x.s.nextId (.compute fl) false none none [] []]) hr.2)
  · have hm := mild_raise he fl
    have hr := restOf_mild_start (x := x) hm n (x.threads.map fun t => (t, f t))
    simp only [hl]
    refine ⟨_, _, [], rfl, hq _, ?_, ?_⟩
    · simp [OpensWindow, hl]
    · exact commit_after h x.nextPc (fun p => x.writeAll n (x.threads.map fun t => (t, f t)) (raiseFlags fl (eff p)))
        (x.writeAll n (x.threads.map fun t => (t, f t)) (raiseFlags fl (eff x.p))) []
        (fun p => (restOf_spx (restOf_writeAll ..)).trans (he.spx p)) hr.1 (hs hm) (by simpa using hr.2)

/-! ## Pushes -/

theorem port_setPort (t : Team) (c k : Nat) (f : Port → Port) :
    (setPort t c f).port k = if k = c then (t.port c).map f else t.port k := by
  simp only [setPort, Team.port, List.getElem?_mapIdx]
  by_cases h : k = c
  · subst h; simp
  · simp [h]

/-- Pops leave the other ports alone. -/
theorem port_popStep (pops : List (Nat × List Word)) (t : Team) (c : Nat) (h : ∀ e ∈ pops, e.1 ≠ c) : (popStep t pops).port c = t.port c := by
  induction pops generalizing t with
  | nil => rfl
  | cons e r ih =>
    show (popStep (popOne t e) r).port c = t.port c
    rw [ih _ fun e he => h e (List.mem_cons_of_mem _ he)]
    unfold popOne
    rw [port_setPort, if_neg fun hc => h e (by simp) hc.symm]

/-- Load streams have ports below 4, store streams the others (Table 2-2). -/
theorem opnd_load {x : BitVec 10} {q : Nat} (h : opnd x = .load q) : q < 4 := by
  simp only [opnd] at h
  split at h
  · simp at h
  split at h
  · simp at h
  split at h
  · injection h; omega
  repeat' split at h
  all_goals simp at h
theorem opnd_store {x : BitVec 10} {q : Nat} (h : opnd x = .storeQ q) : 4 ≤ q := by
  simp only [opnd] at h
  split at h
  · simp at h
  split at h
  · simp at h
  split at h
  · simp at h
  split at h
  · injection h; omega
  repeat' split at h
  all_goals simp at h

theorem pushPort_ne_pop {w : JWord} {sp : JSpec} {c q : Nat} (h : pushPort w sp = some c) (hq : q ∈ popPorts w sp) : q ≠ c := by
  have hc : 4 ≤ c := by
    unfold pushPort at h
    split at h
    · rename_i hd
      cases h
      exact opnd_store hd
    · cases h
  unfold popPorts at hq
  rw [List.mem_dedup, List.mem_filterMap] at hq
  obtain ⟨f, -, hf⟩ := hq
  split at hf
  · rename_i hd
    cases hf
    have := opnd_load hd
    omega
  · cases hf

theorem raise_same (l : List (Nat × Bool)) (p : Spindle) :
    sameArch { l.foldl (fun q e => raiseCtr q e.1) p with ctr := p.ctr } p := by
  have := foldl_keeps (fun q : Spindle => { q with ctr := p.ctr }) (fun q (e : Nat × Bool) => raiseCtr q e.1) (fun _ _ => rfl) l p
  unfold sameArch
  exact congrArg (fun z : Spindle => ({ z with pend := p.pend, latchA := p.latchA, latchB := p.latchB, held := p.held,
                                               frags := p.frags, stepFrag := p.stepFrag } : Spindle)) this

theorem addPend_same (y : Pend) (p : Spindle) : sameArch { addPend y p with ctr := p.ctr } p := raise_same y.paths p

theorem addPend_pend (y : Pend) (p : Spindle) : (addPend y p).pend = p.pend ++ [y] :=
  congrArg (· ++ [y]) (foldl_keeps Spindle.pend (fun q (e : Nat × Bool) => raiseCtr q e.1) (fun _ _ => rfl) y.paths p)
theorem addPend_frags (y : Pend) (p : Spindle) : (addPend y p).frags = p.frags :=
  foldl_keeps Spindle.frags (fun q (e : Nat × Bool) => raiseCtr q e.1) (fun _ _ => rfl) y.paths p
theorem addPend_spx (y : Pend) (p : Spindle) : (addPend y p).spx = p.spx :=
  foldl_keeps Spindle.spx (fun q (e : Nat × Bool) => raiseCtr q e.1) (fun _ _ => rfl) y.paths p

/-- What a push changes outside its own spindle and its port, and how its fragment moves on, whatever its effect there. -/
theorem push_core {i : Instr} {k : IssCls} {s : State} {x : Iss} (h : IssFacts i k s x) (c : Nat) (hp : pushPort x.w x.sp = some c)
    (y : Port) (hy : x.t.port c = some y) (n : Nat) (a : Nat × List Acc) (eff : Spindle → Spindle)
    (hs : ∀ p, (eff p).spx = p.spx) (hf : (eff (startOf x)).frags = x.p.frags) :
    let s1 := updTeam { x.s with nextId := n } x.t.id fun t => setPort t c fun y => { y with pos := y.pos + 1, pushed := y.pushed ++ [a] }
    let t := ({ x with s := s1 } : Iss).commit x.nextPc eff
    KeepsOthers x.s t x.r.sp ∧
      (∃ b y z, findTeam t x.r.sp.team = some b ∧ x.t.port c = some y ∧ b.port c = some z ∧ z.pos = y.pos + 1 ∧ z.pushed = y.pushed ++ [a]) ∧
      findSp t x.r.sp = some ((eff (startOf x)).updFrag x.r.frag (fragStep x.s.turnNo x.nextPc)) ∧
      Moved x x.nextPc ((eff (startOf x)).updFrag x.r.frag (fragStep x.s.turnNo x.nextPc)) := by
  intro s1 t
  have hpops := h.pops
  obtain ⟨rfl, -, ht, hsp, -, -, hr, -, -, -, -, -⟩ := id h
  have hid := findTeam_id ht
  set g : Team → Team := fun t => setPort t c fun y => { y with pos := y.pos + 1, pushed := y.pushed ++ [a] } with hg
  have hgi : ∀ t, (g t).id = t.id := fun _ => rfl
  have hgs : ∀ t, (g t).spindles = t.spindles := fun _ => rfl
  have ht1 : findTeam s1 x.r.sp.team = some (g x.t) := by
    show findTeam (updTeam { x.s with nextId := n } x.t.id g) _ = _
    rw [findTeam_updTeam _ _ _ g hgi, if_pos hid.symm, hid]
    show (findTeam x.s x.r.sp.team).map g = _
    rw [ht]; rfl
  have hsp1 : findSp s1 x.r.sp = some x.p := by
    show findSp (updTeam { x.s with nextId := n } x.t.id g) _ = _
    rw [findSp_updTeam _ _ _ g hgi hgs]
    exact hsp
  let x1 : Iss := { x with s := s1, t := g x.t }
  have hc1 := commit_keeps (x := x1) x.nextPc eff ht1 hs
  have hc2 := commit_findSp (x := x1) x.nextPc eff hsp1 hs
  refine ⟨⟨rfl, ?_, ?_, ?_⟩, ?_, hc2, fragStep_moved hf (facts_frag h) (ready_of hr)⟩
  · intro m hm
    refine (hc1.1.2.1 m hm).trans ?_
    show findTeam (updTeam { x.s with nextId := n } x.t.id g) m = _
    rw [findTeam_updTeam _ _ _ g hgi, if_neg (by rw [hid]; exact hm)]
    rfl
  · intro q hq
    refine (hc1.1.2.2.1 q hq).trans ?_
    show findSp (updTeam { x.s with nextId := n } x.t.id g) q = _
    rw [findSp_updTeam _ _ _ g hgi hgs]
    rfl
  · intro a b ha hb
    have h3 := hc1.1.2.2.2 (g x.t) b ht1 hb
    rw [ht] at ha
    obtain rfl := Option.some.inj ha
    have := congrArg (fun z : Team => ({ z with ports := x.t.ports } : Team)) h3
    exact this
  · have hb : ∃ b, findTeam (x1.commit x.nextPc eff) x.r.sp.team = some b := by
      have := hc2
      unfold findSp at this
      cases hb : findTeam (x1.commit x.nextPc eff) x.r.sp.team with
      | none =>
        have e : findTeam (x1.commit x.nextPc eff) x1.r.sp.team = none := hb
        rw [e] at this; simp at this
      | some b => exact ⟨b, rfl⟩
    obtain ⟨b, hb⟩ := hb
    have hports := hc1.2 b hb
    have hyc : (g x.t).port c = some { y with pos := y.pos + 1, pushed := y.pushed ++ [a] } := by
      rw [hg]; simp only [port_setPort, if_true, hy, Option.map_some]
    have hz := port_popStep x.pops (g x.t) c fun e he => pushPort_ne_pop hp (hpops e he)
    rw [hyc] at hz
    refine ⟨b, y, { y with pos := y.pos + 1, pushed := y.pushed ++ [a] }, hb, hy, ?_, rfl, rfl⟩
    unfold Team.port at hz ⊢
    rw [hports]
    exact hz

/-- Everything an accepted push does. -/
theorem compute_push {i : Instr} {k : IssCls} {s : State} {x : Iss} (h : IssFacts i k s x) (n c : Nat) (f : Nat → BitVec 128)
    (eff : Spindle → Spindle) (fl : Flg) (he : Mild eff) (hp : pushPort x.w x.sp = some c) (rs : List (Want × List (Nat × Nat × Loc)))
    (h0 : x.tp ≠ 0) (ha : PushAccepted x c rs f) :
    ∃ t, x.compute n (x.threads.map fun t => (t, f t)) eff fl = .next t ∧
      Pushed x c rs f (fun p => if x.sp.long then eff p else raiseFlags fl (eff p)) t ∧
      (x.sp.long = true → ∃ p e, findSp t x.r.sp = some p ∧ e ∈ p.pend ∧ e.complete = false ∧ e.kind = .compute fl ∧
        e.frag = x.r.frag ∧ e.left = x.w.la.toNat - replayW x.f ∧ e.rd = jReads x.w x.sp) := by
  obtain ⟨y, hy, hpos, hchk, hfull, hctr⟩ := ha
  unfold pushedAccs at hctr
  unfold Iss.compute
  simp only [hp, if_neg h0]
  unfold Iss.push
  simp only [hy, if_neg (Nat.not_le.mpr hpos), hchk, hfull, hctr, Bool.false_eq_true, if_false]
  set accs := pushAccs rs (x.threads.map fun t => (t, f t)) with haccs
  let e0 : Pend := { x.pend x.s.nextId .store true none none (pathsOf false accs) accs with rd := [], wr := [] }
  let e1 : Pend := x.pend (x.s.nextId + 1) (.compute fl) false none none [] []
  -- the effect with its port's entry: of the spindle, only the counters beyond what the form does
  have key : ∀ (form : Spindle → Spindle) (q : Spindle), Mild form ∨ (∃ e, Mild e ∧ form = fun p => addPend e1 (e p)) →
      (∀ p, (addPend e0 (form p)).spx = p.spx) ∧ (addPend e0 (form (startOf x))).frags = x.p.frags ∧
      (sameArch (form (startOf x)) q → (form (startOf x)).ctr = q.ctr →
        sameArch { (addPend e0 (form (startOf x))).updFrag x.r.frag (fragStep x.s.turnNo x.nextPc) with ctr := q.ctr } q) := by
    intro form q hform
    have hspx : ∀ p, (form p).spx = p.spx := by
      rcases hform with hm | ⟨e, hm, rfl⟩
      · exact hm.spx
      · exact fun p => (addPend_spx e1 (e p)).trans (hm.spx p)
    have hfr : ∀ p, (form p).frags = p.frags := by
      rcases hform with hm | ⟨e, hm, rfl⟩
      · exact hm.frags
      · exact fun p => (addPend_frags e1 (e p)).trans (hm.frags p)
    refine ⟨fun p => (addPend_spx e0 _).trans (hspx p), (addPend_frags e0 _).trans ((hfr _).trans (begun_frags x x.p)), ?_⟩
    intro h1 h3
    have h4 := sameArch_trans (addPend_same e0 (form (startOf x))) h1
    rw [h3] at h4
    unfold sameArch at h4 ⊢
    exact h4
  cases hl : x.sp.long with
  | false =>
    have hm := mild_raise he fl
    obtain ⟨k1, k2, k3⟩ := key (fun p => raiseFlags fl (eff p)) (raiseFlags fl (eff x.p)) (Or.inl hm)
    obtain ⟨c1, c2, c3, c4⟩ := push_core h c hp y hy (x.s.nextId + 1) (x.s.nextId, accs) (fun p => addPend e0 (raiseFlags fl (eff p))) k1 k2
    have h1 : sameArch (raiseFlags fl (eff (startOf x))) (raiseFlags fl (eff x.p)) := hm.same _ _ (sameArch_start x)
    exact ⟨_, rfl, ⟨c1, c2, _, c3, k3 h1 (sameArch_ctr h1), c4⟩, fun h => by cases h⟩
  | true =>
    obtain ⟨k1, k2, k3⟩ := key (fun p => addPend e1 (eff p)) (eff x.p) (Or.inr ⟨eff, he, rfl⟩)
    obtain ⟨c1, c2, c3, c4⟩ := push_core h c hp y hy (x.s.nextId + 2) (x.s.nextId, accs) (fun p => addPend e0 (addPend e1 (eff p))) k1 k2
    have h1 : sameArch (eff (startOf x)) (eff x.p) := he.same _ _ (sameArch_start x)
    have h2 : sameArch (addPend e1 (eff (startOf x))) (eff x.p) := h1
    refine ⟨_, rfl, ⟨c1, c2, _, c3, k3 h2 (sameArch_ctr h1), c4⟩, fun _ => ⟨_, e1, c3, ?_, rfl, rfl, rfl, rfl, rfl⟩⟩
    show e1 ∈ (addPend e0 (addPend e1 (eff (startOf x)))).pend
    rw [addPend_pend, addPend_pend]
    simp

/-- Everything a computing form does (R47, R49, R55, R209). -/
theorem compute_done {i : Instr} {k : IssCls} {s : State} {x : Iss} (h : IssFacts i k s x) (n : Nat) (f : Nat → BitVec 128)
    (eff : Spindle → Spindle) (fl : Flg) (he : Mild eff) :
    LaneDone x n f eff (x.compute n (x.threads.map fun t => (t, f t)) eff fl) fl := by
  unfold LaneDone
  split
  · exact compute_reg h n f eff fl he ‹_›
  · exact fun rs h0 ha => compute_push h n _ f eff fl he ‹_› rs h0 ha

end Sys2Proof.Machine
end

