-- ==== Sys2Proof/Laws/Memory.lean ====
section
/-! SUPPORT. Sys2Proof/Laws/Memory.lean: every memory operation keeps the canonical form (log 3), and what a write leaves alone. -/

namespace Sys2Proof.Machine

open Sys2Proof

theorem foldl_wf {α : Type} (f : State → α → State) (h : ∀ s a, Memory.wf s → Memory.wf (f s a)) (l : List α) (s : State)
    (hs : Memory.wf s) : Memory.wf (l.foldl f s) := by
  induction l generalizing s with
  | nil => exact hs
  | cons a l ih => exact ih _ (h s a hs)

theorem claimLine_wf (s : State) (o l : Nat) (h : Memory.wf s) : Memory.wf (claimLine s o l) := by
  unfold claimLine
  split
  · split
    · exact h
    · generalize memBytes s o l 256 = bs
      exact mwf_msetList bs s.mem l h
  · exact h

/-- A write keeps the canonical form. -/
theorem writeMem_wf (s : State) (o pa : Nat) (bs : List Byte) (h : Memory.wf s) : Memory.wf (writeMem s o pa bs) :=
  mwf_msetList _ _ _ (foldl_wf _ (fun s l => claimLine_wf s o l) _ s h)

theorem zeroFill_wf (s : State) (o pte base size : Nat) (h : Memory.wf s) : Memory.wf (zeroFill s o pte base size) := by
  unfold zeroFill
  split
  · exact mwf_msetList _ _ _ (mwf_mclear _ _ _ h)
  · exact h

/-- A fold of steps that leave memory alone leaves it alone. -/
theorem foldl_mem {α : Type} (f : State → α → State) (h : ∀ s a, (f s a).mem = s.mem) (l : List α) (s : State) :
    (l.foldl f s).mem = s.mem := by
  induction l generalizing s with
  | nil => rfl
  | cons a l ih => exact (ih _).trans (h s a)

@[simp] theorem send_mem (s : State) (bs : List MsgBody) : (send s bs).mem = s.mem :=
  foldl_mem (fun s b => { s with msgs := s.msgs ++ [{ id := s.nextId, body := b }], nextId := s.nextId + 1 }) (fun _ _ => rfl) bs s

@[simp] theorem l1Release_mem (s : State) (h : Holder) (l : Nat) (k : Bool) : (l1Release s h l k).mem = s.mem := by cases h <;> rfl

/-- Sending tokens away moves no data. -/
@[simp] theorem sendAll_mem (s : State) (h d : Holder) (l : Nat) : (sendAll s h d l).mem = s.mem := by
  unfold sendAll
  simp only
  split
  · rfl
  · rw [send_mem]; exact l1Release_mem s h l false

@[simp] theorem logEvict_mem (s : State) (die l : Nat) : (logEvict s die l).mem = s.mem := by
  unfold logEvict
  split
  · exact foldl_mem (fun s i => logError s 1 die 0xFFFF (BitVec.ofNat 32 i) (BitVec.ofNat 64 l)) (fun _ _ => rfl) _ s
  · rfl

@[simp] theorem evictLine_mem (s : State) (h : Holder) (l : Nat) : (evictLine s h l).mem = s.mem := by
  unfold evictLine
  cases h <;> simp

@[simp] theorem makeLineRoom_mem (s : State) (h : Holder) (l : Nat) : (makeLineRoom s h l).mem = s.mem := by
  unfold makeLineRoom
  split
  · rfl
  · dsimp only
    split
    · rfl
    · exact evictLine_mem ..

@[simp] theorem passOn_mem (s : State) (h : Holder) (l : Nat) : (passOn s h l).mem = s.mem := by
  unfold passOn
  split
  · exact sendAll_mem ..
  · rfl

@[simp] theorem takeLine_mem (s : State) (h : Holder) (l : Nat) : (takeLine s h l).mem = s.mem := makeLineRoom_mem s h l

@[simp] theorem takeLines_mem (s : State) (h : Holder) (pa n : Nat) : (takeLines s h pa n).mem = s.mem := by
  unfold takeLines
  split
  · exact foldl_mem _ (fun s l => takeLine_mem s h l) _ s
  · rfl

@[simp] theorem passLines_mem (s : State) (h : Holder) (pa n : Nat) : (passLines s h pa n).mem = s.mem := by
  unfold passLines
  split
  · exact foldl_mem _ (fun s l => passOn_mem s h l) _ s
  · rfl

theorem passLines_wf (s : State) (h : Holder) (pa n : Nat) (hs : Memory.wf s) : Memory.wf (passLines s h pa n) := by
  unfold Memory.wf at *; rw [passLines_mem]; exact hs

theorem takeLines_wf (s : State) (h : Holder) (pa n : Nat) (hs : Memory.wf s) : Memory.wf (takeLines s h pa n) := by
  unfold Memory.wf at *; rw [takeLines_mem]; exact hs

theorem devWrite_wf (s : State) (h : Holder) (o pa : Nat) (bs : List Byte) (hs : Memory.wf s) : Memory.wf (devWrite s h o pa bs) :=
  passLines_wf _ _ _ _ (writeMem_wf _ _ _ _ (takeLines_wf _ _ _ _ hs))

theorem boUpdate_wf (s : State) (h : Holder) (o pa inc st fl : Nat) (up : Word) (hs : Memory.wf s) :
    Memory.wf (boUpdate s h o pa inc st fl up) :=
  passLines_wf _ _ _ _ (writeMem_wf _ _ _ _ (writeMem_wf _ _ _ _ (takeLines_wf _ _ _ _ hs)))

theorem devPut_wf (h : Holder) (ps : List DLoc) (bs : List Byte) (s : State) (hs : Memory.wf s) : Memory.wf (devPut h ps bs s) := by
  induction ps generalizing bs s with
  | nil => exact hs
  | cons p ps ih => exact ih _ _ (devWrite_wf _ _ _ _ _ (zeroFill_wf _ _ _ _ _ hs))

theorem devSet_wf (s : State) (h : Holder) (die tenant va : Nat) (bs : List Byte) (hs : Memory.wf s) : Memory.wf (devSet s h die tenant va bs) := by
  unfold devSet
  split
  · exact devPut_wf _ _ _ _ hs
  · exact hs

theorem postBo_wf (s : State) (h : Holder) (die tenant va inc st fl : Nat) (up : Word) (hs : Memory.wf s) :
    Memory.wf (postBo s h die tenant va inc st fl up) := by
  unfold postBo
  split
  · exact boUpdate_wf _ _ _ _ _ _ _ _ (zeroFill_wf _ _ _ _ _ hs)
  · exact hs

theorem physWrite_wf (s : State) (pa : Nat) (bs : List Byte) (hs : Memory.wf s) : Memory.wf (physWrite s pa bs) := devWrite_wf _ _ _ _ _ hs

/-- The reset state's memory lists nothing, and is canonical. -/
theorem reset_wf : Memory.wf State.reset := rfl

end Sys2Proof.Machine
end

