-- ==== Sys2Proof/Laws/State.lean ====
section
/-! SUPPORT. Sys2Proof/Laws/State.lean: one lemma per field and update of the state's records: what each update leaves alone. -/

namespace Sys2Proof.Machine

open Sys2Proof

/-! ## updTeam -/

@[simp] theorem updTeam_turns (s : State) (t : Nat) (f : Team → Team) : (updTeam s t f).turns = s.turns := rfl
@[simp] theorem updTeam_turnNo (s : State) (t : Nat) (f : Team → Team) : (updTeam s t f).turnNo = s.turnNo := rfl
@[simp] theorem updTeam_freeNo (s : State) (t : Nat) (f : Team → Team) : (updTeam s t f).freeNo = s.freeNo := rfl
@[simp] theorem updTeam_nextId (s : State) (t : Nat) (f : Team → Team) : (updTeam s t f).nextId = s.nextId := rfl
@[simp] theorem updTeam_cur (s : State) (t : Nat) (f : Team → Team) : (updTeam s t f).cur = s.cur := rfl
@[simp] theorem updTeam_cycle (s : State) (t : Nat) (f : Team → Team) : (updTeam s t f).cycle = s.cycle := rfl
@[simp] theorem updTeam_swFrac (s : State) (t : Nat) (f : Team → Team) : (updTeam s t f).swFrac = s.swFrac := rfl
@[simp] theorem updTeam_ready (s : State) (t : Nat) (f : Team → Team) : (updTeam s t f).ready = s.ready := rfl
@[simp] theorem updTeam_coming (s : State) (t : Nat) (f : Team → Team) : (updTeam s t f).coming = s.coming := rfl
@[simp] theorem updTeam_mem (s : State) (t : Nat) (f : Team → Team) : (updTeam s t f).mem = s.mem := rfl
@[simp] theorem updTeam_lineOwner (s : State) (t : Nat) (f : Team → Team) : (updTeam s t f).lineOwner = s.lineOwner := rfl
@[simp] theorem updTeam_badSec (s : State) (t : Nat) (f : Team → Team) : (updTeam s t f).badSec = s.badSec := rfl
@[simp] theorem updTeam_poison (s : State) (t : Nat) (f : Team → Team) : (updTeam s t f).poison = s.poison := rfl
@[simp] theorem updTeam_flash (s : State) (t : Nat) (f : Team → Team) : (updTeam s t f).flash = s.flash := rfl
@[simp] theorem updTeam_l1 (s : State) (t : Nat) (f : Team → Team) : (updTeam s t f).l1 = s.l1 := rfl
@[simp] theorem updTeam_l1c (s : State) (t : Nat) (f : Team → Team) : (updTeam s t f).l1c = s.l1c := rfl
@[simp] theorem updTeam_l1Keep (s : State) (t : Nat) (f : Team → Team) : (updTeam s t f).l1Keep = s.l1Keep := rfl
@[simp] theorem updTeam_icache (s : State) (t : Nat) (f : Team → Team) : (updTeam s t f).icache = s.icache := rfl
@[simp] theorem updTeam_tlb (s : State) (t : Nat) (f : Team → Team) : (updTeam s t f).tlb = s.tlb := rfl
@[simp] theorem updTeam_toks (s : State) (t : Nat) (f : Team → Team) : (updTeam s t f).toks = s.toks := rfl
@[simp] theorem updTeam_reqs (s : State) (t : Nat) (f : Team → Team) : (updTeam s t f).reqs = s.reqs := rfl
@[simp] theorem updTeam_msgs (s : State) (t : Nat) (f : Team → Team) : (updTeam s t f).msgs = s.msgs := rfl
@[simp] theorem updTeam_prefs (s : State) (t : Nat) (f : Team → Team) : (updTeam s t f).prefs = s.prefs := rfl
@[simp] theorem updTeam_preqs (s : State) (t : Nat) (f : Team → Team) : (updTeam s t f).preqs = s.preqs := rfl
@[simp] theorem updTeam_acts (s : State) (t : Nat) (f : Team → Team) : (updTeam s t f).acts = s.acts := rfl
@[simp] theorem updTeam_deacts (s : State) (t : Nat) (f : Team → Team) : (updTeam s t f).deacts = s.deacts := rfl
@[simp] theorem updTeam_arrays (s : State) (t : Nat) (f : Team → Team) : (updTeam s t f).arrays = s.arrays := rfl
@[simp] theorem updTeam_matReqs (s : State) (t : Nat) (f : Team → Team) : (updTeam s t f).matReqs = s.matReqs := rfl
@[simp] theorem updTeam_dies (s : State) (t : Nat) (f : Team → Team) : (updTeam s t f).dies = s.dies := rfl
@[simp] theorem updTeam_grids (s : State) (t : Nat) (f : Team → Team) : (updTeam s t f).grids = s.grids := rfl
@[simp] theorem updTeam_lathe (s : State) (t : Nat) (f : Team → Team) : (updTeam s t f).lathe = s.lathe := rfl
@[simp] theorem updTeam_queues (s : State) (t : Nat) (f : Team → Team) : (updTeam s t f).queues = s.queues := rfl
@[simp] theorem updTeam_wins (s : State) (t : Nat) (f : Team → Team) : (updTeam s t f).wins = s.wins := rfl
@[simp] theorem updTeam_grps (s : State) (t : Nat) (f : Team → Team) : (updTeam s t f).grps = s.grps := rfl
@[simp] theorem updTeam_insts (s : State) (t : Nat) (f : Team → Team) : (updTeam s t f).insts = s.insts := rfl
@[simp] theorem updTeam_ctxs (s : State) (t : Nat) (f : Team → Team) : (updTeam s t f).ctxs = s.ctxs := rfl
@[simp] theorem updTeam_arrivals (s : State) (t : Nat) (f : Team → Team) : (updTeam s t f).arrivals = s.arrivals := rfl
@[simp] theorem updTeam_ueWaits (s : State) (t : Nat) (f : Team → Team) : (updTeam s t f).ueWaits = s.ueWaits := rfl
@[simp] theorem updTeam_ueFails (s : State) (t : Nat) (f : Team → Team) : (updTeam s t f).ueFails = s.ueFails := rfl
@[simp] theorem updTeam_listQ (s : State) (t : Nat) (f : Team → Team) : (updTeam s t f).listQ = s.listQ := rfl
@[simp] theorem updTeam_store (s : State) (t : Nat) (f : Team → Team) : (updTeam s t f).store = s.store := rfl
@[simp] theorem updTeam_progs (s : State) (t : Nat) (f : Team → Team) : (updTeam s t f).progs = s.progs := rfl
@[simp] theorem updTeam_saveBase (s : State) (t : Nat) (f : Team → Team) : (updTeam s t f).saveBase = s.saveBase := rfl
@[simp] theorem updTeam_keys (s : State) (t : Nat) (f : Team → Team) : (updTeam s t f).keys = s.keys := rfl
@[simp] theorem updTeam_oldKeys (s : State) (t : Nat) (f : Team → Team) : (updTeam s t f).oldKeys = s.oldKeys := rfl
@[simp] theorem updTeam_ctxFaults (s : State) (t : Nat) (f : Team → Team) : (updTeam s t f).ctxFaults = s.ctxFaults := rfl
@[simp] theorem updTeam_aborts (s : State) (t : Nat) (f : Team → Team) : (updTeam s t f).aborts = s.aborts := rfl
@[simp] theorem updTeam_loadBad (s : State) (t : Nat) (f : Team → Team) : (updTeam s t f).loadBad = s.loadBad := rfl
@[simp] theorem updTeam_dropped (s : State) (t : Nat) (f : Team → Team) : (updTeam s t f).dropped = s.dropped := rfl
@[simp] theorem updTeam_ueDropped (s : State) (t : Nat) (f : Team → Team) : (updTeam s t f).ueDropped = s.ueDropped := rfl
@[simp] theorem updTeam_ueRefused (s : State) (t : Nat) (f : Team → Team) : (updTeam s t f).ueRefused = s.ueRefused := rfl
@[simp] theorem updTeam_errLog (s : State) (t : Nat) (f : Team → Team) : (updTeam s t f).errLog = s.errLog := rfl
@[simp] theorem updTeam_errCount (s : State) (t : Nat) (f : Team → Team) : (updTeam s t f).errCount = s.errCount := rfl
@[simp] theorem updTeam_mailbox (s : State) (t : Nat) (f : Team → Team) : (updTeam s t f).mailbox = s.mailbox := rfl
@[simp] theorem updTeam_attest (s : State) (t : Nat) (f : Team → Team) : (updTeam s t f).attest = s.attest := rfl
@[simp] theorem updTeam_bar2 (s : State) (t : Nat) (f : Team → Team) : (updTeam s t f).bar2 = s.bar2 := rfl
@[simp] theorem updTeam_armQ (s : State) (t : Nat) (f : Team → Team) : (updTeam s t f).armQ = s.armQ := rfl
@[simp] theorem updTeam_telemetry (s : State) (t : Nat) (f : Team → Team) : (updTeam s t f).telemetry = s.telemetry := rfl
@[simp] theorem updTeam_meas (s : State) (t : Nat) (f : Team → Team) : (updTeam s t f).meas = s.meas := rfl
@[simp] theorem updTeam_hostResp (s : State) (t : Nat) (f : Team → Team) : (updTeam s t f).hostResp = s.hostResp := rfl
@[simp] theorem updTeam_dbgBuf (s : State) (t : Nat) (f : Team → Team) : (updTeam s t f).dbgBuf = s.dbgBuf := rfl

/-! ## updSp -/

@[simp] theorem updSp_turns (s : State) (r : SpRef) (f : Spindle → Spindle) : (updSp s r f).turns = s.turns := rfl
@[simp] theorem updSp_turnNo (s : State) (r : SpRef) (f : Spindle → Spindle) : (updSp s r f).turnNo = s.turnNo := rfl
@[simp] theorem updSp_freeNo (s : State) (r : SpRef) (f : Spindle → Spindle) : (updSp s r f).freeNo = s.freeNo := rfl
@[simp] theorem updSp_nextId (s : State) (r : SpRef) (f : Spindle → Spindle) : (updSp s r f).nextId = s.nextId := rfl
@[simp] theorem updSp_cur (s : State) (r : SpRef) (f : Spindle → Spindle) : (updSp s r f).cur = s.cur := rfl
@[simp] theorem updSp_cycle (s : State) (r : SpRef) (f : Spindle → Spindle) : (updSp s r f).cycle = s.cycle := rfl
@[simp] theorem updSp_swFrac (s : State) (r : SpRef) (f : Spindle → Spindle) : (updSp s r f).swFrac = s.swFrac := rfl
@[simp] theorem updSp_ready (s : State) (r : SpRef) (f : Spindle → Spindle) : (updSp s r f).ready = s.ready := rfl
@[simp] theorem updSp_coming (s : State) (r : SpRef) (f : Spindle → Spindle) : (updSp s r f).coming = s.coming := rfl
@[simp] theorem updSp_mem (s : State) (r : SpRef) (f : Spindle → Spindle) : (updSp s r f).mem = s.mem := rfl
@[simp] theorem updSp_lineOwner (s : State) (r : SpRef) (f : Spindle → Spindle) : (updSp s r f).lineOwner = s.lineOwner := rfl
@[simp] theorem updSp_badSec (s : State) (r : SpRef) (f : Spindle → Spindle) : (updSp s r f).badSec = s.badSec := rfl
@[simp] theorem updSp_poison (s : State) (r : SpRef) (f : Spindle → Spindle) : (updSp s r f).poison = s.poison := rfl
@[simp] theorem updSp_flash (s : State) (r : SpRef) (f : Spindle → Spindle) : (updSp s r f).flash = s.flash := rfl
@[simp] theorem updSp_l1 (s : State) (r : SpRef) (f : Spindle → Spindle) : (updSp s r f).l1 = s.l1 := rfl
@[simp] theorem updSp_l1c (s : State) (r : SpRef) (f : Spindle → Spindle) : (updSp s r f).l1c = s.l1c := rfl
@[simp] theorem updSp_l1Keep (s : State) (r : SpRef) (f : Spindle → Spindle) : (updSp s r f).l1Keep = s.l1Keep := rfl
@[simp] theorem updSp_icache (s : State) (r : SpRef) (f : Spindle → Spindle) : (updSp s r f).icache = s.icache := rfl
@[simp] theorem updSp_tlb (s : State) (r : SpRef) (f : Spindle → Spindle) : (updSp s r f).tlb = s.tlb := rfl
@[simp] theorem updSp_toks (s : State) (r : SpRef) (f : Spindle → Spindle) : (updSp s r f).toks = s.toks := rfl
@[simp] theorem updSp_reqs (s : State) (r : SpRef) (f : Spindle → Spindle) : (updSp s r f).reqs = s.reqs := rfl
@[simp] theorem updSp_msgs (s : State) (r : SpRef) (f : Spindle → Spindle) : (updSp s r f).msgs = s.msgs := rfl
@[simp] theorem updSp_prefs (s : State) (r : SpRef) (f : Spindle → Spindle) : (updSp s r f).prefs = s.prefs := rfl
@[simp] theorem updSp_preqs (s : State) (r : SpRef) (f : Spindle → Spindle) : (updSp s r f).preqs = s.preqs := rfl
@[simp] theorem updSp_acts (s : State) (r : SpRef) (f : Spindle → Spindle) : (updSp s r f).acts = s.acts := rfl
@[simp] theorem updSp_deacts (s : State) (r : SpRef) (f : Spindle → Spindle) : (updSp s r f).deacts = s.deacts := rfl
@[simp] theorem updSp_arrays (s : State) (r : SpRef) (f : Spindle → Spindle) : (updSp s r f).arrays = s.arrays := rfl
@[simp] theorem updSp_matReqs (s : State) (r : SpRef) (f : Spindle → Spindle) : (updSp s r f).matReqs = s.matReqs := rfl
@[simp] theorem updSp_dies (s : State) (r : SpRef) (f : Spindle → Spindle) : (updSp s r f).dies = s.dies := rfl
@[simp] theorem updSp_grids (s : State) (r : SpRef) (f : Spindle → Spindle) : (updSp s r f).grids = s.grids := rfl
@[simp] theorem updSp_lathe (s : State) (r : SpRef) (f : Spindle → Spindle) : (updSp s r f).lathe = s.lathe := rfl
@[simp] theorem updSp_queues (s : State) (r : SpRef) (f : Spindle → Spindle) : (updSp s r f).queues = s.queues := rfl
@[simp] theorem updSp_wins (s : State) (r : SpRef) (f : Spindle → Spindle) : (updSp s r f).wins = s.wins := rfl
@[simp] theorem updSp_grps (s : State) (r : SpRef) (f : Spindle → Spindle) : (updSp s r f).grps = s.grps := rfl
@[simp] theorem updSp_insts (s : State) (r : SpRef) (f : Spindle → Spindle) : (updSp s r f).insts = s.insts := rfl
@[simp] theorem updSp_ctxs (s : State) (r : SpRef) (f : Spindle → Spindle) : (updSp s r f).ctxs = s.ctxs := rfl
@[simp] theorem updSp_arrivals (s : State) (r : SpRef) (f : Spindle → Spindle) : (updSp s r f).arrivals = s.arrivals := rfl
@[simp] theorem updSp_ueWaits (s : State) (r : SpRef) (f : Spindle → Spindle) : (updSp s r f).ueWaits = s.ueWaits := rfl
@[simp] theorem updSp_ueFails (s : State) (r : SpRef) (f : Spindle → Spindle) : (updSp s r f).ueFails = s.ueFails := rfl
@[simp] theorem updSp_listQ (s : State) (r : SpRef) (f : Spindle → Spindle) : (updSp s r f).listQ = s.listQ := rfl
@[simp] theorem updSp_store (s : State) (r : SpRef) (f : Spindle → Spindle) : (updSp s r f).store = s.store := rfl
@[simp] theorem updSp_progs (s : State) (r : SpRef) (f : Spindle → Spindle) : (updSp s r f).progs = s.progs := rfl
@[simp] theorem updSp_saveBase (s : State) (r : SpRef) (f : Spindle → Spindle) : (updSp s r f).saveBase = s.saveBase := rfl
@[simp] theorem updSp_keys (s : State) (r : SpRef) (f : Spindle → Spindle) : (updSp s r f).keys = s.keys := rfl
@[simp] theorem updSp_oldKeys (s : State) (r : SpRef) (f : Spindle → Spindle) : (updSp s r f).oldKeys = s.oldKeys := rfl
@[simp] theorem updSp_ctxFaults (s : State) (r : SpRef) (f : Spindle → Spindle) : (updSp s r f).ctxFaults = s.ctxFaults := rfl
@[simp] theorem updSp_aborts (s : State) (r : SpRef) (f : Spindle → Spindle) : (updSp s r f).aborts = s.aborts := rfl
@[simp] theorem updSp_loadBad (s : State) (r : SpRef) (f : Spindle → Spindle) : (updSp s r f).loadBad = s.loadBad := rfl
@[simp] theorem updSp_dropped (s : State) (r : SpRef) (f : Spindle → Spindle) : (updSp s r f).dropped = s.dropped := rfl
@[simp] theorem updSp_ueDropped (s : State) (r : SpRef) (f : Spindle → Spindle) : (updSp s r f).ueDropped = s.ueDropped := rfl
@[simp] theorem updSp_ueRefused (s : State) (r : SpRef) (f : Spindle → Spindle) : (updSp s r f).ueRefused = s.ueRefused := rfl
@[simp] theorem updSp_errLog (s : State) (r : SpRef) (f : Spindle → Spindle) : (updSp s r f).errLog = s.errLog := rfl
@[simp] theorem updSp_errCount (s : State) (r : SpRef) (f : Spindle → Spindle) : (updSp s r f).errCount = s.errCount := rfl
@[simp] theorem updSp_mailbox (s : State) (r : SpRef) (f : Spindle → Spindle) : (updSp s r f).mailbox = s.mailbox := rfl
@[simp] theorem updSp_attest (s : State) (r : SpRef) (f : Spindle → Spindle) : (updSp s r f).attest = s.attest := rfl
@[simp] theorem updSp_bar2 (s : State) (r : SpRef) (f : Spindle → Spindle) : (updSp s r f).bar2 = s.bar2 := rfl
@[simp] theorem updSp_armQ (s : State) (r : SpRef) (f : Spindle → Spindle) : (updSp s r f).armQ = s.armQ := rfl
@[simp] theorem updSp_telemetry (s : State) (r : SpRef) (f : Spindle → Spindle) : (updSp s r f).telemetry = s.telemetry := rfl
@[simp] theorem updSp_meas (s : State) (r : SpRef) (f : Spindle → Spindle) : (updSp s r f).meas = s.meas := rfl
@[simp] theorem updSp_hostResp (s : State) (r : SpRef) (f : Spindle → Spindle) : (updSp s r f).hostResp = s.hostResp := rfl
@[simp] theorem updSp_dbgBuf (s : State) (r : SpRef) (f : Spindle → Spindle) : (updSp s r f).dbgBuf = s.dbgBuf := rfl

/-! ## updFrag -/

@[simp] theorem updFrag_turns (s : State) (r : FragRef) (f : Frag → Frag) : (updFrag s r f).turns = s.turns := rfl
@[simp] theorem updFrag_turnNo (s : State) (r : FragRef) (f : Frag → Frag) : (updFrag s r f).turnNo = s.turnNo := rfl
@[simp] theorem updFrag_freeNo (s : State) (r : FragRef) (f : Frag → Frag) : (updFrag s r f).freeNo = s.freeNo := rfl
@[simp] theorem updFrag_nextId (s : State) (r : FragRef) (f : Frag → Frag) : (updFrag s r f).nextId = s.nextId := rfl
@[simp] theorem updFrag_cur (s : State) (r : FragRef) (f : Frag → Frag) : (updFrag s r f).cur = s.cur := rfl
@[simp] theorem updFrag_cycle (s : State) (r : FragRef) (f : Frag → Frag) : (updFrag s r f).cycle = s.cycle := rfl
@[simp] theorem updFrag_swFrac (s : State) (r : FragRef) (f : Frag → Frag) : (updFrag s r f).swFrac = s.swFrac := rfl
@[simp] theorem updFrag_ready (s : State) (r : FragRef) (f : Frag → Frag) : (updFrag s r f).ready = s.ready := rfl
@[simp] theorem updFrag_coming (s : State) (r : FragRef) (f : Frag → Frag) : (updFrag s r f).coming = s.coming := rfl
@[simp] theorem updFrag_mem (s : State) (r : FragRef) (f : Frag → Frag) : (updFrag s r f).mem = s.mem := rfl
@[simp] theorem updFrag_lineOwner (s : State) (r : FragRef) (f : Frag → Frag) : (updFrag s r f).lineOwner = s.lineOwner := rfl
@[simp] theorem updFrag_badSec (s : State) (r : FragRef) (f : Frag → Frag) : (updFrag s r f).badSec = s.badSec := rfl
@[simp] theorem updFrag_poison (s : State) (r : FragRef) (f : Frag → Frag) : (updFrag s r f).poison = s.poison := rfl
@[simp] theorem updFrag_flash (s : State) (r : FragRef) (f : Frag → Frag) : (updFrag s r f).flash = s.flash := rfl
@[simp] theorem updFrag_l1 (s : State) (r : FragRef) (f : Frag → Frag) : (updFrag s r f).l1 = s.l1 := rfl
@[simp] theorem updFrag_l1c (s : State) (r : FragRef) (f : Frag → Frag) : (updFrag s r f).l1c = s.l1c := rfl
@[simp] theorem updFrag_l1Keep (s : State) (r : FragRef) (f : Frag → Frag) : (updFrag s r f).l1Keep = s.l1Keep := rfl
@[simp] theorem updFrag_icache (s : State) (r : FragRef) (f : Frag → Frag) : (updFrag s r f).icache = s.icache := rfl
@[simp] theorem updFrag_tlb (s : State) (r : FragRef) (f : Frag → Frag) : (updFrag s r f).tlb = s.tlb := rfl
@[simp] theorem updFrag_toks (s : State) (r : FragRef) (f : Frag → Frag) : (updFrag s r f).toks = s.toks := rfl
@[simp] theorem updFrag_reqs (s : State) (r : FragRef) (f : Frag → Frag) : (updFrag s r f).reqs = s.reqs := rfl
@[simp] theorem updFrag_msgs (s : State) (r : FragRef) (f : Frag → Frag) : (updFrag s r f).msgs = s.msgs := rfl
@[simp] theorem updFrag_prefs (s : State) (r : FragRef) (f : Frag → Frag) : (updFrag s r f).prefs = s.prefs := rfl
@[simp] theorem updFrag_preqs (s : State) (r : FragRef) (f : Frag → Frag) : (updFrag s r f).preqs = s.preqs := rfl
@[simp] theorem updFrag_acts (s : State) (r : FragRef) (f : Frag → Frag) : (updFrag s r f).acts = s.acts := rfl
@[simp] theorem updFrag_deacts (s : State) (r : FragRef) (f : Frag → Frag) : (updFrag s r f).deacts = s.deacts := rfl
@[simp] theorem updFrag_arrays (s : State) (r : FragRef) (f : Frag → Frag) : (updFrag s r f).arrays = s.arrays := rfl
@[simp] theorem updFrag_matReqs (s : State) (r : FragRef) (f : Frag → Frag) : (updFrag s r f).matReqs = s.matReqs := rfl
@[simp] theorem updFrag_dies (s : State) (r : FragRef) (f : Frag → Frag) : (updFrag s r f).dies = s.dies := rfl
@[simp] theorem updFrag_grids (s : State) (r : FragRef) (f : Frag → Frag) : (updFrag s r f).grids = s.grids := rfl
@[simp] theorem updFrag_lathe (s : State) (r : FragRef) (f : Frag → Frag) : (updFrag s r f).lathe = s.lathe := rfl
@[simp] theorem updFrag_queues (s : State) (r : FragRef) (f : Frag → Frag) : (updFrag s r f).queues = s.queues := rfl
@[simp] theorem updFrag_wins (s : State) (r : FragRef) (f : Frag → Frag) : (updFrag s r f).wins = s.wins := rfl
@[simp] theorem updFrag_grps (s : State) (r : FragRef) (f : Frag → Frag) : (updFrag s r f).grps = s.grps := rfl
@[simp] theorem updFrag_insts (s : State) (r : FragRef) (f : Frag → Frag) : (updFrag s r f).insts = s.insts := rfl
@[simp] theorem updFrag_ctxs (s : State) (r : FragRef) (f : Frag → Frag) : (updFrag s r f).ctxs = s.ctxs := rfl
@[simp] theorem updFrag_arrivals (s : State) (r : FragRef) (f : Frag → Frag) : (updFrag s r f).arrivals = s.arrivals := rfl
@[simp] theorem updFrag_ueWaits (s : State) (r : FragRef) (f : Frag → Frag) : (updFrag s r f).ueWaits = s.ueWaits := rfl
@[simp] theorem updFrag_ueFails (s : State) (r : FragRef) (f : Frag → Frag) : (updFrag s r f).ueFails = s.ueFails := rfl
@[simp] theorem updFrag_listQ (s : State) (r : FragRef) (f : Frag → Frag) : (updFrag s r f).listQ = s.listQ := rfl
@[simp] theorem updFrag_store (s : State) (r : FragRef) (f : Frag → Frag) : (updFrag s r f).store = s.store := rfl
@[simp] theorem updFrag_progs (s : State) (r : FragRef) (f : Frag → Frag) : (updFrag s r f).progs = s.progs := rfl
@[simp] theorem updFrag_saveBase (s : State) (r : FragRef) (f : Frag → Frag) : (updFrag s r f).saveBase = s.saveBase := rfl
@[simp] theorem updFrag_keys (s : State) (r : FragRef) (f : Frag → Frag) : (updFrag s r f).keys = s.keys := rfl
@[simp] theorem updFrag_oldKeys (s : State) (r : FragRef) (f : Frag → Frag) : (updFrag s r f).oldKeys = s.oldKeys := rfl
@[simp] theorem updFrag_ctxFaults (s : State) (r : FragRef) (f : Frag → Frag) : (updFrag s r f).ctxFaults = s.ctxFaults := rfl
@[simp] theorem updFrag_aborts (s : State) (r : FragRef) (f : Frag → Frag) : (updFrag s r f).aborts = s.aborts := rfl
@[simp] theorem updFrag_loadBad (s : State) (r : FragRef) (f : Frag → Frag) : (updFrag s r f).loadBad = s.loadBad := rfl
@[simp] theorem updFrag_dropped (s : State) (r : FragRef) (f : Frag → Frag) : (updFrag s r f).dropped = s.dropped := rfl
@[simp] theorem updFrag_ueDropped (s : State) (r : FragRef) (f : Frag → Frag) : (updFrag s r f).ueDropped = s.ueDropped := rfl
@[simp] theorem updFrag_ueRefused (s : State) (r : FragRef) (f : Frag → Frag) : (updFrag s r f).ueRefused = s.ueRefused := rfl
@[simp] theorem updFrag_errLog (s : State) (r : FragRef) (f : Frag → Frag) : (updFrag s r f).errLog = s.errLog := rfl
@[simp] theorem updFrag_errCount (s : State) (r : FragRef) (f : Frag → Frag) : (updFrag s r f).errCount = s.errCount := rfl
@[simp] theorem updFrag_mailbox (s : State) (r : FragRef) (f : Frag → Frag) : (updFrag s r f).mailbox = s.mailbox := rfl
@[simp] theorem updFrag_attest (s : State) (r : FragRef) (f : Frag → Frag) : (updFrag s r f).attest = s.attest := rfl
@[simp] theorem updFrag_bar2 (s : State) (r : FragRef) (f : Frag → Frag) : (updFrag s r f).bar2 = s.bar2 := rfl
@[simp] theorem updFrag_armQ (s : State) (r : FragRef) (f : Frag → Frag) : (updFrag s r f).armQ = s.armQ := rfl
@[simp] theorem updFrag_telemetry (s : State) (r : FragRef) (f : Frag → Frag) : (updFrag s r f).telemetry = s.telemetry := rfl
@[simp] theorem updFrag_meas (s : State) (r : FragRef) (f : Frag → Frag) : (updFrag s r f).meas = s.meas := rfl
@[simp] theorem updFrag_hostResp (s : State) (r : FragRef) (f : Frag → Frag) : (updFrag s r f).hostResp = s.hostResp := rfl
@[simp] theorem updFrag_dbgBuf (s : State) (r : FragRef) (f : Frag → Frag) : (updFrag s r f).dbgBuf = s.dbgBuf := rfl

/-! ## updGrid -/

@[simp] theorem updGrid_turns (s : State) (g : Nat) (f : Grid → Grid) : (updGrid s g f).turns = s.turns := rfl
@[simp] theorem updGrid_turnNo (s : State) (g : Nat) (f : Grid → Grid) : (updGrid s g f).turnNo = s.turnNo := rfl
@[simp] theorem updGrid_freeNo (s : State) (g : Nat) (f : Grid → Grid) : (updGrid s g f).freeNo = s.freeNo := rfl
@[simp] theorem updGrid_nextId (s : State) (g : Nat) (f : Grid → Grid) : (updGrid s g f).nextId = s.nextId := rfl
@[simp] theorem updGrid_cur (s : State) (g : Nat) (f : Grid → Grid) : (updGrid s g f).cur = s.cur := rfl
@[simp] theorem updGrid_cycle (s : State) (g : Nat) (f : Grid → Grid) : (updGrid s g f).cycle = s.cycle := rfl
@[simp] theorem updGrid_swFrac (s : State) (g : Nat) (f : Grid → Grid) : (updGrid s g f).swFrac = s.swFrac := rfl
@[simp] theorem updGrid_ready (s : State) (g : Nat) (f : Grid → Grid) : (updGrid s g f).ready = s.ready := rfl
@[simp] theorem updGrid_coming (s : State) (g : Nat) (f : Grid → Grid) : (updGrid s g f).coming = s.coming := rfl
@[simp] theorem updGrid_mem (s : State) (g : Nat) (f : Grid → Grid) : (updGrid s g f).mem = s.mem := rfl
@[simp] theorem updGrid_lineOwner (s : State) (g : Nat) (f : Grid → Grid) : (updGrid s g f).lineOwner = s.lineOwner := rfl
@[simp] theorem updGrid_badSec (s : State) (g : Nat) (f : Grid → Grid) : (updGrid s g f).badSec = s.badSec := rfl
@[simp] theorem updGrid_poison (s : State) (g : Nat) (f : Grid → Grid) : (updGrid s g f).poison = s.poison := rfl
@[simp] theorem updGrid_flash (s : State) (g : Nat) (f : Grid → Grid) : (updGrid s g f).flash = s.flash := rfl
@[simp] theorem updGrid_l1 (s : State) (g : Nat) (f : Grid → Grid) : (updGrid s g f).l1 = s.l1 := rfl
@[simp] theorem updGrid_l1c (s : State) (g : Nat) (f : Grid → Grid) : (updGrid s g f).l1c = s.l1c := rfl
@[simp] theorem updGrid_l1Keep (s : State) (g : Nat) (f : Grid → Grid) : (updGrid s g f).l1Keep = s.l1Keep := rfl
@[simp] theorem updGrid_icache (s : State) (g : Nat) (f : Grid → Grid) : (updGrid s g f).icache = s.icache := rfl
@[simp] theorem updGrid_tlb (s : State) (g : Nat) (f : Grid → Grid) : (updGrid s g f).tlb = s.tlb := rfl
@[simp] theorem updGrid_toks (s : State) (g : Nat) (f : Grid → Grid) : (updGrid s g f).toks = s.toks := rfl
@[simp] theorem updGrid_reqs (s : State) (g : Nat) (f : Grid → Grid) : (updGrid s g f).reqs = s.reqs := rfl
@[simp] theorem updGrid_msgs (s : State) (g : Nat) (f : Grid → Grid) : (updGrid s g f).msgs = s.msgs := rfl
@[simp] theorem updGrid_prefs (s : State) (g : Nat) (f : Grid → Grid) : (updGrid s g f).prefs = s.prefs := rfl
@[simp] theorem updGrid_preqs (s : State) (g : Nat) (f : Grid → Grid) : (updGrid s g f).preqs = s.preqs := rfl
@[simp] theorem updGrid_acts (s : State) (g : Nat) (f : Grid → Grid) : (updGrid s g f).acts = s.acts := rfl
@[simp] theorem updGrid_deacts (s : State) (g : Nat) (f : Grid → Grid) : (updGrid s g f).deacts = s.deacts := rfl
@[simp] theorem updGrid_arrays (s : State) (g : Nat) (f : Grid → Grid) : (updGrid s g f).arrays = s.arrays := rfl
@[simp] theorem updGrid_matReqs (s : State) (g : Nat) (f : Grid → Grid) : (updGrid s g f).matReqs = s.matReqs := rfl
@[simp] theorem updGrid_dies (s : State) (g : Nat) (f : Grid → Grid) : (updGrid s g f).dies = s.dies := rfl
@[simp] theorem updGrid_teams (s : State) (g : Nat) (f : Grid → Grid) : (updGrid s g f).teams = s.teams := rfl
@[simp] theorem updGrid_lathe (s : State) (g : Nat) (f : Grid → Grid) : (updGrid s g f).lathe = s.lathe := rfl
@[simp] theorem updGrid_queues (s : State) (g : Nat) (f : Grid → Grid) : (updGrid s g f).queues = s.queues := rfl
@[simp] theorem updGrid_wins (s : State) (g : Nat) (f : Grid → Grid) : (updGrid s g f).wins = s.wins := rfl
@[simp] theorem updGrid_grps (s : State) (g : Nat) (f : Grid → Grid) : (updGrid s g f).grps = s.grps := rfl
@[simp] theorem updGrid_insts (s : State) (g : Nat) (f : Grid → Grid) : (updGrid s g f).insts = s.insts := rfl
@[simp] theorem updGrid_ctxs (s : State) (g : Nat) (f : Grid → Grid) : (updGrid s g f).ctxs = s.ctxs := rfl
@[simp] theorem updGrid_arrivals (s : State) (g : Nat) (f : Grid → Grid) : (updGrid s g f).arrivals = s.arrivals := rfl
@[simp] theorem updGrid_ueWaits (s : State) (g : Nat) (f : Grid → Grid) : (updGrid s g f).ueWaits = s.ueWaits := rfl
@[simp] theorem updGrid_ueFails (s : State) (g : Nat) (f : Grid → Grid) : (updGrid s g f).ueFails = s.ueFails := rfl
@[simp] theorem updGrid_listQ (s : State) (g : Nat) (f : Grid → Grid) : (updGrid s g f).listQ = s.listQ := rfl
@[simp] theorem updGrid_store (s : State) (g : Nat) (f : Grid → Grid) : (updGrid s g f).store = s.store := rfl
@[simp] theorem updGrid_progs (s : State) (g : Nat) (f : Grid → Grid) : (updGrid s g f).progs = s.progs := rfl
@[simp] theorem updGrid_saveBase (s : State) (g : Nat) (f : Grid → Grid) : (updGrid s g f).saveBase = s.saveBase := rfl
@[simp] theorem updGrid_keys (s : State) (g : Nat) (f : Grid → Grid) : (updGrid s g f).keys = s.keys := rfl
@[simp] theorem updGrid_oldKeys (s : State) (g : Nat) (f : Grid → Grid) : (updGrid s g f).oldKeys = s.oldKeys := rfl
@[simp] theorem updGrid_ctxFaults (s : State) (g : Nat) (f : Grid → Grid) : (updGrid s g f).ctxFaults = s.ctxFaults := rfl
@[simp] theorem updGrid_aborts (s : State) (g : Nat) (f : Grid → Grid) : (updGrid s g f).aborts = s.aborts := rfl
@[simp] theorem updGrid_loadBad (s : State) (g : Nat) (f : Grid → Grid) : (updGrid s g f).loadBad = s.loadBad := rfl
@[simp] theorem updGrid_dropped (s : State) (g : Nat) (f : Grid → Grid) : (updGrid s g f).dropped = s.dropped := rfl
@[simp] theorem updGrid_ueDropped (s : State) (g : Nat) (f : Grid → Grid) : (updGrid s g f).ueDropped = s.ueDropped := rfl
@[simp] theorem updGrid_ueRefused (s : State) (g : Nat) (f : Grid → Grid) : (updGrid s g f).ueRefused = s.ueRefused := rfl
@[simp] theorem updGrid_errLog (s : State) (g : Nat) (f : Grid → Grid) : (updGrid s g f).errLog = s.errLog := rfl
@[simp] theorem updGrid_errCount (s : State) (g : Nat) (f : Grid → Grid) : (updGrid s g f).errCount = s.errCount := rfl
@[simp] theorem updGrid_mailbox (s : State) (g : Nat) (f : Grid → Grid) : (updGrid s g f).mailbox = s.mailbox := rfl
@[simp] theorem updGrid_attest (s : State) (g : Nat) (f : Grid → Grid) : (updGrid s g f).attest = s.attest := rfl
@[simp] theorem updGrid_bar2 (s : State) (g : Nat) (f : Grid → Grid) : (updGrid s g f).bar2 = s.bar2 := rfl
@[simp] theorem updGrid_armQ (s : State) (g : Nat) (f : Grid → Grid) : (updGrid s g f).armQ = s.armQ := rfl
@[simp] theorem updGrid_telemetry (s : State) (g : Nat) (f : Grid → Grid) : (updGrid s g f).telemetry = s.telemetry := rfl
@[simp] theorem updGrid_meas (s : State) (g : Nat) (f : Grid → Grid) : (updGrid s g f).meas = s.meas := rfl
@[simp] theorem updGrid_hostResp (s : State) (g : Nat) (f : Grid → Grid) : (updGrid s g f).hostResp = s.hostResp := rfl
@[simp] theorem updGrid_dbgBuf (s : State) (g : Nat) (f : Grid → Grid) : (updGrid s g f).dbgBuf = s.dbgBuf := rfl

/-! ## updDie -/

@[simp] theorem updDie_turns (s : State) (d : Nat) (f : Die → Die) : (updDie s d f).turns = s.turns := rfl
@[simp] theorem updDie_turnNo (s : State) (d : Nat) (f : Die → Die) : (updDie s d f).turnNo = s.turnNo := rfl
@[simp] theorem updDie_freeNo (s : State) (d : Nat) (f : Die → Die) : (updDie s d f).freeNo = s.freeNo := rfl
@[simp] theorem updDie_nextId (s : State) (d : Nat) (f : Die → Die) : (updDie s d f).nextId = s.nextId := rfl
@[simp] theorem updDie_cur (s : State) (d : Nat) (f : Die → Die) : (updDie s d f).cur = s.cur := rfl
@[simp] theorem updDie_cycle (s : State) (d : Nat) (f : Die → Die) : (updDie s d f).cycle = s.cycle := rfl
@[simp] theorem updDie_swFrac (s : State) (d : Nat) (f : Die → Die) : (updDie s d f).swFrac = s.swFrac := rfl
@[simp] theorem updDie_ready (s : State) (d : Nat) (f : Die → Die) : (updDie s d f).ready = s.ready := rfl
@[simp] theorem updDie_coming (s : State) (d : Nat) (f : Die → Die) : (updDie s d f).coming = s.coming := rfl
@[simp] theorem updDie_mem (s : State) (d : Nat) (f : Die → Die) : (updDie s d f).mem = s.mem := rfl
@[simp] theorem updDie_lineOwner (s : State) (d : Nat) (f : Die → Die) : (updDie s d f).lineOwner = s.lineOwner := rfl
@[simp] theorem updDie_badSec (s : State) (d : Nat) (f : Die → Die) : (updDie s d f).badSec = s.badSec := rfl
@[simp] theorem updDie_poison (s : State) (d : Nat) (f : Die → Die) : (updDie s d f).poison = s.poison := rfl
@[simp] theorem updDie_flash (s : State) (d : Nat) (f : Die → Die) : (updDie s d f).flash = s.flash := rfl
@[simp] theorem updDie_l1 (s : State) (d : Nat) (f : Die → Die) : (updDie s d f).l1 = s.l1 := rfl
@[simp] theorem updDie_l1c (s : State) (d : Nat) (f : Die → Die) : (updDie s d f).l1c = s.l1c := rfl
@[simp] theorem updDie_l1Keep (s : State) (d : Nat) (f : Die → Die) : (updDie s d f).l1Keep = s.l1Keep := rfl
@[simp] theorem updDie_icache (s : State) (d : Nat) (f : Die → Die) : (updDie s d f).icache = s.icache := rfl
@[simp] theorem updDie_tlb (s : State) (d : Nat) (f : Die → Die) : (updDie s d f).tlb = s.tlb := rfl
@[simp] theorem updDie_toks (s : State) (d : Nat) (f : Die → Die) : (updDie s d f).toks = s.toks := rfl
@[simp] theorem updDie_reqs (s : State) (d : Nat) (f : Die → Die) : (updDie s d f).reqs = s.reqs := rfl
@[simp] theorem updDie_msgs (s : State) (d : Nat) (f : Die → Die) : (updDie s d f).msgs = s.msgs := rfl
@[simp] theorem updDie_prefs (s : State) (d : Nat) (f : Die → Die) : (updDie s d f).prefs = s.prefs := rfl
@[simp] theorem updDie_preqs (s : State) (d : Nat) (f : Die → Die) : (updDie s d f).preqs = s.preqs := rfl
@[simp] theorem updDie_acts (s : State) (d : Nat) (f : Die → Die) : (updDie s d f).acts = s.acts := rfl
@[simp] theorem updDie_deacts (s : State) (d : Nat) (f : Die → Die) : (updDie s d f).deacts = s.deacts := rfl
@[simp] theorem updDie_arrays (s : State) (d : Nat) (f : Die → Die) : (updDie s d f).arrays = s.arrays := rfl
@[simp] theorem updDie_matReqs (s : State) (d : Nat) (f : Die → Die) : (updDie s d f).matReqs = s.matReqs := rfl
@[simp] theorem updDie_teams (s : State) (d : Nat) (f : Die → Die) : (updDie s d f).teams = s.teams := rfl
@[simp] theorem updDie_grids (s : State) (d : Nat) (f : Die → Die) : (updDie s d f).grids = s.grids := rfl
@[simp] theorem updDie_lathe (s : State) (d : Nat) (f : Die → Die) : (updDie s d f).lathe = s.lathe := rfl
@[simp] theorem updDie_queues (s : State) (d : Nat) (f : Die → Die) : (updDie s d f).queues = s.queues := rfl
@[simp] theorem updDie_wins (s : State) (d : Nat) (f : Die → Die) : (updDie s d f).wins = s.wins := rfl
@[simp] theorem updDie_grps (s : State) (d : Nat) (f : Die → Die) : (updDie s d f).grps = s.grps := rfl
@[simp] theorem updDie_insts (s : State) (d : Nat) (f : Die → Die) : (updDie s d f).insts = s.insts := rfl
@[simp] theorem updDie_ctxs (s : State) (d : Nat) (f : Die → Die) : (updDie s d f).ctxs = s.ctxs := rfl
@[simp] theorem updDie_arrivals (s : State) (d : Nat) (f : Die → Die) : (updDie s d f).arrivals = s.arrivals := rfl
@[simp] theorem updDie_ueWaits (s : State) (d : Nat) (f : Die → Die) : (updDie s d f).ueWaits = s.ueWaits := rfl
@[simp] theorem updDie_ueFails (s : State) (d : Nat) (f : Die → Die) : (updDie s d f).ueFails = s.ueFails := rfl
@[simp] theorem updDie_listQ (s : State) (d : Nat) (f : Die → Die) : (updDie s d f).listQ = s.listQ := rfl
@[simp] theorem updDie_store (s : State) (d : Nat) (f : Die → Die) : (updDie s d f).store = s.store := rfl
@[simp] theorem updDie_progs (s : State) (d : Nat) (f : Die → Die) : (updDie s d f).progs = s.progs := rfl
@[simp] theorem updDie_saveBase (s : State) (d : Nat) (f : Die → Die) : (updDie s d f).saveBase = s.saveBase := rfl
@[simp] theorem updDie_keys (s : State) (d : Nat) (f : Die → Die) : (updDie s d f).keys = s.keys := rfl
@[simp] theorem updDie_oldKeys (s : State) (d : Nat) (f : Die → Die) : (updDie s d f).oldKeys = s.oldKeys := rfl
@[simp] theorem updDie_ctxFaults (s : State) (d : Nat) (f : Die → Die) : (updDie s d f).ctxFaults = s.ctxFaults := rfl
@[simp] theorem updDie_aborts (s : State) (d : Nat) (f : Die → Die) : (updDie s d f).aborts = s.aborts := rfl
@[simp] theorem updDie_loadBad (s : State) (d : Nat) (f : Die → Die) : (updDie s d f).loadBad = s.loadBad := rfl
@[simp] theorem updDie_dropped (s : State) (d : Nat) (f : Die → Die) : (updDie s d f).dropped = s.dropped := rfl
@[simp] theorem updDie_ueDropped (s : State) (d : Nat) (f : Die → Die) : (updDie s d f).ueDropped = s.ueDropped := rfl
@[simp] theorem updDie_ueRefused (s : State) (d : Nat) (f : Die → Die) : (updDie s d f).ueRefused = s.ueRefused := rfl
@[simp] theorem updDie_errLog (s : State) (d : Nat) (f : Die → Die) : (updDie s d f).errLog = s.errLog := rfl
@[simp] theorem updDie_errCount (s : State) (d : Nat) (f : Die → Die) : (updDie s d f).errCount = s.errCount := rfl
@[simp] theorem updDie_mailbox (s : State) (d : Nat) (f : Die → Die) : (updDie s d f).mailbox = s.mailbox := rfl
@[simp] theorem updDie_attest (s : State) (d : Nat) (f : Die → Die) : (updDie s d f).attest = s.attest := rfl
@[simp] theorem updDie_bar2 (s : State) (d : Nat) (f : Die → Die) : (updDie s d f).bar2 = s.bar2 := rfl
@[simp] theorem updDie_armQ (s : State) (d : Nat) (f : Die → Die) : (updDie s d f).armQ = s.armQ := rfl
@[simp] theorem updDie_telemetry (s : State) (d : Nat) (f : Die → Die) : (updDie s d f).telemetry = s.telemetry := rfl
@[simp] theorem updDie_meas (s : State) (d : Nat) (f : Die → Die) : (updDie s d f).meas = s.meas := rfl
@[simp] theorem updDie_hostResp (s : State) (d : Nat) (f : Die → Die) : (updDie s d f).hostResp = s.hostResp := rfl
@[simp] theorem updDie_dbgBuf (s : State) (d : Nat) (f : Die → Die) : (updDie s d f).dbgBuf = s.dbgBuf := rfl

/-! ## updQueue -/

@[simp] theorem updQueue_turns (s : State) (q : Nat) (f : Queue → Queue) : (updQueue s q f).turns = s.turns := rfl
@[simp] theorem updQueue_turnNo (s : State) (q : Nat) (f : Queue → Queue) : (updQueue s q f).turnNo = s.turnNo := rfl
@[simp] theorem updQueue_freeNo (s : State) (q : Nat) (f : Queue → Queue) : (updQueue s q f).freeNo = s.freeNo := rfl
@[simp] theorem updQueue_nextId (s : State) (q : Nat) (f : Queue → Queue) : (updQueue s q f).nextId = s.nextId := rfl
@[simp] theorem updQueue_cur (s : State) (q : Nat) (f : Queue → Queue) : (updQueue s q f).cur = s.cur := rfl
@[simp] theorem updQueue_cycle (s : State) (q : Nat) (f : Queue → Queue) : (updQueue s q f).cycle = s.cycle := rfl
@[simp] theorem updQueue_swFrac (s : State) (q : Nat) (f : Queue → Queue) : (updQueue s q f).swFrac = s.swFrac := rfl
@[simp] theorem updQueue_ready (s : State) (q : Nat) (f : Queue → Queue) : (updQueue s q f).ready = s.ready := rfl
@[simp] theorem updQueue_coming (s : State) (q : Nat) (f : Queue → Queue) : (updQueue s q f).coming = s.coming := rfl
@[simp] theorem updQueue_mem (s : State) (q : Nat) (f : Queue → Queue) : (updQueue s q f).mem = s.mem := rfl
@[simp] theorem updQueue_lineOwner (s : State) (q : Nat) (f : Queue → Queue) : (updQueue s q f).lineOwner = s.lineOwner := rfl
@[simp] theorem updQueue_badSec (s : State) (q : Nat) (f : Queue → Queue) : (updQueue s q f).badSec = s.badSec := rfl
@[simp] theorem updQueue_poison (s : State) (q : Nat) (f : Queue → Queue) : (updQueue s q f).poison = s.poison := rfl
@[simp] theorem updQueue_flash (s : State) (q : Nat) (f : Queue → Queue) : (updQueue s q f).flash = s.flash := rfl
@[simp] theorem updQueue_l1 (s : State) (q : Nat) (f : Queue → Queue) : (updQueue s q f).l1 = s.l1 := rfl
@[simp] theorem updQueue_l1c (s : State) (q : Nat) (f : Queue → Queue) : (updQueue s q f).l1c = s.l1c := rfl
@[simp] theorem updQueue_l1Keep (s : State) (q : Nat) (f : Queue → Queue) : (updQueue s q f).l1Keep = s.l1Keep := rfl
@[simp] theorem updQueue_icache (s : State) (q : Nat) (f : Queue → Queue) : (updQueue s q f).icache = s.icache := rfl
@[simp] theorem updQueue_tlb (s : State) (q : Nat) (f : Queue → Queue) : (updQueue s q f).tlb = s.tlb := rfl
@[simp] theorem updQueue_toks (s : State) (q : Nat) (f : Queue → Queue) : (updQueue s q f).toks = s.toks := rfl
@[simp] theorem updQueue_reqs (s : State) (q : Nat) (f : Queue → Queue) : (updQueue s q f).reqs = s.reqs := rfl
@[simp] theorem updQueue_msgs (s : State) (q : Nat) (f : Queue → Queue) : (updQueue s q f).msgs = s.msgs := rfl
@[simp] theorem updQueue_prefs (s : State) (q : Nat) (f : Queue → Queue) : (updQueue s q f).prefs = s.prefs := rfl
@[simp] theorem updQueue_preqs (s : State) (q : Nat) (f : Queue → Queue) : (updQueue s q f).preqs = s.preqs := rfl
@[simp] theorem updQueue_acts (s : State) (q : Nat) (f : Queue → Queue) : (updQueue s q f).acts = s.acts := rfl
@[simp] theorem updQueue_deacts (s : State) (q : Nat) (f : Queue → Queue) : (updQueue s q f).deacts = s.deacts := rfl
@[simp] theorem updQueue_arrays (s : State) (q : Nat) (f : Queue → Queue) : (updQueue s q f).arrays = s.arrays := rfl
@[simp] theorem updQueue_matReqs (s : State) (q : Nat) (f : Queue → Queue) : (updQueue s q f).matReqs = s.matReqs := rfl
@[simp] theorem updQueue_dies (s : State) (q : Nat) (f : Queue → Queue) : (updQueue s q f).dies = s.dies := rfl
@[simp] theorem updQueue_teams (s : State) (q : Nat) (f : Queue → Queue) : (updQueue s q f).teams = s.teams := rfl
@[simp] theorem updQueue_grids (s : State) (q : Nat) (f : Queue → Queue) : (updQueue s q f).grids = s.grids := rfl
@[simp] theorem updQueue_lathe (s : State) (q : Nat) (f : Queue → Queue) : (updQueue s q f).lathe = s.lathe := rfl
@[simp] theorem updQueue_wins (s : State) (q : Nat) (f : Queue → Queue) : (updQueue s q f).wins = s.wins := rfl
@[simp] theorem updQueue_grps (s : State) (q : Nat) (f : Queue → Queue) : (updQueue s q f).grps = s.grps := rfl
@[simp] theorem updQueue_insts (s : State) (q : Nat) (f : Queue → Queue) : (updQueue s q f).insts = s.insts := rfl
@[simp] theorem updQueue_ctxs (s : State) (q : Nat) (f : Queue → Queue) : (updQueue s q f).ctxs = s.ctxs := rfl
@[simp] theorem updQueue_arrivals (s : State) (q : Nat) (f : Queue → Queue) : (updQueue s q f).arrivals = s.arrivals := rfl
@[simp] theorem updQueue_ueWaits (s : State) (q : Nat) (f : Queue → Queue) : (updQueue s q f).ueWaits = s.ueWaits := rfl
@[simp] theorem updQueue_ueFails (s : State) (q : Nat) (f : Queue → Queue) : (updQueue s q f).ueFails = s.ueFails := rfl
@[simp] theorem updQueue_listQ (s : State) (q : Nat) (f : Queue → Queue) : (updQueue s q f).listQ = s.listQ := rfl
@[simp] theorem updQueue_store (s : State) (q : Nat) (f : Queue → Queue) : (updQueue s q f).store = s.store := rfl
@[simp] theorem updQueue_progs (s : State) (q : Nat) (f : Queue → Queue) : (updQueue s q f).progs = s.progs := rfl
@[simp] theorem updQueue_saveBase (s : State) (q : Nat) (f : Queue → Queue) : (updQueue s q f).saveBase = s.saveBase := rfl
@[simp] theorem updQueue_keys (s : State) (q : Nat) (f : Queue → Queue) : (updQueue s q f).keys = s.keys := rfl
@[simp] theorem updQueue_oldKeys (s : State) (q : Nat) (f : Queue → Queue) : (updQueue s q f).oldKeys = s.oldKeys := rfl
@[simp] theorem updQueue_ctxFaults (s : State) (q : Nat) (f : Queue → Queue) : (updQueue s q f).ctxFaults = s.ctxFaults := rfl
@[simp] theorem updQueue_aborts (s : State) (q : Nat) (f : Queue → Queue) : (updQueue s q f).aborts = s.aborts := rfl
@[simp] theorem updQueue_loadBad (s : State) (q : Nat) (f : Queue → Queue) : (updQueue s q f).loadBad = s.loadBad := rfl
@[simp] theorem updQueue_dropped (s : State) (q : Nat) (f : Queue → Queue) : (updQueue s q f).dropped = s.dropped := rfl
@[simp] theorem updQueue_ueDropped (s : State) (q : Nat) (f : Queue → Queue) : (updQueue s q f).ueDropped = s.ueDropped := rfl
@[simp] theorem updQueue_ueRefused (s : State) (q : Nat) (f : Queue → Queue) : (updQueue s q f).ueRefused = s.ueRefused := rfl
@[simp] theorem updQueue_errLog (s : State) (q : Nat) (f : Queue → Queue) : (updQueue s q f).errLog = s.errLog := rfl
@[simp] theorem updQueue_errCount (s : State) (q : Nat) (f : Queue → Queue) : (updQueue s q f).errCount = s.errCount := rfl
@[simp] theorem updQueue_mailbox (s : State) (q : Nat) (f : Queue → Queue) : (updQueue s q f).mailbox = s.mailbox := rfl
@[simp] theorem updQueue_attest (s : State) (q : Nat) (f : Queue → Queue) : (updQueue s q f).attest = s.attest := rfl
@[simp] theorem updQueue_bar2 (s : State) (q : Nat) (f : Queue → Queue) : (updQueue s q f).bar2 = s.bar2 := rfl
@[simp] theorem updQueue_armQ (s : State) (q : Nat) (f : Queue → Queue) : (updQueue s q f).armQ = s.armQ := rfl
@[simp] theorem updQueue_telemetry (s : State) (q : Nat) (f : Queue → Queue) : (updQueue s q f).telemetry = s.telemetry := rfl
@[simp] theorem updQueue_meas (s : State) (q : Nat) (f : Queue → Queue) : (updQueue s q f).meas = s.meas := rfl
@[simp] theorem updQueue_hostResp (s : State) (q : Nat) (f : Queue → Queue) : (updQueue s q f).hostResp = s.hostResp := rfl
@[simp] theorem updQueue_dbgBuf (s : State) (q : Nat) (f : Queue → Queue) : (updQueue s q f).dbgBuf = s.dbgBuf := rfl

/-! ## updWin -/

@[simp] theorem updWin_turns (s : State) (w : Nat) (f : Win → Win) : (updWin s w f).turns = s.turns := rfl
@[simp] theorem updWin_turnNo (s : State) (w : Nat) (f : Win → Win) : (updWin s w f).turnNo = s.turnNo := rfl
@[simp] theorem updWin_freeNo (s : State) (w : Nat) (f : Win → Win) : (updWin s w f).freeNo = s.freeNo := rfl
@[simp] theorem updWin_nextId (s : State) (w : Nat) (f : Win → Win) : (updWin s w f).nextId = s.nextId := rfl
@[simp] theorem updWin_cur (s : State) (w : Nat) (f : Win → Win) : (updWin s w f).cur = s.cur := rfl
@[simp] theorem updWin_cycle (s : State) (w : Nat) (f : Win → Win) : (updWin s w f).cycle = s.cycle := rfl
@[simp] theorem updWin_swFrac (s : State) (w : Nat) (f : Win → Win) : (updWin s w f).swFrac = s.swFrac := rfl
@[simp] theorem updWin_ready (s : State) (w : Nat) (f : Win → Win) : (updWin s w f).ready = s.ready := rfl
@[simp] theorem updWin_coming (s : State) (w : Nat) (f : Win → Win) : (updWin s w f).coming = s.coming := rfl
@[simp] theorem updWin_mem (s : State) (w : Nat) (f : Win → Win) : (updWin s w f).mem = s.mem := rfl
@[simp] theorem updWin_lineOwner (s : State) (w : Nat) (f : Win → Win) : (updWin s w f).lineOwner = s.lineOwner := rfl
@[simp] theorem updWin_badSec (s : State) (w : Nat) (f : Win → Win) : (updWin s w f).badSec = s.badSec := rfl
@[simp] theorem updWin_poison (s : State) (w : Nat) (f : Win → Win) : (updWin s w f).poison = s.poison := rfl
@[simp] theorem updWin_flash (s : State) (w : Nat) (f : Win → Win) : (updWin s w f).flash = s.flash := rfl
@[simp] theorem updWin_l1 (s : State) (w : Nat) (f : Win → Win) : (updWin s w f).l1 = s.l1 := rfl
@[simp] theorem updWin_l1c (s : State) (w : Nat) (f : Win → Win) : (updWin s w f).l1c = s.l1c := rfl
@[simp] theorem updWin_l1Keep (s : State) (w : Nat) (f : Win → Win) : (updWin s w f).l1Keep = s.l1Keep := rfl
@[simp] theorem updWin_icache (s : State) (w : Nat) (f : Win → Win) : (updWin s w f).icache = s.icache := rfl
@[simp] theorem updWin_tlb (s : State) (w : Nat) (f : Win → Win) : (updWin s w f).tlb = s.tlb := rfl
@[simp] theorem updWin_toks (s : State) (w : Nat) (f : Win → Win) : (updWin s w f).toks = s.toks := rfl
@[simp] theorem updWin_reqs (s : State) (w : Nat) (f : Win → Win) : (updWin s w f).reqs = s.reqs := rfl
@[simp] theorem updWin_msgs (s : State) (w : Nat) (f : Win → Win) : (updWin s w f).msgs = s.msgs := rfl
@[simp] theorem updWin_prefs (s : State) (w : Nat) (f : Win → Win) : (updWin s w f).prefs = s.prefs := rfl
@[simp] theorem updWin_preqs (s : State) (w : Nat) (f : Win → Win) : (updWin s w f).preqs = s.preqs := rfl
@[simp] theorem updWin_acts (s : State) (w : Nat) (f : Win → Win) : (updWin s w f).acts = s.acts := rfl
@[simp] theorem updWin_deacts (s : State) (w : Nat) (f : Win → Win) : (updWin s w f).deacts = s.deacts := rfl
@[simp] theorem updWin_arrays (s : State) (w : Nat) (f : Win → Win) : (updWin s w f).arrays = s.arrays := rfl
@[simp] theorem updWin_matReqs (s : State) (w : Nat) (f : Win → Win) : (updWin s w f).matReqs = s.matReqs := rfl
@[simp] theorem updWin_dies (s : State) (w : Nat) (f : Win → Win) : (updWin s w f).dies = s.dies := rfl
@[simp] theorem updWin_teams (s : State) (w : Nat) (f : Win → Win) : (updWin s w f).teams = s.teams := rfl
@[simp] theorem updWin_grids (s : State) (w : Nat) (f : Win → Win) : (updWin s w f).grids = s.grids := rfl
@[simp] theorem updWin_lathe (s : State) (w : Nat) (f : Win → Win) : (updWin s w f).lathe = s.lathe := rfl
@[simp] theorem updWin_queues (s : State) (w : Nat) (f : Win → Win) : (updWin s w f).queues = s.queues := rfl
@[simp] theorem updWin_grps (s : State) (w : Nat) (f : Win → Win) : (updWin s w f).grps = s.grps := rfl
@[simp] theorem updWin_insts (s : State) (w : Nat) (f : Win → Win) : (updWin s w f).insts = s.insts := rfl
@[simp] theorem updWin_ctxs (s : State) (w : Nat) (f : Win → Win) : (updWin s w f).ctxs = s.ctxs := rfl
@[simp] theorem updWin_arrivals (s : State) (w : Nat) (f : Win → Win) : (updWin s w f).arrivals = s.arrivals := rfl
@[simp] theorem updWin_ueWaits (s : State) (w : Nat) (f : Win → Win) : (updWin s w f).ueWaits = s.ueWaits := rfl
@[simp] theorem updWin_ueFails (s : State) (w : Nat) (f : Win → Win) : (updWin s w f).ueFails = s.ueFails := rfl
@[simp] theorem updWin_listQ (s : State) (w : Nat) (f : Win → Win) : (updWin s w f).listQ = s.listQ := rfl
@[simp] theorem updWin_store (s : State) (w : Nat) (f : Win → Win) : (updWin s w f).store = s.store := rfl
@[simp] theorem updWin_progs (s : State) (w : Nat) (f : Win → Win) : (updWin s w f).progs = s.progs := rfl
@[simp] theorem updWin_saveBase (s : State) (w : Nat) (f : Win → Win) : (updWin s w f).saveBase = s.saveBase := rfl
@[simp] theorem updWin_keys (s : State) (w : Nat) (f : Win → Win) : (updWin s w f).keys = s.keys := rfl
@[simp] theorem updWin_oldKeys (s : State) (w : Nat) (f : Win → Win) : (updWin s w f).oldKeys = s.oldKeys := rfl
@[simp] theorem updWin_ctxFaults (s : State) (w : Nat) (f : Win → Win) : (updWin s w f).ctxFaults = s.ctxFaults := rfl
@[simp] theorem updWin_aborts (s : State) (w : Nat) (f : Win → Win) : (updWin s w f).aborts = s.aborts := rfl
@[simp] theorem updWin_loadBad (s : State) (w : Nat) (f : Win → Win) : (updWin s w f).loadBad = s.loadBad := rfl
@[simp] theorem updWin_dropped (s : State) (w : Nat) (f : Win → Win) : (updWin s w f).dropped = s.dropped := rfl
@[simp] theorem updWin_ueDropped (s : State) (w : Nat) (f : Win → Win) : (updWin s w f).ueDropped = s.ueDropped := rfl
@[simp] theorem updWin_ueRefused (s : State) (w : Nat) (f : Win → Win) : (updWin s w f).ueRefused = s.ueRefused := rfl
@[simp] theorem updWin_errLog (s : State) (w : Nat) (f : Win → Win) : (updWin s w f).errLog = s.errLog := rfl
@[simp] theorem updWin_errCount (s : State) (w : Nat) (f : Win → Win) : (updWin s w f).errCount = s.errCount := rfl
@[simp] theorem updWin_mailbox (s : State) (w : Nat) (f : Win → Win) : (updWin s w f).mailbox = s.mailbox := rfl
@[simp] theorem updWin_attest (s : State) (w : Nat) (f : Win → Win) : (updWin s w f).attest = s.attest := rfl
@[simp] theorem updWin_bar2 (s : State) (w : Nat) (f : Win → Win) : (updWin s w f).bar2 = s.bar2 := rfl
@[simp] theorem updWin_armQ (s : State) (w : Nat) (f : Win → Win) : (updWin s w f).armQ = s.armQ := rfl
@[simp] theorem updWin_telemetry (s : State) (w : Nat) (f : Win → Win) : (updWin s w f).telemetry = s.telemetry := rfl
@[simp] theorem updWin_meas (s : State) (w : Nat) (f : Win → Win) : (updWin s w f).meas = s.meas := rfl
@[simp] theorem updWin_hostResp (s : State) (w : Nat) (f : Win → Win) : (updWin s w f).hostResp = s.hostResp := rfl
@[simp] theorem updWin_dbgBuf (s : State) (w : Nat) (f : Win → Win) : (updWin s w f).dbgBuf = s.dbgBuf := rfl

/-! ## updCtx -/

@[simp] theorem updCtx_turns (s : State) (u c : Nat) (f : Ctx → Ctx) : (updCtx s u c f).turns = s.turns := rfl
@[simp] theorem updCtx_turnNo (s : State) (u c : Nat) (f : Ctx → Ctx) : (updCtx s u c f).turnNo = s.turnNo := rfl
@[simp] theorem updCtx_freeNo (s : State) (u c : Nat) (f : Ctx → Ctx) : (updCtx s u c f).freeNo = s.freeNo := rfl
@[simp] theorem updCtx_nextId (s : State) (u c : Nat) (f : Ctx → Ctx) : (updCtx s u c f).nextId = s.nextId := rfl
@[simp] theorem updCtx_cur (s : State) (u c : Nat) (f : Ctx → Ctx) : (updCtx s u c f).cur = s.cur := rfl
@[simp] theorem updCtx_cycle (s : State) (u c : Nat) (f : Ctx → Ctx) : (updCtx s u c f).cycle = s.cycle := rfl
@[simp] theorem updCtx_swFrac (s : State) (u c : Nat) (f : Ctx → Ctx) : (updCtx s u c f).swFrac = s.swFrac := rfl
@[simp] theorem updCtx_ready (s : State) (u c : Nat) (f : Ctx → Ctx) : (updCtx s u c f).ready = s.ready := rfl
@[simp] theorem updCtx_coming (s : State) (u c : Nat) (f : Ctx → Ctx) : (updCtx s u c f).coming = s.coming := rfl
@[simp] theorem updCtx_mem (s : State) (u c : Nat) (f : Ctx → Ctx) : (updCtx s u c f).mem = s.mem := rfl
@[simp] theorem updCtx_lineOwner (s : State) (u c : Nat) (f : Ctx → Ctx) : (updCtx s u c f).lineOwner = s.lineOwner := rfl
@[simp] theorem updCtx_badSec (s : State) (u c : Nat) (f : Ctx → Ctx) : (updCtx s u c f).badSec = s.badSec := rfl
@[simp] theorem updCtx_poison (s : State) (u c : Nat) (f : Ctx → Ctx) : (updCtx s u c f).poison = s.poison := rfl
@[simp] theorem updCtx_flash (s : State) (u c : Nat) (f : Ctx → Ctx) : (updCtx s u c f).flash = s.flash := rfl
@[simp] theorem updCtx_l1 (s : State) (u c : Nat) (f : Ctx → Ctx) : (updCtx s u c f).l1 = s.l1 := rfl
@[simp] theorem updCtx_l1c (s : State) (u c : Nat) (f : Ctx → Ctx) : (updCtx s u c f).l1c = s.l1c := rfl
@[simp] theorem updCtx_l1Keep (s : State) (u c : Nat) (f : Ctx → Ctx) : (updCtx s u c f).l1Keep = s.l1Keep := rfl
@[simp] theorem updCtx_icache (s : State) (u c : Nat) (f : Ctx → Ctx) : (updCtx s u c f).icache = s.icache := rfl
@[simp] theorem updCtx_tlb (s : State) (u c : Nat) (f : Ctx → Ctx) : (updCtx s u c f).tlb = s.tlb := rfl
@[simp] theorem updCtx_toks (s : State) (u c : Nat) (f : Ctx → Ctx) : (updCtx s u c f).toks = s.toks := rfl
@[simp] theorem updCtx_reqs (s : State) (u c : Nat) (f : Ctx → Ctx) : (updCtx s u c f).reqs = s.reqs := rfl
@[simp] theorem updCtx_msgs (s : State) (u c : Nat) (f : Ctx → Ctx) : (updCtx s u c f).msgs = s.msgs := rfl
@[simp] theorem updCtx_prefs (s : State) (u c : Nat) (f : Ctx → Ctx) : (updCtx s u c f).prefs = s.prefs := rfl
@[simp] theorem updCtx_preqs (s : State) (u c : Nat) (f : Ctx → Ctx) : (updCtx s u c f).preqs = s.preqs := rfl
@[simp] theorem updCtx_acts (s : State) (u c : Nat) (f : Ctx → Ctx) : (updCtx s u c f).acts = s.acts := rfl
@[simp] theorem updCtx_deacts (s : State) (u c : Nat) (f : Ctx → Ctx) : (updCtx s u c f).deacts = s.deacts := rfl
@[simp] theorem updCtx_arrays (s : State) (u c : Nat) (f : Ctx → Ctx) : (updCtx s u c f).arrays = s.arrays := rfl
@[simp] theorem updCtx_matReqs (s : State) (u c : Nat) (f : Ctx → Ctx) : (updCtx s u c f).matReqs = s.matReqs := rfl
@[simp] theorem updCtx_dies (s : State) (u c : Nat) (f : Ctx → Ctx) : (updCtx s u c f).dies = s.dies := rfl
@[simp] theorem updCtx_teams (s : State) (u c : Nat) (f : Ctx → Ctx) : (updCtx s u c f).teams = s.teams := rfl
@[simp] theorem updCtx_grids (s : State) (u c : Nat) (f : Ctx → Ctx) : (updCtx s u c f).grids = s.grids := rfl
@[simp] theorem updCtx_lathe (s : State) (u c : Nat) (f : Ctx → Ctx) : (updCtx s u c f).lathe = s.lathe := rfl
@[simp] theorem updCtx_queues (s : State) (u c : Nat) (f : Ctx → Ctx) : (updCtx s u c f).queues = s.queues := rfl
@[simp] theorem updCtx_wins (s : State) (u c : Nat) (f : Ctx → Ctx) : (updCtx s u c f).wins = s.wins := rfl
@[simp] theorem updCtx_grps (s : State) (u c : Nat) (f : Ctx → Ctx) : (updCtx s u c f).grps = s.grps := rfl
@[simp] theorem updCtx_insts (s : State) (u c : Nat) (f : Ctx → Ctx) : (updCtx s u c f).insts = s.insts := rfl
@[simp] theorem updCtx_arrivals (s : State) (u c : Nat) (f : Ctx → Ctx) : (updCtx s u c f).arrivals = s.arrivals := rfl
@[simp] theorem updCtx_ueWaits (s : State) (u c : Nat) (f : Ctx → Ctx) : (updCtx s u c f).ueWaits = s.ueWaits := rfl
@[simp] theorem updCtx_ueFails (s : State) (u c : Nat) (f : Ctx → Ctx) : (updCtx s u c f).ueFails = s.ueFails := rfl
@[simp] theorem updCtx_listQ (s : State) (u c : Nat) (f : Ctx → Ctx) : (updCtx s u c f).listQ = s.listQ := rfl
@[simp] theorem updCtx_store (s : State) (u c : Nat) (f : Ctx → Ctx) : (updCtx s u c f).store = s.store := rfl
@[simp] theorem updCtx_progs (s : State) (u c : Nat) (f : Ctx → Ctx) : (updCtx s u c f).progs = s.progs := rfl
@[simp] theorem updCtx_saveBase (s : State) (u c : Nat) (f : Ctx → Ctx) : (updCtx s u c f).saveBase = s.saveBase := rfl
@[simp] theorem updCtx_keys (s : State) (u c : Nat) (f : Ctx → Ctx) : (updCtx s u c f).keys = s.keys := rfl
@[simp] theorem updCtx_oldKeys (s : State) (u c : Nat) (f : Ctx → Ctx) : (updCtx s u c f).oldKeys = s.oldKeys := rfl
@[simp] theorem updCtx_ctxFaults (s : State) (u c : Nat) (f : Ctx → Ctx) : (updCtx s u c f).ctxFaults = s.ctxFaults := rfl
@[simp] theorem updCtx_aborts (s : State) (u c : Nat) (f : Ctx → Ctx) : (updCtx s u c f).aborts = s.aborts := rfl
@[simp] theorem updCtx_loadBad (s : State) (u c : Nat) (f : Ctx → Ctx) : (updCtx s u c f).loadBad = s.loadBad := rfl
@[simp] theorem updCtx_dropped (s : State) (u c : Nat) (f : Ctx → Ctx) : (updCtx s u c f).dropped = s.dropped := rfl
@[simp] theorem updCtx_ueDropped (s : State) (u c : Nat) (f : Ctx → Ctx) : (updCtx s u c f).ueDropped = s.ueDropped := rfl
@[simp] theorem updCtx_ueRefused (s : State) (u c : Nat) (f : Ctx → Ctx) : (updCtx s u c f).ueRefused = s.ueRefused := rfl
@[simp] theorem updCtx_errLog (s : State) (u c : Nat) (f : Ctx → Ctx) : (updCtx s u c f).errLog = s.errLog := rfl
@[simp] theorem updCtx_errCount (s : State) (u c : Nat) (f : Ctx → Ctx) : (updCtx s u c f).errCount = s.errCount := rfl
@[simp] theorem updCtx_mailbox (s : State) (u c : Nat) (f : Ctx → Ctx) : (updCtx s u c f).mailbox = s.mailbox := rfl
@[simp] theorem updCtx_attest (s : State) (u c : Nat) (f : Ctx → Ctx) : (updCtx s u c f).attest = s.attest := rfl
@[simp] theorem updCtx_bar2 (s : State) (u c : Nat) (f : Ctx → Ctx) : (updCtx s u c f).bar2 = s.bar2 := rfl
@[simp] theorem updCtx_armQ (s : State) (u c : Nat) (f : Ctx → Ctx) : (updCtx s u c f).armQ = s.armQ := rfl
@[simp] theorem updCtx_telemetry (s : State) (u c : Nat) (f : Ctx → Ctx) : (updCtx s u c f).telemetry = s.telemetry := rfl
@[simp] theorem updCtx_meas (s : State) (u c : Nat) (f : Ctx → Ctx) : (updCtx s u c f).meas = s.meas := rfl
@[simp] theorem updCtx_hostResp (s : State) (u c : Nat) (f : Ctx → Ctx) : (updCtx s u c f).hostResp = s.hostResp := rfl
@[simp] theorem updCtx_dbgBuf (s : State) (u c : Nat) (f : Ctx → Ctx) : (updCtx s u c f).dbgBuf = s.dbgBuf := rfl

/-! ## updInst -/

@[simp] theorem updInst_turns (s : State) (g k : Nat) (f : Inst → Inst) : (updInst s g k f).turns = s.turns := rfl
@[simp] theorem updInst_turnNo (s : State) (g k : Nat) (f : Inst → Inst) : (updInst s g k f).turnNo = s.turnNo := rfl
@[simp] theorem updInst_freeNo (s : State) (g k : Nat) (f : Inst → Inst) : (updInst s g k f).freeNo = s.freeNo := rfl
@[simp] theorem updInst_nextId (s : State) (g k : Nat) (f : Inst → Inst) : (updInst s g k f).nextId = s.nextId := rfl
@[simp] theorem updInst_cur (s : State) (g k : Nat) (f : Inst → Inst) : (updInst s g k f).cur = s.cur := rfl
@[simp] theorem updInst_cycle (s : State) (g k : Nat) (f : Inst → Inst) : (updInst s g k f).cycle = s.cycle := rfl
@[simp] theorem updInst_swFrac (s : State) (g k : Nat) (f : Inst → Inst) : (updInst s g k f).swFrac = s.swFrac := rfl
@[simp] theorem updInst_ready (s : State) (g k : Nat) (f : Inst → Inst) : (updInst s g k f).ready = s.ready := rfl
@[simp] theorem updInst_coming (s : State) (g k : Nat) (f : Inst → Inst) : (updInst s g k f).coming = s.coming := rfl
@[simp] theorem updInst_mem (s : State) (g k : Nat) (f : Inst → Inst) : (updInst s g k f).mem = s.mem := rfl
@[simp] theorem updInst_lineOwner (s : State) (g k : Nat) (f : Inst → Inst) : (updInst s g k f).lineOwner = s.lineOwner := rfl
@[simp] theorem updInst_badSec (s : State) (g k : Nat) (f : Inst → Inst) : (updInst s g k f).badSec = s.badSec := rfl
@[simp] theorem updInst_poison (s : State) (g k : Nat) (f : Inst → Inst) : (updInst s g k f).poison = s.poison := rfl
@[simp] theorem updInst_flash (s : State) (g k : Nat) (f : Inst → Inst) : (updInst s g k f).flash = s.flash := rfl
@[simp] theorem updInst_l1 (s : State) (g k : Nat) (f : Inst → Inst) : (updInst s g k f).l1 = s.l1 := rfl
@[simp] theorem updInst_l1c (s : State) (g k : Nat) (f : Inst → Inst) : (updInst s g k f).l1c = s.l1c := rfl
@[simp] theorem updInst_l1Keep (s : State) (g k : Nat) (f : Inst → Inst) : (updInst s g k f).l1Keep = s.l1Keep := rfl
@[simp] theorem updInst_icache (s : State) (g k : Nat) (f : Inst → Inst) : (updInst s g k f).icache = s.icache := rfl
@[simp] theorem updInst_tlb (s : State) (g k : Nat) (f : Inst → Inst) : (updInst s g k f).tlb = s.tlb := rfl
@[simp] theorem updInst_toks (s : State) (g k : Nat) (f : Inst → Inst) : (updInst s g k f).toks = s.toks := rfl
@[simp] theorem updInst_reqs (s : State) (g k : Nat) (f : Inst → Inst) : (updInst s g k f).reqs = s.reqs := rfl
@[simp] theorem updInst_msgs (s : State) (g k : Nat) (f : Inst → Inst) : (updInst s g k f).msgs = s.msgs := rfl
@[simp] theorem updInst_prefs (s : State) (g k : Nat) (f : Inst → Inst) : (updInst s g k f).prefs = s.prefs := rfl
@[simp] theorem updInst_preqs (s : State) (g k : Nat) (f : Inst → Inst) : (updInst s g k f).preqs = s.preqs := rfl
@[simp] theorem updInst_acts (s : State) (g k : Nat) (f : Inst → Inst) : (updInst s g k f).acts = s.acts := rfl
@[simp] theorem updInst_deacts (s : State) (g k : Nat) (f : Inst → Inst) : (updInst s g k f).deacts = s.deacts := rfl
@[simp] theorem updInst_arrays (s : State) (g k : Nat) (f : Inst → Inst) : (updInst s g k f).arrays = s.arrays := rfl
@[simp] theorem updInst_matReqs (s : State) (g k : Nat) (f : Inst → Inst) : (updInst s g k f).matReqs = s.matReqs := rfl
@[simp] theorem updInst_dies (s : State) (g k : Nat) (f : Inst → Inst) : (updInst s g k f).dies = s.dies := rfl
@[simp] theorem updInst_teams (s : State) (g k : Nat) (f : Inst → Inst) : (updInst s g k f).teams = s.teams := rfl
@[simp] theorem updInst_grids (s : State) (g k : Nat) (f : Inst → Inst) : (updInst s g k f).grids = s.grids := rfl
@[simp] theorem updInst_lathe (s : State) (g k : Nat) (f : Inst → Inst) : (updInst s g k f).lathe = s.lathe := rfl
@[simp] theorem updInst_queues (s : State) (g k : Nat) (f : Inst → Inst) : (updInst s g k f).queues = s.queues := rfl
@[simp] theorem updInst_wins (s : State) (g k : Nat) (f : Inst → Inst) : (updInst s g k f).wins = s.wins := rfl
@[simp] theorem updInst_grps (s : State) (g k : Nat) (f : Inst → Inst) : (updInst s g k f).grps = s.grps := rfl
@[simp] theorem updInst_ctxs (s : State) (g k : Nat) (f : Inst → Inst) : (updInst s g k f).ctxs = s.ctxs := rfl
@[simp] theorem updInst_arrivals (s : State) (g k : Nat) (f : Inst → Inst) : (updInst s g k f).arrivals = s.arrivals := rfl
@[simp] theorem updInst_ueWaits (s : State) (g k : Nat) (f : Inst → Inst) : (updInst s g k f).ueWaits = s.ueWaits := rfl
@[simp] theorem updInst_ueFails (s : State) (g k : Nat) (f : Inst → Inst) : (updInst s g k f).ueFails = s.ueFails := rfl
@[simp] theorem updInst_listQ (s : State) (g k : Nat) (f : Inst → Inst) : (updInst s g k f).listQ = s.listQ := rfl
@[simp] theorem updInst_store (s : State) (g k : Nat) (f : Inst → Inst) : (updInst s g k f).store = s.store := rfl
@[simp] theorem updInst_progs (s : State) (g k : Nat) (f : Inst → Inst) : (updInst s g k f).progs = s.progs := rfl
@[simp] theorem updInst_saveBase (s : State) (g k : Nat) (f : Inst → Inst) : (updInst s g k f).saveBase = s.saveBase := rfl
@[simp] theorem updInst_keys (s : State) (g k : Nat) (f : Inst → Inst) : (updInst s g k f).keys = s.keys := rfl
@[simp] theorem updInst_oldKeys (s : State) (g k : Nat) (f : Inst → Inst) : (updInst s g k f).oldKeys = s.oldKeys := rfl
@[simp] theorem updInst_ctxFaults (s : State) (g k : Nat) (f : Inst → Inst) : (updInst s g k f).ctxFaults = s.ctxFaults := rfl
@[simp] theorem updInst_aborts (s : State) (g k : Nat) (f : Inst → Inst) : (updInst s g k f).aborts = s.aborts := rfl
@[simp] theorem updInst_loadBad (s : State) (g k : Nat) (f : Inst → Inst) : (updInst s g k f).loadBad = s.loadBad := rfl
@[simp] theorem updInst_dropped (s : State) (g k : Nat) (f : Inst → Inst) : (updInst s g k f).dropped = s.dropped := rfl
@[simp] theorem updInst_ueDropped (s : State) (g k : Nat) (f : Inst → Inst) : (updInst s g k f).ueDropped = s.ueDropped := rfl
@[simp] theorem updInst_ueRefused (s : State) (g k : Nat) (f : Inst → Inst) : (updInst s g k f).ueRefused = s.ueRefused := rfl
@[simp] theorem updInst_errLog (s : State) (g k : Nat) (f : Inst → Inst) : (updInst s g k f).errLog = s.errLog := rfl
@[simp] theorem updInst_errCount (s : State) (g k : Nat) (f : Inst → Inst) : (updInst s g k f).errCount = s.errCount := rfl
@[simp] theorem updInst_mailbox (s : State) (g k : Nat) (f : Inst → Inst) : (updInst s g k f).mailbox = s.mailbox := rfl
@[simp] theorem updInst_attest (s : State) (g k : Nat) (f : Inst → Inst) : (updInst s g k f).attest = s.attest := rfl
@[simp] theorem updInst_bar2 (s : State) (g k : Nat) (f : Inst → Inst) : (updInst s g k f).bar2 = s.bar2 := rfl
@[simp] theorem updInst_armQ (s : State) (g k : Nat) (f : Inst → Inst) : (updInst s g k f).armQ = s.armQ := rfl
@[simp] theorem updInst_telemetry (s : State) (g k : Nat) (f : Inst → Inst) : (updInst s g k f).telemetry = s.telemetry := rfl
@[simp] theorem updInst_meas (s : State) (g k : Nat) (f : Inst → Inst) : (updInst s g k f).meas = s.meas := rfl
@[simp] theorem updInst_hostResp (s : State) (g k : Nat) (f : Inst → Inst) : (updInst s g k f).hostResp = s.hostResp := rfl
@[simp] theorem updInst_dbgBuf (s : State) (g k : Nat) (f : Inst → Inst) : (updInst s g k f).dbgBuf = s.dbgBuf := rfl

/-! ## dropMsg -/

@[simp] theorem dropMsg_turns (s : State) (m : Nat) : (dropMsg s m).turns = s.turns := rfl
@[simp] theorem dropMsg_turnNo (s : State) (m : Nat) : (dropMsg s m).turnNo = s.turnNo := rfl
@[simp] theorem dropMsg_freeNo (s : State) (m : Nat) : (dropMsg s m).freeNo = s.freeNo := rfl
@[simp] theorem dropMsg_nextId (s : State) (m : Nat) : (dropMsg s m).nextId = s.nextId := rfl
@[simp] theorem dropMsg_cur (s : State) (m : Nat) : (dropMsg s m).cur = s.cur := rfl
@[simp] theorem dropMsg_cycle (s : State) (m : Nat) : (dropMsg s m).cycle = s.cycle := rfl
@[simp] theorem dropMsg_swFrac (s : State) (m : Nat) : (dropMsg s m).swFrac = s.swFrac := rfl
@[simp] theorem dropMsg_ready (s : State) (m : Nat) : (dropMsg s m).ready = s.ready := rfl
@[simp] theorem dropMsg_coming (s : State) (m : Nat) : (dropMsg s m).coming = s.coming := rfl
@[simp] theorem dropMsg_mem (s : State) (m : Nat) : (dropMsg s m).mem = s.mem := rfl
@[simp] theorem dropMsg_lineOwner (s : State) (m : Nat) : (dropMsg s m).lineOwner = s.lineOwner := rfl
@[simp] theorem dropMsg_badSec (s : State) (m : Nat) : (dropMsg s m).badSec = s.badSec := rfl
@[simp] theorem dropMsg_poison (s : State) (m : Nat) : (dropMsg s m).poison = s.poison := rfl
@[simp] theorem dropMsg_flash (s : State) (m : Nat) : (dropMsg s m).flash = s.flash := rfl
@[simp] theorem dropMsg_l1 (s : State) (m : Nat) : (dropMsg s m).l1 = s.l1 := rfl
@[simp] theorem dropMsg_l1c (s : State) (m : Nat) : (dropMsg s m).l1c = s.l1c := rfl
@[simp] theorem dropMsg_l1Keep (s : State) (m : Nat) : (dropMsg s m).l1Keep = s.l1Keep := rfl
@[simp] theorem dropMsg_icache (s : State) (m : Nat) : (dropMsg s m).icache = s.icache := rfl
@[simp] theorem dropMsg_tlb (s : State) (m : Nat) : (dropMsg s m).tlb = s.tlb := rfl
@[simp] theorem dropMsg_toks (s : State) (m : Nat) : (dropMsg s m).toks = s.toks := rfl
@[simp] theorem dropMsg_reqs (s : State) (m : Nat) : (dropMsg s m).reqs = s.reqs := rfl
@[simp] theorem dropMsg_prefs (s : State) (m : Nat) : (dropMsg s m).prefs = s.prefs := rfl
@[simp] theorem dropMsg_preqs (s : State) (m : Nat) : (dropMsg s m).preqs = s.preqs := rfl
@[simp] theorem dropMsg_acts (s : State) (m : Nat) : (dropMsg s m).acts = s.acts := rfl
@[simp] theorem dropMsg_deacts (s : State) (m : Nat) : (dropMsg s m).deacts = s.deacts := rfl
@[simp] theorem dropMsg_arrays (s : State) (m : Nat) : (dropMsg s m).arrays = s.arrays := rfl
@[simp] theorem dropMsg_matReqs (s : State) (m : Nat) : (dropMsg s m).matReqs = s.matReqs := rfl
@[simp] theorem dropMsg_dies (s : State) (m : Nat) : (dropMsg s m).dies = s.dies := rfl
@[simp] theorem dropMsg_teams (s : State) (m : Nat) : (dropMsg s m).teams = s.teams := rfl
@[simp] theorem dropMsg_grids (s : State) (m : Nat) : (dropMsg s m).grids = s.grids := rfl
@[simp] theorem dropMsg_lathe (s : State) (m : Nat) : (dropMsg s m).lathe = s.lathe := rfl
@[simp] theorem dropMsg_queues (s : State) (m : Nat) : (dropMsg s m).queues = s.queues := rfl
@[simp] theorem dropMsg_wins (s : State) (m : Nat) : (dropMsg s m).wins = s.wins := rfl
@[simp] theorem dropMsg_grps (s : State) (m : Nat) : (dropMsg s m).grps = s.grps := rfl
@[simp] theorem dropMsg_insts (s : State) (m : Nat) : (dropMsg s m).insts = s.insts := rfl
@[simp] theorem dropMsg_ctxs (s : State) (m : Nat) : (dropMsg s m).ctxs = s.ctxs := rfl
@[simp] theorem dropMsg_arrivals (s : State) (m : Nat) : (dropMsg s m).arrivals = s.arrivals := rfl
@[simp] theorem dropMsg_ueWaits (s : State) (m : Nat) : (dropMsg s m).ueWaits = s.ueWaits := rfl
@[simp] theorem dropMsg_ueFails (s : State) (m : Nat) : (dropMsg s m).ueFails = s.ueFails := rfl
@[simp] theorem dropMsg_listQ (s : State) (m : Nat) : (dropMsg s m).listQ = s.listQ := rfl
@[simp] theorem dropMsg_store (s : State) (m : Nat) : (dropMsg s m).store = s.store := rfl
@[simp] theorem dropMsg_progs (s : State) (m : Nat) : (dropMsg s m).progs = s.progs := rfl
@[simp] theorem dropMsg_saveBase (s : State) (m : Nat) : (dropMsg s m).saveBase = s.saveBase := rfl
@[simp] theorem dropMsg_keys (s : State) (m : Nat) : (dropMsg s m).keys = s.keys := rfl
@[simp] theorem dropMsg_oldKeys (s : State) (m : Nat) : (dropMsg s m).oldKeys = s.oldKeys := rfl
@[simp] theorem dropMsg_ctxFaults (s : State) (m : Nat) : (dropMsg s m).ctxFaults = s.ctxFaults := rfl
@[simp] theorem dropMsg_aborts (s : State) (m : Nat) : (dropMsg s m).aborts = s.aborts := rfl
@[simp] theorem dropMsg_loadBad (s : State) (m : Nat) : (dropMsg s m).loadBad = s.loadBad := rfl
@[simp] theorem dropMsg_dropped (s : State) (m : Nat) : (dropMsg s m).dropped = s.dropped := rfl
@[simp] theorem dropMsg_ueDropped (s : State) (m : Nat) : (dropMsg s m).ueDropped = s.ueDropped := rfl
@[simp] theorem dropMsg_ueRefused (s : State) (m : Nat) : (dropMsg s m).ueRefused = s.ueRefused := rfl
@[simp] theorem dropMsg_errLog (s : State) (m : Nat) : (dropMsg s m).errLog = s.errLog := rfl
@[simp] theorem dropMsg_errCount (s : State) (m : Nat) : (dropMsg s m).errCount = s.errCount := rfl
@[simp] theorem dropMsg_mailbox (s : State) (m : Nat) : (dropMsg s m).mailbox = s.mailbox := rfl
@[simp] theorem dropMsg_attest (s : State) (m : Nat) : (dropMsg s m).attest = s.attest := rfl
@[simp] theorem dropMsg_bar2 (s : State) (m : Nat) : (dropMsg s m).bar2 = s.bar2 := rfl
@[simp] theorem dropMsg_armQ (s : State) (m : Nat) : (dropMsg s m).armQ = s.armQ := rfl
@[simp] theorem dropMsg_telemetry (s : State) (m : Nat) : (dropMsg s m).telemetry = s.telemetry := rfl
@[simp] theorem dropMsg_meas (s : State) (m : Nat) : (dropMsg s m).meas = s.meas := rfl
@[simp] theorem dropMsg_hostResp (s : State) (m : Nat) : (dropMsg s m).hostResp = s.hostResp := rfl
@[simp] theorem dropMsg_dbgBuf (s : State) (m : Nat) : (dropMsg s m).dbgBuf = s.dbgBuf := rfl

/-! ## setTok -/

@[simp] theorem setTok_turns (s : State) (x : Tok) : (setTok s x).turns = s.turns := rfl
@[simp] theorem setTok_turnNo (s : State) (x : Tok) : (setTok s x).turnNo = s.turnNo := rfl
@[simp] theorem setTok_freeNo (s : State) (x : Tok) : (setTok s x).freeNo = s.freeNo := rfl
@[simp] theorem setTok_nextId (s : State) (x : Tok) : (setTok s x).nextId = s.nextId := rfl
@[simp] theorem setTok_cur (s : State) (x : Tok) : (setTok s x).cur = s.cur := rfl
@[simp] theorem setTok_cycle (s : State) (x : Tok) : (setTok s x).cycle = s.cycle := rfl
@[simp] theorem setTok_swFrac (s : State) (x : Tok) : (setTok s x).swFrac = s.swFrac := rfl
@[simp] theorem setTok_ready (s : State) (x : Tok) : (setTok s x).ready = s.ready := rfl
@[simp] theorem setTok_coming (s : State) (x : Tok) : (setTok s x).coming = s.coming := rfl
@[simp] theorem setTok_mem (s : State) (x : Tok) : (setTok s x).mem = s.mem := rfl
@[simp] theorem setTok_lineOwner (s : State) (x : Tok) : (setTok s x).lineOwner = s.lineOwner := rfl
@[simp] theorem setTok_badSec (s : State) (x : Tok) : (setTok s x).badSec = s.badSec := rfl
@[simp] theorem setTok_poison (s : State) (x : Tok) : (setTok s x).poison = s.poison := rfl
@[simp] theorem setTok_flash (s : State) (x : Tok) : (setTok s x).flash = s.flash := rfl
@[simp] theorem setTok_l1 (s : State) (x : Tok) : (setTok s x).l1 = s.l1 := rfl
@[simp] theorem setTok_l1c (s : State) (x : Tok) : (setTok s x).l1c = s.l1c := rfl
@[simp] theorem setTok_l1Keep (s : State) (x : Tok) : (setTok s x).l1Keep = s.l1Keep := rfl
@[simp] theorem setTok_icache (s : State) (x : Tok) : (setTok s x).icache = s.icache := rfl
@[simp] theorem setTok_tlb (s : State) (x : Tok) : (setTok s x).tlb = s.tlb := rfl
@[simp] theorem setTok_reqs (s : State) (x : Tok) : (setTok s x).reqs = s.reqs := rfl
@[simp] theorem setTok_msgs (s : State) (x : Tok) : (setTok s x).msgs = s.msgs := rfl
@[simp] theorem setTok_prefs (s : State) (x : Tok) : (setTok s x).prefs = s.prefs := rfl
@[simp] theorem setTok_preqs (s : State) (x : Tok) : (setTok s x).preqs = s.preqs := rfl
@[simp] theorem setTok_acts (s : State) (x : Tok) : (setTok s x).acts = s.acts := rfl
@[simp] theorem setTok_deacts (s : State) (x : Tok) : (setTok s x).deacts = s.deacts := rfl
@[simp] theorem setTok_arrays (s : State) (x : Tok) : (setTok s x).arrays = s.arrays := rfl
@[simp] theorem setTok_matReqs (s : State) (x : Tok) : (setTok s x).matReqs = s.matReqs := rfl
@[simp] theorem setTok_dies (s : State) (x : Tok) : (setTok s x).dies = s.dies := rfl
@[simp] theorem setTok_teams (s : State) (x : Tok) : (setTok s x).teams = s.teams := rfl
@[simp] theorem setTok_grids (s : State) (x : Tok) : (setTok s x).grids = s.grids := rfl
@[simp] theorem setTok_lathe (s : State) (x : Tok) : (setTok s x).lathe = s.lathe := rfl
@[simp] theorem setTok_queues (s : State) (x : Tok) : (setTok s x).queues = s.queues := rfl
@[simp] theorem setTok_wins (s : State) (x : Tok) : (setTok s x).wins = s.wins := rfl
@[simp] theorem setTok_grps (s : State) (x : Tok) : (setTok s x).grps = s.grps := rfl
@[simp] theorem setTok_insts (s : State) (x : Tok) : (setTok s x).insts = s.insts := rfl
@[simp] theorem setTok_ctxs (s : State) (x : Tok) : (setTok s x).ctxs = s.ctxs := rfl
@[simp] theorem setTok_arrivals (s : State) (x : Tok) : (setTok s x).arrivals = s.arrivals := rfl
@[simp] theorem setTok_ueWaits (s : State) (x : Tok) : (setTok s x).ueWaits = s.ueWaits := rfl
@[simp] theorem setTok_ueFails (s : State) (x : Tok) : (setTok s x).ueFails = s.ueFails := rfl
@[simp] theorem setTok_listQ (s : State) (x : Tok) : (setTok s x).listQ = s.listQ := rfl
@[simp] theorem setTok_store (s : State) (x : Tok) : (setTok s x).store = s.store := rfl
@[simp] theorem setTok_progs (s : State) (x : Tok) : (setTok s x).progs = s.progs := rfl
@[simp] theorem setTok_saveBase (s : State) (x : Tok) : (setTok s x).saveBase = s.saveBase := rfl
@[simp] theorem setTok_keys (s : State) (x : Tok) : (setTok s x).keys = s.keys := rfl
@[simp] theorem setTok_oldKeys (s : State) (x : Tok) : (setTok s x).oldKeys = s.oldKeys := rfl
@[simp] theorem setTok_ctxFaults (s : State) (x : Tok) : (setTok s x).ctxFaults = s.ctxFaults := rfl
@[simp] theorem setTok_aborts (s : State) (x : Tok) : (setTok s x).aborts = s.aborts := rfl
@[simp] theorem setTok_loadBad (s : State) (x : Tok) : (setTok s x).loadBad = s.loadBad := rfl
@[simp] theorem setTok_dropped (s : State) (x : Tok) : (setTok s x).dropped = s.dropped := rfl
@[simp] theorem setTok_ueDropped (s : State) (x : Tok) : (setTok s x).ueDropped = s.ueDropped := rfl
@[simp] theorem setTok_ueRefused (s : State) (x : Tok) : (setTok s x).ueRefused = s.ueRefused := rfl
@[simp] theorem setTok_errLog (s : State) (x : Tok) : (setTok s x).errLog = s.errLog := rfl
@[simp] theorem setTok_errCount (s : State) (x : Tok) : (setTok s x).errCount = s.errCount := rfl
@[simp] theorem setTok_mailbox (s : State) (x : Tok) : (setTok s x).mailbox = s.mailbox := rfl
@[simp] theorem setTok_attest (s : State) (x : Tok) : (setTok s x).attest = s.attest := rfl
@[simp] theorem setTok_bar2 (s : State) (x : Tok) : (setTok s x).bar2 = s.bar2 := rfl
@[simp] theorem setTok_armQ (s : State) (x : Tok) : (setTok s x).armQ = s.armQ := rfl
@[simp] theorem setTok_telemetry (s : State) (x : Tok) : (setTok s x).telemetry = s.telemetry := rfl
@[simp] theorem setTok_meas (s : State) (x : Tok) : (setTok s x).meas = s.meas := rfl
@[simp] theorem setTok_hostResp (s : State) (x : Tok) : (setTok s x).hostResp = s.hostResp := rfl
@[simp] theorem setTok_dbgBuf (s : State) (x : Tok) : (setTok s x).dbgBuf = s.dbgBuf := rfl

/-! ## takeTurn -/

@[simp] theorem takeTurn_freeNo (s : State) : (takeTurn s).freeNo = s.freeNo := rfl
@[simp] theorem takeTurn_nextId (s : State) : (takeTurn s).nextId = s.nextId := rfl
@[simp] theorem takeTurn_cycle (s : State) : (takeTurn s).cycle = s.cycle := rfl
@[simp] theorem takeTurn_swFrac (s : State) : (takeTurn s).swFrac = s.swFrac := rfl
@[simp] theorem takeTurn_ready (s : State) : (takeTurn s).ready = s.ready := rfl
@[simp] theorem takeTurn_coming (s : State) : (takeTurn s).coming = s.coming := rfl
@[simp] theorem takeTurn_mem (s : State) : (takeTurn s).mem = s.mem := rfl
@[simp] theorem takeTurn_lineOwner (s : State) : (takeTurn s).lineOwner = s.lineOwner := rfl
@[simp] theorem takeTurn_badSec (s : State) : (takeTurn s).badSec = s.badSec := rfl
@[simp] theorem takeTurn_poison (s : State) : (takeTurn s).poison = s.poison := rfl
@[simp] theorem takeTurn_flash (s : State) : (takeTurn s).flash = s.flash := rfl
@[simp] theorem takeTurn_l1 (s : State) : (takeTurn s).l1 = s.l1 := rfl
@[simp] theorem takeTurn_l1c (s : State) : (takeTurn s).l1c = s.l1c := rfl
@[simp] theorem takeTurn_l1Keep (s : State) : (takeTurn s).l1Keep = s.l1Keep := rfl
@[simp] theorem takeTurn_icache (s : State) : (takeTurn s).icache = s.icache := rfl
@[simp] theorem takeTurn_tlb (s : State) : (takeTurn s).tlb = s.tlb := rfl
@[simp] theorem takeTurn_toks (s : State) : (takeTurn s).toks = s.toks := rfl
@[simp] theorem takeTurn_reqs (s : State) : (takeTurn s).reqs = s.reqs := rfl
@[simp] theorem takeTurn_msgs (s : State) : (takeTurn s).msgs = s.msgs := rfl
@[simp] theorem takeTurn_prefs (s : State) : (takeTurn s).prefs = s.prefs := rfl
@[simp] theorem takeTurn_preqs (s : State) : (takeTurn s).preqs = s.preqs := rfl
@[simp] theorem takeTurn_acts (s : State) : (takeTurn s).acts = s.acts := rfl
@[simp] theorem takeTurn_deacts (s : State) : (takeTurn s).deacts = s.deacts := rfl
@[simp] theorem takeTurn_arrays (s : State) : (takeTurn s).arrays = s.arrays := rfl
@[simp] theorem takeTurn_matReqs (s : State) : (takeTurn s).matReqs = s.matReqs := rfl
@[simp] theorem takeTurn_dies (s : State) : (takeTurn s).dies = s.dies := rfl
@[simp] theorem takeTurn_teams (s : State) : (takeTurn s).teams = s.teams := rfl
@[simp] theorem takeTurn_grids (s : State) : (takeTurn s).grids = s.grids := rfl
@[simp] theorem takeTurn_lathe (s : State) : (takeTurn s).lathe = s.lathe := rfl
@[simp] theorem takeTurn_queues (s : State) : (takeTurn s).queues = s.queues := rfl
@[simp] theorem takeTurn_wins (s : State) : (takeTurn s).wins = s.wins := rfl
@[simp] theorem takeTurn_grps (s : State) : (takeTurn s).grps = s.grps := rfl
@[simp] theorem takeTurn_insts (s : State) : (takeTurn s).insts = s.insts := rfl
@[simp] theorem takeTurn_ctxs (s : State) : (takeTurn s).ctxs = s.ctxs := rfl
@[simp] theorem takeTurn_arrivals (s : State) : (takeTurn s).arrivals = s.arrivals := rfl
@[simp] theorem takeTurn_ueWaits (s : State) : (takeTurn s).ueWaits = s.ueWaits := rfl
@[simp] theorem takeTurn_ueFails (s : State) : (takeTurn s).ueFails = s.ueFails := rfl
@[simp] theorem takeTurn_listQ (s : State) : (takeTurn s).listQ = s.listQ := rfl
@[simp] theorem takeTurn_store (s : State) : (takeTurn s).store = s.store := rfl
@[simp] theorem takeTurn_progs (s : State) : (takeTurn s).progs = s.progs := rfl
@[simp] theorem takeTurn_saveBase (s : State) : (takeTurn s).saveBase = s.saveBase := rfl
@[simp] theorem takeTurn_keys (s : State) : (takeTurn s).keys = s.keys := rfl
@[simp] theorem takeTurn_oldKeys (s : State) : (takeTurn s).oldKeys = s.oldKeys := rfl
@[simp] theorem takeTurn_ctxFaults (s : State) : (takeTurn s).ctxFaults = s.ctxFaults := rfl
@[simp] theorem takeTurn_aborts (s : State) : (takeTurn s).aborts = s.aborts := rfl
@[simp] theorem takeTurn_loadBad (s : State) : (takeTurn s).loadBad = s.loadBad := rfl
@[simp] theorem takeTurn_dropped (s : State) : (takeTurn s).dropped = s.dropped := rfl
@[simp] theorem takeTurn_ueDropped (s : State) : (takeTurn s).ueDropped = s.ueDropped := rfl
@[simp] theorem takeTurn_ueRefused (s : State) : (takeTurn s).ueRefused = s.ueRefused := rfl
@[simp] theorem takeTurn_errLog (s : State) : (takeTurn s).errLog = s.errLog := rfl
@[simp] theorem takeTurn_errCount (s : State) : (takeTurn s).errCount = s.errCount := rfl
@[simp] theorem takeTurn_mailbox (s : State) : (takeTurn s).mailbox = s.mailbox := rfl
@[simp] theorem takeTurn_attest (s : State) : (takeTurn s).attest = s.attest := rfl
@[simp] theorem takeTurn_bar2 (s : State) : (takeTurn s).bar2 = s.bar2 := rfl
@[simp] theorem takeTurn_armQ (s : State) : (takeTurn s).armQ = s.armQ := rfl
@[simp] theorem takeTurn_telemetry (s : State) : (takeTurn s).telemetry = s.telemetry := rfl
@[simp] theorem takeTurn_meas (s : State) : (takeTurn s).meas = s.meas := rfl
@[simp] theorem takeTurn_hostResp (s : State) : (takeTurn s).hostResp = s.hostResp := rfl
@[simp] theorem takeTurn_dbgBuf (s : State) : (takeTurn s).dbgBuf = s.dbgBuf := rfl

/-! ## sset -/

@[simp] theorem sset_spx (p : Spindle) (n : Nat) (x : Word) : (sset p n x).spx = p.spx := rfl
@[simp] theorem sset_role (p : Spindle) (n : Nat) (x : Word) : (sset p n x).role = p.role := rfl
@[simp] theorem sset_rlx (p : Spindle) (n : Nat) (x : Word) : (sset p n x).rlx = p.rlx := rfl
@[simp] theorem sset_allot (p : Spindle) (n : Nat) (x : Word) : (sset p n x).allot = p.allot := rfl
@[simp] theorem sset_cls (p : Spindle) (n : Nat) (x : Word) : (sset p n x).cls = p.cls := rfl
@[simp] theorem sset_entv (p : Spindle) (n : Nat) (x : Word) : (sset p n x).entv = p.entv := rfl
@[simp] theorem sset_gmap (p : Spindle) (n : Nat) (x : Word) : (sset p n x).gmap = p.gmap := rfl
@[simp] theorem sset_live (p : Spindle) (n : Nat) (x : Word) : (sset p n x).live = p.live := rfl
@[simp] theorem sset_p (p : Spindle) (n : Nat) (x : Word) : (sset p n x).p = p.p := rfl
@[simp] theorem sset_badV (p : Spindle) (n : Nat) (x : Word) : (sset p n x).badV = p.badV := rfl
@[simp] theorem sset_nest (p : Spindle) (n : Nat) (x : Word) : (sset p n x).nest = p.nest := rfl
@[simp] theorem sset_gen (p : Spindle) (n : Nat) (x : Word) : (sset p n x).gen = p.gen := rfl
@[simp] theorem sset_mode (p : Spindle) (n : Nat) (x : Word) : (sset p n x).mode = p.mode := rfl
@[simp] theorem sset_ctr (p : Spindle) (n : Nat) (x : Word) : (sset p n x).ctr = p.ctr := rfl
@[simp] theorem sset_frags (p : Spindle) (n : Nat) (x : Word) : (sset p n x).frags = p.frags := rfl
@[simp] theorem sset_joins (p : Spindle) (n : Nat) (x : Word) : (sset p n x).joins = p.joins := rfl
@[simp] theorem sset_epc (p : Spindle) (n : Nat) (x : Word) : (sset p n x).epc = p.epc := rfl
@[simp] theorem sset_enest (p : Spindle) (n : Nat) (x : Word) : (sset p n x).enest = p.enest := rfl
@[simp] theorem sset_epcW (p : Spindle) (n : Nat) (x : Word) : (sset p n x).epcW = p.epcW := rfl
@[simp] theorem sset_tlv (p : Spindle) (n : Nat) (x : Word) : (sset p n x).tlv = p.tlv := rfl
@[simp] theorem sset_hfrag (p : Spindle) (n : Nat) (x : Word) : (sset p n x).hfrag = p.hfrag := rfl
@[simp] theorem sset_sav (p : Spindle) (n : Nat) (x : Word) : (sset p n x).sav = p.sav := rfl
@[simp] theorem sset_trec (p : Spindle) (n : Nat) (x : Word) : (sset p n x).trec = p.trec := rfl
@[simp] theorem sset_stats (p : Spindle) (n : Nat) (x : Word) : (sset p n x).stats = p.stats := rfl
@[simp] theorem sset_latchA (p : Spindle) (n : Nat) (x : Word) : (sset p n x).latchA = p.latchA := rfl
@[simp] theorem sset_latchB (p : Spindle) (n : Nat) (x : Word) : (sset p n x).latchB = p.latchB := rfl
@[simp] theorem sset_held (p : Spindle) (n : Nat) (x : Word) : (sset p n x).held = p.held := rfl
@[simp] theorem sset_pend (p : Spindle) (n : Nat) (x : Word) : (sset p n x).pend = p.pend := rfl
@[simp] theorem sset_torn (p : Spindle) (n : Nat) (x : Word) : (sset p n x).torn = p.torn := rfl
@[simp] theorem sset_traps (p : Spindle) (n : Nat) (x : Word) : (sset p n x).traps = p.traps := rfl
@[simp] theorem sset_gseq (p : Spindle) (n : Nat) (x : Word) : (sset p n x).gseq = p.gseq := rfl
@[simp] theorem sset_st (p : Spindle) (n : Nat) (x : Word) : (sset p n x).st = p.st := rfl
@[simp] theorem sset_halted (p : Spindle) (n : Nat) (x : Word) : (sset p n x).halted = p.halted := rfl
@[simp] theorem sset_stepFrag (p : Spindle) (n : Nat) (x : Word) : (sset p n x).stepFrag = p.stepFrag := rfl
@[simp] theorem sset_stepWaits (p : Spindle) (n : Nat) (x : Word) : (sset p n x).stepWaits = p.stepWaits := rfl
@[simp] theorem sset_rets (p : Spindle) (n : Nat) (x : Word) : (sset p n x).rets = p.rets := rfl
@[simp] theorem sset_rsReq (p : Spindle) (n : Nat) (x : Word) : (sset p n x).rsReq = p.rsReq := rfl
@[simp] theorem sset_retired (p : Spindle) (n : Nat) (x : Word) : (sset p n x).retired = p.retired := rfl

/-! ## pset -/

@[simp] theorem pset_spx (p : Spindle) (n t : Nat) (b : Bool) : (pset p n t b).spx = p.spx := rfl
@[simp] theorem pset_role (p : Spindle) (n t : Nat) (b : Bool) : (pset p n t b).role = p.role := rfl
@[simp] theorem pset_rlx (p : Spindle) (n t : Nat) (b : Bool) : (pset p n t b).rlx = p.rlx := rfl
@[simp] theorem pset_allot (p : Spindle) (n t : Nat) (b : Bool) : (pset p n t b).allot = p.allot := rfl
@[simp] theorem pset_cls (p : Spindle) (n t : Nat) (b : Bool) : (pset p n t b).cls = p.cls := rfl
@[simp] theorem pset_entv (p : Spindle) (n t : Nat) (b : Bool) : (pset p n t b).entv = p.entv := rfl
@[simp] theorem pset_gmap (p : Spindle) (n t : Nat) (b : Bool) : (pset p n t b).gmap = p.gmap := rfl
@[simp] theorem pset_live (p : Spindle) (n t : Nat) (b : Bool) : (pset p n t b).live = p.live := rfl
@[simp] theorem pset_v (p : Spindle) (n t : Nat) (b : Bool) : (pset p n t b).v = p.v := rfl
@[simp] theorem pset_s (p : Spindle) (n t : Nat) (b : Bool) : (pset p n t b).s = p.s := rfl
@[simp] theorem pset_badV (p : Spindle) (n t : Nat) (b : Bool) : (pset p n t b).badV = p.badV := rfl
@[simp] theorem pset_nest (p : Spindle) (n t : Nat) (b : Bool) : (pset p n t b).nest = p.nest := rfl
@[simp] theorem pset_gen (p : Spindle) (n t : Nat) (b : Bool) : (pset p n t b).gen = p.gen := rfl
@[simp] theorem pset_mode (p : Spindle) (n t : Nat) (b : Bool) : (pset p n t b).mode = p.mode := rfl
@[simp] theorem pset_ctr (p : Spindle) (n t : Nat) (b : Bool) : (pset p n t b).ctr = p.ctr := rfl
@[simp] theorem pset_frags (p : Spindle) (n t : Nat) (b : Bool) : (pset p n t b).frags = p.frags := rfl
@[simp] theorem pset_joins (p : Spindle) (n t : Nat) (b : Bool) : (pset p n t b).joins = p.joins := rfl
@[simp] theorem pset_epc (p : Spindle) (n t : Nat) (b : Bool) : (pset p n t b).epc = p.epc := rfl
@[simp] theorem pset_enest (p : Spindle) (n t : Nat) (b : Bool) : (pset p n t b).enest = p.enest := rfl
@[simp] theorem pset_epcW (p : Spindle) (n t : Nat) (b : Bool) : (pset p n t b).epcW = p.epcW := rfl
@[simp] theorem pset_tlv (p : Spindle) (n t : Nat) (b : Bool) : (pset p n t b).tlv = p.tlv := rfl
@[simp] theorem pset_hfrag (p : Spindle) (n t : Nat) (b : Bool) : (pset p n t b).hfrag = p.hfrag := rfl
@[simp] theorem pset_sav (p : Spindle) (n t : Nat) (b : Bool) : (pset p n t b).sav = p.sav := rfl
@[simp] theorem pset_trec (p : Spindle) (n t : Nat) (b : Bool) : (pset p n t b).trec = p.trec := rfl
@[simp] theorem pset_stats (p : Spindle) (n t : Nat) (b : Bool) : (pset p n t b).stats = p.stats := rfl
@[simp] theorem pset_latchA (p : Spindle) (n t : Nat) (b : Bool) : (pset p n t b).latchA = p.latchA := rfl
@[simp] theorem pset_latchB (p : Spindle) (n t : Nat) (b : Bool) : (pset p n t b).latchB = p.latchB := rfl
@[simp] theorem pset_held (p : Spindle) (n t : Nat) (b : Bool) : (pset p n t b).held = p.held := rfl
@[simp] theorem pset_pend (p : Spindle) (n t : Nat) (b : Bool) : (pset p n t b).pend = p.pend := rfl
@[simp] theorem pset_torn (p : Spindle) (n t : Nat) (b : Bool) : (pset p n t b).torn = p.torn := rfl
@[simp] theorem pset_traps (p : Spindle) (n t : Nat) (b : Bool) : (pset p n t b).traps = p.traps := rfl
@[simp] theorem pset_gseq (p : Spindle) (n t : Nat) (b : Bool) : (pset p n t b).gseq = p.gseq := rfl
@[simp] theorem pset_st (p : Spindle) (n t : Nat) (b : Bool) : (pset p n t b).st = p.st := rfl
@[simp] theorem pset_halted (p : Spindle) (n t : Nat) (b : Bool) : (pset p n t b).halted = p.halted := rfl
@[simp] theorem pset_stepFrag (p : Spindle) (n t : Nat) (b : Bool) : (pset p n t b).stepFrag = p.stepFrag := rfl
@[simp] theorem pset_stepWaits (p : Spindle) (n t : Nat) (b : Bool) : (pset p n t b).stepWaits = p.stepWaits := rfl
@[simp] theorem pset_rets (p : Spindle) (n t : Nat) (b : Bool) : (pset p n t b).rets = p.rets := rfl
@[simp] theorem pset_rsReq (p : Spindle) (n t : Nat) (b : Bool) : (pset p n t b).rsReq = p.rsReq := rfl
@[simp] theorem pset_retired (p : Spindle) (n t : Nat) (b : Bool) : (pset p n t b).retired = p.retired := rfl

/-! ## vset -/

@[simp] theorem vset_spx (p : Spindle) (n t : Nat) (x : Word) : (vset p n t x).spx = p.spx := rfl
@[simp] theorem vset_role (p : Spindle) (n t : Nat) (x : Word) : (vset p n t x).role = p.role := rfl
@[simp] theorem vset_rlx (p : Spindle) (n t : Nat) (x : Word) : (vset p n t x).rlx = p.rlx := rfl
@[simp] theorem vset_allot (p : Spindle) (n t : Nat) (x : Word) : (vset p n t x).allot = p.allot := rfl
@[simp] theorem vset_cls (p : Spindle) (n t : Nat) (x : Word) : (vset p n t x).cls = p.cls := rfl
@[simp] theorem vset_entv (p : Spindle) (n t : Nat) (x : Word) : (vset p n t x).entv = p.entv := rfl
@[simp] theorem vset_gmap (p : Spindle) (n t : Nat) (x : Word) : (vset p n t x).gmap = p.gmap := rfl
@[simp] theorem vset_live (p : Spindle) (n t : Nat) (x : Word) : (vset p n t x).live = p.live := rfl
@[simp] theorem vset_p (p : Spindle) (n t : Nat) (x : Word) : (vset p n t x).p = p.p := rfl
@[simp] theorem vset_nest (p : Spindle) (n t : Nat) (x : Word) : (vset p n t x).nest = p.nest := rfl
@[simp] theorem vset_gen (p : Spindle) (n t : Nat) (x : Word) : (vset p n t x).gen = p.gen := rfl
@[simp] theorem vset_mode (p : Spindle) (n t : Nat) (x : Word) : (vset p n t x).mode = p.mode := rfl
@[simp] theorem vset_ctr (p : Spindle) (n t : Nat) (x : Word) : (vset p n t x).ctr = p.ctr := rfl
@[simp] theorem vset_frags (p : Spindle) (n t : Nat) (x : Word) : (vset p n t x).frags = p.frags := rfl
@[simp] theorem vset_joins (p : Spindle) (n t : Nat) (x : Word) : (vset p n t x).joins = p.joins := rfl
@[simp] theorem vset_epc (p : Spindle) (n t : Nat) (x : Word) : (vset p n t x).epc = p.epc := rfl
@[simp] theorem vset_enest (p : Spindle) (n t : Nat) (x : Word) : (vset p n t x).enest = p.enest := rfl
@[simp] theorem vset_epcW (p : Spindle) (n t : Nat) (x : Word) : (vset p n t x).epcW = p.epcW := rfl
@[simp] theorem vset_tlv (p : Spindle) (n t : Nat) (x : Word) : (vset p n t x).tlv = p.tlv := rfl
@[simp] theorem vset_hfrag (p : Spindle) (n t : Nat) (x : Word) : (vset p n t x).hfrag = p.hfrag := rfl
@[simp] theorem vset_sav (p : Spindle) (n t : Nat) (x : Word) : (vset p n t x).sav = p.sav := rfl
@[simp] theorem vset_trec (p : Spindle) (n t : Nat) (x : Word) : (vset p n t x).trec = p.trec := rfl
@[simp] theorem vset_stats (p : Spindle) (n t : Nat) (x : Word) : (vset p n t x).stats = p.stats := rfl
@[simp] theorem vset_pend (p : Spindle) (n t : Nat) (x : Word) : (vset p n t x).pend = p.pend := rfl
@[simp] theorem vset_torn (p : Spindle) (n t : Nat) (x : Word) : (vset p n t x).torn = p.torn := rfl
@[simp] theorem vset_traps (p : Spindle) (n t : Nat) (x : Word) : (vset p n t x).traps = p.traps := rfl
@[simp] theorem vset_gseq (p : Spindle) (n t : Nat) (x : Word) : (vset p n t x).gseq = p.gseq := rfl
@[simp] theorem vset_st (p : Spindle) (n t : Nat) (x : Word) : (vset p n t x).st = p.st := rfl
@[simp] theorem vset_halted (p : Spindle) (n t : Nat) (x : Word) : (vset p n t x).halted = p.halted := rfl
@[simp] theorem vset_stepFrag (p : Spindle) (n t : Nat) (x : Word) : (vset p n t x).stepFrag = p.stepFrag := rfl
@[simp] theorem vset_stepWaits (p : Spindle) (n t : Nat) (x : Word) : (vset p n t x).stepWaits = p.stepWaits := rfl
@[simp] theorem vset_rets (p : Spindle) (n t : Nat) (x : Word) : (vset p n t x).rets = p.rets := rfl
@[simp] theorem vset_rsReq (p : Spindle) (n t : Nat) (x : Word) : (vset p n t x).rsReq = p.rsReq := rfl
@[simp] theorem vset_retired (p : Spindle) (n t : Nat) (x : Word) : (vset p n t x).retired = p.retired := rfl

/-! ## spindle_updFrag -/

@[simp] theorem spindle_updFrag_spx (p : Spindle) (i : Nat) (f : Frag → Frag) : (p.updFrag i f).spx = p.spx := rfl
@[simp] theorem spindle_updFrag_role (p : Spindle) (i : Nat) (f : Frag → Frag) : (p.updFrag i f).role = p.role := rfl
@[simp] theorem spindle_updFrag_rlx (p : Spindle) (i : Nat) (f : Frag → Frag) : (p.updFrag i f).rlx = p.rlx := rfl
@[simp] theorem spindle_updFrag_allot (p : Spindle) (i : Nat) (f : Frag → Frag) : (p.updFrag i f).allot = p.allot := rfl
@[simp] theorem spindle_updFrag_cls (p : Spindle) (i : Nat) (f : Frag → Frag) : (p.updFrag i f).cls = p.cls := rfl
@[simp] theorem spindle_updFrag_entv (p : Spindle) (i : Nat) (f : Frag → Frag) : (p.updFrag i f).entv = p.entv := rfl
@[simp] theorem spindle_updFrag_gmap (p : Spindle) (i : Nat) (f : Frag → Frag) : (p.updFrag i f).gmap = p.gmap := rfl
@[simp] theorem spindle_updFrag_live (p : Spindle) (i : Nat) (f : Frag → Frag) : (p.updFrag i f).live = p.live := rfl
@[simp] theorem spindle_updFrag_v (p : Spindle) (i : Nat) (f : Frag → Frag) : (p.updFrag i f).v = p.v := rfl
@[simp] theorem spindle_updFrag_s (p : Spindle) (i : Nat) (f : Frag → Frag) : (p.updFrag i f).s = p.s := rfl
@[simp] theorem spindle_updFrag_p (p : Spindle) (i : Nat) (f : Frag → Frag) : (p.updFrag i f).p = p.p := rfl
@[simp] theorem spindle_updFrag_badV (p : Spindle) (i : Nat) (f : Frag → Frag) : (p.updFrag i f).badV = p.badV := rfl
@[simp] theorem spindle_updFrag_nest (p : Spindle) (i : Nat) (f : Frag → Frag) : (p.updFrag i f).nest = p.nest := rfl
@[simp] theorem spindle_updFrag_gen (p : Spindle) (i : Nat) (f : Frag → Frag) : (p.updFrag i f).gen = p.gen := rfl
@[simp] theorem spindle_updFrag_mode (p : Spindle) (i : Nat) (f : Frag → Frag) : (p.updFrag i f).mode = p.mode := rfl
@[simp] theorem spindle_updFrag_ctr (p : Spindle) (i : Nat) (f : Frag → Frag) : (p.updFrag i f).ctr = p.ctr := rfl
@[simp] theorem spindle_updFrag_joins (p : Spindle) (i : Nat) (f : Frag → Frag) : (p.updFrag i f).joins = p.joins := rfl
@[simp] theorem spindle_updFrag_epc (p : Spindle) (i : Nat) (f : Frag → Frag) : (p.updFrag i f).epc = p.epc := rfl
@[simp] theorem spindle_updFrag_enest (p : Spindle) (i : Nat) (f : Frag → Frag) : (p.updFrag i f).enest = p.enest := rfl
@[simp] theorem spindle_updFrag_epcW (p : Spindle) (i : Nat) (f : Frag → Frag) : (p.updFrag i f).epcW = p.epcW := rfl
@[simp] theorem spindle_updFrag_tlv (p : Spindle) (i : Nat) (f : Frag → Frag) : (p.updFrag i f).tlv = p.tlv := rfl
@[simp] theorem spindle_updFrag_hfrag (p : Spindle) (i : Nat) (f : Frag → Frag) : (p.updFrag i f).hfrag = p.hfrag := rfl
@[simp] theorem spindle_updFrag_sav (p : Spindle) (i : Nat) (f : Frag → Frag) : (p.updFrag i f).sav = p.sav := rfl
@[simp] theorem spindle_updFrag_trec (p : Spindle) (i : Nat) (f : Frag → Frag) : (p.updFrag i f).trec = p.trec := rfl
@[simp] theorem spindle_updFrag_stats (p : Spindle) (i : Nat) (f : Frag → Frag) : (p.updFrag i f).stats = p.stats := rfl
@[simp] theorem spindle_updFrag_latchA (p : Spindle) (i : Nat) (f : Frag → Frag) : (p.updFrag i f).latchA = p.latchA := rfl
@[simp] theorem spindle_updFrag_latchB (p : Spindle) (i : Nat) (f : Frag → Frag) : (p.updFrag i f).latchB = p.latchB := rfl
@[simp] theorem spindle_updFrag_held (p : Spindle) (i : Nat) (f : Frag → Frag) : (p.updFrag i f).held = p.held := rfl
@[simp] theorem spindle_updFrag_pend (p : Spindle) (i : Nat) (f : Frag → Frag) : (p.updFrag i f).pend = p.pend := rfl
@[simp] theorem spindle_updFrag_torn (p : Spindle) (i : Nat) (f : Frag → Frag) : (p.updFrag i f).torn = p.torn := rfl
@[simp] theorem spindle_updFrag_traps (p : Spindle) (i : Nat) (f : Frag → Frag) : (p.updFrag i f).traps = p.traps := rfl
@[simp] theorem spindle_updFrag_gseq (p : Spindle) (i : Nat) (f : Frag → Frag) : (p.updFrag i f).gseq = p.gseq := rfl
@[simp] theorem spindle_updFrag_st (p : Spindle) (i : Nat) (f : Frag → Frag) : (p.updFrag i f).st = p.st := rfl
@[simp] theorem spindle_updFrag_halted (p : Spindle) (i : Nat) (f : Frag → Frag) : (p.updFrag i f).halted = p.halted := rfl
@[simp] theorem spindle_updFrag_stepFrag (p : Spindle) (i : Nat) (f : Frag → Frag) : (p.updFrag i f).stepFrag = p.stepFrag := rfl
@[simp] theorem spindle_updFrag_stepWaits (p : Spindle) (i : Nat) (f : Frag → Frag) : (p.updFrag i f).stepWaits = p.stepWaits := rfl
@[simp] theorem spindle_updFrag_rets (p : Spindle) (i : Nat) (f : Frag → Frag) : (p.updFrag i f).rets = p.rets := rfl
@[simp] theorem spindle_updFrag_rsReq (p : Spindle) (i : Nat) (f : Frag → Frag) : (p.updFrag i f).rsReq = p.rsReq := rfl
@[simp] theorem spindle_updFrag_retired (p : Spindle) (i : Nat) (f : Frag → Frag) : (p.updFrag i f).retired = p.retired := rfl

end Sys2Proof.Machine
end

