-- ==== Sys2Proof/Tests/Slice0.lean ====
section
/-! SUPPORT. Sys2Proof/Tests/Slice0.lean: tests. Words written out from the encoding tables decode and encode, ill-formed ones are
refused; `witness_…` theorems show, for the statements of Certificates/Slice0, states and operands that meet their hypotheses
together, clause by clause; `test_…` theorems compare results with values worked out by hand from the rules. -/

open Sys2Proof Sys2Proof.Machine

/-! ## Helpers -/

namespace T

/-- A Jolisol word whose guard is always and whose small fields are 0. -/
def jw (min : BitVec 8) (d a b : BitVec 10) (mod : BitVec 32) : JWord :=
  { min := min, d := d, a := a, b := b, grd := 63, gneg := false, la := 0, hlda := false, hldb := false, uni := false, rnd := 0, mod := mod }
def lw (flags : BitVec 6) (slot : BitVec 8) (key : BitVec 12) (mask : BitVec 32) : LWord := { flags := flags, slot := slot, key := key, mask := mask }

/-! ## Words of the encoding tables (R46, R64, R366, R420) -/

/-- Each word was put together from the fields of Table 2-1 and of its class chapter. -/
def words : List (IWord × Instr) := [
  -- bra -24, taken by p3's threads negated
  ((0x0100D2348D203800FFFFFFE8 : IWord), (.bra { jw 0 0x348 0x348 0x348 0xFFFFFFE8 with grd := 3, gneg := true } : Instr)),
  -- exit
  ((0x0700D2348D23F00000000000 : IWord), (.exitI (jw 0 0x348 0x348 0x348 0) : Instr)),
  -- iadd.s32 v3, v1, v2
  ((0x100100C0100BF000D2348FC0 : IWord), (.iadd (jw 1 3 1 2 0xD2348FC0) : Instr)),
  -- icmp.s32.lt p4, v3, 100
  ((0x2B8121003D2BF00000000064 : IWord), (.icmp (jw 0x81 0x084 3 0x34A 100) : Instr)),
  -- ballot v5, p2
  ((0x350001402D23F00000000000 : IWord), (.ballot (jw 0 5 2 0x348 0) : Instr)),
  -- cvt.bf16.f32 v5, v4
  ((0x380801404D23F000D2348FC0 : IWord), (.cvt (jw 8 5 4 0x348 0xD2348FC0) : Instr)),
  -- rcp.f32 v6, v7, two more may issue
  ((0x500001807D23F100D2348FC0 : IWord), (.rcp { jw 0 6 7 0x348 0xD2348FC0 with la := 2 } : Instr)),
  -- atom.add.32 v2, [v4], v6: scope package, order both
  ((0x70020080401BF0009E900000 : IWord), (.atomAdd (jw 2 2 4 6 0x9E900000) : Instr)),
  -- bar.t of barrier 3 by eight spindles
  ((0x7300D2348D23F00000000083 : IWord), (.barT (jw 0 0x348 0x348 0x348 0x83) : Instr)),
  -- tcopy of the view in s8 to the tile in s12
  ((0x8000D2308C33F00006900000 : IWord), (.tcopy (jw 0 0x348 0x308 0x30C 0x06900000) : Instr)),
  -- accz of tile 1
  ((0x8B00D2348D23F00000004000 : IWord), (.accz (jw 0 0x348 0x348 0x348 0x4000) : Instr)),
  -- tfetch s16
  ((0x9000C4348D23F00000000000 : IWord), (.tfetch (jw 0 0x310 0x348 0x348 0) : Instr)),
  -- coll s5, s6
  ((0x9800C1706D23F00000000000 : IWord), (.coll (jw 0 0x305 0x306 0x348 0) : Instr)),
  -- rdsys v8 of 0x30, the timestamp
  ((0xA20002348D23F00000000030 : IWord), (.rdsys (jw 0 8 0x348 0x348 0x30) : Instr))
]

theorem test_decode_words : (words.all fun e => decide (decodeJolisol e.1 = .ok e.2)) = true := by decide
theorem test_encode_words : (words.all fun e => decide (encodeJolisol e.2 = some e.1)) = true := by decide

def luanilWords : List (BitVec 64 × Instr) := [
  -- MATCH of key 5, sources 0 and 1
  ((0x0400000500000003 : BitVec 64), (.matchL (lw 0 0 5 3) : Instr)),
  -- CMB from key register 2 into slot 1
  ((0x0A00100200000003 : BitVec 64), (.cmb (lw 0x20 1 2 3) : Instr)),
  -- FWD to the members' memory, slot 1
  ((0x0C80100700000001 : BitVec 64), (.fwdMem (lw 8 1 7 1) : Instr)),
  -- SETC c3
  ((0x4030000000000064 : BitVec 64), (.setc (lw 3 0 0 100) : Instr))
]

theorem test_decode_luanil : (luanilWords.all fun e => decide (decodeLuanil e.1 = .ok e.2)) = true := by decide

/-- BO_SIGNAL of increment 1 and status 2, ATOMIC_MEM CAS of 64 bits with SYNC, LOOP_BEGIN of 5 passes (Table 15-3). -/
theorem test_decode_packets :
    decodePacket [0x0D005000, 0x1000, 0, 1, 2] = .ok (.boSignal { flags := 0, body := [0x1000, 0, 1, 2] }) ∧
    decodePacket [0x05007141, 0x2000, 0, 7, 0, 9, 0] = .ok (.atomicMemCas { flags := 0x141, body := [0x2000, 0, 7, 0, 9, 0] }) ∧
    decodePacket [0x09002000, 5] = .ok (.loopBegin { flags := 0, body := [5] }) := by decide

/-! ## Every check refuses an ill-formed word (Table 2-9 steps 1 to 3, R367, Table 15-4) -/

def badWords : List (IWord × Illegal) := [
  -- MAJ 0x0A is reserved
  (0x0A00D2348D23F00000000000, .instruction),
  -- IADD of type 7
  (0x100700C0100BF000D2348FC0, .instruction),
  -- GRD 50
  (0x100100C0100B2000D2348FC0, .instruction),
  -- GRD 63 negated
  (0x100100C0100BF800D2348FC0, .instruction),
  -- a guard on ENDIF
  (0x0502D2348D20300000000000, .instruction),
  -- RND 7
  (0x400000C0100BF007D2348FC0, .instruction),
  -- RND 1 on IADD
  (0x100100C0100BF001D2348FC0, .instruction),
  -- LA 1 on the short IADD
  (0x100100C0100BF080D2348FC0, .instruction),
  -- UNI on BALLOT
  (0x3500C1402D23F01000000000, .instruction),
  -- B of INEG holds v2
  (0x1A0100C0100BF000D2348FC0, .instruction),
  -- comparison 6 of ICMP
  (0x2B016100300BF000D2348FC0, .instruction),
  -- a predicate source above 0x7F
  (0x30000048000BF00000000000, .instruction),
  -- condition 0x7F of IF
  (0x05001FF48D23F00000000000, .instruction),
  -- bits [9:6] of P2V's first predicate
  (0x340001440D23F00000000001, .instruction),
  -- depth 62 of BREAK
  (0x06010FC3ED23F00000000000, .instruction),
  -- UNI with a v register
  (0x1001C0C01C0BF010D2348FC0, .instruction),
  -- HLDA on an s register
  (0x100100F0100BF040D2348FC0, .instruction),
  -- K[1] of IADD
  (0x100100C0100BF000D2348FC2, .instruction),
  -- scope 6 of LD
  (0x60020A014D23F100C8000000, .instruction),
  -- order 2 of LD
  (0x60020A014D23F10090000000, .instruction),
  -- cache policy 4 of LD
  (0x60020A014D23F00004000000, .instruction),
  -- REL of TFETCH
  (0x9000C4348D23F00010000000, .instruction),
  -- ACQ of TRETIRE
  (0x9100D2310D23F00008000000, .instruction),
  -- barrier 16 of BAR.T, scope without order
  (0x7300D2348D23F00020000000, .instruction),
  -- SLEEP's MOD above 20 bits
  (0x0901D2348D23F00000100000, .instruction),
  -- D names a load stream
  (0x1001D000100BF000D2348FC0, .operand),
  -- a reserved operand
  (0x100100F4B00BF000D2348FC0, .operand),
  -- the immediate in a register form
  (0x100100C01D2BF000D2348FC0, .operand),
  -- v3 of a 64-bit AND
  (0x1B0600C0401BF000D2348FC0, .operand),
  -- predicate 48 as a destination
  (0x2B010C00300BF000D2348FC0, .operand),
  -- predicate 50 as a source
  (0x30000043200BF00000000000, .operand),
  -- auxiliary predicate 50
  (0x2C0000C0100BF000D2348C80, .operand),
  -- UNI with tix
  (0x1001C0F49C0BF010D2348FC0, .operand)
]

theorem test_refused_words : (badWords.all fun e => decide (decodeJolisol e.1 = .error e.2)) = true := by decide

def badLuanil : List (BitVec 64) := [
  -- OP 0
  0x0000000000000000,
  -- OP 0x14
  0x5000000000000000,
  -- FLAGS of NOP
  0x4C10000000000000,
  -- SLOT of JMP
  0x4800100000000000,
  -- KEY of NOP
  0x4C00000100000000,
  -- MASK of ENDL
  0x2C00000000000001,
  -- slot 8 of CHK
  0x2000800000000000,
  -- an empty mask of MATCH
  0x0400000500000000,
  -- KR with KEY above 7
  0x0600000800000001,
  -- two sources of FILL
  0x1900100000000003
]

theorem test_refused_luanil : (badLuanil.all fun x => decide (decodeLuanil x = .error .luanil)) = true := by decide

/-- Type 0x13; a length that is not the words'; flag 4 of WRITE32; OP 6; AOP 5; status 5; reserved bits; an empty list. -/
theorem test_refused_packets :
    decodePacket [0x13001000] = .error (.packet 1) ∧ decodePacket [0x02003000, 0, 0, 0] = .error (.packet 2) ∧
    decodePacket [0x02004010, 0, 0, 0] = .error (.packet 2) ∧ decodePacket [0x04007060, 0, 0, 0, 0, 0, 0] = .error (.packet 2) ∧
    decodePacket [0x05007050, 0, 0, 0, 0, 0, 0] = .error (.packet 2) ∧ decodePacket [0x0D005000, 0, 0, 1, 5] = .error (.packet 2) ∧
    decodePacket [0x0C004000, 0, 0, 0x400] = .error (.packet 2) ∧ decodePacket [] = .error (.packet 2) := by decide

/-- The same for the instructions as terms: WellFormed refuses a guard of 50, an odd 64-bit register, a slot of 8, a short packet. -/
theorem test_ill_formed : ¬WellFormed (.iadd { jw 1 3 1 2 0xD2348FC0 with grd := 50 }) ∧ ¬WellFormed (.andI (jw 6 3 4 6 0xD2348FC0)) ∧
    ¬WellFormed (.chk (lw 0 8 0 0)) ∧ ¬WellFormed (.write32 { flags := 0, body := [0, 0] }) := by decide


/-! ## Witnesses: every Jolisol form issues (the hypotheses of the statements about `Issues`) -/

/-- The package with every function brought up (R479). -/
def up : State := { State.reset with ready := 0xFFFF }

/-- A spindle at the issue of a word, as `withFetchWord` places it, after `adj`. -/
def atWord (adj : State → State) (n : Nat) : State :=
  adj { takeTurn (State.reset.withFetchWord 96 n) with cur := .frag placedRef (BitVec.ofNat 96 n) }

/-- The word decodes, passes every check of its issue, and what it finds satisfies `P`. -/
def issues (adj : State → State) (n : Nat) (k : IssCls) (P : Iss → Bool) : Bool :=
  match decodeJolisol (BitVec.ofNat 96 n) with
  | .ok i => match prologue i k (atWord adj n) with | .go x => P x | _ => false
  | .error _ => false

/-- What a true `issues` shows: states and operands that meet a statement's hypotheses together. -/
theorem issues_witness {adj n k P} (h : issues adj n k P = true) :
    ∃ i s x, decodeJolisol (BitVec.ofNat 96 n) = .ok i ∧ Issues i k s x ∧ P x = true := by
  unfold issues at h
  split at h
  · rename_i i hi
    refine ⟨i, atWord adj n, ?_⟩
    split at h
    · rename_i x hx
      exact ⟨x, hi, hx, h⟩
    · cases h
  · cases h

def tm (f : Team → Team) (s : State) : State := { s with teams := s.teams.map f }
def sp (f : Spindle → Spindle) : State → State := tm fun t => { t with spindles := t.spindles.map f }
/-- A team of a firmware core (R19). -/
def atFw : State → State := tm fun t => { t with core := 64 }


set_option maxRecDepth 100000 in
/-- bra, brd, jmps, call, calls, ret, ifI, elseI, endif, loopI, breakI, contI, endloop, exitI, rfl, getid, nop, sleep. -/
theorem witness_issues_0 : ([
    0x0100D2348D23F00000000000, 0x020000000003F00000000000, 0x0300D2020D23F00000000000, 0x0400C4348D23F00000000000, 0x0401C4020D23F00000000000,
    0x0402D2020D23F00000000000, 0x05000FF48D23F00000000000, 0x0501D2348D23F00000000000, 0x0502D2348D23F00000000000, 0x0600D2348D23F00000000000,
    0x06010FC00D23F00000000000, 0x06020FC00D23F00000000000, 0x0603D2348D23F00000000000, 0x0700D2348D23F00000000000, 0x0800C4020D23F00000000000,
    0x080104348D23F00000000000, 0x0900D2348D23F00000000000, 0x0901D2348D23F00000000000] : List Nat).all (fun n => issues id n ctlCls fun x => x.tp == 0xFF) = true := by decide

set_option maxRecDepth 100000 in
/-- iadd, isub, iaddx, imul, imulhi, imad, imadw, imin, imax, iabs, ineg, andI, orI, xorI, andn, notI, shl, shr, sar, rot. -/
theorem witness_issues_1 : ([
    0x1080040200C3F00000000000, 0x1180040200C3F00000000000, 0x1200040200C3F000D2348FC0, 0x1380040200C3F00000000000, 0x1480040200C3F00000000000,
    0x1500040200C3F000D2348FC0, 0x1600040200C3F000D2348FC0, 0x1780040200C3F00000000000, 0x1880040200C3F00000000000, 0x190104020D23F000D2348FC0,
    0x1A0104020D23F000D2348FC0, 0x1B80040200C3F00000000000, 0x1C80040200C3F00000000000, 0x1D80040200C3F00000000000, 0x1E80040200C3F00000000000,
    0x1F0004020D23F000D2348FC0, 0x2080040200C3F00000000000, 0x2180040200C3F00000000000, 0x2281040200C3F00000000000, 0x2380040200C3F00000000000] : List Nat).all (fun n => issues id n {} fun x => x.tp == 0xFF) = true := by decide

set_option maxRecDepth 100000 in
/-- fshf, bfe, bfi, brev, clz, ffs, popc, icmp, sel, mov, movi, lea, idot4, pand, por, pxor, pnot, p2v, v2p, ballot. -/
theorem witness_issues_2 : ([
    0x2400040200C3F000D2348FC0, 0x2580040200C3F00000000000, 0x2600040200C3F000D2348FC0, 0x270004020D23F000D2348FC0, 0x280004020D23F000D2348FC0,
    0x290004020D23F000D2348FC0, 0x2A0004020D23F000D2348FC0, 0x2B80004200C3F00000000000, 0x2C00040200C3F000D2348FC0, 0x2D0004020D23F000D2348FC0,
    0x2D800434AD23F00000000000, 0x2E80040200C3F00000000000, 0x2F04040200C3F000D2348FC0, 0x30000040200BF00000000000, 0x31000040200BF00000000000,
    0x32000040200BF00000000000, 0x330000402D23F00000000000, 0x340004000D23F00000000000, 0x340100020D23F00000000000, 0x350004002D23F00000000000] : List Nat).all (fun n => issues id n {} fun x => x.tp == 0xFF) = true := by decide

set_option maxRecDepth 100000 in
/-- voteAll, voteAny, voteSame, pickAt, pickBelow, pickAbove, pickFlip, gballotPopc, gballotAny, gballotAll, gballotPfx, gballotMask, gpickAt, gpickBelow, gpickAbove, gpickFlip, cvt, cvti, cvtf, cvtpk. -/
theorem witness_issues_3 : ([
    0x350100402D23F00000000000, 0x350200402D23F00000000000, 0x350300402D23F00000000000, 0x3680040200C3F00000000000, 0x3681040200C3F00000000000,
    0x3682040200C3F00000000000, 0x3683040200C3F00000000000, 0x370004002D23F00000000000, 0x370100402D23F00000000000, 0x370200402D23F00000000000,
    0x370304002D23F00000000000, 0x370404002D23F00000000000, 0x3790040200C3F00000000000, 0x3791040200C3F00000000000, 0x3792040200C3F00000000000,
    0x3793040200C3F00000000000, 0x380104020D23F000D2348FC0, 0x392804020D23F000D2348FC0, 0x3A0504020D23F000D2348FC0, 0x3B0104020D23F000D2348FC0] : List Nat).all (fun n => issues id n {} fun x => x.tp == 0xFF) = true := by decide

set_option maxRecDepth 100000 in
/-- cvtup, fscale, fadd, fsub, fmul, ffma, fmin, fmax, fcmp, fclass, pkadd, pkmul, pkfma, rcp, sqrt, rsq, exp2, log2, sin, cos. -/
theorem witness_issues_4 : ([
    0x3C0104020D23F000D2348FC0, 0x3D80040200C3F00000000000, 0x4080040200C3F00000000000, 0x4180040200C3F00000000000, 0x4280040200C3F00000000000,
    0x4300040200C3F000D2348FC0, 0x4480040200C3F00000000000, 0x4580040200C3F00000000000, 0x4680004200C3F00000000000, 0x470004020D23F000D2348FC0,
    0x4880040200C3F00000000000, 0x4980040200C3F00000000000, 0x4A00040200C3F000D2348FC0, 0x500004020D23F000D2348FC0, 0x520004020D23F000D2348FC0,
    0x510004020D23F000D2348FC0, 0x530004020D23F000D2348FC0, 0x540004020D23F000D2348FC0, 0x550004020D23F000D2348FC0, 0x560004020D23F000D2348FC0] : List Nat).all (fun n => issues id n {} fun x => x.tp == 0xFF) = true := by decide

set_option maxRecDepth 100000 in
/-- tanh, fsum, fmaxr, qcfg, qcfgFree. -/
theorem witness_issues_5 : ([
    0x570004020D23F000D2348FC0, 0x580004020D23F000D2348FC0, 0x590004020D23F000D2348FC0, 0x6900D2320CC3F00000000000, 0x6901D2348D23F00000000000] : List Nat).all (fun n => issues id n {} fun x => x.tp == 0xFF) = true := by decide

set_option maxRecDepth 100000 in
/-- getmode, getmodeGen, setmode, setmodeImm, setmodeGen. -/
theorem witness_issues_6 : ([
    0x3E0004348D23F000D2348FC0, 0x3E0004348D23F000D2348FC1, 0x3E01D2320CC3F000D2348FC0, 0x3E81D234AD23F00000000000, 0x3E01D2020D23F000D2348FC1] : List Nat).all (fun n => issues id n ({ modeSerial := true }) fun x => x.tp == 0xFF) = true := by decide

set_option maxRecDepth 100000 in
/-- ld, st, ldl, stl, ldc, stc, pref, discard, cctlWb, cctlInv, cctlIinv, cctlInvrs, cctlWball, qstatPos, qstatLeft, qstatStat, atomAdd, atomMin, atomMax, atomAnd. -/
theorem witness_issues_7 : ([
    0x600004020D23F00000000000, 0x6100D20200C3F00000000000, 0x620004020D23F00000000000, 0x6300D20200C3F00000000000, 0x640004020D23F00000000000,
    0x6500D20200C3F00000000000, 0x6600D2020D23F00000000000, 0x6700D20200C3F00000000000, 0x6800D2020D23F00000000000, 0x6801D2020D23F00000000000,
    0x6802D2020D23F00000000000, 0x6803D2348D23F00000000000, 0x6804D2348D23F00000000000, 0x6A0004348D23F00000000000, 0x6A0004348D23F00000000010,
    0x6A0004348D23F00000000020, 0x7002040200C3F00006900000, 0x700A040200C3F00006900000, 0x7012040200C3F00006900000, 0x702A040200C3F00006900000] : List Nat).all (fun n => issues id n ({ memory := true }) fun x => x.tp == 0xFF) = true := by decide

set_option maxRecDepth 100000 in
/-- atomOr, atomXor, atomExch, atomFadd, atomBfadd, acas, redAdd, redMin, redMax, redAnd, redOr, redXor, redFadd, redBfadd, arriveG, tcopy, tstore, tgather, tscatter, tfill. -/
theorem witness_issues_8 : ([
    0x7032040200C3F00006900000, 0x703A040200C3F00006900000, 0x7042040200C3F00006900000, 0x704A040200C3F00006900000, 0x7052040200C3F00006900000,
    0x7102040200C3F00000000000, 0x7202D20200C3F00006900000, 0x720AD20200C3F00006900000, 0x7212D20200C3F00006900000, 0x722AD20200C3F00006900000,
    0x7232D20200C3F00006900000, 0x723AD20200C3F00006900000, 0x724AD20200C3F00006900000, 0x7252D20200C3F00006900000, 0x7403C4320D23F00000000000,
    0x8000D2320CC3F00006900000, 0x8100D2320CC3F00006900000, 0x8200D2320CC3F00006900000, 0x8300D2320CC3F00006900000, 0x8400D2348CC3F00006900000] : List Nat).all (fun n => issues id n ({ memory := true }) fun x => x.tp == 0xFF) = true := by decide

set_option maxRecDepth 100000 in
/-- tfetch, tfetchX, tfetchXe, tretire, route, exacq, exrel, dqstatQ, dqstatErt, dqstatGy, dqstatHand, coll, progv, collstat, collstatW. -/
theorem witness_issues_9 : ([
    0x9000C4348D23F00000000000, 0x9001C4348D23F00000000000, 0x9002C4320D23F00000000000, 0x9100D2320D23F00000000000, 0x9200D20200C3F00000000000,
    0x9300C4320CC3F00000000000, 0x9400D2320D23F00000000000, 0x9500C4320CC3F00000000000, 0x9501C4320CC3F00000000000, 0x9502C4320CC3F00000000000,
    0x9503C4320CC3F00000000000, 0x9800C4320D23F00000000000, 0x9900D2320CC3F00000000000, 0x9A00C4320D23F00000000000, 0x9A01C4320D23F00000000000] : List Nat).all (fun n => issues id n ({ memory := true }) fun x => x.tp == 0xFF) = true := by decide

set_option maxRecDepth 100000 in
/-- wait, waitbT, waitbC, waitbD, bowait. -/
theorem witness_issues_10 : ([
    0x6B00D2320D23F00000000000, 0x7500D2320D23F00000000000, 0x7501D2320D23F00000000000, 0x7502D2320D23F00000000000, 0x7600C4320CC3F00088000000] : List Nat).all (fun n => issues id n ({ serial := true, memory := true }) fun x => x.tp == 0xFF) = true := by decide

set_option maxRecDepth 100000 in
/-- barT, barC, barD, ctxsave, ctxload. -/
theorem witness_issues_11 : ([
    0x7300D2348D23F00000000000, 0x7301D2348D23F00000000000, 0x7302D2348D23F00000000000, 0xA700D2320D23F00000000000, 0xA800D2320D23F00000000000] : List Nat).all (fun n => issues id n ({ serial := true, memory := true, whole := 2 }) fun x => x.tp == 0xFF) = true := by decide

set_option maxRecDepth 100000 in
/-- arriveT, arriveC, arriveD. -/
theorem witness_issues_12 : ([
    0x7400C4348D23F00000000000, 0x7401C4348D23F00000000000, 0x7402C4348D23F00000000000] : List Nat).all (fun n => issues id n ({ memory := true, whole := 2 }) fun x => x.tp == 0xFF) = true := by decide

set_option maxRecDepth 100000 in
/-- mma, accld, accst, accz. -/
theorem witness_issues_13 : ([
    0x8840D2020CC3F00000000000, 0x890004320D23F00000000000, 0x8A00D23200C3F00000000000, 0x8B00D2348D23F00000000000] : List Nat).all (fun n => issues id n ({ memory := true, whole := 1 }) fun x => x.tp == 0xFF) = true := by decide

set_option maxRecDepth 100000 in
/-- trapI, eret, rdsys, wrsys, bkpt, halt. -/
theorem witness_issues_14 : ([
    0xA000D2348D23F00000000000, 0xA100D2348D23F00000000000, 0xA20004348D23F00000000000, 0xA300D2320D23F00000000000, 0xA500D2348D23F00000000000,
    0xA900D2348D23F00000000000] : List Nat).all (fun n => issues id n sysCls fun x => x.tp == 0xFF) = true := by decide

set_option maxRecDepth 100000 in
/-- rolesw. -/
theorem witness_issues_15 : ([
    0xA400D2320CC3F00000000000] : List Nat).all (fun n => issues id n ({ serial := true, whole := 2 }) fun x => x.tp == 0xFF) = true := by decide

set_option maxRecDepth 100000 in
/-- tlbinvPage, tlbinvOwn, tlbinvAll. -/
theorem witness_issues_16 : ([
    0xA600D2320CC3F00000000000, 0xA601D2348D23F00000000000, 0xA602D2348D23F00000000000] : List Nat).all (fun n => issues atFw n ({ serial := true, priv := true }) fun x => x.tp == 0xFF) = true := by decide

/-! ## Witnesses: the clauses of the statements about issues -/

/-- Up to the checks of an issue (`AtIssue`). -/
def atIssue (adj : State → State) (n : Nat) (k : IssCls) (P : Iss → Bool) : Bool :=
  let s := atWord adj n
  match decodeJolisol (BitVec.ofNat 96 n), findTeam s 0, findSp s placedRef.sp, findFrag s placedRef with
  | .ok i, some t, some p, some f =>
    match jspec (nscOf p i) i with
    | some (w, y) => fragReady s t p f && windowLets p f k && P (issOf s placedRef (BitVec.ofNat 96 n) w y t p f)
    | none => false
  | _, _, _, _ => false

/-- A form that enables no exception is quiet: the hypothesis of the float statements (R147). -/
theorem quiet_of_none (x : Iss) (f : Nat → Nat × Flg) (h : modeEn x.p.mode = 0) : Quiet x f := by
  intro t _; rw [h]; exact BitVec.and_zero

/-- v register `n`, or s register `n`, holds `x`; predicate `n` is 1 in the threads of a mask. -/
def rv (n x : Nat) : State → State := sp fun p => (List.range 8).foldl (fun p t => vset p n t (BitVec.ofNat 32 x)) p
def rs (n x : Nat) : State → State := sp fun p => sset p n (BitVec.ofNat 32 x)
def rp (n : Nat) (m : BitVec 8) : State → State := sp fun p => (threadsOf m).foldl (fun p t => pset p n t true) p

/-- A leaf of tenant 5's 512 KiB page: its physical address, kind and class (Table 14-4). -/
def leaf (pa kind cls : Nat) : BitVec 64 := BitVec.ofNat 64 (5 * 2 ^ 52 + pa + kind * 2 ^ 17 + cls * 2 ^ 15 + 7 * 2 ^ 9 + 3)
def tlbOf (va : Nat) (l : BitVec 64) : Tlb := { die := 0, core := none, tenant := 5, va := va, size := 2 ^ 19, leaf := l, pte := 0x9000 + va / 2 ^ 16 }

/-- A grid of one cluster on die 0, of tenant 5, with 64 KiB of team scratch and work in three dimensions. -/
def grid0 : Grid :=
  { (default : Grid) with
    tenant := 5, scratch := 65536, w := 2, h := 2, x := 4, y := 1, z := 1, cap := 64, experts := 8, st := .running,
    roles := [{ (default : RoleEnt) with spt := 1, regs := 256 }],
    parts := [{ (default : Part) with inPlace := true }], clusters := [{ (default : Cluster) with resident := true, placed := true }] }

/-- The grid is there, and pages of private HBM (at VA 0x80000), coherent HBM (0x100000) and coherent system memory (0x180000). -/
def env (s : State) : State :=
  { s with grids := [grid0], tlb := [tlbOf 0x80000 (leaf 0x100000 0 0), tlbOf 0x100000 (leaf 0x200000 0 2), tlbOf 0x180000 (leaf (2 ^ 49 + 0x80000) 1 2)] }

/-- Address pair `a` holds 0x40 of the own scratchpad; the tag word `h`. -/
def tag (a h : Nat) (s : State) : State :=
  let s := env s
  if a < 0x300 then rv a 0x40 (rv (a + 1) h s) else rs (a - 0x300) 0x40 (rs (a - 0x300 + 1) h s)
def at80 (a : Nat) : State → State := tag a 0x80000000

/-- Eight ports: load stream 0 with a fetched group, store stream 4, both bound to the spindle, in the scratchpad. -/
def port0 : Port :=
  { (default : Port) with bound := some 0, base := 0x8000000000000000, w := 4, wcode := 2, d0 := 4, n0 := 16, n1 := 1, n2 := 1 }
def streams (s : State) : State :=
  tm (fun t => { t with ports := (List.range 8).map fun i => if i = 0 then { port0 with fetched := [(List.range 8).map fun k => (BitVec.ofNat 32 k, false)] }
                                                              else if i = 4 then port0 else default }) (env s)


set_option maxRecDepth 100000 in
/-- Register 300 of an allotment of 256; a register that an open window writes; a port bound to no spindle; privilege; a partial team. -/
theorem witness_issue_checks : [
  atIssue id 0x10014B00100BF000D2348FC0 {} (fun x => beyondAllot x.p (jReads x.w x.sp ++ jWrites x.w x.sp)),
  atIssue (sp fun p => { p with pend := [{ (default : Pend) with left := 1, wr := [.v 1] }] }) 0x100100C0100BF000D2348FC0 {} (fun x => !beyondAllot x.p (jReads x.w x.sp ++ jWrites x.w x.sp) && hazard x.p x.f (jReads x.w x.sp) (jWrites x.w x.sp)),
  atIssue (tm fun t => { t with ports := [default] }) 0x100100F4000BF000D2348FC0 {} (fun x => !beyondAllot x.p (jReads x.w x.sp ++ jWrites x.w x.sp) && !hazard x.p x.f (jReads x.w x.sp) (jWrites x.w x.sp) && popPorts x.w x.sp == [0] && (x.t.port 0).map (·.bound) == some none),
  atIssue id 0xA602D2348D23F00000000000 { serial := true, priv := true } (fun x => !beyondAllot x.p (jReads x.w x.sp ++ jWrites x.w x.sp) && !x.t.fw && x.tp != 0),
  atIssue (sp fun p => { p with live := 0x7F }) 0x8840D2020CC3F00000000000 { memory := true, whole := 1 } (fun x => !beyondAllot x.p (jReads x.w x.sp ++ jWrites x.w x.sp) && !hazard x.p x.f (jReads x.w x.sp) (jWrites x.w x.sp) && x.tp != 0xFF)].all id = true := by decide

set_option maxRecDepth 100000 in
/-- A register destination with and without a carry or a mark; a push to store stream 4; reduction results. -/
theorem witness_lane_ends : [
  issues id 0x1200040200C3F000D2348FFF {} (fun x => jK x.w == 63 && x.tp != 0),
  issues id 0x1200040200C3F000D2348FC5 {} (fun x => jK x.w == 5 && x.tp != 0),
  issues streams 0x1001D100100BF000D2348FC0 {} (fun x => pushPort x.w x.sp == some 4 && x.tp != 0 && (match x.t.port 4 with | some y => decide (8 * y.pos < y.total) && y.full == false && (match checkAll x.s x.t x.p.spx .store (y.wants y.pos) with | .ok _ => true | _ => false) && !x.ctrStops [3] | none => false)),
  issues id 0x360000C0100BF000D2348FC0 {} (fun x => jP x.w == 63 && !jImm x.w),
  issues id 0x360000C0100BF000D2348100 {} (fun x => jP x.w == 4 && !jImm x.w),
  issues id 0x580004020D23F000D2348FC0 {} (fun x => x.tp != 0 && modeEn x.p.mode == 0),
  issues id 0x590004020D23F000D2348FC0 {} (fun x => x.threads.length == 8 && modeEn x.p.mode == 0)].all id = true := by decide

set_option maxRecDepth 100000 in
/-- Transfers, EXIT and SLEEP guarded by a predicate that is 0 in every thread. -/
theorem witness_no_transfer : [
  issues id 0x0100D2348D20000000000000 ctlCls (fun x => x.tp == 0),
  issues id 0x0300D2020D20000000000000 ctlCls (fun x => x.tp == 0),
  issues id 0x0400C4348D20000000000000 ctlCls (fun x => x.tp == 0),
  issues id 0x0401C4020D20000000000000 ctlCls (fun x => x.tp == 0),
  issues id 0x0402D2020D20000000000000 ctlCls (fun x => x.tp == 0),
  issues id 0x020000000000000000000000 ctlCls (fun x => x.tp == 0),
  issues id 0x0700D2348D20000000000000 ctlCls (fun x => x.tp == 0),
  issues id 0x0901D2348D20000000000000 ctlCls (fun x => x.tp == 0)].all id = true := by decide

set_option maxRecDepth 100000 in
/-- Every active thread takes the transfer, to a displacement or to one supplied address; some threads only; addresses that differ. -/
theorem witness_transfers : [
  issues id 0x0100D2348D23F00000000000 ctlCls (fun x => x.tp != 0 && x.tp == x.act),
  issues id 0x0400C4348D23F00000000000 ctlCls (fun x => x.tp != 0 && x.tp == x.act),
  issues id 0x020000000003F00000000000 ctlCls (fun x => x.tp != 0 && x.tp == x.act),
  issues (rv 32 0x4000) 0x0300D2020D23F00000000000 ctlCls (fun x => x.tp != 0 && x.tp == x.act && (threadsOf x.tp).all fun t => x.src2 x.w.a t == 0x4000 && bitsOf (x.src2 x.w.a t) 56 8 == 0),
  issues (rv 32 0x4000) 0x0402D2020D23F00000000000 ctlCls (fun x => x.tp != 0 && x.tp == x.act && (threadsOf x.tp).all fun t => x.src2 x.w.a t == 0x4000 && bitsOf (x.src2 x.w.a t) 56 8 == 0),
  issues (rv 32 0x4000) 0x0401C4020D23F00000000000 ctlCls (fun x => x.tp != 0 && x.tp == x.act && (threadsOf x.tp).all fun t => x.src2 x.w.a t == 0x4000 && bitsOf (x.src2 x.w.a t) 56 8 == 0),
  issues (rp 0 1) 0x0100D2348D20000000000000 ctlCls (fun x => x.tp != 0 && x.tp != x.act),
  issues (rp 0 1) 0x0300D2020D20000000000000 ctlCls (fun x => x.tp != 0 && x.tp != x.act),
  issues (rp 0 1) 0x0400C4348D20000000000000 ctlCls (fun x => x.tp != 0 && x.tp != x.act),
  issues (rp 0 1) 0x0401C4020D20000000000000 ctlCls (fun x => x.tp != 0 && x.tp != x.act),
  issues (rp 0 1) 0x0402D2020D20000000000000 ctlCls (fun x => x.tp != 0 && x.tp != x.act),
  issues (rp 0 1) 0x020000000000000000000000 ctlCls (fun x => x.tp != 0 && x.tp != x.act),
  issues (sp fun p => vset p 32 1 4) 0x0300D2020D23F00000000000 ctlCls (fun x => x.tp == x.act && x.src2 x.w.a 0 != x.src2 x.w.a 1),
  issues (sp fun p => vset p 32 1 4) 0x0402D2020D23F00000000000 ctlCls (fun x => x.tp == x.act && x.src2 x.w.a 0 != x.src2 x.w.a 1),
  issues (sp fun p => vset p 32 1 4) 0x0401C4020D23F00000000000 ctlCls (fun x => x.tp == x.act && x.src2 x.w.a 0 != x.src2 x.w.a 1)].all id = true := by decide

set_option maxRecDepth 100000 in
/-- Counters at the most that an IF, a LOOP, a BREAK and a CONT may raise; LOOP with and without an active thread. -/
theorem witness_divergence : [
  issues (sp fun p => { p with nest := (List.range 8).map fun t => (t, 62) }) 0x05000FF48D23F00000000000 ctlCls (fun x => (threadsOf (liveIn x.p x.f)).all fun t => nestOf x.p t == 62),
  issues (sp fun p => { p with nest := (List.range 8).map fun t => (t, 63) }) 0x0501D2348D23F00000000000 ctlCls (fun x => (threadsOf (liveIn x.p x.f)).all fun t => nestOf x.p t == 63),
  issues id 0x06010FC3DD23F00000000000 ctlCls (fun x => x.act != 0 && x.w.a.toNat + 2 == 63),
  issues id 0x06020FC3DD23F00000000000 ctlCls (fun x => x.act != 0 && x.w.a.toNat + 1 == 62),
  issues (sp fun p => { p with nest := (List.range 8).map fun t => (t, 63) }) 0x0502D2348D23F00000000000 ctlCls (fun x => x.act == 0),
  issues (sp fun p => { p with nest := (List.range 8).map fun t => (t, 61) }) 0x0600D2348D23F00000000000 ctlCls (fun x => x.act == 0),
  issues (sp fun p => { p with nest := [(1, 61)] }) 0x0600D2348D23F00000000000 ctlCls (fun x => x.act == 0xFD && nestOf x.p 1 + 2 == 63),
  issues (sp fun p => { p with nest := (List.range 8).map fun t => (t, 1) }) 0x0603D2348D23F00000000000 ctlCls (fun x => (threadsOf (liveIn x.p x.f)).all fun t => nestOf x.p t == 1),
  issues (sp fun p => { p with nest := (List.range 8).map fun t => (t, 3) }) 0x0603D2348D23F00000000000 ctlCls (fun x => (threadsOf (liveIn x.p x.f)).all fun t => nestOf x.p t == 3)].all id = true := by decide

set_option maxRecDepth 100000 in
/-- RFL with and without a predicate, GETID in a grid, SLEEP for 5 cycles, EXIT of all threads. -/
theorem witness_small_control : [
  issues id 0x0800C4020D23F00000000000 ctlCls (fun x => bitsOf x.w.mod 6 6 != 63 && (threadsOf x.tp).head? == some 0),
  issues id 0x0800C4020D23F00000000FC0 ctlCls (fun x => bitsOf x.w.mod 6 6 == 63),
  issues env 0x080104348D23F00000000000 ctlCls (fun x => (findGrid x.s x.t.grid).isSome),
  issues id 0x0901D2348D23F00000000005 ctlCls (fun x => x.tp != 0 && bitsOf x.w.mod 0 20 == 5),
  issues id 0x0700D2348D23F00000000000 ctlCls (fun x => x.tp != 0)].all id = true := by decide

set_option maxRecDepth 100000 in
/-- SETMODE with a legal and an illegal value; a value that traps an addition, and a division by zero. -/
theorem witness_mode_forms : [
  issues (sp fun p => { p with mode := 1, v := p.v }) 0x3E81D234AD23F00000000001 { modeSerial := true } (fun x => x.tp != 0 && modeOk (x.w.mod &&& 0x7FFFF)),
  issues id 0x3E81D234AD23F00000000007 { modeSerial := true } (fun x => x.tp != 0 && !modeOk (x.w.mod &&& 0x7FFFF)),
  issues (sp fun p => { p with mode := 1 }) 0x3E01D2348C03F010D2348FC0 { modeSerial := true } (fun x => x.tp != 0 && modeOk (((x.p.mode &&& ~~~(x.src1 x.w.b 0)) ||| (x.src1 x.w.a 0 &&& x.src1 x.w.b 0)) &&& 0x7FFFF)),
  issues (sp fun p => { p with mode := 0 }) 0x3E01D2348C03F010D2348FC0 { modeSerial := true } (fun x => x.tp != 0 && !modeOk (((x.p.mode &&& ~~~(x.src1 x.w.b 0)) ||| (x.src1 x.w.a 0 &&& x.src1 x.w.b 0)) &&& 0x7FFFF)),
  issues (fun s => rv 1 0x7F800001 (sp (fun p => { p with mode := 0x11 }) s)) 0x400000C0100BF000D2348FC0 {} (fun x => !x.w.uni && (x.threads.any fun t => (fres x.rnd (randomOf (x.random.1 t) 0) .f32 (addV x.rnd.rm (x.f32 x.w.a t) (x.f32 x.w.b t))).fl &&& modeEn x.p.mode != 0)),
  issues (sp fun p => { p with mode := 0x21 }) 0x500000C01D23F000D2348FC0 {} (fun x => x.threads.any fun t => (fres x.rnd (randomOf (x.random.1 t) 0) .f32 (rcpV (x.f32 x.w.a t))).fl &&& modeEn x.p.mode != 0)].all id = true := by decide

set_option maxRecDepth 100000 in
/-- Loads and stores of the three kinds, and the atomics, at a scratchpad offset: every address passes. -/
theorem witness_memory_issues : [
  issues (at80 32) 0x600004020D23F00000000000 { memory := true } (fun x => (match checkAll x.s x.t x.p.spx .load (x.threads.map (wantPair (widthBytes x.w.min.toNat) x)) with | .ok rs => x.tp != 0 && !x.ctrStops (pathsOf true (accsOf rs (fun _ => 0) fun _ => 0)) | _ => false)),
  issues (at80 32) 0x6100D20200C3F00000000000 { memory := true } (fun x => (match checkAll x.s x.t x.p.spx .store (x.threads.map (wantPair (widthBytes x.w.min.toNat) x)) with | .ok rs => x.tp != 0 && !x.ctrStops (pathsOf false (accsOf rs (fun _ => 0) fun _ => 0)) | _ => false)),
  issues env 0x620004020D23F00000000000 { memory := true } (fun x => (match checkAll x.s x.t x.p.spx .load (x.threads.map (wantOff 0x80 19 (widthBytes x.w.min.toNat) x)) with | .ok rs => x.tp != 0 && !x.ctrStops (pathsOf true (accsOf rs (fun _ => 0) fun _ => 0)) | _ => false)),
  issues env 0x640004020D23F00000000000 { memory := true } (fun x => (match checkAll x.s x.t x.p.spx .load (x.threads.map (wantOff 0x81 21 (widthBytes x.w.min.toNat) x)) with | .ok rs => x.tp != 0 && !x.ctrStops (pathsOf true (accsOf rs (fun _ => 0) fun _ => 0)) | _ => false)),
  issues env 0x6300D20200C3F00000000000 { memory := true } (fun x => (match checkAll x.s x.t x.p.spx .store (x.threads.map (wantOff 0x80 19 (widthBytes x.w.min.toNat) x)) with | .ok rs => x.tp != 0 && !x.ctrStops (pathsOf false (accsOf rs (fun _ => 0) fun _ => 0)) | _ => false)),
  issues env 0x6500D20200C3F00000000000 { memory := true } (fun x => (match checkAll x.s x.t x.p.spx .store (x.threads.map (wantOff 0x81 21 (widthBytes x.w.min.toNat) x)) with | .ok rs => x.tp != 0 && !x.ctrStops (pathsOf false (accsOf rs (fun _ => 0) fun _ => 0)) | _ => false)),
  issues (at80 32) 0x7002040200C3F00006900000 { memory := true } (fun x => (match checkAll x.s x.t x.p.spx .atomic (x.threads.map (wantAtom (widthBytes (bitsOf x.w.min 0 3)) x)) with | .ok rs => x.tp != 0 && !x.ctrStops (pathsOf true (accsOf rs (fun _ => 0) fun _ => 0)) | _ => false)),
  issues (at80 32) 0x700A040200C3F00006900000 { memory := true } (fun x => (match checkAll x.s x.t x.p.spx .atomic (x.threads.map (wantAtom (widthBytes (bitsOf x.w.min 0 3)) x)) with | .ok rs => x.tp != 0 && !x.ctrStops (pathsOf true (accsOf rs (fun _ => 0) fun _ => 0)) | _ => false)),
  issues (at80 32) 0x7012040200C3F00006900000 { memory := true } (fun x => (match checkAll x.s x.t x.p.spx .atomic (x.threads.map (wantAtom (widthBytes (bitsOf x.w.min 0 3)) x)) with | .ok rs => x.tp != 0 && !x.ctrStops (pathsOf true (accsOf rs (fun _ => 0) fun _ => 0)) | _ => false)),
  issues (at80 32) 0x702A040200C3F00006900000 { memory := true } (fun x => (match checkAll x.s x.t x.p.spx .atomic (x.threads.map (wantAtom (widthBytes (bitsOf x.w.min 0 3)) x)) with | .ok rs => x.tp != 0 && !x.ctrStops (pathsOf true (accsOf rs (fun _ => 0) fun _ => 0)) | _ => false)),
  issues (at80 32) 0x7032040200C3F00006900000 { memory := true } (fun x => (match checkAll x.s x.t x.p.spx .atomic (x.threads.map (wantAtom (widthBytes (bitsOf x.w.min 0 3)) x)) with | .ok rs => x.tp != 0 && !x.ctrStops (pathsOf true (accsOf rs (fun _ => 0) fun _ => 0)) | _ => false)),
  issues (at80 32) 0x703A040200C3F00006900000 { memory := true } (fun x => (match checkAll x.s x.t x.p.spx .atomic (x.threads.map (wantAtom (widthBytes (bitsOf x.w.min 0 3)) x)) with | .ok rs => x.tp != 0 && !x.ctrStops (pathsOf true (accsOf rs (fun _ => 0) fun _ => 0)) | _ => false)),
  issues (at80 32) 0x7042040200C3F00006900000 { memory := true } (fun x => (match checkAll x.s x.t x.p.spx .atomic (x.threads.map (wantAtom (widthBytes (bitsOf x.w.min 0 3)) x)) with | .ok rs => x.tp != 0 && !x.ctrStops (pathsOf true (accsOf rs (fun _ => 0) fun _ => 0)) | _ => false)),
  issues (at80 32) 0x704A040200C3F00006900000 { memory := true } (fun x => (match checkAll x.s x.t x.p.spx .atomic (x.threads.map (wantAtom (widthBytes (bitsOf x.w.min 0 3)) x)) with | .ok rs => x.tp != 0 && !x.ctrStops (pathsOf true (accsOf rs (fun _ => 0) fun _ => 0)) | _ => false)),
  issues (at80 32) 0x7052040200C3F00006900000 { memory := true } (fun x => (match checkAll x.s x.t x.p.spx .atomic (x.threads.map (wantAtom (widthBytes (bitsOf x.w.min 0 3)) x)) with | .ok rs => x.tp != 0 && !x.ctrStops (pathsOf true (accsOf rs (fun _ => 0) fun _ => 0)) | _ => false)),
  issues (at80 32) 0x7202D20200C3F00006900000 { memory := true } (fun x => (match checkAll x.s x.t x.p.spx .atomic (x.threads.map (wantAtom (widthBytes (bitsOf x.w.min 0 3)) x)) with | .ok rs => x.tp != 0 && !x.ctrStops (pathsOf false (accsOf rs (fun _ => 0) fun _ => 0)) | _ => false)),
  issues (at80 32) 0x720AD20200C3F00006900000 { memory := true } (fun x => (match checkAll x.s x.t x.p.spx .atomic (x.threads.map (wantAtom (widthBytes (bitsOf x.w.min 0 3)) x)) with | .ok rs => x.tp != 0 && !x.ctrStops (pathsOf false (accsOf rs (fun _ => 0) fun _ => 0)) | _ => false)),
  issues (at80 32) 0x7212D20200C3F00006900000 { memory := true } (fun x => (match checkAll x.s x.t x.p.spx .atomic (x.threads.map (wantAtom (widthBytes (bitsOf x.w.min 0 3)) x)) with | .ok rs => x.tp != 0 && !x.ctrStops (pathsOf false (accsOf rs (fun _ => 0) fun _ => 0)) | _ => false)),
  issues (at80 32) 0x722AD20200C3F00006900000 { memory := true } (fun x => (match checkAll x.s x.t x.p.spx .atomic (x.threads.map (wantAtom (widthBytes (bitsOf x.w.min 0 3)) x)) with | .ok rs => x.tp != 0 && !x.ctrStops (pathsOf false (accsOf rs (fun _ => 0) fun _ => 0)) | _ => false)),
  issues (at80 32) 0x7232D20200C3F00006900000 { memory := true } (fun x => (match checkAll x.s x.t x.p.spx .atomic (x.threads.map (wantAtom (widthBytes (bitsOf x.w.min 0 3)) x)) with | .ok rs => x.tp != 0 && !x.ctrStops (pathsOf false (accsOf rs (fun _ => 0) fun _ => 0)) | _ => false)),
  issues (at80 32) 0x723AD20200C3F00006900000 { memory := true } (fun x => (match checkAll x.s x.t x.p.spx .atomic (x.threads.map (wantAtom (widthBytes (bitsOf x.w.min 0 3)) x)) with | .ok rs => x.tp != 0 && !x.ctrStops (pathsOf false (accsOf rs (fun _ => 0) fun _ => 0)) | _ => false)),
  issues (at80 32) 0x724AD20200C3F00006900000 { memory := true } (fun x => (match checkAll x.s x.t x.p.spx .atomic (x.threads.map (wantAtom (widthBytes (bitsOf x.w.min 0 3)) x)) with | .ok rs => x.tp != 0 && !x.ctrStops (pathsOf false (accsOf rs (fun _ => 0) fun _ => 0)) | _ => false)),
  issues (at80 32) 0x7252D20200C3F00006900000 { memory := true } (fun x => (match checkAll x.s x.t x.p.spx .atomic (x.threads.map (wantAtom (widthBytes (bitsOf x.w.min 0 3)) x)) with | .ok rs => x.tp != 0 && !x.ctrStops (pathsOf false (accsOf rs (fun _ => 0) fun _ => 0)) | _ => false)),
  issues (at80 32) 0x7102040200C3F00000000000 { memory := true } (fun x => (match checkAll x.s x.t x.p.spx .atomic (x.threads.map (wantAtom (widthBytes (bitsOf x.w.min 0 3)) x)) with | .ok rs => x.tp != 0 && !x.ctrStops (pathsOf true (accsOf rs (fun _ => 0) fun _ => 0)) | _ => false))].all id = true := by decide

set_option maxRecDepth 100000 in
/-- An address whose tag names no space, and one whose translation is not cached. -/
theorem witness_memory_stops : [
  issues (tag 32 0x40000000) 0x600004020D23F00000000000 { memory := true } (fun x => x.tp != 0 && !x.w.uni && (match checkAll x.s x.t x.p.spx .load (x.threads.map (wantPair (widthBytes x.w.min.toNat) x)) with | .trap 3 _ _ _ => true | _ => false)),
  issues env 0x62020A014D23F000007FFFFF { memory := true } (fun x => x.tp != 0 && !x.w.uni && (match checkAll x.s x.t x.p.spx .load (x.threads.map (wantOff 0x80 19 4 x)) with | .trap _ _ _ _ => true | _ => false)),
  issues env 0x64020A014D23F000007FFFFF { memory := true } (fun x => x.tp != 0 && !x.w.uni && (match checkAll x.s x.t x.p.spx .load (x.threads.map (wantOff 0x81 21 4 x)) with | .trap _ _ _ _ => true | _ => false)),
  issues env 0x600004020D23F00000000000 { memory := true } (fun x => x.tp != 0 && (match checkAll x.s x.t x.p.spx .load (x.threads.map (wantPair (widthBytes x.w.min.toNat) x)) with | .walk g _ _ => !mergeOpen x.s x.t.die (teamTenant x.s x.t) g | _ => false))].all id = true := by decide

/-- Change every grid; change every die. -/
def gr (f : Grid → Grid) (s : State) : State := { s with grids := s.grids.map f }
/-- A line of coherent HBM is readable at once: its page is not discarded, its die's L2 may read it, its bytes are good, the L1 has
room. -/
def readableAt (s : State) (t : Team) (pa pte : Nat) : Bool :=
  isHbm pa && !pageDiscarded s pte && mayRead s (.l2 t.die) (lineOf pa) && !memBad s pa 64 && decide ((l1Lines s t.die t.core).length < l1Cap)
def dieW (f : Die → Die) (s : State) : State := { s with dies := s.dies.map f }


set_option maxRecDepth 100000 in
/-- CCTL forms on a private line of HBM and, where the form leaves system memory alone, on a line there; DISCARD of nothing and of one line. -/
theorem witness_cache_forms : [
  issues (fun s => env (rv 33 0 (rv 32 0x80000 s))) 0x6800D2020D23F00000000000 { memory := true } (fun x => x.tp != 0 && (match checkAll x.s x.t x.p.spx .pref (x.threads.map (wantPair 1 x)) with | .ok _ => true | _ => false) && !x.ctrStops [1]),
  issues (fun s => env (rv 33 0 (rv 32 0x80000 s))) 0x6801D2020D23F00000000000 { memory := true } (fun x => x.tp != 0 && (match checkAll x.s x.t x.p.spx .pref (x.threads.map (wantPair 1 x)) with | .ok _ => true | _ => false) && !x.ctrStops [1]),
  issues (fun s => env (rv 33 0 (rv 32 0x80000 s))) 0x6802D2020D23F00000000000 { memory := true } (fun x => x.tp != 0 && (match checkAll x.s x.t x.p.spx .pref (x.threads.map (wantPair 1 x)) with | .ok _ => true | _ => false) && !x.ctrStops [1]),
  issues (fun s => env (rv 33 0 (rv 32 0x180000 s))) 0x6800D2020D23F00000000000 { memory := true } (fun x => (match checkAll x.s x.t x.p.spx .pref (x.threads.map (wantPair 1 x)) with | .ok rs => (accsOf rs (fun _ => 0) fun _ => 0).all fun a => (match a.loc with | .mem pa _ _ _ _ _ => !isHbm pa | _ => true) | _ => false)),
  issues (fun s => env (rv 33 0 (rv 32 0x180000 s))) 0x6801D2020D23F00000000000 { memory := true } (fun x => (match checkAll x.s x.t x.p.spx .pref (x.threads.map (wantPair 1 x)) with | .ok rs => (accsOf rs (fun _ => 0) fun _ => 0).all fun a => (match a.loc with | .mem pa _ _ _ _ _ => !isHbm pa | _ => true) | _ => false)),
  issues id 0x6804D2348D23F00000000000 { memory := true } (fun x => x.tp != 0 && !x.ctrStops [1]),
  issues id 0x6803D2348D23F00000000000 { memory := true } (fun x => x.tp != 0),
  issues id 0x6700D20200C3F00000000000 { memory := true } (fun x => x.tp != 0 && (x.threads.flatMap fun t => discardWants x.t.stks.toNat (x.src2 x.w.a t + jOffM x.w) (x.src1 x.w.b t).toNat t) == []),
  issues (fun s => env (rs 12 256 (rs 9 0 (rs 8 0x80000 s)))) 0x6700D2308C33F00000000000 { memory := true } (fun x => x.tp != 0 && (match checkAll x.s x.t x.p.spx .discard (x.threads.flatMap fun t => discardWants x.t.stks.toNat (x.src2 x.w.a t + jOffM x.w) (x.src1 x.w.b t).toNat t) with | .ok rs => rs.length == 8 && !x.ctrStops [1] | _ => false)),
  issues (fun s => env (rv 33 0 (rv 32 0x80000 s))) 0x6600D2020D23F00000000000 { memory := true } (fun x => x.tp != 0 && decide ((l1Lines x.s x.t.die x.t.core).length + 8 ≤ l1Cap))].all id = true := by decide

set_option maxRecDepth 100000 in
/-- QCFG of a free port with eight elements of four bytes in the scratchpad; QCFG.FREE of its own port; WAIT below and above its count. -/
theorem witness_streams : [
  issues (fun s => streams (rs 15 1 (rs 14 1 (rs 13 8 (rs 12 0 (rs 11 0 (rs 10 4 (rs 9 0x80000000 (rs 8 0 s))))))))) 0x6900D2308C33F00000000021 {} (fun x => x.tp != 0 && x.pops == [] && (x.t.port (bitsOf x.w.mod 0 3)).map (·.bound) == some none && (let a := x.src x.w.a 4 false 0; let b := x.src x.w.b 4 false 0; let base : BitVec 64 := a.extractLsb' 0 64; let n := widthBytes (bitsOf x.w.mod 4 3); [0, 0x80, 0x81].contains (bitsOf base 56 8) && base.toNat % n == 0 && bitsOf a 64 32 % n == 0 && bitsOf a 96 32 % n == 0 && bitsOf b 0 32 % n == 0 && bitsOf b 32 32 * bitsOf b 64 32 * bitsOf b 96 32 == 8)),
  issues streams 0x6901D2348D23F00000000000 {} (fun x => x.tp != 0 && (x.t.port (bitsOf x.w.mod 0 3)).map (·.bound) == some (some x.p.spx)),
  issues id 0x6B00D2320D23F00000000000 { serial := true, memory := true } (fun x => x.tp != 0 && ctrOf x.p x.w.min.toNat == (x.src1 x.w.a 0).toNat),
  issues (sp fun p => { p with ctr := [(0, 1)] }) 0x6B00D2348D23F00000000000 { serial := true, memory := true } (fun x => x.tp != 0 && x.w.a == 0x348 && ctrOf x.p x.w.min.toNat == bitsOf x.w.mod 0 6 + 1)].all id = true := by decide

set_option maxRecDepth 100000 in
/-- First arrivals at barrier 0 of each level; an acquire-release arrival with nothing open; a count that differs; waits for a generation that has changed and for one that has not. -/
theorem witness_barriers : [
  issues env 0x7300D2348D23F00000000000 { serial := true, memory := true, whole := 2 } (fun x => (getBar x.s x.t 0 (barId x.w)).arr == 0 && decide (barId x.w < barIds 0) && (findGrid x.s x.t.grid).isSome && ((findGrid x.s x.t.grid).any fun g => g.clusters.any (fun c => c.cl == x.t.clNo g) && g.parts.any fun d => d.dix == dixOf g x.t.vcx x.t.vcy)),
  issues env 0x7301D2348D23F00000000000 { serial := true, memory := true, whole := 2 } (fun x => (getBar x.s x.t 1 (barId x.w)).arr == 0 && decide (barId x.w < barIds 1) && (findGrid x.s x.t.grid).isSome && ((findGrid x.s x.t.grid).any fun g => g.clusters.any (fun c => c.cl == x.t.clNo g) && g.parts.any fun d => d.dix == dixOf g x.t.vcx x.t.vcy)),
  issues env 0x7302D2348D23F00000000000 { serial := true, memory := true, whole := 2 } (fun x => (getBar x.s x.t 2 (barId x.w)).arr == 0 && decide (barId x.w < barIds 2) && (findGrid x.s x.t.grid).isSome && ((findGrid x.s x.t.grid).any fun g => g.clusters.any (fun c => c.cl == x.t.clNo g) && g.parts.any fun d => d.dix == dixOf g x.t.vcx x.t.vcy)),
  issues env 0x7400C4348D23F00000000000 { memory := true, whole := 2 } (fun x => (getBar x.s x.t 0 (barId x.w)).arr == 0 && decide (barId x.w < barIds 0) && (findGrid x.s x.t.grid).isSome && ((findGrid x.s x.t.grid).any fun g => g.clusters.any (fun c => c.cl == x.t.clNo g) && g.parts.any fun d => d.dix == dixOf g x.t.vcx x.t.vcy)),
  issues env 0x7401C4348D23F00000000000 { memory := true, whole := 2 } (fun x => (getBar x.s x.t 1 (barId x.w)).arr == 0 && decide (barId x.w < barIds 1) && (findGrid x.s x.t.grid).isSome && ((findGrid x.s x.t.grid).any fun g => g.clusters.any (fun c => c.cl == x.t.clNo g) && g.parts.any fun d => d.dix == dixOf g x.t.vcx x.t.vcy)),
  issues env 0x7402C4348D23F00000000000 { memory := true, whole := 2 } (fun x => (getBar x.s x.t 2 (barId x.w)).arr == 0 && decide (barId x.w < barIds 2) && (findGrid x.s x.t.grid).isSome && ((findGrid x.s x.t.grid).any fun g => g.clusters.any (fun c => c.cl == x.t.clNo g) && g.parts.any fun d => d.dix == dixOf g x.t.vcx x.t.vcy)),
  issues env 0x7300D2348D23F00098000000 { serial := true, memory := true, whole := 2 } (fun x => jOrder x.w == 3 && releaseNow x.s x.r.sp (x.p.pend.filter pendOpen) (jScope x.w)),
  issues (tm fun t => { t with bars := [{ gen := 0, arr := 1, exp := 3 }] }) 0x7300D2348D23F00000000020 { serial := true, memory := true, whole := 2 } (fun x => (getBar x.s x.t 0 (barId x.w)).arr == 1 && barCount x.w != (getBar x.s x.t 0 (barId x.w)).exp),
  issues (fun s => rs 3 0 (tm (fun t => { t with bars := [{ gen := 1, arr := 0, exp := 0 }] }) s)) 0x7500D2303D23F00000000000 { serial := true, memory := true } (fun x => x.tp != 0 && (getBar x.s x.t 0 (barId x.w)).gen != x.src1 x.w.a 0),
  issues env 0x7500D2303D23F00000000000 { serial := true, memory := true } (fun x => x.tp != 0 && (getBar x.s x.t 0 (barId x.w)).gen == x.src1 x.w.a 0),
  issues env 0x7501D2303D23F00000000000 { serial := true, memory := true } (fun x => x.tp != 0 && (getBar x.s x.t 1 (barId x.w)).gen == x.src1 x.w.a 0),
  issues env 0x7502D2303D23F00000000000 { serial := true, memory := true } (fun x => x.tp != 0 && (getBar x.s x.t 2 (barId x.w)).gen == x.src1 x.w.a 0)].all id = true := by decide

set_option maxRecDepth 100000 in
/-- A barrier object in coherent HBM. -/
theorem witness_barrier_objects : [
  issues (fun s => env (rs 5 0 (rs 4 0x100040 s))) 0x7403D2304D23F00000000000 { memory := true } (fun x => x.tp != 0 && (match checkAll x.s x.t x.p.spx .atomic [{ thread := (threadsOf x.tp).headD 0, ea := x.src2 x.w.a 0, n := 8, badLen := (x.src2 x.w.a 0).toNat % 64 != 0 }] with | .ok [(_, [(0, 8, .mem _ _ .coherent _ _ _)])] => !x.ctrStops [0] | _ => false)),
  issues (fun s => env (rs 5 0 (rs 4 0x100040 s))) 0x7600D2304C1BF00088000000 { serial := true, memory := true } (fun x => x.tp != 0 && (match checkAll x.s x.t x.p.spx .load [{ thread := (threadsOf x.tp).headD 0, ea := x.src2 x.w.a 0, n := 8, badLen := (x.src2 x.w.a 0).toNat % 64 != 0 }] with | .ok [(_, [(0, 8, .mem _ _ .coherent _ _ _)])] => !x.ctrStops [0] | _ => false)),
  issues (fun s => env (rs 7 0 (rs 6 2 (rs 5 0 (rs 4 0x100040 { s with toks := [{ line := 0x200000, h := .l2 0, n := 1, owner := false, valid := true }] }))))) 0x7600D2304C1BF00088000000 { serial := true, memory := true } (fun x => readableAt x.s x.t 0x200040 0x9010 && !boBehind x.s x.r x.p (x.src2 x.w.a 0) (.mem 0x200040 5 .coherent 0x9010 0x200000 (2 ^ 19)) && decide (ofBytesNat ((memBytes x.s 5 0x200040 64).take 8) < (x.src2 x.w.b 0).toNat)),
  issues (fun s => env (rs 7 0 (rs 6 0 (rs 5 0 (rs 4 0x100040 { s with toks := [{ line := 0x200000, h := .l2 0, n := 1, owner := false, valid := true }] }))))) 0x7600D2304C1BF00088000000 { serial := true, memory := true } (fun x => readableAt x.s x.t 0x200040 0x9010 && decide ((x.src2 x.w.b 0).toNat ≤ ofBytesNat ((memBytes x.s 5 0x200040 64).take 8)) && ofBytesNat (((memBytes x.s 5 0x200040 64).drop 12).take 4) == 0)].all id = true := by decide

set_option maxRecDepth 100000 in
/-- The five copy forms with fewer than 16 copies of the core and the counter free. -/
theorem witness_copies : [
  issues env 0x8000D2320CC3F00006900000 { memory := true } (fun x => x.tp != 0 && decide ((coreCopies x.s x.t).length < 16) && !x.ctrStops [4]),
  issues env 0x8100D2320CC3F00006900000 { memory := true } (fun x => x.tp != 0 && decide ((coreCopies x.s x.t).length < 16) && !x.ctrStops [4]),
  issues env 0x8200D2320CC3F00006900000 { memory := true } (fun x => x.tp != 0 && decide ((coreCopies x.s x.t).length < 16) && !x.ctrStops [4]),
  issues env 0x8300D2320CC3F00006900000 { memory := true } (fun x => x.tp != 0 && decide ((coreCopies x.s x.t).length < 16) && !x.ctrStops [4]),
  issues env 0x8400D2348CC3F00006900000 { memory := true } (fun x => x.tp != 0 && decide ((coreCopies x.s x.t).length < 16) && !x.ctrStops [4])].all id = true := by decide

set_option maxRecDepth 100000 in
/-- An MMA of s8 with pitch 256 and one with pitch 0; a pair form on a follower and on a leader; windows that end at row 64, pass it, or lie in column group 31. -/
theorem witness_matrix : [
  issues (fun s => env (rs 15 0x1000000 (rs 14 0 (rs 13 0 (rs 12 0 s))))) 0x8812D2000C33F00006900000 { memory := true, whole := 1 } (fun x => x.tp == 0xFF && (mmaD x.w (x.src x.w.b 4 false 0)).pitch == 256 && (mmaD x.w (x.src x.w.b 4 false 0)).w == 1 && !(mmaD x.w (x.src x.w.b 4 false 0)).sc && (mmaD x.w (x.src x.w.b 4 false 0)).tb == 0 && (mmaD x.w (x.src x.w.b 4 false 0)).outside (teamScratch x.s x.t) == none && !x.ctrStops [5] && x.s.matReqs == []),
  issues env 0x8812D2000C33F00006900000 { memory := true, whole := 1 } (fun x => (mmaD x.w (x.src x.w.b 4 false 0)).pitch == 0 && !(mmaD x.w (x.src x.w.b 4 false 0)).pair),
  issues (fun s => env (tm (fun t => { t with vcx := 1 }) s)) 0x8812D2000C33F00006910000 { memory := true, whole := 1 } (fun x => (mmaD x.w (x.src x.w.b 4 false 0)).pair && x.t.kix % 2 == 1),
  issues env 0x8812D2000C33F00006910000 { memory := true, whole := 1 } (fun x => (mmaD x.w (x.src x.w.b 4 false 0)).pair && x.t.kix % 2 == 0),
  issues id 0x890000348D23F00000201F00 { memory := true, whole := 1 } (fun x => bitsOf x.w.mod 21 6 + (bitsOf x.w.mod 7 6 + 1) == 64 && !x.ctrStops [5]),
  issues id 0x890000348D23F00000401F00 { memory := true, whole := 1 } (fun x => bitsOf x.w.mod 21 6 + (bitsOf x.w.mod 7 6 + 1) == 65),
  issues id 0x8A00D2348003F000001F0000 { memory := true, whole := 1 } (fun x => bitsOf x.w.mod 16 5 == 31 && !x.ctrStops [5]),
  issues (rs 6 0x10000) 0x8A00D2306003F000001F0000 { memory := true, whole := 1 } (fun x => bitsOf x.w.mod 16 5 + 1 == 32 && bitsOf (sget x.p 6) 16 16 == 1),
  issues id 0x8B00D2348D23F00000000000 { memory := true, whole := 1 } (fun x => !x.ctrStops [5]),
  issues (fun s => env (rs 15 0x1000000 (rs 14 0 (rs 13 0 (rs 12 128 s))))) 0x8812D2000C33F00006900000 { memory := true, whole := 1 } (fun x => (mmaD x.w (x.src x.w.b 4 false 0)).pitch == 256 && (mmaD x.w (x.src x.w.b 4 false 0)).tb == 128),
  issues (fun s => env (rs 15 0x1000000 (rs 14 0 (rs 13 0 (rs 12 0xD000 s))))) 0x8812D2000C33F00006900000 { memory := true, whole := 1 } (fun x => (mmaD x.w (x.src x.w.b 4 false 0)).tb % 256 == 0 && (mmaD x.w (x.src x.w.b 4 false 0)).outside (teamScratch x.s x.t) == some 0xD000),
  issues (fun s => env (rs 51 0x1000000 (rs 49 4 s))) 0x8840D2020CC3F00000000000 { memory := true, whole := 1 } (fun x => (mmaD x.w (x.src x.w.b 4 false 0)).sc && (mmaD x.w (x.src x.w.b 4 false 0)).pitch == 256 && (mmaD x.w (x.src x.w.b 4 false 0)).lac != 3 && (mmaD x.w (x.src x.w.b 4 false 0)).sb % 32 == 4),
  issues (fun s => env (tm (fun t => { t with vcx := 1 }) s)) 0x890000348D23F00000002000 { memory := true, whole := 1 } (fun x => x.w.mod.getLsbD 13 && x.t.kix % 2 == 1)].all id = true := by decide

set_option maxRecDepth 100000 in
/-- TFETCH while the grid yields, with nothing left, over its share, with an empty Geyser and with a held range; the expert forms in a grid without and with routing, with a queued row, with none, and with everything retired. -/
theorem witness_work : [
  issues (fun s => gr (fun g => { g with st := .yielding }) (env s)) 0x9000C4348D23F00000000000 { memory := true } (fun x => x.tp != 0 && (gridOf x.s x.t).yieldOn),
  issues (fun s => gr (fun g => { g with next := 4 }) (env s)) 0x9000C4348D23F00000000000 { memory := true } (fun x => x.tp != 0 && !(gridOf x.s x.t).yieldOn && !(gridOf x.s x.t).ungranted && ((gridOf x.s x.t).geyser x.t.die).held == 0),
  issues (fun s => gr (fun g => { g with held := true }) (env s)) 0x9000C4348D23F00000000000 { memory := true } (fun x => x.tp != 0 && !(gridOf x.s x.t).yieldOn && (gridOf x.s x.t).ungranted && (gridOf x.s x.t).held),
  issues (fun s => gr (fun g => { g with next := 0 }) (env s)) 0x9000C4348D23F00000000000 { memory := true } (fun x => x.tp != 0 && !(gridOf x.s x.t).yieldOn && (gridOf x.s x.t).ungranted && !(gridOf x.s x.t).held && ((gridOf x.s x.t).geyser x.t.die).ranges == []),
  issues (fun s => gr (fun g => { g with next := 4, geysers := [{ die := 0, ranges := [(0, 1)], req := false }] }) (env s)) 0x9000C4348D23F00000000000 { memory := true } (fun x => x.tp != 0 && !(gridOf x.s x.t).yieldOn && !(gridOf x.s x.t).held && ((gridOf x.s x.t).geyser x.t.die).ranges == [(0, 1)]),
  issues (fun s => gr (fun g => { g with mode := 0 }) (env s)) 0x9001C4348D23F00000000000 { memory := true } (fun x => x.tp != 0 && (gridOf x.s x.t).mode == 0),
  issues (fun s => gr (fun g => { g with mode := 0 }) (env s)) 0x9002C4320D23F00000000000 { memory := true } (fun x => x.tp != 0 && (gridOf x.s x.t).mode == 0),
  issues (fun s => rs 32 8 ((fun s => gr (fun g => { g with mode := 1 }) (env s)) s)) 0x9002C4320D23F00000000000 { memory := true } (fun x => (gridOf x.s x.t).mode != 0 && decide ((gridOf x.s x.t).experts ≤ (x.src1 x.w.a 0).toNat)),
  issues (fun s => gr (fun g => { g with mode := 1, queues := [{ p := 0, e := 2, head := 0, rows := [(7, 0, 1)] }] }) (env s)) 0x9001C4348D23F00000000000 { memory := true } (fun x => x.tp != 0 && (gridOf x.s x.t).mode != 0 && !(gridOf x.s x.t).yieldOn && !(allRetired x.s (gridOf x.s x.t)) && !(gridOf x.s x.t).held && (takeTile x.s x.t.die x.t.grid none 0).isSome),
  issues (fun s => rs 32 2 ((fun s => gr (fun g => { g with mode := 1, queues := [{ p := 0, e := 2, head := 0, rows := [(7, 0, 1)] }] }) (env s)) s)) 0x9002C4320D23F00000000000 { memory := true } (fun x => (gridOf x.s x.t).mode != 0 && !(allRetired x.s (gridOf x.s x.t)) && !(gridOf x.s x.t).held && (takeTile x.s x.t.die x.t.grid (some (x.src1 x.w.a 0).toNat) 0).isSome),
  issues (fun s => gr (fun g => { g with mode := 1 }) (env s)) 0x9001C4348D23F00000000000 { memory := true } (fun x => x.tp != 0 && !(allRetired x.s (gridOf x.s x.t)) && (takeTile x.s x.t.die x.t.grid none 0).isNone),
  issues (fun s => gr (fun g => { g with mode := 1, next := 4, retiredIx := [0, 1, 2, 3] }) (env s)) 0x9001C4348D23F00000000000 { memory := true } (fun x => x.tp != 0 && allRetired x.s (gridOf x.s x.t) && (heldTiles x.s x.t.die x.t.grid none).isEmpty && (queuesOn (gridOf x.s x.t) x.t.die none).all fun q => q.waiting == 0),
  issues (fun s => gr (fun g => { g with mode := 1, held := true }) (env s)) 0x9001C4348D23F00000000000 { memory := true } (fun x => x.tp != 0 && (gridOf x.s x.t).held && !(allRetired x.s (gridOf x.s x.t)))].all id = true := by decide

set_option maxRecDepth 100000 in
/-- TRETIRE of a status 4, of an index that was dispensed and of one that was not, of a tile; ROUTE without routing, and of a row each to expert 7. -/
theorem witness_tretire_route : [
  issues (fun s => (rs 8 4 ((fun s => gr (fun g => { g with mode := 1 }) (env s)) s))) 0x9100D2308D23F00000000000 { memory := true } (fun x => x.tp != 0 && !x.ctrStops [1] && wordOf (x.src x.w.a 4 false 0) 0 % 256 == 4),
  issues (fun s => (rs 8 5 ((fun s => gr (fun g => { g with mode := 1 }) (env s)) s))) 0x9100D2308D23F00000000000 { memory := true } (fun x => x.tp != 0 && !x.ctrStops [1] && wordOf (x.src x.w.a 4 false 0) 0 % 256 == 5),
  issues (fun s => (rs 9 3 ((fun s => gr (fun g => { g with mode := 1, dispensed := [(3, 0)] }) (env s)) s))) 0x9100D2308D23F00000000000 { memory := true } (fun x => x.tp != 0 && !x.ctrStops [1] && wordOf (x.src x.w.a 4 false 0) 0 == 0 && decide (wordOf (x.src x.w.a 4 false 0) 1 < (gridOf x.s x.t).x) && (gridOf x.s x.t).dispensed.any (fun e => e.1 == 3)),
  issues ((sp fun p => { p with pend := [{ (default : Pend) with id := 7, kind := .dispense, word := 0x9200D200100BF0000007F800, complete := true, paths := [(1, false)] }] }) ∘ env) 0x9100D2308D23F00000000000 { memory := true } (fun x => x.tp != 0 && routeOpen x.p),
  issues (fun s => (rs 9 3 ((fun s => gr (fun g => { g with mode := 1 }) (env s)) s))) 0x9100D2308D23F00000000000 { memory := true } (fun x => x.tp != 0 && !x.ctrStops [1] && !routeOpen x.p && wordOf (x.src x.w.a 4 false 0) 0 == 0 && !((gridOf x.s x.t).dispensed.any (fun e => e.1 == 3))),
  issues (fun s => (rs 11 1 (rs 9 2 (rs 8 1 ((fun s => gr (fun g => { g with mode := 1, queues := [{ p := 0, e := 2, head := 1, rows := [(7, 0, 2)] }] }) (env s)) s))))) 0x9100D2308D23F00000000000 { memory := true } (fun x => x.tp != 0 && !x.ctrStops [1] && wordOf (x.src x.w.a 4 false 0) 0 == 1 && tileOut (gridOf x.s x.t) 0 2 0 1 && ((findDie x.s ((gridOf x.s x.t).dieOfPart 0)).map (·.lost)).getD false == false),
  issues (fun s => (rs 11 1 (rs 9 2 (rs 8 1 ((fun s => gr (fun g => { g with mode := 1 }) (env s)) s))))) 0x9100D2308D23F00000000000 { memory := true } (fun x => x.tp != 0 && !x.ctrStops [1] && !(tileOut (gridOf x.s x.t) 0 2 0 1)),
  issues (fun s => (fun s => gr (fun g => { g with mode := 0 }) (env s)) s) 0x9200D200100BF0000007F800 { memory := true } (fun x => x.tp != 0 && !x.ctrStops [1] && (gridOf x.s x.t).mode == 0),
  issues (fun s => (rv 2 7 ((fun s => gr (fun g => { g with mode := 1 }) (env s)) s))) 0x9200D200100BF0000007F800 { memory := true } (fun x => x.tp != 0 && !x.ctrStops [1] && (gridOf x.s x.t).mode != 0 && decide ((gridOf x.s x.t).retiredIx.length < (gridOf x.s x.t).count) && (threadsOf x.tp).all (fun t => decide ((x.src1 x.w.b t).toNat < (gridOf x.s x.t).experts ∧ (x.src1 (jC17 x.w) t).toNat < (gridOf x.s x.t).parts.length))),
  issues (fun s => (rv 2 7 ((fun s => gr (fun g => { g with mode := 1 }) (env s)) s))) 0x9200D200100BF00000062800 { memory := true } (fun x => x.tp != 0 && !x.ctrStops [1] && bitsOf x.w.mod 11 6 == 5),
  issues (fun s => (rs 9 3 ((fun s => gr (fun g => { g with mode := 1, dispensed := [(3, 0)] }) (env s)) s))) 0x9100D2308D23F00000000000 { memory := true } (fun x => (x.release (jRel x.w)).any fun s => (findSp s x.r.sp).isSome),
  issues (fun s => (rs 8 4 ((fun s => gr (fun g => { g with mode := 0 }) (env s)) s))) 0x9100D2308D23F00000000000 { memory := true } (fun x => x.tp != 0 && wordOf (x.src x.w.a 4 false 0) 0 % 256 == 4 && (gridOf x.s x.t).mode == 0),
  issues (fun s => (rv 2 7 ((fun s => gr (fun g => { g with mode := 1, retiredIx := [0, 1, 2, 3] }) (env s)) s))) 0x9200D200100BF0000007F800 { memory := true } (fun x => x.tp != 0 && decide ((gridOf x.s x.t).count ≤ (gridOf x.s x.t).retiredIx.length)),
  issues (fun s => (rv 2 8 ((fun s => gr (fun g => { g with mode := 1 }) (env s)) s))) 0x9200D200100BF0000007F800 { memory := true } (fun x => x.tp != 0 && decide ((gridOf x.s x.t).retiredIx.length < (gridOf x.s x.t).count) && (threadsOf x.tp).any fun t => decide ((gridOf x.s x.t).experts ≤ (x.src1 x.w.b t).toNat)),
  issues (fun s => (rv 2 7 ((fun s => gr (fun g => { g with mode := 1 }) (env s)) s))) 0x9200D200100BF0000007F800 { memory := true } (fun x => (x.release (jRel x.w)).any fun s => (findSp s x.r.sp).isSome)].all id = true := by decide

set_option maxRecDepth 100000 in
/-- EXACQ without experts, of a resident and of a failed expert; EXREL of the last reference; DQSTAT forms. -/
theorem witness_experts : [
  issues env 0x9300C4308D23F00000000000 { memory := true } (fun x => x.tp != 0 && (findDie x.s x.t.die).any fun d => d.exns == 0),
  issues (fun s => rs 8 1024 (dieW (fun d => { d with exns := 2, exown := 5, exslb := 0x100000, exsls := 4096 }) (env s))) 0x9300C4308D23F00000000000 { memory := true } (fun x => x.tp != 0 && (findDie x.s x.t.die).any fun d => d.exns != 0 && teamTenant x.s x.t == d.exown && decide (1024 ≤ (x.src1 x.w.a 0).toNat)),
  issues (fun s => rs 8 5 (dieW (fun d => { d with exns := 2, exown := 5, exslb := 0x100000, exsls := 4096, ert := [{ e := 5, state := 2, use := false, slot := 1, park := 0, ref := 65534, wantSlot := false }] }) (env s))) 0x9300C4308D23F00000000000 { memory := true } (fun x => x.tp != 0 && (findDie x.s x.t.die).any fun d => teamTenant x.s x.t == d.exown && (ertOf d (x.src1 x.w.a 0).toNat).state == 2 && (opnd x.w.b).kd != .s),
  issues (fun s => rs 8 5 (dieW (fun d => { d with exns := 2, exown := 5, exslb := 0x100000, exsls := 4096, ert := [{ e := 5, state := 3, use := false, slot := 1, park := 0, ref := 0, wantSlot := false }] }) (env s))) 0x9300C4308D23F00000000000 { memory := true } (fun x => (findDie x.s x.t.die).any fun d => (ertOf d (x.src1 x.w.a 0).toNat).state == 3),
  issues (fun s => rs 8 5 (dieW (fun d => { d with exns := 2, exown := 5, exslb := 0x100000, exsls := 4096, ert := [{ e := 5, state := 2, use := false, slot := 1, park := 0, ref := 1, wantSlot := false }] }) (env s))) 0x9400D2308D23F00000000000 { memory := true } (fun x => x.tp != 0 && loadsDone x.p && (findDie x.s x.t.die).any fun d => (ertOf d (x.src1 x.w.a 0).toNat).ref == 1),
  issues env 0x9501C4320CC3F00000000000 { memory := true } (fun x => x.tp != 0 && (findDie x.s x.t.die).isSome && decide ((x.src1 x.w.a 0).toNat < 1024)),
  issues (fun s => gr (fun g => { g with mode := 1 }) (env s)) 0x9500C4320CC3F00000000000 { memory := true } (fun x => x.tp != 0 && (gridOf x.s x.t).mode != 0 && decide ((x.src1 x.w.a 0).toNat < (gridOf x.s x.t).experts ∧ (x.src1 x.w.b 0).toNat < (gridOf x.s x.t).parts.length)),
  issues (fun s => rs 8 5 (dieW (fun d => { d with exns := 2, exown := 5, exslb := 0x100000, exsls := 4096, ert := [{ e := 5, state := 1, use := false, slot := 1, park := 0, ref := 0, wantSlot := false }] }) (env s))) 0x9300C4308D23F00000000000 { memory := true } (fun x => (opnd x.w.b).kd != .s && (findDie x.s x.t.die).any fun d => teamTenant x.s x.t == d.exown && (ertOf d (x.src1 x.w.a 0).toNat).state == 1),
  issues (fun s => rs 8 5 (dieW (fun d => { d with exns := 2, exown := 5, exslb := 0x100000, exsls := 4096, ert := [{ e := 5, state := 2, use := false, slot := 1, park := 0, ref := 0, wantSlot := false }] }) (env s))) 0x9400D2308D23F00000000000 { memory := true } (fun x => loadsDone x.p && (findDie x.s x.t.die).any fun d => (ertOf d (x.src1 x.w.a 0).toNat).ref == 0),
  issues (fun s => rs 8 1024 (dieW (fun d => { d with exns := 2, exown := 5, exslb := 0x100000, exsls := 4096 }) (env s))) 0x9400D2308D23F00000000000 { memory := true } (fun x => loadsDone x.p && decide (1024 ≤ (x.src1 x.w.a 0).toNat)),
  issues (fun s => rs 32 1024 (env s)) 0x9501C4320CC3F00000000000 { memory := true } (fun x => x.tp != 0 && (x.src1 x.w.a 0).toNat == 1024),
  issues (fun s => rs 48 1 (env s)) 0x9501C4320CC3F00000000000 { memory := true } (fun x => x.tp != 0 && (x.src1 x.w.b 0).toNat == max 1 (gridOf x.s x.t).parts.length)].all id = true := by decide

/-- 64-bit word `v` at physical address `a`. -/
def put (a v : Nat) (s : State) : State := { s with mem := msetList s.mem a (toBytes (BitVec.ofNat 64 v : BitVec 64) 8) }

/-- Page tables of tenants 0 and 5 on every die: VA 0x80000 private HBM at 0x100000, 0x100000 coherent HBM at 0x200000, 0x180000
CXL memory (Tables 14-3, 14-4). -/
def pages (tenant root : Nat) (s : State) : State :=
  put (8 * tenant) (root + 1) (put root (root + 0x10001) (put (root + 0x10000) (root + 0x20001) (put (root + 0x20000) (root + 0x30001)
    (put (root + 0x30008) (tenant * 2 ^ 52 + 0x100000 + 7 * 2 ^ 9 + 3)
      (put (root + 0x30010) (tenant * 2 ^ 52 + 0x200000 + 2 * 2 ^ 15 + 7 * 2 ^ 9 + 3)
        (put (root + 0x30018) (tenant * 2 ^ 52 + 2 ^ 48 + 2 * 2 ^ 15 + 2 ^ 17 + 7 * 2 ^ 9 + 3) s))))))
def paging (s : State) : State := env (pages 0 0x50000 (pages 5 0x10000 s))

/-- Group 0 of one local rank, whose record is at VA 0x100000, and its instance, whose parameter block is at VA 0x100080. -/
def grp0 : Grp := { (default : Grp) with rankl := 0x100000, mloc := 1, p := 1, m := 1, tenant := 5, valid := true, timeout := 1 }
def withGrp (s : State) : State := { s with grps := [grp0] }
def inst0 (st : Nat) : Inst :=
  { newInst 0 0 false false (newMember 0 0x100080 5 0 0 { (default : Block) with n := 64, ch := 4096, src := 0x101000, dst := 0x102000, bo := 0x100100, pv := 0x100140, spill := 0x180000, tenant := 5, prio := 1 }) with state := st }
/-- Die 0's L2 holds every token of the seven lines of a frame at PA 0x100000. -/
def hold (s : State) : State :=
  { s with toks := (List.range 7).map fun i => { line := 0x100000 + 256 * i, h := .l2 0, n := 16, owner := true, valid := true } }

set_option maxRecDepth 100000 in
/-- A parameter block in coherent HBM with a group whose rank 0 the team speaks for, with one for which it does not, and with no group; PROGV at an instance that runs and at one that has aborted; the status forms, also of an aborted block, and of windows 255 and 256. -/
theorem witness_collectives : [
  issues (fun s => withGrp (rs 4 0x100080 (rs 5 0 (rs 6 3 (paging s))))) 0x9800C1704D23F00000000000 { memory := true } (fun x => x.tp != 0 && (match checkAll x.s x.t x.p.spx .load [{ thread := (threadsOf x.tp).headD 0, ea := x.src2 x.w.a 0, n := 128 }] with | .ok [(_, [(0, 128, .mem pa owner .coherent pte _ _)])] => !pageDiscarded x.s pte && caldUp x.s && !x.ctrStops [6] && !(pendMeets ((if jRel x.w then x.p.pend else []) ++ fencedFor x.s x.r.sp x.p.pend) [{ thread := 0, ea := x.src2 x.w.a 0, n := 128, part := 0, loc := .mem pa owner .coherent pte 0 0, val := 0, val2 := 0 }]) && (findGrp x.s (parseBlock (memBytes x.s owner pa 128)).group.toNat).any fun g => nextRank g (ranksOf x.s g x.t) == some 0 | _ => false)),
  issues ((fun s => { s with grps := s.grps.map fun g => { g with rankl := 0x80000 } }) ∘ (fun s => withGrp (rs 4 0x100080 (rs 5 0 (rs 6 3 (paging s))))) ∘ (put 0x100000 9)) 0x9800C1704D23F00000000000 { memory := true } (fun x => x.tp != 0 && (match checkAll x.s x.t x.p.spx .load [{ thread := (threadsOf x.tp).headD 0, ea := x.src2 x.w.a 0, n := 128 }] with | .ok [(_, [(0, 128, .mem pa owner .coherent pte _ _)])] => !pageDiscarded x.s pte && caldUp x.s && !x.ctrStops [6] && !(pendMeets ((if jRel x.w then x.p.pend else []) ++ fencedFor x.s x.r.sp x.p.pend) [{ thread := 0, ea := x.src2 x.w.a 0, n := 128, part := 0, loc := .mem pa owner .coherent pte 0 0, val := 0, val2 := 0 }]) && (findGrp x.s (parseBlock (memBytes x.s owner pa 128)).group.toNat).any fun g => nextRank g (ranksOf x.s g x.t) == none | _ => false)),
  issues (fun s => { withGrp (rs 4 0x100080 (rs 5 0 (rs 6 3 (paging s)))) with insts := [inst0 2] }) 0x9900D2304C1BF00000000000 { memory := true } (fun x => x.tp != 0 && !x.ctrStops [6] && (match memberAt x.s x.t (x.src2 x.w.a 0).toNat with | some (i, m) => i.state == 2 && m.ready == 0 && (x.src1 x.w.b 0).toNat == 3 | none => false)),
  issues (fun s => { withGrp (rs 4 0x100080 (rs 5 0 (rs 6 3 (paging s)))) with insts := [inst0 5] }) 0x9900D2304C1BF00000000000 { memory := true } (fun x => x.tp != 0 && !x.ctrStops [6] && (match memberAt x.s x.t (x.src2 x.w.a 0).toNat with | some (i, _) => i.state == 5 | none => false)),
  issues (fun s => { withGrp (rs 4 0x100080 (rs 5 0 (rs 6 3 (paging s)))) with insts := [inst0 2] }) 0x9A00C2304D23F00000000000 { memory := true } (fun x => x.tp != 0 && (memberAt x.s x.t (x.src2 x.w.a 0).toNat).isSome),
  issues (fun s => rs 6 3 { s with wins := [{ (default : Win) with w := 3, kind := 1 }] }) 0x9A01C2306D23F00000000000 { memory := true } (fun x => x.tp != 0 && (x.src1 x.w.a 0).toNat == 3 && (findWin x.s 3).isSome),
  issues (fun s => { withGrp (rs 4 0x100080 (rs 5 0 (rs 6 3 (paging s)))) with grps := [] }) 0x9800C1704D23F00000000000 { memory := true } (fun x => x.tp != 0 && caldUp x.s && (findGrp x.s 0).isNone && (x.release (jRel x.w)).any fun s => (findSp s x.r.sp).isSome),
  issues (fun s => { withGrp (rs 4 0x100080 (rs 5 0 (paging s))) with aborts := [(0, 0x100080)] }) 0x9A00C2304D23F00000000000 { memory := true } (fun x => x.tp != 0 && (memberAt x.s x.t (x.src2 x.w.a 0).toNat).isNone && x.s.aborts.contains (x.t.id, (x.src2 x.w.a 0).toNat)),
  issues (rs 6 256) 0x9A01C2306D23F00000000000 { memory := true } (fun x => x.tp != 0 && (x.src1 x.w.a 0).toNat == 256),
  issues (rs 6 255) 0x9A01C2306D23F00000000000 { memory := true } (fun x => x.tp != 0 && (x.src1 x.w.a 0).toNat == 255 && (findWin x.s 255).isNone)].all id = true := by decide

set_option maxRecDepth 100000 in
/-- TRAP and BKPT with a handler, BKPT with a debugger; HALT with a debugger and without; ERET outside a handler, and inside it with and without a window to execute again. -/
theorem witness_traps : [
  issues (tm fun t => { t with thnd := 0x4000 }) 0xA000D2348D23F00000000000 sysCls (fun x => x.tp != 0 && x.t.thnd != 0 && !x.p.tlv && !x.p.halted && !debugOn x.s x.t),
  issues (tm fun t => { t with thnd := 0x4000 }) 0xA500D2348D23F00000000000 sysCls (fun x => x.tp != 0 && x.t.thnd != 0 && !x.p.tlv && !x.p.halted && !debugOn x.s x.t),
  issues (fun s => gr (fun g => { g with debug := true }) (env s)) 0xA900D2348D23F00000000000 sysCls (fun x => x.tp != 0 && debugOn x.s x.t),
  issues env 0xA900D2348D23F00000000000 sysCls (fun x => x.tp != 0 && !debugOn x.s x.t && !x.p.halted),
  issues id 0xA100D2348D23F00000000000 sysCls (fun x => x.tp != 0 && !x.p.tlv),
  issues (sp fun p => { p with tlv := true, epc := 0x5000, epcW := 0 }) 0xA100D2348D23F00000000000 sysCls (fun x => x.p.tlv && x.p.traps == [] && x.p.epcW == 0),
  issues (sp fun p => { p with tlv := true, epc := 0x5000, epcW := 2 }) 0xA100D2348D23F00000000000 sysCls (fun x => x.p.tlv && x.p.epcW == 2),
  issues (fun s => gr (fun g => { g with debug := true }) (env s)) 0xA500D2348D23F00000000000 sysCls (fun x => x.tp != 0 && debugOn x.s x.t)].all id = true := by decide

set_option maxRecDepth 100000 in
/-- RDSYS of every user-readable register and of a die's registers in firmware; WRSYS of those that a level writes; SACT and FRSV; the two traps. -/
theorem witness_system_registers : [
  [0xA20002348D23F00000000000, 0xA20002348D23F00000000001, 0xA20002348D23F00000000002, 0xA20002348D23F00000000008, 0xA20002348D23F00000000009, 0xA20002348D23F0000000000C, 0xA20002348D23F0000000000D, 0xA20002348D23F0000000000E, 0xA20002348D23F0000000000F, 0xA20002348D23F00000000010, 0xA20002348D23F00000000011, 0xA20002348D23F00000000016, 0xA20002348D23F00000000017, 0xA20002348D23F00000000020, 0xA20002348D23F00000000021, 0xA20002348D23F00000000022, 0xA20002348D23F00000000030, 0xA20002348D23F00000000040, 0xA20002348D23F00000000041, 0xA20002348D23F00000000042, 0xA20002348D23F00000000043, 0xA20002348D23F00000000044, 0xA20002348D23F00000000045, 0xA20002348D23F00000000046, 0xA20002348D23F00000000048].all fun n => issues id n sysCls (fun x => x.tp != 0 && userRegs.any fun e => bitsOf x.w.mod 0 12 == e.1),
  [0xA20002348D23F00000000100, 0xA20002348D23F00000000101, 0xA20002348D23F00000000102, 0xA20002348D23F00000000103, 0xA20002348D23F00000000104, 0xA20002348D23F00000000105, 0xA20002348D23F00000000106, 0xA20002348D23F00000000107].all fun n => issues atFw n sysCls (fun x => x.tp != 0 && x.t.fw && (findDie x.s x.t.die).isSome && dieRegs.any fun e => bitsOf x.w.mod 0 12 == e.1),
  [0xA300D2304D23F00000000000, 0xA300D2304D23F00000000001, 0xA300D2304D23F00000000002, 0xA300D2304D23F00000000008, 0xA300D2304D23F00000000009, 0xA300D2304D23F0000000000C, 0xA300D2304D23F0000000000D, 0xA300D2304D23F0000000000E, 0xA300D2304D23F0000000000F, 0xA300D2304D23F00000000040, 0xA300D2304D23F00000000041, 0xA300D2304D23F00000000042, 0xA300D2304D23F00000000043, 0xA300D2304D23F00000000044, 0xA300D2304D23F00000000045, 0xA300D2304D23F00000000046].all fun n => issues atFw n sysCls (fun x => x.tp != 0 && !sysReadOnly x.t.fw x.p.tlv (bitsOf x.w.mod 0 12)),
  [0xA300D2304D23F00000000100, 0xA300D2304D23F00000000101, 0xA300D2304D23F00000000102, 0xA300D2304D23F00000000105, 0xA300D2304D23F00000000107].all fun n => issues atFw n sysCls (fun x => x.tp != 0 && x.t.fw && (findDie x.s x.t.die).isSome),
  issues id 0xA20002348D23F00000000100 sysCls (fun x => x.tp != 0 && !x.t.fw && decide (0x100 ≤ bitsOf x.w.mod 0 12)),
  [(0xA300D2304D23F00000000103, 0x103), (0xA300D2304D23F00000000104, 0x104)].all (fun e => issues atFw e.1 sysCls (fun x => x.tp != 0 && x.t.fw && bitsOf x.w.mod 0 12 == e.2)),
  issues id 0xA300D2304D23F00000000100 sysCls (fun x => x.tp != 0 && !x.t.fw && decide (0x100 ≤ bitsOf x.w.mod 0 12)),
  issues id 0xA300D2304D23F00000000030 sysCls (fun x => x.tp != 0 && sysReadOnly x.t.fw x.p.tlv (bitsOf x.w.mod 0 12))].all id = true := by decide

set_option maxRecDepth 100000 in
/-- ROLESW to 20 registers, to fewer, to more with row groups free, and to more with none free; TLBINV forms in firmware. -/
theorem witness_roles : [
  issues (rs 4 20) 0xA400D2304D23F00000000000 { serial := true, whole := 2 } (fun x => (x.src1 x.w.a 0).toNat == 20),
  issues ((rs 4 24) ∘ (sp fun p => { p with allot := 48, gmap := [0, 1] })) 0xA400D2304D23F00000000000 { serial := true, whole := 2 } (fun x => decide ((x.src1 x.w.a 0).toNat ≤ x.p.allot)),
  issues ((rs 4 72) ∘ (rs 6 0x4000) ∘ (sp fun p => { p with allot := 48, gmap := [0, 1] })) 0xA400D2304C1BF00000000004 { serial := true, whole := 2 } (fun x => decide (x.p.allot < (x.src1 x.w.a 0).toNat) && rowsFree x.t x.p 72 x.s.turnNo && bitsOf (x.src2 x.w.b 0) 56 8 == 0 && bitsOf (x.src2 x.w.b 0) 0 2 == 0),
  issues ((rs 4 72) ∘ (tm fun t => { t with spindles := t.spindles ++ [{ (default : Spindle) with spx := 64, gmap := (List.range 30).map (· + 2) }] }) ∘ (sp fun p => { p with allot := 48, gmap := [0, 1] })) 0xA400D2304D23F00000000000 { serial := true, whole := 2 } (fun x => decide (x.p.allot < (x.src1 x.w.a 0).toNat) && !(rowsFree x.t x.p 72 x.s.turnNo)),
  issues (env ∘ atFw) 0xA600D2320CC3F00000000000 { serial := true, priv := true } (fun x => x.tp != 0 && x.s.prefs == [] && x.s.teams.all fun t => t.spindles.all fun p => p.pend.all (fun y => y.accs == [] && y.paths.all (·.2)) && p.frags.all fun f => match f.st with | .bowait _ _ _ _ _ _ => false | _ => true),
  issues (env ∘ atFw) 0xA601D2348D23F00000000000 { serial := true, priv := true } (fun x => x.tp != 0 && x.s.prefs == [] && x.s.teams.all fun t => t.spindles.all fun p => p.pend.all (fun y => y.accs == [] && y.paths.all (·.2)) && p.frags.all fun f => match f.st with | .bowait _ _ _ _ _ _ => false | _ => true),
  issues (env ∘ atFw) 0xA602D2348D23F00000000000 { serial := true, priv := true } (fun x => x.tp != 0 && x.s.prefs == [] && x.s.teams.all fun t => t.spindles.all fun p => p.pend.all (fun y => y.accs == [] && y.paths.all (·.2)) && p.frags.all fun f => match f.st with | .bowait _ _ _ _ _ _ => false | _ => true)].all id = true := by decide

set_option maxRecDepth 100000 in
/-- CTXSAVE and CTXLOAD of a frame in private HBM: of another allotment, of a reserved MODE, of one that loads. -/
theorem witness_contexts : [
  issues (env ∘ (sp fun p => { p with allot := 24, gmap := [0] }) ∘ (rs 4 0x80000) ∘ (rs 5 0)) 0xA700D2304D23F00000000000 { serial := true, memory := true, whole := 2 } (fun x => (match checkAll x.s x.t x.p.spx .store ((List.range (frameSize x.p / 256)).map fun i => { thread := (threadsOf x.tp).headD 0, ea := x.src2 x.w.a 0 + BitVec.ofNat 64 (256 * i), n := 256 }) with | .ok rs => rs.all (fun r => r.2.all fun b => match b.2.2 with | .mem pa _ cls _ _ _ => isHbm pa && cls != .shared | _ => false) && (List.range 7).all fun c => ctrOf x.p c == 0 | _ => false)),
  issues (env ∘ hold ∘ (put 0x100008 48) ∘ (put 0x100010 1) ∘ (sp fun p => { p with allot := 24, gmap := [0] }) ∘ (rs 4 0x80000) ∘ (rs 5 0)) 0xA800D2304D23F00000000000 { serial := true, memory := true, whole := 2 } (fun x => (match checkAll x.s x.t x.p.spx .load ((List.range (frameSize x.p / 256)).map fun i => { thread := (threadsOf x.tp).headD 0, ea := x.src2 x.w.a 0 + BitVec.ofNat 64 (256 * i), n := 256 }) with | .ok rs => rs.all (fun r => r.2.all fun b => match b.2.2 with | .mem pa _ cls _ _ _ => isHbm pa && cls != .shared | _ => false) && ((x.p.pend ++ fencedFor x.s x.r.sp []).all fun y => y.accs.isEmpty) && (match readFrame x.t (frameCuts rs) x.s with | .ok (_, bs) => fieldAt bs 8 2 != x.p.allot | .error _ => false) | _ => false)),
  issues (env ∘ hold ∘ (put 0x100008 (24 + 0xFF * 2 ^ 48)) ∘ (put 0x100010 7) ∘ (sp fun p => { p with allot := 24, gmap := [0] }) ∘ (rs 4 0x80000) ∘ (rs 5 0)) 0xA800D2304D23F00000000000 { serial := true, memory := true, whole := 2 } (fun x => (match checkAll x.s x.t x.p.spx .load ((List.range (frameSize x.p / 256)).map fun i => { thread := (threadsOf x.tp).headD 0, ea := x.src2 x.w.a 0 + BitVec.ofNat 64 (256 * i), n := 256 }) with | .ok rs => rs.all (fun r => r.2.all fun b => match b.2.2 with | .mem pa _ cls _ _ _ => isHbm pa && cls != .shared | _ => false) && ((x.p.pend ++ fencedFor x.s x.r.sp []).all fun y => y.accs.isEmpty) && (match readFrame x.t (frameCuts rs) x.s with | .ok (_, bs) => fieldAt bs 8 2 == x.p.allot && word32At bs 0x10 == 7 && BitVec.ofNat 8 (fieldAt bs 0x0E 1) &&& ~~~x.p.live == 0 | .error _ => false) | _ => false)),
  issues (env ∘ hold ∘ (put 0x100008 (24 + 0xFF * 2 ^ 48)) ∘ (put 0x100010 1) ∘ (sp fun p => { p with allot := 24, gmap := [0] }) ∘ (rs 4 0x80000) ∘ (rs 5 0)) 0xA800D2304D23F00000000000 { serial := true, memory := true, whole := 2 } (fun x => (match checkAll x.s x.t x.p.spx .load ((List.range (frameSize x.p / 256)).map fun i => { thread := (threadsOf x.tp).headD 0, ea := x.src2 x.w.a 0 + BitVec.ofNat 64 (256 * i), n := 256 }) with | .ok rs => rs.all (fun r => r.2.all fun b => match b.2.2 with | .mem pa _ cls _ _ _ => isHbm pa && cls != .shared | _ => false) && ((x.p.pend ++ fencedFor x.s x.r.sp []).all fun y => y.accs.isEmpty) && (match readFrame x.t (frameCuts rs) x.s with | .ok (_, bs) => fieldAt bs 8 2 == x.p.allot && BitVec.ofNat 8 (fieldAt bs 0x0E 1) &&& ~~~x.p.live == 0 | .error _ => false) | _ => false))].all id = true := by decide

/-- Team 0 of a NOP's placement, with the pages of `paging`; with one pending instruction; and the reference of its spindle. -/
def base0 : State := paging (atWord id 0x0900D2348D23F00000000000)
def r0 : SpRef := { team := 0, spx := 0 }
def f0 : FragRef := { sp := r0, frag := 0 }
def pd (k : PendKind) (accs : List Acc) (word : IWord := 0) : Pend :=
  { (default : Pend) with id := 7, kind := k, accs := accs, tmask := 1, word := word, paths := [(0, false)] }
def withPend (e : Pend) : State → State := sp fun p => { p with pend := [e] }
def withFrag (g : Frag → Frag) : State → State := sp fun p => { p with frags := p.frags.map g }
def acc (pa n v : Nat) (cls : Cls := .priv) : Acc :=
  { thread := 0, ea := 0, n := n, part := 0, loc := .mem pa 5 cls 0x9000 (pa - pa % 2 ^ 19) (2 ^ 19), val := BitVec.ofNat 128 v, val2 := 0 }
def cxl : Nat := 2 ^ 48
/-- A place in HBM, and every token of its line at die 0's L2. -/
def hb : Nat := 0x200000
def tok16 (l : Nat) : Tok := { line := l, h := .l2 0, n := 16, owner := true, valid := true }
/-- May a team's core read the object at an HBM place at once (the premise of `BarrierObjects`)? -/
def boReadable (s : State) (t : Team) (pa : Nat) : Bool :=
  isHbm pa && !pageDiscarded s 0x9000 && mayRead s (.l2 t.die) (lineOf pa) && !memBad s pa 64 && decide ((l1Lines s t.die t.core).length < l1Cap)
/-- The pending instruction 7 of spindle 0, where `P` holds of it. -/
def pends (s : State) (P : Team → Spindle → Pend → Bool) : Bool :=
  match findPend s r0 7 with
  | some (t, p, x) => P t p x
  | none => false
/-- A pending instruction may be performed, and all of it is. -/
def performs (s : State) : Bool :=
  pends s fun t p x => pendMay s r0 p x && (performed s r0 t p x).left == [] && (performed s r0 t p x).bad == none

set_option maxRecDepth 100000 in
/-- Gang forms of two members meet; a fragment comes to its join, alone and last; it sleeps, ages, moves on and off chip. -/
theorem witness_fragments : [
  (let g := { grid0 with roles := [{ gang := 2, cls := 0, regs := 256, spt := 2, entry := 0 }] }
   let two := fun (s : State) => { tm (fun t => { t with spindles := [{ (default : Spindle) with spx := 0, live := 255, pend := [{ (pd (.gang 0 0 [(0, 5, 0)]) []) with word := 0 }] }, { (default : Spindle) with spx := 1, rlx := 1, live := 255, pend := [pd (.gang 0 0 [(0, 6, 0)]) []] }] }) s with grids := [g] }
   match findTeam (two base0) 0 with
   | some t => (gangMembers g t 0 0).length == 2 && (gangMembers g t 0 0).all (fun e => (gangPend e.2 0).isSome) && decide ((t.spindles.map (·.spx)).Nodup)
   | none => false),
  ((sp fun p => { p with frags := p.frags.map fun f => { f with join := some 3, mask := 0x0F }, joins := [{ id := 3, addr := 0, expected := 0xFF, arrived := 0xF0, parent := none, own := 0, onChip := true, used := 0, since := 0 }] }) base0).teams.all fun t => teamIssues base0 t && t.spindles.all fun p => p.joins.all (fun e => p.frags.all fun f => f.join == some e.id && e.addr == f.pc && e.arrived ||| f.mask == e.expected && f.onChip && e.onChip && p.st == .running && !p.halted && !p.tlv && f.st == .ready),
  ((sp fun p => { p with frags := p.frags.map fun f => { f with join := some 3, mask := 0x0F }, joins := [{ id := 3, addr := 0, expected := 0xFF, arrived := 0, parent := none, own := 0, onChip := true, used := 0, since := 0 }] }) base0).teams.all fun t => teamIssues base0 t && t.spindles.all fun p => p.joins.all (fun e => p.frags.all fun f => f.join == some e.id && e.addr == f.pc && e.arrived ||| f.mask != e.expected),
  (findFrag (withFrag (fun f => { f with st := .sleeping 0 }) base0) f0).any fun f => f.st == .sleeping 0,
  (findFrag (withFrag (fun f => { f with readyFor := 32 }) base0) f0).any fun f => f.st == .ready && decide (32 ≤ f.readyFor),
  (teamOnCore ((sp fun p => { p with frags := p.frags ++ [{ placedFrag 0 with id := 1, onChip := false }, { placedFrag 0 with id := 2 }] }) base0) 0 0).any fun t => decide ((splitEntries base0 t 0 true).length < 64) && (leastBy (fun e => e.2.2.2.2.2) (splitEntries base0 t 0 false)).isSome && (leastBy (fun e => e.2.2.2.2.2) ((splitEntries base0 t 0 true).filter fun e => !e.2.1)).isSome,
  pends (withPend (pd (.fpTrap 1 2 []) []) base0) fun _ _ y => y.kind == .fpTrap 1 2 [],
  pends (withPend { pd (.compute 2) [] with complete := false } base0) fun _ _ y => y.kind == .compute 2 && !y.complete].all id = true := by decide

set_option maxRecDepth 100000 in
/-- A load, a store, an atomic and a RED of system memory that may be performed; a load of bad bytes; a time out; a pushed group; DISCARD and CCTL at their ends; a write to each kind of place. -/
theorem witness_accesses : [
  performs (withPend (pd (.load 2 1) [acc cxl 4 0]) base0),
  performs (withPend (pd .store [acc cxl 4 9, { acc (cxl + 64) 4 9 with thread := 1 }]) base0),
  performs (withPend (pd (.atom 0 4 1) [acc cxl 4 9 .coherent]) base0),
  performs (withPend (pd (.acas 8 0x348) [acc cxl 8 9 .coherent]) base0),
  performs (withPend (pd (.arriveG 0x348) [acc cxl 8 0 .coherent]) base0),
  pends (withPend (pd (.load 2 1) [acc cxl 4 0]) base0) (fun _ _ x => !x.uni && (x.accs.filter fun a => match a.loc with | .mem pa _ _ _ _ _ => !isHbm pa | _ => false).length == 1),
  (let s := { withPend (pd (.load 2 1) [acc cxl 4 0]) base0 with badSec := [cxl] }
   pends s fun _ p x => pendMay s r0 p x && groupMay s r0 p x [] x.accs && memBad s cxl 4 && !pageDiscarded s 0x9000 && x.rel == none),
  (let s := tm (fun t => { t with ports := (List.range 8).map fun i => if i = 4 then { port0 with pushed := [(7, [])] } else default }) (withPend (pd .store []) base0)
   s.teams.all fun t => (t.port 4).any fun y => y.pushed.head?.any fun e => (t.spindles.find? fun p => p.pend.any fun x => x.id == e.1).isSome),
  pends (withPend (pd .discard [{ acc hb 256 0 with part := 0 }]) { base0 with toks := [tok16 hb] }) (fun t p x => let s := { base0 with toks := [tok16 hb] }; pendMay s r0 p x && groupMay s r0 p x [] x.accs && !homeLost s hb && mayWrite s (.l2 t.die) hb && s.reqs == []),
  pends (withPend (pd (.cctl 0) []) base0) (fun _ p _ => !(before p 7).any pendOpen),
  base0.teams.all (fun t => (match writeAt base0 t true (.scratch 0 8) [1, 2] with | .ok _ => true | .error _ => false)),
  base0.teams.all (fun t => (match writeAt base0 t true (.mem (cxl + 4) 5 .coherent 0x9000 cxl (2 ^ 19)) [1, 2] with
    | .ok s => !pageDiscarded s 0x9000 && (match readAt s t true (.mem (cxl + 4) 5 .coherent 0x9000 cxl (2 ^ 19)) 2 with | .ok (_, o) => o == [1, 2] | .error _ => false)
    | .error _ => false)),
  (let s := streams base0
   s.teams.all fun t => (t.port 0).any fun y => y.bound == some 0 && decide (8 * (y.pos + y.fetched.length) < y.total) && decide ((y.fetched.length + 1) * 8 * y.w ≤ 1024) &&
     (match checkAll s t 0 .load (y.wants 1) with | .ok rs => (match fetchGroup t y rs s with | .ok _ => true | .error _ => false) | _ => false)),
  (let s := tm (fun t => { t with ports := t.ports.map fun y => { y with base := 0x80FFFFFFFFFFFFF0 } }) (streams base0)
   s.teams.all fun t => (t.port 0).any fun y => (match checkAll s t 0 .load (y.wants 1) with | .trap _ _ _ _ => true | _ => false)),
  [1, 2].all (fun part => pends (withPend (pd .discard [{ acc cxl 4 0 with part := part }]) base0) (fun t p x => pendMay base0 r0 p x && groupMay base0 r0 p x [] x.accs && !homeLost base0 cxl && !pageDiscarded base0 0x9000 &&
    (match writeAt base0 t true (.mem cxl 5 .priv 0x9000 (cxl - cxl % 2 ^ 19) (2 ^ 19)) [0, 0, 0, 0] with | .ok _ => true | .error _ => false))),
  [1, 2, 3, 4].all (fun op => pends (withPend (pd (.cctl op) [acc cxl 1 0]) base0) (fun _ p x => x.kind == .cctl op && !(before p 7).any pendOpen)),
  (let s := { withPend (pd (.arriveG 1) [acc hb 8 0 .coherent]) base0 with toks := [tok16 hb] }
   pends s fun t p x => x.rel == none && x.got == [] && pendMay s r0 p x && groupMay s r0 p x [] x.accs && boReadable s t hb && mayWrite s (.l2 t.die) hb && !homeLost s hb),
  (let s := { base0 with toks := [tok16 hb] }
   isHbm hb && !pageDiscarded s 0x9000 && !homeLost s hb && mayRead s (.l2 0) (lineOf hb) && (List.range 8).all fun i => !memBad s (hb + 32 * i) 32),
  !mayRead base0 (.l2 0) hb && !pageDiscarded base0 0x9000 && !homeLost base0 hb,
  (let s := streams base0
   s.teams.all fun t => (t.port 0).any fun y => (match checkAll s t 0 .load (y.wants 1) with
     | .ok rs => let mine := accsOf rs (fun _ => 0) fun _ => 0
       !threadMeets (((t.spindle? 0).map (·.pend)).getD []) mine && !pendMeets (fencedFor s r0 []) mine
     | _ => false))].all id = true := by decide

set_option maxRecDepth 100000 in
/-- A wait at a barrier, before and after its generation changed; a barrier object below and at its target, and with a status. -/
theorem witness_waits : [
  (let s := withFrag (fun f => { f with st := .barrier 0 0 0 none }) base0
   s.teams.all fun t => (getBar s t 0 0).gen == 0 && t.st == .resident),
  (let s := withFrag (fun f => { f with st := .barrier 0 0 3 none }) base0
   s.teams.all fun t => (getBar s t 0 0).gen != 3),
  [(put hb 1, 2, 0), (put hb 2, 2, 0), (put (hb + 8) (4 * 2 ^ 32), 2, 4)].all (fun e =>
    let s := { withFrag (fun f => { f with st := .bowait 0 (.mem hb 5 .coherent 0x9000 hb (2 ^ 19)) 2 0x348 true 4 }) (e.1 base0) with toks := [tok16 hb] }
    s.teams.all fun t => t.st == .resident && boReadable s t hb && (findSp s r0).any fun p => !boBehind s f0 p 0 (.mem hb 5 .coherent 0x9000 hb (2 ^ 19)) &&
      ofBytesNat (((memBytes s 5 hb 64).drop 12).take 4) == e.2.2)].all id = true := by decide

/-- A copy that is accepted, to be checked or to move: form, view, shape, index list, pages, pieces moved. -/
def cp (form : Nat) (view shape : BitVec 128) (idx : List (Option Word) := []) (pages : List Tlb := []) : PendKind := .copy form view shape 0 false 1 idx pages []
def copying (k : PendKind) (ok : Bool) (s : State := base0) : State := withPend { pd k [] with accepted := some 7, complete := ok, paths := [(4, false)] } s
/-- A view of 32 by 32 words in system memory, a tile of one row of 32 words at `t`, with its index list at `i`. -/
def view32 : BitVec 128 := 0x180000 + 128 * 2 ^ 64 + 32 * 2 ^ 96 + 32 * 2 ^ 112
def shape32 (t i : Nat) : BitVec 128 := BitVec.ofNat 128 (t + 1 * 2 ^ 32 + 32 * 2 ^ 48 + i * 2 ^ 96)
/-- The premises of `CopiesAccepted` hold of the pending copy, and its descriptors and check satisfy `P`. -/
def accepts (k : PendKind) (P : CopyD → Checked → Bool) : Bool :=
  let s := copying k false
  pends s fun t p x => match x.kind with
    | .copy form view shape scale scaled _ _ _ _ =>
      let d := copyD (jUnpack x.word) form view shape scale scaled
      let v := if d.indexed then tornView s r0 7 (jRel (jUnpack x.word)) else s
      let idx := if d.indexed then readIndex ((findTeam v t.id).getD t) d else []
      !x.complete && !jAcq (jUnpack x.word) && !jRel (jUnpack x.word) && !((before p 7).any fun y => !y.complete && (copyOf y).isSome) &&
        (!d.indexed || ((fencedFor s r0 (before p 7)).isEmpty && !copyBlocked s t x [(t.id, d.idx, 4 * d.rows)] && decide (d.idx + 4 * d.rows ≤ teamScratch s t))) &&
        x.paths.any (!·.2) && P d (d.check { s with freeNo := v.freeNo } t p.spx idx)
    | _ => false
/-- A copy may move, and none of it has moved. -/
def moves (k : PendKind) (P : State → Team → Spindle → CopyD → List (Option Word) → List Tlb → Bool) : Bool :=
  let s := copying k true
  pends s fun t p x => (copyOf x).any fun c => copyMay s r0 t p x c.1 c.2.1 c.2.2.1 && movedOf x == [] && tornPlaces p 7 == [] && P s t p c.1 c.2.1 c.2.2.1

set_option maxRecDepth 100000 in
/-- Copies with a bad shape, a bad address, a bad tile, a good one, and an index list; a fill, a copy, a gather and a store at their ends; accesses of Basin words, good and bad. -/
theorem witness_engines : [
  accepts (cp 4 0 0) (fun d _ => d.badShape),
  accepts (cp 4 0 (shape32 0x80 0)) (fun d _ => !d.badShape && d.badAddr != none),
  accepts (cp 4 0 (shape32 0x10000 0)) (fun d c => !d.badShape && d.badAddr == none && (match c with | .trap _ _ _ _ => true | _ => false)),
  accepts (cp 4 0 (shape32 0 0)) (fun d c => !d.badShape && d.badAddr == none && c == .ok []),
  accepts (cp 2 view32 (shape32 0x100 0x40)) (fun d c => d.indexed && !d.badShape && d.badAddr == none && c == .ok []),
  moves (cp 4 0 (shape32 0 0)) (fun _ _ _ d idx _ => d.fills && d.elem idx 0 0 == none && !d.scaled),
  [cp 0 view32 (shape32 0 0) [] (env base0).tlb, cp 2 view32 (shape32 0 0x40) [some 3] (env base0).tlb].all (fun k =>
    moves k fun s t p d idx pages => d.fills && !d.scaled && (d.elem idx 0 0).any fun ij => match placeOf s t p.spx pages .load (d.viewAddr ij) d.viewBytes with
      | some (.mem pa _ _ pte _ _) => !isHbm pa && sysUp s pa && !pageDiscarded s pte && !memBad s pa d.viewBytes
      | _ => false),
  moves (cp 2 view32 (shape32 0 0x40) [some 99] (env base0).tlb) (fun _ _ _ d idx _ => d.indexed && d.elem idx 0 0 == none && (idx.getD 0 none).isSome),
  moves (cp 1 view32 (shape32 0 0) [] (env base0).tlb) (fun s t p d idx pages =>
    d.form == 1 && d.sop == 0 && d.sf != 6 && !d.scaled && t.badScratch == [] && s.lineOwner == [] &&
      (let at_ := fun (ij : Nat × Nat) => match placeOf s t p.spx pages .store (d.viewAddr ij) d.viewBytes with
        | some (.mem pa 5 _ pte _ _) => if isHbm pa || !sysUp s pa || pageDiscarded s pte || decide (pte + 8 > 2 ^ 49) then 0 else pa
        | _ => 0
       let ps := (grid2 d.rows d.cols).filterMap fun rc => (d.elem idx rc.1 rc.2).map at_
       ps == (List.range 32).map fun i => 2 ^ 49 + 0x80000 + 4 * i)),
  [0, 1, 2].all (fun form => pends (withPend { pd (.acc form 3 2 4 1 false) [] (4 * 2 ^ 70) with complete := form == 2 } base0) fun t p x =>
    tileTurn base0 t p x && !tileBusy base0 [(t.id, 1)] && x.got == [] && t.badBasin == [] && (form != 0 || (match opnd (jUnpack x.word).d with | .v _ => true | _ => false))),
  (let s := tm (fun t => { t with badBasin := [16384 + 256 * 3 + 16] }) (withPend (pd (.acc 0 3 2 4 1 false) []) base0)
   pends s fun t p x => tileTurn s t p x && x.got == [] && t.badBasin.any fun c => (List.range 4).any fun j => (List.range 8).any fun th => c == 16384 + 256 * (3 + j) + (16 + th))].all id = true := by decide

set_option maxRecDepth 100000 in
/-- An MMA whose pass may start, and real and complex ones whose result may be written. -/
theorem witness_passes : [
  (let m := pd (.mma (256 * 2 ^ 112) 0) [] 0x8800D2020CC3F00000000000
   let a : MatArr := { die := 0, core := 0, staged := some { sp := r0, id := 7, aRows := [], sRows := [] }, chuck := none, running := none, slaved := false }
   let s := { withPend m base0 with arrays := [a] }
   pends s fun t p x => let d := mmaD (jUnpack x.word) (256 * 2 ^ 112)
     t.core == 0 && !d.pair && (getArr s 0 0).running == none && (getArr s 0 0).staged.isSome && tileTurn s t p x && !jAcq (jUnpack x.word) && !jRel (jUnpack x.word) &&
       !pendMeets (fencedFor s r0 (before p 7)) (d.reads t)),
  ([(0, false), (2 ^ 87 + 3 * 2 ^ 80, true)] : List (Nat × Bool)).all (fun e =>
    let m := { pd (.mma (256 * 2 ^ 112) 0) [] (0x8800D2020CC3F00000000000 + BitVec.ofNat 96 e.1) with complete := true }
    let a : MatArr := { die := 0, core := 0, staged := none, chuck := none, running := some { sp := r0, id := 7, aRows := [], sRows := [] }, slaved := false }
    let s := { withPend m base0 with arrays := [a] }
    pends s fun t p x => let d := mmaD (jUnpack x.word) (256 * 2 ^ 112)
      t.die == 0 && t.core == 0 && !d.pair && d.cx == e.2 && (getArr s 0 0).running.isSome && coreCopies s t == [] && tornPlaces p 7 == [])].all id = true := by decide

/-- An MMA whose request is pending, and is granted. -/
def req0 : MatReq := { die := 0, cluster := 0, sp := r0, id := 7, core := 0, pair := false, cls := 0, seq := 0, granted := false }
def mma0 : State := { withPend (pd (.mma (256 * 2 ^ 112) 0) [] 0x8840D2020CC3F00000000000) base0 with matReqs := [req0] }
set_option maxRecDepth 100000 in
theorem witness_grant : pickGrant mma0 ((mma0.matReqs.filter fun q => q.die == 0 && q.cluster == 0 && !q.granted).mergeSort reqBefore) [] = some req0 ∧
    ((findSp mma0 req0.sp).any fun p => (p.pend.find? fun x => x.id == 7).isSome) = true := by
  refine ⟨?_, by decide⟩
  rw [show (mma0.matReqs.filter fun q => q.die == 0 && q.cluster == 0 && !q.granted) = [req0] from by decide, List.mergeSort_singleton]
  decide

/-- A line at the home, with one die, in a message. -/
def msg (b : MsgBody) (s : State := up) : State := { s with msgs := [{ id := 1, body := b }], nextId := 2 }
def tokd (n : Nat) (o : Bool) (s : State := up) : State := { s with toks := [{ line := 0, h := .l2 1, n := n, owner := o, valid := true }] }

set_option maxRecDepth 100000 in
/-- Token messages to a holder that answers and to one that ignores them; an attempt that is made again and one that gives up; an activation; an eviction. -/
theorem witness_tokens : [
  (let s := msg (.trs 0 (.l2 0) (.l2 1)) (tokd 16 true); !ownRequest s (.l2 1) 0 && tokOwner s (.l2 1) 0 && tokCount s (.l2 1) 0 == 16),
  (let s := msg (.trs 0 (.l2 0) (.l2 2)) (tokd 16 true); !tokOwner s (.l2 2) 0),
  (let s := msg (.trx 0 (.l2 0) (.l2 1)) (tokd 3 false); !ownRequest s (.l2 1) 0 && tokCount s (.l2 1) 0 == 3),
  (let s := msg (.trx 0 (.l2 0) (.l2 2)) (tokd 3 false); tokCount s (.l2 2) 0 == 0),
  (let s := msg (.tok 0 (.l2 0) 2 true true); actFor s (.l2 0) 0 == none),
  (let s := { msg (.tok 0 (.l2 0) 2 true true) with acts := [(.l2 0, 0, .l2 3, 1)] }; actFor s (.l2 0) 0 == some (.l2 3)),
  (let s := msg (.wbk 0 2 false false); actFor s .home 0 == none),
  (let s := { msg (.wbk 0 2 false false) with acts := [(.home, 0, .l2 3, 1)] }; actFor s .home 0 == some (.l2 3)),
  (let r : TokReq := { h := .l2 0, line := 0, write := true, attempts := 1, age := 600, total := 600, persistent := false }
   let s := { up with reqs := [r] }; !reqMet s r),
  (let r : TokReq := { h := .l2 0, line := 0, write := true, attempts := 4, age := 600, total := 2400, persistent := false }
   let s := { up with reqs := [r] }; !reqMet s r && decide (preqCount s (.l2 0) (homeDie 0) < 4)),
  (let s := msg (.preq 0 true (.l2 0)); (findDie s (homeDie 0)).isSome && s.preqs == []),
  (let s := { msg (.preq 0 true (.l2 0)) with preqs := [{ die := 0, line := 0, req := .l2 3, write := true, seq := some 1, order := 0 }] }; s.preqs.all fun p => p.seq.isSome),
  (let s := msg (.pact 0 (.l2 0) (.l2 1) 1) (tokd 3 false); s.deacts == [] && tokCount s (.l2 1) 0 == 3),
  (let s := { msg (.pdone 0 1) with preqs := [{ die := 0, line := 0, req := .l2 3, write := true, seq := some 1, order := 0 }] }; s.preqs.all fun p => p.seq == some 1),
  (findMsg (msg (.pdeact (.l2 1) 0 1)) 1).isSome,
  (tokAt (tokd 3 false) (.l2 1) 0).any fun x => x.n != 0].all id = true := by decide

set_option maxRecDepth 100000 in
/-- A refill that is asked for and granted; a page-in; instances that abort, start, restart and time out; windows. -/
theorem witness_units : [
  (let g := { grid0 with next := 4 }; (g.geyser 0).held == 0 && !(g.geyser 0).req && g.parts.any fun p => p.die == 0),
  (let g := { grid0 with next := 1, geysers := [{ die := 0, ranges := [], req := true }] }; (g.geysers.find? (·.req)).isSome && decide (g.next < g.count) && g.returned == []),
  (let d := { Die.reset 0 with ert := [{ e := 5, state := 1, use := false, slot := 0, park := 0, ref := 0, wantSlot := false }] }; (ertOf d 5).state == 1 && !(ertOf d 5).wantSlot && !d.lost),
  (let i := inst0 1; let s := { withGrp base0 with insts := [i] }
   badBlocks s grp0 i.members (peerBlocks grp0 i) == none && (freePlace s).isSome && firstWaiting s i && decide (grp0.mloc ≤ i.members.length) && !i.restart),
  (let i := { inst0 1 with members := (inst0 1).members.map fun (m : Member) => { m with blk := { m.blk with ch := 5 } } }; !i.checked && badBlocks (withGrp base0) grp0 i.members (peerBlocks grp0 i) == some 1),
  (let i := { inst0 1 with restart := true }; badBlocks (withGrp base0) grp0 i.members (peerBlocks grp0 i) == none && i.restart && firstWaiting { withGrp base0 with insts := [i] } i),
  (let i := { inst0 1 with timer := 1201 }; let s := { base0 with grps := [{ grp0 with mloc := 2, m := 2 }] }; instWaits s i && decide (timeoutCycles s 0 < i.timer)),
  (let x : Win := { (default : Win) with w := 3, kind := 2, timers := [(0, 12000001)] }; x.timers.any fun e => decide (timeoutCycles base0 x.wgroup < e.2)),
  (let s := { withGrp base0 with insts := [inst0 2], ueWaits := [(.inst 0 0, 1201)] }; (findInst s 0 0).isSome && s.ueWaits.any fun e => e.1 == .inst 0 0 && decide (timeoutCycles s 0 < e.2)),
  (let x : Win := { (default : Win) with w := 3, kind := 1, m := 1, ch := 2, span := 4, tenant := 5, bo := 0x100100 }
   let s := putWin base0 x
   caldUp s && (findWin s 3).any fun x => x.kind == 1 && decide (x.span ≤ 4) && (devBo s (rootDie s) x.tenant x.bo.toNat).any fun p => isHbm p.pa),
  devBo base0 (rootDie base0) 5 0x100100 != none && (devCoherent base0 (rootDie base0) 5 .store 0x300000 64).isOk == false,
  (let x : Win := { (default : Win) with w := 3, m := 2, ch := 256, span := 256, func := 0, tenant := 5, bo := 0x100100, spill := 0x180000, wbind := 2 ^ 24 }
   let s := putWin base0 x
   armFails (disarmWin s 3 true) (getWin (disarmWin s 3 true) 3) 2 == none),
  (armFails (disarmWin (putWin base0 (getWin base0 3)) 3 true) (getWin base0 3) 2).isSome,
  (let c : Ctx := newCtx 0 0 (.window 3); let s := { msg (.arrive (some (.window 3)) 0 6 0 0 0 [1]) with ctxs := [c] }
   (s.ctxs.find? fun x => x.owner == .window 3 && x.unit == 0).any (fun x => takesChunk s x 0) && decide (slotsUsed s < 256 ∧ 0 < unitLater)),
  (let s := { withGrp (put 0x200000 0xAB base0) with grps := [{ grp0 with peers := 0x100000 }], ctxs := [newCtx 16 0 (.inst 0 0)] }
   portUp s 16 && knownPeer s 0xAB && !knownPeer s 0xAC && (ownerCtx s (.inst 0 0)).isSome && sumOf [1, 0, 0, 0] == 1),
  loadError base0 1024 1024 [0x4C00000000000000] == none && loadError base0 1024 1025 [0x4C00000000000000] == some 1024 && loadError base0 1024 1024 [0x4C00000000000000, 0xFF00000000000000] == some 1025,
  (let i := { inst0 1 with k := 1 }; let s := { withGrp base0 with insts := [{ inst0 1 with checked := true }, i] }; !firstWaiting s i && badBlocks s grp0 i.members (peerBlocks grp0 i) == none),
  (let o : Owner := .window 3
   let x : Win := { (default : Win) with w := 3, m := 2, ch := 4, span := 4, itype := 0, spill := 0x100000 }
   let c : Ctx := { newCtx 0 0 o with tenant := 5, b2 := 0x100000 }
   let a : Arrival := { owner := some (.window 9), unit := 0, key := 0, chunk := 0, src := 0, ty := 0, data := [], spilled := false }
   let s := { msg (.arrive (some o) 0 6 0 0 0 [1, 0, 0, 0]) base0 with wins := [x], ctxs := [c], arrivals := List.replicate 256 a }
   decide (256 ≤ slotsUsed s) && takesChunk s c 0 && (match spillPlace s o c (rankOfTag s o 6 0 0) 0 0 4 with
     | some p => (match devRange s (rootDie s) 5 .store p 4 with | .ok _ => true | .error _ => false)
     | none => false)),
  (let s := { withGrp (put 0x200000 0xAB base0) with grps := [{ grp0 with peers := 0x100000 }], ctxs := [newCtx 16 0 (.inst 0 0)] }
   let m : UeMsg := { port := 16, endpoint := 0xAB, kind := .rudSend, bytes := List.replicate 16 0 ++ [4, 0, 0, 0, 1, 0, 0, 0] ++ List.replicate 8 0 ++ [1, 0, 0, 0] }
   let h := fieldAt m.bytes
   portUp s m.port && knownPeer s m.endpoint && decide (h 0 4 < 0xFFFFF000) && (ownerCtx s (.inst (h 0 4) (h 4 4))).isSome && sumOf ((m.bytes.drop 32).take (h 16 4)) == BitVec.ofNat 32 (h 20 4)),
  (let x : Win := { (default : Win) with w := 3, kind := 1, m := 1, ch := 2, span := 4, tenant := 5, stored := [(0, 0, 9)] }
   (rankChunk (putStored x 0 1 [8]) 0 0) == some [9, 8] && !rankAt x 0 0)].all id = true := by decide

/-- A context of window 3, or of instance 0 of group 0, at a program's second word, with one slot mapped and one saved. -/
def ctx0 (o : Owner) : Ctx :=
  { newCtx 0 0 o with first := 1024, len := 4, pc := 1025, nc := 2, ce := 1, le := 1, sc := 4, tenant := 5, b0 := 0x100000, b1 := 0x100100, b3 := 64,
                      slots := [(0, mkSlot 0 4 [1, 0, 0, 0])], saved := [(1, { mkSlot 0 4 [] with size := 4 })] }
def win3 : Win := { (default : Win) with w := 3, kind := 2, m := 2, ch := 4, span := 8, tenant := 5, bo := 0x100100, wbind := 2 ^ 24 }
def luState (o : Owner) (f : Ctx → Ctx := id) : State :=
  { withGrp base0 with
    cur := .ctx 0 0, wins := [win3], insts := [inst0 2], ctxs := [f (ctx0 o)],
    arrivals := [{ owner := o, unit := 0, key := 6, chunk := 0, src := 0, ty := 0, data := [5, 0, 0, 0], spilled := false },
                 { owner := o, unit := 0, key := 6, chunk := 0, src := 1, ty := 0, data := [7, 0, 0, 0], spilled := false }] }
def lwin (f : Ctx → Ctx := id) : State := luState (.window 3) f
def linst (f : Ctx → Ctx := id) : State := luState (.inst 0 0) f
/-- The acting context, where `P` holds of it. -/
def acts (s : State) (P : Ctx → Bool) : Bool := match findCtx s 0 0 with | some x => s.cur == .ctx x.unit x.c && P x | none => false
def ready (s : State) (x : Ctx) (v : Nat) : Bool := decide (v < x.sc) && ((lookSlot x.slots v).isSome || decide (slotsUsed s < 256))
def good (s : State) (x : Ctx) (v : Nat) : Bool := (slotOf s x v).any fun y => sumOf y.valid == y.sum && !y.residue

set_option maxRecDepth 100000 in
/-- A context acts, with its arrivals held and not, with loops open and at their limit, for a window and for an instance; slots mapped and saved; places of its writes. -/
theorem witness_luanil : [
  acts lwin (fun x => allHeld lwin x 6 [0, 1] && !allHeld lwin x 6 [2] && allHeld lwin x 6 []),
  acts (lwin fun x => { x with loops := [(0, 1), (0, 1), (0, 1), (0, 1)] }) (fun x => decide (4 ≤ x.loops.length)),
  acts (lwin fun x => { x with loops := [(1024, 2)] }) (fun x => x.loops == [(1024, 2)]) && acts (lwin fun x => { x with loops := [(1024, 1)] }) (fun x => x.loops == [(1024, 1)]),
  acts lwin (fun x => x.loops == [] && x.owner == .window 3) && acts linst (fun x => x.owner == .inst 0 0),
  acts lwin (fun x => ready lwin x 2 && ready lwin x 0 && (slotOf lwin x 0).isSome && (heldArr lwin x 6 0).any (fun a => a.ty == 0 && !arrBad lwin x a)),
  acts lwin (fun x => keyOwner lwin x 6 == some (.window 3) && good lwin x 0 && good lwin x 1 && ready lwin x 1 && (lookSlot x.saved 1).isSome && !fwdWaits lwin x { flags := 0, slot := 0, key := 6, mask := 1 }),
  acts lwin (fun x => x.members lwin == 1 && (planWrites lwin x.tenant [(0x100000, [1, 0, 0, 0])]).toOption.isSome),
  acts linst (fun x => (x.member? linst 0).isSome && (planWrites linst x.tenant [(0x102000, [1, 0, 0, 0])]).toOption.isSome),
  acts lwin (fun x => (match devCoherent lwin (rootDie lwin) x.tenant .load 0x100000 4 with | .ok _ => true | .error _ => false)),
  acts linst (fun x => (x.member? linst 0).any fun e => !e.2.2.blk.gated && (match devCoherent linst (rootDie linst) e.2.2.tenant .load e.2.2.blk.src.toNat 4 with | .ok _ => true | .error _ => false)),
  acts lwin (fun x => x.writes == [] && (x.win? lwin).any fun y => (winUpdate lwin { y with bo := x.b1 } (portNo x.unit) 0 2).any (·.2)),
  acts linst (fun x => (x.member? linst 0).any fun e => (devBo linst (rootDie linst) e.2.2.tenant e.2.2.blk.bo.toNat).isSome && (devCoherent linst (rootDie linst) e.2.2.tenant .store e.2.2.blk.pv.toNat 64).toOption.isSome && e.2.2.done == []),
  acts (lwin fun x => { x with writes := [(0x200000, 5, [1])] }) (fun x => x.writes != []),
  (let s := { linst with insts := [{ inst0 2 with members := (inst0 2).members.map fun (m : Member) => { m with done := [0] } }] }; (findInst s 0 0).any fun i => (i.members.find? fun m => m.rank == 0).any fun m => m.done.contains 0),
  lwin.lineOwner == [] && acts { lwin with insts := [], wins := [] } (fun x => x.win? { lwin with insts := [], wins := [] } == none && x.writes == [] && (devBo lwin (rootDie lwin) x.tenant x.b1.toNat).isSome)].all id = true := by decide

/-- A spindle stopped for a trap that went to firmware. -/
def rec0 : TrapRec := mkRec base0 (placedTeam 0) 0 0xFF 0x40 0 { cause := 0x0D, tmask := 1 }
def stopped (h : BitVec 64) : State := tm (fun t => { t with thnd := h }) (sp (fun p => { p with st := .fwStopped rec0, frags := p.frags.map fun f => { f with st := .trapped } }) base0)

set_option maxRecDepth 100000 in
/-- Traps that the handler takes and that firmware takes; a record to write; a stopped spindle; a fragment that the watchdog stops; walks, parked spindles, fetches, the debug service. -/
theorem witness_system_events : [
  (let s := tm (fun t => { t with thnd := 0x4000 }) base0; s.teams.all fun t => t.thnd != 0 && t.spindles.all fun p => canDeliver p 0 && !p.tlv),
  base0.teams.all (fun t => t.thnd == 0 && t.spindles.all fun p => canDeliver p 0 && !debugOn base0 t),
  (let s := dieW (fun d => { d with ftqb := 0x100000, ftqn := 4, trapQ := [(none, rec0)] }) base0
   (findDie s 0).any fun d => (devGet s 0 0 (d.ftqb.toNat + 32) 8).any (fun bs => d.written - ofBytesNat bs != d.ftqn.toNat) && !d.lost && decide (d.ftqn.toNat ≠ 0) &&
     (match devBo s 0 0 d.ftqb.toNat, devRange s 0 0 .store (d.ftqb.toNat + 64 + 64 * (d.written % d.ftqn.toNat)) 64 with
      | some b, .ok [p] => p.owner == b.owner && decide (b.pa + 64 ≤ p.pa) && !pageDiscarded s p.pte && !pageDiscarded s b.pte
      | _, _ => false)),
  (let s := stopped 0x4000
   (teamOnCore s 0 0).any fun t => t.thnd != 0 && t.spindles.all fun p => (recFrag p rec0) == some 0 && p.traps == [] && !p.tlv && p.joins == [] && p.frags.all (·.mask == 0xFF)),
  (findGrid (stopped 0) 0).any (·.st == .running),
  (let s := dieW (fun d => { d with wdog := 1 }) (withFrag (fun f => { f with waited := 1201, st := .barrier 0 0 0 none }) base0)
   (findFrag s f0).any fun f => s.teams.all (fun t => t.spindles.all fun p => inWait s t p f) && decide (1 * 1200 < f.waited) && s.teams.all fun t => t.st == .resident && t.spindles.all fun p => canDeliver p 0),
  (let s := withFrag (fun f => { f with st := .walking 0x80000 0x80000 1 }) (dieW (fun d => { d with walks := [(5, 0x80000)] }) base0)
   walk s 0 5 0x80000 == .leaf (leaf 0x100000 0 0) 0x40008 0x80000 (2 ^ 19) && (walkers s 0 5 0x80000).length == 1),
  (let s := sp (fun p => { p with st := .parked 0x80000 false false }) (dieW (fun d => { d with merges := [{ tenant := 5, granule := 0x80000, reason := 1 }] }) base0)
   frsvHits s 0 5 1 0x80000 && s.teams.all fun t => teamTenant s t == 5),
  (let s := gr (fun g => { g with ffb := 0x80000 }) (sp (fun p => { p with st := .parked 0x80000 true false, gmap := [], allot := 24, traps := [(0, { rec0 with cause := 4 })] }) base0)
   s.teams.all fun t => teamIssues s t && t.spindles.all fun p => decide (1 ≤ (freeGroups t 0).length) && !parkedEarlier t p && s.grids.all fun g => (devGet s 0 5 (faultFrame g t 0) (frameSize p)).isSome),
  (let s := withFrag (fun f => { f with pc := 0x80000, fetched := none }) { base0 with tlb := [tlbOf 0x80000 (leaf 0x100000 0 0)] }
   s.teams.all fun t => t.spindles.all fun p => p.frags.all fun f => fragReady s t p f &&
     (match checkAll s t 0 .exec ((List.range 3).map fun i => { thread := i, ea := f.pc + BitVec.ofNat 64 (4 * i), n := 4, badEa := bitsOf f.pc 56 8 != 0 }) with
      | .ok rs => rs.all fun e => (match e.2 with | [(0, 4, .mem pa _ _ pte _ _)] => !memBad s pa 4 && !pageDiscarded s pte | _ => false)
      | _ => false)),
  (let s := sp (fun p => { p with live := 0 }) base0; s.teams.all fun t => t.st == .resident && t.spindles.all fun p => spindleDone p),
  (let s := gr (fun g => { g with debug := true }) (sp (fun p => { p with halted := true }) base0)
   s.teams.all fun t => debugOn s t && t.spindles.all fun p => p.halted && p.traps == [] && p.live.getLsbD 0 && (p.frags.find? fun f => f.mask.getLsbD 0).any fun f => f.st != .atJoin)].all id = true := by decide

/-- Queue 0 of a tenant executes a packet of 12 bytes, with these levels. -/
def lev (bs : List (Option (Nat × Nat)) := []) : Level := { base := 0x100000, len := 4096, pos := 0, blocks := bs, skip := none }
def queue0 (tenant : Nat) (ls : List Level) : Queue := { (default : Queue) with armed := true, size := 4096, wp := 64, tenant := tenant, levels := ls }
def runs (tenant : Nat) (ls : List Level := [lev]) (f : State → State := id) : State := f { base0 with queues := [queue0 tenant ls], cur := .queue 0 12 }
def pk (body : List Word) (flags : BitVec 12 := 0) : Packet := { flags := flags, body := body }
/-- A launch record at VA 0x100100: one role of one spindle, two by two cores, Mode 0. -/
def record (tenant : Nat) (s : State) : State :=
  put 0x200108 (2 * 2 ^ 16 + 2 * 2 ^ 32) (put 0x200110 0x80000 (put 0x200120 (2 ^ 44 + 2 ^ 32) (put 0x200140 (1 + 2 ^ 16 + 2 ^ 32) (put 0x200150 0x100800
    (put 0x200178 0x100400 (put 0x200180 tenant s))))))

set_option maxRecDepth 100000 in
/-- A queue executes; addresses that are misaligned, not mapped, and mapped for its tenant; tests that hold and do not; blocks open, none, and at their limits; buffers; a launch's record that is missing, bad, rejected and admitted. -/
theorem witness_packets : [
  (findQueue (runs 5) 0).any fun x => (runs 5).cur == .queue x.n 12,
  (match devRange (runs 5) (rootDie (runs 5)) 5 .store 0x300000 4, devRange (runs 5) (rootDie (runs 5)) 5 .store 0x100000 4 with | .error _, .ok _ => true | _, _ => false),
  (latheRead (runs 5) (queue0 5 [lev]) .load 0x300000 4).isNone && (latheRead (runs 5) (queue0 5 [lev]) .load 0x100000 4).any (fun e => e.2.length == 4) && (latheRead (runs 5) (queue0 5 [lev]) .atomic 0x100000 8).isSome,
  condTest (pk [0x100000, 0, 0, 0, 0xFFFFFFFF, 0]) 0 && !condTest (pk [0x100000, 0, 1, 0, 0xFFFFFFFF, 0]) 0,
  (match condRead (runs 5) (queue0 5 [lev]) (pk [0x100000, 0, 0, 0, 0, 0]) with | .ok v => v == 0 | .error _ => false),
  condsOpen (lev (List.replicate 8 none)) == 8 && condsOpen (lev [none]) == 1 && loopsOpen (lev (List.replicate 4 (some (0, 2)))) == 4,
  (queue0 5 [lev, lev, lev, lev, lev]).depth == 4 && (queue0 5 [lev]).depth == 0,
  (devBo (runs 5) (rootDie (runs 5)) 5 0x100040).any fun y => !pageDiscarded (runs 5) y.pte,
  (match devRange (runs 5) (rootDie (runs 5)) 5 .discard 0x100000 256 with | .ok _ => true | .error _ => false),
  (latheRead (runs 5) (queue0 5 [lev]) .load 0x100080 128).any fun e => e.1.all (·.cls == .coherent) && (findGrp (runs 5) (parseBlock e.2).group.toNat).isNone && (findGrp (withGrp (runs 5)) (parseBlock e.2).group.toNat).any fun g => g.mloc == 1,
  !caldUp { runs 5 with ready := 0 } && caldUp (runs 5),
  (findDie (runs 5) 0).any fun d => d.exown != 5 && (ertOf d 3).state == 0,
  (match devRange (runs 0) (rootDie (runs 0)) 0 .store 0x100000 (resyncBytes (runs 0) 4096).length with | .ok _ => true | .error _ => false),
  (latheRead (runs 5) (queue0 5 [lev]) .load 0x300000 256).isNone,
  (latheRead (runs 5 [lev] (put 0x200100 1)) (queue0 5 [lev]) .load 0x100100 256).any (fun e => fieldAt e.2 0 1 == 1),
  (latheRead (runs 5) (queue0 5 [lev]) .load 0x100100 256).any (fun e => fieldAt e.2 0 1 == 0 && rejectReason (runs 5) e.2 (parseGrid e.2 9 0x100100 0 5) != 0),
  (latheRead (runs 5 [lev] (record 5)) (queue0 5 [lev]) .load 0x100100 256).any (fun e => rejectReason (runs 5 [lev] (record 5)) e.2 (parseGrid e.2 9 0x100100 0 5) == 0)].all id = true := by decide

/-- The queue control block of queue 0 at the table's base 0, and a grid of one cluster with its one team. -/
def qcb (size : Nat) (s : State) : State := put 0 1 (put 8 0x100000 (put 0x20 size { s with queues := [{ queue0 5 [lev] with armed := false }] }))
def gridState (st : GridSt) (ts : TeamSt) (f : Grid → Grid := id) : State :=
  gr (fun g => f { g with st := st, queue := 0, qten := 5, tenant := 5, lr := 0x100100, w := 2, h := 2 })
    (tm (fun t => { t with st := ts }) { base0 with queues := [queue0 5 [lev]] })
def held0 (s : State) : State := gr (fun g => { g with clusters := g.clusters.map fun c => { c with resident := false, home := some 0 } }) s

set_option maxRecDepth 100000 in
/-- A queue to arm, with good and bad fields, to disarm, to age; a launch in each state that a request or event finds; clusters and teams that start, swap, slice, retire and complete. -/
theorem witness_launches : [
  (let s := qcb 4096 up; latheUp s && qcb32 s 0 0 == 1 && !badQcb (readQcb s 0)),
  (let s := qcb 4097 up; qcb32 s 0 0 == 1 && badQcb (readQcb s 0) && (readQcb s 0).trb == 0),
  (findQueue (runs 5) 0).any fun x => x.armed && latheUp (runs 5),
  qcb32 { up with queues := [queue0 5 [lev]] } 0 0 == 0,
  (let s := put 0x200104 1 (gridState .running .resident); (findGrid s 0).any fun g => g.st == .running && reqOf s g == 1),
  (let s := put 0x200104 2 (gridState .running .resident); (findGrid s 0).any fun g => !g.ended && reqOf s g == 2),
  (let s := put 0x200104 3 (gridState .yielded .yieldExited); (findGrid s 0).any fun g => g.st == .yielded && reqOf s g == 3),
  (let s := put 0x200104 4 (gridState .running .resident); (findGrid s 0).any fun g => decide (3 < reqOf s g)) && (let s := put 0x200104 3 (gridState .running .resident); (findGrid s 0).any fun g => reqOf s g == 3 && g.st != .yielded),
  (let s := gridState .yielded .yieldExited fun g => { g with yieldedFor := some 4 }
   let s := { s with grids := s.grids ++ [{ grid0 with id := 4, st := .complete }] }
   (findGrid s 0).any fun g => g.yieldedFor == some 4 && (findGrid s 4).any (·.ended)),
  (let v := fun (i : Nat) => ({ grid0 with id := i, queue := 0, parts := [{ (default : Part) with inPlace := true }], clusters := [{ (default : Cluster) with home := some (i - 1), resident := true, phys := i - 1 }] } : Grid)
   let g : Grid := { grid0 with id := 20, queue := 1, st := .admitted, parts := [{ (default : Part) with dix := 0 }], clusters := [(default : Cluster)] }
   let s := { base0 with grids := (List.range 16).map (fun i => v (i + 1)) ++ [g], queues := [queue0 5 [lev], { queue0 5 [lev] with n := 1, prio := 3 }],
                         teams := (List.range 16).map fun i => { placedTeam 0 with id := i, grid := i + 1, core := 4 * i } }
   mayPreempt s g 0 && (victims s g 0).any fun l => l.length == 1),
  (let s := gridState .yielding .retired; s.teams.all fun t => t.st == .retired) && (gridState .yielding .yieldExited).teams.all fun t => t.st == .yieldExited,
  (let s := gr (fun g => { g with clusters := g.clusters.map fun c => { c with stopping := true } }) (gridState .aborting .resident)
   (findGrid s 0).any fun g => g.st == .aborting && g.clusters.all (fun c => !c.resident || c.stopping) && s.teams.all fun t => t.spindles.all fun p => spindleDrained s t p),
  (let s := held0 (gridState .running .waiting); (findGrid s 0).any fun g => g.clusters.all fun c => mayPlace s g c && !mayPreempt s g c.die && c.home == some 0 && placeFree s c.die 0),
  (let s := gr (fun g => { g with clusters := g.clusters.map fun c => { c with stopping := true } }) (gridState .running .resident)
   (findGrid s 0).any fun g => (teamsOf s g 0).length == 1 && (teamsOf s g 0).all fun t => t.st == .resident && imageUp s g t && !teamOver t && (t.spindles.all fun p => spindleDrained s t p) && s.dies.all fun d => d.sliceNext == []),
  (let s := sp (fun p => { p with st := .parked 0x80000 false false }) (gridState .running .resident)
   (findGrid s 0).any fun g => g.keeps && (teamsOf s g 0).length == 1 && (teamsOf s g 0).all fun t => t.spindles.all fun p => !p.retired && p.st == .parked 0x80000 false false),
  (let s := gridState .yielding .resident fun g => { g with clusters := g.clusters.map fun c => { c with grace := 60000 } }
   (findGrid s 0).any fun g => clusterLive s g 0 && g.clusters.all fun c => c.resident && !c.stopping && decide (50 * 1200 ≤ c.grace)),
  (let s := gridState .running .resident fun g => { g with parts := g.parts.map fun p => { p with inPlace := false } }
   sliceOver s 0 && (s.grids.all fun g => g.clusters.all (fun c => c.home.isNone) && g.parts.all fun p => !p.demoted && !p.inPlace) && (sliceOrder s 0).length == 1 && dieUp s 0 && ((turnTo none (clusterOrder s 0)).filter fun e => isSliced s e && takesPart s e).length == 1),
  (let s := sp (fun p => { p with retired := true, live := 0 }) (gridState .running .resident)
   s.teams.all fun t => teamOver t && s.grids.all fun g => (!teamLost s g t && !t.sawYield) && s.dies.all fun d => d.sliceNext == []),
  (let s := gridState .running .retired; s.teams.all fun t => t.spindles.all fun p => drained p)].all id = true := by decide

set_option maxRecDepth 100000 in
/-- Registers, the host and the package after reset. -/
theorem witness_package : [
  (findDie up 3).any fun d => d.ert == [] && !d.lost, dieUp up 3, hostUp up,
  (let s := { base0 with bar2 := [((0, 1), 0x100000)] }; s.ready.getLsbD 11 && (s.bar2.find? fun e => e.1 == (0, (2 ^ 19 + 8) / 2 ^ 19)).any fun e =>
    (match devPiece s (rootDie s) 0 .load (e.2 + 8) 8, devPiece s (rootDie s) 0 .store (e.2 + 8) 2 with | .ok p, .ok q => !devBad s [p] && !pageDiscarded s q.pte | _, _ => false)),
  (let s := { base0 with lathe := { base0.lathe with loading := some 0x100000 }, turns := [.microcode] }; nextTurn s == .microcode && latheUp s &&
    (devGet s (rootDie s) 0 0x100000 512).any fun h => (devGet s (rootDie s) 0 0x100200 (fieldAt h 8 4 % 2 ^ 19)).any fun code => refuseImage s h code == 1),
  (let s := { up with coming := 2 ^ 7, turns := [.bringUp 7] }; nextTurn s == .bringUp 7 && s.coming.getLsbD 7),
  (let s := { up with mailbox := mset [] 0x8020 1, attest := List.replicate 32 7 }; (mget s.mailbox 0x8020).getLsbD 0 && s.attest.length == 32),
  (keyOf up 5).isNone,
  (let s := dieW (fun d => { d with ert := [{ e := 5, state := 2, use := false, slot := 0, park := 0, ref := 0, wantSlot := false }] }) up; (findDie s 0).any fun d => d.ert.any (·.state != 0)),
  (inst0 2).state == 2, (up.lathe.ucode == none) && latheUp up,
  (match devRange base0 (rootDie base0) 0 .load 0x300000 8, devRange base0 (rootDie base0) 0 .load 0x80000 8, devRange base0 (rootDie base0) 0 .store 0x80000 2 with
   | .error _, .ok ps, .ok [p] => !devBad base0 ps && p.len == 2 && !pageDiscarded base0 p.pte | _, _, _ => false),
  paKind (2 ^ 48) == 1,
  (let s := { up with cycle := 1200000 }; dieUp s 3 && decide (1200000 ≤ (s.cycle - ofBytes 64 (mgetList s.telemetry 0 8)).toNat) && latheUp s && decide (s.lathe.window < shareWindow s))].all id = true := by decide

/-! ## Results -/

/-- The spindle after the one step that runs a placed word. -/
def ran (adj : State → State) (n : Nat) : Option Spindle :=
  match step (adj (State.reset.withFetchWord 96 n)) with
  | .next t => findSp t r0
  | _ => none
/-- With v1, v2 and v4 holding values, the placed word leaves a value in v3 of every thread. -/
def gives (n a b c r : Nat) : Bool :=
  (ran (rv 1 a ∘ rv 2 b ∘ rv 4 c) n).any fun q => (List.range 8).all fun t => vget q 3 t == BitVec.ofNat 32 r

set_option maxRecDepth 100000 in
/-- Results by hand from R112 and R116 to R119: sums that wrap and clamp, a high product, shifts by the width and more, a rotation, ANDN, a funnel shift, fields, counts. -/
theorem test_integer : [
  gives 0x100100C0100BF000D2348FC0 0x7fffffff 0x1 0x0 0x80000000,
  gives 0x100100C0100BF000D2348FC1 0x7fffffff 0x1 0x0 0x7fffffff,
  gives 0x110100C0100BF000D2348FC0 0x1 0x2 0x0 0xffffffff,
  gives 0x140100C0100BF000D2348FC0 0xffffffff 0x2 0x0 0xffffffff,
  gives 0x150100C0100BF00001348FC0 0x7 0x6 0x3 0x2d,
  gives 0x200000C0100BF000D2348FC0 0x1 0x20 0x0 0x0,
  gives 0x220100C0100BF000D2348FC0 0x80000000 0x28 0x0 0xffffffff,
  gives 0x230000C0100BF000D2348FC0 0x80000001 0x1 0x0 0x3,
  gives 0x1E0000C0100BF000D2348FC0 0xf0 0x30 0x0 0xc0,
  gives 0x240000C0100BF00001348FC0 0x11111111 0x4 0x2 0x21111111,
  gives 0x250100C0100BF000D2348FC0 0xf0 0x404 0x0 0xffffffff,
  gives 0x280000C01D23F000D2348FC0 0x0 0x0 0x0 0x20,
  gives 0x290000C01D23F000D2348FC0 0x8 0x0 0x0 0x3,
  gives 0x290000C01D23F000D2348FC0 0x0 0x0 0x0 0xffffffff,
  gives 0x2A0000C01D23F000D2348FC0 0xff 0x0 0x0 0x8,
  gives 0x270000C01D23F000D2348FC0 0x1 0x0 0x0 0x80000000].all id = true := by decide

set_option maxRecDepth 100000 in
/-- Results by hand from R140 and R171 to R176: 1 + 2, 2 * 3 + 1, the sum of infinities, a product below the normals, 1 / 2, the square root of 4. -/
theorem test_floats : [
  gives 0x400000C0100BF000D2348FC0 0x3f800000 0x40000000 0x0 0x40400000,
  gives 0x430000C0100BF00001348FC0 0x40000000 0x40400000 0x3f800000 0x40e00000,
  gives 0x400000C0100BF000D2348FC0 0x7f800000 0xff800000 0x0 0x7fc00000,
  gives 0x420000C0100BF000D2348FC0 0x800000 0x3f000000 0x0 0x400000,
  gives 0x500000C01D23F000D2348FC0 0x40000000 0x0 0x0 0x3f000000,
  gives 0x520000C01D23F000D2348FC0 0x40800000 0x0 0x0 0x40000000].all id = true := by decide

set_option maxRecDepth 100000 in
/-- Control and system forms by hand: BRA by 24, ICMP lt of an immediate, a ballot, EXIT of every thread, BAR of one spindle, TRAP into the handler, WRSYS of THND. -/
theorem test_control : [
  (ran id 0x0100D2348D23F00000000018).any fun q => q.frags.map (·.pc) == [24],
  (ran (rv 3 99) 0x2B8121003D2BF00000000064).any fun q => (List.range 8).all fun t => pget q 4 t,
  (ran (rv 3 100) 0x2B8121003D2BF00000000064).any fun q => !pget q 4 0,
  (ran (rp 2 0x2D) 0x350001402D23F00000000000).any fun q => vget q 5 7 == 0x2D,
  (ran id 0x0700D2348D23F00000000000).any fun q => q.live == 0,
  (match step (State.reset.withFetchWord 96 0x7300D2348D23F00000000010) with | .next t => t.teams.all (fun u => (getBar t u 0 0).gen == 1) | _ => false),
  (ran (tm fun t => { t with thnd := 0x4000 }) 0xA000D2348D23F00000000005).any fun q => q.frags.map (·.pc) == [0x4000] && q.epc == 12 && q.tlv && mget q.trec 0 == 0x0C,
  (match step (rs 4 0x4000 (State.reset.withFetchWord 96 0xA300D2304D23F00000000000)) with | .next t => t.teams.all (fun u => u.thnd == 0x4000) | _ => false)].all id = true := by decide

set_option maxRecDepth 100000 in
/-- Effects on memory by hand: a load and a store of system memory, an atomic add, a packet's write, a combining step of 1 + 2, SETC. -/
theorem test_effects : [
  (match exec (.loadDataArrival r0 7) (put cxl 0x12345678 (withPend (pd (.load 2 1) [acc cxl 4 0]) base0)) with | .next t => (findSp t r0).any fun q => vget q 1 0 == 0x12345678 && vget q 1 1 == 0 | _ => false),
  (match exec (.accessDone r0 7) (withPend (pd .store [acc cxl 2 0xABCD]) base0) with | .next t => mget t.mem cxl == 0xCD && mget t.mem (cxl + 1) == 0xAB && mget t.mem (cxl + 2) == 0 | _ => false),
  (match exec (.accessDone r0 7) (put cxl 5 (withPend (pd (.atom 0 4 1) [acc cxl 4 9 .coherent]) base0)) with | .next t => mget t.mem cxl == 14 && (findSp t r0).any fun q => vget q 1 0 == 5 | _ => false),
  (match exec (.write32 (pk [0x100000, 0, 7])) (runs 5) with | .next t => mget t.mem 0x200000 == 7 && (findQueue t 0).any fun x => x.level.pos == 12 | _ => false),
  (let f := fun (c : Ctx) => { c with pc := 1025 }
   let s := { lwin f with arrivals := [{ owner := some (.window 3), unit := 0, key := 6, chunk := 0, src := 0, ty := 0, data := [0, 0, 0x80, 0x3F], spilled := false },
                                       { owner := some (.window 3), unit := 0, key := 6, chunk := 0, src := 1, ty := 0, data := [0, 0, 0, 0x40], spilled := false }] }
   match exec (.cmb { flags := 0x10, slot := 2, key := 6, mask := 3 }) s with
   | .next t => (findCtx t 0 0).any fun x => x.pc == 1026 && (lookSlot x.slots 2).any fun y => y.data == [0, 0, 0x40, 0x40]
   | _ => false),
  (match exec (.setc { flags := 3, slot := 0, key := 0, mask := 100 }) lwin with | .next t => (findCtx t 0 0).any fun x => mget x.cs 3 == 100 | _ => false)].all id = true := by decide

/-- Does a step from a state answer a next state? -/
def stepsOn (s : State) : Bool := match step s with | .next _ => true | _ => false

set_option maxRecDepth 100000 in
/-- Steps of each stream: a placed Jolisol word, one that decodes to nothing, a Luanil word, a packet, an event, time; the first of them by a user team. -/
theorem witness_steps : [
  (let s := State.reset.withFetchWord 96 0x0900D2348D23F00000000000; nextTurn s == .issue [placedRef] && pickFrag (takeTurn s) [placedRef] == some placedRef && (findFrag s placedRef).any (fun f => f.fetched.any fun w => match decodeJolisol w with | .ok _ => true | .error _ => false) && s.teams.all (fun t => !t.fw) && stepsOn s),
  (let s := { placeJolisol up 0 with freeNo := 0 }; s.teams.all fun t => t.spindles.all fun p => p.frags.all fun f => fragReady (takeTurn s) t p f && windowLets p f {} && (match decodeJolisol 0 with | .error _ => true | .ok _ => false)),
  (let s := State.reset.withFetchWord 64 0x4C00000000000000; nextTurn s == .luanil 0 [0] && pickCtx (takeTurn s) 0 [0] == some 0 && caldUp s && (findCtx s 0 0).any (fun x => decide (1024 ≤ x.first ∧ x.first ≤ x.pc ∧ x.pc < x.first + x.len)) && (match decodeLuanil (mget s.store 1024) with | .ok _ => true | .error _ => false) && stepsOn s),
  (let s := State.reset.withFetchWord 32 0x00001000; nextTurn s == .packet && pickQueue (takeTurn s) == some 0 && (findQueue s 0).any (fun x => x.armed && x.waiting == none && x.level.skip == none && decide (x.level.pos + 4 ≤ x.wp) && (fetchWord (takeTurn s) 0 x.level.pos).any (·.2 == 0x00001000)) && stepsOn s),
  (let s := { State.reset with turns := [.event .shareWindowEnd] }; nextTurn s == .event .shareWindowEnd && isEvent .shareWindowEnd && stepsOn s),
  (let s := { State.reset with turns := [.tick 5] }; nextTurn s == .tick 5 && stepsOn s)].all id = true := by decide

/-- Both invariants hold of a state that steps on: the hypotheses of `StepKeepsInv` and `StepKeepsTokens`. -/
theorem witness_invariants : let s := { State.reset with turns := [.tick 1] }
    StateInv s ∧ TokensKept s ∧ StepsOn s :=
  ⟨⟨by decide, by decide, by decide, by decide, (fun _ h => by cases h)⟩,
   ⟨fun l => by simp [homeTok, heldTok, flightTok, State.reset], fun l => by simp [State.reset], (fun _ h => by cases h), (fun _ h => by cases h),
    (fun _ h => by cases h), by simp [State.reset]⟩, ⟨_, rfl⟩⟩

/-- Instructions of each stream that are well formed and have an encoding: the hypotheses of `DecodeOfEncode`. -/
theorem witness_encode :
    (WellFormed (.nop (jw 0 0x348 0x348 0x348 0)) ∧ (encodeJolisol (.nop (jw 0 0x348 0x348 0x348 0))).isSome = true) ∧
    (WellFormed (.luanilNop (lw 0 0 0 0)) ∧ (encodeLuanil (.luanilNop (lw 0 0 0 0))).isSome = true) ∧
    (WellFormed (.nopPacket { flags := 0, body := [] }) ∧ (encodePacket (.nopPacket { flags := 0, body := [] })).isSome = true) := by decide

/-- An image of the highest version, whose checks all pass where its signature, which the configuration checks, does (R448). -/
def imageCode : List Byte := [1, 0, 0, 0]
def imageHead : List Byte :=
  [1, 0, 0, 0, 0xFF, 0xFF, 0xFF, 0xFF, 4, 0, 0, 0, 0, 0, 0, 0] ++ List.replicate 16 0 ++ sha256 imageCode ++ List.replicate 448 0
set_option maxRecDepth 100000 in
theorem witness_image (h : Config.rsaVerify (imageHead.take 0x1C0) = true) : refuseImage State.reset imageHead imageCode = 0 := by
  have hv : fieldAt imageHead 4 4 = 0xFFFFFFFF := by decide
  have hf : microcodeFloor State.reset < 2 ^ 32 := by
    have b := fun i => (identityByte State.reset i).isLt
    have := b 0x5C; have := b 0x5D; have := b 0x5E; have := b 0x5F
    simp [microcodeFloor, ofBytesNat, List.range, List.range.loop] at *
    omega
  simp only [refuseImage]
  rw [if_neg (by decide), if_neg (by decide), if_neg (by rw [h]; decide), if_neg (by omega)]

end T
end

section
/-! Lemmas for the scope of instructions (R5, R385, R408): a projection of the state to what no instruction of a user team writes, and
for each operation of the model that it leaves that projection as it is. An operation that does write it (WRSYS, SET_SHARE, acts of
the host and of the Lathe) has a lemma for the cycle counter alone. -/

namespace Sys2Proof.Machine

open Sys2Proof

/-! ## The guarded part of a state -/

/-- The registers of a die that firmware or the host alone writes (R7, R314, R408). -/
structure DieRegs where
  id     : Nat
  system : BitVec 64 × Word × Word × BitVec 64 × BitVec 64 × BitVec 64
  expert : BitVec 64 × BitVec 64 × Word × Nat × Nat

/-- The guarded registers of a die. -/
def Die.regs (d : Die) : DieRegs :=
  { id := d.id, system := (d.ftqb, d.ftqn, d.wdog, d.trtb, d.pmap, d.ecccnt), expert := (d.exdir, d.exslb, d.exsls, d.exns, d.exown) }

/-- A field of the group table but the counts of blocks (R339, R361). -/
def Grp.uncounted (g : Grp) : Grp := { g with nextK := [] }

/-- What R5, R385 and R408 keep from an instruction of a user team. -/
structure Guarded where
  cycle    : BitVec 64
  keys     : List (Nat × BitVec 512)
  store    : SMap 64
  lathe    : Lathe
  ready    : BitVec 64
  saveBase : BitVec 64
  grps     : List Grp
  dies     : List DieRegs

/-- The guarded part of a state. -/
def State.guarded (s : State) : Guarded :=
  { cycle := s.cycle, keys := s.keys, store := s.store, lathe := s.lathe, ready := s.ready, saveBase := s.saveBase,
    grps := s.grps.map Grp.uncounted, dies := s.dies.map Die.regs }

/-- Every other field of a state may change. -/
@[simp] theorem guarded_with (s : State) (turns turnNo freeNo nextId cur swFrac coming mem lineOwner badSec poison flash l1 l1c l1Keep
    icache tlb toks reqs msgs prefs preqs acts deacts arrays matReqs teams grids queues wins insts ctxs arrivals ueWaits ueFails listQ
    progs oldKeys ctxFaults aborts loadBad dropped ueDropped ueRefused errLog errCount mailbox attest bar2 armQ telemetry meas hostResp
    dbgBuf) :
    State.guarded ⟨turns, turnNo, freeNo, nextId, cur, s.cycle, swFrac, s.ready, coming, mem, lineOwner, badSec, poison, flash, l1, l1c, l1Keep,
      icache, tlb, toks, reqs, msgs, prefs, preqs, acts, deacts, arrays, matReqs, s.dies, teams, grids, s.lathe, queues, wins, s.grps, insts,
      ctxs, arrivals, ueWaits, ueFails, listQ, s.store, progs, s.saveBase, s.keys, oldKeys, ctxFaults, aborts, loadBad, dropped,
      ueDropped, ueRefused, errLog, errCount, mailbox, attest, bar2, armQ, telemetry, meas, hostResp, dbgBuf⟩ = s.guarded := by
  simp only [State.guarded]

/-- The agents of a die may change. -/
@[simp] theorem regs_with (d : Die) (lost fwCore spare splsp hand ert waitQ merges walks sliceAt sliceNext sliceFrom trapQ written preqSeq
    clock frac power temp) :
    Die.regs ⟨d.id, lost, d.ftqb, d.ftqn, d.wdog, d.trtb, d.pmap, fwCore, spare, d.ecccnt, splsp, d.exdir, d.exslb, d.exsls, d.exns, d.exown,
      hand, ert, waitQ, merges, walks, sliceAt, sliceNext, sliceFrom, trapQ, written, preqSeq, clock, frac, power, temp⟩ = d.regs := by simp only [Die.regs]

theorem guarded_dies (s : State) (l : List Die) (h : l.map Die.regs = s.dies.map Die.regs) : ({ s with dies := l } : State).guarded = s.guarded := by
  simp only [State.guarded, h]

@[simp] theorem regs_ite (c : Prop) [Decidable c] (a b : Die) : (if c then a else b).regs = if c then a.regs else b.regs := apply_ite ..

@[simp] theorem guarded_ite (c : Prop) [Decidable c] (s t : State) : (if c then s else t).guarded = if c then s.guarded else t.guarded :=
  apply_ite ..

@[simp] theorem foldl_guarded {α : Type} (f : State → α → State) (h : ∀ s a, (f s a).guarded = s.guarded) (l : List α) (s : State) :
    (l.foldl f s).guarded = s.guarded := by
  induction l generalizing s with
  | nil => rfl
  | cons a l ih => exact (ih _).trans (h s a)

/-- An outcome whose next state, if it has one, agrees with `g` in `κ` of the guarded part. -/
structure Keeps {α : Type} (κ : Guarded → α) (g : Guarded) (o : Out) : Prop where
  of_next : ∀ u, o = .next u → κ u.guarded = κ g

section
variable {α : Type} {κ : Guarded → α} {g : Guarded}

theorem Keeps.of_eq {g' : Guarded} {o : Out} (h : Keeps κ g' o) (hg : g' = g) : Keeps κ g o := hg ▸ h

@[simp] theorem keeps_next (u : State) : Keeps κ g (.next u) ↔ κ u.guarded = κ g :=
  ⟨fun h => h.of_next u rfl, fun h => ⟨fun _ hu => Host.Outcome.next.inj hu ▸ h⟩⟩

@[simp] theorem keeps_fault (r : Fault) : Keeps κ g (.fault r) := ⟨fun _ h => nomatch h⟩

@[simp] theorem keeps_ite (c : Prop) [Decidable c] (a b : Out) : Keeps κ g (if c then a else b) ↔ (c → Keeps κ g a) ∧ (¬c → Keeps κ g b) := by
  split <;> simp_all
end

@[simp] theorem updTeam_guarded (s : State) (t : Nat) (f : Team → Team) : (updTeam s t f).guarded = s.guarded := rfl
@[simp] theorem updSp_guarded (s : State) (r : SpRef) (f : Spindle → Spindle) : (updSp s r f).guarded = s.guarded := rfl
@[simp] theorem updFrag_guarded (s : State) (r : FragRef) (f : Frag → Frag) : (updFrag s r f).guarded = s.guarded := rfl
@[simp] theorem updGrid_guarded (s : State) (g : Nat) (f : Grid → Grid) : (updGrid s g f).guarded = s.guarded := rfl

theorem map_updWhere {α β : Type} (g : α → β) (p : α → Bool) (f : α → α) (h : ∀ x, g (f x) = g x) (l : List α) :
    (updWhere p f l).map g = l.map g := by
  simp only [updWhere, List.map_map]
  refine List.map_congr_left fun x _ => ?_
  simp only [Function.comp_apply]
  split
  · exact h x
  · rfl

@[simp] theorem updDie_guarded (s : State) (d : Nat) (f : Die → Die) (h : ∀ d, (f d).regs = d.regs) : (updDie s d f).guarded = s.guarded := by
  unfold updDie State.guarded
  rw [map_updWhere _ _ _ h]

@[simp] theorem fresh_guarded (s : State) : (fresh s).2.guarded = s.guarded := rfl

/-! ## The operations, in the order of the model -/

section
variable {α : Type} {κ : Guarded → α} {g : Guarded}

/-! ### Ops -/

@[simp] theorem claimLine_guarded (s : State) (owner line : Nat) : (claimLine s owner line).guarded = s.guarded := by
  unfold claimLine
  split <;> simp

@[simp] theorem writeMem_guarded (s : State) (owner pa : Nat) (bs : List Byte) : (writeMem s owner pa bs).guarded = s.guarded := by simp [writeMem]

@[simp] theorem zeroFill_guarded (s : State) (owner pte base size : Nat) : (zeroFill s owner pte base size).guarded = s.guarded := by
  simp [zeroFill]

@[simp] theorem logError_guarded (s : State) (cls die core : Nat) (detail : Word) (line : BitVec 64) :
    (logError s cls die core detail line).guarded = s.guarded := by
  simp [logError]

@[simp] theorem setTok_guarded (s : State) (x : Tok) : (setTok s x).guarded = s.guarded := by simp [setTok]

@[simp] theorem l1Release_guarded (s : State) (h : Holder) (line : Nat) (keeps : Bool) : (l1Release s h line keeps).guarded = s.guarded := by
  unfold l1Release
  split <;> simp

@[simp] theorem send_guarded (s : State) (bs : List MsgBody) : (send s bs).guarded = s.guarded := by simp [send]
@[simp] theorem sendAll_guarded (s : State) (h dst : Holder) (line : Nat) : (sendAll s h dst line).guarded = s.guarded := by simp [sendAll]
@[simp] theorem logEvict_guarded (s : State) (die line : Nat) : (logEvict s die line).guarded = s.guarded := by simp [logEvict]

@[simp] theorem evictLine_guarded (s : State) (h : Holder) (line : Nat) : (evictLine s h line).guarded = s.guarded := by
  unfold evictLine
  split <;> simp

@[simp] theorem makeLineRoom_guarded (s : State) (h : Holder) (line : Nat) : (makeLineRoom s h line).guarded = s.guarded := by
  unfold makeLineRoom
  split <;> simp

@[simp] theorem passOn_guarded (s : State) (h : Holder) (line : Nat) : (passOn s h line).guarded = s.guarded := by
  unfold passOn
  split <;> simp

@[simp] theorem takeLine_guarded (s : State) (h : Holder) (line : Nat) : (takeLine s h line).guarded = s.guarded := by simp [takeLine]
@[simp] theorem takeLines_guarded (s : State) (h : Holder) (pa n : Nat) : (takeLines s h pa n).guarded = s.guarded := by simp [takeLines]
@[simp] theorem passLines_guarded (s : State) (h : Holder) (pa n : Nat) : (passLines s h pa n).guarded = s.guarded := by simp [passLines]

@[simp] theorem devWrite_guarded (s : State) (h : Holder) (owner pa : Nat) (bs : List Byte) : (devWrite s h owner pa bs).guarded = s.guarded := by
  simp [devWrite]

@[simp] theorem boUpdate_guarded (s : State) (h : Holder) (owner pa : Nat) (inc : Nat) (status flags : Nat) (updater : Word) :
    (boUpdate s h owner pa inc status flags updater).guarded = s.guarded := by
  simp [boUpdate]

@[simp] theorem logTrap_guarded (s : State) (r : TrapRec) : (logTrap s r).guarded = s.guarded := by simp [logTrap]

@[simp] theorem deliver_guarded (s : State) (sp : SpRef) (frag : Nat) (r : TrapRec) : (deliver s sp frag r).guarded = s.guarded := by
  simp only [deliver]
  (repeat' split) <;> simp

@[simp] theorem raiseTrap_guarded (s : State) (sp : SpRef) (frag : Nat) (r : TrapRec) : (raiseTrap s sp frag r).guarded = s.guarded := by
  unfold raiseTrap
  split <;> simp

@[simp] theorem raiseGangTrap_guarded (s : State) (sp : SpRef) (frag : Nat) (r : TrapRec) : (raiseGangTrap s sp frag r).guarded = s.guarded := by
  unfold raiseGangTrap
  split <;> simp

@[simp] theorem deliverPending_guarded (s : State) (sp : SpRef) : (deliverPending s sp).guarded = s.guarded := by
  unfold deliverPending
  (repeat' split) <;> simp

/-! ### Translate -/

@[simp] theorem tlbPut_guarded (s : State) (x : Tlb) : (tlbPut s x).guarded = s.guarded := by simp [tlbPut]

/-! ### Device -/

@[simp] theorem devPut_guarded (h : Holder) (ps : List DLoc) (bs : List Byte) (s : State) : (devPut h ps bs s).guarded = s.guarded := by
  induction ps generalizing bs s with
  | nil => rfl
  | cons p ps ih => simp [devPut, ih]

@[simp] theorem devSet_guarded (s : State) (h : Holder) (die tenant va : Nat) (bs : List Byte) : (devSet s h die tenant va bs).guarded = s.guarded := by
  unfold devSet
  split <;> simp

@[simp] theorem postBo_guarded (s : State) (h : Holder) (die tenant va inc status flags : Nat) (updater : Word) :
    (postBo s h die tenant va inc status flags updater).guarded = s.guarded := by
  unfold postBo
  split <;> simp

/-! ### Frame -/

@[simp] theorem finishPark_guarded (s : State) (sp : SpRef) : (finishPark s sp).guarded = s.guarded := by
  simp only [finishPark]
  (repeat' split) <;> simp

/-! ### Issue -/

@[simp] theorem keeps_trapAt (s : State) (r : FragRef) (t : Team) (p : Spindle) (f : Frag) (word : IWord) (c : Cond) :
    Keeps κ g (trapAt s r t p f word c) ↔ κ s.guarded = κ g := by simp [trapAt]

@[simp] theorem keeps_trap (x : Iss) (c : Cond) : Keeps κ g (x.trap c) ↔ κ x.s.guarded = κ g := keeps_trapAt ..
@[simp] theorem keeps_trapT (x : Iss) (cause reason : Nat) : Keeps κ g (x.trapT cause reason) ↔ κ x.s.guarded = κ g := keeps_trapAt ..
@[simp] theorem stallAt_guarded (s : State) (r : FragRef) (n : Nat) : (stallAt s r n).guarded = s.guarded := by simp [stallAt]

@[simp] theorem parkSpindle_guarded (s : State) (sp : SpRef) (frag granule : Nat) (rec : TrapRec) :
    (parkSpindle s sp frag granule rec).guarded = s.guarded := by
  simp [parkSpindle]

@[simp] theorem needWalk_guarded (s : State) (r : FragRef) (t : Team) (g : Nat) (ea : BitVec 64) (m : BitVec 8) :
    (needWalk s r t g ea m).guarded = s.guarded := by
  simp [needWalk]

@[simp] theorem keeps_needWalk (x : Iss) (n : Nat) (ea : BitVec 64) (m : BitVec 8) : Keeps κ g (x.needWalk n ea m) ↔ κ x.s.guarded = κ g := by
  simp [Iss.needWalk]

/-- A prologue that ends the issue does so at a state with the guarded part `g`. -/
def Pro.Holds (g : Guarded) (p : Pro) : Prop := ∀ u, p = .out u → u.guarded = g

theorem holds_ofOut {o : Out} (h : Keeps id g o) : (Pro.ofOut o).Holds g := by
  intro u hu
  cases o with
  | next v => exact h.of_next u (congrArg Host.Outcome.next (Pro.out.inj hu))
  | fault r => cases hu
  | refused r => cases hu

theorem popStop_holds (x : Iss) (e : Nat × Pop) : (x.popStop e).Holds x.s.guarded := by
  obtain ⟨q, e⟩ := e
  unfold Iss.popStop
  cases e with
  | ended => exact holds_ofOut ((keeps_trapT ..).mpr rfl)
  | bad ea => exact holds_ofOut ((keeps_trap ..).mpr rfl)
  | deferred =>
    dsimp only
    split
    · rintro u ⟨⟩
    · split
      · exact holds_ofOut (by simp)
      · exact holds_ofOut (by simp)
      · split
        · exact holds_ofOut (by simp)
        · rintro u ⟨⟩
          simp
  | group xs => rintro u ⟨⟩; simp
  | notYet => rintro u ⟨⟩; simp

theorem begin_holds (x : Iss) (i : Instr) (k : IssCls) : (x.begin i k).Holds x.s.guarded := by
  unfold Iss.begin
  split
  · exact holds_ofOut (by simp)
  · split
    · rintro u ⟨⟩
    · split
      · rintro u ⟨⟩
      · exact popStop_holds _ _

theorem prologue_holds (i : Instr) (k : IssCls) (s : State) : (prologue i k s).Holds s.guarded := by
  unfold prologue
  split
  · split
    · split
      · rintro u ⟨⟩
      · split
        · exact begin_holds _ _ _
        · rintro u ⟨⟩
          rfl
    · rintro u ⟨⟩
  · rintro u ⟨⟩

/-- An issue keeps what its form keeps of the state that it issues at. -/
theorem issue_keeps {i : Instr} {k : IssCls} {s : State} {body : Iss → Out} (h : ∀ x, IssFacts i k s x → Keeps κ x.s.guarded (body x)) :
    Keeps κ s.guarded (issue i k s body) := by
  unfold issue
  split
  · simp
  · next s' hp => simp [prologue_holds i k s s' hp]
  · next x hp =>
    have hx := prologue_facts hp
    simpa only [hx.state] using h x hx

@[simp] theorem commit_guarded (x : Iss) (pc : BitVec 64) (eff : Spindle → Spindle) : (Iss.commit x pc eff).guarded = x.s.guarded := by
  simp [Iss.commit]

@[simp] theorem keeps_issNext (x : Iss) (eff : Spindle → Spindle) : Keeps κ g (x.next eff) ↔ κ x.s.guarded = κ g := by simp [Iss.next]
@[simp] theorem keeps_skip (x : Iss) : Keeps κ g x.skip ↔ κ x.s.guarded = κ g := keeps_issNext ..
@[simp] theorem keeps_stall (x : Iss) (n : Nat) : Keeps κ g (x.stall n) ↔ κ x.s.guarded = κ g := by simp [Iss.stall]

@[simp] theorem push_keeps (x : Iss) (q : Nat) (res : List (Nat × BitVec 128)) (eff : Spindle → Spindle) (fpc : BitVec 5)
    (h : κ x.s.guarded = κ g) : Keeps κ g (x.push q res eff fpc) := by
  unfold Iss.push
  split
  · simp
  · split
    · simp [h]
    · split
      · simp [h]
      · simp [h]
      · simp [h, apply_ite Prod.snd]

@[simp] theorem compute_keeps (x : Iss) (n : Nat) (res : List (Nat × BitVec 128)) (eff : Spindle → Spindle) (fpc : BitVec 5)
    (h : κ x.s.guarded = κ g) : Keeps κ g (x.compute n res eff fpc) := by
  unfold Iss.compute
  split <;> simp [h]

/-! ### Coherence -/

@[simp] theorem backSec_guarded (s : State) (x : L1Sec) : (backSec s x).guarded = s.guarded := by simp [backSec]
@[simp] theorem writeBack_guarded (s : State) (sel : L1Sec → Bool) : (writeBack s sel).guarded = s.guarded := by simp [writeBack]
@[simp] theorem l1Drop_guarded (s : State) (die core line : Nat) : (l1Drop s die core line).guarded = s.guarded := by simp [l1Drop]
@[simp] theorem l1Mark_guarded (s : State) (die core line policy : Nat) : (l1Mark s die core line policy).guarded = s.guarded := by simp [l1Mark]
@[simp] theorem l1Room_guarded (s : State) (die core line : Nat) : (l1Room s die core line).guarded = s.guarded := by simp [l1Room]
@[simp] theorem l1Read_guarded (s : State) (die core pa : Nat) : (l1Read s die core pa).guarded = s.guarded := by simp [l1Read]
@[simp] theorem l1Write_guarded (s : State) (die core pa : Nat) : (l1Write s die core pa).guarded = s.guarded := by simp [l1Write]
@[simp] theorem dropMsg_guarded (s : State) (m : Nat) : (dropMsg s m).guarded = s.guarded := by simp [dropMsg]

@[simp] theorem attempt_guarded (s : State) (h : Holder) (line : Nat) (write : Bool) : (attempt s h line write).guarded = s.guarded := by
  simp [attempt]

@[simp] theorem wantLine_guarded (s : State) (h : Holder) (line : Nat) (write : Bool) : (wantLine s h line write).guarded = s.guarded := by
  simp [wantLine]

@[simp] theorem served_guarded (s : State) (h : Holder) (line : Nat) : (served s h line).guarded = s.guarded := by
  unfold served
  (repeat' split) <;> simp

@[simp] theorem receiveTok_keep_guarded (h : Holder) (line n : Nat) (owner data : Bool) (s : State) :
    (receiveTok.keep h line n owner data s).guarded = s.guarded := by simp [receiveTok.keep]

@[simp] theorem receiveTok_guarded (s : State) (h : Holder) (line n : Nat) (owner data : Bool) :
    (receiveTok s h line n owner data).guarded = s.guarded := by
  unfold receiveTok
  split <;> simp

theorem execTrs_keeps (msg : Nat) (s : State) : Keeps κ s.guarded (execTrs msg s) := by
  unfold execTrs
  split <;> simp

theorem execTrx_keeps (msg : Nat) (s : State) : Keeps κ s.guarded (execTrx msg s) := by
  unfold execTrx
  split <;> simp

theorem execTok_keeps (msg : Nat) (s : State) : Keeps κ s.guarded (execTok msg s) := by
  unfold execTok
  split <;> simp

theorem execWbk_keeps (msg : Nat) (s : State) : Keeps κ s.guarded (execWbk msg s) := by
  unfold execWbk
  split <;> simp

@[simp] theorem activate_guarded (s : State) (line : Nat) : (activate s line).guarded = s.guarded := by
  unfold activate
  dsimp only
  split
  · rfl
  · split
    · rfl
    · rw [send_guarded, guarded_with]
      simp

theorem execPreq_keeps (msg : Nat) (s : State) : Keeps κ s.guarded (execPreq msg s) := by
  unfold execPreq
  split <;> simp

theorem execPact_keeps (msg : Nat) (s : State) : Keeps κ s.guarded (execPact msg s) := by
  unfold execPact
  split <;> simp

theorem execPdone_keeps (msg : Nat) (s : State) : Keeps κ s.guarded (execPdone msg s) := by
  unfold execPdone
  split <;> simp

theorem execPdeact_keeps (msg : Nat) (s : State) : Keeps κ s.guarded (execPdeact msg s) := by
  simp only [execPdeact]
  (repeat' split) <;> simp

theorem execTransientAttemptTimeout_keeps (h : Holder) (line : Nat) (s : State) : Keeps κ s.guarded (execTransientAttemptTimeout h line s) := by
  unfold execTransientAttemptTimeout
  split <;> simp

theorem execL2Eviction_keeps (die line : Nat) (s : State) : Keeps κ s.guarded (execL2Eviction die line s) := by simp [execL2Eviction]

/-! ### Windows -/

@[simp] theorem updWin_guarded (s : State) (w : Nat) (f : Win → Win) : (updWin s w f).guarded = s.guarded := by simp [updWin]
@[simp] theorem updCtx_guarded (s : State) (unit c : Nat) (f : Ctx → Ctx) : (updCtx s unit c f).guarded = s.guarded := by simp [updCtx]
@[simp] theorem endOwner_guarded (s : State) (o : Owner) (perform : Bool) : (endOwner s o perform).guarded = s.guarded := by simp [endOwner]
@[simp] theorem landSome_guarded (s : State) (o : Owner) : (landSome s o).guarded = s.guarded := by simp [landSome]
@[simp] theorem disarmWin_guarded (s : State) (w : Nat) (perform : Bool) : (disarmWin s w perform).guarded = s.guarded := by simp [disarmWin]
@[simp] theorem winPost_guarded (s : State) (x : Win) (status : Nat) : (winPost s x status).guarded = s.guarded := by simp [winPost]

@[simp] theorem winFail_guarded (s : State) (w reason : Nat) : (winFail s w reason).guarded = s.guarded := by
  unfold winFail
  split <;> simp

@[simp] theorem winEnd_guarded (s : State) (w status : Nat) : (winEnd s w status).guarded = s.guarded := by
  unfold winEnd
  split <;> simp

@[simp] theorem reArrive_guarded (s : State) (o : Owner) (key c src : Nat) (data : List Byte) : (reArrive s o key c src data).guarded = s.guarded := by
  simp only [reArrive]
  (repeat' split) <;> simp

theorem winStore_guarded {s u : State} {tenant w rank off kind : Nat} {bs : List Byte} (h : winStore s tenant w rank off kind bs = some u) :
    u.guarded = s.guarded := by
  unfold winStore at h
  (repeat' split at h) <;> grind [updWin_guarded, winFail_guarded, reArrive_guarded, send_guarded, guarded_with]

/-! ### Memory -/

@[simp] theorem l1Put_guarded (s : State) (x : L1Sec) : (l1Put s x).guarded = s.guarded := by simp [l1Put]

theorem readAt_guarded {s : State} {t : Team} {alloc : Bool} {loc : Loc} {n : Nat} {u : State × List Byte} (h : readAt s t alloc loc n = .ok u) :
    u.1.guarded = s.guarded := by
  unfold readAt at h
  (repeat' split at h) <;> grind [l1Read_guarded, l1Put_guarded]

@[simp] theorem cohWrite_guarded (s : State) (t : Team) (alloc : Bool) (pa : Nat) : (cohWrite s t alloc pa).guarded = s.guarded := by
  simp [cohWrite]

theorem writeAt_guarded {s u : State} {t : Team} {alloc : Bool} {loc : Loc} {bs : List Byte} (h : writeAt s t alloc loc bs = .ok u) :
    u.guarded = s.guarded := by
  unfold writeAt at h
  (repeat' split at h) <;> grind [updTeam_guarded, winStore_guarded, zeroFill_guarded, writeMem_guarded, cohWrite_guarded, l1Put_guarded]

theorem updateAt_go_guarded {s : State} {t : Team} {loc : Loc} {n : Nat} {f : Nat → Option Nat} {u : State × Nat}
    (h : updateAt.go t loc n f s = .ok u) : u.1.guarded = s.guarded := by
  unfold updateAt.go at h
  split at h
  · cases h
  · next hr =>
    rw [← readAt_guarded hr]
    dsimp only at h
    split at h
    · cases h
      rfl
    · split at h
      · cases h
      · next hw =>
        cases h
        exact writeAt_guarded hw

theorem updateAt_guarded {s : State} {t : Team} {loc : Loc} {n : Nat} {f : Nat → Option Nat} {u : State × Nat}
    (h : updateAt s t loc n f = .ok u) : u.1.guarded = s.guarded := by
  unfold updateAt at h
  (repeat' split at h) <;> grind [updateAt_go_guarded, zeroFill_guarded]

@[simp] theorem acquireAt_guarded (s : State) (t : Team) (sc : Nat) : (acquireAt s t sc).guarded = s.guarded := by simp [acquireAt]

@[simp] theorem markLines_guarded (t : Team) (x : Pend) (l : List Acc) (s : State) : (markLines t x l s).guarded = s.guarded := by
  refine foldl_guarded _ (fun s a => ?_) _ _
  split <;> simp

theorem readPieces_guarded {t : Team} {alloc : Bool} {l : List Acc} {r u : State × Nat} (h : readPieces t alloc l r = .ok u) :
    u.1.guarded = r.1.guarded := by
  induction l generalizing r with
  | nil => grind [readPieces]
  | cons a l ih =>
    obtain ⟨s, v⟩ := r
    simp only [readPieces] at h
    split at h
    · cases h
    · next hr => exact (ih h).trans (readAt_guarded hr)

theorem writePieces_guarded {t : Team} {alloc : Bool} {l : List Acc} {s u : State} (h : writePieces t alloc l s = .ok u) :
    u.guarded = s.guarded := by
  induction l generalizing s with
  | nil => grind [writePieces]
  | cons a l ih =>
    simp only [writePieces] at h
    split at h
    · cases h
    · next hw => exact (ih h).trans (writeAt_guarded hw)

/-- A fold over accesses that stops at the first that is not performed. -/
theorem foldl_ok_guarded {β ε γ : Type} (f : Except ε (State × γ) → β → Except ε (State × γ))
    (h : ∀ r b u, f r b = .ok u → ∃ v, r = .ok v ∧ u.1.guarded = v.1.guarded) (l : List β) {v u : State × γ}
    (hf : l.foldl f (.ok v) = .ok u) : u.1.guarded = v.1.guarded := by
  suffices ∀ r, l.foldl f r = .ok u → ∃ v, r = .ok v ∧ u.1.guarded = v.1.guarded by
    obtain ⟨w, hw, hu⟩ := this _ hf
    cases hw
    exact hu
  clear hf
  induction l with
  | nil => exact fun r hr => ⟨u, hr, rfl⟩
  | cons b l ih =>
    intro r hr
    obtain ⟨w, hw, hu⟩ := ih _ hr
    obtain ⟨z, hz, hwz⟩ := h _ _ _ hw
    exact ⟨z, hz, hu.trans hwz⟩

theorem updatePieces_guarded {t : Team} {k : PendKind} {l : List Acc} {s : State} {u : State × Nat} (h : updatePieces t k l s = .ok u) :
    u.1.guarded = s.guarded := by
  unfold updatePieces at h
  split at h
  · exact updateAt_guarded h
  · split at h
    · cases h
    · next s' old hf =>
      have hs : s'.guarded = s.guarded := by
        refine foldl_ok_guarded _ (fun r b u hu => ?_) _ hf
        split at hu
        · cases hu
        · split at hu
          · cases hu
          · next hv =>
            cases hu
            exact ⟨_, rfl, (updateAt_guarded hv :)⟩
      grind [writePieces_guarded]
  · cases h
    rfl

theorem actOn_guarded {t : Team} {x : Pend} {l : List Acc} {s : State} {u : State × Option Nat} (h : actOn t x l s = .ok u) :
    u.1.guarded = s.guarded := by
  unfold actOn at h
  split at h
  · cases hr : readPieces t (keepsL1 x) l (s, 0) with
    | error e => simp [hr, Except.map] at h
    | ok r =>
      simp only [hr, Except.map, Except.ok.injEq] at h
      subst h
      exact readPieces_guarded hr
  · cases hr : writePieces t (keepsL1 x) l s with
    | error e => simp [hr, Except.map] at h
    | ok r =>
      simp only [hr, Except.map, Except.ok.injEq] at h
      subst h
      exact writePieces_guarded hr
  · cases hr : updatePieces t x.kind l s with
    | error e => simp [hr, Except.map] at h
    | ok r =>
      simp only [hr, Except.map, Except.ok.injEq] at h
      subst h
      exact updatePieces_guarded hr

@[simp] theorem servedAll_guarded (s : State) (t : Team) (l : List Acc) : (servedAll s t l).guarded = s.guarded := by
  refine foldl_guarded _ (fun s a => ?_) _ _
  split <;> simp

@[simp] theorem noteTorn_guarded (s0 s : State) (r : SpRef) (x : Pend) (g : List Acc) : (noteTorn s0 s r x g).guarded = s.guarded := by
  simp [noteTorn]

@[simp] theorem pendTrap_guarded (s : State) (r : SpRef) (t : Team) (p : Spindle) (x : Pend) (c : Cond) : (pendTrap s r t p x c).guarded = s.guarded := by
  simp [pendTrap]

@[simp] theorem workStep_guarded (r : SpRef) (t : Team) (p : Spindle) (x : Pend) (w : Work) (l : List Acc) :
    (workStep r t p x w l).s.guarded = w.s.guarded := by
  unfold workStep
  split
  · rfl
  · split <;> simp [*]
    next ha => exact actOn_guarded ha

@[simp] theorem closeWork_guarded (r : SpRef) (t : Team) (p : Spindle) (x : Pend) (w : Work) :
    (closeWork r t p x w).guarded = w.s.guarded := by
  unfold closeWork
  split
  · simp
  · split
    · split <;> simp
    · simp

@[simp] theorem allocWhole_guarded (s : State) (t : Team) (ws : List (Loc × Nat)) (e : Loc × Nat) : (allocWhole s t ws e).guarded = s.guarded := by
  unfold allocWhole
  (repeat' split) <;> simp

@[simp] theorem coverWhole_guarded (s : State) (t : Team) (alloc : Bool) (ws : List (Loc × Nat)) : (coverWhole s t alloc ws).guarded = s.guarded := by
  simp [coverWhole]

@[simp] theorem coverStore_guarded (s : State) (r : SpRef) (t : Team) (p : Spindle) (x : Pend) : (coverStore s r t p x).guarded = s.guarded := by
  simp [coverStore]

@[simp] theorem performPend_guarded (s : State) (r : SpRef) (t : Team) (p : Spindle) (x : Pend) :
    (performPend s r t p x).guarded = s.guarded := by
  unfold performPend
  split
  · rfl
  · rw [closeWork_guarded, foldl_keeps (fun w : Work => w.s.guarded) _ fun w a => workStep_guarded ..]
    split <;> simp

@[simp] theorem performSome_guarded (s : State) (r : SpRef) (t : Team) (p : Spindle) (x : Pend) (m : BitVec 8) :
    (performSome s r t p x m).guarded = s.guarded := by
  unfold performSome
  split
  · exact performPend_guarded ..
  · split
    · rfl
    · rw [closeWork_guarded, foldl_keeps (fun w : Work => w.s.guarded)]
      · split <;> simp
      · intro w a
        split <;> simp

@[simp] theorem askTokens_guarded (s : State) (t : Team) (x : Pend) : (askTokens s t x).guarded = s.guarded := by
  refine foldl_guarded _ (fun s a => ?_) _ _
  split <;> simp

@[simp] theorem flushCore_guarded (s : State) (die core : Nat) : (flushCore s die core).guarded = s.guarded := by simp [flushCore]
@[simp] theorem dropRange_guarded (s : State) (base len : Nat) : (dropRange s base len).guarded = s.guarded := by simp [dropRange]
@[simp] theorem zeroRange_guarded (s : State) (owner base len : Nat) : (zeroRange s owner base len).guarded = s.guarded := by simp [zeroRange]
@[simp] theorem discardPage_guarded (s : State) (pte base size : Nat) : (discardPage s pte base size).guarded = s.guarded := by simp [discardPage]

@[simp] theorem discardNow_guarded (s : State) (h : Holder) (lines pages : List (Nat × Nat × Nat)) :
    (discardNow s h lines pages).guarded = s.guarded := by
  simp [discardNow]

@[simp] theorem discardLines_guarded (t : Team) (owner pa n : Nat) (s : State) : (discardLines t owner pa n s).1.guarded = s.guarded := by
  induction n generalizing pa s with
  | zero => rfl
  | succ n ih =>
    simp only [discardLines]
    split
    · simp
    · split
      · rfl
      · rw [ih]
        simp

@[simp] theorem discardStep_guarded (r : SpRef) (t : Team) (p : Spindle) (x : Pend) (w : Work) (a : Acc) :
    (discardStep r t p x w a).s.guarded = w.s.guarded := by
  unfold discardStep
  split
  · rfl
  · split
    · next pa owner cls pte base size _ =>
      split
      · rfl
      · split
        · simp
        · split
          · split <;> simp [*]
            next hw => exact writeAt_guarded hw
          · have h := discardLines_guarded t owner pa (a.n / 256) (zeroFill w.s owner pte base size)
            split <;> simp_all
    · rfl

@[simp] theorem performDiscard_guarded (s : State) (r : SpRef) (t : Team) (p : Spindle) (x : Pend) :
    (performDiscard s r t p x).guarded = s.guarded := by
  unfold performDiscard
  split
  · rfl
  · rw [closeWork_guarded, foldl_keeps (fun w : Work => w.s.guarded) _ fun w a => discardStep_guarded ..]

@[simp] theorem cctlLine_guarded (s : State) (t : Team) (op pa : Nat) : (cctlLine s t op pa).guarded = s.guarded := by simp [cctlLine]

theorem execLoadDataArrival_keeps (r : SpRef) (id : Nat) (s : State) : Keeps κ s.guarded (execLoadDataArrival r id s) := by
  unfold execLoadDataArrival
  (repeat' split) <;> simp

theorem execAccessDone_keeps (r : SpRef) (id : Nat) (s : State) : Keeps κ s.guarded (execAccessDone r id s) := by
  unfold execAccessDone
  (repeat' split) <;> simp

@[simp] theorem partTurn_guarded (s : State) (r : SpRef) (id : Nat) (m : BitVec 8) : (partTurn s r id m).guarded = s.guarded := by
  unfold partTurn
  (repeat' split) <;> simp

theorem execSystemMemoryTimeout_keeps (r : SpRef) (id : Nat) (s : State) : Keeps κ s.guarded (execSystemMemoryTimeout r id s) := by
  simp only [execSystemMemoryTimeout]
  (repeat' split) <;> simp

/-- A memory form keeps what its act keeps of the state that it issues at. -/
theorem memForm_keeps {i : Instr} {k : AKind} {s : State} {want : Iss → Nat → Want} {go : Iss → List (Want × List (Nat × Nat × Loc)) → Out}
    (h : ∀ x rs, Keeps κ x.s.guarded (go x rs)) : Keeps κ s.guarded (memForm i k s want go) := by
  refine issue_keeps fun x _ => ?_
  split
  · simp
  · split
    · simp
    · simp
    · exact h _ _

@[simp] theorem launch_keeps (x : Iss) (kind : PendKind) (ld complete acq rel : Bool) (accs : List Acc) :
    Keeps κ x.s.guarded (x.launch kind ld complete acq rel accs) := by
  simp [Iss.launch]

theorem loadForm_keeps (i : Instr) (w : JWord) (want : Nat → Iss → Nat → Want) (s : State) : Keeps κ s.guarded (loadForm i w want s) :=
  memForm_keeps fun _ _ => launch_keeps _ _ _ _ _ _ _

theorem storeForm_keeps (i : Instr) (w : JWord) (want : Nat → Iss → Nat → Want) (s : State) : Keeps κ s.guarded (storeForm i w want s) :=
  memForm_keeps fun _ _ => launch_keeps _ _ _ _ _ _ _

@[simp] theorem prefetch_guarded (t : Team) (policy va : Nat) (s : State) (loc : Loc) : (prefetch t policy va s loc).guarded = s.guarded := by
  unfold prefetch
  split <;> simp

@[simp] theorem retryPrefs_guarded (s : State) : (retryPrefs s).guarded = s.guarded := by
  refine (foldl_guarded _ (fun s e => ?_) _ _).trans (by simp)
  split <;> simp

theorem tlbWalk_guarded {s u : State} {t : Team} {n : Nat} (h : tlbWalk s t n = some u) : u.guarded = s.guarded := by
  unfold tlbWalk at h
  dsimp only at h
  split at h
  · cases h
    simp
  · cases h

theorem tlbWalk_getD_guarded (s : State) (t : Team) (n : Nat) (d : State) (hd : d.guarded = s.guarded) :
    ((tlbWalk s t n).getD d).guarded = s.guarded := by
  cases h : tlbWalk s t n with
  | none => exact hd
  | some u => exact tlbWalk_guarded h

@[simp] theorem prefWalks_guarded (x : Iss) (s : State) : (prefWalks x s).guarded = s.guarded := by
  refine foldl_guarded _ (fun s a => ?_) _ _
  split
  · exact tlbWalk_getD_guarded _ _ _ _ rfl
  · rfl

theorem execPref_keeps (w : JWord) (s : State) : Keeps κ s.guarded (execPref w s) := issue_keeps fun x _ => by simp

theorem execDiscard_keeps (w : JWord) (s : State) : Keeps κ s.guarded (execDiscard w s) := by
  refine issue_keeps fun x _ => ?_
  dsimp only
  (repeat' split) <;> simp

theorem cctlForm_keeps (i : Instr) (op : Nat) (s : State) : Keeps κ s.guarded (cctlForm i op s) := memForm_keeps fun x rs => by simp
theorem execCctlInvrs_keeps (w : JWord) (s : State) : Keeps κ s.guarded (execCctlInvrs w s) := issue_keeps fun x _ => by simp
theorem execCctlWball_keeps (w : JWord) (s : State) : Keeps κ s.guarded (execCctlWball w s) := issue_keeps fun x _ => by simp
theorem execQcfg_keeps (w : JWord) (s : State) : Keeps κ s.guarded (execQcfg w s) := issue_keeps fun x _ => by simp

theorem execQcfgFree_keeps (w : JWord) (s : State) : Keeps κ s.guarded (execQcfgFree w s) := by
  refine issue_keeps fun x _ => ?_
  dsimp only
  (repeat' split) <;> simp

theorem qstatForm_keeps (i : Instr) (w : JWord) (f : Nat → Nat → Port → Nat) (s : State) : Keeps κ s.guarded (qstatForm i w f s) :=
  issue_keeps fun x _ => by simp

theorem fetchGroup_guarded {t : Team} {y : Port} {l : List (Want × List (Nat × Nat × Loc))} {s : State} {u : State × List (Word × Bool)}
    (h : fetchGroup t y l s = .ok u) : u.1.guarded = s.guarded := by
  induction l generalizing s u with
  | nil => grind [fetchGroup]
  | cons a l ih =>
    simp only [fetchGroup] at h
    split at h
    · split at h
      · cases h
      · next s' bs hr =>
        cases hf : fetchGroup t y l s' with
        | error e => simp [hf, Except.map] at h
        | ok r =>
          simp only [hf, Except.map, Except.ok.injEq] at h
          subst h
          exact (ih hf).trans (readAt_guarded hr)
    · cases h

theorem execStreamFetch_keeps (team port : Nat) (s : State) : Keeps κ s.guarded (execStreamFetch team port s) := by
  unfold execStreamFetch
  split
  · simp
  · split
    · simp
    · dsimp only
      split
      · simp
      · split
        · simp
        · split
          · split
            · simp
            · split
              · next hf => simp [fetchGroup_guarded hf]
              · simp
              · simp
              · simp
          · rw [keeps_next, tlbWalk_getD_guarded _ _ _ _ (by simp)]
          · simp

theorem execStreamPushPerform_keeps (team port : Nat) (s : State) : Keeps κ s.guarded (execStreamPushPerform team port s) := by
  unfold execStreamPushPerform
  split
  · simp
  · split
    · simp
    · split
      · simp
      · exact execAccessDone_keeps _ _ _

theorem execWait_keeps (w : JWord) (s : State) : Keeps κ s.guarded (execWait w s) := issue_keeps fun x _ => by simp

theorem atomForm_keeps (i : Instr) (w : JWord) (red : Bool) (s : State) : Keeps κ s.guarded (atomForm i w red s) :=
  memForm_keeps fun _ _ => launch_keeps _ _ _ _ _ _ _

theorem execAcas_keeps (w : JWord) (s : State) : Keeps κ s.guarded (execAcas w s) := by
  refine issue_keeps fun x _ => ?_
  (repeat' split) <;> simp

/-! ### Barrier -/

@[simp] theorem setBar_guarded (s : State) (t : Team) (level id : Nat) (b : Bar) : (setBar s t level id b).guarded = s.guarded := by simp [setBar]

@[simp] theorem checkBars_guarded (s : State) (t : Team) : (checkBars s t).guarded = s.guarded := by
  refine foldl_guarded _ (fun s level => foldl_guarded _ (fun s id => ?_) _ _) _ _
  split
  · rfl
  · dsimp only
    split <;> simp

@[simp] theorem waitIn_guarded (x : Iss) (st : FragSt) (eff : Spindle → Spindle) : (Iss.waitIn x st eff).guarded = x.s.guarded := by
  simp [Iss.waitIn]

@[simp] theorem finishWait_guarded (s : State) (r : FragRef) : (finishWait s r).guarded = s.guarded := by simp [finishWait]

/-- An arrival keeps what follows it keeps of the state in which it was made. -/
theorem arriveForm_keeps {i : Instr} {w : JWord} {level : Nat} {k : IssCls} {s : State} {go : Iss → Bar → Out}
    (h : ∀ x b, Keeps κ x.s.guarded (go x b)) : Keeps κ s.guarded (arriveForm i w level k s go) := by
  refine issue_keeps fun x _ => ?_
  dsimp only
  split
  · simp
  · split
    · simp
    · exact (h _ _).of_eq (by simp)

theorem barForm_keeps (i : Instr) (w : JWord) (level : Nat) (s : State) : Keeps κ s.guarded (barForm i w level s) :=
  arriveForm_keeps fun x b => by simp

theorem arrForm_keeps (i : Instr) (w : JWord) (level : Nat) (s : State) : Keeps κ s.guarded (arrForm i w level s) :=
  arriveForm_keeps fun x b => by simp

theorem waitbForm_keeps (i : Instr) (w : JWord) (level : Nat) (s : State) : Keeps κ s.guarded (waitbForm i w level s) := by
  refine issue_keeps fun x _ => ?_
  (repeat' split) <;> simp

theorem execBarrierRelease_keeps (r : FragRef) (s : State) : Keeps κ s.guarded (execBarrierRelease r s) := by
  unfold execBarrierRelease
  (repeat' split) <;> simp

theorem boPlace_keeps {x : Iss} {k : AKind} {go : Want → Loc → Out} (h : ∀ want loc, Keeps κ x.s.guarded (go want loc)) :
    Keeps κ x.s.guarded (x.boPlace k go) := by
  unfold Iss.boPlace
  dsimp only
  split
  · simp
  · simp
  · exact h _ _
  · simp

theorem execArriveG_keeps (w : JWord) (s : State) : Keeps κ s.guarded (execArriveG w s) := by
  refine issue_keeps fun x _ => ?_
  split
  · simp
  · exact boPlace_keeps fun _ _ => launch_keeps _ _ _ _ _ _ _

theorem execBowaitReread_keeps (r : FragRef) (s : State) : Keeps κ s.guarded (execBowaitReread r s) := by
  unfold execBowaitReread
  (repeat' split) <;> simp

theorem execBowait_keeps (w : JWord) (s : State) : Keeps κ s.guarded (execBowait w s) := by
  refine issue_keeps fun x _ => ?_
  split
  · simp
  · refine boPlace_keeps fun want loc => ?_
    rw [← waitIn_guarded x (.bowait want.ea loc (x.src2 w.b 0) w.d (w.mod.getLsbD 0) (jScope w)) id]
    exact execBowaitReread_keeps _ _

/-! ### Dispense -/

theorem execGeyserRefillRequest_keeps (grid die : Nat) (s : State) : Keeps κ s.guarded (execGeyserRefillRequest grid die s) := by
  unfold execGeyserRefillRequest
  split <;> simp

theorem execRefillGrant_keeps (grid die : Nat) (s : State) : Keeps κ s.guarded (execRefillGrant grid die s) := by
  unfold execRefillGrant
  (repeat' split) <;> simp

@[simp] theorem putEntry_guarded (s : State) (g : Grid) (p e n : Nat) (row : Word × Nat × Nat) (by_ : Option Nat) :
    (putEntry s g p e n row by_).guarded = s.guarded := by
  unfold putEntry
  dsimp only
  split <;> simp

@[simp] theorem writeEntry_guarded (s : State) (g : Grid) (p e n : Nat) (row : Word × Nat × Nat) (by_ : Option Nat) :
    (writeEntry s g p e n row by_).guarded = s.guarded := by
  simp [writeEntry]

@[simp] theorem retryEntries_guarded (s : State) : (retryEntries s).guarded = s.guarded := by
  refine (foldl_guarded _ (fun s x => ?_) _ _).trans (by simp)
  split <;> simp

@[simp] theorem setEntries_guarded (s : State) (grid p e base count st : Nat) (by_ : Option Nat) :
    (setEntries s grid p e base count st by_).guarded = s.guarded := by
  unfold setEntries
  split
  · rfl
  · refine foldl_guarded _ (fun s i => ?_) _ _
    split <;> simp

theorem takeTile_guarded {s : State} {die grid : Nat} {want : Option Nat} {id : Nat} {u : State × WaitTile}
    (h : takeTile s die grid want id = some u) : u.1.guarded = s.guarded := by
  unfold takeTile at h
  split at h
  · cases h
    simp
  · split at h
    · cases h
    · cases h
      simp

@[simp] theorem keeps_dispenseAs (x : Iss) (id n : Nat) (v : BitVec 128) (acq : Option Nat) :
    Keeps κ g (x.dispenseAs id n v acq) ↔ κ x.s.guarded = κ g := keeps_issNext ..

@[simp] theorem keeps_dispense (x : Iss) (n : Nat) (v : BitVec 128) (acq : Option Nat) :
    Keeps κ g (x.dispense n v acq) ↔ κ x.s.guarded = κ g := by
  simp [Iss.dispense]

theorem tfetchForm_keeps (i : Instr) (w : JWord) (tile : Bool) (want : Iss → Option Nat) (s : State) :
    Keeps κ s.guarded (tfetchForm i w tile want s) := by
  refine issue_keeps fun x _ => ?_
  have hx (id : Nat) (u : State × WaitTile) (h : takeTile (fresh x.s).2 x.t.die x.t.grid (want x) id = some u) : u.1.guarded = x.s.guarded :=
    (takeTile_guarded h).trans (fresh_guarded _)
  dsimp only
  (repeat' split) <;> simp [*]
  all_goals exact congrArg κ (hx _ _ (by assumption))

theorem release_guarded {x : Iss} {rel : Bool} {u : State} (h : x.release rel = some u) : u.guarded = x.s.guarded := by
  unfold Iss.release at h
  split at h
  · cases h
    rfl
  · dsimp only at h
    split at h <;> cases h
    simp

@[simp] theorem keeps_entryForm (x : Iss) (id : Nat) (complete : Bool) (eff : Spindle → Spindle) :
    Keeps κ g (x.entryForm id complete eff) ↔ κ x.s.guarded = κ g := keeps_issNext ..

theorem execTretire_keeps (w : JWord) (s : State) : Keeps κ s.guarded (execTretire w s) := by
  refine issue_keeps fun x _ => ?_
  dsimp only
  iterate 6 refine (keeps_ite ..).mpr ⟨fun _ => by simp, fun _ => ?_⟩
  split
  · simp
  · next s' h => simp [release_guarded h]

@[simp] theorem routeRow_guarded (s : State) (id grid : Nat) (row : Word) (e p choice : Nat) :
    (routeRow s id grid row e p choice).1.guarded = s.guarded := by
  simp only [routeRow]
  (repeat' split) <;> simp

theorem execRoute_keeps (w : JWord) (s : State) : Keeps κ s.guarded (execRoute w s) := by
  refine issue_keeps fun x _ => ?_
  dsimp only
  iterate 5 refine (keeps_ite ..).mpr ⟨fun _ => by simp, fun _ => ?_⟩
  split
  · simp
  · next s' h =>
    rw [keeps_entryForm, foldl_keeps (fun a : State × List (Nat × Bool) => a.1.guarded) _ fun a t => routeRow_guarded ..,
      fresh_guarded, release_guarded h]

@[simp] theorem setErt_regs (d : Die) (x : Ert) : (setErt d x).regs = d.regs := by simp [setErt]

@[simp] theorem clockSearch_regs (n : Nat) (d : Die) : (clockSearch n d).2.regs = d.regs := by
  induction n generalizing d with
  | zero => rfl
  | succ n ih =>
    unfold clockSearch
    dsimp only
    (repeat' split) <;> simp [ih]

@[simp] theorem seekSlot_regs (d : Die) (e : Nat) : (seekSlot d e).regs = d.regs := by
  have h := clockSearch_regs (2 * d.exns) d
  unfold seekSlot
  split <;> simp_all

@[simp] theorem beginLoad_regs (d : Die) (e : Nat) : (beginLoad d e).regs = d.regs := by simp [beginLoad]

@[simp] theorem retrySlots_regs (d : Die) : (retrySlots d).regs = d.regs := foldl_keeps Die.regs _ seekSlot_regs ..

@[simp] theorem reenter_regs (d : Die) (e : Nat) : (reenter d e).regs = d.regs := by simp [reenter]

@[simp] theorem loadOrFail_guarded (s : State) (die e : Nat) : (loadOrFail s die e).guarded = s.guarded := by
  unfold loadOrFail
  split
  · rfl
  · split <;> simp

@[simp] theorem failPageIn_guarded (s : State) (die e : Nat) : (failPageIn s die e).guarded = s.guarded := by simp [failPageIn]

theorem pageIn_guarded {s u : State} {d : Die} {x : Ert} (h : pageIn s d x = some u) : u.guarded = s.guarded := by
  unfold pageIn at h
  split at h
  · cases h
  · dsimp only at h
    split at h
    · split at h <;> cases h
      simp
    · cases h

theorem execPageInComplete_keeps (die expert : Nat) (s : State) : Keeps κ s.guarded (execPageInComplete die expert s) := by
  unfold execPageInComplete
  split
  · simp
  · dsimp only
    split
    · simp
    · split
      · next h => simp [pageIn_guarded h]
      · simp

theorem execPageInError_keeps (die expert : Nat) (s : State) : Keeps κ s.guarded (execPageInError die expert s) := by
  unfold execPageInError
  split <;> simp

theorem execExacq_keeps (w : JWord) (s : State) : Keeps κ s.guarded (execExacq w s) := by
  refine issue_keeps fun x _ => ?_
  split
  · simp
  · dsimp only
    split
    · simp
    · simp

theorem execExrel_keeps (w : JWord) (s : State) : Keeps κ s.guarded (execExrel w s) := by
  refine issue_keeps fun x _ => ?_
  split
  · simp
  · dsimp only
    split
    · simp
    · simp

@[simp] theorem dropRefs_guarded (s : State) (grid : Nat) : (dropRefs s grid).guarded = s.guarded := by simp [dropRefs]

@[simp] theorem dropGridTiles_guarded (s : State) (grid : Nat) : (dropGridTiles s grid).guarded = s.guarded := by
  unfold dropGridTiles
  rw [dropRefs_guarded, guarded_dies]
  rw [List.map_map]
  refine List.map_congr_left fun d _ => ?_
  simp [foldl_keeps Die.regs _ fun d x => setErt_regs ..]

theorem dqForm_keeps (i : Instr) (w : JWord) (f : Iss → Nat → Nat → Option (Nat × Nat)) (s : State) : Keeps κ s.guarded (dqForm i w f s) := by
  refine issue_keeps fun x _ => ?_
  split
  · simp
  · split <;> simp

/-! ### Luanil -/

/-- A Luanil instruction keeps what its body keeps. -/
theorem luanil_keeps {s : State} {body : Ctx → Out} (h : ∀ x, Keeps κ g (body x)) : Keeps κ g (luanil s body) := by
  unfold luanil
  split
  · split
    · exact h _
    · simp
  · simp

@[simp] theorem keeps_goto (x : Ctx) (s : State) (pc : Nat) (f : Ctx → Ctx) : Keeps κ g (x.goto s pc f) ↔ κ s.guarded = κ g := by
  simp [Ctx.goto]

@[simp] theorem keeps_ctxNext (x : Ctx) (s : State) (f : Ctx → Ctx) : Keeps κ g (x.next s f) ↔ κ s.guarded = κ g := keeps_goto ..
@[simp] theorem updInst_guarded (s : State) (g k : Nat) (f : Inst → Inst) : (updInst s g k f).guarded = s.guarded := by simp [updInst]

@[simp] theorem memberPost_guarded (s : State) (i : Inst) (m : Member) (inc status : Nat) : (memberPost s i m inc status).guarded = s.guarded := by
  simp [memberPost]

@[simp] theorem putPv_guarded (s : State) (k : Nat) (m : Member) : (putPv s k m).guarded = s.guarded := by simp [putPv]

@[simp] theorem endInst_guarded (s : State) (g k status reason : Nat) : (endInst s g k status reason).guarded = s.guarded := by
  unfold endInst
  split <;> simp

@[simp] theorem endWith_guarded (s : State) (o : Owner) (status : Nat) : (endWith s o status).guarded = s.guarded := by
  unfold endWith
  split <;> simp

@[simp] theorem keeps_ctxFault (s : State) (x : Ctx) (cause : CtxCause) : Keeps κ g (ctxFault s x cause) ↔ κ s.guarded = κ g := by
  unfold ctxFault
  dsimp only
  split <;> simp

theorem pathChecked_keeps {s : State} {x : Ctx} {go : Out} (hs : κ s.guarded = κ g) (h : Keeps κ g go) : Keeps κ g (pathChecked s x go) := by
  unfold pathChecked
  split
  · exact h
  · simp [hs]

@[simp] theorem keeps_ctxMem (s : State) (x : Ctx) (e : Nat × Nat) : Keeps κ g (ctxMem s x e) ↔ κ s.guarded = κ g := by
  unfold ctxMem
  dsimp only
  split <;> simp

theorem arrChecked_keeps {s : State} {x : Ctx} {as : List Arrival} {go : Out} (hs : κ s.guarded = κ g) (h : Keeps κ g go) :
    Keeps κ g (arrChecked s x as go) := by
  unfold arrChecked
  split
  · exact h
  · simp [hs]

@[simp] theorem spillSlot_guarded (s : State) (x : Ctx) (v : Nat) (y : Slot) : (spillSlot s x v y).guarded = s.guarded := by simp [spillSlot]

theorem slotRoom_guarded {s u : State} {x : Ctx} (h : slotRoom s x = some u) : u.guarded = s.guarded := by
  unfold slotRoom at h
  split at h
  · cases h
    rfl
  · dsimp only at h
    split at h <;> cases h
    simp

theorem slotIn_got_guarded {s u : State} {x : Ctx} {v : Nat} {need : Bool} {y : Slot} (h : slotIn s x v need = .got u y) :
    u.guarded = s.guarded := by
  unfold slotIn at h
  (repeat' split at h) <;> cases h
  · rfl
  · next hr => exact (updCtx_guarded ..).trans (slotRoom_guarded hr)

theorem slotIn_room_guarded {s u : State} {x : Ctx} {v : Nat} {need : Bool} (h : slotIn s x v need = .room u) :
    u.guarded = s.guarded := by
  unfold slotIn at h
  (repeat' split at h) <;> cases h
  next hr => exact slotRoom_guarded hr

@[simp] theorem padFree_guarded (s : State) (data : List Byte) (n : Nat) : (padFree s data n).1.guarded = s.guarded := by
  unfold padFree
  split <;> simp
section
variable {s : State} {go : State → Slot → Out} (hgo : ∀ u y, u.guarded = s.guarded → Keeps κ s.guarded (go u y))
include hgo

theorem gathSlot_keeps (x : Ctx) (w : LWord) (b : SlotSrc) : Keeps κ s.guarded (gathSlot s x w b go) := by
  unfold gathSlot
  dsimp only
  refine (keeps_ite ..).mpr ⟨fun _ => by simp, fun _ => (keeps_ite ..).mpr ⟨fun _ => by simp, fun _ => ?_⟩⟩
  exact hgo _ _ (padFree_guarded ..)

theorem fillFrom_keeps (x : Ctx) (w : LWord) (b : SlotSrc) (tenant va : Nat) : Keeps κ s.guarded (fillFrom s x w b tenant va go) := by
  unfold fillFrom
  split
  · simp
  · exact pathChecked_keeps rfl (hgo _ _ rfl)

/-- What writes a slot keeps what the use of the slot keeps. -/
theorem slotWrite_keeps (x : Ctx) (b : SlotSrc) : Keeps κ s.guarded (slotWrite s x b go) := by
  unfold slotWrite
  dsimp only
  split
  · exact arrChecked_keeps rfl (hgo _ _ rfl)
  · exact arrChecked_keeps rfl (gathSlot_keeps hgo ..)
  · split
    · simp
    · exact hgo _ _ rfl
  · split
    · simp
    · split
      · simp
      · exact fillFrom_keeps hgo ..
  · exact fillFrom_keeps hgo ..
end

@[simp] theorem writesSlot_keeps (s : State) (x : Ctx) (op : SlotOp) (w : LWord) (need : Bool) :
    Keeps κ s.guarded (writesSlot s x op w need) := by
  unfold writesSlot
  dsimp only
  split
  · simp
  · simp
  · next h =>
    rw [← slotIn_room_guarded h]
    exact slotWrite_keeps (fun _ _ hu => by simp [hu]) ..
  · next h =>
    rw [← slotIn_got_guarded h]
    exact slotWrite_keeps (fun _ _ hu => by simp [hu]) ..

theorem chkSlot_keeps {s : State} {good : State → Out} (x : Ctx) (v : Nat) (y : Slot) (h : Keeps κ s.guarded (good s)) :
    Keeps κ s.guarded (chkSlot s x v y good) := by
  unfold chkSlot
  split
  · exact h
  · split
    · simp
    · split
      · simp
      · exact slotWrite_keeps (fun _ _ hu => by simp [hu]) ..

theorem execMatch_keeps (w : LWord) (s : State) : Keeps κ s.guarded (execMatch w s) := luanil_keeps fun x => by simp
theorem execCmb_keeps (w : LWord) (s : State) : Keeps κ s.guarded (execCmb w s) := luanil_keeps fun x => by simp
theorem execGath_keeps (w : LWord) (s : State) : Keeps κ s.guarded (execGath w s) := luanil_keeps fun x => by simp

theorem fwdSlot_keeps {s : State} {go : State → Nat × List Byte → Out} (x : Ctx) (w : LWord)
    (h : ∀ u d, u.guarded = s.guarded → Keeps κ s.guarded (go u d)) : Keeps κ s.guarded (fwdSlot s x w go) := by
  unfold fwdSlot
  split
  · next hs =>
    have hu := slotIn_got_guarded hs
    rw [← hu]
    exact chkSlot_keeps _ _ _ ((h _ _ hu).of_eq hu.symm)
  · simp
  · simp

theorem execFwd_keeps (w : LWord) (s : State) : Keeps κ s.guarded (execFwd w s) := by
  refine luanil_keeps fun x => ?_
  dsimp only
  split
  · simp
  · split
    · simp
    · exact fwdSlot_keeps _ _ fun u d hu => by simp [hu]

@[simp] theorem putWrites_guarded (s : State) (x : Ctx) (ps : List (DLoc × List Byte)) (f : Ctx → Ctx) : (putWrites s x ps f).guarded = s.guarded := by
  simp [putWrites]

@[simp] theorem issueWrites_keeps {s : State} {x : Ctx} {l : List (Nat × List Byte)} (h : κ s.guarded = κ g) : Keeps κ g (issueWrites s x l) := by
  unfold issueWrites
  split
  · simp [h]
  · exact pathChecked_keeps h (by simp [h])

theorem execFwdMem_keeps (w : LWord) (s : State) : Keeps κ s.guarded (execFwdMem w s) := by
  refine luanil_keeps fun x => ?_
  dsimp only
  split
  · simp
  · exact fwdSlot_keeps _ _ fun u d hu => issueWrites_keeps (by rw [hu])

theorem execFwdRank_keeps (w : LWord) (s : State) : Keeps κ s.guarded (execFwdRank w s) := by
  refine luanil_keeps fun x => ?_
  dsimp only
  split
  · simp
  · exact fwdSlot_keeps _ _ fun u d hu => issueWrites_keeps (by rw [hu])

theorem execSpill_keeps (w : LWord) (s : State) : Keeps κ s.guarded (execSpill w s) := by
  refine luanil_keeps fun x => ?_
  dsimp only
  split
  · next h => exact (chkSlot_keeps _ _ _ (by simp)).of_eq (slotIn_got_guarded h)
  · simp
  · simp

theorem execFillSave_keeps (w : LWord) (s : State) : Keeps κ s.guarded (execFillSave w s) := luanil_keeps fun x => by simp

theorem execFillSrc_keeps (w : LWord) (s : State) : Keeps κ s.guarded (execFillSrc w s) := by
  refine luanil_keeps fun x => ?_
  split <;> simp

theorem execFillMem_keeps (w : LWord) (s : State) : Keeps κ s.guarded (execFillMem w s) := luanil_keeps fun x => by simp

theorem execChk_keeps (w : LWord) (s : State) : Keeps κ s.guarded (execChk w s) := by
  refine luanil_keeps fun x => ?_
  split
  · next h => exact (chkSlot_keeps _ _ _ (by simp)).of_eq (slotIn_got_guarded h)
  · simp
  · simp

theorem winUpdate_guarded {s : State} {x : Win} {port inc status : Nat} {u : State × Bool} (h : winUpdate s x port inc status = some u) :
    u.1.guarded = s.guarded := by
  unfold winUpdate at h
  split at h
  · cases h
  · split at h <;> cases h <;> simp

theorem execBoupd_keeps (w : LWord) (s : State) : Keeps κ s.guarded (execBoupd w s) := by
  refine luanil_keeps fun x => ?_
  dsimp only
  split
  · simp
  · split
    · split
      · simp
      · split <;> simp
    · split
      · split
        · simp
        · next h => simp [winUpdate_guarded h]
        · next h => simp [winUpdate_guarded h]
      · simp

@[simp] theorem progress_guarded (s : State) (g k rank c : Nat) : (progress s g k rank c).guarded = s.guarded := by
  unfold progress
  split <;> simp

theorem execProgw_keeps (w : LWord) (s : State) : Keeps κ s.guarded (execProgw w s) := by
  refine luanil_keeps fun x => ?_
  dsimp only
  split
  · simp
  · split
    · simp
    · split <;> simp

theorem execNextc_keeps (w : LWord) (s : State) : Keeps κ s.guarded (execNextc w s) := luanil_keeps fun x => by simp

theorem execDone_keeps (w : LWord) (s : State) : Keeps κ s.guarded (execDone w s) := by
  refine luanil_keeps fun x => ?_
  split <;> simp

theorem execLuanilLoop_keeps (w : LWord) (s : State) : Keeps κ s.guarded (execLuanilLoop w s) := luanil_keeps fun x => by simp

theorem execEndl_keeps (w : LWord) (s : State) : Keeps κ s.guarded (execEndl w s) := by
  refine luanil_keeps fun x => ?_
  split <;> simp

theorem execBnz_keeps (w : LWord) (s : State) : Keeps κ s.guarded (execBnz w s) := luanil_keeps fun x => by simp
theorem execSetk_keeps (w : LWord) (s : State) : Keeps κ s.guarded (execSetk w s) := luanil_keeps fun x => by simp
theorem execSetc_keeps (w : LWord) (s : State) : Keeps κ s.guarded (execSetc w s) := luanil_keeps fun x => by simp
theorem execAddc_keeps (w : LWord) (s : State) : Keeps κ s.guarded (execAddc w s) := luanil_keeps fun x => by simp
theorem execJmp_keeps (w : LWord) (s : State) : Keeps κ s.guarded (execJmp w s) := luanil_keeps fun x => by simp
theorem execLuanilNop_keeps (w : LWord) (s : State) : Keeps κ s.guarded (execLuanilNop w s) := luanil_keeps fun x => by simp
theorem execContextAged_keeps (unit ctx : Nat) (s : State) : Keeps κ s.guarded (execContextAged unit ctx s) := by simp [execContextAged]

theorem execFwdWritePerformed_keeps (unit ctx : Nat) (s : State) : Keeps κ s.guarded (execFwdWritePerformed unit ctx s) := by
  simp only [execFwdWritePerformed]
  (repeat' split) <;> simp

/-! ### Collective -/

@[simp] theorem suspendTeam_guarded (s : State) (t : Team) : (suspendTeam s t).guarded = s.guarded := by simp [suspendTeam]

@[simp] theorem abortBlock_guarded (s : State) (port tenant : Nat) (b : Block) : (abortBlock s port tenant b).guarded = s.guarded := by
  simp [abortBlock]

theorem guarded_grps (s : State) (l : List Grp) (h : l.map Grp.uncounted = s.grps.map Grp.uncounted) :
    ({ s with grps := l } : State).guarded = s.guarded := by
  simp only [State.guarded, h]

/-- A block's acceptance writes the count of its rank, which is not guarded (R339). -/
@[simp] theorem acceptBlock_guarded (s : State) (y : Grp) (i addr port tenant : Nat) (b : Block) :
    (acceptBlock s y i addr port tenant b).1.guarded = s.guarded := by
  have hb : ∀ k : Nat, ({ s with grps := updWhere (fun z => z.g == y.g) (fun z : Grp =>
      { z with nextK := (y.rbase + i, k + 1) :: z.nextK.filter fun e => e.1 != y.rbase + i }) s.grps } : State).guarded = s.guarded :=
    fun k => guarded_grps _ _ (by rw [map_updWhere]; exact fun _ => rfl)
  unfold acceptBlock
  dsimp only
  split
  · split
    · simp
    · split <;> simp
  · split
    · rw [updInst_guarded, hb]
    · exact hb _

theorem blockPlace_keeps {x : Iss} {go : BitVec 64 → Nat → Nat → Nat → Out} (h : ∀ ea pa owner pte, Keeps κ x.s.guarded (go ea pa owner pte)) :
    Keeps κ x.s.guarded (x.blockPlace go) := by
  unfold Iss.blockPlace
  dsimp only
  split
  · simp
  · simp
  · exact h _ _ _ _
  · simp

@[simp] theorem keeps_colForm (x : Iss) (complete : Bool) (addr : Nat) (eff : Spindle → Spindle) :
    Keeps κ g (x.colForm complete addr eff) ↔ κ x.s.guarded = κ g := by simp [Iss.colForm]

theorem execColl_keeps (w : JWord) (s : State) : Keeps κ s.guarded (execColl w s) := by
  refine issue_keeps fun x _ => ?_
  split
  · simp
  · refine blockPlace_keeps fun ea pa owner pte => ?_
    dsimp only
    refine (keeps_ite ..).mpr ⟨fun _ => by simp, fun _ => ?_⟩
    refine (keeps_ite ..).mpr ⟨fun _ => by simp, fun _ => ?_⟩
    split
    · split
      · simp
      · next hr => simp [← release_guarded hr]
    · split
      · simp
      · split
        · simp
        · next hr => simp [← release_guarded hr]

theorem execProgv_keeps (w : JWord) (s : State) : Keeps κ s.guarded (execProgv w s) := by
  refine issue_keeps fun x _ => ?_
  split
  · simp
  · refine (keeps_ite ..).mpr ⟨fun _ => by simp, fun _ => ?_⟩
    split
    · split
      · simp
      · split
        · simp
        · next hr => simp [← release_guarded hr]
    · simp

theorem execCollstat_keeps (w : JWord) (s : State) : Keeps κ s.guarded (execCollstat w s) := by
  refine issue_keeps fun x _ => ?_
  dsimp only
  (repeat' split) <;> simp

theorem execCollstatW_keeps (w : JWord) (s : State) : Keeps κ s.guarded (execCollstatW w s) := by
  refine issue_keeps fun x _ => ?_
  dsimp only
  (repeat' split) <;> simp

theorem startInst_guarded {s u : State} {i : Inst} {y : Grp} {ck : Nat} (h : startInst s i y ck = some u) : u.guarded = s.guarded := by
  unfold startInst at h
  split at h
  · cases h
    simp
  · cases h

@[simp] theorem beginInst_guarded (s : State) (i : Inst) (y : Grp) (ck : Nat) : (beginInst s i y ck).guarded = s.guarded := by
  unfold beginInst
  split
  · simp
  · split
    · simp
    · next hs =>
      split at hs
      · simp [startInst_guarded hs]
      · cases hs

theorem execInstanceCheck_keeps (group k : Nat) (s : State) : Keeps κ s.guarded (execInstanceCheck group k s) := by
  unfold execInstanceCheck
  split <;> simp

theorem execInstanceRestart_keeps (group k : Nat) (s : State) : Keeps κ s.guarded (execInstanceRestart group k s) := by
  unfold execInstanceRestart
  split <;> simp

@[simp] theorem laneRetry_guarded (s : State) (x : Ctx) : (laneRetry s x).guarded = s.guarded := by simp [laneRetry]

theorem instIssue_keeps (s : State) (x : Ctx) (i : Inst) (y : Grp) (b : Block) : Keeps κ s.guarded (instIssue s x i y b) := by
  unfold instIssue
  split
  · simp
  · refine arrChecked_keeps rfl (pathChecked_keeps rfl ?_)
    split
    · simp
    · dsimp only
      split <;> simp

@[simp] theorem instRecord_guarded (s : State) (x : Ctx) (i : Inst) (g : Grp) (b : Block) : (instRecord s x i g b).guarded = s.guarded := by
  simp [instRecord]

theorem instChunk_keeps (s : State) (x : Ctx) (i : Inst) (y : Grp) : Keeps κ s.guarded (instChunk s x i y) := by
  unfold instChunk
  split
  · simp
  · split
    · simp
    · split
      · simp
      · exact instIssue_keeps _ _ _ _ _

theorem winChunk_keeps (s : State) (x : Ctx) (y : Win) : Keeps κ s.guarded (winChunk s x y) := by
  unfold winChunk
  split
  · simp
  · split
    · split
      · simp
      · next hu => simp [(winUpdate_guarded hu :)]
      · next hu => simp [(winUpdate_guarded hu :)]
    · split
      · simp
      · refine arrChecked_keeps rfl (pathChecked_keeps rfl ?_)
        split <;> simp

theorem builtinTurn_keeps (s : State) (x : Ctx) : Keeps κ s.guarded (builtinTurn s x) := by
  unfold builtinTurn
  split
  · split
    · exact winChunk_keeps _ _ _
    · simp
  · split
    · exact instChunk_keeps _ _ _ _
    · simp

@[simp] theorem putWin_guarded (s : State) (x : Win) : (putWin s x).guarded = s.guarded := by simp [putWin]

theorem execArmWindow_keeps (w : Nat) (kind : BitVec 2) (s : State) : Keeps κ s.guarded (execArmWindow w kind s) := by
  simp only [execArmWindow]
  (repeat' split) <;> simp

theorem execDisarmWindow_keeps (w : Nat) (s : State) : Keeps κ s.guarded (execDisarmWindow w s) := by simp [execDisarmWindow]

@[simp] theorem markSpilled_guarded (s : State) (o : Owner) (n : Nat) : (markSpilled s o n).guarded = s.guarded := by
  unfold markSpilled
  split <;> simp

@[simp] theorem logLink_guarded (s : State) (port : Nat) : (logLink s port).guarded = s.guarded := by simp [logLink]

theorem linkChecked_keeps {s : State} {m : Msg} {unit : Nat} {o : Option Owner} {data : List Byte} {go : Out} (h : Keeps κ s.guarded go) :
    Keeps κ s.guarded (linkChecked s m unit o data go) := by
  unfold linkChecked
  split
  · exact h
  · dsimp only
    split
    · simp
    · cases o <;> simp

@[simp] theorem failSpill_guarded (s : State) (o : Owner) : (failSpill s o).guarded = s.guarded := by
  unfold failSpill
  split <;> simp

theorem holdArrival_keeps (s : State) (m : Msg) (a : Arrival) : Keeps κ s.guarded (holdArrival s m a) := by
  unfold holdArrival
  (repeat' split) <;> simp

theorem execArrivalHeld_keeps (msg : Nat) (s : State) : Keeps κ s.guarded (execArrivalHeld msg s) := by
  unfold execArrivalHeld
  split
  · next m _ =>
    split
    · next owner unit0 key chunk src ty data _ =>
      have hold (c : Prop) [Decidable c] (unit : Nat) (a : Arrival) :
          Keeps κ s.guarded (if c then linkChecked s m unit owner data (holdArrival s m a) else .next s) :=
        (keeps_ite ..).mpr ⟨fun _ => linkChecked_keeps (holdArrival_keeps _ _ _), fun _ => by simp⟩
      dsimp only
      split
      · exact hold _ _ _
      · split
        · exact (keeps_ite ..).mpr ⟨fun _ => by simp, fun _ => by simp⟩
        · exact (keeps_ite ..).mpr ⟨fun _ => hold _ _ _, fun _ => by simp⟩
        · exact hold _ _ _
    · simp
  · simp

@[simp] theorem sendPeer_guarded (s : State) (pkg : Nat) (b : MsgBody) : (sendPeer s pkg b).guarded = s.guarded := by simp [sendPeer]

theorem execUeMessageReceive_keeps (m : UeMsg) (s : State) : Keeps κ s.guarded (execUeMessageReceive m s) := by
  simp only [execUeMessageReceive]
  (repeat' split) <;> simp

@[simp] theorem answerSends_guarded (s : State) : (answerSends s).guarded = s.guarded := by simp [answerSends]

theorem execMemberTimeout_keeps (o : Owner) (s : State) : Keeps κ s.guarded (execMemberTimeout o s) := by
  unfold execMemberTimeout
  (repeat' split) <;> simp

@[simp] theorem measure_guarded (s : State) (i : Nat) (image : List Byte) : (measure s i image).guarded = s.guarded := by simp [measure]

theorem execProgramLoad_keeps (first entry : Nat) (words : List (BitVec 64)) (s : State) :
    Keeps Guarded.cycle s.guarded (execProgramLoad first entry words s) := by
  unfold execProgramLoad
  split
  · simp
  · simp only [keeps_next, measure_guarded]
    rfl

/-! ### Control -/

theorem transfer_keeps {x : Iss} {go : Out} (h : Keeps κ x.s.guarded go) : Keeps κ x.s.guarded (transfer x go) := by
  unfold transfer
  split
  · simp
  · split
    · simp
    · exact h

theorem regTarget_keeps {x : Iss} {go : BitVec 64 → Out} (h : ∀ a, Keeps κ x.s.guarded (go a)) : Keeps κ x.s.guarded (regTarget x go) := by
  unfold regTarget
  dsimp only
  split
  · simp
  · split
    · simp
    · exact h _

theorem execBra_keeps (w : JWord) (s : State) : Keeps κ s.guarded (execBra w s) := issue_keeps fun x _ => transfer_keeps (by simp)

theorem execJmps_keeps (w : JWord) (s : State) : Keeps κ s.guarded (execJmps w s) :=
  issue_keeps fun x _ => transfer_keeps (regTarget_keeps fun a => by simp)

theorem execCall_keeps (w : JWord) (s : State) : Keeps κ s.guarded (execCall w s) := issue_keeps fun x _ => transfer_keeps (by simp)

theorem execCalls_keeps (w : JWord) (s : State) : Keeps κ s.guarded (execCalls w s) :=
  issue_keeps fun x _ => transfer_keeps (regTarget_keeps fun a => by simp)

theorem execRet_keeps (w : JWord) (s : State) : Keeps κ s.guarded (execRet w s) :=
  issue_keeps fun x _ => transfer_keeps (regTarget_keeps fun a => by simp)

@[simp] theorem nestTo_keeps (x : Iss) (n : Nat → Nat) (pc : Bool → BitVec 64) : Keeps κ x.s.guarded (nestTo x n pc) := by
  unfold nestTo
  dsimp only
  split <;> simp

theorem execIf_keeps (w : JWord) (s : State) : Keeps κ s.guarded (execIf w s) := issue_keeps fun x _ => nestTo_keeps x _ _
theorem execElse_keeps (w : JWord) (s : State) : Keeps κ s.guarded (execElse w s) := issue_keeps fun x _ => nestTo_keeps x _ _
theorem execEndif_keeps (w : JWord) (s : State) : Keeps κ s.guarded (execEndif w s) := issue_keeps fun x _ => nestTo_keeps x _ _

theorem execLoop_keeps (w : JWord) (s : State) : Keeps κ s.guarded (execLoop w s) := by
  refine issue_keeps fun x _ => ?_
  split <;> simp

theorem execBreak_keeps (w : JWord) (s : State) : Keeps κ s.guarded (execBreak w s) := issue_keeps fun x _ => nestTo_keeps x _ _
theorem execCont_keeps (w : JWord) (s : State) : Keeps κ s.guarded (execCont w s) := issue_keeps fun x _ => nestTo_keeps x _ _

theorem execEndloop_keeps (w : JWord) (s : State) : Keeps κ s.guarded (execEndloop w s) := by
  refine issue_keeps fun x _ => ?_
  dsimp only
  split <;> simp

theorem execExit_keeps (w : JWord) (s : State) : Keeps κ s.guarded (execExit w s) := issue_keeps fun x _ => by simp

@[simp] theorem saveEntry_guarded (s : State) (t : Team) (e : Nat × Bool × Nat) : (saveEntry s t e).guarded = s.guarded := by
  unfold saveEntry
  split <;> simp

@[simp] theorem moveEntry_guarded (s : State) (t : Team) (e : Nat × Bool × Nat) (onto : Bool) : (moveEntry s t e onto).guarded = s.guarded := by
  simp [moveEntry]

@[simp] theorem makeRoom_guarded (r : FragRef) (q n : Nat) (s : State) : (makeRoom r q n s).guarded = s.guarded := by
  induction n generalizing s with
  | zero => rfl
  | succ n ih =>
    unfold makeRoom
    split
    · rfl
    · split
      · rfl
      · split
        · rfl
        · simp [ih]

theorem execBrd_keeps (w : JWord) (s : State) : Keeps κ s.guarded (execBrd w s) := issue_keeps fun x _ => by simp

theorem execFragmentAtJoin_keeps (f : FragRef) (s : State) : Keeps κ s.guarded (execFragmentAtJoin f s) := by
  unfold execFragmentAtJoin
  (repeat' split) <;> simp

theorem execFragmentAged_keeps (f : FragRef) (s : State) : Keeps κ s.guarded (execFragmentAged f s) := by
  unfold execFragmentAged
  split <;> simp

theorem execSplitEntryRestore_keeps (die core quarter : Nat) (s : State) : Keeps κ s.guarded (execSplitEntryRestore die core quarter s) := by
  unfold execSplitEntryRestore
  (repeat' split) <;> simp

theorem execSplitExchange_keeps (die core quarter : Nat) (s : State) : Keeps κ s.guarded (execSplitExchange die core quarter s) := by
  unfold execSplitExchange
  (repeat' split) <;> simp

theorem execRfl_keeps (w : JWord) (s : State) : Keeps κ s.guarded (execRfl w s) := by
  refine issue_keeps fun x _ => ?_
  split <;> simp

theorem execGetid_keeps (w : JWord) (s : State) : Keeps κ s.guarded (execGetid w s) := issue_keeps fun x _ => by simp
theorem execNop_keeps (w : JWord) (s : State) : Keeps κ s.guarded (execNop w s) := issue_keeps fun x _ => by simp
theorem execSleep_keeps (w : JWord) (s : State) : Keeps κ s.guarded (execSleep w s) := issue_keeps fun x _ => by simp

theorem execSleepExpiry_keeps (f : FragRef) (s : State) : Keeps κ s.guarded (execSleepExpiry f s) := by
  unfold execSleepExpiry
  split <;> simp

/-! ### Integer -/

theorem intForm_keeps (i : Instr) (w : JWord) (nd na nb nc : Nat) (s : State) (f : Nat → Nat → Nat → Nat) :
    Keeps κ s.guarded (intForm i w nd na nb nc s f) :=
  issue_keeps fun x _ => by simp

theorem elemForm_keeps (i : Instr) (w : JWord) (op : Nat → Int → Int → Int → Int) (s : State) : Keeps κ s.guarded (elemForm i w op s) :=
  issue_keeps fun x _ => by simp

theorem execIaddx_keeps (w : JWord) (s : State) : Keeps κ s.guarded (execIaddx w s) := issue_keeps fun x _ => by simp

theorem bitForm_keeps (i : Instr) (w : JWord) (op : BitVec 64 → BitVec 64 → BitVec 64) (s : State) : Keeps κ s.guarded (bitForm i w op s) :=
  issue_keeps fun x _ => by simp

theorem shiftForm_keeps (i : Instr) (w : JWord) (f : Nat → Nat → Int → Nat → Int) (s : State) : Keeps κ s.guarded (shiftForm i w f s) :=
  issue_keeps fun x _ => by simp

theorem countForm_keeps (i : Instr) (w : JWord) (f : Nat → Nat → Int) (s : State) : Keeps κ s.guarded (countForm i w f s) := intForm_keeps ..
theorem execBrev_keeps (w : JWord) (s : State) : Keeps κ s.guarded (execBrev w s) := issue_keeps fun x _ => by simp
theorem execIcmp_keeps (w : JWord) (s : State) : Keeps κ s.guarded (execIcmp w s) := issue_keeps fun x _ => by simp
theorem execSel_keeps (w : JWord) (s : State) : Keeps κ s.guarded (execSel w s) := issue_keeps fun x _ => by simp

/-! ### Float -/

theorem float_keeps {x : Iss} {fl : List (Nat × Flg)} {gen : SMap 32} {all : Bool} {ok : (Spindle → Spindle) → Flg → Out}
    (h : ∀ eff fpc, Keeps κ x.s.guarded (ok eff fpc)) : Keeps κ x.s.guarded (x.float fl gen all ok) := by
  unfold Iss.float
  dsimp only
  split
  · exact h _ _
  · split <;> simp

@[simp] theorem floatAll_keeps (x : Iss) (n : Nat) (f : (Nat → Word) → Nat → Nat × Flg) : Keeps κ x.s.guarded (x.floatAll n f) :=
  float_keeps fun _ _ => compute_keeps _ _ _ _ _ rfl

theorem floatForm_keeps (i : Instr) (w : JWord) (s : State) (v : Nat → FV → FV → FV → FV × Flg) : Keeps κ s.guarded (floatForm i w s v) :=
  issue_keeps fun x _ => floatAll_keeps x _ _

theorem packedForm_keeps (i : Instr) (w : JWord) (s : State) (v : Nat → FV → FV → FV → FV × Flg) : Keeps κ s.guarded (packedForm i w s v) :=
  issue_keeps fun x _ => floatAll_keeps x _ _

theorem minMaxForm_keeps (i : Instr) (w : JWord) (max : Bool) (s : State) : Keeps κ s.guarded (minMaxForm i w max s) :=
  issue_keeps fun x _ => floatAll_keeps x _ _

theorem execFcmp_keeps (w : JWord) (s : State) : Keeps κ s.guarded (execFcmp w s) :=
  issue_keeps fun _ _ => float_keeps fun _ _ => (keeps_issNext ..).mpr rfl

theorem execFclass_keeps (w : JWord) (s : State) : Keeps κ s.guarded (execFclass w s) := issue_keeps fun x _ => by simp

theorem sfuForm_keeps (i : Instr) (w : JWord) (op : Nat) (s : State) : Keeps κ s.guarded (sfuForm i w op s) :=
  issue_keeps fun x _ => floatAll_keeps x _ _

theorem execFsum_keeps (w : JWord) (s : State) : Keeps κ s.guarded (execFsum w s) := by
  refine issue_keeps fun x _ => ?_
  dsimp only
  split
  · simp
  · exact float_keeps fun _ _ => compute_keeps _ _ _ _ _ rfl

theorem execFmaxr_keeps (w : JWord) (s : State) : Keeps κ s.guarded (execFmaxr w s) := by
  refine issue_keeps fun x _ => ?_
  dsimp only
  split
  · simp
  · exact float_keeps fun _ _ => compute_keeps _ _ _ _ _ rfl

/-! ### Convert -/

theorem execCvt_keeps (w : JWord) (s : State) : Keeps κ s.guarded (execCvt w s) := issue_keeps fun x _ => floatAll_keeps x _ _
theorem execCvti_keeps (w : JWord) (s : State) : Keeps κ s.guarded (execCvti w s) := issue_keeps fun x _ => floatAll_keeps x _ _
theorem execCvtf_keeps (w : JWord) (s : State) : Keeps κ s.guarded (execCvtf w s) := issue_keeps fun x _ => floatAll_keeps x _ _
theorem execCvtpk_keeps (w : JWord) (s : State) : Keeps κ s.guarded (execCvtpk w s) := issue_keeps fun x _ => floatAll_keeps x _ _
theorem execCvtup_keeps (w : JWord) (s : State) : Keeps κ s.guarded (execCvtup w s) := issue_keeps fun x _ => floatAll_keeps x _ _
theorem execFscale_keeps (w : JWord) (s : State) : Keeps κ s.guarded (execFscale w s) := issue_keeps fun x _ => floatAll_keeps x _ _
theorem execGetmode_keeps (w : JWord) (s : State) : Keeps κ s.guarded (execGetmode w s) := issue_keeps fun x _ => by simp
theorem execGetmodeGen_keeps (w : JWord) (s : State) : Keeps κ s.guarded (execGetmodeGen w s) := issue_keeps fun x _ => by simp

@[simp] theorem writeMode_keeps (x : Iss) (m : Word) : Keeps κ x.s.guarded (x.writeMode m) := by
  unfold Iss.writeMode
  dsimp only
  (repeat' split) <;> simp

theorem execSetmode_keeps (w : JWord) (s : State) : Keeps κ s.guarded (execSetmode w s) := issue_keeps fun x _ => writeMode_keeps x _
theorem execSetmodeImm_keeps (w : JWord) (s : State) : Keeps κ s.guarded (execSetmodeImm w s) := issue_keeps fun x _ => writeMode_keeps x _
theorem execSetmodeGen_keeps (w : JWord) (s : State) : Keeps κ s.guarded (execSetmodeGen w s) := issue_keeps fun x _ => by simp

/-! ### Copy -/

theorem copyForm_keeps (i : Instr) (w : JWord) (form : Nat) (s : State) : Keeps κ s.guarded (copyForm i w form s) := issue_keeps fun x _ => by simp

theorem execCopyAccept_keeps (r : SpRef) (id : Nat) (s : State) : Keeps κ s.guarded (execCopyAccept r id s) := by
  unfold execCopyAccept
  split
  · split
    · dsimp only
      refine (keeps_ite ..).mpr ⟨fun _ => by simp, fun _ => ?_⟩
      refine (keeps_ite ..).mpr ⟨fun _ => by simp, fun _ => ?_⟩
      split
      · simp
      · split
        · simp
        · split
          · next hw => simp [tlbWalk_guarded hw]
          · split <;> simp
        · simp
    · simp
  · simp

@[simp] theorem engRead_guarded (v s : State) (t : Team) (alloc : Bool) (loc : Loc) (n : Nat) : (engRead v s t alloc loc n).1.guarded = s.guarded := by
  unfold engRead
  split
  · rfl
  · split
    · next h => exact (readAt_guarded h :)
    · split
      · next h => simp [(readAt_guarded h :)]
      · simp
    · rfl

@[simp] theorem engWrite_guarded (s : State) (t : Team) (alloc : Bool) (loc : Loc) (bs : List Byte) :
    (engWrite s t alloc loc bs).guarded = s.guarded := by
  unfold engWrite
  split
  · next h => exact writeAt_guarded h
  · split
    · next h => simp [writeAt_guarded h]
    · rfl
  · rfl

@[simp] theorem markBad_guarded (s : State) (t : Team) (loc : Loc) : (markBad s t loc).guarded = s.guarded := by
  simp only [markBad]
  (repeat' split) <;> simp

@[simp] theorem logPoison_guarded (s : State) (t : Team) (loc : Loc) : (logPoison s t loc).guarded = s.guarded := by simp [logPoison]

@[simp] theorem doMove_guarded (v : State) (t : Team) (alloc : Bool) (e : State × List (Loc × Option Loc)) (m : Move) :
    (doMove v t alloc e m).1.guarded = e.1.guarded := by
  unfold doMove
  dsimp only
  split
  · simp
  · split
    · split <;> simp
    · split
      · split <;> simp
      · simp

@[simp] theorem coverMoves_guarded (s : State) (t : Team) (alloc : Bool) (moved : List ((Nat × Nat) × Bool)) (now : List (Nat × Nat))
    (ms : List Move) :
    (coverMoves s t alloc moved now ms).guarded = s.guarded := by
  simp [coverMoves]

theorem copyTurn_guarded (s : State) (r : SpRef) (id : Nat) (all : Bool) : (copyTurn s r id all).guarded = s.guarded := by
  have hmoves (v : State) (t : Team) (alloc : Bool) (go : List Move) (e : State × List (Loc × Option Loc)) :
      (go.foldl (doMove v t alloc) e).1.guarded = e.1.guarded := foldl_keeps (fun e : State × List (Loc × Option Loc) => e.1.guarded) _
        (fun e m => doMove_guarded v t alloc e m) go e
  have hpoison (t : Team) (l : List Loc) (s : State) : (l.foldl (fun s loc => logPoison s t loc) s).guarded = s.guarded :=
    foldl_guarded _ (fun _ _ => logPoison_guarded ..) l s
  have hserved (h : Holder) (l : List Nat) (s : State) : (l.foldl (fun s k => served s h k) s).guarded = s.guarded :=
    foldl_guarded _ (fun _ _ => served_guarded ..) l s
  unfold copyTurn
  split
  · split
    · split
      · rfl
      · dsimp only
        split
        · rw [updSp_guarded, hpoison, foldl_guarded _ (fun s e => by split <;> simp), hserved, hpoison, hmoves, coverMoves_guarded, guarded_with]
        · rw [updSp_guarded, foldl_guarded _ (fun s e => by split <;> simp), hserved, hpoison, hmoves, coverMoves_guarded, guarded_with]
    · rfl
  · rfl

@[simp] theorem copyPart_guarded (s : State) (r : SpRef) (id : Nat) : (copyPart s r id).guarded = s.guarded := copyTurn_guarded ..

theorem execCopyDone_keeps (r : SpRef) (id : Nat) (s : State) : Keeps κ s.guarded (execCopyDone r id s) :=
  (keeps_next _).mpr (congrArg κ (copyTurn_guarded ..))

/-! ### Lathe -/

@[simp] theorem updQueue_guarded (s : State) (q : Nat) (f : Queue → Queue) : (updQueue s q f).guarded = s.guarded := by simp [updQueue]
@[simp] theorem physWrite_guarded (s : State) (pa : Nat) (bs : List Byte) : (physWrite s pa bs).guarded = s.guarded := by simp [physWrite]
@[simp] theorem qcbWrite_guarded (s : State) (q off : Nat) (bs : List Byte) : (qcbWrite s q off bs).guarded = s.guarded := by simp [qcbWrite]

@[simp] theorem decision_guarded (s : State) (q type reason die clu lr detail : Nat) :
    (decision s q type reason die clu lr detail).guarded = s.guarded := by
  unfold decision
  split <;> simp

@[simp] theorem decisionOf_guarded (s : State) (g : Grid) (type reason detail : Nat) : (decisionOf s g type reason detail).guarded = s.guarded := by
  simp [decisionOf]

@[simp] theorem setLr_guarded (s : State) (g : Grid) (off : Nat) (bs : List Byte) : (setLr s g off bs).guarded = s.guarded := by simp [setLr]

@[simp] theorem gridTo_guarded (s : State) (g : Nat) (st : GridSt) : (gridTo s g st).guarded = s.guarded := by
  unfold gridTo
  split <;> simp

@[simp] theorem clearReq_guarded (s : State) (g : Grid) : (clearReq s g).guarded = s.guarded := by simp [clearReq]

@[simp] theorem abortGrid_guarded (s : State) (g : Nat) : (abortGrid s g).guarded = s.guarded := by
  unfold abortGrid
  split <;> simp

@[simp] theorem stopQueue_guarded (s : State) (q err : Nat) : (stopQueue s q err).guarded = s.guarded := by simp [stopQueue]

@[simp] theorem updCluster_guarded (s : State) (g c : Nat) (f : Cluster → Cluster) : (updCluster s g c f).guarded = s.guarded := by
  simp [updCluster]

/-! ### System -/

@[simp] theorem restart_guarded (s : State) (sp : SpRef) (r : TrapRec) (f : Frag → Frag) : (restart s sp r f).guarded = s.guarded := by
  simp [restart]

theorem execSactResume_keeps (die core spx : Nat) (s : State) : Keeps κ s.guarded (execSactResume die core spx s) := by
  unfold execSactResume
  split <;> simp

theorem execSactSkip_keeps (die core spx : Nat) (s : State) : Keeps κ s.guarded (execSactSkip die core spx s) := by
  unfold execSactSkip
  split <;> simp

theorem execSactAbort_keeps (die core spx : Nat) (s : State) : Keeps κ s.guarded (execSactAbort die core spx s) := by
  unfold execSactAbort
  split <;> simp

theorem execSactDeliver_keeps (die core spx : Nat) (s : State) : Keeps κ s.guarded (execSactDeliver die core spx s) := by
  unfold execSactDeliver
  split <;> simp

theorem execSactEnd_keeps (die core spx : Nat) (s : State) : Keeps κ s.guarded (execSactEnd die core spx s) := by
  unfold execSactEnd
  split <;> simp

@[simp] theorem frsv_guarded (s : State) (die tenant vpn : Nat) (fail : Bool) : (frsv s die tenant vpn fail).guarded = s.guarded := by
  unfold frsv
  split
  · rfl
  · dsimp only
    rw [guarded_with]
    simp

theorem execFrsvResolve_keeps (die tenant vpn : Nat) (s : State) : Keeps κ s.guarded (execFrsvResolve die tenant vpn s) := by simp [execFrsvResolve]
theorem execFrsvFail_keeps (die tenant vpn : Nat) (s : State) : Keeps κ s.guarded (execFrsvFail die tenant vpn s) := by simp [execFrsvFail]

theorem outState_keeps {s : State} {o : Out} (h : Keeps κ s.guarded o) : κ (outState s o).guarded = κ s.guarded := by
  unfold outState
  split
  · exact h.of_next _ rfl
  · rfl

@[simp] theorem sact_guarded (s : State) (die : Nat) (v : BitVec 64) : (sact s die v).guarded = s.guarded := by
  refine outState_keeps (κ := id) ?_
  split
  · exact execSactResume_keeps _ _ _ _
  · split
    · exact execSactSkip_keeps _ _ _ _
    · split
      · exact execSactDeliver_keeps _ _ _ _
      · split
        · exact execSactEnd_keeps _ _ _ _
        · split
          · exact execSactAbort_keeps _ _ _ _
          · simp

@[simp] theorem updDie_guarded_cycle (s : State) (d : Nat) (f : Die → Die) : (updDie s d f).guarded.cycle = s.guarded.cycle := rfl

@[simp] theorem writeDieReg_guarded_cycle (s : State) (die n : Nat) (v : BitVec 64) : (writeDieReg s die n v).guarded.cycle = s.guarded.cycle := by
  unfold writeDieReg
  split
  · simp
  · split <;> simp

/-- Below 0x100 there is no register of a die. -/
theorem writeDieReg_low {n : Nat} (hn : n < 0x100) (s : State) (die : Nat) (v : BitVec 64) :
    (writeDieReg s die n v).guarded = s.guarded := by
  unfold writeDieReg
  rw [if_neg (by omega), if_neg (by omega)]
  refine updDie_guarded _ _ _ fun d => ?_
  simp only [show n ≠ 0x100 by omega, show n ≠ 0x101 by omega, show n ≠ 0x102 by omega, show n ≠ 0x105 by omega, show n ≠ 0x107 by omega,
    if_false]

theorem sysWrite_keeps (s : State) (sp : SpRef) (t : Team) (n : Nat) (v : BitVec 64)
    (h : κ (writeDieReg s t.die n v).guarded = κ s.guarded) : κ (sysWrite s sp t n v).guarded = κ s.guarded := by
  unfold sysWrite
  (repeat' split) <;> simp [h]

theorem execRdsys_keeps (w : JWord) (s : State) : Keeps κ s.guarded (execRdsys w s) := issue_keeps fun x _ => by simp

theorem execWrsys_keeps (w : JWord) (s : State) : Keeps Guarded.cycle s.guarded (execWrsys w s) := by
  refine issue_keeps fun x _ => ?_
  dsimp only
  split
  · simp
  · split
    · simp
    · split
      · simp
      · rw [keeps_next, sysWrite_keeps (h := writeDieReg_guarded_cycle ..), commit_guarded]

/-- A spindle of a user team writes no guarded register (R408). -/
theorem execWrsys_user_keeps (w : JWord) (s : State) (hfw : ∀ x, IssFacts (.wrsys w) sysCls s x → x.t.fw = false) :
    Keeps id s.guarded (execWrsys w s) := by
  refine issue_keeps fun x hx => ?_
  dsimp only
  split
  · simp
  · split
    · simp
    · next hn =>
      simp only [hfw x hx, Bool.not_false, Bool.true_and, decide_eq_true_eq, not_le] at hn
      split
      · simp
      · rw [keeps_next, sysWrite_keeps (κ := id) (h := writeDieReg_low hn ..), commit_guarded]

theorem execTrap_keeps (w : JWord) (s : State) : Keeps κ s.guarded (execTrap w s) := issue_keeps fun x _ => by simp
theorem execEret_keeps (w : JWord) (s : State) : Keeps κ s.guarded (execEret w s) := issue_keeps fun x _ => by simp
theorem execBkpt_keeps (w : JWord) (s : State) : Keeps κ s.guarded (execBkpt w s) := issue_keeps fun x _ => by simp
theorem execHalt_keeps (w : JWord) (s : State) : Keeps κ s.guarded (execHalt w s) := issue_keeps fun x _ => by simp
theorem execRolesw_keeps (w : JWord) (s : State) : Keeps κ s.guarded (execRolesw w s) := issue_keeps fun x _ => by simp

theorem execRoleswRowsGranted_keeps (sp : SpRef) (s : State) : Keeps κ s.guarded (execRoleswRowsGranted sp s) := by
  unfold execRoleswRowsGranted
  (repeat' split) <;> simp

theorem tlbinvForm_keeps (i : Instr) (w : JWord) (form : Nat) (s : State) : Keeps κ s.guarded (tlbinvForm i w form s) :=
  issue_keeps fun x _ => by simp

theorem framePlace_keeps {x : Iss} {k : AKind} {go : BitVec 64 → List (Want × List (Nat × Nat × Loc)) → Out}
    (h : ∀ ea rs, Keeps κ x.s.guarded (go ea rs)) : Keeps κ x.s.guarded (x.framePlace k go) := by
  unfold Iss.framePlace
  dsimp only
  split
  · simp
  · simp
  · split
    · simp
    · split
      · simp
      · exact h _ _

theorem execCtxsave_keeps (w : JWord) (s : State) : Keeps κ s.guarded (execCtxsave w s) := by
  refine issue_keeps fun x _ => ?_
  split
  · simp
  · refine framePlace_keeps fun ea rs => ?_
    split <;> simp

theorem readFrame_guarded {t : Team} {l : List (BitVec 64 × Nat × Nat × Loc)} {s : State} {u : State × List Byte}
    (h : readFrame t l s = .ok u) : u.1.guarded = s.guarded := by
  induction l generalizing s u with
  | nil =>
    cases h
    rfl
  | cons c l ih =>
    simp only [readFrame] at h
    split at h
    · cases h
    · next hr =>
      split at h
      · cases h
      · next hf =>
        cases h
        exact (ih hf).trans (readAt_guarded hr)

theorem execCtxload_keeps (w : JWord) (s : State) : Keeps κ s.guarded (execCtxload w s) := by
  refine issue_keeps fun x _ => ?_
  split
  · simp
  · refine framePlace_keeps fun ea rs => ?_
    dsimp only
    refine (keeps_ite ..).mpr ⟨fun _ => by simp, fun _ => ?_⟩
    split
    · simp
    · simp
    · simp
    · next hr =>
      have hs := readFrame_guarded hr
      refine (keeps_ite ..).mpr ⟨fun _ => by simp [← hs], fun _ => by simp [← hs]⟩

theorem execFtqRecordWrite_keeps (die : Nat) (s : State) : Keeps κ s.guarded (execFtqRecordWrite die s) := by
  simp only [execFtqRecordWrite]
  (repeat' split) <;> simp

@[simp] theorem openMerge_guarded (s : State) (die tenant g reason : Nat) (r : TrapRec) : (openMerge s die tenant g reason r).guarded = s.guarded := by
  unfold openMerge
  split <;> simp

@[simp] theorem parkWalker_guarded (g reason : Nat) (s : State) (e : FragRef × BitVec 64 × BitVec 8) : (parkWalker g reason s e).guarded = s.guarded := by
  unfold parkWalker
  split <;> simp

@[simp] theorem walkAgain_guarded (s : State) (die tenant granule : Nat) : (walkAgain s die tenant granule).guarded = s.guarded :=
  foldl_guarded _ (fun _ _ => updFrag_guarded ..) _ _

theorem execPageWalkComplete_keeps (die tenant granule : Nat) (s : State) : Keeps κ s.guarded (execPageWalkComplete die tenant granule s) := by
  have hwalks (p : List (Nat × Nat) → List (Nat × Nat)) : (walkAgain (updDie s die fun d => { d with walks := p d.walks }) die tenant granule).guarded =
      s.guarded := by simp
  unfold execPageWalkComplete
  split
  · simp
  · split
    · split <;> simp
    · dsimp only
      split
      · refine (keeps_next _).mpr (congrArg κ ?_)
        rw [foldl_guarded _ (fun _ _ => updFrag_guarded ..), foldl_guarded _ (fun _ _ => tlbPut_guarded ..), tlbPut_guarded, hwalks]
      · refine (keeps_next _).mpr (congrArg κ ?_)
        split <;> simp
      · refine (keeps_next _).mpr (congrArg κ ?_)
        rw [foldl_guarded _ (fun s y => by split <;> simp), hwalks]

@[simp] theorem unpark_guarded (s : State) (sp : SpRef) (frame : Option (List Byte)) (groups : List Nat) (failed : Bool) :
    (unpark s sp frame groups failed).guarded = s.guarded := by
  unfold unpark
  split <;> simp

theorem execSpindleUnpark_keeps (sp : SpRef) (s : State) : Keeps κ s.guarded (execSpindleUnpark sp s) := by
  unfold execSpindleUnpark
  (repeat' split) <;> simp

theorem execWatchdog_keeps (r : FragRef) (s : State) : Keeps κ s.guarded (execWatchdog r s) := by
  unfold execWatchdog
  split <;> simp

theorem execSpindleRetire_keeps (sp : SpRef) (s : State) : Keeps κ s.guarded (execSpindleRetire sp s) := by
  unfold execSpindleRetire
  split <;> simp

@[simp] theorem icPut_guarded (s : State) (c : ICell) : (icPut s c).guarded = s.guarded := by simp [icPut]

@[simp] theorem fetchPiece_guarded (s : State) (t : Team) (pa owner pte : Nat) (anew : Bool) :
    (fetchPiece s t pa owner pte anew).1.guarded = s.guarded := by
  unfold fetchPiece
  split <;> simp

@[simp] theorem fetchPieces_guarded (t : Team) (anew : BitVec 3) (i : Nat) (l : List (Nat × Nat × Nat)) (s : State) :
    (fetchPieces t anew i l s).1.guarded = s.guarded := by
  induction l generalizing i s with
  | nil => rfl
  | cons a l ih => simp [fetchPieces, ih]

theorem execInstructionFetch_keeps (r : FragRef) (anew : BitVec 3) (s : State) : Keeps κ s.guarded (execInstructionFetch r anew s) := by
  simp only [execInstructionFetch]
  (repeat' split) <;> simp

theorem execDebugAttach_keeps (grid : Nat) (on : Bool) (s : State) : Keeps κ s.guarded (execDebugAttach grid on s) := by simp [execDebugAttach]

theorem execDebugHalt_keeps (sp : SpRef) (s : State) : Keeps κ s.guarded (execDebugHalt sp s) := by
  unfold execDebugHalt
  split <;> simp

theorem execDebugResume_keeps (sp : SpRef) (s : State) : Keeps κ s.guarded (execDebugResume sp s) := by
  unfold execDebugResume
  split <;> simp

theorem execDebugStep_keeps (sp : SpRef) (focus : Option Nat) (s : State) : Keeps κ s.guarded (execDebugStep sp focus s) := by
  simp only [execDebugStep]
  (repeat' split) <;> simp

theorem execDebugStateAccess_keeps (sp : SpRef) (write : Option (List Byte)) (s : State) : Keeps κ s.guarded (execDebugStateAccess sp write s) := by
  unfold execDebugStateAccess
  (repeat' split) <;> simp

/-! ### Queue -/

theorem execArmQueue_keeps (q : Nat) (s : State) : Keeps κ s.guarded (execArmQueue q s) := by simp [execArmQueue]

theorem execDisarmQueue_keeps (q : Nat) (s : State) : Keeps κ s.guarded (execDisarmQueue q s) := by
  unfold execDisarmQueue
  split <;> simp

theorem fetchAt_guarded {s : State} {x : Queue} {depth : Nat} {l : Level} {pos : Nat} {u : State × Word} (h : fetchAt s x depth l pos = some u) :
    u.1.guarded = s.guarded := by
  unfold fetchAt at h
  dsimp only at h
  split at h
  · cases h
    rfl
  · obtain ⟨r, _, rfl⟩ := Option.map_eq_some_iff.mp h
    simp

theorem fetchWord_guarded {s : State} {q pos : Nat} {u : State × Word} (h : fetchWord s q pos = some u) : u.1.guarded = s.guarded := by
  obtain ⟨x, _, hx⟩ := Option.bind_eq_some_iff.mp h
  exact fetchAt_guarded hx

theorem fetchWords_guarded {q pos n : Nat} {s : State} {u : State × List Word} (h : fetchWords q pos n s = some u) :
    u.1.guarded = s.guarded := by
  induction n generalizing pos s u with
  | zero =>
    cases h
    rfl
  | succ n ih =>
    simp only [fetchWords] at h
    split at h
    · cases h
    · next hw =>
      obtain ⟨r, hr, rfl⟩ := Option.map_eq_some_iff.mp h
      exact (ih hr).trans (fetchWord_guarded hw)

@[simp] theorem saveRp_guarded (s : State) (q : Nat) : (saveRp s q).guarded = s.guarded := by
  unfold saveRp
  (repeat' split) <;> simp

@[simp] theorem finishPacket_guarded (s : State) (q n : Nat) : (finishPacket s q n).guarded = s.guarded := by simp [finishPacket]

/-- A packet's meaning keeps what its body keeps. -/
theorem packet_keeps {s : State} {body : Queue → Nat → Out} (h : ∀ x n, Keeps κ s.guarded (body x n)) : Keeps κ s.guarded (packet s body) := by
  unfold packet
  split
  · split
    · exact h _ _
    · simp
  · simp

@[simp] theorem keeps_queueDone (x : Queue) (n : Nat) (s : State) : Keeps κ g (x.done n s) ↔ κ s.guarded = κ g := by simp [Queue.done]
@[simp] theorem keeps_queueStop (x : Queue) (err : Nat) (s : State) : Keeps κ g (x.stop err s) ↔ κ s.guarded = κ g := by simp [Queue.stop]

theorem execCondEnd_keeps (p : Packet) (s : State) : Keeps κ s.guarded (execCondEnd p s) := by
  refine packet_keeps fun x n => ?_
  split <;> simp

theorem execLoopBegin_keeps (p : Packet) (s : State) : Keeps κ s.guarded (execLoopBegin p s) := by
  refine packet_keeps fun x n => ?_
  dsimp only
  (repeat' split) <;> simp

theorem execLoopEnd_keeps (p : Packet) (s : State) : Keeps κ s.guarded (execLoopEnd p s) := by
  refine packet_keeps fun x n => ?_
  (repeat' split) <;> simp

theorem execIndirect_keeps (p : Packet) (s : State) : Keeps κ s.guarded (execIndirect p s) := by
  refine packet_keeps fun x n => ?_
  dsimp only
  (repeat' split) <;> simp

theorem latheWrite_guarded {s u : State} {x : Queue} {va align : Nat} {bs : List Byte} (h : latheWrite s x va align bs = .ok u) :
    u.guarded = s.guarded := by
  unfold latheWrite at h
  split at h
  · cases h
  · split at h
    · cases h
      simp
    · cases h

theorem finishWrite_keeps (x y : Queue) (n : Nat) (s : State) (va align : Nat) (bs : List Byte) :
    Keeps κ s.guarded (x.finish n s (latheWrite s y va align bs)) := by
  unfold Queue.finish
  split
  · next h => simp [latheWrite_guarded h]
  · simp

theorem execNopPacket_keeps (p : Packet) (s : State) : Keeps κ s.guarded (execNopPacket p s) := packet_keeps fun _ _ => (keeps_queueDone ..).mpr rfl
theorem execWrite32_keeps (p : Packet) (s : State) : Keeps κ s.guarded (execWrite32 p s) := packet_keeps fun _ _ => finishWrite_keeps ..
theorem execWrite64_keeps (p : Packet) (s : State) : Keeps κ s.guarded (execWrite64 p s) := packet_keeps fun _ _ => finishWrite_keeps ..
theorem execTimestamp_keeps (p : Packet) (s : State) : Keeps κ s.guarded (execTimestamp p s) := packet_keeps fun _ _ => finishWrite_keeps ..

theorem execWaitMem_keeps (p : Packet) (s : State) : Keeps κ s.guarded (execWaitMem p s) := by
  refine packet_keeps fun x n => ?_
  (repeat' split) <;> simp

theorem execWaitMemReread_keeps (q : Nat) (s : State) : Keeps κ s.guarded (execWaitMemReread q s) := by
  unfold execWaitMemReread
  (repeat' split) <;> simp

theorem execCondBegin_keeps (p : Packet) (s : State) : Keeps κ s.guarded (execCondBegin p s) := by
  refine packet_keeps fun x n => ?_
  (repeat' split) <;> simp

theorem atomicPacket_keeps (p : Packet) (s : State) (f : Nat → Nat → Nat → Nat) : Keeps κ s.guarded (atomicPacket p s f) := by
  refine packet_keeps fun x n => ?_
  dsimp only
  (repeat' split) <;> simp

theorem execBoSignal_keeps (p : Packet) (s : State) : Keeps κ s.guarded (execBoSignal p s) := by
  refine packet_keeps fun x n => ?_
  dsimp only
  (repeat' split) <;> simp

theorem execDiscardRange_keeps (p : Packet) (s : State) : Keeps κ s.guarded (execDiscardRange p s) := by
  refine packet_keeps fun x n => ?_
  dsimp only
  (repeat' split) <;> simp

theorem execFetchFence_keeps (p : Packet) (s : State) : Keeps κ s.guarded (execFetchFence p s) := packet_keeps fun x n => by simp

theorem execCollective_keeps (p : Packet) (s : State) : Keeps κ s.guarded (execCollective p s) := by
  refine packet_keeps fun x n => ?_
  dsimp only
  (repeat' split) <;> simp

@[simp] theorem preload_guarded (reset : Bool) (e : Nat) (s : State) (die : Nat) : (preload reset e s die).guarded = s.guarded := by
  unfold preload
  split <;> simp

theorem execErtPreload_keeps (p : Packet) (s : State) : Keeps κ s.guarded (execErtPreload p s) := by
  refine packet_keeps fun x n => ?_
  dsimp only
  split
  · simp
  · rw [keeps_queueDone, foldl_guarded _ fun _ _ => preload_guarded ..]

theorem execSetShare_keeps (p : Packet) (s : State) : Keeps Guarded.cycle s.guarded (execSetShare p s) := by
  refine packet_keeps fun x n => ?_
  split
  · simp
  · exact (keeps_queueDone ..).mpr rfl

theorem execResync_keeps (p : Packet) (s : State) : Keeps κ s.guarded (execResync p s) := by
  refine packet_keeps fun x n => ?_
  split
  · simp
  · exact finishWrite_keeps ..

@[simp] theorem fetchAhead_guarded (q depth : Nat) (l : Level) (ps : List Nat) (s : State) : (fetchAhead q depth l ps s).guarded = s.guarded := by
  induction ps generalizing s with
  | nil => rfl
  | cons pos ps ih =>
    unfold fetchAhead
    rw [ih]
    split
    · split
      · next hf =>
        obtain ⟨x, _, hx⟩ := Option.bind_eq_some_iff.mp hf
        simpa using (fetchAt_guarded hx :)
      · simp
    · simp

theorem execWpUpdate_keeps (q : Nat) (s : State) : Keeps κ s.guarded (execWpUpdate q s) := by
  unfold execWpUpdate
  split
  · simp
  · split
    · simp
    · rw [keeps_next, foldl_guarded _ fun _ _ => fetchAhead_guarded .., updQueue_guarded]

theorem execQueueAged_keeps (q : Nat) (s : State) : Keeps κ s.guarded (execQueueAged q s) := by
  unfold execQueueAged
  split <;> simp

@[simp] theorem endBuffer_guarded (s : State) (x : Queue) : (endBuffer s x).guarded = s.guarded := by simp [endBuffer]

/-! ### Grids -/

@[simp] theorem setPlace_guarded (s : State) (grid die : Nat) (l : Option (List (Nat × Nat))) (demoted : Bool) :
    (setPlace s grid die l demoted).guarded = s.guarded := by
  simp [setPlace]

@[simp] theorem placeAll_guarded (s : State) (grid : Nat) : (placeAll s grid).guarded = s.guarded := by
  unfold placeAll
  split
  · rfl
  · refine foldl_guarded _ (fun s d => ?_) _ _
    split <;> simp

@[simp] theorem admitGrid_guarded (s : State) (g : Grid) : (admitGrid s g).guarded = s.guarded := by simp [admitGrid]
@[simp] theorem completionBo_guarded (s : State) (g : Grid) (status : Nat) : (completionBo s g status).guarded = s.guarded := by simp [completionBo]
@[simp] theorem reject_guarded (s : State) (g : Grid) (reason : Nat) : (reject s g reason).guarded = s.guarded := by simp [reject]

theorem execLaunch_keeps (p : Packet) (s : State) : Keeps κ s.guarded (execLaunch p s) := by
  refine packet_keeps fun x n => ?_
  dsimp only
  split
  · simp
  · split
    · simp
    · rw [keeps_queueDone]
      split <;> simp

/-- A fold whose steps leave the cycle counter. -/
theorem foldl_guarded_cycle {β : Type} {f : State → β → State} (h : ∀ s a, (f s a).guarded.cycle = s.guarded.cycle) (l : List β) (s : State) :
    (l.foldl f s).guarded.cycle = s.guarded.cycle := foldl_keeps (fun s : State => s.guarded.cycle) f h l s

@[simp] theorem giveCores_guarded_cycle (s : State) (grid c phys : Nat) : (giveCores s grid c phys).guarded.cycle = s.guarded.cycle := by
  have hacquire (l : List Team) (s : State) : (l.foldl (fun s t => acquireAt s t 4) s).guarded = s.guarded :=
    foldl_guarded _ (fun _ _ => acquireAt_guarded ..) l s
  have hactive (s : State) (a : List Nat) : (State.guarded { s with lathe := { s.lathe with active := a } }).cycle = s.guarded.cycle := rfl
  unfold giveCores
  split
  · rfl
  · split
    · rfl
    · dsimp only
      split <;> simp [hacquire, hactive]

@[simp] theorem giveSlice_guarded_cycle (s : State) (die grid c phys : Nat) : (giveSlice s die grid c phys).guarded.cycle = s.guarded.cycle := by
  simp [giveSlice]

@[simp] theorem fillSlice_guarded_cycle (s : State) (die : Nat) : (fillSlice s die).guarded.cycle = s.guarded.cycle := by
  refine foldl_guarded_cycle (fun s e => ?_) _ _
  dsimp only
  (repeat' split) <;> simp

@[simp] theorem signalYield_guarded (s : State) (grid : Nat) (forGrid : Option Nat) : (signalYield s grid forGrid).guarded = s.guarded := by
  simp [signalYield]

theorem execPreemption_keeps (grid die : Nat) (s : State) : Keeps κ s.guarded (execPreemption grid die s) := by
  unfold execPreemption
  split <;> simp

@[simp] theorem settleWaits_guarded (s : State) (grid : Nat) : (settleWaits s grid).guarded = s.guarded := by
  unfold settleWaits
  split
  · rfl
  · split
    · rfl
    · refine foldl_guarded _ (fun s d => ?_) _ _
      split <;> simp

theorem execTeamStart_keeps (grid cluster : Nat) (s : State) : Keeps Guarded.cycle s.guarded (execTeamStart grid cluster s) := by
  simp only [execTeamStart]
  (repeat' split) <;> simp

@[simp] theorem stopCluster_guarded (s : State) (grid c why : Nat) : (stopCluster s grid c why).guarded = s.guarded := by simp [stopCluster]

@[simp] theorem promote_guarded (die : Nat) (s : State) (grid : Nat) : (promote die s grid).guarded = s.guarded := by
  unfold promote
  split
  · rfl
  · split
    · rfl
    · split
      · rfl
      · dsimp only
        split
        · rfl
        · rw [foldl_guarded, setPlace_guarded]
          intro s e
          (repeat' split) <;> simp

@[simp] theorem demoteAll_guarded (s : State) (die : Nat) : (demoteAll s die).guarded = s.guarded := by simp [demoteAll]

@[simp] theorem restoreHomes_guarded_cycle (s : State) (die : Nat) : (restoreHomes s die).guarded.cycle = s.guarded.cycle := by
  refine foldl_guarded_cycle (fun s e => ?_) _ _
  (repeat' split) <;> simp

theorem execSliceEnd_keeps (die : Nat) (s : State) : Keeps Guarded.cycle s.guarded (execSliceEnd die s) := by simp [execSliceEnd]

@[simp] theorem writeImage_guarded (s : State) (g : Grid) (c : Cluster) (t : Team) : (writeImage s g c t).guarded = s.guarded := by
  simp [writeImage]

@[simp] theorem writeScratch_guarded (s : State) (g : Grid) (t : Team) : (writeScratch s g t).guarded = s.guarded := by simp [writeScratch]
@[simp] theorem dropChuck_guarded (s : State) (die core : Nat) : (dropChuck s die core).guarded = s.guarded := by simp [dropChuck]

theorem execSwapSave_keeps (grid cluster : Nat) (s : State) : Keeps Guarded.cycle s.guarded (execSwapSave grid cluster s) := by
  unfold execSwapSave
  (repeat' split) <;> simp

theorem execClusterSwapParked_keeps (grid cluster : Nat) (s : State) : Keeps κ s.guarded (execClusterSwapParked grid cluster s) := by
  unfold execClusterSwapParked
  split <;> simp

theorem execGraceExpiry_keeps (grid cluster : Nat) (s : State) : Keeps κ s.guarded (execGraceExpiry grid cluster s) := by
  unfold execGraceExpiry
  (repeat' split) <;> simp

theorem actOnReq_keeps {grid v : Nat} {s : State} {f : Grid → State} (h : ∀ g, (f g).guarded = s.guarded) :
    Keeps κ s.guarded (actOnReq grid v s f) := by
  unfold actOnReq
  dsimp only
  (repeat' split) <;> simp [h]

theorem execReqYield_keeps (grid : Nat) (s : State) : Keeps κ s.guarded (execReqYield grid s) :=
  actOnReq_keeps fun y => by split <;> simp

theorem execGridYielded_keeps (grid : Nat) (s : State) : Keeps κ s.guarded (execGridYielded grid s) := by
  unfold execGridYielded
  split <;> simp

@[simp] theorem resumeGrid_guarded (s : State) (grid : Nat) : (resumeGrid s grid).guarded = s.guarded := by simp [resumeGrid]

theorem execReqResume_keeps (grid : Nat) (s : State) : Keeps κ s.guarded (execReqResume grid s) :=
  actOnReq_keeps fun y => by split <;> simp

theorem execGridResume_keeps (grid : Nat) (s : State) : Keeps κ s.guarded (execGridResume grid s) := by
  unfold execGridResume
  split <;> simp

theorem execTeamRetire_keeps (team : Nat) (s : State) : Keeps Guarded.cycle s.guarded (execTeamRetire team s) := by
  simp only [execTeamRetire]
  (repeat' split) <;> simp

@[simp] theorem endGrid_guarded (s : State) (g : Grid) (st : GridSt) (status type : Nat) : (endGrid s g st status type).guarded = s.guarded := by
  simp [endGrid]

theorem execGridComplete_keeps (grid : Nat) (s : State) : Keeps κ s.guarded (execGridComplete grid s) := by
  unfold execGridComplete
  split <;> simp

theorem execReqAbort_keeps (grid : Nat) (s : State) : Keeps κ s.guarded (execReqAbort grid s) := actOnReq_keeps fun _ => abortGrid_guarded ..

theorem execGridAbort_keeps (grid : Nat) (s : State) : Keeps κ s.guarded (execGridAbort grid s) := by
  unfold execGridAbort
  split <;> simp

theorem execAbortDiscard_keeps (grid : Nat) (s : State) : Keeps Guarded.cycle s.guarded (execAbortDiscard grid s) := by
  unfold execAbortDiscard
  split
  · simp
  · dsimp only
    refine (keeps_ite ..).mpr ⟨fun _ => by simp, fun _ => ?_⟩
    rw [keeps_next, foldl_guarded_cycle fun _ _ => fillSlice_guarded_cycle .., endGrid_guarded, updGrid_guarded, guarded_with,
      foldl_guarded _ fun _ _ => dropChuck_guarded ..]

theorem execShareWindowEnd_keeps (s : State) : Keeps Guarded.cycle s.guarded (execShareWindowEnd s) := by
  unfold execShareWindowEnd
  split
  · simp
  · rw [keeps_next, foldl_guarded_cycle]
    · rfl
    · intro s ten
      dsimp only
      split
      · rw [foldl_guarded _ fun _ _ => decisionOf_guarded ..]
        rfl
      · rfl

/-! ### Host -/

theorem execLucmdLoad_keeps (s : State) : Keeps Guarded.cycle s.guarded (execLucmdLoad s) := by
  unfold execLucmdLoad
  dsimp only
  split
  · simp
  · exact (keeps_next _).mpr rfl

@[simp] theorem checkMicrocode_guarded_cycle (s : State) : (checkMicrocode s).guarded.cycle = s.guarded.cycle := by
  unfold checkMicrocode
  split
  · rfl
  · dsimp only
    split
    · rfl
    · split
      · rfl
      · rw [measure_guarded]
        rfl

theorem execMicrocodeSwitch_keeps (s : State) : Keeps Guarded.cycle s.guarded (execMicrocodeSwitch s) := by
  unfold execMicrocodeSwitch
  split
  · simp
  · split
    · exact (keeps_next _).mpr rfl
    · simp

@[simp] theorem writeLathe_guarded_cycle (s : State) (off : Nat) (v : BitVec 64) : (writeLathe s off v).guarded.cycle = s.guarded.cycle := by
  unfold writeLathe
  dsimp only
  split
  · split <;> rfl
  · split
    · split <;> rfl
    · split
      · split <;> rfl
      · split
        · split
          · exact outState_keeps (execLucmdLoad_keeps s)
          · rfl
        · rfl

@[simp] theorem writeEx_guarded_cycle (s : State) (die : Nat) (f : Die → Die) : (writeEx s die f).guarded.cycle = s.guarded.cycle := by
  simp [writeEx]

@[simp] theorem writeWin_guarded (s : State) (w : Nat) (v : BitVec 512) : (writeWin s w v).guarded = s.guarded := by simp [writeWin]
@[simp] theorem writeWbind_guarded (s : State) (w : Nat) (v : BitVec 64) : (writeWbind s w v).guarded = s.guarded := by simp [writeWbind]

@[simp] theorem writeGrp_guarded_cycle (s : State) (y : Nat) (v : BitVec 512) : (writeGrp s y v).guarded.cycle = s.guarded.cycle := by
  unfold writeGrp
  split <;> rfl

@[simp] theorem writeKey_guarded_cycle (s : State) (owner : Nat) (k : BitVec 512) : (writeKey s owner k).guarded.cycle = s.guarded.cycle := by
  unfold writeKey
  split <;> rfl

@[simp] theorem takeRequest_guarded (s : State) : (takeRequest s).guarded = s.guarded := by simp [takeRequest]
@[simp] theorem writeMailbox_guarded (s : State) (off : Nat) (v : BitVec 64) : (writeMailbox s off v).guarded = s.guarded := by simp [writeMailbox]

@[simp] theorem writeFlash_guarded (s : State) (iod nsid off : Nat) (b : Byte) : (writeFlash s iod nsid off b).guarded = s.guarded := by
  simp [writeFlash]

@[simp] theorem writeBar2_guarded (s : State) (fn granule : Nat) (v : BitVec 64) : (writeBar2 s fn granule v).guarded = s.guarded := by
  simp [writeBar2]

@[simp] theorem unmapCapacity_guarded (s : State) (addr len : Nat) : (unmapCapacity s addr len).guarded = s.guarded := by simp [unmapCapacity]

theorem execRegisterWrite_keeps (r : HostReg) (value : BitVec 512) (s : State) : Keeps Guarded.cycle s.guarded (execRegisterWrite r value s) := by
  cases r <;> simp only [execRegisterWrite, keeps_next, writeDieReg_guarded_cycle, writeEx_guarded_cycle, writeWin_guarded, writeWbind_guarded,
    writeGrp_guarded_cycle, writeLathe_guarded_cycle, writeKey_guarded_cycle, writeMailbox_guarded, writeFlash_guarded, writeBar2_guarded,
    unmapCapacity_guarded]
  case saveBase => split <;> rfl

theorem execAttestationRequest_keeps (s : State) : Keeps κ s.guarded (execAttestationRequest s) := by simp [execAttestationRequest]

theorem execHostBar2Access_keeps (addr len : Nat) (req : HostReq) (s : State) : Keeps κ s.guarded (execHostBar2Access addr len req s) := by
  simp only [execHostBar2Access]
  (repeat' split) <;> simp

theorem execDynamicCapacityRelease_keeps (addr len : Nat) (s : State) : Keeps κ s.guarded (execDynamicCapacityRelease addr len s) := by
  simp [execDynamicCapacityRelease]

@[simp] theorem spoilLine_guarded (s : State) (die line : Nat) : (spoilLine s die line).guarded = s.guarded := by simp [spoilLine]
@[simp] theorem dropHolder_guarded (s : State) (die : Nat) : (dropHolder s die).guarded = s.guarded := by simp [dropHolder]

@[simp] theorem instLoss_guarded (s : State) (i : Inst) : (instLoss s i).guarded = s.guarded := by
  unfold instLoss
  split <;> simp

@[simp] theorem loseDie_guarded_cycle (s : State) (die : Nat) : (loseDie s die).guarded.cycle = s.guarded.cycle := by
  unfold loseDie
  split
  · rfl
  · dsimp only
    rw [foldl_guarded _ fun _ _ => instLoss_guarded .., foldl_guarded _ fun _ _ => by rw [winEnd_guarded, landSome_guarded], dropHolder_guarded,
      foldl_guarded _ fun _ _ => dropRefs_guarded ..]
    rfl

theorem execDieLost_keeps (die : Nat) (s : State) : Keeps Guarded.cycle s.guarded (execDieLost die s) := by simp [execDieLost]

@[simp] theorem limitDie_guarded_cycle (n : Nat) (hot2 : Bool) (s : State) (die : Nat) : (limitDie n hot2 s die).guarded.cycle = s.guarded.cycle := by
  unfold limitDie
  dsimp only
  split <;> simp

@[simp] theorem limitOther_guarded_cycle (n : Nat) (s : State) (e : Nat × BitVec 64) : (limitOther n s e).guarded.cycle = s.guarded.cycle := by
  unfold limitOther
  dsimp only
  split <;> rfl

theorem execTelemetryRefresh_keeps (s : State) : Keeps Guarded.cycle s.guarded (execTelemetryRefresh s) := by
  unfold execTelemetryRefresh
  split
  · simp
  · rw [keeps_next, guarded_with, foldl_guarded_cycle fun _ _ => limitOther_guarded_cycle .., foldl_guarded_cycle fun _ _ => limitDie_guarded_cycle ..,
      guarded_with]

@[simp] theorem startFirmware_guarded (s : State) (d : Nat) : (startFirmware s d).guarded = s.guarded := by
  unfold startFirmware
  split <;> simp

@[simp] theorem bringUp_guarded_cycle (s : State) (b : Nat) : (bringUp s b).guarded.cycle = s.guarded.cycle := by
  have harm (l : List (Nat × BitVec 2)) (s : State) :
      (l.foldl (fun s e => outState s (execArmWindow e.1 e.2 s)) s).guarded.cycle = s.guarded.cycle :=
    foldl_guarded_cycle (fun _ _ => outState_keeps (execArmWindow_keeps ..)) l s
  unfold bringUp
  split
  · rfl
  · dsimp only
    split
    · rw [harm, guarded_with]
      split
      · rw [startFirmware_guarded]
        rfl
      · rfl
    · split
      · rw [startFirmware_guarded]
        rfl
      · rfl

/-! ### Matrix -/

@[simp] theorem setArr_guarded (s : State) (a : MatArr) : (setArr s a).guarded = s.guarded := by simp [setArr]
@[simp] theorem freeChucks_guarded (s : State) (sp : SpRef) : (freeChucks s sp).guarded = s.guarded := by simp [freeChucks]

theorem execMma_keeps (w : JWord) (s : State) : Keeps κ s.guarded (execMma w s) := by
  refine issue_keeps fun x _ => ?_
  dsimp only
  split
  · simp
  · split
    · simp
    · split
      · simp
      · split
        · simp
        · split
          · simp
          · split
            · simp
            · split
              · simp
              · split
                · simp
                · rw [keeps_issNext, guarded_with]
                  split <;> simp

theorem execMmaGrant_keeps (die cluster : Nat) (s : State) : Keeps κ s.guarded (execMmaGrant die cluster s) := by
  simp only [execMmaGrant]
  (repeat' split) <;> simp

theorem execMmaPassStart_keeps (die core : Nat) (s : State) : Keeps κ s.guarded (execMmaPassStart die core s) := by
  unfold execMmaPassStart
  (repeat' split) <;> simp

@[simp] theorem passTile_guarded (v : State) (d : MmaD) (q : Pass) (s : State) (u : Team) : (passTile v d q s u).guarded = s.guarded := by
  simp [passTile]

theorem execMmaBasinWrite_keeps (die core : Nat) (s : State) : Keeps κ s.guarded (execMmaBasinWrite die core s) := by
  unfold execMmaBasinWrite
  (repeat' split) <;> simp

theorem accForm_keeps (i : Instr) (w : JWord) (form : Nat) (s : State) : Keeps κ s.guarded (accForm i w form s) := issue_keeps fun x _ => by simp

@[simp] theorem accPart_guarded (s : State) (r : SpRef) (id : Nat) : (accPart s r id).guarded = s.guarded := by
  unfold accPart
  (repeat' split) <;> simp

theorem execBasinTileAccess_keeps (r : SpRef) (id : Nat) (s : State) : Keeps κ s.guarded (execBasinTileAccess r id s) := by
  unfold execBasinTileAccess
  (repeat' split) <;> simp

/-! ### Predicate -/

theorem plogForm_keeps (i : Instr) (w : JWord) (op : Bool → Bool → Bool) (s : State) : Keeps κ s.guarded (plogForm i w op s) :=
  issue_keeps fun x _ => by simp

theorem execP2v_keeps (w : JWord) (s : State) : Keeps κ s.guarded (execP2v w s) := issue_keeps fun x _ => by simp
theorem execV2p_keeps (w : JWord) (s : State) : Keeps κ s.guarded (execV2p w s) := issue_keeps fun x _ => by simp
theorem execBallot_keeps (w : JWord) (s : State) : Keeps κ s.guarded (execBallot w s) := issue_keeps fun x _ => by simp
theorem voteForm_keeps (i : Instr) (w : JWord) (v : Iss → Bool) (s : State) : Keeps κ s.guarded (voteForm i w v s) := issue_keeps fun x _ => by simp

theorem pickForm_keeps (i : Instr) (w : JWord) (src : Int → Int → Int) (s : State) : Keeps κ s.guarded (pickForm i w src s) :=
  issue_keeps fun x _ => by simp

theorem gangForm_keeps (i : Instr) (w : JWord) (contrib : Iss → Nat → Word × Word) (s : State) : Keeps κ s.guarded (gangForm i w contrib s) :=
  issue_keeps fun x _ => by simp

theorem execRendezvous_keeps (team role gang : Nat) (s : State) : Keeps κ s.guarded (execRendezvous team role gang s) := by
  unfold execRendezvous
  split
  · simp
  · split
    · simp
    · split
      · simp
      · dsimp only
        split
        · simp
        · split
          · split
            · rw [keeps_next, foldl_guarded _ fun _ _ => updSp_guarded ..]
            · rw [keeps_next, foldl_guarded _ fun _ _ => by rw [raiseGangTrap_guarded, updSp_guarded]]
          · simp

/-! ## Turns -/

/-- What an issue's turn runs is the decoded word, at the state with the fragment noted. -/
theorem prepIssue_run {s u : State} {r : FragRef} {i : Instr} (h : prepIssue s r = .run i u) :
    ∃ word, decodeJolisol word = .ok i ∧ u = { s with cur := .frag r word } := by
  unfold prepIssue at h
  split at h
  · split at h
    · cases h
    · next word _ =>
      split at h
      · next hd =>
        cases h
        exact ⟨word, hd, rfl⟩
      · split at h <;> cases h
  · cases h

theorem prepIssue_done {s u : State} {r : FragRef} (h : prepIssue s r = .done u) : u.guarded = s.guarded := by
  unfold prepIssue at h
  split at h
  · split at h
    · cases h
      rfl
    · split at h
      · cases h
      · split at h
        · cases h
          exact outState_keeps (κ := id) ((keeps_trapAt ..).mpr rfl)
        · cases h
          rfl
  · cases h
    rfl

theorem prepLuanil_run {s u : State} {unit c : Nat} {i : Instr} (h : prepLuanil s unit c = .run i u) :
    ∃ x, decodeLuanil x = .ok i ∧ u = { s with cur := .ctx unit c } := by
  unfold prepLuanil at h
  split at h
  · cases h
  · split at h
    · cases h
    · split at h
      · cases h
      · split at h
        · cases h
        · split at h
          · next hd =>
            cases h
            exact ⟨_, hd, rfl⟩
          · cases h

theorem prepLuanil_done {s u : State} {unit c : Nat} (h : prepLuanil s unit c = .done u) : u.guarded = s.guarded := by
  have hfault (x : Ctx) : (outState s (ctxFault s x .past)).guarded = s.guarded := outState_keeps (κ := id) ((keeps_ctxFault ..).mpr rfl)
  unfold prepLuanil at h
  split at h
  · cases h
    rfl
  · split at h
    · cases h
      rfl
    · split at h
      · cases h
        exact outState_keeps (κ := id) (builtinTurn_keeps _ _)
      · split at h
        · cases h
          exact hfault _
        · split at h
          · cases h
          · cases h
            exact hfault _

/-- A queue's turn runs a decoded packet, or none; the guarded part is `y`. -/
def Packeted.Holds (y : Guarded) : Packeted → Prop
  | .run i s => (∃ ws, decodePacket ws = .ok i) ∧ s.guarded = y
  | .done s => s.guarded = y

@[simp] theorem holds_done (y : Guarded) (s : State) : (Packeted.done s).Holds y ↔ s.guarded = y := Iff.rfl

theorem holds_ite {y : Guarded} {c : Prop} [Decidable c] {a b : Packeted} (ha : a.Holds y) (hb : b.Holds y) : (if c then a else b).Holds y := by
  split
  · exact ha
  · exact hb

theorem nextPacket_holds (s : State) (q : Nat) : (nextPacket s q).Holds s.guarded := by
  unfold nextPacket
  split
  · rfl
  · dsimp only
    refine holds_ite rfl (holds_ite (endBuffer_guarded ..) ?_)
    split
    · simp
    · next hw =>
      rw [← fetchWord_guarded hw]
      refine holds_ite ?_ (holds_ite (by simp) (holds_ite (by simp) (holds_ite (by simp) (holds_ite rfl (holds_ite rfl ?_)))))
      · refine holds_ite (by simp) (holds_ite (by simp) ?_)
        split <;> simp
      · split
        · simp
        · next hws =>
          rw [← fetchWords_guarded hws]
          split
          · next hd => exact ⟨⟨_, hd⟩, rfl⟩
          · simp
          · simp

theorem prepPacket_run {s u : State} {q : Nat} {i : Instr} (h : prepPacket s q = .run i u) :
    (∃ ws, decodePacket ws = .ok i) ∧ u.guarded = s.guarded := by
  have hn := nextPacket_holds s q
  unfold prepPacket at h
  split at h
  · next he =>
    cases h
    rwa [he] at hn
  · cases h

theorem prepPacket_done {s u : State} {q : Nat} (h : prepPacket s q = .done u) : u.guarded = s.guarded := by
  have hn := nextPacket_holds s q
  unfold prepPacket at h
  split at h
  · cases h
  · next he =>
    cases h
    rwa [he] at hn

@[simp] theorem l1Evict_guarded (s : State) (die core sec : Nat) : (l1Evict s die core sec).guarded = s.guarded := by simp [l1Evict]

@[simp] theorem softError_guarded_cycle (s : State) (y0 : SoftErr) : (softError s y0).guarded.cycle = s.guarded.cycle := by
  unfold softError
  (repeat' split) <;> simp

@[simp] theorem completeForm_guarded (s : State) (r : SpRef) (id : Nat) : (completeForm s r id).guarded = s.guarded := by
  unfold completeForm
  (repeat' split) <;> simp

/-! ## Instructions -/

/-- The instructions that may write the guarded part of a state: WRSYS, SET_SHARE, and acts of the host, the Lathe or time. -/
def writesGuarded : Instr → Bool
  | .wrsys _ | .setShare _ | .programLoad _ _ _ | .abortDiscard _ | .teamStart _ _ | .teamRetire _ | .sliceEnd _ | .swapSave _ _
  | .shareWindowEnd | .lucmdLoad | .microcodeSwitch | .registerWrite _ _ | .packageReset | .dieLost _ | .telemetryRefresh => true
  | _ => false

/-- Every other instruction leaves the guarded part as it is. -/
theorem exec_keeps {i : Instr} (hi : writesGuarded i = false) (s : State) : Keeps κ s.guarded (exec i s) :=
  match i, hi with
  | .bra _, _ => execBra_keeps _ _
  | .brd _, _ => execBrd_keeps _ _
  | .jmps _, _ => execJmps_keeps _ _
  | .call _, _ => execCall_keeps _ _
  | .calls _, _ => execCalls_keeps _ _
  | .ret _, _ => execRet_keeps _ _
  | .ifI _, _ => execIf_keeps _ _
  | .elseI _, _ => execElse_keeps _ _
  | .endif _, _ => execEndif_keeps _ _
  | .loopI _, _ => execLoop_keeps _ _
  | .breakI _, _ => execBreak_keeps _ _
  | .contI _, _ => execCont_keeps _ _
  | .endloop _, _ => execEndloop_keeps _ _
  | .exitI _, _ => execExit_keeps _ _
  | .rfl _, _ => execRfl_keeps _ _
  | .getid _, _ => execGetid_keeps _ _
  | .nop _, _ => execNop_keeps _ _
  | .sleep _, _ => execSleep_keeps _ _
  | .iadd w, _ => (elemForm_keeps .. : Keeps κ _ (execIadd w s))
  | .isub w, _ => (elemForm_keeps .. : Keeps κ _ (execIsub w s))
  | .iaddx _, _ => execIaddx_keeps _ _
  | .imul w, _ => (elemForm_keeps .. : Keeps κ _ (execImul w s))
  | .imulhi w, _ => (elemForm_keeps .. : Keeps κ _ (execImulhi w s))
  | .imad w, _ => (elemForm_keeps .. : Keeps κ _ (execImad w s))
  | .imadw w, _ => (intForm_keeps .. : Keeps κ _ (execImadw w s))
  | .imin w, _ => (elemForm_keeps .. : Keeps κ _ (execImin w s))
  | .imax w, _ => (elemForm_keeps .. : Keeps κ _ (execImax w s))
  | .iabs w, _ => (elemForm_keeps .. : Keeps κ _ (execIabs w s))
  | .ineg w, _ => (elemForm_keeps .. : Keeps κ _ (execIneg w s))
  | .andI w, _ => (bitForm_keeps .. : Keeps κ _ (execAnd w s))
  | .orI w, _ => (bitForm_keeps .. : Keeps κ _ (execOr w s))
  | .xorI w, _ => (bitForm_keeps .. : Keeps κ _ (execXor w s))
  | .andn w, _ => (bitForm_keeps .. : Keeps κ _ (execAndn w s))
  | .notI w, _ => (bitForm_keeps .. : Keeps κ _ (execNot w s))
  | .shl w, _ => (shiftForm_keeps .. : Keeps κ _ (execShl w s))
  | .shr w, _ => (shiftForm_keeps .. : Keeps κ _ (execShr w s))
  | .sar w, _ => (shiftForm_keeps .. : Keeps κ _ (execSar w s))
  | .rot w, _ => (shiftForm_keeps .. : Keeps κ _ (execRot w s))
  | .fshf w, _ => (intForm_keeps .. : Keeps κ _ (execFshf w s))
  | .bfe w, _ => (intForm_keeps .. : Keeps κ _ (execBfe w s))
  | .bfi w, _ => (intForm_keeps .. : Keeps κ _ (execBfi w s))
  | .brev _, _ => execBrev_keeps _ _
  | .clz w, _ => (countForm_keeps .. : Keeps κ _ (execClz w s))
  | .ffs w, _ => (countForm_keeps .. : Keeps κ _ (execFfs w s))
  | .popc w, _ => (countForm_keeps .. : Keeps κ _ (execPopc w s))
  | .icmp _, _ => execIcmp_keeps _ _
  | .sel _, _ => execSel_keeps _ _
  | .mov w, _ => (intForm_keeps .. : Keeps κ _ (execMov w s))
  | .movi w, _ => (intForm_keeps .. : Keeps κ _ (execMovi w s))
  | .lea w, _ => (intForm_keeps .. : Keeps κ _ (execLea w s))
  | .idot4 w, _ => (intForm_keeps .. : Keeps κ _ (execIdot4 w s))
  | .pand w, _ => (plogForm_keeps .. : Keeps κ _ (execPand w s))
  | .por w, _ => (plogForm_keeps .. : Keeps κ _ (execPor w s))
  | .pxor w, _ => (plogForm_keeps .. : Keeps κ _ (execPxor w s))
  | .pnot w, _ => (plogForm_keeps .. : Keeps κ _ (execPnot w s))
  | .p2v _, _ => execP2v_keeps _ _
  | .v2p _, _ => execV2p_keeps _ _
  | .ballot _, _ => execBallot_keeps _ _
  | .voteAll w, _ => (voteForm_keeps .. : Keeps κ _ (execVoteAll w s))
  | .voteAny w, _ => (voteForm_keeps .. : Keeps κ _ (execVoteAny w s))
  | .voteSame w, _ => (voteForm_keeps .. : Keeps κ _ (execVoteSame w s))
  | .pickAt w, _ => (pickForm_keeps .. : Keeps κ _ (execPickAt w s))
  | .pickBelow w, _ => (pickForm_keeps .. : Keeps κ _ (execPickBelow w s))
  | .pickAbove w, _ => (pickForm_keeps .. : Keeps κ _ (execPickAbove w s))
  | .pickFlip w, _ => (pickForm_keeps .. : Keeps κ _ (execPickFlip w s))
  | .gballotPopc w, _ => (gangForm_keeps .. : Keeps κ _ (execGballotPopc w s))
  | .gballotAny w, _ => (gangForm_keeps .. : Keeps κ _ (execGballotAny w s))
  | .gballotAll w, _ => (gangForm_keeps .. : Keeps κ _ (execGballotAll w s))
  | .gballotPfx w, _ => (gangForm_keeps .. : Keeps κ _ (execGballotPfx w s))
  | .gballotMask w, _ => (gangForm_keeps .. : Keeps κ _ (execGballotMask w s))
  | .gpickAt w, _ => (gangForm_keeps .. : Keeps κ _ (execGpickAt w s))
  | .gpickBelow w, _ => (gangForm_keeps .. : Keeps κ _ (execGpickBelow w s))
  | .gpickAbove w, _ => (gangForm_keeps .. : Keeps κ _ (execGpickAbove w s))
  | .gpickFlip w, _ => (gangForm_keeps .. : Keeps κ _ (execGpickFlip w s))
  | .cvt _, _ => execCvt_keeps _ _
  | .cvti _, _ => execCvti_keeps _ _
  | .cvtf _, _ => execCvtf_keeps _ _
  | .cvtpk _, _ => execCvtpk_keeps _ _
  | .cvtup _, _ => execCvtup_keeps _ _
  | .fscale _, _ => execFscale_keeps _ _
  | .getmode _, _ => execGetmode_keeps _ _
  | .getmodeGen _, _ => execGetmodeGen_keeps _ _
  | .setmode _, _ => execSetmode_keeps _ _
  | .setmodeImm _, _ => execSetmodeImm_keeps _ _
  | .setmodeGen _, _ => execSetmodeGen_keeps _ _
  | .fadd w, _ => (floatForm_keeps .. : Keeps κ _ (execFadd w s))
  | .fsub w, _ => (floatForm_keeps .. : Keeps κ _ (execFsub w s))
  | .fmul w, _ => (floatForm_keeps .. : Keeps κ _ (execFmul w s))
  | .ffma w, _ => (floatForm_keeps .. : Keeps κ _ (execFfma w s))
  | .fmin w, _ => (minMaxForm_keeps .. : Keeps κ _ (execFmin w s))
  | .fmax w, _ => (minMaxForm_keeps .. : Keeps κ _ (execFmax w s))
  | .fcmp _, _ => execFcmp_keeps _ _
  | .fclass _, _ => execFclass_keeps _ _
  | .pkadd w, _ => (packedForm_keeps .. : Keeps κ _ (execPkadd w s))
  | .pkmul w, _ => (packedForm_keeps .. : Keeps κ _ (execPkmul w s))
  | .pkfma w, _ => (packedForm_keeps .. : Keeps κ _ (execPkfma w s))
  | .rcp w, _ => (floatForm_keeps .. : Keeps κ _ (execRcp w s))
  | .sqrt w, _ => (floatForm_keeps .. : Keeps κ _ (execSqrt w s))
  | .rsq w, _ => (sfuForm_keeps .. : Keeps κ _ (execRsq w s))
  | .exp2 w, _ => (sfuForm_keeps .. : Keeps κ _ (execExp2 w s))
  | .log2 w, _ => (sfuForm_keeps .. : Keeps κ _ (execLog2 w s))
  | .sin w, _ => (sfuForm_keeps .. : Keeps κ _ (execSin w s))
  | .cos w, _ => (sfuForm_keeps .. : Keeps κ _ (execCos w s))
  | .tanh w, _ => (sfuForm_keeps .. : Keeps κ _ (execTanh w s))
  | .fsum _, _ => execFsum_keeps _ _
  | .fmaxr _, _ => execFmaxr_keeps _ _
  | .ld w, _ => (loadForm_keeps .. : Keeps κ _ (execLd w s))
  | .st w, _ => (storeForm_keeps .. : Keeps κ _ (execSt w s))
  | .ldl w, _ => (loadForm_keeps .. : Keeps κ _ (execLdl w s))
  | .stl w, _ => (storeForm_keeps .. : Keeps κ _ (execStl w s))
  | .ldc w, _ => (loadForm_keeps .. : Keeps κ _ (execLdc w s))
  | .stc w, _ => (storeForm_keeps .. : Keeps κ _ (execStc w s))
  | .pref _, _ => execPref_keeps _ _
  | .discard _, _ => execDiscard_keeps _ _
  | .cctlWb w, _ => (cctlForm_keeps .. : Keeps κ _ (execCctlWb w s))
  | .cctlInv w, _ => (cctlForm_keeps .. : Keeps κ _ (execCctlInv w s))
  | .cctlIinv w, _ => (cctlForm_keeps .. : Keeps κ _ (execCctlIinv w s))
  | .cctlInvrs _, _ => execCctlInvrs_keeps _ _
  | .cctlWball _, _ => execCctlWball_keeps _ _
  | .qcfg _, _ => execQcfg_keeps _ _
  | .qcfgFree _, _ => execQcfgFree_keeps _ _
  | .qstatPos w, _ => (qstatForm_keeps .. : Keeps κ _ (execQstatPos w s))
  | .qstatLeft w, _ => (qstatForm_keeps .. : Keeps κ _ (execQstatLeft w s))
  | .qstatStat w, _ => (qstatForm_keeps .. : Keeps κ _ (execQstatStat w s))
  | .wait _, _ => execWait_keeps _ _
  | .atomAdd w, _ => (atomForm_keeps .. : Keeps κ _ (execAtomAdd w s))
  | .atomMin w, _ => (atomForm_keeps .. : Keeps κ _ (execAtomMin w s))
  | .atomMax w, _ => (atomForm_keeps .. : Keeps κ _ (execAtomMax w s))
  | .atomAnd w, _ => (atomForm_keeps .. : Keeps κ _ (execAtomAnd w s))
  | .atomOr w, _ => (atomForm_keeps .. : Keeps κ _ (execAtomOr w s))
  | .atomXor w, _ => (atomForm_keeps .. : Keeps κ _ (execAtomXor w s))
  | .atomExch w, _ => (atomForm_keeps .. : Keeps κ _ (execAtomExch w s))
  | .atomFadd w, _ => (atomForm_keeps .. : Keeps κ _ (execAtomFadd w s))
  | .atomBfadd w, _ => (atomForm_keeps .. : Keeps κ _ (execAtomBfadd w s))
  | .acas _, _ => execAcas_keeps _ _
  | .redAdd w, _ => (atomForm_keeps .. : Keeps κ _ (execRedAdd w s))
  | .redMin w, _ => (atomForm_keeps .. : Keeps κ _ (execRedMin w s))
  | .redMax w, _ => (atomForm_keeps .. : Keeps κ _ (execRedMax w s))
  | .redAnd w, _ => (atomForm_keeps .. : Keeps κ _ (execRedAnd w s))
  | .redOr w, _ => (atomForm_keeps .. : Keeps κ _ (execRedOr w s))
  | .redXor w, _ => (atomForm_keeps .. : Keeps κ _ (execRedXor w s))
  | .redFadd w, _ => (atomForm_keeps .. : Keeps κ _ (execRedFadd w s))
  | .redBfadd w, _ => (atomForm_keeps .. : Keeps κ _ (execRedBfadd w s))
  | .barT w, _ => (barForm_keeps .. : Keeps κ _ (execBarT w s))
  | .barC w, _ => (barForm_keeps .. : Keeps κ _ (execBarC w s))
  | .barD w, _ => (barForm_keeps .. : Keeps κ _ (execBarD w s))
  | .arriveT w, _ => (arrForm_keeps .. : Keeps κ _ (execArriveT w s))
  | .arriveC w, _ => (arrForm_keeps .. : Keeps κ _ (execArriveC w s))
  | .arriveD w, _ => (arrForm_keeps .. : Keeps κ _ (execArriveD w s))
  | .arriveG _, _ => execArriveG_keeps _ _
  | .waitbT w, _ => (waitbForm_keeps .. : Keeps κ _ (execWaitbT w s))
  | .waitbC w, _ => (waitbForm_keeps .. : Keeps κ _ (execWaitbC w s))
  | .waitbD w, _ => (waitbForm_keeps .. : Keeps κ _ (execWaitbD w s))
  | .bowait _, _ => execBowait_keeps _ _
  | .tcopy w, _ => (copyForm_keeps .. : Keeps κ _ (execTcopy w s))
  | .tstore w, _ => (copyForm_keeps .. : Keeps κ _ (execTstore w s))
  | .tgather w, _ => (copyForm_keeps .. : Keeps κ _ (execTgather w s))
  | .tscatter w, _ => (copyForm_keeps .. : Keeps κ _ (execTscatter w s))
  | .tfill w, _ => (copyForm_keeps .. : Keeps κ _ (execTfill w s))
  | .mma _, _ => execMma_keeps _ _
  | .accld w, _ => (accForm_keeps .. : Keeps κ _ (execAccld w s))
  | .accst w, _ => (accForm_keeps .. : Keeps κ _ (execAccst w s))
  | .accz w, _ => (accForm_keeps .. : Keeps κ _ (execAccz w s))
  | .tfetch w, _ => (tfetchForm_keeps .. : Keeps κ _ (execTfetch w s))
  | .tfetchX w, _ => (tfetchForm_keeps .. : Keeps κ _ (execTfetchX w s))
  | .tfetchXe w, _ => (tfetchForm_keeps .. : Keeps κ _ (execTfetchXe w s))
  | .tretire _, _ => execTretire_keeps _ _
  | .route _, _ => execRoute_keeps _ _
  | .exacq _, _ => execExacq_keeps _ _
  | .exrel _, _ => execExrel_keeps _ _
  | .dqstatQ w, _ => (dqForm_keeps .. : Keeps κ _ (execDqstatQ w s))
  | .dqstatErt w, _ => (dqForm_keeps .. : Keeps κ _ (execDqstatErt w s))
  | .dqstatGy w, _ => (dqForm_keeps .. : Keeps κ _ (execDqstatGy w s))
  | .dqstatHand w, _ => (dqForm_keeps .. : Keeps κ _ (execDqstatHand w s))
  | .coll _, _ => execColl_keeps _ _
  | .progv _, _ => execProgv_keeps _ _
  | .collstat _, _ => execCollstat_keeps _ _
  | .collstatW _, _ => execCollstatW_keeps _ _
  | .trapI _, _ => execTrap_keeps _ _
  | .eret _, _ => execEret_keeps _ _
  | .rdsys _, _ => execRdsys_keeps _ _
  | .wrsys _, h => nomatch h
  | .rolesw _, _ => execRolesw_keeps _ _
  | .bkpt _, _ => execBkpt_keeps _ _
  | .tlbinvPage w, _ => (tlbinvForm_keeps .. : Keeps κ _ (execTlbinvPage w s))
  | .tlbinvOwn w, _ => (tlbinvForm_keeps .. : Keeps κ _ (execTlbinvOwn w s))
  | .tlbinvAll w, _ => (tlbinvForm_keeps .. : Keeps κ _ (execTlbinvAll w s))
  | .ctxsave _, _ => execCtxsave_keeps _ _
  | .ctxload _, _ => execCtxload_keeps _ _
  | .halt _, _ => execHalt_keeps _ _
  | .matchL _, _ => execMatch_keeps _ _
  | .cmb _, _ => execCmb_keeps _ _
  | .fwd _, _ => execFwd_keeps _ _
  | .fwdMem _, _ => execFwdMem_keeps _ _
  | .fwdRank _, _ => execFwdRank_keeps _ _
  | .gath _, _ => execGath_keeps _ _
  | .spill _, _ => execSpill_keeps _ _
  | .fillSave _, _ => execFillSave_keeps _ _
  | .fillSrc _, _ => execFillSrc_keeps _ _
  | .fillMem _, _ => execFillMem_keeps _ _
  | .boupd _, _ => execBoupd_keeps _ _
  | .chk _, _ => execChk_keeps _ _
  | .progw _, _ => execProgw_keeps _ _
  | .luanilLoop _, _ => execLuanilLoop_keeps _ _
  | .endl p, _ => execEndl_keeps p _
  | .bnz _, _ => execBnz_keeps _ _
  | .setk _, _ => execSetk_keeps _ _
  | .nextc _, _ => execNextc_keeps _ _
  | .doneL p, _ => execDone_keeps p _
  | .setc _, _ => execSetc_keeps _ _
  | .addc _, _ => execAddc_keeps _ _
  | .jmp _, _ => execJmp_keeps _ _
  | .luanilNop p, _ => execLuanilNop_keeps p _
  | .nopPacket p, _ => execNopPacket_keeps p _
  | .launch _, _ => execLaunch_keeps _ _
  | .write32 _, _ => execWrite32_keeps _ _
  | .write64 _, _ => execWrite64_keeps _ _
  | .waitMem _, _ => execWaitMem_keeps _ _
  | .atomicMemAdd w, _ => (atomicPacket_keeps .. : Keeps κ _ (execAtomicMemAdd w s))
  | .atomicMemAnd w, _ => (atomicPacket_keeps .. : Keeps κ _ (execAtomicMemAnd w s))
  | .atomicMemOr w, _ => (atomicPacket_keeps .. : Keeps κ _ (execAtomicMemOr w s))
  | .atomicMemExch w, _ => (atomicPacket_keeps .. : Keeps κ _ (execAtomicMemExch w s))
  | .atomicMemCas w, _ => (atomicPacket_keeps .. : Keeps κ _ (execAtomicMemCas w s))
  | .indirect _, _ => execIndirect_keeps _ _
  | .condBegin _, _ => execCondBegin_keeps _ _
  | .condEnd p, _ => execCondEnd_keeps p _
  | .loopBegin _, _ => execLoopBegin_keeps _ _
  | .loopEnd p, _ => execLoopEnd_keeps p _
  | .fetchFence p, _ => execFetchFence_keeps p _
  | .collective _, _ => execCollective_keeps _ _
  | .boSignal _, _ => execBoSignal_keeps _ _
  | .timestamp _, _ => execTimestamp_keeps _ _
  | .discardRange _, _ => execDiscardRange_keeps _ _
  | .ertPreload _, _ => execErtPreload_keeps _ _
  | .setShare _, h => nomatch h
  | .resync _, _ => execResync_keeps _ _
  | .sleepExpiry _, _ => execSleepExpiry_keeps _ _
  | .rendezvous _ _ _, _ => execRendezvous_keeps _ _ _ _
  | .streamFetch _ _, _ => execStreamFetch_keeps _ _ _
  | .streamPushPerform _ _, _ => execStreamPushPerform_keeps _ _ _
  | .loadDataArrival _ _, _ => execLoadDataArrival_keeps _ _ _
  | .accessDone _ _, _ => execAccessDone_keeps _ _ _
  | .systemMemoryTimeout _ _, _ => execSystemMemoryTimeout_keeps _ _ _
  | .trs _, _ => execTrs_keeps _ _
  | .trx _, _ => execTrx_keeps _ _
  | .tok _, _ => execTok_keeps _ _
  | .wbk _, _ => execWbk_keeps _ _
  | .preq _, _ => execPreq_keeps _ _
  | .pact _, _ => execPact_keeps _ _
  | .pdone _, _ => execPdone_keeps _ _
  | .pdeact _, _ => execPdeact_keeps _ _
  | .transientAttemptTimeout _ _, _ => execTransientAttemptTimeout_keeps _ _ _
  | .l2Eviction _ _, _ => execL2Eviction_keeps _ _ _
  | .bowaitReread _, _ => execBowaitReread_keeps _ _
  | .barrierRelease _, _ => execBarrierRelease_keeps _ _
  | .copyAccept _ _, _ => execCopyAccept_keeps _ _ _
  | .copyDone _ _, _ => execCopyDone_keeps _ _ _
  | .mmaGrant _ _, _ => execMmaGrant_keeps _ _ _
  | .mmaPassStart _ _, _ => execMmaPassStart_keeps _ _ _
  | .mmaBasinWrite _ _, _ => execMmaBasinWrite_keeps _ _ _
  | .basinTileAccess _ _, _ => execBasinTileAccess_keeps _ _ _
  | .geyserRefillRequest _ _, _ => execGeyserRefillRequest_keeps _ _ _
  | .refillGrant _ _, _ => execRefillGrant_keeps _ _ _
  | .pageInComplete _ _, _ => execPageInComplete_keeps _ _ _
  | .pageInError _ _, _ => execPageInError_keeps _ _ _
  | .instanceCheck _ _, _ => execInstanceCheck_keeps _ _ _
  | .instanceRestart _ _, _ => execInstanceRestart_keeps _ _ _
  | .arrivalHeld _, _ => execArrivalHeld_keeps _ _
  | .ueMessageReceive _, _ => execUeMessageReceive_keeps _ _
  | .memberTimeout _, _ => execMemberTimeout_keeps _ _
  | .armWindow _ _, _ => execArmWindow_keeps _ _ _
  | .disarmWindow _, _ => execDisarmWindow_keeps _ _
  | .programLoad _ _ _, h => nomatch h
  | .contextAged _ _, _ => execContextAged_keeps _ _ _
  | .roleswRowsGranted _, _ => execRoleswRowsGranted_keeps _ _
  | .ftqRecordWrite _, _ => execFtqRecordWrite_keeps _ _
  | .sactResume _ _ _, _ => execSactResume_keeps _ _ _ _
  | .sactSkip _ _ _, _ => execSactSkip_keeps _ _ _ _
  | .sactDeliver _ _ _, _ => execSactDeliver_keeps _ _ _ _
  | .sactEnd _ _ _, _ => execSactEnd_keeps _ _ _ _
  | .sactAbort _ _ _, _ => execSactAbort_keeps _ _ _ _
  | .frsvResolve _ _ _, _ => execFrsvResolve_keeps _ _ _ _
  | .frsvFail _ _ _, _ => execFrsvFail_keeps _ _ _ _
  | .pageWalkComplete _ _ _, _ => execPageWalkComplete_keeps _ _ _ _
  | .spindleUnpark _, _ => execSpindleUnpark_keeps _ _
  | .watchdog _, _ => execWatchdog_keeps _ _
  | .fragmentAtJoin _, _ => execFragmentAtJoin_keeps _ _
  | .fragmentAged _, _ => execFragmentAged_keeps _ _
  | .splitEntryRestore _ _ _, _ => execSplitEntryRestore_keeps _ _ _ _
  | .splitExchange _ _ _, _ => execSplitExchange_keeps _ _ _ _
  | .spindleRetire _, _ => execSpindleRetire_keeps _ _
  | .debugHalt _, _ => execDebugHalt_keeps _ _
  | .debugResume _, _ => execDebugResume_keeps _ _
  | .debugStep _ _, _ => execDebugStep_keeps _ _ _
  | .debugStateAccess _ _, _ => execDebugStateAccess_keeps _ _ _
  | .armQueue _, _ => execArmQueue_keeps _ _
  | .disarmQueue _, _ => execDisarmQueue_keeps _ _
  | .wpUpdate _, _ => execWpUpdate_keeps _ _
  | .queueAged _, _ => execQueueAged_keeps _ _
  | .reqYield _, _ => execReqYield_keeps _ _
  | .reqAbort _, _ => execReqAbort_keeps _ _
  | .reqResume _, _ => execReqResume_keeps _ _
  | .preemption _ _, _ => execPreemption_keeps _ _ _
  | .gridYielded _, _ => execGridYielded_keeps _ _
  | .gridResume _, _ => execGridResume_keeps _ _
  | .gridAbort _, _ => execGridAbort_keeps _ _
  | .abortDiscard _, h => nomatch h
  | .teamStart _ _, h => nomatch h
  | .teamRetire _, h => nomatch h
  | .gridComplete _, _ => execGridComplete_keeps _ _
  | .sliceEnd _, h => nomatch h
  | .swapSave _ _, h => nomatch h
  | .clusterSwapParked _ _, _ => execClusterSwapParked_keeps _ _ _
  | .graceExpiry _ _, _ => execGraceExpiry_keeps _ _ _
  | .shareWindowEnd, h => nomatch h
  | .lucmdLoad, h => nomatch h
  | .microcodeSwitch, h => nomatch h
  | .registerWrite _ _, h => nomatch h
  | .packageReset, h => nomatch h
  | .dieLost _, h => nomatch h
  | .telemetryRefresh, h => nomatch h
  | .attestationRequest, _ => execAttestationRequest_keeps _
  | .hostBar2Access _ _ _, _ => execHostBar2Access_keeps _ _ _ _
  | .instructionFetch _ _, _ => execInstructionFetch_keeps _ _ _
  | .waitMemReread _, _ => execWaitMemReread_keeps _ _
  | .fwdWritePerformed _ _, _ => execFwdWritePerformed_keeps _ _ _
  | .debugAttach _ _, _ => execDebugAttach_keeps _ _ _
  | .dynamicCapacityRelease _ _, _ => execDynamicCapacityRelease_keeps _ _ _

/-- No instruction but PACKAGE_RESET moves the cycle counter (R5). -/
theorem exec_keeps_cycle {i : Instr} (hi : i ≠ .packageReset) (s : State) : Keeps Guarded.cycle s.guarded (exec i s) := by
  cases hw : writesGuarded i with
  | false => exact exec_keeps hw s
  | true =>
    unfold writesGuarded at hw
    split at hw
    · exact execWrsys_keeps _ _
    · exact execSetShare_keeps _ _
    · exact execProgramLoad_keeps _ _ _ _
    · exact execAbortDiscard_keeps _ _
    · exact execTeamStart_keeps _ _ _
    · exact execTeamRetire_keeps _ _
    · exact execSliceEnd_keeps _ _
    · exact execSwapSave_keeps _ _ _
    · exact execShareWindowEnd_keeps _
    · exact execLucmdLoad_keeps _
    · exact execMicrocodeSwitch_keeps _
    · exact execRegisterWrite_keeps _ _ _
    · exact absurd rfl hi
    · exact execDieLost_keeps _ _
    · exact execTelemetryRefresh_keeps _
    · cases hw

end

/-! ## Turns -/

theorem jCons_major {maj : Nat} {w : JWord} {i : Instr} (h : jCons maj w = some i) : (jMajOf i).isSome := by
  have hall : (jCons maj w).all fun i => (jMajOf i).isSome := by fun_cases jCons maj w <;> rfl
  simpa only [h, Option.all_some] using hall

theorem decodeJolisol_major {x : IWord} {i : Instr} (h : decodeJolisol x = .ok i) : (jMajOf i).isSome := by
  unfold decodeJolisol at h
  split at h
  · cases h
  · next hc =>
    split at h
    · cases h
    · cases h
      exact jCons_major hc

theorem lCons_op {op : Nat} {w : LWord} {i : Instr} (h : lCons op w = some i) : (lOpOf i).isSome := by
  have hall : (lCons op w).all fun i => (lOpOf i).isSome := by fun_cases lCons op w <;> rfl
  simpa only [h, Option.all_some] using hall

theorem decodeLuanil_op {x : BitVec 64} {i : Instr} (h : decodeLuanil x = .ok i) : (lOpOf i).isSome := by
  unfold decodeLuanil at h
  split at h
  · cases h
  · next hc =>
    split at h
    · cases h
    · cases h
      exact lCons_op hc

theorem pCons_type {ty : Nat} {p : Packet} {i : Instr} (h : pCons ty p = some i) : (pTypeOf i).isSome := by
  have hall : (pCons ty p).all fun i => (pTypeOf i).isSome := by fun_cases pCons ty p <;> rfl
  simpa only [h, Option.all_some] using hall

theorem decodePacket_type {ws : List Word} {i : Instr} (h : decodePacket ws = .ok i) : (pTypeOf i).isSome := by
  unfold decodePacket at h
  split at h
  · cases h
  · split at h
    · cases h
    · next hc =>
      split at h
      · cases h
      · split at h
        · cases h
        · cases h
          exact pCons_type hc

/-- Of the instructions of a Jolisol word only WRSYS may write the guarded part. -/
theorem writesGuarded_major {i : Instr} (h : (jMajOf i).isSome) : writesGuarded i = false ∨ ∃ w, i = .wrsys w := by
  unfold writesGuarded
  split
  · exact .inr ⟨_, rfl⟩
  iterate 14 exact absurd h Bool.false_ne_true
  · exact .inl rfl

/-- What a turn runs is an event that it names, or a decoded word or packet, at a state with the guarded part as it was. -/
theorem prepare_run {t : Turn} {s u : State} {i : Instr} (h : prepare t s = .run i u) :
    u.guarded = s.guarded ∧ (t = .event i ∨ i ≠ .packageReset) := by
  cases t with
  | issue rs =>
    cases hp : pickFrag s rs with
    | none => simp [prepare, hp] at h
    | some r =>
      simp only [prepare, hp, Option.elim_some] at h
      obtain ⟨word, hd, rfl⟩ := prepIssue_run h
      exact ⟨by simp, .inr (by rintro rfl; exact Bool.false_ne_true (decodeJolisol_major hd))⟩
  | luanil n cs =>
    cases hp : pickCtx s n cs with
    | none => simp [prepare, hp] at h
    | some c =>
      simp only [prepare, hp, Option.elim_some] at h
      obtain ⟨x, hd, rfl⟩ := prepLuanil_run h
      exact ⟨by simp, .inr (by rintro rfl; exact Bool.false_ne_true (decodeLuanil_op hd))⟩
  | packet =>
    cases hp : pickQueue s with
    | none => simp [prepare, hp] at h
    | some q =>
      simp only [prepare, hp, Option.elim_some] at h
      obtain ⟨⟨ws, hd⟩, hs⟩ := prepPacket_run h
      exact ⟨hs, .inr (by rintro rfl; exact Bool.false_ne_true (decodePacket_type hd))⟩
  | event j =>
    simp only [prepare] at h
    split at h
    · cases h
      exact ⟨by simp, .inl rfl⟩
    · cases h
  | _ => cases h

/-- A turn that runs no instruction and lets no time pass leaves the cycle counter. -/
theorem prepare_done {t : Turn} {s u : State} (ht : ∀ n, t ≠ .tick n) (h : prepare t s = .done u) : u.guarded.cycle = s.guarded.cycle := by
  cases t with
  | issue rs =>
    cases hp : pickFrag s rs with
    | none => simp_all [prepare]
    | some r =>
      simp only [prepare, hp, Option.elim_some] at h
      rw [prepIssue_done h]
  | luanil n cs =>
    cases hp : pickCtx s n cs with
    | none => simp_all [prepare]
    | some c =>
      simp only [prepare, hp, Option.elim_some] at h
      rw [prepLuanil_done h]
  | packet =>
    cases hp : pickQueue s with
    | none => simp_all [prepare]
    | some q =>
      simp only [prepare, hp, Option.elim_some] at h
      rw [prepPacket_done h]
  | event j =>
    simp only [prepare] at h
    split at h
    · cases h
    · cases h
      rfl
  | tick n => exact absurd rfl (ht n)
  | _ =>
    cases h
    simp

theorem takeTurn_guarded (s : State) : (takeTurn s).guarded = s.guarded := by simp [takeTurn]

/-- The cycle counter moves with time and at a package reset alone (R5). -/
theorem step_cycle {s u : State} (h : step s = .next u) (ht : ∀ n, nextTurn s ≠ .tick n) (hr : nextTurn s ≠ .event .packageReset) :
    u.cycle = s.cycle := by
  have hs := congrArg Guarded.cycle (takeTurn_guarded s)
  unfold step at h
  split at h
  · next i v hp =>
    obtain ⟨hv, hi⟩ := prepare_run hp
    have hi : i ≠ .packageReset := hi.elim (fun he hi => hr (hi ▸ he)) id
    exact ((exec_keeps_cycle hi v).of_next u h).trans ((congrArg Guarded.cycle hv).trans hs)
  · next hp =>
    cases h
    exact (prepare_done ht hp).trans hs

/-- The instruction of a user team's fragment leaves the guarded part (R385, R408). -/
theorem user_step_guarded {s u : State} {rs : List FragRef} {r : FragRef} {t : Team} (h : step s = .next u) (hn : nextTurn s = .issue rs)
    (hp : pickFrag (takeTurn s) rs = some r) (ht : findTeam s r.sp.team = some t) (hfw : t.fw = false) : u.guarded = s.guarded := by
  rw [← takeTurn_guarded s]
  simp only [step, hn, prepare, hp, Option.elim_some] at h
  split at h
  · next i v hv =>
    obtain ⟨word, hd, rfl⟩ := prepIssue_run hv
    rw [← guarded_with (takeTurn s)]
    rcases writesGuarded_major (decodeJolisol_major hd) with hi | ⟨w, rfl⟩
    · exact (exec_keeps (κ := id) hi _).of_next u h
    · refine (execWrsys_user_keeps w _ fun x hx => ?_).of_next u h
      obtain ⟨hr, -⟩ := Cur.frag.inj hx.cur
      have hteam : some x.t = some t := hx.team.symm.trans (hr ▸ ht)
      exact Option.some.inj hteam ▸ hfw
  · next hv =>
    cases h
    exact prepIssue_done hv

theorem findDie_regs (s : State) (k : Nat) : (findDie s k).map Die.regs = s.guarded.dies.find? fun d => d.id == k := by
  simp only [findDie, State.guarded, List.find?_map]
  rfl

/-- States with one guarded part have the same registers in each die. -/
theorem findDie_of_guarded {s u : State} (h : u.guarded = s.guarded) {k : Nat} {d : Die} (hd : findDie s k = some d) :
    ∃ c, findDie u k = some c ∧ c.regs = d.regs := by
  have hm : (findDie u k).map Die.regs = some d.regs := by rw [findDie_regs, h, ← findDie_regs, hd, Option.map_some]
  exact Option.map_eq_some_iff.mp hm

end Sys2Proof.Machine

open Sys2Proof Sys2Proof.Machine

/-- Settles O9: no turn but time and no instruction but PACKAGE_RESET writes the cycle counter, and of a user team's instructions
only WRSYS names a guarded register, which its level refuses. -/
theorem wholeMachineRules : Obligations.WholeMachineRules := by
  unfold Obligations.WholeMachineRules
  refine ⟨fun s t h ht hr => step_cycle h ht hr, fun s u rs r t h hn hp ht hfw => ?_⟩
  have hg := user_step_guarded h hn hp ht hfw
  have hgrps : u.grps.map Grp.uncounted = s.grps.map Grp.uncounted := congrArg Guarded.grps hg
  refine ⟨congrArg Guarded.keys hg, congrArg Guarded.store hg, congrArg Guarded.lathe hg, congrArg Guarded.ready hg,
    congrArg Guarded.saveBase hg, hgrps, fun k d hd => ?_⟩
  obtain ⟨c, hc, hregs⟩ := findDie_of_guarded hg hd
  exact ⟨c, hc, congrArg DieRegs.system hregs, congrArg DieRegs.expert hregs⟩
end

section
/-! Lemmas for register writes and the host's other acts (R7, R314, R332, R356, R361, R398, R415, R447 to R449, R475, R477, R484): what
each register's write changes, what a device reads and writes in memory under an owner's key, and the report of R484. -/

namespace Sys2Proof.Machine

open Sys2Proof

/-! ## Registers of a die -/

/-- A write of a die's register touches that die alone. -/
theorem updDie_only {s : State} {die : Nat} {f : Die → Die} (hf : ∀ x, (f x).id = x.id) {d : Die} (hd : findDie s die = some d) :
    { updDie s die f with dies := s.dies } = s ∧ findDie (updDie s die f) die = some (f d) ∧
      ∀ k, k ≠ die → findDie (updDie s die f) k = findDie s k := by
  refine ⟨rfl, ?_, fun k hk => ?_⟩
  · rw [findDie_updDie s die die f hf, if_pos rfl, hd, Option.map_some]
  · rw [findDie_updDie s die k f hf, if_neg hk]

/-- A write of an expert register takes effect while no ERT entry is in use (R314). -/
theorem writeEx_spec {s : State} {die : Nat} {f : Die → Die} (hf : ∀ x, (f x).id = x.id) {d : Die} (hd : findDie s die = some d) :
    { writeEx s die f with dies := s.dies } = s ∧ (∀ k, k ≠ die → findDie (writeEx s die f) k = findDie s k) ∧
      ((∀ x ∈ d.ert, x.state = 0) → findDie (writeEx s die f) die = some (f d)) ∧
      ((∃ x ∈ d.ert, x.state ≠ 0) → findDie (writeEx s die f) die = some d) := by
  obtain ⟨hs, hdie, hother⟩ := updDie_only (s := s) (die := die) (f := fun d => if d.ert.any fun x => x.state != 0 then d else f d)
    (fun x => by split <;> simp [hf]) hd
  refine ⟨hs, hother, fun h => hdie.trans (congrArg some (if_neg ?_)), fun h => hdie.trans (congrArg some (if_pos ?_))⟩
  · simpa using h
  · simpa using h

/-- The registers of a die by number, but SACT and FRSV, which act (Table 14-7). -/
def setDieReg (n : Nat) (v : BitVec 64) (d : Die) : Die :=
  if n = 0x100 then { d with ftqb := v } else if n = 0x101 then { d with ftqn := v.setWidth 32 }
  else if n = 0x102 then { d with wdog := v.setWidth 32 } else if n = 0x105 then { d with trtb := v }
  else if n = 0x107 then { d with ecccnt := v } else d

theorem setDieReg_id (n : Nat) (v : BitVec 64) (d : Die) : (setDieReg n v d).id = d.id := by
  unfold setDieReg
  (repeat' split) <;> rfl

theorem writeDieReg_setDieReg {n : Nat} (h3 : n ≠ 0x103) (h4 : n ≠ 0x104) (s : State) (die : Nat) (v : BitVec 64) :
    writeDieReg s die n v = updDie s die (setDieReg n v) := by
  unfold writeDieReg
  rw [if_neg h3, if_neg h4]
  rfl

/-- The host's write of such a register (R408). -/
theorem registerWrite_dieReg {s : State} {die n : Nat} (h3 : n ≠ 0x103) (h4 : n ≠ 0x104) {v : BitVec 512} {d e : Die}
    (hd : findDie s die = some d) (he : setDieReg n (v.setWidth 64) d = e) :
    ∃ u, exec (.registerWrite (.dieReg die n) v) s = .next u ∧ { u with dies := s.dies } = s ∧ findDie u die = some e ∧
      ∀ k, k ≠ die → findDie u k = findDie s k :=
  ⟨_, congrArg Host.Outcome.next (writeDieReg_setDieReg h3 h4 s die _), he ▸ updDie_only (setDieReg_id n _) hd⟩

/-! ## Windows and groups -/

/-- Writing one record over those that a test selects: a search for it finds it where one was selected. -/
theorem find_updWhere_const {α : Type} {p q : α → Bool} {y : α} (hy : q y = true) (hq : ∀ x, p x = false → q x = false) {l : List α}
    (h : l.any p = true) : (updWhere p (fun _ => y) l).find? q = some y := by
  induction l with
  | nil => cases h
  | cons x l ih =>
    simp only [updWhere, List.map_cons, List.find?_cons] at ih ⊢
    cases hx : p x with
    | true => simp [hy]
    | false =>
      simp only [List.any_cons, hx, Bool.false_or] at h
      simp [hq x hx, ih h]

theorem find_updWhere_other {α : Type} {p q : α → Bool} {y : α} (hy : q y = false) (hq : ∀ x, p x = true → q x = false) (l : List α) :
    (updWhere p (fun _ => y) l).find? q = l.find? q := by
  induction l with
  | nil => rfl
  | cons x l ih =>
    simp only [updWhere, List.map_cons, List.find?_cons] at ih ⊢
    cases hx : p x with
    | true => simp [hy, hq x hx, ih]
    | false => simp [ih]

theorem findWin_putWin (s : State) (y : Win) : findWin (putWin s y) y.w = some y := by
  unfold putWin findWin
  dsimp only
  split
  · next h => exact find_updWhere_const (q := fun x : Win => x.w == y.w) (beq_self_eq_true _) (fun _ hx => hx) h
  · next h =>
    have hnone : s.wins.find? (fun x => x.w == y.w) = none := by simpa using h
    simp [List.find?_append, hnone]

theorem findWin_putWin_ne (s : State) (y : Win) {k : Nat} (hk : k ≠ y.w) : findWin (putWin s y) k = findWin s k := by
  unfold putWin findWin
  dsimp only
  split
  · exact find_updWhere_other (q := fun x : Win => x.w == k) (beq_false_of_ne hk.symm)
      (fun x hx => beq_false_of_ne fun h => hk (h.symm.trans (eq_of_beq hx))) _
  · simp [List.find?_append, beq_false_of_ne hk.symm]

@[simp] theorem getWin_w (s : State) (w : Nat) : (getWin s w).w = w := by
  unfold getWin
  cases h : findWin s w with
  | none => rfl
  | some y => simpa using List.find?_some h

/-- A write of a window's fields touches that window alone. -/
theorem putWin_only {s : State} {w : Nat} {y : Win} (hw : y.w = w) :
    { putWin s y with wins := s.wins } = s ∧ findWin (putWin s y) w = some y ∧ ∀ k, k ≠ w → findWin (putWin s y) k = findWin s k := by
  subst hw
  exact ⟨rfl, findWin_putWin s y, fun k hk => findWin_putWin_ne s y hk⟩

/-- A write of a group entry while the group has an unfinished collective is ignored (R361). -/
theorem writeGrp_ignored {s : State} {g : Nat} (v : BitVec 512) (h : ∃ i ∈ s.insts, i.group = g ∧ (i.state = 1 ∨ i.state = 2)) :
    writeGrp s g v = s := by
  unfold writeGrp
  rw [if_pos (.inr (by simpa using h))]

/-- A valid entry written while the group has no unfinished collective is the group's entry (Table 13-4). -/
theorem writeGrp_valid {s : State} {g : Nat} {v : BitVec 512} (hg : g < 4096) (h : ∀ i ∈ s.insts, i.group = g → i.state ≠ 1 ∧ i.state ≠ 2)
    (hv : v.getLsbD 0 = true) :
    { writeGrp s g v with grps := s.grps } = s ∧ ∃ n, findGrp (writeGrp s g v) g = some
      { g := g, peers := v.extractLsb' 192 64, rankl := v.extractLsb' 128 64, timeout := bitsOf v 108 20, keyb := bitsOf v 96 12, q := bitsOf v 84 12,
        mloc := bitsOf v 74 10, p := bitsOf v 61 13, m := bitsOf v 44 17, tenant := bitsOf v 32 12, rbase := bitsOf v 16 16,
        valid := v.getLsbD 0, nextK := n } := by
  have hfree : ¬(4096 ≤ g ∨ s.insts.any (fun i => i.group == g && (i.state == 1 || i.state == 2)) = true) := by
    simpa [not_or, hg] using h
  unfold writeGrp
  rw [if_neg hfree]
  dsimp only
  refine ⟨rfl, ((s.grps.find? fun y => y.g == g).map (·.nextK)).getD [], ?_⟩
  unfold findGrp
  dsimp only
  split
  · next ho => exact find_updWhere_const (by simp [hv]) (fun x hx => by simp [hx]) (by simpa using ho)
  · next ho =>
    have hnone : s.grps.find? (fun x => x.g == g && x.valid) = none := by
      simp only [Bool.not_eq_true, Option.isSome_eq_false_iff, Option.isNone_iff_eq_none, List.find?_eq_none] at ho
      simp only [List.find?_eq_none, Bool.and_eq_true, not_and]
      exact fun x hx hxg => absurd hxg (by simp [ho x hx])
    simp [List.find?_append, hnone, hv]

/-! ## SAVE_BASE and the Lathe -/

theorem writeLathe_luca (s : State) (v : BitVec 64) :
    writeLathe s 0x10 v = if v.toNat % 4096 = 0 ∧ v.toNat < 2 ^ 56 then { s with lathe := { s.lathe with luca := v } } else s := rfl

theorem writeLathe_lqtb (s : State) (v : BitVec 64) :
    writeLathe s 0 v = if v.toNat % 4096 = 0 ∧ paKind v.toNat = 0 ∧ (paFault s v.toNat).isNone ∧ v.toNat < 2 ^ 52 then
      { s with lathe := { s.lathe with lqtb := v } } else s := rfl

theorem writeLathe_lslice (s : State) (v : BitVec 64) :
    writeLathe s 8 v = if 100 ≤ bitsOf v 0 32 ∧ bitsOf v 0 32 ≤ 100000 then
      { s with lathe := { s.lathe with lslice := BitVec.ofNat 32 (bitsOf v 0 32) } } else s := rfl

theorem bitsOf_setWidth_64 (v : BitVec 512) : bitsOf (v.setWidth 64) 0 32 = bitsOf v 0 32 := by
  simp only [bitsOf, BitVec.extractLsb'_toNat, BitVec.toNat_setWidth, Nat.shiftRight_zero]
  omega

theorem ofNat_bitsOf_low (v : BitVec 512) : BitVec.ofNat 32 (bitsOf v 0 32) = v.setWidth 32 := by
  apply BitVec.eq_of_toNat_eq
  simp [bitsOf]

/-! ## Key slots -/

/-- What a key slot's write leaves of the owners' keys (R398). -/
theorem writeKey_keys {s : State} {owner : Nat} {k : BitVec 512} (ho : owner < 4096) (hk : keyOf s owner ≠ some k) :
    (∀ j, (owner, j) ∈ (writeKey s owner k).keys ↔ j = k) ∧
      ∀ o j, o ≠ owner → ((o, j) ∈ (writeKey s owner k).keys ↔ (o, j) ∈ s.keys) := by
  unfold writeKey
  rw [if_neg (by simp [hk, ho])]
  exact ⟨fun j => by simp, fun o j hne => by simp [hne]⟩

theorem writeKey_mem (s : State) (owner : Nat) (k : BitVec 512) : (writeKey s owner k).mem = s.mem := by
  unfold writeKey
  split <;> rfl

/-- Lines written under the old key are nobody's, those written under the new one are the owner's again (R398; log 79). -/
theorem ownerAt_writeKey {s : State} {owner : Nat} {k : BitVec 512} (ho : owner < 4096) (hk : keyOf s owner ≠ some k) (a : Nat) :
    ownerAt (writeKey s owner k) a = (ownerAt s a).map fun o =>
      if o = owner then 4096 + s.nextId
      else if (s.oldKeys.find? fun e => e.1 == owner && e.2.1 == k).map (·.2.2) = some o then owner else o := by
  unfold writeKey
  rw [if_neg (by simp [hk, ho])]
  simp only [ownerAt, List.find?_map, Option.map_map]
  rfl

/-- A key that the slot never held before makes no line the owner's. -/
theorem ownerAt_writeKey_new {s : State} {owner : Nat} {k : BitVec 512} (ho : owner < 4096) (hk : keyOf s owner ≠ some k)
    (hnew : ∀ e ∈ s.oldKeys, (e.1, e.2.1) ≠ (owner, k)) (a : Nat) :
    ownerAt (writeKey s owner k) a ≠ some owner ∧ ∀ o, o ≠ owner → ownerAt s a = some o → ownerAt (writeKey s owner k) a = some o := by
  have hback : s.oldKeys.find? (fun e => e.1 == owner && e.2.1 == k) = none :=
    List.find?_eq_none.mpr fun e he h => hnew e he (by simpa [Prod.ext_iff] using h)
  rw [ownerAt_writeKey ho hk, hback]
  refine ⟨fun h => ?_, fun o hne h => by simp [h, hne]⟩
  obtain ⟨o, -, hn⟩ := Option.map_eq_some_iff.mp h
  split at hn
  · omega
  · simp_all

/-- With the slot's key written again its lines are the owner's as before. -/
theorem ownerAt_writeKey_back {s : State} {owner : Nat} {j k : BitVec 512} (ho : owner < 4096) (hk : keyOf s owner ≠ some k)
    (hj : keyOf s owner = some j) {a : Nat} (ha : ownerAt s a = some owner) :
    ownerAt (writeKey (writeKey s owner k) owner j) a = some owner := by
  have hkj : k ≠ j := fun h => hk (h ▸ hj)
  have hnow : keyOf (writeKey s owner k) owner = some k := by
    unfold writeKey
    rw [if_neg (by simp [hk, ho])]
    simp [keyOf]
  have hback : ((writeKey s owner k).oldKeys.find? fun e => e.1 == owner && e.2.1 == j).map (·.2.2) = some (4096 + s.nextId) := by
    unfold writeKey
    rw [if_neg (by simp [hk, ho])]
    simp [hj]
  rw [ownerAt_writeKey ho (by simpa [hnow] using hkj), ownerAt_writeKey ho hk, ha, hback]
  simp only [Option.map_some, if_pos]
  rw [if_neg (by omega)]

/-! ## BAR2's granules, CXL capacity and flash -/

theorem writeBar2_spec {s : State} {fn granule : Nat} {v : BitVec 512} (hf : fn < 2) (hg : granule < 131072) (x : Nat × Nat) (a : Nat) :
    (x, a) ∈ (writeBar2 s fn granule (v.setWidth 64)).bar2 ↔
      if x = (fn, granule) then v.getLsbD 0 = true ∧ a = (v.extractLsb' 19 45).toNat * 2 ^ 19 else (x, a) ∈ s.bar2 := by
  have hv : (v.setWidth 64).toNat / 2 ^ 19 * 2 ^ 19 = (v.extractLsb' 19 45).toNat * 2 ^ 19 := by
    simp only [BitVec.toNat_setWidth, BitVec.extractLsb'_toNat, Nat.shiftRight_eq_div_pow]
    omega
  unfold writeBar2
  rw [if_neg (by omega), hv]
  have h64 : (v.setWidth 64).getLsbD 0 = v.getLsbD 0 := by simp
  rw [h64]
  cases v.getLsbD 0 <;> by_cases hx : x = (fn, granule) <;> simp [hx]

/-- An address that an unmapped range leaves with poison (R477; log 108). -/
theorem unmapCapacity_poison (s : State) (addr len a : Nat) :
    (∃ e ∈ (unmapCapacity s addr len).poison, e.1 ≤ a ∧ a < e.1 + e.2) ↔
      (∃ e ∈ s.poison, e.1 ≤ a ∧ a < e.1 + e.2) ∧ (a < addr ∨ addr + len ≤ a) := by
  simp only [unmapCapacity, List.mem_flatMap, List.mem_filter, List.mem_cons, List.not_mem_nil, or_false]
  constructor
  · rintro ⟨r, ⟨e, he, hr, -⟩, h⟩
    refine ⟨⟨e, he, ?_⟩, ?_⟩ <;> rcases hr with rfl | rfl <;> simp only at h <;> omega
  · rintro ⟨⟨e, he, h⟩, hlo | hhi⟩
    · exact ⟨_, ⟨e, he, .inl rfl, by simp only [bne_iff_ne]; omega⟩, by simp only; omega⟩
    · exact ⟨_, ⟨e, he, .inr rfl, by simp only [bne_iff_ne]; omega⟩, by simp only; omega⟩

theorem writeFlash_spec (s : State) (iod nsid off : Nat) (y : Byte) (a b c : Nat) (x : Byte) :
    (a, b, c, x) ∈ (writeFlash s iod nsid off y).flash ↔
      if (a, b, c) = (iod, nsid, off) then x = y ∧ x ≠ 0 else (a, b, c, x) ∈ s.flash := by
  unfold writeFlash
  have hrest : (a, b, c, x) ∈ s.flash.filter (fun e => !(e.1 == iod && e.2.1 == nsid && e.2.2.1 == off)) ↔
      (a, b, c) ≠ (iod, nsid, off) ∧ (a, b, c, x) ∈ s.flash := by
    simp only [List.mem_filter, Bool.not_eq_true', Bool.and_eq_false_imp, Bool.and_eq_true, beq_iff_eq, beq_eq_false_iff_ne, ne_eq, Prod.mk.injEq]
    tauto
  dsimp only
  by_cases hy : y = 0
  · rw [if_pos hy, hrest]
    by_cases he : (a, b, c) = (iod, nsid, off)
    · simp [he, hy]
    · simp [he]
  · rw [if_neg hy, List.mem_cons, hrest]
    by_cases he : (a, b, c) = (iod, nsid, off)
    · obtain ⟨rfl, rfl, rfl⟩ : a = iod ∧ b = nsid ∧ c = off := by simpa using he
      simp only [Prod.mk.injEq, true_and, ne_eq, not_true, false_and, or_false, if_true]
      exact ⟨fun h => ⟨h, h ▸ hy⟩, fun h => h.1⟩
    · have hne : (a, b, c, x) ≠ (iod, nsid, off, y) := fun h => he (by simp_all)
      simp [he, hne]

/-! ## The mailboxes -/

theorem writeMailbox_req {s : State} {v : BitVec 64} (hv : v.getLsbD 0 = true) (hup : hostUp s = true) (hreq : reqSet s = false) :
    writeMailbox s 0x8020 v = { s with mailbox := mset s.mailbox 0x8020 1, attest := mgetList s.mailbox 0x8000 32 } := by
  unfold writeMailbox takeRequest
  rw [if_pos rfl, if_pos ⟨hv, hup⟩, hreq]
  rfl

theorem writeMailbox_req_ignored {s : State} {v : BitVec 64} (h : v.getLsbD 0 = false ∨ hostUp s = false ∨ reqSet s = true) :
    writeMailbox s 0x8020 v = s := by
  unfold writeMailbox takeRequest
  rw [if_pos rfl]
  split
  · next hv =>
    rw [if_pos]
    simpa only [hv.1, hv.2, Bool.true_eq_false, false_or] using h
  · rfl

theorem writeMailbox_bytes {s : State} {off : Nat} (h : (0x8000 ≤ off ∧ off + 8 ≤ 0x8020) ∨ (0x100000 ≤ off ∧ off + 8 ≤ 0x200000))
    (v : BitVec 64) : writeMailbox s off v = { s with mailbox := msetList s.mailbox off (toBytes v 8) } := by
  unfold writeMailbox
  rw [if_neg (by omega), if_pos (by simpa using h)]

theorem getD_toBytes {w : Nat} (v : BitVec w) {n i : Nat} (h : i < n) (d : Byte) : (toBytes v n).getD i d = byteAt v i := by
  simp [toBytes, h]

theorem mget_msetList_toBytes {w : Nat} (m : SMap 8) (x n z : Nat) (v : BitVec w) :
    mget (msetList m x (toBytes v n)) z = if x ≤ z ∧ z < x + n then byteAt v (z - x) else mget m z := by
  have hlen : (toBytes v n).length = n := by simp [toBytes]
  rw [mget_msetList, hlen]
  split
  · exact getD_toBytes v (by omega) 0
  · rfl

/-! ## Microcode -/

/-- A turn taken changes nothing that a device reads. -/
theorem read64_takeTurn (s : State) (pa : Nat) : read64 (takeTurn s) pa = read64 s pa := by simp only [read64, takeTurn_mem]

theorem entryBad_takeTurn (s : State) (pa : Nat) : entryBad (takeTurn s) pa = entryBad s pa := by
  simp only [entryBad, memBad, takeTurn_badSec, takeTurn_poison]

theorem findDie_takeTurn (s : State) (d : Nat) : findDie (takeTurn s) d = findDie s d := by simp only [findDie, takeTurn_dies]

theorem paFault_takeTurn (s : State) (pa : Nat) : paFault (takeTurn s) pa = paFault s pa := by
  unfold paFault
  rw [findDie_takeTurn, takeTurn_ready]

theorem pageDiscarded_takeTurn (s : State) (pte : Nat) : pageDiscarded (takeTurn s) pte = pageDiscarded s pte := by
  simp only [pageDiscarded, read64_takeTurn]

/-- A walk reads the state through three functions; `delta` shows its body without the equation lemma, which is slow to check. -/
theorem walkFrom_takeTurn (s : State) : walkFrom (takeTurn s) = walkFrom s := by
  delta walkFrom walkFrom._f
  rw [funext (read64_takeTurn s), funext (entryBad_takeTurn s), funext (paFault_takeTurn s)]

theorem walk_takeTurn (s : State) : walk (takeTurn s) = walk s := by
  unfold walk
  rw [funext (read64_takeTurn s), funext (entryBad_takeTurn s), funext (paFault_takeTurn s), funext (findDie_takeTurn s), walkFrom_takeTurn]

theorem devRange_takeTurn (s : State) (die tenant : Nat) (k : AKind) (va n : Nat) :
    devRange (takeTurn s) die tenant k va n = devRange s die tenant k va n := by
  simp only [devRange, devPiece, walk_takeTurn]

theorem memByte_takeTurn (s : State) (owner pa : Nat) : memByte (takeTurn s) owner pa = memByte s owner pa := by
  simp only [memByte, ownerAt, takeTurn_mem, takeTurn_lineOwner]

theorem devRead_takeTurn (s : State) (ps : List DLoc) : devRead (takeTurn s) ps = devRead s ps := by
  simp only [devRead, memBytes, memByte_takeTurn, pageDiscarded_takeTurn]

theorem devGet_takeTurn (s : State) (die tenant va n : Nat) : devGet (takeTurn s) die tenant va n = devGet s die tenant va n := by
  simp only [devGet, devRange_takeTurn, devRead_takeTurn]

theorem rootDie_takeTurn (s : State) : rootDie (takeTurn s) = rootDie s := by
  have hup (d : Nat) : dieUp (takeTurn s) d = dieUp s d := by simp only [dieUp, findDie_takeTurn, takeTurn_ready]
  simp only [rootDie, funext hup]

theorem identityByte_takeTurn (s : State) (i : Nat) : identityByte (takeTurn s) i = identityByte s i := by
  have havail (d : Nat) : dieAvailable (takeTurn s) d = dieAvailable s d := by
    simp only [dieAvailable, findDie_takeTurn, takeTurn_ready, takeTurn_coming]
  have hdies : diesAvailable (takeTurn s) = diesAvailable s := by simp only [diesAvailable, funext havail]
  simp only [identityByte, hdies, takeTurn_meas]

theorem refuseImage_takeTurn (s : State) (h code : List Byte) : refuseImage (takeTurn s) h code = refuseImage s h code := by
  have hfloor : microcodeFloor (takeTurn s) = microcodeFloor s := by simp only [microcodeFloor, identityByte_takeTurn]
  simp only [refuseImage, hfloor]

/-- The check of an image that was read: a refusal, or microcode ready for its switch (R448). -/
theorem step_microcode {s : State} {luca : BitVec 64} {h code : List Byte} (hn : nextTurn s = .microcode) (hup : latheUp s = true)
    (hl : s.lathe.loading = some luca) (hh : devGet s (rootDie s) 0 luca.toNat 512 = some h)
    (hc : devGet s (rootDie s) 0 (luca.toNat + 512) (fieldAt h 8 4 % 2 ^ 19) = some code) :
    step s = .next (if refuseImage s h code ≠ 0 then
        { takeTurn s with lathe := { s.lathe with loading := none, lustat := BitVec.ofNat 32 (3 + refuseImage s h code * 256) } }
      else measure { takeTurn s with lathe := { s.lathe with
        loading := none, ucode := some { version := BitVec.ofNat 32 (fieldAt h 4 4), entry := fieldAt h 12 4, code := code } } } 2 code) := by
  have hup' : latheUp (takeTurn s) = true := hup
  simp only [step, hn, prepare, checkMicrocode, takeTurn_lathe, hl, rootDie_takeTurn, devGet_takeTurn, hh, hc, Option.getD_some, refuseImage_takeTurn, hup',
    Bool.not_true, Bool.false_eq_true, if_false]

/-- A measurement is extended, and no other (R483). -/
theorem measure_meas (s : State) (i : Nat) (image : List Byte) {k : Nat} (hk : k < 4) :
    (measure s i image).meas.getD k [] =
      if k = i then sha256 (s.meas.getD i (List.replicate 32 0) ++ sha256 image) else s.meas.getD k (List.replicate 32 0) := by
  simp [measure, hk]

/-! ## Attestation -/

theorem takeRequest_identity (s : State) (i : Nat) : identityByte (takeRequest s) i = identityByte s i := by
  unfold takeRequest
  split <;> rfl

/-- The nonce that a report carries: the one that REQ took, or the one that stands (R484). -/
theorem takeRequest_attest (s : State) : (takeRequest s).attest = if reqSet s then s.attest else mgetList s.mailbox 0x8000 32 := by
  unfold takeRequest
  split <;> rfl

theorem takeRequest_mailbox {s : State} {k : Nat} (hk : k ≠ 0x8020) : mget (takeRequest s).mailbox k = mget s.mailbox k := by
  unfold takeRequest
  split
  · rfl
  · simp only [mget_mset_ne _ _ _ _ hk]

theorem takeRequest_only (s : State) : { takeRequest s with mailbox := s.mailbox, attest := s.attest } = s := by
  unfold takeRequest
  split <;> rfl

/-- The fields of a report's head, in their order (R484). -/
theorem reportHead_getD (s : State) {n : List Byte} (hn : n.length = 32) :
    (∀ k, k < 4 → (reportHead s n).getD k 0 = byteAt (1 : BitVec 32) k) ∧ (∀ k, 4 ≤ k → k < 8 → (reportHead s n).getD k 0 = 0) ∧
      (∀ k, k < 32 → (reportHead s n).getD (8 + k) 0 = n.getD k 0) ∧ (∀ k, k < 96 → (reportHead s n).getD (40 + k) 0 = identityByte s k) ∧
      ∀ k, k < 128 → (reportHead s n).getD (136 + k) 0 = identityByte s (0x1E0 + k) := by
  have h4 : (natBytes 1 4).length = 4 := rfl
  have h0 : (zeros 4).length = 4 := rfl
  unfold reportHead
  refine ⟨fun k hk => ?_, fun k h hk => ?_, fun k hk => ?_, fun k hk => ?_, fun k hk => ?_⟩
  · rw [List.getD_append _ _ _ _ (by simp; omega), List.getD_append _ _ _ _ (by simp; omega), List.getD_append _ _ _ _ (by simp; omega),
      List.getD_append _ _ _ _ (by omega)]
    exact getD_toBytes _ hk 0
  · rw [List.getD_append _ _ _ _ (by simp; omega), List.getD_append _ _ _ _ (by simp; omega), List.getD_append _ _ _ _ (by simp; omega),
      List.getD_append_right _ _ _ _ (by omega)]
    simp only [zeros, List.getD_eq_getElem?_getD, List.getElem?_replicate]
    split <;> rfl
  · rw [List.getD_append _ _ _ _ (by simp; omega), List.getD_append _ _ _ _ (by simp; omega),
      List.getD_append_right _ _ _ _ (by simp; omega)]
    simp [h4, h0]
  · rw [List.getD_append _ _ _ _ (by simp; omega), List.getD_append_right _ _ _ _ (by simp; omega)]
    simp [h4, h0, hn, hk]
  · rw [List.getD_append_right _ _ _ _ (by simp; omega)]
    simp [h4, h0, hn, hk]

theorem reportHead_length (s : State) (n : List Byte) : (reportHead s n).length = 232 + n.length := by
  have h4 : (natBytes 1 4).length = 4 := rfl
  have h0 : (zeros 4).length = 4 := rfl
  simp only [reportHead, List.length_append, List.length_map, List.length_range, h4, h0]
  omega

/-- The report as the device writes it: its head, with the nonce that REQ took; REQ clears (R484). -/
theorem attestation_mailbox {s : State} (hup : hostUp s = true) :
    ∃ rest, exec .attestationRequest s = .next { takeRequest s with
      mailbox := mset (msetList (takeRequest s).mailbox 0x8100 (reportHead s (takeRequest s).attest ++ rest)) 0x8020 0, attest := [] } := by
  have hhead (n : List Byte) : reportHead (takeRequest s) n = reportHead s n := by
    simp only [reportHead, funext (takeRequest_identity s)]
  refine ⟨padTo 384 (Config.sign (reportHead s (takeRequest s).attest)), ?_⟩
  rw [← hhead]
  change execAttestationRequest s = _
  simp only [execAttestationRequest, hup, Bool.not_true, Bool.false_eq_true, if_false]

theorem getD_append_reportHead (s : State) {n : List Byte} (hn : n.length = 32) (rest : List Byte) (m : SMap 8) {k : Nat} (hk : k < 264) :
    mget (mset (msetList m 0x8100 (reportHead s n ++ rest)) 0x8020 0) (0x8100 + k) = (reportHead s n).getD k 0 := by
  have hlen := reportHead_length s n
  rw [mget_mset_ne _ _ _ _ (by omega), mget_msetList, if_pos (by simp only [List.length_append]; omega), Nat.add_sub_cancel_left,
    List.getD_append _ _ _ _ (by omega)]

/-! ## Writes of devices -/

/-- What a device's write leaves of the state besides memory: every agent, program and clock. -/
def State.agents (s : State) :=
  (s.teams, s.grids, s.dies, s.lathe, s.wins, s.grps, s.insts, s.ctxs, s.store, s.cycle, s.ready)

theorem sameAgents_of_agents {s u : State} (h : u.agents = s.agents) : SameAgents s u := by
  simp only [State.agents, Prod.mk.injEq] at h
  exact h

/-- What line tokens on their way leave: the agents, memory and whose key its lines are under. -/
def State.untokened (s : State) := (s.agents, s.mem, s.lineOwner)

theorem send_untokened (s : State) (bs : List MsgBody) : (send s bs).untokened = s.untokened := by
  refine foldl_keeps State.untokened _ (fun _ _ => ?_) bs s
  rfl

theorem l1Release_untokened (s : State) (h : Holder) (line : Nat) (keeps : Bool) : (l1Release s h line keeps).untokened = s.untokened := by
  unfold l1Release
  split <;> rfl

theorem sendAll_untokened (s : State) (h dst : Holder) (line : Nat) : (sendAll s h dst line).untokened = s.untokened := by
  unfold sendAll
  dsimp only
  split
  · rfl
  · exact (send_untokened ..).trans (l1Release_untokened s h line false)

theorem logEvict_untokened (s : State) (die line : Nat) : (logEvict s die line).untokened = s.untokened := by
  unfold logEvict
  split
  · refine foldl_keeps State.untokened _ (fun _ _ => ?_) _ s
    rfl
  · rfl

theorem evictLine_untokened (s : State) (h : Holder) (line : Nat) : (evictLine s h line).untokened = s.untokened := by
  unfold evictLine
  rw [sendAll_untokened]
  split
  · exact logEvict_untokened s _ line
  · rfl

theorem makeLineRoom_untokened (s : State) (h : Holder) (line : Nat) : (makeLineRoom s h line).untokened = s.untokened := by
  unfold makeLineRoom
  split
  · rfl
  · dsimp only
    split
    · rfl
    · exact evictLine_untokened ..

theorem takeLine_untokened (s : State) (h : Holder) (line : Nat) : (takeLine s h line).untokened = s.untokened :=
  makeLineRoom_untokened s h line

theorem passOn_untokened (s : State) (h : Holder) (line : Nat) : (passOn s h line).untokened = s.untokened := by
  unfold passOn
  split
  · exact sendAll_untokened ..
  · rfl

theorem takeLines_untokened (s : State) (h : Holder) (pa n : Nat) : (takeLines s h pa n).untokened = s.untokened := by
  unfold takeLines
  split
  · exact foldl_keeps State.untokened _ (fun s l => takeLine_untokened s h l) _ s
  · rfl

theorem passLines_untokened (s : State) (h : Holder) (pa n : Nat) : (passLines s h pa n).untokened = s.untokened := by
  unfold passLines
  split
  · exact foldl_keeps State.untokened _ (fun s l => passOn_untokened s h l) _ s
  · rfl

theorem memByte_of_untokened {s u : State} (h : u.untokened = s.untokened) (owner pa : Nat) : memByte u owner pa = memByte s owner pa := by
  obtain ⟨-, hmem, hown⟩ : u.agents = s.agents ∧ u.mem = s.mem ∧ u.lineOwner = s.lineOwner := by
    simpa only [State.untokened, Prod.mk.injEq] using h
  simp only [memByte, ownerAt, hmem, hown]

/-! ### Memory under keys (R398) -/

/-- A byte reads as before where its line has the same owner and the same bytes. -/
theorem memByte_of_line {s u : State} {b : Nat} (ho : ownerAt u b = ownerAt s b) (hm : ∀ c, c / 256 = b / 256 → mget u.mem c = mget s.mem c)
    (owner : Nat) : memByte u owner b = memByte s owner b := by
  have hblock : mgetList u.mem (b - b % 16) 16 = mgetList s.mem (b - b % 16) 16 :=
    List.map_congr_left fun i hi => hm _ (by have := List.mem_range.mp hi; omega)
  simp only [memByte, ho, hm b rfl, hblock]

theorem memByte_of_owner {s : State} {owner b : Nat} (h : ownerAt s b = some owner) : memByte s owner b = mget s.mem b := by
  simp only [memByte, h, if_true]

/-- Owners are of whole lines. -/
theorem ownerAt_line (s : State) {a b : Nat} (h : a / 256 = b / 256) : ownerAt s a = ownerAt s b := by
  simp only [ownerAt, h]

/-- A line entered under an owner. -/
theorem ownerAt_cons (s : State) (m : SMap 8) {line : Nat} (hl : line % 256 = 0) (owner b : Nat) :
    ownerAt { s with mem := m, lineOwner := (line, 256, owner) :: s.lineOwner } b = if b / 256 = line / 256 then some owner else ownerAt s b := by
  have hc : (line / 256 ≤ b / 256 ∧ b / 256 < (line + 256 + 255) / 256) ↔ b / 256 = line / 256 := by omega
  simp only [ownerAt, List.find?_cons, hc]
  split <;> simp_all

theorem ownerAt_claimLine (s : State) (owner : Nat) {line : Nat} (hl : line % 256 = 0) (b : Nat) :
    ownerAt (claimLine s owner line) b = if b / 256 = line / 256 then some owner else ownerAt s b := by
  unfold claimLine
  split
  · next o ho =>
    split
    · next h =>
      split
      · next hb => rw [ownerAt_line s hb, ho, h]
      · rfl
    · exact ownerAt_cons s _ hl owner b
  · exact ownerAt_cons s _ hl owner b

/-- A line claimed reads to its new owner as before. -/
theorem memByte_claimLine (s : State) (owner : Nat) {line : Nat} (hl : line % 256 = 0) (b : Nat) :
    memByte (claimLine s owner line) owner b = memByte s owner b := by
  by_cases hb : b / 256 = line / 256
  · rw [memByte_of_owner (by rw [ownerAt_claimLine s owner hl, if_pos hb])]
    have hown := ownerAt_line s hb
    unfold claimLine
    split
    · next o ho =>
      split
      · next h => rw [memByte_of_owner (by rw [hown, ho, h])]
      · dsimp only
        rw [mget_msetList, if_pos (by simp [memBytes]; omega)]
        simp only [memBytes, List.getD_eq_getElem?_getD, List.getElem?_map, List.getElem?_range (show b - line < 256 by omega), Option.map_some,
          Option.getD_some]
        congr 1
        omega
    · next ho => simp only [memByte, hown, ho]
  · refine memByte_of_line (by rw [ownerAt_claimLine s owner hl, if_neg hb]) (fun c hc => ?_) owner
    unfold claimLine
    split
    · split
      · rfl
      · dsimp only
        rw [mget_msetList, if_neg (by simp [memBytes]; omega)]
    · rfl

/-- Lines claimed one after another. -/
theorem claimLines_spec (owner : Nat) (l : List Nat) (hl : ∀ x ∈ l, x % 256 = 0) (s : State) (b : Nat) :
    ownerAt (l.foldl (fun s x => claimLine s owner x) s) b = (if ∃ x ∈ l, b / 256 = x / 256 then some owner else ownerAt s b) ∧
      memByte (l.foldl (fun s x => claimLine s owner x) s) owner b = memByte s owner b := by
  induction l generalizing s with
  | nil => simp
  | cons x l ih =>
    obtain ⟨ho, hm⟩ := ih (fun y hy => hl y (.tail _ hy)) (claimLine s owner x)
    have hx := hl x (.head _)
    refine ⟨?_, hm.trans (memByte_claimLine s owner hx b)⟩
    rw [List.foldl_cons, ho, ownerAt_claimLine s owner hx]
    by_cases hb : b / 256 = x / 256 <;> simp [hb]

theorem mem_linesOf {pa n x : Nat} (h : x ∈ linesOf pa n) : x % 256 = 0 := by
  unfold linesOf at h
  split at h
  · cases h
  · obtain ⟨i, -, rfl⟩ := List.mem_map.mp h
    omega

theorem linesOf_covers {pa n b : Nat} (hlo : pa ≤ b) (hhi : b < pa + n) : ∃ x ∈ linesOf pa n, b / 256 = x / 256 := by
  unfold linesOf
  rw [if_neg (by omega)]
  exact ⟨_, List.mem_map.mpr ⟨b / 256 - pa / 256, List.mem_range.mpr (by omega), rfl⟩, by omega⟩

/-- A write reads back to its owner, and changes no other byte that the owner reads. -/
theorem memByte_writeMem (s : State) (owner pa : Nat) (bs : List Byte) (b : Nat) :
    memByte (writeMem s owner pa bs) owner b = if pa ≤ b ∧ b < pa + bs.length then bs.getD (b - pa) 0 else memByte s owner b := by
  obtain ⟨ho, hm⟩ := claimLines_spec owner (linesOf pa bs.length) (fun _ => mem_linesOf) s b
  have hown : ownerAt (writeMem s owner pa bs) b =
      ownerAt ((linesOf pa bs.length).foldl (fun s x => claimLine s owner x) s) b := rfl
  by_cases hc : ∃ x ∈ linesOf pa bs.length, b / 256 = x / 256
  · rw [if_pos hc] at ho
    rw [memByte_of_owner (hown.trans ho), writeMem, mget_msetList]
    split
    · rfl
    · rw [← hm, memByte_of_owner ho]
  · rw [if_neg fun h => hc (linesOf_covers h.1 h.2), ← hm]
    refine memByte_of_line hown (fun c hcb => ?_) owner
    rw [writeMem, mget_msetList, if_neg fun h => hc (hcb ▸ linesOf_covers h.1 h.2)]

theorem claimLine_agents (s : State) (owner line : Nat) : (claimLine s owner line).agents = s.agents := by
  unfold claimLine
  split
  · split <;> rfl
  · rfl

theorem writeMem_agents (s : State) (owner pa : Nat) (bs : List Byte) : (writeMem s owner pa bs).agents = s.agents :=
  foldl_keeps State.agents _ (fun s l => claimLine_agents s owner l) _ s

/-- A device's write of a checked place whose page is not discarded. -/
theorem devPut_one {s : State} {h : Holder} {p : DLoc} {bs : List Byte} (hlen : p.len = bs.length) (hpage : pageDiscarded s p.pte = false) :
    devPut h [p] bs s = devWrite s h p.owner p.pa bs := by
  simp only [devPut, zeroFill, hpage, hlen, List.take_length, Bool.false_eq_true, if_false]

theorem devWrite_agents (s : State) (h : Holder) (owner pa : Nat) (bs : List Byte) : (devWrite s h owner pa bs).agents = s.agents :=
  (congrArg Prod.fst (passLines_untokened ..)).trans ((writeMem_agents ..).trans (congrArg Prod.fst (takeLines_untokened s h pa bs.length)))

theorem memByte_devWrite (s : State) (h : Holder) (owner pa : Nat) (bs : List Byte) (b : Nat) :
    memByte (devWrite s h owner pa bs) owner b = if pa ≤ b ∧ b < pa + bs.length then bs.getD (b - pa) 0 else memByte s owner b := by
  unfold devWrite
  rw [memByte_of_untokened (passLines_untokened ..), memByte_writeMem, memByte_of_untokened (takeLines_untokened ..)]

/-! ## BAR2 -/

/-- A range within one granule is one piece. -/
theorem granules_one {off n : Nat} (hn : 0 < n) (h : off % 2 ^ 19 + n ≤ 2 ^ 19) : granules off n = [(off, n)] := by
  have hc : (off + n - 1) / 2 ^ 19 - off / 2 ^ 19 + 1 = 1 := by omega
  have hlo : max off ((off / 2 ^ 19 + 0) * 2 ^ 19) = off := by omega
  have hhi : min (off + n) ((off / 2 ^ 19 + 0 + 1) * 2 ^ 19) - off = n := by omega
  unfold granules cutAt
  rw [if_neg (by omega), hc]
  simp only [List.range_one, List.map_cons, List.map_nil, hlo, hhi]

/-- The place that the granule of a function's BAR2 at an offset is mapped to, or why it may not be used (R475; log 123). -/
def bar2Place (s : State) (fn off : Nat) (k : AKind) (n : Nat) : Option (Except (Nat × Nat) DLoc) :=
  (s.bar2.find? fun e => e.1 == (fn, off / 2 ^ 19)).map fun e => devPiece s (rootDie s) 0 k (e.2 + off % 2 ^ 19) n

section
variable {s : State} {fn off n : Nat} {k : AKind} (hn : 0 < n) (ho : off < 2 ^ 36) (hone : off % 2 ^ 19 + n ≤ 2 ^ 19)
include hn ho hone

theorem bar2Range_ok {p : DLoc} (h : bar2Place s fn off k n = some (.ok p)) : bar2Range s fn k off n = some [p] := by
  obtain ⟨e, he, hp⟩ := Option.map_eq_some_iff.mp h
  unfold bar2Range
  rw [if_neg (by omega), granules_one hn hone]
  simp only [List.mapM_cons, List.mapM_nil, he, Option.bind_some, hp]
  rfl

theorem bar2Range_error {e : Nat × Nat} (h : bar2Place s fn off k n = some (.error e)) : bar2Range s fn k off n = none := by
  obtain ⟨x, hx, hp⟩ := Option.map_eq_some_iff.mp h
  unfold bar2Range
  rw [if_neg (by omega), granules_one hn hone]
  simp only [List.mapM_cons, hx, Option.bind_some, hp]
  rfl

theorem bar2Range_unmapped (h : bar2Place s fn off k n = none) : bar2Range s fn k off n = none := by
  have hx := Option.map_eq_none_iff.mp h
  unfold bar2Range
  rw [if_neg (by omega), granules_one hn hone]
  simp only [List.mapM_cons, hx, Option.bind_none]
  rfl
end

theorem devPiece_len {s : State} {die tenant : Nat} {k : AKind} {va n : Nat} {p : DLoc} (h : devPiece s die tenant k va n = .ok p) : p.len = n := by
  unfold devPiece at h
  split at h
  · cases h
  · split at h
    · cases h
    · split at h
      · cases h
      · split at h
        · cases h
        · cases h
          rfl

section
variable {s : State} {addr fn off : Nat} (hfn : addr / 2 ^ 36 = fn) (hoff : addr % 2 ^ 36 = off) (hf : fn < 2)
  (hr : s.ready.getLsbD (11 + fn) = true)
include hfn hf hr

/-- An access to BAR2 of a function whose port is up, by its kind (R475). -/
theorem hostBar2Access_atomicOp (len : Nat) : exec (.hostBar2Access addr len .atomicOp) s = .next { s with hostResp := some none } := by
  change execHostBar2Access addr len .atomicOp s = _
  simp only [execHostBar2Access, hfn]
  rw [if_neg (by simp [hr, hf])]

include hoff

theorem hostBar2Access_read (len : Nat) :
    exec (.hostBar2Access addr len .read) s = (bar2Range s fn .load off len).elim (.next { s with hostResp := some none }) fun ps =>
      .next { s with hostResp := some (if devBad s ps then none else some (devRead s ps)) } := by
  change execHostBar2Access addr len .read s = _
  simp only [execHostBar2Access, hfn, hoff]
  rw [if_neg (by simp [hr, hf])]
  cases bar2Range s fn .load off len <;> rfl

theorem hostBar2Access_write (len : Nat) (bs : List Byte) :
    exec (.hostBar2Access addr len (.write bs)) s =
      (bar2Range s fn .store off bs.length).elim (.next { s with hostResp := some none }) fun ps =>
        .next { devPut (.dma fn) ps bs s with hostResp := some (some []) } := by
  change execHostBar2Access addr len (.write bs) s = _
  simp only [execHostBar2Access, hfn, hoff]
  rw [if_neg (by simp [hr, hf])]
  cases bar2Range s fn .store off bs.length <;> rfl
end

/-! ## Released capacity -/

theorem memBad_poison (s : State) (addr len pa n : Nat) :
    memBad { s with poison := s.poison ++ [(addr, len)] } pa n = (memBad s pa n || decide (addr < pa + n ∧ pa < addr + len)) := by
  simp only [memBad, List.any_append, List.any_cons, List.any_nil, Bool.or_false, Bool.or_assoc]

end Sys2Proof.Machine
end

section
open Sys2Proof Sys2Proof.Machine

/-- Settles O59, register by register and act by act. -/
theorem registersAndHost : Obligations.RegistersAndHost := by
  unfold Obligations.RegistersAndHost
  refine ⟨⟨?_, ?_, ?_, ?_, ?_, ?_, ?_, ?_, ?_, ?_, ?_⟩, ?_, ?_, ?_, ?_, ?_, ?_⟩
  -- expert registers (R314; log 104)
  · intro s die d v hd
    simp only [List.forall_mem_cons]
    exact ⟨⟨_, rfl, writeEx_spec (by intro; rfl) hd⟩, ⟨_, rfl, writeEx_spec (by intro; rfl) hd⟩, ⟨_, rfl, writeEx_spec (by intro; rfl) hd⟩,
      ⟨_, rfl, writeEx_spec (by intro; rfl) hd⟩, ⟨_, rfl, writeEx_spec (by intro; rfl) hd⟩,
      List.forall_mem_nil _⟩
  -- the other registers of a die (R408)
  · intro s die d v hd
    have h32 : (v.setWidth 64).setWidth 32 = v.setWidth 32 := BitVec.setWidth_setWidth_of_le v (by decide)
    simp only [List.forall_mem_cons]
    exact ⟨registerWrite_dieReg (by decide) (by decide) hd (by rfl), registerWrite_dieReg (by decide) (by decide) hd (by rw [← h32]; rfl),
      registerWrite_dieReg (by decide) (by decide) hd (by rw [← h32]; rfl), registerWrite_dieReg (by decide) (by decide) hd (by rfl),
      registerWrite_dieReg (by decide) (by decide) hd (by rfl), registerWrite_dieReg (by decide) (by decide) hd (by rfl),
      List.forall_mem_nil _⟩
  -- a window's fields and its WBIND (Tables 12-1 and 13-3)
  · intro s w v hw
    refine ⟨?_, ?_⟩
    · obtain ⟨hs, hfind, hother⟩ := putWin_only (s := s) (w := w) (y := { getWin s w with
        spill := v.extractLsb' 320 64, bo := v.extractLsb' 256 64, mstr := v.extractLsb' 192 64, dst := v.extractLsb' 128 64,
        span := bitsOf v 96 32, ch := bitsOf v 64 32, tenant := bitsOf v 48 16, m := bitsOf v 40 8, func := bitsOf v 34 2,
        otype := bitsOf v 32 2, itype := bitsOf v 30 2 }) (getWin_w s w)
      exact ⟨_, _, congrArg Host.Outcome.next (if_neg (by omega)), hs, hfind, rfl, rfl, rfl, rfl, rfl, rfl, rfl, rfl, rfl, rfl, rfl, rfl, hother⟩
    · obtain ⟨hs, hfind, hother⟩ := putWin_only (s := s) (w := w)
        (y := { getWin s w with wbind := v.setWidth 64 &&& 0x00000FFFCF1F0FFF }) (getWin_w s w)
      exact ⟨_, _, congrArg Host.Outcome.next (if_neg (by omega)), hs, hfind, rfl, hother⟩
  -- a group's entry (R361)
  · intro s g v hg
    refine ⟨fun h => congrArg Host.Outcome.next (writeGrp_ignored v h), fun h hv => ?_⟩
    obtain ⟨hs, n, hfind⟩ := writeGrp_valid hg h hv
    exact ⟨_, _, rfl, hs, hfind, rfl, rfl, rfl, rfl, rfl, rfl, rfl, rfl, rfl, rfl⟩
  -- SAVE_BASE and the Lathe's registers (R356, R415)
  · intro s v x
    have hlathe (off : Nat) : exec (.registerWrite (.lathe off) v) s = .next (writeLathe s off x) := rfl
    refine ⟨fun h => congrArg Host.Outcome.next (if_pos h), fun h => congrArg Host.Outcome.next (if_neg h), fun h h56 => ?_, fun h => ?_, fun h => ⟨?_, ?_⟩,
      fun h h52 hk hf => ?_, fun h h' => ?_, fun h => ?_⟩
    · rw [hlathe, writeLathe_luca, if_pos ⟨h, h56⟩]
    · rw [hlathe, writeLathe_luca, if_neg (by omega)]
    · rw [hlathe, writeLathe_luca, if_neg (by omega)]
    · rw [hlathe, writeLathe_lqtb, if_neg fun hc => h hc.1]
    · rw [hlathe, writeLathe_lqtb, if_pos ⟨h, eq_of_beq hk, by rw [hf]; rfl, h52⟩]
    · rw [hlathe, writeLathe_lslice, bitsOf_setWidth_64, if_pos ⟨h, h'⟩, ofNat_bitsOf_low]
    · rw [hlathe, writeLathe_lslice, bitsOf_setWidth_64, if_neg (by omega)]
  -- a key slot (R398; log 79)
  · intro s owner k ho hk
    obtain ⟨hmine, hothers⟩ := writeKey_keys ho hk
    exact ⟨_, rfl, writeKey_mem s owner k, hmine, hothers, fun hnew a => ownerAt_writeKey_new ho hk hnew a, fun j hj =>
      ⟨_, rfl, (writeKey_mem ..).trans (writeKey_mem ..), fun a ha => ownerAt_writeKey_back ho hk hj ha⟩⟩
  -- a granule of BAR2 (R475; log 123)
  · intro s fn granule v hf hg
    refine ⟨_, rfl, ?_, fun x a => writeBar2_spec hf hg x a⟩
    unfold writeBar2
    rw [if_neg (by omega)]
  -- a range of CXL capacity (log 108)
  · exact fun s addr len v => ⟨_, rfl, rfl, fun a => unmapCapacity_poison s addr len a⟩
  -- REQ of the attestation mailbox (log 75)
  · intro s v
    have hv : (v.setWidth 64).getLsbD 0 = v.getLsbD 0 := by simp
    refine ⟨fun h => congrArg Host.Outcome.next (writeMailbox_req_ignored (by rw [hv]; exact h)), fun h hup hreq => ?_⟩
    exact ⟨_, congrArg Host.Outcome.next (writeMailbox_req (hv.trans h) hup hreq), rfl, rfl, fun k => mget_mset s.mailbox 0x8020 k 1⟩
  -- the bytes of the mailboxes
  · intro s off v h
    exact ⟨_, congrArg Host.Outcome.next (writeMailbox_bytes h _), rfl, fun k => mget_msetList_toBytes s.mailbox off 8 k _⟩
  -- flash
  · exact fun s iod nsid off v => ⟨_, rfl, rfl, fun a b c x => writeFlash_spec s iod nsid off _ a b c x⟩
  -- LUCMD_LOAD (R448)
  · intro s hup
    refine ⟨fun h => if_neg ?_, fun h => if_pos (.inr h)⟩
    simp [hup, h]
  -- the check of an image (R448; log 53)
  · intro s luca h code hn hup hl hh hc a r
    have hstep := step_microcode hn hup hl hh hc
    refine ⟨fun hr => ?_, fun hr => ?_⟩
    · rw [hstep, if_pos hr, Nat.mul_comm]
    · refine ⟨_, hstep.trans (congrArg Host.Outcome.next (if_neg (not_not.mpr hr))), rfl, rfl, ?_, fun i hi hne => ?_⟩
      · rw [measure_meas _ _ _ (by decide), if_pos rfl]
        rfl
      · rw [measure_meas _ _ _ hi, if_neg hne]
        rfl
  -- MICROCODE_SWITCH (R449)
  · intro s m hup hm
    change execMicrocodeSwitch s = _
    simp only [execMicrocodeSwitch, hm, hup, if_true]
  -- ATTESTATION_REQUEST (R484)
  · intro s hup hatt
    obtain ⟨rest, hexec⟩ := attestation_mailbox hup
    have hlen : (takeRequest s).attest.length = 32 := by
      rw [takeRequest_attest]
      split
      · next hreq => exact hatt hreq
      · simp [mgetList]
    obtain ⟨hver, hzero, hnonce, hid, hmeas⟩ := reportHead_getD s hlen
    have hbyte {k : Nat} (hk : k < 264) := getD_append_reportHead s hlen rest (takeRequest s).mailbox hk
    refine ⟨_, hexec, takeRequest_only s, rfl, fun k hk => ?_, fun k h4 hk => ?_, fun k hk => ?_, fun k hk => ?_, fun k hk => ?_, fun k hk => ?_⟩
    · exact (hbyte (by omega)).trans (hver k hk)
    · exact (hbyte (by omega)).trans (hzero k h4 hk)
    · refine (hbyte (by omega)).trans ((hnonce k hk).trans ?_)
      rw [takeRequest_attest]
      change _ = if reqSet s = true then s.attest.getD k 0 else mget s.mailbox (0x8000 + k)
      split
      · rfl
      · simp [mgetList, hk]
    · exact (hbyte (by omega)).trans (hid k hk)
    · exact (hbyte (by omega)).trans (hmeas k hk)
    · simp only [mget_mset]
      split
      · rfl
      · next hne => rw [mget_msetList, if_neg (by omega), takeRequest_mailbox hne]
  -- accesses to BAR2 (R475)
  · intro s fn off len hf hr ho place go refused
    have hfn : (fn * 2 ^ 36 + off) / 2 ^ 36 = fn := by omega
    have hoff : (fn * 2 ^ 36 + off) % 2 ^ 36 = off := by omega
    refine ⟨hostBar2Access_atomicOp hfn hf hr len, fun hn hone => ⟨fun h => ?_, fun e h => ?_, fun p h => ?_⟩,
      fun bs hbs hone => ⟨fun h => ?_, fun e h => ?_, fun p h hpage _ => ?_⟩⟩
    · exact (hostBar2Access_read hfn hoff hf hr len).trans (by rw [bar2Range_unmapped hn ho hone h]; rfl)
    · exact (hostBar2Access_read hfn hoff hf hr len).trans (by rw [bar2Range_error hn ho hone h]; rfl)
    · exact (hostBar2Access_read hfn hoff hf hr len).trans (by rw [bar2Range_ok hn ho hone h]; rfl)
    · exact (hostBar2Access_write hfn hoff hf hr len bs).trans (by rw [bar2Range_unmapped (List.length_pos_iff.mpr hbs) ho hone h]; rfl)
    · exact (hostBar2Access_write hfn hoff hf hr len bs).trans (by rw [bar2Range_error (List.length_pos_iff.mpr hbs) ho hone h]; rfl)
    · obtain ⟨e, _, hp⟩ := Option.map_eq_some_iff.mp h
      have hput : devPut (.dma fn) [p] bs s = devWrite s (.dma fn) p.owner p.pa bs := devPut_one (devPiece_len hp) hpage
      have hwrite := hostBar2Access_write hfn hoff hf hr len bs
      rw [bar2Range_ok (List.length_pos_iff.mpr hbs) ho hone h, Option.elim_some, hput] at hwrite
      exact ⟨_, hwrite, rfl, sameAgents_of_agents (devWrite_agents s (.dma fn) p.owner p.pa bs), memByte_devWrite s (.dma fn) p.owner p.pa bs⟩
  -- DYNAMIC_CAPACITY_RELEASE (R477)
  · intro s addr len hk hl
    exact ⟨_, if_pos ⟨hk, hl⟩, rfl, fun pa n => memBad_poison s addr len pa n⟩
end

section
/-! Lemmas for what runs behind the fragments (R34, R39, R325, R402, R435 to R443, R479, R483, R486): what a device's write, a record of
the Lathe and an act of the Caldera leave of the state. -/

namespace Sys2Proof.Machine

open Sys2Proof

/-! ## Writes of devices and decision records -/

/-- A queue without its count of decision records and its counters (R444, R445). -/
def Queue.unlogged (q : Queue) : Queue := { q with nrec := 0, counters := [] }

/-- What devices' writes and decision records leave of the state: not memory, the line tokens that a write gathers, the error log and
the counters that an eviction draws on, nor the count of a queue's records. -/
def State.quiet (s : State) : State :=
  { s with mem := [], lineOwner := [], badSec := [], toks := [], msgs := [], l1c := [], nextId := 0, freeNo := 0, errLog := [], errCount := 0,
           queues := s.queues.map Queue.unlogged }

theorem send_quiet (s : State) (bs : List MsgBody) : (send s bs).quiet = s.quiet := by
  refine foldl_keeps State.quiet _ (fun _ _ => ?_) bs s
  rfl

theorem l1Release_quiet (s : State) (h : Holder) (line : Nat) (keeps : Bool) : (l1Release s h line keeps).quiet = s.quiet := by
  unfold l1Release
  split <;> rfl

theorem sendAll_quiet (s : State) (h dst : Holder) (line : Nat) : (sendAll s h dst line).quiet = s.quiet := by
  unfold sendAll
  dsimp only
  split
  · rfl
  · exact (send_quiet ..).trans (l1Release_quiet s h line false)

theorem logEvict_quiet (s : State) (die line : Nat) : (logEvict s die line).quiet = s.quiet := by
  unfold logEvict
  split
  · refine foldl_keeps State.quiet _ (fun _ _ => ?_) _ s
    rfl
  · rfl

theorem evictLine_quiet (s : State) (h : Holder) (line : Nat) : (evictLine s h line).quiet = s.quiet := by
  unfold evictLine
  rw [sendAll_quiet]
  split
  · exact logEvict_quiet s _ line
  · rfl

theorem makeLineRoom_quiet (s : State) (h : Holder) (line : Nat) : (makeLineRoom s h line).quiet = s.quiet := by
  unfold makeLineRoom
  split
  · rfl
  · dsimp only
    split
    · rfl
    · exact evictLine_quiet ..

theorem takeLine_quiet (s : State) (h : Holder) (line : Nat) : (takeLine s h line).quiet = s.quiet := makeLineRoom_quiet s h line

theorem passOn_quiet (s : State) (h : Holder) (line : Nat) : (passOn s h line).quiet = s.quiet := by
  unfold passOn
  split
  · exact sendAll_quiet ..
  · rfl

theorem takeLines_quiet (s : State) (h : Holder) (pa n : Nat) : (takeLines s h pa n).quiet = s.quiet := by
  unfold takeLines
  split
  · exact foldl_keeps State.quiet _ (fun s l => takeLine_quiet s h l) _ s
  · rfl

theorem passLines_quiet (s : State) (h : Holder) (pa n : Nat) : (passLines s h pa n).quiet = s.quiet := by
  unfold passLines
  split
  · exact foldl_keeps State.quiet _ (fun s l => passOn_quiet s h l) _ s
  · rfl

theorem claimLine_quiet (s : State) (owner line : Nat) : (claimLine s owner line).quiet = s.quiet := by
  unfold claimLine
  split
  · split <;> rfl
  · rfl

theorem writeMem_quiet (s : State) (owner pa : Nat) (bs : List Byte) : (writeMem s owner pa bs).quiet = s.quiet :=
  foldl_keeps State.quiet _ (fun s l => claimLine_quiet s owner l) _ s

theorem zeroFill_quiet (s : State) (owner pte base size : Nat) : (zeroFill s owner pte base size).quiet = s.quiet := by
  unfold zeroFill
  split <;> rfl

@[simp] theorem devWrite_quiet (s : State) (h : Holder) (owner pa : Nat) (bs : List Byte) : (devWrite s h owner pa bs).quiet = s.quiet :=
  (passLines_quiet ..).trans ((writeMem_quiet ..).trans (takeLines_quiet s h pa bs.length))

theorem devPut_quiet (h : Holder) (ps : List DLoc) (bs : List Byte) (s : State) : (devPut h ps bs s).quiet = s.quiet := by
  induction ps generalizing bs s with
  | nil => rfl
  | cons p ps ih => exact (ih _ _).trans ((devWrite_quiet ..).trans (zeroFill_quiet ..))

@[simp] theorem devSet_quiet (s : State) (h : Holder) (die tenant va : Nat) (bs : List Byte) : (devSet s h die tenant va bs).quiet = s.quiet := by
  unfold devSet
  split
  · exact devPut_quiet ..
  · rfl

theorem boUpdate_quiet (s : State) (h : Holder) (owner pa inc status flags : Nat) (updater : Word) :
    (boUpdate s h owner pa inc status flags updater).quiet = s.quiet :=
  (passLines_quiet ..).trans ((writeMem_quiet ..).trans ((writeMem_quiet ..).trans (takeLines_quiet s h pa 64)))

@[simp] theorem postBo_quiet (s : State) (h : Holder) (die tenant va inc status flags : Nat) (updater : Word) :
    (postBo s h die tenant va inc status flags updater).quiet = s.quiet := by
  unfold postBo
  split
  · exact (boUpdate_quiet ..).trans (zeroFill_quiet ..)
  · rfl

@[simp] theorem qcbWrite_quiet (s : State) (q off : Nat) (bs : List Byte) : (qcbWrite s q off bs).quiet = s.quiet := devWrite_quiet ..

theorem updQueue_quiet (s : State) (q : Nat) (f : Queue → Queue) (hf : ∀ x, (f x).unlogged = x.unlogged) : (updQueue s q f).quiet = s.quiet := by
  unfold updQueue State.quiet
  rw [map_updWhere _ _ _ hf]

/-- A count of a queue's QCB is raised (R444, R445). -/
theorem countQueue_quiet (s : State) (q off : Nat) (bs : List Byte) {f : Queue → Queue} (hf : ∀ x, (f x).unlogged = x.unlogged) :
    (qcbWrite (updQueue s q f) q off bs).quiet = s.quiet := (qcbWrite_quiet ..).trans (updQueue_quiet s q f hf)

@[simp] theorem decision_quiet (s : State) (q type reason die clu lr detail : Nat) : (decision s q type reason die clu lr detail).quiet = s.quiet := by
  unfold decision
  split
  · rfl
  · next x _ =>
    dsimp only
    have hrec : (if x.trb = 0 then s else
        qcbWrite (updQueue (devSet s .abuf (rootDie s) x.tenant (x.trb.toNat + 32 * (x.nrec % x.trn))
          (decisionBytes s q x.nrec type reason die clu lr detail)) q fun x => { x with nrec := x.nrec + 1 }) q 0x48
          (natBytes (x.nrec + 1) 8)).quiet = s.quiet := by
      split
      · rfl
      · exact (countQueue_quiet _ _ _ _ (by intro; rfl)).trans (devSet_quiet ..)
    split
    · exact (countQueue_quiet _ _ _ _ (by intro; rfl)).trans hrec
    · exact hrec

@[simp] theorem decisionOf_quiet (s : State) (g : Grid) (type reason detail : Nat) : (decisionOf s g type reason detail).quiet = s.quiet := decision_quiet ..
@[simp] theorem setLr_quiet (s : State) (g : Grid) (off : Nat) (bs : List Byte) : (setLr s g off bs).quiet = s.quiet := devSet_quiet ..
@[simp] theorem completionBo_quiet (s : State) (g : Grid) (status : Nat) : (completionBo s g status).quiet = s.quiet := postBo_quiet ..

/-- Who runs where: the teams, launches and dies. -/
def State.board (s : State) : List Team × List Grid × List Die := (s.teams, s.grids, s.dies)

theorem board_of_quiet {s u : State} (h : u.quiet = s.quiet) : u.board = s.board := (congrArg State.board h :)
theorem teams_of_board {s u : State} (h : u.board = s.board) : u.teams = s.teams := congrArg Prod.fst h
theorem grids_of_board {s u : State} (h : u.board = s.board) : u.grids = s.grids := congrArg (·.2.1) h
theorem dies_of_board {s u : State} (h : u.board = s.board) : u.dies = s.dies := congrArg (·.2.2) h

theorem findTeam_congr {s u : State} (h : u.teams = s.teams) (m : Nat) : findTeam u m = findTeam s m := by unfold findTeam; rw [h]
theorem findGrid_congr {s u : State} (h : u.grids = s.grids) (k : Nat) : findGrid u k = findGrid s k := by unfold findGrid; rw [h]
theorem findDie_congr {s u : State} (h : u.dies = s.dies) (d : Nat) : findDie u d = findDie s d := by unfold findDie; rw [h]

/-! ## Launches and clusters -/

theorem updWhere_updWhere {α : Type} (p : α → Bool) (f g : α → α) (hp : ∀ x, p (f x) = p x) (l : List α) :
    updWhere p g (updWhere p f l) = updWhere p (fun x => g (f x)) l := by
  simp only [updWhere, List.map_map]
  refine List.map_congr_left fun x _ => ?_
  simp only [Function.comp_apply]
  cases h : p x <;> simp [h, hp]

/-- A search by key after an update that keeps keys. -/
theorem find_map_key {α : Type} (key : α → Nat) (f : α → α) (hf : ∀ x, key (f x) = key x) (l : List α) (m : Nat) :
    (l.map f).find? (fun x => key x == m) = (l.find? fun x => key x == m).map f := by
  simp only [List.find?_map, Function.comp_def, hf]

theorem find_updWhere_if {α : Type} (key : α → Nat) (p : α → Bool) (f : α → α) (m : Nat) (l : List α) (hf : ∀ x, key (f x) = key x) :
    (updWhere p f l).find? (fun x => key x == m) = (l.find? fun x => key x == m).map fun x => if p x then f x else x := by
  refine find_map_key key _ (fun x => ?_) l m
  split
  · exact hf x
  · rfl

theorem updGrid_none {s : State} {k : Nat} (h : findGrid s k = none) (f : Grid → Grid) : updGrid s k f = s := by
  have hl : updWhere (fun x : Grid => x.id == k) f s.grids = s.grids := by
    refine (List.map_congr_left fun x hx => ?_).trans (List.map_id _)
    exact if_neg (List.find?_eq_none.mp h x hx)
  unfold updGrid
  rw [hl]

theorem updGrid_updGrid (s : State) (k : Nat) (f g : Grid → Grid) (hf : ∀ x, (f x).id = x.id) :
    updGrid (updGrid s k f) k g = updGrid s k fun x => g (f x) :=
  congrArg (fun l => { s with grids := l }) (updWhere_updWhere _ f g (fun x => by rw [hf]) s.grids)

theorem updGrid_board {s u : State} (h : u.board = s.board) (k : Nat) (f : Grid → Grid) : (updGrid u k f).board = (updGrid s k f).board := by
  simp only [State.board, updGrid, teams_of_board h, grids_of_board h, dies_of_board h]

/-- A launch's change of state, apart from its record (R436). -/
theorem gridTo_quiet (s : State) (k : Nat) (st : GridSt) : (gridTo s k st).quiet = (updGrid s k fun g => { g with st := st }).quiet := by
  unfold gridTo
  split
  · next h => rw [updGrid_none h]
  · exact setLr_quiet ..

theorem findGrid_id {s : State} {k : Nat} {g : Grid} (h : findGrid s k = some g) : g.id = k := by simpa using List.find?_some h

theorem findGrid_updGrid_of {s : State} {k : Nat} {g : Grid} (h : findGrid s k = some g) {f : Grid → Grid} (hf : ∀ x, (f x).id = x.id) :
    findGrid (updGrid s k f) k = some (f g) := by
  rw [findGrid_updGrid s k k f hf, if_pos rfl, h, Option.map_some]

theorem findGrid_updGrid_ne (s : State) {k m : Nat} (h : m ≠ k) {f : Grid → Grid} (hf : ∀ x, (f x).id = x.id) :
    findGrid (updGrid s k f) m = findGrid s m := by
  rw [findGrid_updGrid s k m f hf, if_neg h]

/-- A launch's clusters after an update of one. -/
def Grid.updCluster (c : Nat) (f : Cluster → Cluster) (g : Grid) : Grid := { g with clusters := updWhere (fun x => x.cl == c) f g.clusters }

theorem findCluster_updCluster (g : Grid) (c m : Nat) (f : Cluster → Cluster) (hf : ∀ x, (f x).cl = x.cl) :
    findCluster (g.updCluster c f) m = if m = c then (findCluster g c).map f else findCluster g m :=
  find_updWhere Cluster.cl f c m g.clusters hf

theorem findGrid_updCluster {s : State} {k : Nat} {g : Grid} (h : findGrid s k = some g) (c : Nat) (f : Cluster → Cluster) :
    findGrid (updCluster s k c f) k = some (g.updCluster c f) :=
  findGrid_updGrid_of (f := Grid.updCluster c f) h (by intro; rfl)

/-! ## Cores for a cluster (R435 to R437) -/

/-- A team of a cluster that is given cores. -/
def comeTo (g : Grid) (die turn phys : Nat) (t : Team) : Team :=
  { (if !teamMayCome g t then t else if t.st = .waiting then startTeam g turn t else { t with st := .resident }) with
    die := die, core := coreOf phys t.kix }

/-- A launch of which a cluster is given cores. -/
def Grid.withCores (c phys die : Nat) (fresh starts : Bool) (g : Grid) : Grid :=
  { g.updCluster c (fun k => { k with phys := phys, resident := true, placed := true, stopping := false, bars := if fresh then List.replicate 4 noBar else k.bars }) with
    parts := updWhere (fun p => p.die == die) (fun p => { p with settled := true }) g.parts
    st := if starts then .running else g.st }

theorem acquireAt_board (s : State) (t : Team) (sc : Nat) : (acquireAt s t sc).board = s.board := by
  unfold acquireAt
  split <;> rfl

/-- What giving cores changes: the cluster's teams and its launch. -/
theorem giveCores_board {s : State} {k c : Nat} {g : Grid} {y : Cluster} (hg : findGrid s k = some g) (hy : findCluster g c = some y) (phys : Nat) :
    ∃ fresh, (giveCores s k c phys).board =
      (updGrid { s with teams := updWhere (fun t => t.grid == k && t.clNo g == c) (comeTo g y.die s.turnNo phys) s.teams } k
        (Grid.withCores c phys y.die fresh (g.st == .admitted))).board := by
  unfold giveCores
  simp only [hg, hy]
  refine ⟨!(teamsOf s g c).any fun t => t.st == .out, ?_⟩
  have hkept (u : State) (l : List Team) (q type reason die clu lr detail : Nat) :
      (decision (l.foldl (fun s t => acquireAt s t 4) u) q type reason die clu lr detail).board = u.board :=
    (board_of_quiet (decision_quiet ..)).trans (foldl_keeps State.board _ (fun s t => acquireAt_board s t 4) l u)
  split
  · next h =>
    rw [board_of_quiet (gridTo_quiet ..), updGrid_updGrid _ _ _ _ (by intro; rfl), h]
    refine (updGrid_board (hkept ..) k _).trans ?_
    exact congrArg State.board (updGrid_updGrid _ k _ _ (by intro; rfl))
  · next h =>
    rw [beq_false_of_ne h]
    refine (updGrid_board (hkept ..) k _).trans ?_
    exact congrArg State.board (updGrid_updGrid _ k _ _ (by intro; rfl))

theorem giveCores_dies (s : State) (k c phys : Nat) : (giveCores s k c phys).dies = s.dies := by
  cases hg : findGrid s k with
  | none => simp only [giveCores, hg]
  | some g =>
    cases hy : findCluster g c with
    | none => simp only [giveCores, hg, hy]
    | some y =>
      obtain ⟨fresh, h⟩ := giveCores_board hg hy phys
      exact (dies_of_board h :)

/-- A team after its launch's cluster was given cores. -/
theorem findTeam_giveCores {s : State} {k c : Nat} {g : Grid} {y : Cluster} (hg : findGrid s k = some g) (hy : findCluster g c = some y)
    (phys m : Nat) : findTeam (giveCores s k c phys) m =
      (findTeam s m).map fun t => if t.grid == k && t.clNo g == c then comeTo g y.die s.turnNo phys t else t := by
  obtain ⟨fresh, h⟩ := giveCores_board hg hy phys
  rw [findTeam_congr (teams_of_board h)]
  refine find_updWhere_if Team.id _ _ m s.teams fun t => ?_
  unfold comeTo
  split
  · rfl
  · split <;> rfl

/-- The launch after its cluster was given cores; every other one stays. -/
theorem findGrid_giveCores {s : State} {k c : Nat} {g : Grid} {y : Cluster} (hg : findGrid s k = some g) (hy : findCluster g c = some y) (phys : Nat) :
    (∃ fresh, findGrid (giveCores s k c phys) k = some (g.withCores c phys y.die fresh (g.st == .admitted))) ∧
      ∀ m, m ≠ k → findGrid (giveCores s k c phys) m = findGrid s m := by
  obtain ⟨fresh, h⟩ := giveCores_board hg hy phys
  refine ⟨⟨fresh, ?_⟩, fun m hm => ?_⟩
  · rw [findGrid_congr (grids_of_board h)]
    exact findGrid_updGrid_of hg (by intro; rfl)
  · rw [findGrid_congr (grids_of_board h)]
    exact findGrid_updGrid_ne _ hm (by intro; rfl)

theorem findCluster_withCores (g : Grid) (c phys die m : Nat) (fresh starts : Bool) :
    findCluster (g.withCores c phys die fresh starts) m = if m = c then (findCluster g c).map fun k =>
      { k with phys := phys, resident := true, placed := true, stopping := false, bars := if fresh then List.replicate 4 noBar else k.bars }
    else findCluster g m :=
  findCluster_updCluster g c m _ (by intro; rfl)

/-! ## Clusters that a step spares -/

/-- A launch without the state, parts and clusters that placement changes. -/
def Grid.unplaced (g : Grid) : Grid := { g with st := .admitted, parts := [], clusters := [] }

theorem clNo_of_unplaced {g h : Grid} (e : h.unplaced = g.unplaced) (t : Team) : t.clNo h = t.clNo g := (congrArg t.clNo e :)

/-- From `s` to `u` a cluster of a launch keeps its teams and its own state, and the launch all that placement does not change. -/
structure SparesCluster (k c : Nat) (s u : State) : Prop where
  grid : ∀ g, findGrid s k = some g → ∃ h, findGrid u k = some h ∧ h.unplaced = g.unplaced ∧ findCluster h c = findCluster g c
  team : ∀ g, findGrid s k = some g → ∀ m t, findTeam s m = some t → t.grid = k → t.clNo g = c → findTeam u m = some t

theorem SparesCluster.of_eq {s u : State} (ht : u.teams = s.teams) (hg : u.grids = s.grids) (k c : Nat) : SparesCluster k c s u where
  grid g h := ⟨g, (findGrid_congr hg k).trans h, rfl, rfl⟩
  team _ _ m _ h _ _ := (findTeam_congr ht m).trans h

theorem SparesCluster.trans {k c : Nat} {s u v : State} (hu : SparesCluster k c s u) (hv : SparesCluster k c u v) : SparesCluster k c s v where
  grid g hg := by
    obtain ⟨h, hh, he, hc⟩ := hu.grid g hg
    obtain ⟨i, hi, he', hc'⟩ := hv.grid h hh
    exact ⟨i, hi, he'.trans he, hc'.trans hc⟩
  team g hg m t ht hk hc := by
    obtain ⟨h, hh, he, -⟩ := hu.grid g hg
    exact hv.team h hh m t (hu.team g hg m t ht hk hc) hk ((clNo_of_unplaced he t).trans hc)

/-- Cores given to one cluster spare every other. -/
theorem giveCores_spares (s : State) {k c k' c' : Nat} (hne : (k', c') ≠ (k, c)) (phys : Nat) : SparesCluster k c s (giveCores s k' c' phys) := by
  cases hg : findGrid s k' with
  | none => exact .of_eq (by simp only [giveCores, hg]) (by simp only [giveCores, hg]) k c
  | some g =>
    cases hy : findCluster g c' with
    | none => exact .of_eq (by simp only [giveCores, hg, hy]) (by simp only [giveCores, hg, hy]) k c
    | some y =>
      obtain ⟨⟨fresh, hmine⟩, hother⟩ := findGrid_giveCores hg hy phys
      refine ⟨fun x hx => ?_, fun x hx m t ht hk hc => ?_⟩
      · by_cases hk : k = k'
        · subst hk
          cases hg.symm.trans hx
          exact ⟨_, hmine, rfl, by rw [findCluster_withCores, if_neg fun h => hne (by rw [h])]⟩
        · exact ⟨x, (hother k hk).trans hx, rfl, rfl⟩
      · rw [findTeam_giveCores hg hy, ht, Option.map_some, if_neg]
        rintro h
        obtain ⟨hk', hc'⟩ := (Bool.and_eq_true_iff).mp h
        have hkk : k = k' := hk.symm.trans (eq_of_beq hk')
        subst hkk
        cases hg.symm.trans hx
        exact hne (by rw [← hc, eq_of_beq hc'])

/-- What dropping an entry of the slice and giving its cluster cores keep, filling the slice keeps. -/
theorem fillSlice_of {P : State → Prop} {s : State} {die : Nat} (h : P s)
    (hdrop : ∀ u e, P u → P (updDie u die fun d => { d with sliceNext := d.sliceNext.erase e }))
    (hgive : ∀ u e f, e ∈ ((findDie s die).map (·.sliceNext)).getD [] → P u → P (giveSlice u die e.1 e.2 f)) : P (fillSlice s die) := by
  refine List.foldlRecOn _ _ h fun u hu e he => ?_
  dsimp only
  split
  · exact hdrop u e hu
  · split
    · exact hdrop u e hu
    · split
      · split
        · exact hgive u e _ he hu
        · exact hu
      · split
        · exact hu
        · exact hdrop u e hu

theorem fillSlice_spares {s : State} {k c die : Nat} (h : ∀ d, findDie s die = some d → (k, c) ∉ d.sliceNext) : SparesCluster k c s (fillSlice s die) := by
  refine fillSlice_of (P := SparesCluster k c s) (.of_eq (by rfl) (by rfl) k c) (fun u e hu => hu.trans (.of_eq (by rfl) (by rfl) k c)) fun u e f he hu => ?_
  refine hu.trans (.trans (u := updDie u die fun d => { d with sliceNext := d.sliceNext.erase (e.1, e.2), sliceFrom := u.cycle }) (.of_eq (by rfl) (by rfl) k c) ?_)
  refine giveCores_spares _ (fun hek => ?_) f
  cases hd : findDie s die with
  | none => simp [hd] at he
  | some d =>
    rw [hd] at he
    exact h d hd (hek ▸ he)

/-! ## The start of a team (R28, R150, R435) -/

theorem spindleRoles_length (g : Grid) : (spindleRoles g).length = g.spindles := by
  have hlen : ((g.roles.mapIdx fun r e => (List.range e.spt).map fun k => (r, k, e)).map List.length) = g.roles.map (·.spt) :=
    List.ext_getElem (by simp) (by simp)
  rw [spindleRoles, List.length_flatten, hlen, Grid.spindles]

theorem role_of_mem_spindleRoles {g : Grid} {e : Nat × Nat × RoleEnt} (h : e ∈ spindleRoles g) : e.2.2 ∈ g.roles := by
  simp only [spindleRoles, List.mem_flatten, List.mem_mapIdx] at h
  obtain ⟨_, ⟨r, hr, rfl⟩, hk⟩ := h
  obtain ⟨n, -, rfl⟩ := List.mem_map.mp hk
  exact List.getElem_mem hr

theorem mem_newSpindles {g : Grid} {turn : Nat} {p : Spindle} (h : p ∈ newSpindles g turn) :
    ∃ spx e, e.2.2 ∈ g.roles ∧ p = newSpindle g turn (spindleRoles g) spx e := by
  obtain ⟨i, hi, rfl⟩ := List.mem_mapIdx.mp h
  exact ⟨i, _, role_of_mem_spindleRoles (List.getElem_mem hi), rfl⟩

theorem newSpindle_sget (g : Grid) (turn : Nat) (l : List (Nat × Nat × RoleEnt)) (spx : Nat) (e : Nat × Nat × RoleEnt) (n : Nat) :
    sget (newSpindle g turn l spx e) n = if n = 0 then g.karg.setWidth 32 else if n = 1 then (g.karg >>> 32).setWidth 32 else 0 := by
  simp only [sget, newSpindle, mget_msetList]
  match n with
  | 0 => simp
  | 1 => simp
  | n + 2 => simp [mget]

theorem newSpindle_gen (g : Grid) (turn : Nat) (l : List (Nat × Nat × RoleEnt)) (spx : Nat) (e : Nat × Nat × RoleEnt) {th : Nat} (h : th < 8) :
    mget (newSpindle g turn l spx e).gen th = BitVec.ofNat 32 ((8 * spx + th + 1) * 0x9E3779B9) := by
  simp [newSpindle, mget_msetList, genStart, h]

theorem comeTo_waiting {g : Grid} {t : Team} (hmay : teamMayCome g t = true) (hst : t.st = .waiting) (die turn phys : Nat) :
    comeTo g die turn phys t = { startTeam g turn t with die := die, core := coreOf phys t.kix } := by
  simp only [comeTo, hmay, hst, Bool.not_true, Bool.false_eq_true, if_false, if_true]

/-- With no part that waits for yields, there is nothing to settle (R439). -/
theorem settleWaits_none {s : State} {k : Nat} {g : Grid} (hg : findGrid s k = some g) (h : ∀ p ∈ g.parts, p.waits = false) : settleWaits s k = s := by
  have hnone : (g.diesOf.filter fun d => g.parts.any fun p => p.die == d && p.waits) = [] := by
    refine List.filter_eq_nil_iff.mpr fun d _ => ?_
    rw [Bool.not_eq_true, List.any_eq_false]
    intro p hp
    simp [h p hp]
  simp only [settleWaits, hg, hnone, List.foldl_nil, ite_self]

/-- A cluster in place whose cores are free is given them (R435, R437). -/
theorem teamStart_home {s : State} {k c h : Nat} {g : Grid} {y : Cluster} (hg : findGrid s k = some g) (hy : findCluster g c = some y)
    (hup : latheUp s = true) (hw : ∀ p ∈ g.parts, p.waits = false) (hmay : mayPlace s g y = true) (hpre : mayPreempt s g y.die = false)
    (hh : y.home = some h) (hfree : placeFree s y.die h = true) : exec (.teamStart k c) s = .next (giveCores s k c h) := by
  change execTeamStart k c s = _
  simp only [execTeamStart, settleWaits_none hg hw, hg, hy, hup, hmay, hpre, hh, hfree]
  rfl

/-! ## Swaps and stops (R35, R400, R437, R440) -/

theorem backSec_quiet (s : State) (x : L1Sec) : (backSec s x).quiet = s.quiet := by
  have hdata : (passOn (writeMem (takeLine s (.l2 x.die) (lineOf x.sec)) x.owner x.sec x.data) (.l2 x.die) (lineOf x.sec)).quiet = s.quiet :=
    (passOn_quiet ..).trans ((writeMem_quiet ..).trans (takeLine_quiet ..))
  unfold backSec
  dsimp only
  split
  · exact hdata
  · exact hdata

theorem flushCore_board (s : State) (die core : Nat) : (flushCore s die core).board = s.board :=
  (board_of_quiet (foldl_keeps State.quiet backSec (fun s x => backSec_quiet s x) _ s) :)

theorem writeImage_board (s : State) (g : Grid) (c : Cluster) (t : Team) : (writeImage s g c t).board = s.board :=
  board_of_quiet (foldl_keeps State.quiet _ (fun _ _ => devSet_quiet ..) _ s)

theorem writeScratch_board (s : State) (g : Grid) (t : Team) : (writeScratch s g t).board = s.board := board_of_quiet (devSet_quiet ..)

theorem updGrid_setLr_board (s : State) (k : Nat) (f : Grid → Grid) (g : Grid) (off : Nat) (bs : List Byte) :
    (setLr (updGrid s k f) g off bs).board = (updGrid s k f).board := board_of_quiet (setLr_quiet ..)

theorem suspendTeam_board (s : State) (t : Team) : (suspendTeam s t).board = s.board := rfl

theorem mapTeams_board {s u : State} (h : u.board = s.board) (f : List Team → List Team) :
    ({ u with teams := f u.teams } : State).board = ({ s with teams := f s.teams } : State).board := by
  simp only [State.board, teams_of_board h, grids_of_board h, dies_of_board h]

/-- The resident teams of a cluster. -/
def residents (s : State) (g : Grid) (c : Nat) : List Team := (teamsOf s g c).filter fun t => t.st == .resident

theorem mem_teamsOf {s : State} {g : Grid} {c : Nat} {t : Team} : t ∈ teamsOf s g c ↔ t ∈ s.teams ∧ t.grid = g.id ∧ t.clNo g = c := by
  simp [teamsOf]

theorem mem_residents {s : State} {g : Grid} {c : Nat} {t : Team} : t ∈ residents s g c ↔ t ∈ teamsOf s g c ∧ t.st = .resident := by
  simp [residents]

theorem findTeam_mem {s : State} {m : Nat} {t : Team} (h : findTeam s m = some t) : t ∈ s.teams := List.mem_of_find?_eq_some h

/-- The teams of a cluster as its resident ones go out. -/
def State.teamsOut (s : State) (g : Grid) (c why : Nat) : State :=
  { s with teams := updWhere (fun t => ((residents s g c).map (·.id)).contains t.id) (outTeam why) s.teams }

theorem findTeam_teamsOut {s : State} {g : Grid} {c m : Nat} {t : Team} (ht : findTeam s m = some t) (hk : t.grid = g.id) (hc : t.clNo g = c)
    (hst : t.st = .resident) (why : Nat) : findTeam (s.teamsOut g c why) m = some (outTeam why t) := by
  have hin : ((residents s g c).map (·.id)).contains t.id = true :=
    List.contains_iff_mem.mpr (List.mem_map_of_mem (mem_residents.mpr ⟨mem_teamsOf.mpr ⟨findTeam_mem ht, hk, hc⟩, hst⟩))
  refine (find_updWhere_if Team.id _ _ m s.teams (by intro; rfl)).trans ?_
  rw [show s.teams.find? (fun x => x.id == m) = some t from ht, Option.map_some, if_pos hin]

/-- A cluster that has left its cores. -/
def Cluster.left (y : Cluster) : Cluster := { y with resident := false, stopping := false }

/-- A stopped cluster whose teams are drained is swapped out, and the slice's next clusters take its cores (R35). -/
theorem swapSave_board {s : State} {k c : Nat} {g : Grid} {y : Cluster} (hg : findGrid s k = some g) (hy : findCluster g c = some y)
    (hup : latheUp s = true) (hres : y.resident = true) (hstop : y.stopping = true) (hend : g.ended = false) (hab : g.st ≠ .aborting)
    (hsome : ∃ t ∈ teamsOf s g c, t.st = .resident)
    (hdrained : ∀ t ∈ teamsOf s g c, t.st = .resident → (∀ p ∈ t.spindles, spindleDrained s t p = true) ∧ teamOver t = false)
    (himage : ∀ t ∈ teamsOf s g c, imageUp s g t = true) :
    ∃ u, exec (.swapSave k c) s = .next (fillSlice u y.die) ∧
      u.board = (updGrid (updCluster (s.teamsOut g c y.why) k c Cluster.left) k fun g => { g with nswap := g.nswap + 1 }).board := by
  have hempty : (residents s g c).isEmpty = false := by
    obtain ⟨t, ht, hst⟩ := hsome
    exact List.isEmpty_eq_false_iff_exists_mem.mpr ⟨t, mem_residents.mpr ⟨ht, hst⟩⟩
  have hgo : ((residents s g c).all fun t => t.spindles.all (spindleDrained s t) && !teamOver t) = true := by
    refine List.all_eq_true.mpr fun t ht => ?_
    obtain ⟨hin, hst⟩ := mem_residents.mp ht
    obtain ⟨hsp, hover⟩ := hdrained t hin hst
    simp [List.all_eq_true.mpr hsp, hover]
  have hcond : ¬((!latheUp s) = true ∨ (!(y.resident && y.stopping)) = true ∨ g.ended = true ∨ g.st = .aborting ∨ (residents s g c).isEmpty = true ∨
      (!(residents s g c).all fun t => t.spindles.all (spindleDrained s t) && !teamOver t) = true ∨ (!(teamsOf s g c).all (imageUp s g)) = true) := by
    simp [hup, hres, hstop, hend, hab, hempty, hgo, List.all_eq_true.mpr himage]
  unfold residents at hcond
  change ∃ u, execSwapSave k c s = _ ∧ _
  simp only [execSwapSave, hg, hy]
  rw [if_neg hcond]
  refine ⟨_, rfl, ?_⟩
  refine (board_of_quiet (decision_quiet ..)).trans ((updGrid_setLr_board ..).trans (updGrid_board (updGrid_board ?_ k _) k _))
  refine (foldl_keeps State.board _ (fun s t => suspendTeam_board s t) _ _).trans (mapTeams_board ?_ _)
  refine (foldl_keeps State.board _ (fun s t => writeScratch_board s g t) _ _).trans ?_
  refine (foldl_keeps State.board _ (fun s t => writeImage_board s g y t) _ _).trans ?_
  refine foldl_keeps State.board _ (fun s t => ?_) _ s
  exact flushCore_board s t.die t.core

/-- A resident cluster as its issue stops. -/
def Cluster.stop (why : Nat) (y : Cluster) : Cluster := if y.resident && !y.stopping then { y with stopping := true, why := why } else y

theorem stop_cl (why : Nat) (y : Cluster) : (y.stop why).cl = y.cl := by
  unfold Cluster.stop
  split <;> rfl

/-- A stop touches its cluster alone. -/
theorem findGrid_stopCluster {s : State} {k : Nat} {g : Grid} (hg : findGrid s k = some g) (c why : Nat) :
    findGrid (stopCluster s k c why) k = some (g.updCluster c (Cluster.stop why)) := findGrid_updCluster hg c _

theorem findCluster_stop {g : Grid} {c : Nat} {y : Cluster} (hy : findCluster g c = some y) (why : Nat) :
    findCluster (g.updCluster c (Cluster.stop why)) c = some (y.stop why) := by
  rw [findCluster_updCluster _ _ _ _ (stop_cl why), if_pos rfl, hy, Option.map_some]

theorem stop_running {y : Cluster} (hres : y.resident = true) (hstop : y.stopping = false) (why : Nat) :
    y.stop why = { y with stopping := true, why := why } := if_pos (by simp [hres, hstop])

/-- A running cluster stops for a swap. -/
theorem stopCluster_running {s : State} {k c : Nat} {g : Grid} {y : Cluster} (hg : findGrid s k = some g) (hy : findCluster g c = some y)
    (hres : y.resident = true) (hstop : y.stopping = false) (why : Nat) :
    (stopCluster s k c why).teams = s.teams ∧ (stopCluster s k c why).mem = s.mem ∧ ∃ h z, findGrid (stopCluster s k c why) k = some h ∧
      findCluster h c = some z ∧ z.stopping = true ∧ z.why = why :=
  ⟨rfl, rfl, _, _, findGrid_stopCluster hg c why, findCluster_stop hy why, by rw [stop_running hres hstop], by rw [stop_running hres hstop]⟩

theorem swapParked_stops {s : State} {k c : Nat} {g : Grid} (hg : findGrid s k = some g) (hup : latheUp s = true) (hkeeps : g.keeps = true)
    (hsome : ∃ t ∈ teamsOf s g c, t.st = .resident ∧ ∃ p ∈ t.spindles, p.retired = false)
    (hparked : ∀ t ∈ teamsOf s g c, t.st = .resident → ∀ p ∈ t.spindles, p.retired = true ∨ ∃ a b d, p.st = .parked a b d) :
    exec (.clusterSwapParked k c) s = .next (stopCluster s k c 2) := by
  change execClusterSwapParked k c s = _
  simp only [execClusterSwapParked, hg]
  refine if_pos ?_
  have hmem {p : Spindle} : p ∈ (((teamsOf s g c).filter fun t => t.st == .resident).flatMap fun t => t.spindles.filter fun p => !p.retired) ↔
      ∃ t ∈ teamsOf s g c, t.st = .resident ∧ p ∈ t.spindles ∧ p.retired = false := by
    simp [and_assoc]
  simp only [Bool.and_eq_true, hup, hkeeps, true_and, List.all_eq_true, hmem]
  refine ⟨?_, ?_⟩
  · obtain ⟨t, ht, hst, p, hp, hret⟩ := hsome
    rw [Bool.not_eq_true']
    exact List.isEmpty_eq_false_iff_exists_mem.mpr ⟨p, hmem.mpr ⟨t, ht, hst, hp, hret⟩⟩
  · rintro p ⟨t, ht, hst, hp, hret⟩
    obtain ⟨a, b, d, hpark⟩ := (hparked t ht hst p hp).resolve_left (by simp [hret])
    rw [hpark]

theorem graceExpiry_stops {s : State} {k c : Nat} {g : Grid} {y : Cluster} (hg : findGrid s k = some g) (hy : findCluster g c = some y)
    (hup : latheUp s = true) (hres : y.resident = true) (hst : g.st = .yielding) (hlive : clusterLive s g c = true)
    (hgrace : (let us := ((findQueue s g.queue).map (·.grace)).getD 0; (if us = 0 then 50 else us) * 1200 ≤ y.grace)) :
    exec (.graceExpiry k c) s = .next (stopCluster s k c 1) := by
  change execGraceExpiry k c s = _
  simp only [execGraceExpiry, hg, hy]
  exact if_pos (by simp only [hup, hst, hres, hlive, beq_self_eq_true, Bool.and_true, Bool.true_and]; exact decide_eq_true hgrace)

/-! ## Retirement and completion (R39, R437) -/

/-- A team that is over retires, or exits for the yield that it saw (R437). -/
def State.retire (s : State) (m : Nat) (t : Team) (g : Grid) : State :=
  if g.st = .yielding ∧ t.sawYield then suspendTeam (updTeam s m fun t => { t with st := .yieldExited }) t
  else
    setLr (updGrid (updTeam s m fun t => { t with st := .retired }) t.grid fun g => { g with nret := g.nret + 1 }) g 0xAC (natBytes (g.nret + 1) 4)

/-- A team of no lost die that is over retires; its cluster's cores are free with the last one (R437). -/
theorem teamRetire_retires {s : State} {m : Nat} {t : Team} {g : Grid} (ht : findTeam s m = some t) (hg : findGrid s t.grid = some g)
    (hup : latheUp s = true) (hst : t.st = .resident) (hover : teamOver t = true) (hend : g.ended = false) (hab : g.st ≠ .aborting)
    (hlost : teamLost s g t = false) :
    let u := dropChuck (s.retire m t g) t.die t.core
    exec (.teamRetire m) s = .next u ∨ exec (.teamRetire m) s = .next (fillSlice (updCluster u t.grid (t.clNo g) Cluster.left) t.die) := by
  have hcond : ¬((!latheUp s) = true ∨ t.st ≠ .resident ∨ (!teamOver t) = true ∨ g.ended = true ∨ g.st = .aborting ∨ teamLost s g t = true) := by
    simp [hup, hst, hover, hend, hab, hlost]
  intro u
  have hexec : exec (.teamRetire m) s = .next (if (teamsOf u g (t.clNo g)).any fun u => u.st == .resident then u
      else fillSlice (updCluster u t.grid (t.clNo g) Cluster.left) t.die) := by
    change execTeamRetire m s = _
    simp only [execTeamRetire, ht, hg]
    exact if_neg hcond
  rw [hexec]
  split
  · exact .inl rfl
  · exact .inr rfl

/-- The retired team, its launch, and the dies as they were. -/
theorem retire_spec {s : State} {m : Nat} {t : Team} {g : Grid} (ht : findTeam s m = some t) (hg : findGrid s t.grid = some g) :
    (s.retire m t g).dies = s.dies ∧ ∃ v h, findTeam (s.retire m t g) m = some v ∧ findGrid (s.retire m t g) t.grid = some h ∧
      v.grid = t.grid ∧ v.clNo h = t.clNo g ∧
      if g.st = .yielding ∧ t.sawYield = true then v = { t with st := .yieldExited } ∧ h.nret = g.nret
      else v = { t with st := .retired } ∧ h.nret = g.nret + 1 := by
  have hteam (st : TeamSt) : findTeam (updTeam s m fun t => { t with st := st }) m = some { t with st := st } := by
    rw [findTeam_updTeam _ _ _ _ (by intro; rfl), if_pos rfl, ht, Option.map_some]
  unfold State.retire
  split
  · exact ⟨rfl, _, _, hteam _, hg, rfl, rfl, rfl, rfl⟩
  · have hboard := updGrid_setLr_board (updTeam s m fun t => { t with st := .retired }) t.grid (fun g => { g with nret := g.nret + 1 }) g 0xAC
      (natBytes (g.nret + 1) 4)
    refine ⟨(dies_of_board hboard :), _, { g with nret := g.nret + 1 }, (findTeam_congr (teams_of_board hboard) m).trans (hteam _), ?_, rfl, rfl, rfl, rfl⟩
    rw [findGrid_congr (grids_of_board hboard)]
    exact findGrid_updGrid_of hg (by intro; rfl)

theorem dropRefs_teams (s : State) (k : Nat) : (dropRefs s k).teams = s.teams := by
  refine foldl_keeps State.teams _ (fun _ _ => ?_) _ s
  rfl

/-- A launch that gives back its references keeps everything else (R327). -/
theorem findGrid_dropRefs {s : State} {k : Nat} {g : Grid} (hg : findGrid s k = some g) : findGrid (dropRefs s k) k = some { g with refs := [] } := by
  refine findGrid_updGrid_of ?_ (by intro; rfl)
  rw [← hg]
  refine findGrid_congr (foldl_keeps State.grids _ (fun _ _ => ?_) _ s) k
  rfl

/-- The end of a launch (R39, R436). -/
theorem endGrid_spec {s : State} {k : Nat} {g : Grid} (hg : findGrid s k = some g) (st : GridSt) (status type : Nat) :
    (endGrid s g st status type).teams = s.teams ∧ findGrid (endGrid s g st status type) k = some { g with st := st, refs := [] } := by
  obtain rfl := findGrid_id hg
  have hboard : (decisionOf (completionBo (gridTo (setLr s g 0x98 (toBytes s.cycle 8)) g.id st) g status) g type 0 0).board =
      (updGrid s g.id fun g => { g with st := st }).board := by
    refine (board_of_quiet ((decisionOf_quiet ..).trans ((completionBo_quiet ..).trans (gridTo_quiet ..)))).trans ?_
    exact updGrid_board (board_of_quiet (setLr_quiet ..)) g.id _
  refine ⟨(dropRefs_teams ..).trans (teams_of_board hboard :), ?_⟩
  refine findGrid_dropRefs (g := { g with st := st }) ((findGrid_congr (grids_of_board hboard) g.id).trans ?_)
  exact findGrid_updGrid_of hg (by intro; rfl)

/-- A launch completes when its teams are retired and drained (R39). -/
theorem gridComplete_ends {s : State} {k : Nat} {g : Grid} (hg : findGrid s k = some g) (hup : latheUp s = true) (hst : g.st = .running)
    (hlost : ∀ p ∈ g.parts, ((findDie s p.die).map (·.lost)).getD false = false)
    (hover : ∀ t ∈ gridTeams s k, t.st = .retired ∧ ∀ p ∈ t.spindles, drained p = true) :
    exec (.gridComplete k) s = .next (endGrid s g .complete 0 9) := by
  have hany : (g.parts.any fun p => ((findDie s p.die).map (·.lost)).getD false) = false :=
    List.any_eq_false.mpr fun p hp => by rw [hlost p hp]; decide
  have hall : (((gridTeams s k).filter fun t => !teamLost s g t).all fun t => t.st == .retired && t.spindles.all drained) = true := by
    refine List.all_eq_true.mpr fun t ht => ?_
    obtain ⟨hret, hsp⟩ := hover t (List.mem_of_mem_filter ht)
    simpa [hret] using hsp
  change execGridComplete k s = _
  simp only [execGridComplete, hg, hany, Bool.false_eq_true, if_false]
  exact if_neg (by simp only [hup, hall, hst]; decide)

/-! ## Slices (R34, R438) -/

/-- The places kept for a launch's clusters, with their dies. -/
def Grid.homes (g : Grid) : List (Nat × Option Nat) := g.clusters.map fun c => (c.die, c.home)

def State.homes (s : State) : List (List (Nat × Option Nat)) := s.grids.map Grid.homes

/-- No cluster of a die has a place of its own: all are time-sliced. -/
def NoHomes (s : State) (die : Nat) : Prop := ∀ g ∈ s.grids, ∀ c ∈ g.clusters, c.die = die → c.home = none

theorem noHomes_iff (s : State) (die : Nat) : NoHomes s die ↔ ∀ l ∈ s.homes, ∀ e ∈ l, e.1 = die → e.2 = none := by
  simp only [NoHomes, State.homes, Grid.homes, List.forall_mem_map]

theorem NoHomes.of_eq {s u : State} {die : Nat} (h : NoHomes s die) (e : u.homes = s.homes) : NoHomes u die := by
  rw [noHomes_iff] at h ⊢
  rwa [e]

theorem updCluster_homes (s : State) (k c : Nat) (f : Cluster → Cluster) (hf : ∀ x, ((f x).die, (f x).home) = (x.die, x.home)) :
    (updCluster s k c f).homes = s.homes := by
  refine map_updWhere Grid.homes _ _ (fun g => ?_) s.grids
  exact map_updWhere (fun c => (c.die, c.home)) _ f hf g.clusters

theorem stopCluster_homes (s : State) (k c why : Nat) : (stopCluster s k c why).homes = s.homes := by
  refine updCluster_homes s k c _ fun x => ?_
  split <;> rfl

theorem withCores_homes (c phys die : Nat) (fresh starts : Bool) (g : Grid) : (g.withCores c phys die fresh starts).homes = g.homes := by
  refine map_updWhere (fun c : Cluster => (c.die, c.home)) _ _ (fun _ => ?_) g.clusters
  rfl

theorem giveCores_homes (s : State) (k c phys : Nat) : (giveCores s k c phys).homes = s.homes := by
  cases hg : findGrid s k with
  | none => simp only [giveCores, hg]
  | some g =>
    cases hy : findCluster g c with
    | none => simp only [giveCores, hg, hy]
    | some y =>
      obtain ⟨fresh, h⟩ := giveCores_board hg hy phys
      refine (congrArg (List.map Grid.homes) (grids_of_board h)).trans ?_
      exact map_updWhere Grid.homes _ _ (fun g => withCores_homes ..) s.grids

theorem fillSlice_homes (s : State) (die : Nat) : (fillSlice s die).homes = s.homes :=
  fillSlice_of (P := fun u => u.homes = s.homes) rfl (fun _ _ h => h) fun _ _ _ _ h => (giveCores_homes ..).trans h

/-- Without a place of its own no cluster comes back outside its slice. -/
theorem restoreHomes_none {s : State} {die : Nat} (h : NoHomes s die) : restoreHomes s die = s := by
  have hnil : (s.grids.flatMap fun g => (g.clusters.filter fun c => c.die == die && c.home.isSome).map fun c => (g.id, c.cl)) = [] := by
    refine List.flatMap_eq_nil_iff.mpr fun g hg => List.map_eq_nil_iff.mpr (List.filter_eq_nil_iff.mpr fun c hc => ?_)
    intro hcd
    obtain ⟨hd, hsome⟩ := Bool.and_eq_true_iff.mp hcd
    rw [h g hg c hc (eq_of_beq hd)] at hsome
    cases hsome
  unfold restoreHomes
  rw [hnil, List.foldl_nil]

theorem keptHomes_none {s : State} {die : Nat} (h : NoHomes s die) : keptHomes s die = [] := by
  have hnil : (s.grids.flatMap fun g => if !g.keeps then [] else g.clusters.flatMap fun c =>
      if c.die = die ∧ clusterLive s g c.cl then c.home.toList else []) = [] := by
    refine List.flatMap_eq_nil_iff.mpr fun g hg => ?_
    split
    · rfl
    · refine List.flatMap_eq_nil_iff.mpr fun c hc => ?_
      split
      · next hd => rw [h g hg c hc hd.1, Option.toList_none]
      · rfl
  unfold keptHomes
  rw [hnil, List.dedup_nil]

/-- A launch that was not demoted is not promoted. -/
theorem promote_none {s : State} (die : Nat) {k : Nat} (h : ∀ g ∈ s.grids, ∀ p ∈ g.parts, p.demoted = false) : promote die s k = s := by
  unfold promote
  split
  · rfl
  · next g hg =>
    have hany : (g.parts.any fun p => p.die == die && p.demoted) = false :=
      List.any_eq_false.mpr fun p hp => by simp [h g (List.mem_of_find?_eq_some hg) p hp]
    rw [if_pos (by simp [hany])]

/-- Where the last slice's cluster stands, by die. -/
def State.sliceAts (s : State) : List (Nat × Option (Nat × Nat)) := s.dies.map fun d => (d.id, d.sliceAt)

theorem findDie_of_sliceAts {s u : State} (h : u.sliceAts = s.sliceAts) {die : Nat} {d : Die} (hd : findDie s die = some d) :
    ∃ c, findDie u die = some c ∧ c.sliceAt = d.sliceAt := by
  have hmap (v : State) : (findDie v die).map (fun d => (d.id, d.sliceAt)) = v.sliceAts.find? fun e => e.1 == die := by
    simp only [findDie, State.sliceAts, List.find?_map]
    rfl
  have hm := (hmap u).trans ((congrArg _ h).trans (hmap s).symm)
  rw [hd, Option.map_some] at hm
  obtain ⟨c, hc, he⟩ := Option.map_eq_some_iff.mp hm
  exact ⟨c, hc, congrArg Prod.snd he⟩

theorem updDie_sliceAts (s : State) (die : Nat) (f : Die → Die) (hf : ∀ d, ((f d).id, (f d).sliceAt) = (d.id, d.sliceAt)) :
    (updDie s die f).sliceAts = s.sliceAts := map_updWhere _ _ f hf s.dies

theorem giveCores_sliceAts (s : State) (k c phys : Nat) : (giveCores s k c phys).sliceAts = s.sliceAts :=
  congrArg (List.map _) (giveCores_dies s k c phys)

theorem fillSlice_sliceAts (s : State) (die : Nat) : (fillSlice s die).sliceAts = s.sliceAts :=
  fillSlice_of (P := fun u => u.sliceAts = s.sliceAts) rfl (fun u _ h => (updDie_sliceAts u die _ (by intro; rfl)).trans h)
    fun u _ _ _ h => (giveCores_sliceAts ..).trans ((updDie_sliceAts u die _ (by intro; rfl)).trans h)

/-- A cluster of a launch is there and has a property. -/
def ClusterIs (Q : Cluster → Prop) (e : Nat × Nat) (s : State) : Prop := ∃ g y, findGrid s e.1 = some g ∧ findCluster g e.2 = some y ∧ Q y

/-- Stopping any cluster keeps what stopping a cluster keeps. -/
theorem ClusterIs.stopCluster {Q : Cluster → Prop} {why : Nat} (hQ : ∀ y, Q y → Q (y.stop why)) {e : Nat × Nat} {s : State} (h : ClusterIs Q e s)
    (k c : Nat) : ClusterIs Q e (stopCluster s k c why) := by
  obtain ⟨g, y, hg, hy, hq⟩ := h
  by_cases hk : e.1 = k
  · subst hk
    by_cases hc : e.2 = c
    · subst hc
      exact ⟨_, _, findGrid_stopCluster hg e.2 why, findCluster_stop hy why, hQ y hq⟩
    · exact ⟨_, y, findGrid_stopCluster hg c why, by rw [findCluster_updCluster _ _ _ _ (stop_cl why), if_neg hc, hy], hq⟩
  · exact ⟨g, y, (findGrid_updGrid_ne s hk (by intro; rfl)).trans hg, hy, hq⟩

theorem SparesCluster.clusterIs {Q : Cluster → Prop} {e : Nat × Nat} {s u : State} (h : SparesCluster e.1 e.2 s u) (hs : ClusterIs Q e s) : ClusterIs Q e u := by
  obtain ⟨g, y, hg, hy, hq⟩ := hs
  obtain ⟨i, hi, -, hc⟩ := h.grid g hg
  exact ⟨i, y, hi, hc.trans hy, hq⟩

/-- Is a cluster resident, its issue not stopped? -/
def runsNow (s : State) (e : Nat × Nat) : Bool :=
  (((findGrid s e.1).bind fun g => findCluster g e.2).map fun c => c.resident && !c.stopping).getD false

/-- A running cluster that is not of the next slice stops. -/
def stopOther (slots : List (Nat × Nat)) (s : State) (e : Nat × Nat) : State :=
  if runsNow s e && !slots.contains e then stopCluster s e.1 e.2 0 else s

theorem ClusterIs.stopOther {Q : Cluster → Prop} (hQ : ∀ y, Q y → Q (y.stop 0)) {e : Nat × Nat} {s : State} (h : ClusterIs Q e s)
    (slots : List (Nat × Nat)) (e' : Nat × Nat) : ClusterIs Q e (stopOther slots s e') := by
  unfold Machine.stopOther
  split
  · exact h.stopCluster hQ e'.1 e'.2
  · exact h

theorem stop_resident (why : Nat) (y : Cluster) (h : y.resident = true) : (y.stop why).resident = true := by
  unfold Cluster.stop
  split <;> exact h

theorem stop_stopping (why : Nat) (y : Cluster) (h : y.stopping = true) : (y.stop why).stopping = true := by
  unfold Cluster.stop
  split
  · rfl
  · exact h

/-- A resident cluster outside the slice is stopping, at the latest once its turn has come. -/
theorem stopOther_stops {slots : List (Nat × Nat)} {s : State} {e : Nat × Nat} (he : e ∉ slots) (h : ClusterIs (fun y => y.resident = true) e s) :
    ClusterIs (fun y => y.stopping = true) e (stopOther slots s e) := by
  obtain ⟨g, y, hg, hy, hres⟩ := h
  have hruns : runsNow s e = !y.stopping := by simp [runsNow, hg, hy, hres]
  have hnot : slots.contains e = false := by simpa using he
  unfold stopOther
  rw [hruns, hnot]
  cases hstop : y.stopping with
  | true => exact ⟨g, y, hg, hy, hstop⟩
  | false => exact ⟨_, _, findGrid_stopCluster hg e.2 0, findCluster_stop hy 0, by rw [stop_running hres hstop]⟩

theorem stopOthers_stops {slots order : List (Nat × Nat)} {s : State} {e : Nat × Nat} (hin : e ∈ order) (he : e ∉ slots)
    (h : ClusterIs (fun y => y.resident = true) e s) : ClusterIs (fun y => y.stopping = true) e (order.foldl (stopOther slots) s) := by
  obtain ⟨l, r, rfl⟩ := List.append_of_mem hin
  rw [List.foldl_append, List.foldl_cons]
  refine List.foldlRecOn r _ (stopOther_stops he ?_) fun u hu x _ => hu.stopOther (stop_stopping 0) slots x
  exact List.foldlRecOn l _ h fun u hu x _ => hu.stopOther (stop_resident 0) slots x

/-- A die's next slice begins: the clusters outside it stop. -/
def State.turnSlice (s : State) (die : Nat) (slots : List (Nat × Nat)) : State :=
  let u := (sliceOrder s die).foldl (stopOther slots) s
  updDie u die fun d => { d with sliceAt := slots.getLast?.or d.sliceAt, sliceNext := slots.filter fun e => !runsNow u e, sliceFrom := u.cycle }

theorem stopOther_keeps {γ : Type} (view : State → γ) (h : ∀ s k c, view (stopCluster s k c 0) = view s) (slots order : List (Nat × Nat)) (s : State) :
    view (order.foldl (stopOther slots) s) = view s := by
  refine foldl_keeps view _ (fun s e => ?_) order s
  unfold stopOther
  split
  · exact h s e.1 e.2
  · rfl

/-- On a die where every cluster is time-sliced and none is to be promoted, the end of a slice turns to the next one (R438). -/
theorem sliceEnd_turns {s : State} {die : Nat} (hup : latheUp s = true) (hdie : dieUp s die = true) (hover : sliceOver s die = true)
    (hhome : NoHomes s die) (hdem : ∀ g ∈ s.grids, ∀ p ∈ g.parts, p.demoted = false) :
    exec (.sliceEnd die) s = .next (fillSlice (s.turnSlice die (nextSlice s die 16)) die) := by
  have hprom : (s.grids.map (·.id)).foldl (promote die) s = s := List.foldl_fixed' (fun k => promote_none die hdem) _
  have hkeep : NoHomes (fillSlice (s.turnSlice die (nextSlice s die 16)) die) die :=
    hhome.of_eq ((fillSlice_homes ..).trans (stopOther_keeps State.homes (fun s k c => stopCluster_homes s k c 0) _ _ s))
  rw [← restoreHomes_none hkeep]
  change execSliceEnd die s = _
  have hcond : ¬((!latheUp s) = true ∨ (!dieUp s die) = true ∨ (!sliceOver s die) = true) := by simp [hup, hdie, hover]
  have hin : ((sliceOrder s die).any (takesPart s) && decide (16 ≤ (keptHomes s die).length)) = false := by simp [keptHomes_none hhome]
  unfold execSliceEnd
  rw [if_neg hcond]
  simp only [hprom, hin, Bool.false_eq_true, if_false]
  simp only [keptHomes_none hhome, List.length_nil, Nat.sub_zero]
  rfl

/-- What the turn of a slice leaves: the place in the round, and the clusters outside the slice stopping. -/
theorem turnSlice_spec {s : State} {die : Nat} {d : Die} (hd : findDie s die = some d) (slots : List (Nat × Nat)) :
    (∃ c, findDie (fillSlice (s.turnSlice die slots) die) die = some c ∧ c.sliceAt = slots.getLast?.or d.sliceAt) ∧
      ∀ e ∈ sliceOrder s die, e ∉ slots → ClusterIs (fun y => y.resident = true) e s →
        ClusterIs (fun y => y.stopping = true) e (fillSlice (s.turnSlice die slots) die) := by
  have hkept : findDie ((sliceOrder s die).foldl (stopOther slots) s) die = some d :=
    (findDie_congr (stopOther_keeps State.dies (fun _ _ _ => rfl) slots _ s) die).trans hd
  have hturn : ∃ c, findDie (s.turnSlice die slots) die = some c ∧ c.sliceAt = slots.getLast?.or d.sliceAt ∧ ∀ e ∈ c.sliceNext, e ∈ slots := by
    have hfind := findDie_updDie ((sliceOrder s die).foldl (stopOther slots) s) die die (fun d =>
      { d with sliceAt := slots.getLast?.or d.sliceAt, sliceNext := slots.filter fun e => !runsNow ((sliceOrder s die).foldl (stopOther slots) s) e,
               sliceFrom := ((sliceOrder s die).foldl (stopOther slots) s).cycle }) (by intro; rfl)
    rw [if_pos rfl, hkept, Option.map_some] at hfind
    exact ⟨_, hfind, rfl, fun e he => List.mem_of_mem_filter he⟩
  obtain ⟨c, hc, hat, hnext⟩ := hturn
  refine ⟨?_, fun e hin he hres => ?_⟩
  · obtain ⟨c', hc', hat'⟩ := findDie_of_sliceAts (fillSlice_sliceAts (s.turnSlice die slots) die) hc
    exact ⟨c', hc', hat'.trans hat⟩
  · have hstop : ClusterIs (fun y => y.stopping = true) e (s.turnSlice die slots) := stopOthers_stops hin he hres
    refine SparesCluster.clusterIs (fillSlice_spares fun d' hd' hmem => he (hnext e ?_)) hstop
    rw [hc] at hd'
    cases hd'
    exact hmem

/-! ## Link shares (R325, R443) -/

/-- A launch without the mark of R325. -/
def Grid.unheld (g : Grid) : Grid := { g with held := false }

/-- A tenant's share follows from what the queues, the launches and SET_SHARE say. -/
theorem shareOf_congr {s u : State} (hl : u.lathe.shares = s.lathe.shares) (hq : u.queues.map Queue.unlogged = s.queues.map Queue.unlogged)
    (hg : u.grids.map Grid.unheld = s.grids.map Grid.unheld) (ten : Nat) : shareOf u ten = shareOf s ten := by
  have hqueues (v : State) : ((v.queues.filter fun q => q.armed && q.tenant == ten).map (·.share)) =
      (((v.queues.map Queue.unlogged).filter fun q => q.armed && q.tenant == ten).map (·.share)) := by
    simp [List.filter_map, Function.comp_def, Queue.unlogged]
  have hgrids (v : State) : ((v.grids.filter fun g => g.live && g.tenant == ten).map (·.share)) =
      (((v.grids.map Grid.unheld).filter fun g => g.live && g.tenant == ten).map (·.share)) := by
    simp [List.filter_map, Function.comp_def, Grid.unheld, Grid.live, Grid.ended]
  simp only [shareOf, hqueues, hgrids, hl, hq, hg]

/-- Has a tenant exceeded its share, by the count that a draw gives (log 26)? -/
def overShare (s : State) (draw ten : Nat) : Bool := decide (shareOf s ten ≠ 0 ∧ shareOf s ten * 1024 < (Config.freeWord draw).toNat)

/-- The launches that a tenant's count holds back, or does not. -/
def holdTenant (isOver : Bool) (ten : Nat) (l : List Grid) : List Grid := updWhere (fun g => g.live && g.tenant == ten) (fun g => { g with held := isOver }) l

/-- The count of one tenant at the end of a window. -/
def countShare (s : State) (ten : Nat) : State :=
  let n := (Config.freeWord s.freeNo).toNat
  let isOver := overShare s s.freeNo ten
  let u := { s with freeNo := s.freeNo + 1, grids := holdTenant isOver ten s.grids,
                    lathe := { s.lathe with held := if isOver then ten :: s.lathe.held else s.lathe.held } }
  if isOver then (u.grids.filter fun g => g.live && g.tenant == ten).foldl (fun s g => decisionOf s g 3 0 (n / 1024)) u else u

theorem countShare_quiet (s : State) (ten : Nat) : (countShare s ten).quiet =
    ({ s with grids := holdTenant (overShare s s.freeNo ten) ten s.grids,
              lathe := { s.lathe with held := if overShare s s.freeNo ten then ten :: s.lathe.held else s.lathe.held } } : State).quiet := by
  unfold countShare
  dsimp only
  split
  · refine (foldl_keeps State.quiet _ (fun _ _ => decisionOf_quiet ..) _ _).trans ?_
    rfl
  · rfl

/-- What one tenant's count changes: its launches and whether the window holds it back. -/
theorem countShare_spec (s : State) (ten : Nat) : (countShare s ten).teams = s.teams ∧ (countShare s ten).lathe.window = s.lathe.window ∧
    (countShare s ten).grids = holdTenant (overShare s s.freeNo ten) ten s.grids ∧
    (countShare s ten).lathe.held = (if overShare s s.freeNo ten then ten :: s.lathe.held else s.lathe.held) ∧
    ∀ k, shareOf (countShare s ten) k = shareOf s k := by
  have h := countShare_quiet s ten
  have hgrids : (countShare s ten).grids = holdTenant (overShare s s.freeNo ten) ten s.grids := (congrArg State.grids h :)
  refine ⟨(congrArg State.teams h :), (congrArg (·.lathe.window) h :), hgrids, (congrArg (·.lathe.held) h :),
    shareOf_congr (congrArg (·.lathe.shares) h :) (congrArg State.queues h :) ?_⟩
  exact (congrArg (List.map Grid.unheld) hgrids).trans (map_updWhere Grid.unheld _ _ (by intro; rfl) s.grids)

/-- A launch after the counts of some tenants, each by its own draw. -/
def holdBy (s : State) (l : List Nat) (draw : Nat → Nat) (g : Grid) : Grid :=
  if g.live && l.contains g.tenant then { g with held := overShare s (draw g.tenant) g.tenant } else g

theorem holdBy_cons {s u : State} {ten : Nat} {l : List Nat} (hnot : ten ∉ l) (hshare : ∀ k, shareOf u k = shareOf s k) (first : Nat) (draw : Nat → Nat)
    (g : Grid) : holdBy u l draw (if g.live && g.tenant == ten then { g with held := overShare s first ten } else g) =
      holdBy s (ten :: l) (fun k => if k = ten then first else draw k) g := by
  have hover (d k : Nat) : overShare u d k = overShare s d k := by simp only [overShare, hshare]
  by_cases hten : g.tenant = ten
  · subst hten
    cases hlive : g.live with
    | false => simp [holdBy, hlive]
    | true =>
      rw [if_pos (by simp), holdBy, if_neg (by simp [hnot]), holdBy, if_pos (by simp [hlive]), if_pos rfl]
  · rw [if_neg (by simp [hten])]
    simp only [holdBy, hover, List.contains_cons, beq_false_of_ne hten, Bool.false_or, if_neg hten]

/-- The counts of some tenants: whom they hold back. -/
theorem countShares_spec {l : List Nat} (hl : l.Nodup) (s : State) :
    (l.foldl countShare s).teams = s.teams ∧ (l.foldl countShare s).lathe.window = s.lathe.window ∧
      ∃ draw, (l.foldl countShare s).grids = s.grids.map (holdBy s l draw) ∧
        ∀ k, k ∈ (l.foldl countShare s).lathe.held ↔ (k ∈ l ∧ overShare s (draw k) k = true) ∨ k ∈ s.lathe.held := by
  induction l generalizing s with
  | nil =>
    have hid : holdBy s [] id = id := funext fun g => if_neg (by simp)
    exact ⟨rfl, rfl, id, by rw [hid, List.map_id]; rfl, by simp⟩
  | cons ten l ih =>
    obtain ⟨hnot, hnodup⟩ := List.nodup_cons.mp hl
    obtain ⟨hteam, hwin, hgrid, hhold, hshare⟩ := countShare_spec s ten
    obtain ⟨hteams, hwindow, draw, hgrids, hheld⟩ := ih hnodup (countShare s ten)
    have hover (d k : Nat) : overShare (countShare s ten) d k = overShare s d k := by simp only [overShare, hshare]
    refine ⟨hteams.trans hteam, hwindow.trans hwin, fun k => if k = ten then s.freeNo else draw k, ?_, fun k => ?_⟩
    · rw [List.foldl_cons, hgrids, hgrid, holdTenant, updWhere, List.map_map]
      refine List.map_congr_left fun g _ => ?_
      exact holdBy_cons hnot hshare s.freeNo draw g
    · rw [List.foldl_cons, hheld, hhold]
      by_cases hk : k = ten
      · subst hk
        cases ho : overShare s s.freeNo k <;> simp [hnot, ho]
      · cases ho : overShare s s.freeNo ten <;> simp [hk, hover]

/-- The next window opens: nobody is held back yet. -/
def State.openWindow (s : State) : State :=
  { s with grids := s.grids.map Grid.unheld,
           lathe := { s.lathe with held := [], window := shareWindow s, active := residentTenants s } }

theorem openWindow_share (s : State) (ten : Nat) : shareOf s.openWindow ten = shareOf s ten := by
  refine shareOf_congr (by rfl) (by rfl) ?_ ten
  simp [State.openWindow, Grid.unheld]

theorem shareWindowEnd_counts {s : State} (hup : latheUp s = true) (hw : s.lathe.window < shareWindow s) :
    exec .shareWindowEnd s = .next (s.lathe.active.dedup.foldl countShare s.openWindow) := by
  change execShareWindowEnd s = _
  unfold execShareWindowEnd
  rw [if_neg (by simp [hup, hw])]
  rfl

/-- A launch at the end of a window: held back where its tenant exceeded its share. -/
theorem holdBy_unheld {s : State} {l : List Nat} {draw : Nat → Nat} {g : Grid} (hend : g.ended = false) :
    holdBy s l draw g.unheld = { g with held := decide (g.tenant ∈ l) && overShare s (draw g.tenant) g.tenant } := by
  have hlive : g.unheld.live = true := congrArg not hend
  have hten : g.unheld.tenant = g.tenant := rfl
  by_cases hin : g.tenant ∈ l
  · rw [holdBy, if_pos (by simp [hlive, hten, hin]), decide_eq_true hin, Bool.true_and]
    rfl
  · rw [holdBy, if_neg (by simp [hten, hin]), decide_eq_false hin, Bool.false_and]
    rfl

theorem holdBy_id (s : State) (l : List Nat) (draw : Nat → Nat) (g : Grid) : (holdBy s l draw g).id = g.id := by
  unfold holdBy
  split <;> rfl

theorem holdBy_unheld_ended {s : State} {l : List Nat} {draw : Nat → Nat} {g : Grid} (h : (holdBy s l draw g.unheld).ended = false) : g.ended = false := by
  unfold holdBy at h
  split at h <;> exact h

end Sys2Proof.Machine
end

section
open Sys2Proof Sys2Proof.Machine

/-- Settles O58, event by event: what each changes of its own launch and cluster, and that the slice which it then fills spares them. -/
theorem residency : Obligations.Residency := by
  unfold Obligations.Residency
  refine ⟨?_, ?_, ?_, ?_, ?_, ?_, ?_⟩
  -- the start of waiting teams (R28, R150, R435)
  · intro s k c g y h hg hy hup hw hmay hpre hh hfree hst
    obtain ⟨⟨fresh, hmine⟩, -⟩ := findGrid_giveCores hg hy h
    refine ⟨_, _, _, teamStart_home hg hy hup hw hmay hpre hh hfree, hmine, ?_, by rw [findCluster_withCores, if_pos rfl, hy, Option.map_some], rfl, rfl, ?_⟩
    · rcases hst with hst | hst <;> simp [Grid.withCores, hst, Grid.updCluster]
    · intro m t ht hk hc hwait
      have hcome : teamMayCome g t = true := by rcases hst with hst | hst <;> simp [teamMayCome, hwait, hst]
      refine ⟨_, by rw [findTeam_giveCores hg hy, ht, Option.map_some, if_pos (by simp [hk, hc]), comeTo_waiting hcome hwait], rfl, rfl, rfl, rfl, rfl, rfl,
        rfl, rfl, fun b hb => List.eq_of_mem_replicate hb, ?_, fun p hp => ?_⟩
      · exact (List.length_mapIdx ..).trans (spindleRoles_length g)
      · obtain ⟨spx, e, he, rfl⟩ := mem_newSpindles hp
        exact ⟨e.2.2, he, _, rfl, rfl, rfl, rfl, fun _ _ => rfl, newSpindle_sget g _ _ spx e, fun _ _ => BitVec.getLsbD_zero, fun th => newSpindle_gen g _ _ spx e,
          rfl, fun _ => rfl, rfl, rfl, rfl, rfl, rfl, rfl⟩
  -- a swap (R35)
  · intro s k c g y hg hy hup hres hstop hend hab hsome hdrained hslice himage
    obtain ⟨u, hexec, hboard⟩ := swapSave_board hg hy hup hres hstop hend hab hsome hdrained himage
    obtain ⟨hu, hcl, hteams⟩ : findGrid u k = some { g.updCluster c Cluster.left with nswap := g.nswap + 1 } ∧
        findCluster (g.updCluster c Cluster.left) c = some y.left ∧ ∀ m, findTeam u m = findTeam (s.teamsOut g c y.why) m := by
      refine ⟨?_, ?_, findTeam_congr (teams_of_board hboard :)⟩
      · rw [findGrid_congr (grids_of_board hboard)]
        exact findGrid_updGrid_of (findGrid_updCluster hg c _) (by intro; rfl)
      · rw [findCluster_updCluster _ _ _ _ (by intro; rfl), if_pos rfl, hy, Option.map_some]
    have hspare : SparesCluster k c u (fillSlice u y.die) := fillSlice_spares fun d hd => hslice d ((findDie_congr (dies_of_board hboard :) _).symm.trans hd)
    obtain ⟨h, hh, hsame, hcl'⟩ := hspare.grid _ hu
    refine ⟨_, h, y.left, hexec, hh, (congrArg Grid.nswap hsame :), hcl'.trans hcl, rfl, fun m t ht hk hc hst => ?_⟩
    have hout : findTeam u m = some (outTeam y.why t) := (hteams m).trans (findTeam_teamsOut ht (hk.trans (findGrid_id hg).symm) hc hst y.why)
    refine ⟨_, hspare.team _ hu m _ hout hk hc, rfl, rfl, rfl, rfl, rfl, ?_⟩
    exact List.map_map.trans (List.map_congr_left fun _ _ => rfl)
  -- stops by parks and by grace (R400, R440)
  · intro s k c g y hg hy hup hres hstop
    refine ⟨fun hkeeps hsome hparked => ?_, fun hst hlive hgrace => ?_⟩
    · obtain ⟨hteams, hmem, h, z, hh, hz, hzs, hzw⟩ := stopCluster_running hg hy hres hstop 2
      exact ⟨_, h, z, swapParked_stops hg hup hkeeps hsome hparked, hteams, hmem, hh, hz, hzs, hzw⟩
    · obtain ⟨hteams, hmem, h, z, hh, hz, hzs, hzw⟩ := stopCluster_running hg hy hres hstop 1
      exact ⟨_, h, z, graceExpiry_stops hg hy hup hres hst hlive hgrace, hteams, hmem, hh, hz, hzs, hzw⟩
  -- the end of a slice (R438)
  · intro s die d hup hdie hd hover hhome hparts part left slots
    have hslots : nextSlice s die 16 = slots := by simp only [nextSlice, hd, Option.getD_some]; rfl
    obtain ⟨⟨c, hc, hat⟩, hstops⟩ := turnSlice_spec hd slots
    refine ⟨_, c, hslots ▸ sliceEnd_turns hup hdie hover hhome fun g hg p hp => (hparts g hg p hp).1, hc, hat, fun e hin he g y hg hy hres => ?_⟩
    exact hstops e hin he ⟨g, y, hg, hy, hres⟩
  -- retirement (R437)
  · intro s m t g ht hg hup hst hover hend hab hlost hslice
    obtain ⟨hdies, v, h, hv, hh, hk, hc, hres⟩ := retire_spec ht hg
    rcases teamRetire_retires ht hg hup hst hover hend hab hlost with hexec | hexec
    · exact ⟨_, v, h, hexec, hv, hh, hres⟩
    · have hleft := findGrid_updCluster (s := dropChuck (s.retire m t g) t.die t.core) hh (t.clNo g) Cluster.left
      have hspare := fillSlice_spares (s := updCluster (dropChuck (s.retire m t g) t.die t.core) t.grid (t.clNo g) Cluster.left) (die := t.die)
        (k := t.grid) (c := t.clNo g) fun d hd => hslice d ((findDie_congr hdies _).symm.trans hd)
      obtain ⟨i, hi, hsame, -⟩ := hspare.grid _ hleft
      have hnret : i.nret = h.nret := (congrArg Grid.nret hsame :)
      refine ⟨_, v, i, hexec, hspare.team _ hleft m v hv hk hc, hi, ?_⟩
      rw [hnret]
      exact hres
  -- completion (R39)
  · intro s k g hg hup hst hlost hover
    obtain ⟨hteams, hgrid⟩ := endGrid_spec hg .complete 0 9
    exact ⟨_, _, gridComplete_ends hg hup hst hlost hover, hteams, hgrid, rfl⟩
  -- link shares (R325, R443)
  · intro s hup hw
    obtain ⟨hteams, hwindow, draw, hgrids, hheld⟩ := countShares_spec (List.nodup_dedup s.lathe.active) s.openWindow
    refine ⟨_, shareWindowEnd_counts hup hw, hteams, hwindow, fun h hh hend => ?_, fun k g hg hend => ?_⟩
    · rw [hgrids] at hh
      obtain ⟨g', hg', rfl⟩ := List.mem_map.mp hh
      obtain ⟨g, -, rfl⟩ := List.mem_map.mp hg'
      rw [holdBy_unheld (holdBy_unheld_ended hend), hheld]
      simp [State.openWindow]
    · refine ⟨_, draw g.tenant, ?_, (holdBy_unheld (s := s.openWindow) (l := s.lathe.active.dedup) (draw := draw) hend).trans ?_⟩
      · have hfind := find_map_key Grid.id (fun g => holdBy s.openWindow s.lathe.active.dedup draw g.unheld) (fun _ => holdBy_id ..) s.grids k
        rw [show s.grids.find? (fun x => x.id == k) = some g from hg, Option.map_some] at hfind
        rw [findGrid, hgrids, State.openWindow, List.map_map]
        exact hfind
      · simp [overShare, openWindow_share, Bool.decide_and]
end

section
/-! Lemmas for the package's events (R17, R18, R39, R45, R402, R479, R483, R486): what the Caldera's acts leave of the state, the loss of a
die, the limits of R45 and the page of R486, and bring-up. -/

namespace Sys2Proof.Machine

open Sys2Proof

/-! ## Acts of the Caldera -/

/-- What the Caldera's acts leave of the state: not its own windows, instances and contexts, nor what its writes touch. -/
def State.offCaldera (s : State) : State :=
  { s.quiet with wins := [], insts := [], ctxs := [], arrivals := [], ueWaits := [], ueFails := [] }

/-- From `s` to `u` only the Caldera acts: line tokens come to its own buffers alone. -/
structure CalderaActs (s u : State) : Prop where
  off  : u.offCaldera = s.offCaldera
  toks : ∀ x ∈ u.toks, x ∈ s.toks ∨ x.h = .abuf

theorem CalderaActs.refl (s : State) : CalderaActs s s := ⟨rfl, fun _ h => .inl h⟩

theorem CalderaActs.trans {s u v : State} (hu : CalderaActs s u) (hv : CalderaActs u v) : CalderaActs s v where
  off := hv.off.trans hu.off
  toks x hx := (hv.toks x hx).elim (hu.toks x) .inr

theorem CalderaActs.foldl {α : Type} {f : State → α → State} (h : ∀ s a, CalderaActs s (f s a)) (l : List α) (s : State) :
    CalderaActs s (l.foldl f s) :=
  List.foldlRecOn l f (.refl s) fun u hu a _ => hu.trans (h u a)

theorem offCaldera_of_quiet {s u : State} (h : u.quiet = s.quiet) : u.offCaldera = s.offCaldera :=
  congrArg (fun q : State => { q with wins := [], insts := [], ctxs := [], arrivals := [], ueWaits := [], ueFails := [] }) h

/-- A change that leaves the tokens alone. -/
theorem CalderaActs.of_eq {s u : State} (h : u.offCaldera = s.offCaldera) (ht : u.toks = s.toks) : CalderaActs s u :=
  ⟨h, fun _ hx => .inl (ht ▸ hx)⟩

theorem mem_toks_setTok {s : State} {x y : Tok} (h : y ∈ (setTok s x).toks) : y ∈ s.toks ∨ y = x := by
  unfold setTok at h
  dsimp only at h
  split at h
  · exact .inl (List.mem_of_mem_filter h)
  · exact (List.mem_cons.1 h).elim .inr fun h => .inl (List.mem_of_mem_filter h)

@[simp] theorem send_toks (s : State) (bs : List MsgBody) : (send s bs).toks = s.toks := by
  refine foldl_keeps State.toks _ (fun _ _ => ?_) bs s
  rfl

theorem takeLine_acts (s : State) (line : Nat) : CalderaActs s (takeLine s .abuf line) where
  off := offCaldera_of_quiet (takeLine_quiet ..)
  toks _ hx := (mem_toks_setTok hx).elim (fun h => .inl (List.mem_of_mem_filter h)) fun h => .inr (h ▸ rfl)

theorem passOn_acts (s : State) (line : Nat) : CalderaActs s (passOn s .abuf line) where
  off := offCaldera_of_quiet (passOn_quiet ..)
  toks x hx := by
    unfold passOn at hx
    split at hx
    · unfold sendAll at hx
      dsimp only at hx
      split at hx
      · exact .inl hx
      · rw [send_toks] at hx
        exact (mem_toks_setTok hx).imp_right fun (h : x = _) => by rw [h]
    · exact .inl hx

theorem takeLines_acts (s : State) (pa n : Nat) : CalderaActs s (takeLines s .abuf pa n) := by
  unfold takeLines
  split
  · exact .foldl takeLine_acts _ s
  · exact .refl s

theorem passLines_acts (s : State) (pa n : Nat) : CalderaActs s (passLines s .abuf pa n) := by
  unfold passLines
  split
  · exact .foldl passOn_acts _ s
  · exact .refl s

theorem claimLine_toks (s : State) (owner line : Nat) : (claimLine s owner line).toks = s.toks := by
  unfold claimLine
  split
  · split <;> rfl
  · rfl

theorem writeMem_acts (s : State) (owner pa : Nat) (bs : List Byte) : CalderaActs s (writeMem s owner pa bs) :=
  .of_eq (offCaldera_of_quiet (writeMem_quiet ..)) (foldl_keeps State.toks _ (fun s l => claimLine_toks s owner l) _ s)

theorem zeroFill_acts (s : State) (owner pte base size : Nat) : CalderaActs s (zeroFill s owner pte base size) := by
  refine .of_eq (offCaldera_of_quiet (zeroFill_quiet ..)) ?_
  unfold zeroFill
  split <;> rfl

theorem devWrite_acts (s : State) (owner pa : Nat) (bs : List Byte) : CalderaActs s (devWrite s .abuf owner pa bs) :=
  (takeLines_acts ..).trans ((writeMem_acts ..).trans (passLines_acts ..))

theorem postBo_acts (s : State) (die tenant va inc status flags : Nat) (updater : Word) :
    CalderaActs s (postBo s .abuf die tenant va inc status flags updater) := by
  unfold postBo
  split
  · exact (zeroFill_acts ..).trans ((takeLines_acts ..).trans ((writeMem_acts ..).trans ((writeMem_acts ..).trans (passLines_acts ..))))
  · exact .refl s

theorem endOwner_acts (s : State) (o : Owner) (perform : Bool) : CalderaActs s (endOwner s o perform) := by
  unfold endOwner
  dsimp only
  split
  · exact (CalderaActs.foldl (fun s (x : Ctx) => .foldl (fun s (e : Nat × Nat × List Byte) => devWrite_acts s e.2.1 e.1 e.2.2) _ s) _ s).trans
      (.of_eq rfl rfl)
  · exact .of_eq rfl rfl

theorem landSome_acts (s : State) (o : Owner) : CalderaActs s (landSome s o) := by
  unfold landSome
  dsimp only
  refine CalderaActs.trans (CalderaActs.foldl (fun t e => ?_) _ s) (.of_eq rfl rfl)
  split
  · exact devWrite_acts ..
  · exact .refl t

theorem disarmWin_acts (s : State) (w : Nat) (perform : Bool) : CalderaActs s (disarmWin s w perform) :=
  (endOwner_acts s _ perform).trans (.of_eq rfl rfl)

theorem winPost_acts (s : State) (x : Win) (status : Nat) : CalderaActs s (winPost s x status) := by
  unfold winPost
  split
  · exact postBo_acts ..
  · exact .refl s

theorem winFail_acts (s : State) (w reason : Nat) : CalderaActs s (winFail s w reason) := by
  unfold winFail
  split
  · exact .refl s
  · exact (winPost_acts ..).trans ((disarmWin_acts ..).trans (.of_eq rfl rfl))

theorem winEnd_acts (s : State) (w status : Nat) : CalderaActs s (winEnd s w status) := by
  unfold winEnd
  split
  · exact .refl s
  · exact (winPost_acts ..).trans (disarmWin_acts ..)

theorem memberPost_acts (s : State) (i : Inst) (m : Member) (inc status : Nat) : CalderaActs s (memberPost s i m inc status) :=
  (postBo_acts ..).trans (.of_eq rfl rfl)

theorem instLoss_acts (s : State) (i : Inst) : CalderaActs s (instLoss s i) := by
  unfold instLoss
  split
  · exact .refl s
  · dsimp only
    split
    · exact (landSome_acts ..).trans ((CalderaActs.foldl (fun s m => memberPost_acts s i m 0 1) _ _).trans
        ((endOwner_acts ..).trans (.of_eq rfl rfl)))
    · exact .refl s

theorem CalderaActs.ready {s u : State} (h : CalderaActs s u) : u.ready = s.ready := (congrArg State.ready h.off :)
theorem CalderaActs.teams {s u : State} (h : CalderaActs s u) : u.teams = s.teams := (congrArg State.teams h.off :)
theorem CalderaActs.dies {s u : State} (h : CalderaActs s u) : u.dies = s.dies := (congrArg State.dies h.off :)
theorem CalderaActs.armQ {s u : State} (h : CalderaActs s u) : u.armQ = s.armQ := (congrArg State.armQ h.off :)

/-- A KIND write that the Caldera reads at once is its own act: none is queued (R480). -/
theorem execArmWindow_acts {s : State} (h : caldUp s = true) (w : Nat) (kind : BitVec 2) : CalderaActs s (outState s (execArmWindow w kind s)) := by
  have hd : CalderaActs s (disarmWin (putWin s (getWin s w)) w true) :=
    (CalderaActs.of_eq (s := s) (u := putWin s (getWin s w)) rfl rfl).trans (disarmWin_acts ..)
  unfold execArmWindow
  simp only [h, Bool.not_true, Bool.false_eq_true, if_false]
  generalize disarmWin (putWin s (getWin s w)) w true = u at hd ⊢
  split
  · exact .refl s
  · split
    · exact hd
    · split
      · exact hd.trans (winFail_acts ..)
      · exact hd.trans (.of_eq rfl rfl)

/-! ## Loss of a die (R39, R329, R402, R479) -/

/-- A die's entry without its expert residency table. -/
def Die.unreferenced (d : Die) : Die := { d with ert := [] }

/-- A die stays as it is but for references to its experts, of which none are new where its table is empty (R327). -/
def KeepsDie (e : Nat) (s u : State) : Prop :=
  ∀ x, findDie s e = some x → ∃ y, findDie u e = some y ∧ y.unreferenced = x.unreferenced ∧ (x.ert = [] → y.ert = [])

theorem KeepsDie.of_eq {e : Nat} {s u : State} (h : findDie u e = findDie s e) : KeepsDie e s u := fun x hx => ⟨x, h.trans hx, rfl, id⟩

theorem KeepsDie.trans {e : Nat} {s u v : State} (hu : KeepsDie e s u) (hv : KeepsDie e u v) : KeepsDie e s v := fun x hx => by
  obtain ⟨y, hy, hyx, he⟩ := hu x hx
  obtain ⟨z, hz, hzy, he'⟩ := hv y hy
  exact ⟨z, hz, hzy.trans hyx, fun h => he' (he h)⟩

theorem KeepsDie.foldl {α : Type} {e : Nat} {f : State → α → State} (h : ∀ s a, KeepsDie e s (f s a)) (l : List α) (s : State) :
    KeepsDie e s (l.foldl f s) :=
  List.foldlRecOn l f (.of_eq rfl) fun u hu a _ => hu.trans (h u a)

theorem updDie_keepsDie (s : State) (d e : Nat) {f : Die → Die} (hid : ∀ x, (f x).id = x.id)
    (hf : ∀ x, (f x).unreferenced = x.unreferenced ∧ (x.ert = [] → (f x).ert = [])) : KeepsDie e s (updDie s d f) := fun x hx => by
  rw [findDie_updDie s d e f hid]
  split
  · next h =>
    subst h
    exact ⟨f x, by rw [hx, Option.map_some], hf x⟩
  · exact ⟨x, hx, rfl, id⟩

/-- References given up leave an empty table empty. -/
theorem setErt_lowered (d : Die) (e n : Nat) (h : d.ert = []) : (setErt d { ertOf d e with ref := (ertOf d e).ref - n }).ert = [] := by
  simp [setErt, ertOf, h]

theorem dropRefs_keepsDie (s : State) (k e : Nat) : KeepsDie e s (dropRefs s k) := by
  refine KeepsDie.trans (u := _) (KeepsDie.foldl (fun s r => ?_) _ s) (.of_eq rfl)
  exact updDie_keepsDie s r.1 e (fun _ => rfl) fun x => ⟨rfl, setErt_lowered x r.2.1 r.2.2⟩

/-- A state without its dies and launches. -/
def State.offDies (s : State) : State := { s with dies := [], grids := [] }

theorem dropRefs_offDies (s : State) (k : Nat) : (dropRefs s k).offDies = s.offDies := by
  refine (foldl_keeps State.offDies _ (fun _ _ => ?_) _ s :)
  rfl

/-- What the loss of a die leaves of its entry. -/
def Die.whenLost (d : Die) : Die := { d with lost := true, ert := [], waitQ := [], merges := [], walks := [], trapQ := [], sliceNext := [] }

/-- A resident team of a lost die: the firmware's is discarded, another goes out. -/
def Team.whenLost (t : Team) : Team := if t.fw then { t with st := .discarded } else { t with st := .out, graceOut := true }

/-- A die marked lost, before its references and tokens are given up. -/
def State.markLost (s : State) (die : Nat) : State :=
  { updDie s die Die.whenLost with
    ready := s.ready &&& ~~~((1 : BitVec 64) <<< (3 + die)),
    teams := updWhere (fun (t : Team) => t.die == die && t.st == .resident) Team.whenLost s.teams,
    grids := s.grids.map fun g => { g with
      clusters := updWhere (fun c => c.die == die) (fun c => { c with resident := false, stopping := false }) g.clusters,
      geysers := updWhere (fun y => y.die == die) (fun y => { y with req := false }) g.geysers },
    l1 := s.l1.filter (fun x => x.die != die), l1c := s.l1c.filter (fun x => x.die != die),
    icache := s.icache.filter (fun x => x.die != die), tlb := s.tlb.filter (fun x => x.die != die),
    arrays := s.arrays.filter (fun x => x.die != die), matReqs := s.matReqs.filter (fun x => x.die != die) }

/-- A die marked lost that has given up its references and tokens. -/
def State.cutOff (s : State) (die : Nat) : State :=
  dropHolder ((((s.markLost die).grids.filter fun (g : Grid) => !g.ended && g.parts.any fun p => p.die == die)).foldl
    (fun s g => dropRefs s g.id) (s.markLost die)) die

/-- The Caldera's windows and instances that a loss meets end (R346). -/
def State.endLost (s : State) : State :=
  let u := (s.wins.filter fun x => x.kind != 0 && winLost s x).foldl (fun s x => winEnd (landSome s (.window x.w)) x.w 1) s
  u.insts.foldl instLoss u

theorem endLost_acts (s : State) : CalderaActs s s.endLost :=
  (CalderaActs.foldl (fun s (x : Win) => (landSome_acts s (.window x.w)).trans (winEnd_acts _ x.w 1)) _ s).trans (.foldl instLoss_acts _ _)

theorem loseDie_up {s : State} {die : Nat} (h : dieUp s die = true) : loseDie s die = (s.cutOff die).endLost := by
  unfold loseDie
  rw [h, if_neg (by decide)]
  rfl

theorem loseDie_acts {s : State} {die : Nat} (h : dieUp s die = true) : CalderaActs (s.cutOff die) (loseDie s die) :=
  loseDie_up h ▸ endLost_acts _

/-- A state without line tokens, the messages and requests about them, and the sectors marked bad. -/
def State.offTokens (s : State) : State := { s with badSec := [], toks := [], msgs := [], reqs := [], preqs := [], acts := [], deacts := [] }

theorem spoilLine_offTokens (s : State) (die l : Nat) : (spoilLine s die l).offTokens = s.offTokens := by
  unfold spoilLine
  split <;> rfl

theorem dropHolder_offTokens (s : State) (die : Nat) : (dropHolder s die).offTokens = s.offTokens :=
  (foldl_keeps State.offTokens _ (fun s l => spoilLine_offTokens s die l) _ s :)

theorem dropHolder_toks {s : State} {die : Nat} {x : Tok} (h : x ∈ (dropHolder s die).toks) : x.h ≠ .l2 die := by
  have hx := (List.mem_filter.1 h).2
  intro he
  simp [he] at hx

/-- Giving up references and tokens leaves everything but dies, launches and what the tokens are about. -/
theorem cutOff_rest (s : State) (die : Nat) : (s.cutOff die).offTokens.offDies = (s.markLost die).offTokens.offDies := by
  have h := foldl_keeps State.offDies (fun s (g : Grid) => dropRefs s g.id) (fun s g => dropRefs_offDies s g.id)
    ((s.markLost die).grids.filter fun (g : Grid) => !g.ended && g.parts.any fun p => p.die == die) (s.markLost die)
  exact (congrArg State.offDies (dropHolder_offTokens _ die)).trans (congrArg State.offTokens h)

theorem cutOff_keepsDie (s : State) (die e : Nat) : KeepsDie e (s.markLost die) (s.cutOff die) :=
  (KeepsDie.foldl (fun s (g : Grid) => dropRefs_keepsDie s g.id e) _ _).trans
    (.of_eq (findDie_congr (congrArg State.dies (dropHolder_offTokens _ die) :) e))

theorem loseDie_ready {s : State} {die : Nat} (h : dieUp s die = true) :
    (loseDie s die).ready = s.ready &&& ~~~((1 : BitVec 64) <<< (3 + die)) :=
  (loseDie_acts h).ready.trans (congrArg State.ready (cutOff_rest s die) :)

theorem findDie_markLost (s : State) (die e : Nat) :
    findDie (s.markLost die) e = if e = die then (findDie s die).map Die.whenLost else findDie s e :=
  findDie_updDie s die e Die.whenLost fun _ => rfl

/-- Another die than the lost one keeps its entry but for references. -/
theorem loseDie_keepsDie (s : State) {die e : Nat} (he : e ≠ die) : KeepsDie e s (loseDie s die) := by
  cases h : dieUp s die with
  | false =>
    unfold loseDie
    rw [h]
    exact .of_eq rfl
  | true =>
    have hm : KeepsDie e s (s.markLost die) := .of_eq (by rw [findDie_markLost, if_neg he])
    exact hm.trans ((cutOff_keepsDie s die e).trans (.of_eq (findDie_congr (loseDie_acts h).dies e)))

theorem findDie_loseDie {s : State} {die : Nat} {d : Die} (h : dieUp s die = true) (hd : findDie s die = some d) :
    findDie (loseDie s die) die = some d.whenLost := by
  obtain ⟨y, hy, hyx, hert⟩ := cutOff_keepsDie s die die d.whenLost (by rw [findDie_markLost, if_pos rfl, hd, Option.map_some])
  have hz : y = d.whenLost := by
    have he : y.ert = [] := hert rfl
    rw [← show y.unreferenced = y by unfold Die.unreferenced; rw [← he], hyx]
    rfl
  rw [findDie_congr (loseDie_acts h).dies die, hy, hz]

theorem findTeam_loseDie {s : State} {die m : Nat} {t : Team} (h : dieUp s die = true) (ht : findTeam s m = some t) :
    findTeam (loseDie s die) m = some (if t.die == die && t.st == .resident then t.whenLost else t) := by
  have hteams : (loseDie s die).teams = (s.markLost die).teams := (loseDie_acts h).teams.trans (congrArg State.teams (cutOff_rest s die) :)
  have hid (x : Team) : x.whenLost.id = x.id := by
    unfold Team.whenLost
    split <;> rfl
  rw [findTeam_congr hteams m]
  refine (find_updWhere_if Team.id (fun (t : Team) => t.die == die && t.st == .resident) Team.whenLost m s.teams hid).trans ?_
  rw [show s.teams.find? (fun x => x.id == m) = some t from ht, Option.map_some]

theorem dieLost_event {s : State} {die : Nat} {d : Die} (h : dieUp s die = true) (hd : findDie s die = some d) :
    ∃ u c, exec (.dieLost die) s = .next u ∧ u.ready = s.ready &&& ~~~((1 : BitVec 64) <<< (3 + die)) ∧ findDie u die = some c ∧ c.lost = true ∧
      c.ert = [] ∧ c.merges = [] ∧ c.trapQ = [] ∧ (∀ x ∈ u.toks, x.h ≠ .l2 die) ∧
      (∀ x ∈ u.l1, x.die ≠ die) ∧ (∀ x ∈ u.tlb, x.die ≠ die) ∧
      ∀ m t, findTeam s m = some t → ∃ v, findTeam u m = some v ∧
        v.st = if t.die = die ∧ t.st = .resident then (if t.fw then .discarded else .out) else t.st := by
  have hoff := (loseDie_acts h).off
  have hrest := cutOff_rest s die
  have hl1 : (loseDie s die).l1 = s.l1.filter (fun x => x.die != die) := (congrArg State.l1 hoff :).trans (congrArg State.l1 hrest :)
  have htlb : (loseDie s die).tlb = s.tlb.filter (fun x => x.die != die) := (congrArg State.tlb hoff :).trans (congrArg State.tlb hrest :)
  refine ⟨loseDie s die, d.whenLost, rfl, loseDie_ready h, findDie_loseDie h hd, rfl, rfl, rfl, rfl, fun x hx => ?_, fun x hx => ?_, fun x hx => ?_,
    fun m t ht => ⟨_, findTeam_loseDie h ht, ?_⟩⟩
  · obtain hin | habuf := (loseDie_acts h).toks x hx
    · exact dropHolder_toks hin
    · rw [habuf]
      exact Holder.noConfusion
  · rw [hl1] at hx
    simpa using (List.mem_filter.1 hx).2
  · rw [htlb] at hx
    simpa using (List.mem_filter.1 hx).2
  · simp only [Bool.and_eq_true, beq_iff_eq, Team.whenLost]
    split
    · split <;> rfl
    · rfl

/-! ## Bring-up (R479, R480) -/

/-- A function that passes bring-up is up, before its own start. -/
def State.brought (s : State) (b : Nat) : State :=
  { s with ready := s.ready ||| BitVec.twoPow 64 b, coming := s.coming &&& ~~~(BitVec.twoPow 64 b) }

theorem bringUp_of_not_coming {s : State} {b : Nat} (h : s.coming.getLsbD b = false) : bringUp s b = s := by
  unfold bringUp
  rw [h]
  rfl

/-- The Caldera comes up and reads the KIND writes made so far (R480). -/
theorem bringUp_caldera {s : State} (h : s.coming.getLsbD 2 = true) :
    bringUp s 2 = s.armQ.foldl (fun s e => outState s (execArmWindow e.1 e.2 s)) { s.brought 2 with armQ := [] } := by
  unfold bringUp
  rw [h]
  rfl

theorem bringUp_die {s : State} {b : Nat} (h : s.coming.getLsbD b = true) (hb : 3 ≤ b ∧ b ≤ 10) :
    bringUp s b = startFirmware (s.brought b) (b - 3) := by
  unfold bringUp
  rw [h]
  simp only [Bool.not_true, Bool.false_eq_true, if_false, if_pos hb]
  exact if_neg (by omega)

theorem bringUp_other {s : State} {b : Nat} (h : s.coming.getLsbD b = true) (hb : ¬ (3 ≤ b ∧ b ≤ 10)) (h2 : b ≠ 2) :
    bringUp s b = s.brought b := by
  unfold bringUp
  rw [h]
  simp only [Bool.not_true, Bool.false_eq_true, if_false, if_neg hb]
  exact if_neg h2

/-- The KIND writes that a Caldera reads once it is up are its own acts. -/
theorem armAll_acts {s : State} (h : caldUp s = true) (l : List (Nat × BitVec 2)) :
    CalderaActs s (l.foldl (fun s e => outState s (execArmWindow e.1 e.2 s)) s) :=
  List.foldlRecOn l _ (.refl s) fun u hu e _ => by
    have hup : caldUp u = true := by rwa [caldUp, hu.ready]
    exact hu.trans (execArmWindow_acts hup e.1 e.2)

theorem startFirmware_only (s : State) (d : Nat) : { startFirmware s d with teams := s.teams, nextId := s.nextId } = s := by
  unfold startFirmware
  split <;> rfl

theorem bringUp_event {s : State} {b : Nat} (h : s.coming.getLsbD b = true) :
    (bringUp s b).ready = s.ready ||| BitVec.twoPow 64 b ∧ (bringUp s b).coming = s.coming &&& ~~~(BitVec.twoPow 64 b) ∧
      (b = 2 → (bringUp s b).armQ = []) ∧ ((b < 3 ∨ 10 < b) → (bringUp s b).teams = s.teams) ∧
      (b ≠ 2 → (bringUp s b).mem = s.mem ∧ (bringUp s b).wins = s.wins) := by
  by_cases h2 : b = 2
  · subst h2
    have hup : caldUp { s.brought 2 with armQ := [] } = true := by simp [caldUp, State.brought]
    have ha := armAll_acts hup s.armQ
    rw [bringUp_caldera h]
    exact ⟨ha.ready, (congrArg State.coming ha.off :), fun _ => ha.armQ, fun _ => ha.teams, fun hne => absurd rfl hne⟩
  · by_cases hb : 3 ≤ b ∧ b ≤ 10
    · have hk := startFirmware_only (s.brought b) (b - 3)
      rw [bringUp_die h hb]
      exact ⟨(congrArg State.ready hk :), (congrArg State.coming hk :), fun he => absurd he h2, fun ho => by omega,
        fun _ => ⟨(congrArg State.mem hk :), (congrArg State.wins hk :)⟩⟩
    · rw [bringUp_other h hb h2]
      exact ⟨rfl, rfl, fun he => absurd he h2, fun _ => rfl, fun _ => ⟨rfl, rfl⟩⟩

theorem step_bringUp {s : State} {b : Nat} (hn : nextTurn s = .bringUp b) : step s = .next (bringUp (takeTurn s) b) := by
  simp only [step, hn, prepare]

theorem bringUp_step {s : State} {b : Nat} (hn : nextTurn s = .bringUp b) :
    (s.coming.getLsbD b = false → step s = .next (takeTurn s)) ∧
    (s.coming.getLsbD b = true → ∃ u, step s = .next u ∧ u.ready = s.ready ||| BitVec.twoPow 64 b ∧
      u.coming = s.coming &&& ~~~(BitVec.twoPow 64 b) ∧ (b = 2 → u.armQ = []) ∧
      ((b < 3 ∨ 10 < b) → u.teams = s.teams) ∧ (b ≠ 2 → u.mem = s.mem ∧ u.wins = s.wins)) := by
  refine ⟨fun h => ?_, fun h => ⟨_, step_bringUp hn, ?_⟩⟩
  · rw [step_bringUp hn, bringUp_of_not_coming (s := takeTurn s) h]
  · exact bringUp_event (s := takeTurn s) h

/-! ## Package reset (R17, R18, R479, R483) -/

/-- The package at a reset, before the firmware's first register write. -/
def State.booting (s : State) : State :=
  { State.reset with
    turns := s.turns, turnNo := s.turnNo, freeNo := s.freeNo + 1, nextId := s.nextId + 4096, ready := bootReady s,
    mem := s.mem.filter (fun e => paKind e.1 != 0), lineOwner := (bootKeys s s.nextId).lineOwner.filter (fun e => paKind e.1 != 0),
    badSec := s.badSec.filter (fun a => paKind a != 0), flash := s.flash, dies := (List.range 8).map bootDie, meas := bootMeas s,
    keys := (bootKeys s s.nextId).keys, oldKeys := (bootKeys s s.nextId).oldKeys,
    lathe := { Lathe.reset with luver := (Config.bootField 25).setWidth 32 } }

/-- The package right after a reset, before the first function comes up. -/
def State.booted (s : State) (lqtb : BitVec 64) : State :=
  { s.booting with ready := 0, coming := bootReady s, lathe := { s.booting.lathe with lqtb := lqtb } }

/-- A write of LQTB sets that register, or nothing (R415). -/
theorem writeLathe_sets_lqtb (s : State) (v : BitVec 64) : ∃ x, writeLathe s 0 v = { s with lathe := { s.lathe with lqtb := x } } := by
  rw [writeLathe_lqtb]
  split
  · exact ⟨v, rfl⟩
  · exact ⟨s.lathe.lqtb, rfl⟩

theorem booted_dies (s : State) (x : BitVec 64) : (s.booted x).dies = (List.range 8).map bootDie := by simp only [State.booted, State.booting]
theorem booted_keys (s : State) (x : BitVec 64) : (s.booted x).keys = (bootKeys s s.nextId).keys := by simp only [State.booted, State.booting]
theorem booted_mem (s : State) (x : BitVec 64) : (s.booted x).mem = s.mem.filter (fun e => paKind e.1 != 0) := by
  simp only [State.booted, State.booting]
theorem booted_flash (s : State) (x : BitVec 64) : (s.booted x).flash = s.flash := by simp only [State.booted, State.booting]

theorem packageReset_eq (s : State) :
    ∃ x, exec .packageReset s = .next (((List.range 16).filter fun b => (Config.freeWord s.freeNo).getLsbD b).foldl bringUp (s.booted x)) := by
  obtain ⟨x, hx⟩ := writeLathe_sets_lqtb s.booting (Config.bootField 24)
  refine ⟨x, ?_⟩
  change execPackageReset s = _
  have h : execPackageReset s = .next (((List.range 16).filter fun b => (Config.freeWord s.freeNo).getLsbD b).foldl bringUp
      { writeLathe s.booting 0 (Config.bootField 24) with ready := 0, coming := bootReady s }) := by
    simp only [execPackageReset, State.booting]
  simp only [h, hx, State.booted]

theorem firmwareCore_ge (d : Nat) : 64 ≤ (coreMap d).1 := by
  unfold coreMap
  dsimp only
  cases h : ((List.range 4).filterMap fun i => if corePasses d (64 + i) then some (64 + i) else none).head? with
  | none => exact le_refl 64
  | some k =>
    obtain ⟨i, -, hi⟩ := List.mem_filterMap.1 (List.mem_of_head? h)
    split at hi
    · cases hi
      exact Nat.le_add_right 64 i
    · cases hi

/-- A search by key in a list that holds the entry of each number below `n`. -/
theorem find_map_range {α : Type} (key : α → Nat) (f : Nat → α) (hf : ∀ j, key (f j) = j) {n i : Nat} (hi : i < n) :
    ((List.range n).map f).find? (fun x => key x == i) = some (f i) := by
  have hfind : (List.range n).find? ((fun x => key x == i) ∘ f) = some i := by
    rw [List.find?_range_eq_some]
    simp only [Function.comp_apply, hf]
    exact ⟨beq_self_eq_true i, List.mem_range.2 hi, fun j hj => congrArg not (beq_false_of_ne (Nat.ne_of_lt hj))⟩
  rw [List.find?_map, hfind, Option.map_some]

theorem findDie_booted {u : State} (h : u.dies = (List.range 8).map bootDie) {d : Nat} (hd : d < 8) : findDie u d = some (bootDie d) := by
  unfold findDie
  rw [h]
  exact find_map_range Die.id bootDie (fun _ => rfl) hd

theorem dieUp_booted {u : State} (h : u.dies = (List.range 8).map bootDie) (d : Nat) : dieUp u d = (decide (d < 8) && u.ready.getLsbD (3 + d)) := by
  unfold dieUp
  by_cases hd : d < 8
  · rw [findDie_booted h hd]
    exact Bool.and_true _
  · simp [hd]

/-- A team that a die's firmware starts as (R19, R435; log 122). -/
def FirmwareTeam (t : Team) : Prop :=
  64 ≤ t.core ∧ t.st = .resident ∧ ∃ p, t.spindles = [p] ∧ p.live = 0xFF ∧ p.v = [] ∧ p.s = [] ∧ p.p = []

/-- From the booted package `r` to `u` some functions have come up: a function is up or coming, and the dies that are up are those
whose firmware runs. -/
structure BroughtUp (r u : State) : Prop where
  rest  : u = { r with ready := u.ready, coming := u.coming, teams := u.teams, nextId := u.nextId }
  union : u.ready ||| u.coming = r.coming
  inter : u.ready &&& u.coming = 0
  fw    : ∀ t ∈ u.teams, dieUp u t.die = true ∧ FirmwareTeam t
  runs  : ∀ d, dieUp u d = true → ∃ t ∈ u.teams, t.die = d

theorem BroughtUp.mem {r u : State} (h : BroughtUp r u) : u.mem = r.mem := (congrArg State.mem h.rest :)
theorem BroughtUp.flash {r u : State} (h : BroughtUp r u) : u.flash = r.flash := (congrArg State.flash h.rest :)
theorem BroughtUp.keys {r u : State} (h : BroughtUp r u) : u.keys = r.keys := (congrArg State.keys h.rest :)
theorem BroughtUp.dies {r u : State} (h : BroughtUp r u) : u.dies = r.dies := (congrArg State.dies h.rest :)

theorem coming_bits {c : BitVec 64} {b : Nat} (h : c.getLsbD b = true) (r : BitVec 64) :
    (r ||| BitVec.twoPow 64 b) ||| (c &&& ~~~(BitVec.twoPow 64 b)) = r ||| c ∧
      (r ||| BitVec.twoPow 64 b) &&& (c &&& ~~~(BitVec.twoPow 64 b)) = (r &&& c) &&& ~~~(BitVec.twoPow 64 b) := by
  constructor
  · refine BitVec.eq_of_getLsbD_eq fun i hi => ?_
    by_cases hib : b = i
    · subst hib
      simp [h, hi]
    · simp [Ne.symm hib, hi]
  · refine BitVec.eq_of_getLsbD_eq fun i hi => ?_
    by_cases hib : b = i
    · subst hib
      simp [hi]
    · simp [Ne.symm hib, hi]

/-- The team that a die's firmware starts as is placed on its firmware core. -/
theorem startFirmware_booted {u : State} (h : u.dies = (List.range 8).map bootDie) {d : Nat} (hd : d < 8) :
    ∃ t, startFirmware u d = { u with teams := u.teams ++ [t], nextId := u.nextId + 1 } ∧ t.die = d ∧ FirmwareTeam t := by
  unfold startFirmware
  rw [findDie_booted h hd]
  exact ⟨_, rfl, rfl, firmwareCore_ge d, rfl, _, rfl, rfl, rfl, rfl, rfl⟩

theorem dieUp_brought {s : State} (h : s.dies = (List.range 8).map bootDie) {b : Nat} (d : Nat) :
    dieUp (s.brought b) d = true ↔ dieUp s d = true ∨ d < 8 ∧ 3 + d = b := by
  rw [dieUp_booted h, dieUp_booted (u := s.brought b) h]
  by_cases hd : d < 8
  · have hd' : 3 + d < 64 := by omega
    simp [State.brought, hd, hd']
  · simp [hd]

/-- One function more comes up. -/
theorem BroughtUp.bringUp {r u : State} (hd : r.dies = (List.range 8).map bootDie) (ha : r.armQ = []) (hu : BroughtUp r u) (b : Nat) :
    BroughtUp r (bringUp u b) := by
  have hdu : u.dies = (List.range 8).map bootDie := hu.dies.trans hd
  have hau : u.armQ = [] := (congrArg State.armQ hu.rest).trans ha
  cases hc : u.coming.getLsbD b with
  | false => rwa [bringUp_of_not_coming hc]
  | true =>
    obtain ⟨hor, hand⟩ := coming_bits hc u.ready
    have hunion : (u.brought b).ready ||| (u.brought b).coming = r.coming := hor.trans hu.union
    have hinter : (u.brought b).ready &&& (u.brought b).coming = 0 := hand.trans (by rw [hu.inter]; exact BitVec.zero_and)
    have hrest : u.brought b = { r with ready := (u.brought b).ready, coming := (u.brought b).coming, teams := u.teams, nextId := u.nextId } :=
      congrArg (fun v : State => { v with ready := (u.brought b).ready, coming := (u.brought b).coming }) hu.rest
    by_cases hb : 3 ≤ b ∧ b ≤ 10
    · obtain ⟨t, ht, htd, hft⟩ := startFirmware_booted (u := u.brought b) hdu (show b - 3 < 8 by omega)
      have hup (d : Nat) : dieUp { u.brought b with teams := (u.brought b).teams ++ [t], nextId := (u.brought b).nextId + 1 } d = true ↔
          dieUp u d = true ∨ d < 8 ∧ 3 + d = b := dieUp_brought hdu d
      rw [bringUp_die hc hb, ht]
      refine ⟨congrArg (fun v : State => { v with teams := (u.brought b).teams ++ [t], nextId := (u.brought b).nextId + 1 }) hrest, hunion, hinter,
        fun v hv => ?_, fun d hd => ?_⟩
      · obtain hv | hv := List.mem_append.1 hv
        · exact ⟨(hup _).2 (.inl (hu.fw v hv).1), (hu.fw v hv).2⟩
        · obtain rfl := List.mem_singleton.1 hv
          exact ⟨(hup _).2 (.inr (by omega)), hft⟩
      · obtain hd | ⟨-, hd⟩ := (hup d).1 hd
        · obtain ⟨v, hv, hvd⟩ := hu.runs d hd
          exact ⟨v, List.mem_append_left _ hv, hvd⟩
        · exact ⟨t, List.mem_append_right _ (List.mem_singleton.2 rfl), by omega⟩
    · have hb' : Sys2Proof.Machine.bringUp u b = u.brought b := by
        by_cases h2 : b = 2
        · subst h2
          rw [bringUp_caldera hc, hau]
          exact (congrArg (fun l => { u.brought 2 with armQ := l }) hau).symm
        · exact bringUp_other hc hb h2
      have hup (d : Nat) : dieUp (u.brought b) d = true ↔ dieUp u d = true := by
        rw [dieUp_brought hdu]
        exact or_iff_left (by omega)
      rw [hb']
      exact ⟨hrest, hunion, hinter, fun t ht => ⟨(hup _).2 (hu.fw t ht).1, (hu.fw t ht).2⟩, fun d hd => hu.runs d ((hup d).1 hd)⟩

theorem booted_broughtUp (s : State) (x : BitVec 64) (l : List Nat) : BroughtUp (s.booted x) (l.foldl Sys2Proof.Machine.bringUp (s.booted x)) := by
  have hdies := booted_dies s x
  have harm : (s.booted x).armQ = [] := by simp only [State.booted, State.booting, State.reset]
  have hteams : (s.booted x).teams = [] := by simp only [State.booted, State.booting, State.reset]
  have hready : (s.booted x).ready = 0 := by simp only [State.booted]
  generalize s.booted x = r at hdies harm hteams hready
  have hr : BroughtUp r r := by
    refine ⟨rfl, by rw [hready]; exact BitVec.zero_or, by rw [hready]; exact BitVec.zero_and, fun t ht => ?_, fun d hd => ?_⟩
    · rw [hteams] at ht
      exact (List.not_mem_nil ht).elim
    · rw [dieUp_booted hdies, hready] at hd
      simp at hd
  exact List.foldlRecOn l Sys2Proof.Machine.bringUp hr fun u hu b _ => hu.bringUp hdies harm b

theorem mget_outside (m : SMap 8) (a : Nat) : mget (m.filter fun e => paKind e.1 != 0) a = if paKind a = 0 then 0 else mget m a := by
  induction m with
  | nil => simp [mget]
  | cons e m ih =>
    obtain ⟨k, v⟩ := e
    by_cases hk : paKind k = 0 <;> by_cases h : k = a
    · subst h
      simp [hk, ih]
    · simp [hk, h, ih, mget]
    · subst h
      simp [hk, mget]
    · simp [hk, h, ih, mget]

theorem keyOf_boot {s u : State} (h : u.keys = (bootKeys s s.nextId).keys) {o : Nat} (ho : o < 4096) :
    keyOf u o = some (Config.bootKey s.nextId o) := by
  unfold keyOf
  rw [h]
  unfold bootKeys
  rw [find_map_range Prod.fst (fun o => (o, Config.bootKey s.nextId o)) (fun _ => rfl) ho, Option.map_some]

theorem bootReady_unverified {s : State} (h : Config.firmwareVerify (bootImage s) = false) : bootReady s = 0 := by
  unfold bootReady
  rw [h]
  rfl

theorem packageReset_event (s : State) : ∃ u, exec .packageReset s = .next u ∧
    (∀ a, mget u.mem a = if paKind a = 0 then 0 else mget s.mem a) ∧ u.flash = s.flash ∧ u.ready ||| u.coming = bootReady s ∧
    u.ready &&& u.coming = 0 ∧
    (Config.firmwareVerify (bootImage s) = false → u.ready = 0 ∧ u.coming = 0 ∧ u.teams = []) ∧
    (∀ t ∈ u.teams, dieUp u t.die = true ∧ FirmwareTeam t) ∧ (∀ d, dieUp u d = true → ∃ t ∈ u.teams, t.die = d) ∧
    (∀ o, o < 4096 → keyOf u o = some (Config.bootKey s.nextId o)) ∧
    u.cycle = 0 ∧ u.lathe.lslice = 2000 ∧ u.lathe.luca = 0 ∧ u.lathe.lustat = 0 ∧ u.lathe.ucode = none ∧ u.lathe.shares = [] ∧ u.grids = [] ∧
    u.queues = [] ∧ u.wins = [] ∧ u.grps = [] ∧ u.insts = [] ∧ u.ctxs = [] ∧ u.store = [] ∧ u.poison = [] ∧
    u.toks = [] ∧ u.l1 = [] ∧ u.tlb = [] ∧ u.errLog = [] ∧ u.errCount = 0 ∧ u.mailbox = [] ∧
    ∀ die, die < 8 → ∃ c, findDie u die = some c ∧ c.lost = false ∧ c.wdog = 0 ∧ c.ecccnt = 0 ∧ c.exdir = 0 ∧ c.exns = 0 ∧
      c.clock = 1200 ∧ c.ert = [] := by
  obtain ⟨x, hx⟩ := packageReset_eq s
  have h := booted_broughtUp s x ((List.range 16).filter fun b => (Config.freeWord s.freeNo).getLsbD b)
  generalize ((List.range 16).filter fun b => (Config.freeWord s.freeNo).getLsbD b).foldl Sys2Proof.Machine.bringUp (s.booted x) = u at hx h
  have hdies : u.dies = (List.range 8).map bootDie := h.dies.trans (booted_dies s x)
  have hkeys : u.keys = (bootKeys s s.nextId).keys := h.keys.trans (booted_keys s x)
  have hnone (hv : Config.firmwareVerify (bootImage s) = false) : u.ready = 0 ∧ u.coming = 0 ∧ u.teams = [] := by
    obtain ⟨hr, hc⟩ := BitVec.or_eq_zero_iff.1 (h.union.trans (bootReady_unverified hv))
    refine ⟨hr, hc, List.eq_nil_iff_forall_not_mem.2 fun t ht => ?_⟩
    have hup := (h.fw t ht).1
    rw [dieUp_booted hdies, hr] at hup
    simp at hup
  refine ⟨u, hx, fun a => ?_, h.flash.trans (booted_flash s x), h.union, h.inter, hnone, h.fw, h.runs, fun o ho => keyOf_boot hkeys ho, ?_⟩
  · rw [h.mem, booted_mem]
    exact mget_outside s.mem a
  · have hdie (die : Nat) (hd : die < 8) := findDie_booted hdies hd
    obtain ⟨ready, coming, teams, nextId, rfl⟩ : ∃ ready coming teams nextId,
      u = { s.booted x with ready := ready, coming := coming, teams := teams, nextId := nextId } := ⟨_, _, _, _, h.rest⟩
    simp only [State.booted, State.booting, State.reset, Lathe.reset, true_and] at hdie ⊢
    exact fun die hd => ⟨_, hdie die hd, rfl, rfl, rfl, rfl, rfl, rfl, rfl⟩

/-! ## Telemetry (R45, R486) -/

theorem le_signedOf {c : Nat} (h : 0 < c) (x : Nat) : (c : Int) ≤ signedOf 16 x ↔ c ≤ x % 2 ^ 16 ∧ x % 2 ^ 16 < 2 ^ 15 := by
  unfold signedOf
  dsimp only
  split <;> omega

/-- A die and its READY bit stay as they are, but for references to its experts. -/
structure SparesDie (die : Nat) (s u : State) : Prop where
  kept  : KeepsDie die s u
  ready : u.ready.getLsbD (3 + die) = s.ready.getLsbD (3 + die)

theorem SparesDie.refl (die : Nat) (s : State) : SparesDie die s s := ⟨.of_eq rfl, rfl⟩

theorem SparesDie.trans {die : Nat} {s u v : State} (hu : SparesDie die s u) (hv : SparesDie die u v) : SparesDie die s v :=
  ⟨hu.kept.trans hv.kept, hv.ready.trans hu.ready⟩

theorem SparesDie.foldl {α : Type} {die : Nat} {f : State → α → State} (l : List α) (h : ∀ s, ∀ a ∈ l, SparesDie die s (f s a)) (s : State) :
    SparesDie die s (l.foldl f s) :=
  List.foldlRecOn l f (.refl die s) fun u hu a ha => hu.trans (h u a ha)

theorem SparesDie.dieUp {die : Nat} {s u : State} {x : Die} (h : SparesDie die s u) (hx : findDie s die = some x) : dieUp u die = dieUp s die := by
  obtain ⟨y, hy, hyx, -⟩ := h.kept x hx
  have hlost : y.lost = x.lost := (congrArg Die.lost hyx :)
  unfold Machine.dieUp
  rw [hx, hy, h.ready]
  dsimp only
  rw [hlost]

theorem getLsbD_cleared (r : BitVec 64) {m : BitVec 64} {i : Nat} (hi : i < 64) (hm : m.getLsbD i = false) : (r &&& ~~~m).getLsbD i = r.getLsbD i := by
  rw [BitVec.getLsbD_and, BitVec.getLsbD_not, hm, decide_eq_true hi]
  exact Bool.and_true _

theorem loseDie_spares (s : State) {die e : Nat} (hdie : die < 8) (he : die ≠ e) : SparesDie die s (loseDie s e) := by
  refine ⟨loseDie_keepsDie s he, ?_⟩
  cases h : dieUp s e with
  | false =>
    unfold loseDie
    rw [h]
    rfl
  | true =>
    rw [loseDie_ready h]
    refine getLsbD_cleared _ (by omega) ?_
    rw [BitVec.getLsbD_shiftLeft, show (1 : BitVec 64) = 1#64 from rfl, BitVec.getLsbD_one]
    simp only [Bool.and_eq_false_imp, Bool.and_eq_true, Bool.not_eq_eq_eq_not, Bool.not_true, decide_eq_true_eq, decide_eq_false_iff_not]
    omega

theorem logError_spares (s : State) (die cls d core : Nat) (detail : Word) (line : BitVec 64) : SparesDie die s (logError s cls d core detail line) :=
  ⟨.of_eq rfl, rfl⟩

/-- The entry of a die after its limits are checked (R45, R486). -/
def Die.limited (n : Nat) (hot2 : Bool) (die : Nat) (d : Die) : Die :=
  { d with
    power := (measured n die).toNat, temp := (measured n (27 + die)).toNat % 2 ^ 16,
    clock := if (380000 ≤ (measured n die).toNat ∨ 35000 ≤ (measured n (8 + 2 * die)).toNat ∨ 35000 ≤ (measured n (9 + 2 * die)).toNat ∨
      950 ≤ signedOf 16 (measured n (27 + die)).toNat ∨ hot2) ∧ 600 < d.clock then d.clock - 100 else d.clock }

theorem findDie_limited (n : Nat) (hot2 : Bool) (s : State) (e m : Nat) :
    findDie (updDie s e (Die.limited n hot2 e)) m = if m = e then (findDie s e).map (Die.limited n hot2 e) else findDie s m :=
  findDie_updDie s e m (Die.limited n hot2 e) fun _ => rfl

theorem limitDie_eq (n : Nat) (hot2 : Bool) (s : State) (die : Nat) :
    limitDie n hot2 s die = if 1050 ≤ signedOf 16 (measured n (27 + die)).toNat ∧ dieUp (updDie s die (Die.limited n hot2 die)) die = true then
      loseDie (logError (updDie s die (Die.limited n hot2 die)) 5 die 0xFFFF (BitVec.ofInt 32 (signedOf 16 (measured n (27 + die)).toNat)) 0) die
      else updDie s die (Die.limited n hot2 die) := by
  unfold limitDie Die.limited
  simp only [decide_eq_true_eq]

theorem limitDie_spares (n : Nat) (hot2 : Bool) (s : State) {die e : Nat} (hdie : die < 8) (he : die ≠ e) : SparesDie die s (limitDie n hot2 s e) := by
  have hu : SparesDie die s (updDie s e (Die.limited n hot2 e)) :=
    ⟨.of_eq (by rw [findDie_limited, if_neg he]), rfl⟩
  rw [limitDie_eq]
  split
  · exact hu.trans ((logError_spares ..).trans (loseDie_spares _ hdie he))
  · exact hu

theorem limitDie_own {n : Nat} {hot2 : Bool} {s : State} {die : Nat} {d : Die} (hup : dieUp s die = true) (hd : findDie s die = some d) :
    findDie (limitDie n hot2 s die) die =
      some (if 1050 ≤ signedOf 16 (measured n (27 + die)).toNat then (d.limited n hot2 die).whenLost else d.limited n hot2 die) := by
  have hu : findDie (updDie s die (Die.limited n hot2 die)) die = some (d.limited n hot2 die) := by
    rw [findDie_limited, if_pos rfl, hd, Option.map_some]
  have hup' : dieUp (updDie s die (Die.limited n hot2 die)) die = true := by
    unfold dieUp at hup ⊢
    rw [hd] at hup
    rw [hu]
    exact hup
  rw [limitDie_eq, hup']
  simp only [and_true]
  split
  · exact findDie_loseDie hup' hu
  · exact hu

theorem limitOther_spares (n : Nat) (s : State) {die : Nat} (hdie : die < 8) {e : Nat × BitVec 64} (he : e.2.getLsbD (3 + die) = false) :
    SparesDie die s (limitOther n s e) := by
  unfold limitOther
  dsimp only
  split
  · exact ⟨.of_eq rfl, getLsbD_cleared _ (by omega) he⟩
  · exact .refl die s

theorem lt_of_dieUp {s : State} {die : Nat} (h : dieUp s die = true) : die < 8 := by
  unfold dieUp at h
  simp only [Bool.and_eq_true, decide_eq_true_eq] at h
  exact h.1.1

/-- A refresh's check of the compute dies: a die that was up has the entry that its own limits leave. -/
theorem limitDies_own {n : Nat} {hot2 : Bool} {s : State} {die : Nat} {d : Die} (hup : dieUp s die = true) (hd : findDie s die = some d) :
    ∃ c, findDie (((List.range 8).filter (dieUp s)).foldl (limitDie n hot2) s) die = some c ∧
      c.unreferenced = (if 1050 ≤ signedOf 16 (measured n (27 + die)).toNat then (d.limited n hot2 die).whenLost
        else d.limited n hot2 die).unreferenced := by
  have hdie : die < 8 := lt_of_dieUp hup
  have hnd : ((List.range 8).filter (dieUp s)).Nodup := List.Nodup.filter _ List.nodup_range
  obtain ⟨l, r, hl⟩ := List.append_of_mem (List.mem_filter.2 ⟨List.mem_range.2 hdie, hup⟩)
  rw [hl] at hnd ⊢
  obtain ⟨-, hr, hlr⟩ := List.nodup_append.1 hnd
  have hbefore : SparesDie die s (l.foldl (limitDie n hot2) s) := .foldl l (fun s e he => limitDie_spares n hot2 s hdie fun h =>
    hlr e he die List.mem_cons_self h.symm) s
  obtain ⟨x, hx, hxd, -⟩ := hbefore.kept d hd
  have hown := limitDie_own (n := n) (hot2 := hot2) ((hbefore.dieUp hd).trans hup) hx
  have hafter : SparesDie die (limitDie n hot2 (l.foldl (limitDie n hot2) s) die)
      (r.foldl (limitDie n hot2) (limitDie n hot2 (l.foldl (limitDie n hot2) s) die)) := .foldl r (fun s e he =>
    limitDie_spares n hot2 s hdie fun h => (List.nodup_cons.1 hr).1 (h ▸ he)) _
  obtain ⟨c, hc, hcx, -⟩ := hafter.kept _ hown
  refine ⟨c, by rw [List.foldl_append]; exact hc, hcx.trans ?_⟩
  have hlim : (x.limited n hot2 die).unreferenced = (d.limited n hot2 die).unreferenced := congrArg (Die.limited n hot2 die) hxd
  split
  · exact (congrArg Die.whenLost hlim :)
  · exact hlim

/-- The state of a refresh after all its limits are checked, before the page is written. -/
def State.limitsChecked (s : State) : State :=
  let u : State := { s with freeNo := s.freeNo + 1 }
  [(8, (0x7 : BitVec 64)), (9, 0x800), (10, 0x1000)].foldl (limitOther s.freeNo)
    (((List.range 8).filter (dieUp u)).foldl (limitDie s.freeNo (packageHot u s.freeNo)) u)

/-- A state with another telemetry page. -/
def State.withPage (s : State) (m : SMap 8) : State := { s with telemetry := m }

theorem withPage_telemetry (s : State) (m : SMap 8) : (s.withPage m).telemetry = m := rfl
theorem findDie_withPage (s : State) (m : SMap 8) (k : Nat) : findDie (s.withPage m) k = findDie s k := rfl
theorem dieUp_withPage (s : State) (m : SMap 8) (k : Nat) : dieUp (s.withPage m) k = dieUp s k := rfl

theorem telemetryRefresh_eq {s : State} (h : 1200000 ≤ (s.cycle - ofBytes 64 (mgetList s.telemetry 0 8)).toNat) :
    exec .telemetryRefresh s =
      .next (s.limitsChecked.withPage (msetList s.limitsChecked.telemetry 0 (telemetryPage s.freeNo s.limitsChecked))) := by
  have hnot : ¬ s.cycle - ofBytes 64 (mgetList s.telemetry 0 8) < 1200000 := by
    rw [BitVec.lt_def]
    exact Nat.not_lt.2 h
  change execTelemetryRefresh s = _
  unfold execTelemetryRefresh
  rw [if_neg hnot]
  rfl

theorem limitsChecked_cycle (s : State) : s.limitsChecked.cycle = s.cycle :=
  ((foldl_guarded_cycle (limitOther_guarded_cycle s.freeNo) _ _).trans (foldl_guarded_cycle (limitDie_guarded_cycle s.freeNo _) _ _) :)

theorem limitsChecked_own {s : State} {die : Nat} {d : Die} (hup : dieUp s die = true) (hd : findDie s die = some d) :
    ∃ c, findDie s.limitsChecked die = some c ∧
      c.unreferenced = (if 1050 ≤ signedOf 16 (measured s.freeNo (27 + die)).toNat then (d.limited s.freeNo (packageHot s s.freeNo) die).whenLost
        else d.limited s.freeNo (packageHot s s.freeNo) die).unreferenced := by
  have hdie : die < 8 := lt_of_dieUp hup
  have hbits : ∀ k < 8, ∀ e ∈ [(8, (0x7 : BitVec 64)), (9, 0x800), (10, 0x1000)], e.2.getLsbD (3 + k) = false := by decide
  obtain ⟨x, hx, hxd⟩ := limitDies_own (n := s.freeNo) (hot2 := packageHot s s.freeNo) (s := { s with freeNo := s.freeNo + 1 }) hup hd
  have hspare (l : List (Nat × BitVec 64)) (h : ∀ e ∈ l, e.2.getLsbD (3 + die) = false) (u : State) :
      SparesDie die u (l.foldl (limitOther s.freeNo) u) := .foldl l (fun u e he => limitOther_spares s.freeNo u hdie (h e he)) u
  obtain ⟨c, hc, hcx, -⟩ := (hspare [(8, 0x7), (9, 0x800), (10, 0x1000)] (hbits die hdie) _).kept x hx
  exact ⟨c, hc, hcx.trans hxd⟩

/-! ### The page -/

theorem getD_flatMap_const {α : Type} {c : Nat} {f : α → List Byte} (hf : ∀ a, (f a).length = c) {i : Nat} (hi : i < c) (l : List α) {j : Nat}
    (hj : j < l.length) : (l.flatMap f).getD (c * j + i) 0 = (f l[j]).getD i 0 := by
  induction l generalizing j with
  | nil => cases hj
  | cons a l ih =>
    rw [List.flatMap_cons]
    cases j with
    | zero => rw [List.getD_append _ _ _ _ (by rw [hf]; omega), Nat.mul_zero, Nat.zero_add]; rfl
    | succ j =>
      rw [List.getD_append_right _ _ _ _ (by rw [hf, Nat.mul_succ]; omega), hf, show c * (j + 1) + i - c = c * j + i by rw [Nat.mul_succ]; omega]
      exact ih (Nat.lt_of_succ_lt_succ hj)

theorem length_toBytes {w : Nat} (x : BitVec w) (n : Nat) : (toBytes x n).length = n := by simp [toBytes]

theorem length_telemetryPage (n : Nat) (s : State) : (telemetryPage n s).length = 176 := by
  simp [telemetryPage, natBytes, length_toBytes, zeros, List.length_flatMap]

/-- The page's clocks lie behind TIME, and the powers at 0x20. -/
theorem telemetryPage_head (n : Nat) (s : State) : ∃ clocks rest : List Byte, clocks.length = 16 ∧
    telemetryPage n s = toBytes s.cycle 8 ++ (clocks ++ (zeros 8 ++ ((List.range 27).flatMap (fun i => toBytes (powerOf s n i) 4) ++ rest))) := by
  refine ⟨_, _, ?_, by unfold telemetryPage; simp only [List.append_assoc]; rfl⟩
  simp [natBytes, length_toBytes, List.length_flatMap]

theorem telemetryPage_cycle (n : Nat) (s : State) {k : Nat} (hk : k < 8) : (telemetryPage n s).getD k 0 = byteAt s.cycle k := by
  obtain ⟨clocks, rest, -, h⟩ := telemetryPage_head n s
  rw [h, List.getD_append _ _ _ _ (by rwa [length_toBytes])]
  exact getD_toBytes _ hk 0

theorem telemetryPage_power (n : Nat) (s : State) {j i : Nat} (hj : j < 27) (hi : i < 4) :
    (telemetryPage n s).getD (0x20 + (4 * j + i)) 0 = byteAt (powerOf s n j) i := by
  obtain ⟨clocks, rest, hc, h⟩ := telemetryPage_head n s
  have hz : (zeros 8).length = 8 := rfl
  have hp : ((List.range 27).flatMap fun i => toBytes (powerOf s n i) 4).length = 108 := by simp [length_toBytes, List.length_flatMap]
  rw [h, List.getD_append_right _ _ _ _ (by rw [length_toBytes]; omega), List.getD_append_right _ _ _ _ (by rw [length_toBytes]; omega),
    List.getD_append_right _ _ _ _ (by rw [length_toBytes, hc, hz]; omega), List.getD_append _ _ _ _ (by rw [length_toBytes, hc, hz, hp]; omega),
    show 0x20 + (4 * j + i) - (toBytes s.cycle 8).length - clocks.length - (zeros 8).length = 4 * j + i by rw [length_toBytes, hc, hz]; omega,
    getD_flatMap_const (fun a => length_toBytes (powerOf s n a) 4) hi _ (by simpa using hj), List.getElem_range]
  exact getD_toBytes _ hi 0

theorem mget_telemetryPage (m : SMap 8) (n : Nat) (s : State) {k : Nat} (hk : k < 176) :
    mget (msetList m 0 (telemetryPage n s)) k = (telemetryPage n s).getD k 0 := by
  rw [mget_msetList, length_telemetryPage, if_pos (by omega), Nat.sub_zero]

/-- The power of a die that is not up, and of its stacks, reads 0 (R486). -/
theorem mget_power_down (m : SMap 8) (n : Nat) {s : State} {k i : Nat} (hk : k < 8) (hi : i < 4) (h : dieUp s k = false) :
    mget (msetList m 0 (telemetryPage n s)) (0x20 + 4 * k + i) = 0 ∧ mget (msetList m 0 (telemetryPage n s)) (0x40 + 8 * k + i) = 0 ∧
      mget (msetList m 0 (telemetryPage n s)) (0x44 + 8 * k + i) = 0 := by
  have hzero (j : Nat) (hj : j < 24) (hd : (if j < 8 then dieUp s j else dieUp s ((j - 8) / 2)) = false) :
      mget (msetList m 0 (telemetryPage n s)) (0x20 + (4 * j + i)) = 0 := by
    have hp : powerOf s n j = 0 := by
      unfold powerOf
      rw [if_pos hj, hd]
      rfl
    rw [mget_telemetryPage m n s (by omega), telemetryPage_power n s (by omega) hi, hp]
    unfold byteAt
    exact BitVec.extractLsb'_zero
  have hdie := hzero k (by omega) (by rw [if_pos hk, h])
  have hlow := hzero (8 + 2 * k) (by omega) (by rw [if_neg (by omega), show (8 + 2 * k - 8) / 2 = k by omega, h])
  have hhigh := hzero (9 + 2 * k) (by omega) (by rw [if_neg (by omega), show (9 + 2 * k - 8) / 2 = k by omega, h])
  have hat : 0x20 + 4 * k + i = 0x20 + (4 * k + i) ∧ 0x40 + 8 * k + i = 0x20 + (4 * (8 + 2 * k) + i) ∧
      0x44 + 8 * k + i = 0x20 + (4 * (9 + 2 * k) + i) := by omega
  rw [hat.1, hat.2.1, hat.2.2]
  exact ⟨hdie, hlow, hhigh⟩

theorem powerOf_toNat (s : State) (n k : Nat) : (powerOf s n k).toNat =
    if (if k < 8 then dieUp s k else if k < 24 then dieUp s ((k - 8) / 2) else if k = 24 then caldUp s else s.ready.getLsbD (k - 14)) then
      (Config.telemetry n k).toNat else 0 := by
  unfold powerOf otherUp
  have h24 (h : ¬ k < 24) : (k - 24 = 0 ↔ k = 24) ∧ 10 + (k - 24) = k - 14 := by omega
  have hup : (if k < 8 then dieUp s k else if k < 24 then dieUp s ((k - 8) / 2) else if k - 24 = 0 then caldUp s else s.ready.getLsbD (10 + (k - 24))) =
      if k < 8 then dieUp s k else if k < 24 then dieUp s ((k - 8) / 2) else if k = 24 then caldUp s else s.ready.getLsbD (k - 14) := by
    by_cases h : k < 24
    · simp only [if_pos h]
    · obtain ⟨h0, h14⟩ := h24 h
      simp only [if_neg h, h0, h14]
  rw [hup]
  exact apply_ite BitVec.toNat _ _ _

theorem packageHot_iff (s : State) (n : Nat) {w : Nat → Nat} (hw : ∀ k, (powerOf s n k).toNat = w k) :
    packageHot s n = true ↔ 250000 ≤ w 24 ∨ 80000 ≤ w 25 ∨ 80000 ≤ w 26 ∨ 4200000 ≤ ((List.range 27).map w).sum + 190000 := by
  unfold packageHot
  simp only [hw, Bool.or_eq_true, decide_eq_true_eq, or_assoc]

/-- The clock of a die that a refresh has checked (R45). -/
theorem limited_clock (n : Nat) {hot2 : Bool} {shared : Prop} [Decidable shared] (hs : hot2 = true ↔ shared) (die : Nat) (d : Die) :
    (d.limited n hot2 die).clock = if (380000 ≤ (Config.telemetry n die).toNat ∨ 35000 ≤ (Config.telemetry n (8 + 2 * die)).toNat ∨
      35000 ≤ (Config.telemetry n (9 + 2 * die)).toNat ∨
      (950 ≤ (Config.telemetry n (27 + die)).toNat % 2 ^ 16 ∧ (Config.telemetry n (27 + die)).toNat % 2 ^ 16 < 2 ^ 15) ∨ shared) ∧ 600 < d.clock
      then d.clock - 100 else d.clock := by
  have h950 := le_signedOf (c := 950) (by decide) (Config.telemetry n (27 + die)).toNat
  unfold Die.limited measured
  simp only [← hs, ← h950, Nat.cast_ofNat]

theorem telemetryRefresh_event {s : State} {die : Nat} {d : Die} (hup : dieUp s die = true) (hd : findDie s die = some d)
    (ht : 1200000 ≤ (s.cycle - ofBytes 64 (mgetList s.telemetry 0 8)).toNat) :
    let m := fun (k : Nat) => Config.telemetry s.freeNo k
    let hot := (m (27 + die)).toNat % 2 ^ 16
    let up := fun (k : Nat) => if k < 8 then dieUp s k else if k < 24 then dieUp s ((k - 8) / 2) else if k = 24 then caldUp s else s.ready.getLsbD (k - 14)
    let w := fun (k : Nat) => if up k then (m k).toNat else 0
    let shared := 250000 ≤ w 24 ∨ 80000 ≤ w 25 ∨ 80000 ≤ w 26 ∨ 4200000 ≤ ((List.range 27).map w).sum + 190000
    ∃ u c, exec .telemetryRefresh s = .next u ∧ findDie u die = some c ∧ c.power = (m die).toNat ∧ c.temp = hot ∧
      (c.clock = if (380000 ≤ (m die).toNat ∨ 35000 ≤ (m (8 + 2 * die)).toNat ∨ 35000 ≤ (m (9 + 2 * die)).toNat ∨
        (950 ≤ hot ∧ hot < 2 ^ 15) ∨ shared) ∧ 600 < d.clock then d.clock - 100 else d.clock) ∧
      ((1050 ≤ hot ∧ hot < 2 ^ 15) → c.lost = true ∧ dieUp u die = false) ∧ (∀ k, k < 8 → mget u.telemetry k = byteAt s.cycle k) ∧
      ∀ k, k < 8 → dieUp u k = false → ∀ i, i < 4 → mget u.telemetry (0x20 + 4 * k + i) = 0 ∧ mget u.telemetry (0x40 + 8 * k + i) = 0 ∧
        mget u.telemetry (0x44 + 8 * k + i) = 0 := by
  intro m hot up w shared
  have hshared : packageHot s s.freeNo = true ↔ shared := packageHot_iff s s.freeNo (powerOf_toNat s s.freeNo)
  have h1050 : (1050 : Int) ≤ signedOf 16 (measured s.freeNo (27 + die)).toNat ↔ 1050 ≤ hot ∧ hot < 2 ^ 15 := le_signedOf (c := 1050) (by decide) _
  obtain ⟨c, hc, hcl⟩ := limitsChecked_own hup hd
  have hkept : c.power = (d.limited s.freeNo (packageHot s s.freeNo) die).power ∧ c.temp = (d.limited s.freeNo (packageHot s s.freeNo) die).temp ∧
      c.clock = (d.limited s.freeNo (packageHot s s.freeNo) die).clock := by
    split at hcl
    · exact ⟨(congrArg Die.power hcl :), (congrArg Die.temp hcl :), (congrArg Die.clock hcl :)⟩
    · exact ⟨(congrArg Die.power hcl :), (congrArg Die.temp hcl :), (congrArg Die.clock hcl :)⟩
  obtain ⟨hpower, htemp, hclock⟩ := hkept
  refine ⟨_, c, telemetryRefresh_eq ht, (findDie_withPage ..).trans hc, hpower, htemp, hclock.trans (limited_clock s.freeNo hshared die d),
    fun hhot => ?_, fun k hk => ?_, fun k hk hdown i hi => ?_⟩
  · have hlost : c.lost = true := by
      rw [if_pos (h1050.2 hhot)] at hcl
      exact (congrArg Die.lost hcl :)
    refine ⟨hlost, ?_⟩
    unfold dieUp
    rw [findDie_withPage, hc]
    dsimp only
    rw [hlost]
    exact Bool.and_false _
  · rw [withPage_telemetry, mget_telemetryPage _ _ _ (by omega), telemetryPage_cycle _ _ hk, limitsChecked_cycle]
  · rw [withPage_telemetry]
    exact mget_power_down _ _ hk hi (dieUp_withPage .. ▸ hdown)

end Sys2Proof.Machine
end

section
open Sys2Proof Sys2Proof.Machine

/-- Settles O60: a die that is lost leaves what the Caldera's own acts on its windows and instances do not touch; a refresh checks each die
by itself, and a reset brings functions up one after the other. -/
theorem packageEvents : Obligations.PackageEvents := by
  unfold Obligations.PackageEvents
  exact ⟨fun _ _ _ hup hd => dieLost_event hup hd, fun _ _ _ hup hd ht => telemetryRefresh_event hup hd ht, packageReset_event,
    fun _ _ hn => bringUp_step hn⟩

end

section
/-! Lemmas for the three instruction encodings (R46, R68, R366, R367, R420): packing and unpacking of the fields, which constructor each
opcode names, and what well-formedness says of the fields that choose among an opcode's constructors. -/

namespace Sys2Proof.Machine

open Sys2Proof

/-! ## Bits of a word put together from fields -/

theorem extractLsb'_append_high {v w start len : Nat} {x : BitVec v} {y : BitVec w} (h : w ≤ start) :
    (x.append y).extractLsb' start len = x.extractLsb' (start - w) len := BitVec.extractLsb'_append_eq_of_le h

theorem extractLsb'_append_low {v w : Nat} {x : BitVec v} {y : BitVec w} : (x.append y).extractLsb' 0 w = y := BitVec.extractLsb'_append_eq_right

theorem getLsbD_append_high {v w i : Nat} {x : BitVec v} {y : BitVec w} (h : w ≤ i) : (x.append y).getLsbD i = x.getLsbD (i - w) := by
  show (x ++ y).getLsbD i = _
  simp [BitVec.getLsbD_append, Nat.not_lt.mpr h]

theorem getLsbD_append_bit {v : Nat} {x : BitVec v} {b : Bool} : (x.append (BitVec.ofBool b)).getLsbD 0 = b := by
  show (x ++ BitVec.ofBool b).getLsbD 0 = _
  simp [BitVec.getLsbD_append, -BitVec.getLsbD_eq_getElem]

theorem ofBool_getLsbD {n : Nat} (x : BitVec n) (i : Nat) : BitVec.ofBool (x.getLsbD i) = x.extractLsb' i 1 := by
  ext j hj
  obtain rfl : j = 0 := by omega
  simp

/-! ## The opcode tables of the encoder and the decoder -/

/-- Every instruction that an option holds stands at the entry `e` (opcode and fields) of the encoder's table `place`. -/
def PlacedAt {α : Type} (place : Instr → Option (Nat × α)) (e : Nat × α) (o : Option Instr) : Prop := ∀ i, o = some i → place i = some e

section
variable {α : Type} {place : Instr → Option (Nat × α)} {e : Nat × α}

theorem placedAt_none : PlacedAt place e none := fun _ h => nomatch h

theorem placedAt_some {i : Instr} (h : place i = some e) : PlacedAt place e (some i) := fun _ hi => Option.some.inj hi ▸ h

theorem placedAt_ite {c : Prop} [Decidable c] {a b : Option Instr} (ha : PlacedAt place e a) (hb : PlacedAt place e b) :
    PlacedAt place e (if c then a else b) := by
  split
  · exact ha
  · exact hb

end

theorem jCons_placed (m : Nat) (w : JWord) : PlacedAt jMajOf (m, w) (jCons m w) := by
  unfold jCons
  split
  all_goals repeat' apply placedAt_ite
  all_goals first | exact placedAt_none | exact placedAt_some rfl

theorem lCons_placed (op : Nat) (w : LWord) : PlacedAt lOpOf (op, w) (lCons op w) := by
  unfold lCons
  split
  all_goals repeat' apply placedAt_ite
  all_goals first | exact placedAt_none | exact placedAt_some rfl

theorem pCons_placed (ty : Nat) (p : Packet) : PlacedAt pTypeOf (ty, p) (pCons ty p) := by
  unfold pCons
  split
  all_goals repeat' apply placedAt_ite
  all_goals first | exact placedAt_none | exact placedAt_some rfl

theorem jMajOf_lt {i : Instr} {m : Nat} {w : JWord} (h : jMajOf i = some (m, w)) : m < 256 := by
  cases i <;> cases h <;> decide

theorem lOpOf_lt {i : Instr} {op : Nat} {w : LWord} (h : lOpOf i = some (op, w)) : op < 64 := by
  cases i <;> cases h <;> decide

theorem pTypeOf_lt {i : Instr} {ty : Nat} {p : Packet} (h : pTypeOf i = some (ty, p)) : ty < 256 := by
  cases i <;> cases h <;> decide

/-! ## Jolisol words -/

theorem jPack_eq (maj : Nat) (w : JWord) :
    jPack maj w = ((((((((((((BitVec.ofNat 8 maj).append w.min).append w.d).append w.a).append w.b).append w.grd).append
      (BitVec.ofBool w.gneg)).append w.la).append (BitVec.ofBool w.hlda)).append (BitVec.ofBool w.hldb)).append
      (BitVec.ofBool w.uni)).append w.rnd).append w.mod := rfl

theorem jUnpack_jPack (maj : Nat) (w : JWord) : jUnpack (jPack maj w) = w := by
  simp only [jUnpack, jPack_eq, extractLsb'_append_high, extractLsb'_append_low, getLsbD_append_high, getLsbD_append_bit, Nat.reduceLeDiff,
    Nat.reduceSub]

theorem jMaj_jPack (maj : Nat) (w : JWord) : jMaj (jPack maj w) = maj % 256 := by
  simp only [jMaj, bitsOf, jPack_eq, extractLsb'_append_high, Nat.reduceLeDiff, Nat.reduceSub]
  simp

theorem jPack_jUnpack (x : IWord) : jPack (jMaj x) (jUnpack x) = x := by
  simp only [jPack, jMaj, bitsOf, jUnpack, ofBool_getLsbD, BitVec.ofNat_toNat, BitVec.setWidth_eq,
    BitVec.extractLsb'_append_extractLsb'_eq_extractLsb']
  simp

theorem jIllegal_eq_none {w : JWord} {sp : JSpec} : jIllegal w sp = none ↔ sp.minOk = true ∧ step2Ok w sp = true ∧ step3Ok w sp = true := by
  unfold jIllegal
  split_ifs <;> simp_all

/-- A form's word passes steps 1 to 3 of Table 2-9 where the form is well formed. -/
theorem jIllegal_of_wellFormed {i : Instr} (hw : WellFormed i) {w : JWord} {sp : JSpec} (h : jspec 16 i = some (w, sp)) : jIllegal w sp = none := by
  unfold WellFormed illegal at hw
  rwa [h] at hw

theorem minOk_of_wellFormed {i : Instr} (hw : WellFormed i) {w : JWord} {sp : JSpec} (h : jspec 16 i = some (w, sp)) : sp.minOk = true :=
  (jIllegal_eq_none.1 (jIllegal_of_wellFormed hw h)).1

theorem more2_of_wellFormed {i : Instr} (hw : WellFormed i) {w : JWord} {sp : JSpec} (h : jspec 16 i = some (w, sp)) : sp.more2 = true := by
  obtain ⟨-, h2, -⟩ := jIllegal_eq_none.1 (jIllegal_of_wellFormed hw h)
  simp only [step2Ok, Bool.and_eq_true] at h2
  exact h2.2

theorem op_of_atomSpec {w : JWord} {ops : List Nat} {wide red : Bool} (h : (atomSpec w ops wide red).minOk = true) : bitsOf w.min 3 4 ∈ ops := by
  simp only [atomSpec, Bool.and_eq_true] at h
  exact List.contains_iff_mem.1 h.1.2

/-- The fields that choose among a major opcode's forms are those of the form (Table 2-7): MIN, its type code, an operation code, K or
a modifier field, as the form's checks fix them. -/
theorem jCons_of_jMajOf {i : Instr} (hw : WellFormed i) {m : Nat} {v : JWord} (h : jMajOf i = some (m, v)) : jCons m v = some i := by
  cases i with
  | call w | calls w | ret w | ifI w | elseI w | endif w | loopI w | breakI w | contI w | endloop w | rfl w | getid w | nop w | sleep w | p2v w
  | v2p w | ballot w | voteAll w | voteAny w | voteSame w | setmodeImm w | cctlWb w | cctlInv w | cctlIinv w | cctlInvrs w | cctlWball w | qcfg w
  | qcfgFree w | barT w | barC w | barD w | arriveT w | arriveC w | arriveD w | arriveG w | waitbT w | waitbC w | waitbD w | tfetch w | tfetchX w
  | tfetchXe w | dqstatQ w | dqstatErt w | dqstatGy w | dqstatHand w | collstat w | collstatW w | tlbinvPage w | tlbinvOwn w | tlbinvAll w =>
    cases h
    have hm := eq_of_beq (minOk_of_wellFormed hw rfl)
    change ite _ _ _ = _
    simp [hm]
  | getmode w | getmodeGen w | setmode w | setmodeGen w =>
    cases h
    have hm := eq_of_beq (minOk_of_wellFormed hw rfl)
    have hk := more2_of_wellFormed hw rfl
    change ite _ _ _ = _
    simp_all
  | movi w | mov w =>
    cases h
    have hm := minOk_of_wellFormed hw rfl
    change ite _ _ _ = _
    simp_all [intSpec]
  | pickAt w | pickBelow w | pickAbove w | pickFlip w | gpickAt w | gpickBelow w | gpickAbove w | gpickFlip w =>
    cases h
    have hm : jType _ = _ := eq_of_beq (minOk_of_wellFormed hw rfl)
    change ite _ _ _ = _
    simp [hm]
  | gballotPopc w | gballotAny w | gballotAll w | gballotPfx w | gballotMask w =>
    cases h
    have hm := eq_of_beq (minOk_of_wellFormed hw rfl)
    change ite _ _ _ = _
    simp [jType, bitsOf, hm]
  | qstatPos w | qstatLeft w | qstatStat w =>
    cases h
    have hk := eq_of_beq (more2_of_wellFormed hw rfl)
    change ite _ _ _ = _
    simp [hk]
  | atomAdd w | atomAnd w | atomOr w | atomXor w | atomExch w | atomFadd w | atomBfadd w | redAdd w | redAnd w | redOr w | redXor w | redFadd w
  | redBfadd w =>
    cases h
    have hop := List.mem_singleton.1 (op_of_atomSpec (minOk_of_wellFormed hw rfl))
    change ite _ _ _ = _
    simp [hop]
  | atomMin w | atomMax w | redMin w | redMax w =>
    cases h
    have hops := op_of_atomSpec (minOk_of_wellFormed hw rfl)
    change ite _ _ _ = _
    obtain hop | hop := List.mem_pair.1 hops <;> simp [hop]
  | _ => cases h <;> rfl

/-! ## Luanil words -/

/-- The 64-bit word of a Luanil opcode and its other fields (Table 13-5). -/
def lPack (op : Nat) (w : LWord) : BitVec 64 := ((((BitVec.ofNat 6 op).append w.flags).append w.slot).append w.key).append w.mask

theorem encodeLuanil_eq (i : Instr) : encodeLuanil i = (lOpOf i).map fun e => lPack e.1 e.2 := rfl

theorem lUnpack_lPack (op : Nat) (w : LWord) : lUnpack (lPack op w) = w := by
  simp only [lUnpack, lPack, extractLsb'_append_high, extractLsb'_append_low, Nat.reduceLeDiff, Nat.reduceSub]

theorem lOp_lPack (op : Nat) (w : LWord) : lOp (lPack op w) = op % 64 := by
  simp only [lOp, bitsOf, lPack, extractLsb'_append_high, Nat.reduceLeDiff, Nat.reduceSub]
  simp

theorem lPack_lUnpack (x : BitVec 64) : lPack (lOp x) (lUnpack x) = x := by
  show ((((BitVec.ofNat 6 (lOp x) ++ (lUnpack x).flags) ++ (lUnpack x).slot) ++ (lUnpack x).key) ++ (lUnpack x).mask) = x
  simp only [lOp, bitsOf, lUnpack, BitVec.ofNat_toNat, BitVec.setWidth_eq, BitVec.extractLsb'_append_extractLsb'_eq_extractLsb']
  simp

theorem flags_of_lLegal {flags : Nat} {slot key mask more : Bool} {w : LWord} (h : lLegal flags slot key mask more w = true) :
    w.flags.toNat &&& flags = w.flags.toNat ∧ more = true := by
  simp only [lLegal, Bool.and_eq_true, beq_iff_eq] at h
  exact ⟨h.1.1.1.1, h.2⟩

/-- A Luanil form's check holds where the form is well formed. -/
theorem lSpec_of_wellFormed {i : Instr} (hw : WellFormed i) (hj : jspec 16 i = none) {ok : Bool} (h : lSpec i = some ok) : ok = true := by
  unfold WellFormed illegal at hw
  rw [hj, h] at hw
  cases ok
  · cases hw
  · rfl

/-- FWD's legal flags leave DEST 0. -/
theorem dest_of_fwd_flags : ∀ f : BitVec 6, f.toNat &&& 0x27 = f.toNat → bitsOf f 3 2 = 0 := by decide

/-- FILL's legal flags, as far as all its forms share them, leave SRC 0. -/
theorem src_of_fill_flags : ∀ f : BitVec 6, f.toNat &&& 0x0B = f.toNat → bitsOf f 4 2 = 0 := by decide

/-- DEST of FWD and SRC of FILL are those of the form (Table 13-6). -/
theorem lCons_of_lOpOf {i : Instr} (hw : WellFormed i) {op : Nat} {v : LWord} (h : lOpOf i = some (op, v)) : lCons op v = some i := by
  cases i with
  | fwd w =>
    cases h
    exact if_pos (dest_of_fwd_flags _ (flags_of_lLegal (lSpec_of_wellFormed hw rfl rfl)).1)
  | fillSave w =>
    cases h
    exact if_pos (src_of_fill_flags _ (flags_of_lLegal (lSpec_of_wellFormed hw rfl rfl)).1)
  | fwdMem w | fwdRank w | fillSrc w | fillMem w =>
    cases h
    obtain ⟨-, hmore⟩ := flags_of_lLegal (lSpec_of_wellFormed hw rfl rfl)
    change ite _ _ _ = _
    simp_all
  | _ => cases h <;> rfl

/-! ## Packets -/

/-- A packet's header: its type, its length in words with the header, and its flags (R420). -/
def pkHeader (ty : Nat) (p : Packet) : Word := ((BitVec.ofNat 8 ty).append (BitVec.ofNat 12 (p.body.length + 1))).append p.flags

theorem encodePacket_eq (i : Instr) : encodePacket i = (pTypeOf i).map fun e => pkHeader e.1 e.2 :: e.2.body := rfl

theorem pkType_pkHeader (ty : Nat) (p : Packet) : pkType (pkHeader ty p) = ty % 256 := by
  simp only [pkType, bitsOf, pkHeader, extractLsb'_append_high, Nat.reduceLeDiff, Nat.reduceSub]
  simp

theorem pkLen_pkHeader (ty : Nat) (p : Packet) : pkLen (pkHeader ty p) = (p.body.length + 1) % 4096 := by
  simp only [pkLen, bitsOf, pkHeader, extractLsb'_append_high, Nat.le_refl, Nat.reduceSub, extractLsb'_append_low, BitVec.toNat_ofNat,
    Nat.reducePow]

theorem flags_pkHeader (ty : Nat) (p : Packet) : (pkHeader ty p).extractLsb' 0 12 = p.flags := extractLsb'_append_low

theorem pkHeader_fields (h : Word) {body : List Word} (hl : pkLen h = body.length + 1) :
    pkHeader (pkType h) { flags := h.extractLsb' 0 12, body := body } = h := by
  unfold pkHeader
  rw [← hl]
  show (BitVec.ofNat 8 (pkType h) ++ BitVec.ofNat 12 (pkLen h)) ++ h.extractLsb' 0 12 = h
  simp only [pkType, pkLen, bitsOf, BitVec.ofNat_toNat, BitVec.setWidth_eq, BitVec.extractLsb'_append_extractLsb'_eq_extractLsb']
  simp

theorem pkShape_eq_none {p : Packet} {len flags : Nat} {more : Bool} (h : pkShape p len flags more = none) : p.body.length = len ∧ more = true := by
  unfold pkShape at h
  split_ifs at h
  simp_all

/-- A well-formed packet's length fits the header's length field (Table 15-3). -/
theorem length_of_wellFormed {i : Instr} (hw : WellFormed i) {ty : Nat} {p : Packet} (h : pTypeOf i = some (ty, p)) : p.body.length < 4095 := by
  cases i with
  | nopPacket q =>
    cases h
    have hs : (if p.body.length < 4095 ∧ bitsOf p.flags 2 10 = 0 then none else some (Illegal.packet 2)) = none := hw
    split_ifs at hs with hp
    exact hp.1
  | launch q | write32 q | write64 q | waitMem q | atomicMemAdd q | atomicMemAnd q | atomicMemOr q | atomicMemExch q | atomicMemCas q | indirect q
  | condBegin q | condEnd q | loopBegin q | loopEnd q | fetchFence q | collective q | boSignal q | timestamp q | discardRange q | ertPreload q
  | setShare q | resync q =>
    cases h
    have hl := (pkShape_eq_none hw).1
    omega
  | _ => cases h

/-- AOP of an atomic packet is that of the form (R423). -/
theorem pCons_of_pTypeOf {i : Instr} (hw : WellFormed i) {ty : Nat} {p : Packet} (h : pTypeOf i = some (ty, p)) : pCons ty p = some i := by
  cases i with
  | atomicMemAdd q | atomicMemAnd q | atomicMemOr q | atomicMemExch q | atomicMemCas q =>
    cases h
    have hop := eq_of_beq (pkShape_eq_none hw).2
    change ite _ _ _ = _
    simp [hop]
  | _ => cases h <;> rfl

/-! ## What decodes -/

theorem decodeJolisol_eq_ok {x : IWord} {i : Instr} : decodeJolisol x = .ok i ↔ jCons (jMaj x) (jUnpack x) = some i ∧ WellFormed i := by
  unfold decodeJolisol
  cases jCons (jMaj x) (jUnpack x) with
  | none => simp
  | some j => cases hj : illegal j <;> simp [WellFormed] <;> grind

theorem decodeLuanil_eq_ok {x : BitVec 64} {i : Instr} : decodeLuanil x = .ok i ↔ lCons (lOp x) (lUnpack x) = some i ∧ WellFormed i := by
  unfold decodeLuanil
  cases lCons (lOp x) (lUnpack x) with
  | none => simp
  | some j => cases hj : illegal j <;> simp [WellFormed] <;> grind

theorem decodePacket_eq_ok {h : Word} {body : List Word} {i : Instr} :
    decodePacket (h :: body) = .ok i ↔
      pCons (pkType h) { flags := h.extractLsb' 0 12, body := body } = some i ∧ pkLen h = body.length + 1 ∧ WellFormed i := by
  rw [decodePacket]
  split
  case h_1 hn => simp [hn]
  case h_2 j hj =>
    by_cases hl : pkLen h = body.length + 1
    · cases hi : illegal j <;> simp [WellFormed, hl, hj] <;> grind
    · simp [hl]

end Sys2Proof.Machine

open Sys2Proof Sys2Proof.Machine

/-- Settles O5: the encoder's fields are read back as they were, and a well-formed form's fields name that form of its opcode. -/
theorem decodeOfEncode : Obligations.DecodeOfEncode := by
  unfold Obligations.DecodeOfEncode
  refine ⟨fun i x hw h => ?_, fun i x hw h => ?_, fun i ws hw h => ?_⟩
  · obtain ⟨⟨m, w⟩, hm, rfl⟩ := Option.map_eq_some_iff.1 h
    rw [decodeJolisol_eq_ok, jMaj_jPack, jUnpack_jPack, Nat.mod_eq_of_lt (jMajOf_lt hm)]
    exact ⟨jCons_of_jMajOf hw hm, hw⟩
  · obtain ⟨⟨op, w⟩, hm, rfl⟩ := Option.map_eq_some_iff.1 ((encodeLuanil_eq i).symm.trans h)
    rw [decodeLuanil_eq_ok, lOp_lPack, lUnpack_lPack, Nat.mod_eq_of_lt (lOpOf_lt hm)]
    exact ⟨lCons_of_lOpOf hw hm, hw⟩
  · obtain ⟨⟨ty, p⟩, hm, rfl⟩ := Option.map_eq_some_iff.1 ((encodePacket_eq i).symm.trans h)
    have hl : p.body.length < 4095 := length_of_wellFormed hw hm
    rw [decodePacket_eq_ok, pkType_pkHeader, pkLen_pkHeader, flags_pkHeader, Nat.mod_eq_of_lt (pTypeOf_lt hm), Nat.mod_eq_of_lt (Nat.succ_lt_succ hl)]
    exact ⟨pCons_of_pTypeOf hw hm, rfl, hw⟩

/-- Settles O6: an instruction that decodes stands at its word's opcode with its word's fields, which together are the word. -/
theorem encodeOfDecode : Obligations.EncodeOfDecode := by
  unfold Obligations.EncodeOfDecode
  refine ⟨fun i x h => ?_, fun i x h => ?_, fun i ws h => ?_⟩
  · obtain ⟨hc, hw⟩ := decodeJolisol_eq_ok.1 h
    refine ⟨hw, ?_⟩
    rw [encodeJolisol, jCons_placed _ _ _ hc, Option.map_some, jPack_jUnpack]
  · obtain ⟨hc, hw⟩ := decodeLuanil_eq_ok.1 h
    refine ⟨hw, ?_⟩
    rw [encodeLuanil_eq, lCons_placed _ _ _ hc, Option.map_some, lPack_lUnpack]
  · cases ws with
    | nil => cases h
    | cons hd body =>
      obtain ⟨hc, hl, hw⟩ := decodePacket_eq_ok.1 h
      refine ⟨hw, ?_⟩
      rw [encodePacket_eq, pCons_placed _ _ _ hc, Option.map_some, pkHeader_fields _ hl]

/-- Settles O4: each word's fields name its form and pass the form's checks, and the two worked instructions encode field by field. -/
theorem wordsDecode : Obligations.WordsDecode := by
  unfold Obligations.WordsDecode
  exact ⟨decodeJolisol_eq_ok.2 ⟨rfl, rfl⟩, rfl, decodeJolisol_eq_ok.2 ⟨rfl, rfl⟩, rfl, decodeLuanil_eq_ok.2 ⟨rfl, rfl⟩,
    decodeLuanil_eq_ok.2 ⟨rfl, rfl⟩, decodePacket_eq_ok.2 ⟨rfl, rfl, rfl⟩, decodePacket_eq_ok.2 ⟨rfl, rfl, rfl⟩, rfl, rfl⟩

end

section
/-! Lemmas for a step's turn (R70, R72, R81, R359, R365, R420): what each of the three instruction streams leads to where nothing holds its next
word back, and what the passing of time leaves alone. -/

namespace Sys2Proof.Machine

open Sys2Proof

/-! ## A Jolisol word -/

theorem prepIssue_fetched {s : State} {r : FragRef} {t : Team} {p : Spindle} {f : Frag} {word : IWord} (ht : findTeam s r.sp.team = some t)
    (hp : findSp s r.sp = some p) (hf : findFrag s r = some f) (hw : f.fetched = some word) :
    (∀ i, decodeJolisol word = .ok i → prepIssue s r = .run i { s with cur := .frag r word }) ∧
    (∀ e, decodeJolisol word = .error e → fragReady s t p f = true → windowLets p f (wordCls word) = true →
      prepIssue s r = .done (outState s (trapAt s r t p f word { cause := if e = .operand then 2 else 1, tmask := takingPart p f (jUnpack word) }))) := by
  unfold prepIssue
  simp only [ht, hp, hf, hw]
  refine ⟨fun i hi => by simp only [hi], fun e he hr hl => ?_⟩
  simp only [he, hr, hl, Bool.and_self, if_true]
  cases e <;> rfl

/-! ## A Luanil word -/

theorem prepLuanil_own {s : State} {u c : Nat} {x : Ctx} (hx : findCtx s u c = some x) (hup : caldUp s = true) (hlo : x.first ≤ x.pc)
    (hhi : x.pc < x.first + x.len) (hown : 1024 ≤ x.first) {i : Instr} (hi : decodeLuanil (mget s.store x.pc) = .ok i) :
    prepLuanil s u c = .run i { s with cur := .ctx u c } := by
  unfold prepLuanil
  simp only [hx, hup, hi]
  rw [if_neg (by decide), if_neg (by omega), if_neg (by omega)]

/-! ## A packet -/

/-- A packet's type is one of Table 15-3, and its length that of its type; NOP has any length. -/
theorem typeLen_of_wellFormed {i : Instr} (hw : WellFormed i) {ty : Nat} {p : Packet} (h : pTypeOf i = some (ty, p)) :
    ty ≤ 0x12 ∧ (typeLen ty).getD (p.body.length + 1) = p.body.length + 1 := by
  cases i with
  | nopPacket q =>
    cases h
    exact ⟨by decide, rfl⟩
  | launch q | write32 q | write64 q | waitMem q | atomicMemAdd q | atomicMemAnd q | atomicMemOr q | atomicMemExch q | atomicMemCas q | indirect q
  | condBegin q | condEnd q | loopBegin q | loopEnd q | fetchFence q | collective q | boSignal q | timestamp q | discardRange q | ertPreload q
  | setShare q | resync q =>
    cases h
    rw [(pkShape_eq_none hw).1]
    decide
  | _ => cases h

/-- A packet that decodes has a known type, a length of at least its header, and the length that its type asks for (R420, R431). -/
theorem header_of_decodePacket {ws : List Word} {i : Instr} {h : Word} (hd : decodePacket ws = .ok i) (hh : ws.head? = some h) :
    pkType h ≤ 0x12 ∧ 0 < pkLen h ∧ (typeLen (pkType h)).getD (pkLen h) = pkLen h := by
  obtain ⟨body, rfl⟩ : ∃ body, ws = h :: body := List.head?_eq_some_iff.1 hh
  obtain ⟨hc, hl, hw⟩ := decodePacket_eq_ok.1 hd
  obtain ⟨hty, htl⟩ := typeLen_of_wellFormed hw (pCons_placed _ _ _ hc)
  rw [hl]
  exact ⟨hty, Nat.succ_pos _, htl⟩

/-- The words of a queue's next packet lie within what its ring, or the buffer of an INDIRECT, holds (R420, R424). -/
def PacketFits (x : Queue) (len : Nat) : Prop :=
  (x.depth = 0 → x.level.pos + 4 * len ≤ x.wp ∧ x.level.pos % max 1 x.size + 4 * len ≤ x.level.len) ∧
  (x.depth ≠ 0 → x.level.pos + 4 * len ≤ x.level.len)

theorem nextPacket_run {s s0 s1 : State} {q : Nat} {x : Queue} {h : Word} {ws : List Word} {i : Instr} (hx : findQueue s q = some x)
    (hup : latheUp s = true) (harm : x.armed = true) (hwait : x.waiting = none) (hskip : x.level.skip = none) (hfit : PacketFits x (pkLen h))
    (hf : fetchWord s q x.level.pos = some (s0, h)) (hfs : fetchWords q x.level.pos (pkLen h) s0 = some (s1, ws)) (hh : ws.head? = some h)
    (hd : decodePacket ws = .ok i) (hsync : h.getLsbD 0 = false) :
    nextPacket s q = .run i { s1 with cur := .queue q (4 * pkLen h) } := by
  obtain ⟨hty, hpos, htl⟩ := header_of_decodePacket hd hh
  obtain ⟨hring, hbuf⟩ := hfit
  unfold nextPacket
  simp only [hx, hup, harm, hwait, hskip, hf, hfs, hd, hsync, hty, htl, decide_true, Bool.not_true, Option.isSome_none, Bool.false_eq_true, false_and,
    false_or, if_false, ne_eq, not_true_eq_false, or_false]
  by_cases hdep : x.depth = 0
  · obtain ⟨hwp, hlen⟩ := hring hdep
    simp only [hdep, decide_true, true_and, Bool.not_true, Bool.false_eq_true, false_and, if_false, if_true, decide_eq_true_eq]
    rw [if_neg (by omega), if_neg (by omega), if_neg (by omega), if_neg (by omega)]
  · have hlen := hbuf hdep
    simp only [hdep, decide_false, Bool.false_eq_true, false_and, if_false, Bool.not_false, true_and, decide_eq_true_eq]
    rw [if_neg (by omega), if_neg (by omega), if_neg (by omega)]

/-! ## Time -/

theorem tickTeam_id (s : State) (n : Nat) (t : Team) : (tickTeam s n t).id = t.id := by
  unfold tickTeam
  dsimp only
  split <;> rfl

theorem findTeam_tick (s : State) (n m : Nat) : findTeam (tick s n) m = (findTeam s m).map (tickTeam s n) := by
  show (s.teams.map (tickTeam s n)).find? (fun x => x.id == m) = _
  rw [List.find?_map]
  simp only [Function.comp_def, tickTeam_id]
  rfl

theorem spindle_map_tickSpindle (s : State) (t : Team) (c n : Nat) {k : Nat} {p : Spindle} (hp : t.spindle? k = some p) :
    ({ t with spindles := t.spindles.map (tickSpindle s t c n) } : Team).spindle? k = some (tickSpindle s t c n p) := by
  show (t.spindles.map (tickSpindle s t c n)).find? (fun x => x.spx == k) = _
  rw [List.find?_map]
  exact congrArg (Option.map _) hp

/-- Time leaves a spindle's registers, predicates and windows alone. -/
theorem spindle_tickTeam (s : State) (n : Nat) {t : Team} {k : Nat} {p : Spindle} (hp : t.spindle? k = some p) :
    ∃ q, (tickTeam s n t).spindle? k = some q ∧ q.v = p.v ∧ q.s = p.s ∧ q.p = p.p ∧ q.pend = p.pend := by
  unfold tickTeam
  dsimp only
  split
  · exact ⟨_, spindle_map_tickSpindle s t _ n hp, rfl, rfl, rfl, rfl⟩
  · exact ⟨p, hp, rfl, rfl, rfl, rfl⟩

theorem findSp_tick (s : State) (n : Nat) {r : SpRef} {p : Spindle} (hp : findSp s r = some p) :
    ∃ q, findSp (tick s n) r = some q ∧ q.v = p.v ∧ q.s = p.s ∧ q.p = p.p ∧ q.pend = p.pend := by
  obtain ⟨t, ht, hp⟩ := Option.bind_eq_some_iff.1 hp
  obtain ⟨q, hq, hrest⟩ := spindle_tickTeam s n hp
  refine ⟨q, ?_, hrest⟩
  unfold findSp
  rw [findTeam_tick, ht]
  exact hq

end Sys2Proof.Machine

open Sys2Proof Sys2Proof.Machine

/-- Settles O3: each kind of turn is prepared as its stream says, from the state that has taken the turn, which differs in bookkeeping alone. -/
theorem stepRunsDecoded : Obligations.StepRunsDecoded := by
  unfold Obligations.StepRunsDecoded
  refine ⟨fun s rs r t p f word hn hpick ht hp hf hw => ?_, fun s u cs c x hn hpick hx hup hlo hhi hown i hi => ?_,
    fun s q x h ws s0 s1 i hn hpick hx hup harm hwait hskip hring hbuf hf hfs hh hd hsync => ?_, fun s i hn hi => ?_, fun s n hn => ?_⟩
  · obtain ⟨hrun, htrap⟩ := prepIssue_fetched (s := takeTurn s) ht hp hf hw
    simp only [step, hn, prepare, hpick, Option.elim_some]
    refine ⟨fun i hi => by rw [hrun i hi], fun e he hr hl => ?_⟩
    rw [htrap e he hr hl]
    rfl
  · have hrun := prepLuanil_own (s := takeTurn s) hx hup hlo hhi hown hi
    simp only [step, hn, prepare, hpick, Option.elim_some, hrun]
  · have hrun := nextPacket_run (s := takeTurn s) hx hup harm hwait hskip ⟨hring, hbuf⟩ hf hfs hh hd hsync
    simp only [step, hn, prepare, hpick, Option.elim_some, prepPacket, hrun]
  · simp only [step, hn, prepare, hi, if_true]
  · refine ⟨tick (takeTurn s) n, by simp only [step, hn, prepare], rfl, rfl, rfl, fun sp p hp => findSp_tick (takeTurn s) n hp⟩

end

section
/-! Lemmas for the checks of an issue (R49, R52, R56, R70): the first check of Table 2-9's steps 4 to 7 that fails decides what an issue comes to,
whatever the form would do. -/

namespace Sys2Proof.Machine

open Sys2Proof

/-- Some v register that an instruction reads or writes lies at or above the allotment (R52). -/
theorem beyondAllot_iff {p : Spindle} {rs : List RegId} : beyondAllot p rs = true ↔ ∃ n, RegId.v n ∈ rs ∧ p.allot ≤ n := by
  unfold beyondAllot
  rw [List.any_eq_true]
  constructor
  · rintro ⟨r, hr, h⟩
    cases r with
    | v n => exact ⟨n, hr, of_decide_eq_true h⟩
    | _ => cases h
  · rintro ⟨n, hr, h⟩
    exact ⟨_, hr, decide_eq_true h⟩

/-- An instruction names a register in the way of an incomplete long-latency one of its fragment (R56). -/
theorem hazard_iff {p : Spindle} {f : Frag} {rd wr : List RegId} : hazard p f rd wr = true ↔
    ∃ y ∈ p.pend, y.frag = f.id ∧ y.complete = false ∧ ((∃ a ∈ rd, a ∈ y.wr) ∨ ∃ a ∈ wr, a ∈ y.wr ∨ a ∈ y.rd) := by
  simp only [hazard, openPend, List.any_eq_true, List.mem_filter, Bool.and_eq_true, Bool.or_eq_true, beq_iff_eq, Bool.not_eq_true',
    List.contains_iff_mem, and_assoc]

/-- A failed check is what the issue comes to, whatever the form does (R70). -/
theorem issue_of_check {i : Instr} {k : IssCls} {s : State} {x : Iss} {c : Cond} (ha : AtIssue i k s x) (hc : x.check i k = some c)
    (body : Iss → Out) : issue i k s body = x.trap c := by
  obtain ⟨r, word, t, p, f, w, sp, hcur, ht, hp, hf, hspec, hready, hlets, rfl⟩ := ha
  have hpro : prologue i k s = (issOf s r word w sp t p f).begin i k := by
    unfold prologue
    simp only [hcur, ht, hp, hf, hspec, hready, hlets, Bool.and_self, if_true]
  unfold issue
  rw [hpro, Iss.begin, hc]
  rfl

/-- An issue's class makes its form wait for its windows, or it does not; the former meets no hazard (R57). -/
def IssCls.waits (k : IssCls) : Bool := k.serial || k.modeSerial

section
variable {x : Iss} {i : Instr} {k : IssCls}

theorem check_beyond (h : beyondAllot x.p (jReads x.w x.sp ++ jWrites x.w x.sp) = true) :
    x.check i k = some { cause := 0x11, tmask := x.tp } := by
  unfold Iss.check
  simp only [h, if_true]

theorem check_hazard (ha : beyondAllot x.p (jReads x.w x.sp ++ jWrites x.w x.sp) = false) (hk : k.waits = false)
    (h : hazard x.p x.f (jReads x.w x.sp) (jWrites x.w x.sp) = true) : x.check i k = some { cause := 0x06, tmask := x.tp } := by
  obtain ⟨hs, hm⟩ := Bool.or_eq_false_iff.1 hk
  unfold Iss.check
  simp only [ha, hs, hm, h, Bool.false_eq_true, if_false, Bool.not_false, Bool.and_self, if_true]

theorem check_privilege (ha : beyondAllot x.p (jReads x.w x.sp ++ jWrites x.w x.sp) = false) (hk : k.waits = true) (hp : k.priv = true)
    (hfw : x.t.fw = false) (htp : x.tp ≠ 0) : x.check i k = some { cause := 0x05, reason := 7, tmask := x.tp } := by
  have hz : (!k.serial && !k.modeSerial) = false := by
    rw [← Bool.not_or]
    exact congrArg Bool.not hk
  unfold Iss.check
  simp only [ha, hz, hp, hfw, bne_iff_ne.2 htp, Bool.false_eq_true, if_false, Bool.false_and, Bool.not_false, Bool.and_self, if_true]

theorem check_partial (ha : beyondAllot x.p (jReads x.w x.sp ++ jWrites x.w x.sp) = false)
    (hz : hazard x.p x.f (jReads x.w x.sp) (jWrites x.w x.sp) = false) (hp : k.priv = false) (hpart : partialMask x.p x.f x.tp k.whole = true) :
    x.check i k = some { cause := 0x07, tmask := x.tp } := by
  unfold Iss.check
  simp only [ha, hz, hp, hpart, Bool.false_eq_true, if_false, Bool.and_false, Bool.false_and, if_true]

theorem check_port (ha : beyondAllot x.p (jReads x.w x.sp ++ jWrites x.w x.sp) = false)
    (hz : hazard x.p x.f (jReads x.w x.sp) (jWrites x.w x.sp) = false) (hp : k.priv = false) (hpart : k.whole = 0) (htp : x.tp ≠ 0) {q : Nat}
    (hq : q ∈ popPorts x.w x.sp) (hb : ∀ y, x.t.port q = some y → y.bound ≠ some x.p.spx) :
    x.check i k = some { cause := 0x08, reason := 1, tmask := x.tp } := by
  have hforeign : (((x.t.port q).map (·.bound)).getD none != some x.p.spx) = true := by
    cases hy : x.t.port q with
    | none => rfl
    | some y => simpa using hb y hy
  have hany : (popPorts x.w x.sp ++ (pushPort x.w x.sp).toList).any (fun q => ((x.t.port q).map (·.bound)).getD none != some x.p.spx) = true :=
    List.any_eq_true.2 ⟨q, List.mem_append_left _ hq, hforeign⟩
  unfold Iss.check
  simp only [ha, hz, hp, hpart, partialMask, hany, bne_iff_ne.2 htp, Bool.false_eq_true, if_false, Bool.and_false, Bool.false_and, Bool.or_self,
    Nat.reduceBEq, Bool.and_self, if_true]

end

end Sys2Proof.Machine

open Sys2Proof Sys2Proof.Machine

/-- Settles O10: every one of these forms issues through the same checks, whose order the statement's premises follow. -/
theorem issueChecks : Obligations.IssueChecks := by
  unfold Obligations.IssueChecks
  intro regs beyond clash
  have hbeyond (x : Iss) : ¬beyond x → beyondAllot x.p (jReads x.w x.sp ++ jWrites x.w x.sp) = false :=
    fun h => Bool.eq_false_iff.2 fun hb => h (beyondAllot_iff.1 hb)
  have hclash (x : Iss) : ¬clash x → hazard x.p x.f (jReads x.w x.sp) (jWrites x.w x.sp) = false :=
    fun h => Bool.eq_false_iff.2 fun hz => h (hazard_iff.1 hz)
  refine ⟨fun c hc w s x hx => ?_, fun c hc w s x hx hb hfw htp => ?_, fun w s x hx hb hcl htp => ?_⟩
  · obtain ⟨body, hexec⟩ : ∃ body, exec (c w) s = issue (c w) {} s body := by fin_cases hc <;> exact ⟨_, rfl⟩
    rw [hexec]
    exact ⟨fun hb => issue_of_check hx (check_beyond (beyondAllot_iff.2 hb)) body,
      fun hb hcl => issue_of_check hx (check_hazard (hbeyond x hb) rfl (hazard_iff.2 hcl)) body,
      fun hb hcl htp ⟨q, hq, hbound⟩ => issue_of_check hx (check_port (hbeyond x hb) (hclash x hcl) rfl rfl htp hq hbound) body⟩
  · obtain ⟨body, hexec⟩ : ∃ body, exec (c w) s = issue (c w) { serial := true, priv := true } s body := by fin_cases hc <;> exact ⟨_, rfl⟩
    exact hexec.trans (issue_of_check hx (check_privilege (hbeyond x hb) rfl rfl hfw htp) body)
  · exact issue_of_check hx (check_partial (hbeyond x hb) (hclash x hcl) rfl (by simpa [partialMask] using htp)) _

end

section
/-! Lemmas for transfers (R53, R87, R88, R100 to R102, R106): what an issue that acts comes to, the end of a form with an effect on its spindle
alone, and the target that the threads of a fragment supply. -/

namespace Sys2Proof.Machine

open Sys2Proof

/-- An issue that passes its checks does what its form does. -/
theorem issue_of_issues {i : Instr} {k : IssCls} {s : State} {x : Iss} (h : Issues i k s x) (body : Iss → Out) : issue i k s body = body x := by
  unfold issue
  rw [show prologue i k s = .go x from h]

/-- The word of an issue is its instruction's. -/
theorem word_of_issues {i : Instr} {k : IssCls} {s : State} {x : Iss} (h : Issues i k s x) {w : JWord} {sp : JSpec}
    (hspec : ∀ n, jspec n i = some (w, sp)) : x.w = w ∧ x.sp = sp := by
  have hx := (prologue_facts h).spec.symm.trans (hspec _)
  exact Prod.mk.inj (Option.some.inj hx)

/-! ## Effects on the issuing spindle alone -/

/-- A form with a mild effect on its spindle goes on at `pc`, its spindle as the effect leaves it. -/
theorem commit_endsWith {i : Instr} {k : IssCls} {s : State} {x : Iss} (h : IssFacts i k s x) (pc : BitVec 64) {eff : Spindle → Spindle}
    (he : Mild eff) {R : Spindle → Prop} (hR : R (eff x.p)) : EndsWith x pc R (.next (x.commit pc eff)) :=
  ⟨_, eff x.p, rfl, hR, commit_after h pc eff (eff x.p) [] he.spx ((he.frags _).trans (begun_frags x x.p)) (he.same _ _ (sameArch_start x))
    (((he.pend _).trans (begun_pend x x.p)).trans (List.append_nil _).symm)⟩

/-- A form that does nothing but go on. -/
theorem skip_endsWith {i : Instr} {k : IssCls} {s : State} {x : Iss} (h : IssFacts i k s x) : EndsWith x x.nextPc (fun q => q = x.p) x.skip :=
  commit_endsWith h x.nextPc mild_id rfl

/-- The link pair's write is a register write of one thread. -/
theorem writeLink_eq (x : Iss) : writeLink x = x.writeAll 2 ([0].map fun t => (t, x.nextPc.setWidth 128)) := rfl

theorem mild_writeAll (x : Iss) (n : Nat) (res : List (Nat × BitVec 128)) : Mild (x.writeAll n res) where
  spx p := restOf_spx (restOf_writeAll x n res p)
  frags p := restOf_frags (restOf_writeAll x n res p)
  pend p := restOf_pend (restOf_writeAll x n res p)
  same p q h := writeAll_same x n res p q h

/-- The registers of a register write, and nothing else, change. -/
theorem onlyRegs_writeAll (x : Iss) (n : Nat) {ths : List Nat} (f : Nat → BitVec 128) (hths : ∀ t ∈ ths, t < 8) :
    OnlyRegs x.p (x.writeAll n (ths.map fun t => (t, f t)) x.p) x.w.d n ths f :=
  ⟨writeAll_regs x n ths f x.p hths, restOf_same (restOf_writeAll ..), fun k t ht => writeAll_badV x n ths f x.p hths k t ht⟩

theorem onlyRegs_writeLink (x : Iss) : OnlyRegs x.p (writeLink x x.p) x.w.d 2 [0] fun _ => x.nextPc.setWidth 128 :=
  onlyRegs_writeAll x 2 (ths := [0]) (fun _ => x.nextPc.setWidth 128) (by simp)

theorem noteRet_eq (x : Iss) (tgt : BitVec 64) :
    noteRet x tgt = fun p => { p with rets := if debugOn x.s x.t then (x.f.pc, tgt) :: p.rets else p.rets } := by
  funext p
  unfold noteRet
  split <;> rfl

theorem mild_noteRet (x : Iss) (tgt : BitVec 64) : Mild (noteRet x tgt) := by
  rw [noteRet_eq]
  refine ⟨fun _ => rfl, fun _ => rfl, fun _ => rfl, fun p q h => ?_⟩
  unfold sameArch at h ⊢
  rw [← h]

/-! ## Who takes a transfer, and to where -/

/-- A mask with a thread has a first one. -/
theorem head_threadsOf_mem : ∀ m : BitVec 8, m ≠ 0 → (threadsOf m).headD 0 ∈ threadsOf m := by decide

theorem transfer_skip {x : Iss} (h : x.tp = 0) (go : Out) : transfer x go = x.skip := if_pos h

theorem transfer_taken {x : Iss} (h0 : x.tp ≠ 0) (h : x.tp = x.act) (go : Out) : transfer x go = go := by
  unfold transfer
  rw [if_neg h0, if_neg (not_not.2 h)]

theorem transfer_diverges {x : Iss} (h0 : x.tp ≠ 0) (h : x.tp ≠ x.act) (go : Out) : transfer x go = x.trapT 0x10 0 := by
  unfold transfer
  rw [if_neg h0, if_pos h]

section
variable {x : Iss} {tgt : BitVec 64} (go : BitVec 64 → Out)

/-- One target, well formed: the transfer goes there (R88). -/
theorem regTarget_goes (h0 : x.tp ≠ 0) (ht : ∀ t ∈ threadsOf x.tp, x.src2 x.w.a t = tgt) (hhi : bitsOf tgt 56 8 = 0) (hlo : bitsOf tgt 0 2 = 0) :
    regTarget x go = go tgt := by
  have hhead := ht _ (head_threadsOf_mem _ h0)
  unfold regTarget
  simp only [hhead]
  rw [if_neg (by simpa using ht), if_neg (by simp [hhi, hlo])]

/-- One target with a tag or off an instruction's boundary: cause 0x03 there (R88). -/
theorem regTarget_bad (h0 : x.tp ≠ 0) (ht : ∀ t ∈ threadsOf x.tp, x.src2 x.w.a t = tgt) (hbad : bitsOf tgt 56 8 ≠ 0 ∨ bitsOf tgt 0 2 ≠ 0) :
    regTarget x go = x.trap { cause := 0x03, tmask := x.tp, addr := tgt } := by
  have hhead := ht _ (head_threadsOf_mem _ h0)
  unfold regTarget
  simp only [hhead]
  rw [if_neg (by simpa using ht), if_pos hbad]

/-- Targets that differ: cause 0x10 (R87). -/
theorem regTarget_differs {t u : Nat} (ht : t ∈ threadsOf x.tp) (hu : u ∈ threadsOf x.tp) (hne : x.src2 x.w.a t ≠ x.src2 x.w.a u) :
    regTarget x go = x.trapT 0x10 0 := by
  have hany : ((threadsOf x.tp).any fun t => x.src2 x.w.a t != x.src2 x.w.a ((threadsOf x.tp).headD 0)) = true := by
    by_contra hall
    have hall : ∀ t ∈ threadsOf x.tp, x.src2 x.w.a t = x.src2 x.w.a ((threadsOf x.tp).headD 0) := by simpa using hall
    exact hne ((hall t ht).trans (hall u hu).symm)
  unfold regTarget
  exact if_pos hany

end

/-- A transfer to a supplied target: JMPS, CALLS or RET, each with its effect on the spindle (R101). -/
structure RegTransfer (c : JWord → Instr) (eff : Iss → BitVec 64 → Spindle → Spindle) : Prop where
  exec_eq : ∀ w s, exec (c w) s = issue (c w) ctlCls s fun x => transfer x (regTarget x fun tgt => .next (x.commit tgt (eff x tgt)))
  word : ∀ w, ∃ sp, ∀ n, jspec n (c w) = some (w, sp)
  mild : ∀ x tgt, Mild (eff x tgt)

theorem jmps_regTransfer : RegTransfer .jmps fun _ _ => id := ⟨fun _ _ => rfl, fun _ => ⟨_, fun _ => rfl⟩, fun _ _ => mild_id⟩
theorem calls_regTransfer : RegTransfer .calls fun x _ => writeLink x :=
  ⟨fun _ _ => rfl, fun _ => ⟨_, fun _ => rfl⟩, fun x _ => writeLink_eq x ▸ mild_writeAll x 2 _⟩
theorem ret_regTransfer : RegTransfer .ret noteRet := ⟨fun _ _ => rfl, fun _ => ⟨_, fun _ => rfl⟩, mild_noteRet⟩

section
variable {c : JWord → Instr} {eff : Iss → BitVec 64 → Spindle → Spindle} {w : JWord} {s : State} {x : Iss}

theorem RegTransfer.exec_of_issues (hc : RegTransfer c eff) (h : Issues (c w) ctlCls s x) :
    exec (c w) s = transfer x (regTarget x fun tgt => .next (x.commit tgt (eff x tgt))) := (hc.exec_eq w s).trans (issue_of_issues h _)

theorem RegTransfer.word_eq (hc : RegTransfer c eff) (h : Issues (c w) ctlCls s x) : x.w = w := by
  obtain ⟨_, hspec⟩ := hc.word w
  exact (word_of_issues h hspec).1

theorem RegTransfer.taken (hc : RegTransfer c eff) (h : Issues (c w) ctlCls s x) (h0 : x.tp ≠ 0) (hact : x.tp = x.act) {tgt : BitVec 64}
    (ht : ∀ t ∈ threadsOf x.tp, x.src2 w.a t = tgt) (hhi : bitsOf tgt 56 8 = 0) (hlo : bitsOf tgt 0 2 = 0) {R : Spindle → Prop} (hR : R (eff x tgt x.p)) :
    EndsWith x tgt R (exec (c w) s) := by
  rw [hc.exec_of_issues h, transfer_taken h0 hact, regTarget_goes _ h0 (hc.word_eq h ▸ ht) hhi hlo]
  exact commit_endsWith (prologue_facts h) tgt (hc.mild x tgt) hR

theorem RegTransfer.differs (hc : RegTransfer c eff) (h : Issues (c w) ctlCls s x) (hact : x.tp = x.act)
    (hne : ∃ t ∈ threadsOf x.tp, ∃ u ∈ threadsOf x.tp, x.src2 w.a t ≠ x.src2 w.a u) : exec (c w) s = x.trapT 0x10 0 := by
  obtain ⟨t, ht, u, hu, hne⟩ := hc.word_eq h ▸ hne
  have h0 : x.tp ≠ 0 := fun h0 => by
    rw [h0] at ht
    cases ht
  rw [hc.exec_of_issues h, transfer_taken h0 hact, regTarget_differs _ ht hu hne]

theorem RegTransfer.bad (hc : RegTransfer c eff) (h : Issues (c w) ctlCls s x) (h0 : x.tp ≠ 0) (hact : x.tp = x.act) {tgt : BitVec 64}
    (ht : ∀ t ∈ threadsOf x.tp, x.src2 w.a t = tgt) (hbad : bitsOf tgt 56 8 ≠ 0 ∨ bitsOf tgt 0 2 ≠ 0) :
    exec (c w) s = x.trap { cause := 0x03, tmask := x.tp, addr := tgt } := by
  rw [hc.exec_of_issues h, transfer_taken h0 hact, regTarget_bad _ h0 (hc.word_eq h ▸ ht) hbad]

end

/-- With no thread taking part, these forms do nothing but go on (R53). -/
theorem exec_skip {c : JWord → Instr} (hc : c ∈ ([.bra, .jmps, .call, .calls, .ret, .brd, .exitI, .sleep] : List (JWord → Instr))) {w : JWord}
    {s : State} {x : Iss} (h : Issues (c w) ctlCls s x) (h0 : x.tp = 0) : exec (c w) s = x.skip := by
  fin_cases hc
  · exact (issue_of_issues h _).trans (transfer_skip h0 _)
  · exact (issue_of_issues h _).trans (transfer_skip h0 _)
  · exact (issue_of_issues h _).trans (transfer_skip h0 _)
  · exact (issue_of_issues h _).trans (transfer_skip h0 _)
  · exact (issue_of_issues h _).trans (transfer_skip h0 _)
  · exact (issue_of_issues h _).trans (if_pos h0)
  · exact (issue_of_issues h _).trans (if_pos h0)
  · exact (issue_of_issues h _).trans (if_pos (Or.inl h0))

/-- A whole-fragment form that only some active threads take traps (R87). -/
theorem exec_diverges {c : JWord → Instr} (hc : c ∈ ([.bra, .jmps, .call, .calls, .ret] : List (JWord → Instr))) {w : JWord}
    {s : State} {x : Iss} (h : Issues (c w) ctlCls s x) (h0 : x.tp ≠ 0) (hact : x.tp ≠ x.act) : exec (c w) s = x.trapT 0x10 0 := by
  obtain ⟨go, hexec⟩ : ∃ go : Iss → Out, exec (c w) s = issue (c w) ctlCls s fun x => transfer x (go x) := by fin_cases hc <;> exact ⟨_, rfl⟩
  exact (hexec.trans (issue_of_issues h _)).trans (transfer_diverges h0 hact _)

end Sys2Proof.Machine

open Sys2Proof Sys2Proof.Machine

/-- Settles O19: a transfer is one of three things by who takes part in it, and one to a supplied target one of three by the targets. -/
theorem transfers : Obligations.Transfers := by
  unfold Obligations.Transfers
  refine ⟨fun c hc w s x h h0 => ?_, ⟨fun w s x h h0 hact => ?_, fun w s x h h0 hact => ?_, fun e he w s x tgt h h0 hact ht hhi hlo => ?_⟩,
    fun c hc w s x h h0 hact => exec_diverges hc h h0 hact, fun c hc w s x h hact => ?_⟩
  · rw [exec_skip hc h h0]
    exact skip_endsWith (prologue_facts h)
  · rw [show exec (.bra w) s = _ from issue_of_issues h _, transfer_taken h0 hact]
    exact commit_endsWith (prologue_facts h) _ mild_id rfl
  · rw [show exec (.call w) s = _ from issue_of_issues h _, transfer_taken h0 hact]
    exact commit_endsWith (prologue_facts h) _ (writeLink_eq x ▸ mild_writeAll x 2 _) (onlyRegs_writeLink x)
  · fin_cases he
    · exact jmps_regTransfer.taken h h0 hact ht hhi hlo rfl
    · exact calls_regTransfer.taken h h0 hact ht hhi hlo (onlyRegs_writeLink x)
    · exact ret_regTransfer.taken h h0 hact ht hhi hlo (congrFun (noteRet_eq x tgt) x.p)
  · obtain ⟨eff, hr⟩ : ∃ eff, RegTransfer c eff := by
      fin_cases hc
      · exact ⟨_, jmps_regTransfer⟩
      · exact ⟨_, calls_regTransfer⟩
      · exact ⟨_, ret_regTransfer⟩
    exact ⟨hr.differs h hact, fun tgt h0 ht hbad => hr.bad h h0 hact ht hbad⟩

end

section
/-! Lemmas for traps and returns (R58, R386, R389 to R391, R409, R410): what stays outside the spindle of a trap, the team handler's entry and the
return from it, and the firmware's and the debugger's way of taking a trap. -/

namespace Sys2Proof.Machine

open Sys2Proof

/-! ## Outside one spindle -/

theorem keepsOthers_refl (s : State) (r : SpRef) : KeepsOthers s s r := by
  refine ⟨rfl, fun _ _ => rfl, fun _ _ => rfl, fun a b ha hb => ?_⟩
  obtain rfl := Option.some.inj (ha.symm.trans hb)
  rfl

/-- An update of one spindle keeps everything else. -/
theorem keepsOthers_updSp {s u : State} {r : SpRef} (h : KeepsOthers s u r) {f : Spindle → Spindle} (hf : ∀ p, (f p).spx = p.spx) :
    KeepsOthers s (updSp u r f) r := by
  obtain ⟨hstate, hteams, hsps, hteam⟩ := h
  refine ⟨hstate, fun m hm => ?_, fun q hq => ?_, fun a b ha hb => ?_⟩
  · rw [findTeam_updSp, if_neg hm, hteams m hm]
  · rw [findSp_updSp _ _ _ _ hf, if_neg hq, hsps q hq]
  · rw [findTeam_updSp, if_pos rfl] at hb
    obtain ⟨c, hc, rfl⟩ := Option.map_eq_some_iff.1 hb
    exact hteam a c ha hc

/-- The updated spindle. -/
theorem findSp_updSp_self {s : State} {r : SpRef} {p : Spindle} {f : Spindle → Spindle} (hf : ∀ p, (f p).spx = p.spx) (hp : findSp s r = some p) :
    findSp (updSp s r f) r = some (f p) := by
  rw [findSp_updSp _ _ _ _ hf, if_pos rfl, hp, Option.map_some]

theorem findTeam_updSp_self {s : State} {r : SpRef} {t : Team} (f : Spindle → Spindle) (ht : findTeam s r.team = some t) :
    findTeam (updSp s r f) r.team = some { t with spindles := updWhere (fun x => x.spx == r.spx) f t.spindles } := by
  rw [findTeam_updSp, if_pos rfl, ht, Option.map_some]

/-! ## Nesting counters -/

/-- Writes at each key of a list, each with its key's value. -/
theorem mget_foldl_mset {w : Nat} (g : Nat → BitVec w) (l : List Nat) (m : SMap w) (k : Nat) :
    mget (l.foldl (fun m t => mset m t (g t)) m) k = if k ∈ l then g k else mget m k := by
  induction l generalizing m with
  | nil => simp
  | cons t l ih =>
    rw [List.foldl_cons, ih, mget_mset]
    by_cases hk : k ∈ l
    · simp [hk]
    · by_cases ht : k = t <;> simp [hk, ht]

theorem mem_threadsOf {m : BitVec 8} {t : Nat} : t ∈ threadsOf m ↔ t < 8 ∧ m.getLsbD t = true := by
  simp [threadsOf]

theorem mget_clearNest (p : Spindle) (m : BitVec 8) {t : Nat} (ht : t < 8) :
    mget (clearNest p m).nest t = if m.getLsbD t then 0 else mget p.nest t := by
  show mget ((threadsOf m).foldl (fun n t => mset n t 0) p.nest) t = _
  rw [mget_foldl_mset (fun _ => 0)]
  simp [mem_threadsOf, ht]

theorem mget_unpackNest (p : Spindle) (m : BitVec 8) {t : Nat} (ht : t < 8) :
    mget (unpackNest p m).nest t = if m.getLsbD t then p.enest.extractLsb' (6 * t) 6 else mget p.nest t := by
  show mget ((threadsOf m).foldl (fun n t => mset n t (p.enest.extractLsb' (6 * t) 6)) p.nest) t = _
  rw [mget_foldl_mset fun t => p.enest.extractLsb' (6 * t) 6]
  simp [mem_threadsOf, ht]

/-- Digits to the base 64 of the members of a list, each at its own place: the sum is below the next place, and a place holds its member's digit. -/
theorem digits_sum (P : Nat → Bool) (d : Nat → Nat) (hd : ∀ t, d t < 64) (n : Nat) :
    (((List.range n).filter P).map fun t => d t * 2 ^ (6 * t)).sum < 2 ^ (6 * n) ∧
      ∀ t, t < n → P t = true → (((List.range n).filter P).map fun t => d t * 2 ^ (6 * t)).sum / 2 ^ (6 * t) % 64 = d t := by
  induction n with
  | zero => simp
  | succ n ih =>
    obtain ⟨hlt, hdigit⟩ := ih
    have hnext : (((List.range (n + 1)).filter P).map fun t => d t * 2 ^ (6 * t)).sum =
        (((List.range n).filter P).map fun t => d t * 2 ^ (6 * t)).sum + (if P n then d n else 0) * 2 ^ (6 * n) := by
      rw [List.range_succ, List.filter_append, List.map_append, List.sum_append]
      cases hP : P n <;> simp [hP]
    generalize (((List.range n).filter P).map fun t => d t * 2 ^ (6 * t)).sum = S at hlt hdigit hnext
    rw [hnext]
    have htop : (if P n then d n else 0) < 64 := by
      split
      · exact hd n
      · decide
    refine ⟨?_, fun t ht hPt => ?_⟩
    · calc S + (if P n then d n else 0) * 2 ^ (6 * n) < 2 ^ (6 * n) + (if P n then d n else 0) * 2 ^ (6 * n) := Nat.add_lt_add_right hlt _
        _ = ((if P n then d n else 0) + 1) * 2 ^ (6 * n) := by ring
        _ ≤ 64 * 2 ^ (6 * n) := Nat.mul_le_mul_right _ htop
        _ = 2 ^ (6 * (n + 1)) := by ring
    · rcases Nat.lt_succ_iff_lt_or_eq.1 ht with hlt' | rfl
      · obtain ⟨k, rfl⟩ : ∃ k, n = t + 1 + k := ⟨n - t - 1, by omega⟩
        have hplace : (2 : Nat) ^ (6 * (t + 1 + k)) = 2 ^ (6 * t) * (64 * 2 ^ (6 * k)) := by
          rw [show 6 * (t + 1 + k) = 6 * t + (6 + 6 * k) by ring, pow_add, pow_add]
          norm_num
        rw [hplace, show ∀ c a b : Nat, c * (a * (64 * b)) = a * (64 * (c * b)) by intros; ring, Nat.add_mul_div_left _ _ (by positivity),
          Nat.add_mul_mod_self_left, hdigit t hlt' hPt]
      · rw [if_pos hPt, Nat.add_mul_div_right _ _ (by positivity), Nat.div_eq_of_lt hlt, Nat.zero_add, Nat.mod_eq_of_lt (hd t)]

/-- ENEST holds each thread's nesting counter (R389). -/
theorem extract_packNest (p : Spindle) (m : BitVec 8) {t : Nat} (ht : t < 8) (hm : m.getLsbD t = true) :
    (packNest p m).extractLsb' (6 * t) 6 = mget p.nest t := by
  obtain ⟨hlt, hdigit⟩ := digits_sum (fun t => m.getLsbD t) (fun t => (mget p.nest t).toNat) (fun t => (mget p.nest t).isLt) 8
  refine BitVec.eq_of_toNat_eq ?_
  rw [BitVec.extractLsb'_toNat, Nat.shiftRight_eq_div_pow]
  unfold packNest threadsOf
  rw [BitVec.toNat_ofNat, Nat.mod_eq_of_lt (lt_trans hlt (by decide))]
  exact hdigit t ht hm

/-! ## Taking a trap -/

/-- The spindle as its trapping fragment stops (R98, R99). -/
def stopFor (frag : Nat) (p : Spindle) : Spindle := { trapFrag frag p with stepFrag := none }

/-- The spindle as a debugger's breakpoint halts it (R409). -/
def haltFor (r : TrapRec) (p : Spindle) : Spindle := noLatch { p with halted := true, trec := msetList [] 0 (recBytes r) }

/-- The record that firmware gets: INFO0 tells that the team took no part, and of a trap in a handler (R390). -/
def fwRec (p : Spindle) (r : TrapRec) : TrapRec := { r with info0 := r.info0 ||| BitVec.ofNat 8 (16 + if p.tlv then 32 else 0) }

/-- The spindle as firmware's trap stops it (R391). -/
def stopFw (r : TrapRec) (p : Spindle) : Spindle := noLatch { p with st := .fwStopped r }

/-- A record at the end of a die's firmware queue (R391). -/
def queueTrap (sp : SpRef) (r : TrapRec) (d : Die) : Die := { d with trapQ := d.trapQ ++ [(some sp, r)] }

theorem frag_stopFor {p : Spindle} {f : Frag} (hf : p.frag? f.id = some f) :
    (stopFor f.id p).frag? f.id = some { f with st := .trapped, stall := none } := by
  show (p.updFrag f.id fun f => { f with st := .trapped, stall := none }).frag? f.id = _
  rw [frag_updFrag p f.id f.id (fun f => { f with st := .trapped, stall := none }) fun _ => rfl, if_pos rfl, hf, Option.map_some]

theorem logTrap_updSp (s : State) (sp : SpRef) (f : Spindle → Spindle) (r : TrapRec) : logTrap (updSp s sp f) r = updSp (logTrap s r) sp f := by
  unfold logTrap
  split <;> rfl

/-- An entry of the error log, where the cause asks for one, is all that a trap's log changes (log 84). -/
theorem logTrap_only (s : State) (r : TrapRec) :
    (logTrap s r).errCount = s.errCount + (if r.cause = 0x0D then 1 else 0) ∧ { logTrap s r with errLog := s.errLog, errCount := s.errCount } = s := by
  unfold logTrap
  by_cases h : r.cause = 0x0D
  · rw [if_neg (not_not.2 h), if_pos h]
    exact ⟨rfl, rfl⟩
  · rw [if_pos h, if_neg h]
    exact ⟨rfl, rfl⟩

theorem logTrap_of_ne {s : State} {r : TrapRec} (h : r.cause ≠ 0x0D) : logTrap s r = s := if_pos h

section
variable {s : State} {sp : SpRef} {t : Team} {p : Spindle} (r : TrapRec)

theorem mem_logTrap : (logTrap s r).mem = s.mem := (congrArg State.mem (logTrap_only s r).2 :)
theorem findDie_logTrap (m : Nat) : findDie (logTrap s r) m = findDie s m := (congrArg (fun u => findDie u m) (logTrap_only s r).2 :)
theorem findTeam_logTrap (m : Nat) : findTeam (logTrap s r) m = findTeam s m := (congrArg (fun u => findTeam u m) (logTrap_only s r).2 :)
theorem findSp_logTrap (q : SpRef) : findSp (logTrap s r) q = findSp s q := (congrArg (fun u => findSp u q) (logTrap_only s r).2 :)
theorem debugOn_logTrap : debugOn (logTrap s r) t = debugOn s t := (congrArg (fun u => debugOn u t) (logTrap_only s r).2 :)

/-- A spindle that may take a trap now delivers it once its fragment has stopped (R98). -/
theorem raiseTrap_deliver {frag : Nat} (hp : findSp s sp = some p) (hd : canDeliver p frag = true) :
    raiseTrap s sp frag r = deliver (updSp s sp (stopFor frag)) sp frag r := by
  unfold raiseTrap
  simp only [hp, hd, if_true]
  rfl

variable {f : Frag} (ht : findTeam s sp.team = some t) (hp : findSp s sp = some p) (hd : canDeliver p f.id = true)
include ht hp hd

/-- A trap on its way: the destination is decided by the team, the spindle's TLV and the debugger (R386, R390, R409). -/
theorem raiseTrap_eq : raiseTrap s sp f.id r =
    match trapDest (debugOn s t) t p r with
    | .handler => updSp (updSp (logTrap s r) sp (stopFor f.id)) sp (enterHandler t.thnd f.id r)
    | .debugger => updSp (updSp (logTrap s r) sp (stopFor f.id)) sp (haltFor r)
    | .firmware => updDie (updSp (updSp (logTrap s r) sp (stopFor f.id)) sp (stopFw (fwRec p r))) t.die (queueTrap sp (fwRec p r)) := by
  rw [raiseTrap_deliver r hp hd]
  unfold deliver
  dsimp only
  rw [logTrap_updSp, findTeam_updSp_self (stopFor f.id) ((findTeam_logTrap r _).trans ht),
    findSp_updSp_self (f := stopFor f.id) (fun _ => rfl) ((findSp_logTrap r _).trans hp)]
  dsimp only
  rw [show debugOn (updSp (logTrap s r) sp (stopFor f.id)) { t with spindles := updWhere (fun x => x.spx == sp.spx) (stopFor f.id) t.spindles } =
    debugOn s t from debugOn_logTrap r]
  rfl

end

/-- The handler's own fragment as it starts (R389). -/
def atHandler (thnd : BitVec 64) (f : Frag) : Frag := { f with st := .ready, pc := thnd, fetched := none, replay := none, stall := none }

/-- A spindle at its handler's start, field by field (R389). -/
theorem enterHandler_eq {p : Spindle} {i : Nat} {f : Frag} (thnd : BitVec 64) (r : TrapRec) (hf : p.frag? i = some f) :
    enterHandler thnd i r p = { p with
      trec := msetList [] 0 (recBytes r), epc := if r.cause = 0x0C then r.pc + 12 else r.pc, enest := packNest p (liveIn p f),
      epcW := r.info0.toNat % 16, tlv := true, hfrag := i, nest := (clearNest p (liveIn p f)).nest, latchA := none, latchB := none, held := none,
      pend := (endWindows p i).pend, frags := (p.updFrag i (atHandler thnd)).frags } := by
  unfold enterHandler
  rw [hf]
  rfl

theorem length_recBytes (r : TrapRec) : (recBytes r).length = 64 := rfl

/-- The spindle that enters its handler (R389). -/
theorem inHandler_enter {p : Spindle} {f : Frag} (thnd : BitVec 64) (r : TrapRec) (hf : p.frag? f.id = some f) :
    InHandler thnd p (enterHandler thnd f.id r (stopFor f.id p)) f.id r := by
  rw [enterHandler_eq thnd r (frag_stopFor hf)]
  refine ⟨rfl, rfl, fun k hk => ?_, rfl, rfl, rfl, rfl, rfl, rfl, rfl, rfl, rfl, fun g hg => ?_⟩
  · refine (mget_msetList _ _ _ _).trans ?_
    rw [if_pos ⟨Nat.zero_le k, by rw [length_recBytes]; omega⟩, Nat.sub_zero]
  · obtain rfl := Option.some.inj (hf.symm.trans hg)
    refine ⟨fun t ht => ?_, fun t ht hl => extract_packNest (stopFor f.id p) _ ht hl,
      atHandler thnd { f with st := .trapped, stall := none }, ?_, rfl, rfl, rfl⟩
    · exact (congrArg BitVec.toNat (mget_clearNest (stopFor f.id p) _ ht)).trans (apply_ite BitVec.toNat ..)
    · refine (frag_updFrag (stopFor f.id p) f.id f.id (atHandler thnd) fun _ => rfl).trans ?_
      rw [if_pos rfl, frag_stopFor hf, Option.map_some]

theorem enterHandler_spx (thnd : BitVec 64) (i : Nat) (r : TrapRec) (p : Spindle) : (enterHandler thnd i r p).spx = p.spx := by
  unfold enterHandler
  split <;> rfl

section
variable {s : State} {sp : SpRef} {t : Team} {p : Spindle} {f : Frag} {r : TrapRec}

/-- The spindle of a trap after its fragment has stopped and the destination has done its part. -/
theorem findSp_stopped (hp : findSp s sp = some p) (i : Nat) {g : Spindle → Spindle} (hg : ∀ p, (g p).spx = p.spx) :
    findSp (updSp (updSp (logTrap s r) sp (stopFor i)) sp g) sp = some (g (stopFor i p)) :=
  findSp_updSp_self hg (findSp_updSp_self (f := stopFor i) (fun _ => rfl) ((findSp_logTrap r sp).trans hp))

/-- Outside its spindle, a trap that stays in the team changes the error log alone. -/
theorem keepsOthers_stopped (i : Nat) {g : Spindle → Spindle} (hg : ∀ p, (g p).spx = p.spx) :
    KeepsOthers (logTrap s r) (updSp (updSp (logTrap s r) sp (stopFor i)) sp g) sp :=
  keepsOthers_updSp (keepsOthers_updSp (f := stopFor i) (keepsOthers_refl _ _) fun _ => rfl) hg

variable (ht : findTeam s sp.team = some t) (hp : findSp s sp = some p) (hd : canDeliver p f.id = true)
include ht hp hd

/-- A trap that the team handler takes (R386, R389). -/
theorem raiseTrap_handler (hf : p.frag? f.id = some f) (hthnd : t.thnd ≠ 0) (htlv : p.tlv = false) (hF : r.cause ≠ 0x0F)
    (hB : r.cause = 0x0B → debugOn s t = false ∧ r.reason ≠ 2) :
    (raiseTrap s sp f.id r).errCount = s.errCount + (if r.cause = 0x0D then 1 else 0) ∧
      KeepsOthers (logTrap s r) (raiseTrap s sp f.id r) sp ∧ ∃ q, findSp (raiseTrap s sp f.id r) sp = some q ∧ InHandler t.thnd p q f.id r := by
  have hdest : trapDest (debugOn s t) t p r = .handler := by
    unfold trapDest
    rw [if_neg hF, if_neg (fun h => by simp [(hB h.1).1] at h), if_neg (fun h => (hB h.1).2 h.2), if_neg (fun h => h.elim hthnd (by simp [htlv]))]
  rw [raiseTrap_eq r ht hp hd, hdest]
  exact ⟨(logTrap_only s r).1, keepsOthers_stopped f.id (enterHandler_spx t.thnd f.id r), _, findSp_stopped hp f.id (enterHandler_spx t.thnd f.id r),
    inHandler_enter _ _ hf⟩

/-- A trap that goes to firmware: it is queued, and the spindle stops (R390, R391). -/
theorem raiseTrap_firmware (hfw : r.cause = 0x0F ∨ r.cause = 0x0B ∧ r.reason = 2 ∨ t.thnd = 0 ∨ p.tlv = true)
    (hB : r.cause = 0x0B → debugOn s t = false) :
    raiseTrap s sp f.id r =
      updDie (updSp (updSp (logTrap s r) sp (stopFor f.id)) sp (stopFw (fwRec p r))) t.die (queueTrap sp (fwRec p r)) := by
  have hdest : trapDest (debugOn s t) t p r = .firmware := by
    unfold trapDest
    split_ifs with h1 h2 h3 h4
    · rfl
    · simp [hB h2.1] at h2
    · rfl
    · rfl
    · exact absurd hfw (by tauto)
  rw [raiseTrap_eq r ht hp hd, hdest]

/-- A breakpoint's trap while a debugger is attached: the spindle halts, its record in TREC (R409). -/
theorem raiseTrap_debugger (hB : r.cause = 0x0B) (hdbg : debugOn s t = true) :
    KeepsOthers s (raiseTrap s sp f.id r) sp ∧ findSp (raiseTrap s sp f.id r) sp = some (haltFor r (stopFor f.id p)) := by
  have hdest : trapDest (debugOn s t) t p r = .debugger := by
    unfold trapDest
    rw [if_neg (by rw [hB]; decide), if_pos ⟨hB, hdbg⟩]
  have hlog : logTrap s r = s := logTrap_of_ne (by rw [hB]; decide)
  have hkeeps := keepsOthers_stopped (s := s) (sp := sp) (r := r) f.id (g := haltFor r) fun _ => rfl
  have hsp := findSp_stopped (r := r) hp f.id (g := haltFor r) fun _ => rfl
  rw [hlog] at hkeeps hsp
  rw [raiseTrap_eq r ht hp hd, hdest, hlog]
  exact ⟨hkeeps, hsp⟩

/-- What firmware finds of a trap (R390, R391). -/
theorem firmware_trap (hfw : r.cause = 0x0F ∨ r.cause = 0x0B ∧ r.reason = 2 ∨ t.thnd = 0 ∨ p.tlv = true)
    (hB : r.cause = 0x0B → debugOn s t = false) :
    (raiseTrap s sp f.id r).mem = s.mem ∧ findSp (raiseTrap s sp f.id r) sp = some (stopFw (fwRec p r) (stopFor f.id p)) ∧
      ∀ d, findDie s t.die = some d → findDie (raiseTrap s sp f.id r) t.die = some (queueTrap sp (fwRec p r) d) := by
  rw [raiseTrap_firmware ht hp hd hfw hB]
  refine ⟨by rw [updDie_mem, updSp_mem, updSp_mem, mem_logTrap], findSp_stopped hp f.id fun _ => rfl, fun d hdie => ?_⟩
  rw [findDie_updDie _ _ _ (queueTrap sp (fwRec p r)) fun _ => rfl, if_pos rfl]
  exact congrArg (Option.map (queueTrap sp (fwRec p r))) ((findDie_logTrap r t.die).trans hdie)

end

/-! ## TRAP, BKPT, HALT and ERET -/

/-- A fragment that issues may take a trap now (R98). -/
theorem canDeliver_of_ready {s : State} {t : Team} {p : Spindle} {f : Frag} (h : fragReady s t p f = true) : canDeliver p f.id = true := by
  unfold fragReady at h
  simp only [Bool.and_eq_true] at h
  obtain ⟨⟨⟨⟨⟨⟨⟨⟨-, hrunning⟩, -⟩, -⟩, -⟩, htlv⟩, -⟩, -⟩, -⟩ := h
  unfold canDeliver
  rw [hrunning, htlv]
  rfl

theorem leaveHandler_spx (i : Nat) (p : Spindle) : (leaveHandler i p).spx = p.spx := by
  unfold leaveHandler
  split <;> rfl

theorem deliverPending_none {s : State} {sp : SpRef} {p : Spindle} (hp : findSp s sp = some p) (h : p.traps = []) : deliverPending s sp = s := by
  have hnone : nextTrap p = none := by
    unfold nextTrap
    rw [h]
    rfl
  unfold deliverPending
  rw [hp]
  simp only [hnone]

/-- The record of a condition other than lost data, raised at an issue. -/
def issRec (x : Iss) (c : Cond) : TrapRec := mkRec x.s x.t x.p.spx x.f.mask x.f.pc x.word { c with w := c.w + replayW x.f }

section
variable {i : Instr} {k : IssCls} {s : State} {x : Iss} (h : IssFacts i k s x)
include h

theorem facts_frag_self : x.p.frag? x.f.id = some x.f := by
  have hf := facts_frag h
  rwa [← frag_id hf] at hf

/-- A trap at an issue, other than for lost data. -/
theorem trap_eq {c : Cond} (hc : c.cause ≠ 0x0D) : x.trap c = .next (raiseTrap s x.r.sp x.f.id (issRec x c)) := by
  unfold Iss.trap trapAt issRec
  rw [if_neg fun h => hc h.1, h.state, frag_id (facts_frag h)]

/-- TRAP's and BKPT's trap enters the team handler (R389, R409). -/
theorem trap_handler {c : Cond} (hthnd : x.t.thnd ≠ 0) (htlv : x.p.tlv = false)
    (hc : c.cause = 0x0C ∨ c.cause = 0x0B ∧ c.reason = 1 ∧ debugOn s x.t = false) :
    ∃ u q, x.trap c = .next u ∧ KeepsOthers s u x.r.sp ∧ findSp u x.r.sp = some q ∧ InHandler x.t.thnd x.p q x.r.frag (issRec x c) := by
  have hcause : (issRec x c).cause = BitVec.ofNat 8 c.cause := rfl
  have hreason : (issRec x c).reason = BitVec.ofNat 8 c.reason := rfl
  have hD : c.cause ≠ 0x0D ∧ (issRec x c).cause ≠ 0x0D := by rcases hc with hc | ⟨hc, -⟩ <;> rw [hcause, hc] <;> decide
  have hF : (issRec x c).cause ≠ 0x0F := by rcases hc with hc | ⟨hc, -⟩ <;> rw [hcause, hc] <;> decide
  have hB : (issRec x c).cause = 0x0B → debugOn s x.t = false ∧ (issRec x c).reason ≠ 2 := by
    rcases hc with hc | ⟨-, hr, hdbg⟩
    · rw [hcause, hc]
      exact fun hne => absurd hne (by decide)
    · rw [hreason, hr]
      exact fun _ => ⟨hdbg, by decide⟩
  obtain ⟨-, hkeeps, q, hq, hin⟩ :=
    raiseTrap_handler h.team h.sp (canDeliver_of_ready h.ready) (facts_frag_self h) hthnd htlv hF hB
  rw [logTrap_of_ne hD.2] at hkeeps
  exact ⟨_, q, trap_eq h hD.1, hkeeps, hq, frag_id (facts_frag h) ▸ hin⟩

end

/-- The handler's fragment as an ERET sends it back (R58, R410). -/
def sentBack (p : Spindle) (f : Frag) : Frag :=
  { f with pc := p.epc, fetched := none, readyFor := 0,
           replay := if p.epcW = 0 then none else some (p.epc + BitVec.ofNat 64 (12 * (p.epcW + 1))) }

/-- The spindle behind an ERET, field by field (R410). -/
theorem leaveHandler_eq {p : Spindle} {i : Nat} {f : Frag} (hf : p.frag? i = some f) :
    leaveHandler i p = { p with
      nest := (unpackNest p (liveIn p f)).nest, tlv := false, latchA := none, latchB := none, held := none,
      frags := (p.updFrag i (sentBack p)).frags } := by
  unfold leaveHandler
  rw [hf]
  rfl

/-- Bookkeeping apart, a return depends on the architectural spindle alone. -/
theorem leaveHandler_of_sameArch {p q : Spindle} {i : Nat} {f : Frag} (h : sameArch q p) (hf : q.frag? i = some f) :
    leaveHandler i q = { p with
      nest := (unpackNest p (liveIn p f)).nest, tlv := false, latchA := none, latchB := none, held := none, pend := q.pend,
      stepFrag := q.stepFrag, frags := (q.updFrag i (sentBack p)).frags } := by
  rw [leaveHandler_eq hf]
  unfold sameArch at h
  rw [← h]
  rfl

/-- The issuing spindle and its fragment behind an issue without an effect of its own. -/
theorem frag_committed {i : Instr} {k : IssCls} {s : State} {x : Iss} (h : IssFacts i k s x) (pc : BitVec 64) :
    ((startOf x).updFrag x.r.frag (fragStep x.s.turnNo pc)).frag? x.r.frag = some (fragStep x.s.turnNo pc x.f) := by
  rw [frag_updFrag _ _ _ (fragStep x.s.turnNo pc) fun _ => rfl, if_pos rfl]
  have hstart : (startOf x).frag? x.r.frag = x.p.frag? x.r.frag := by simp [Spindle.frag?, begun_frags]
  rw [hstart, facts_frag h, Option.map_some]

theorem sameArch_committed (x : Iss) (pc : BitVec 64) : sameArch ((startOf x).updFrag x.r.frag (fragStep x.s.turnNo pc)) x.p := sameArch_start x

/-- An ERET from the handler, no trap waiting behind it: the state, and its spindle (R410). -/
theorem eret_leaves {w : JWord} {s : State} {x : Iss} (h : Issues (.eret w) sysCls s x) (h0 : x.tp ≠ 0) (htlv : x.p.tlv = true)
    (htraps : x.p.traps = []) :
    ∃ u, exec (.eret w) s = .next u ∧ KeepsOthers s u x.r.sp ∧
      findSp u x.r.sp = some (leaveHandler x.r.frag ((startOf x).updFrag x.r.frag (fragStep x.s.turnNo x.nextPc))) := by
  have hx := prologue_facts h
  obtain rfl := hx.state
  have hsp := findSp_updSp_self (leaveHandler_spx x.r.frag) (commit_findSp x.nextPc id hx.sp fun _ => rfl)
  have hnone : (leaveHandler x.r.frag ((startOf x).updFrag x.r.frag (fragStep x.s.turnNo x.nextPc))).traps = [] := by
    rw [leaveHandler_of_sameArch (sameArch_committed x _) (frag_committed hx x.nextPc)]
    exact htraps
  refine ⟨_, ?_, keepsOthers_updSp (commit_keeps x.nextPc id hx.team fun _ => rfl).1 (leaveHandler_spx x.r.frag), hsp⟩
  rw [show exec (.eret w) x.s = _ from issue_of_issues h _, if_neg h0, if_neg (by simp [htlv]), deliverPending_none hsp hnone]

theorem mild_halted : Mild fun p => { p with halted := true } := by
  refine ⟨fun _ => rfl, fun _ => rfl, fun _ => rfl, fun p q h => ?_⟩
  unfold sameArch at h ⊢
  rw [← h]

theorem haltFor_keeps (r : TrapRec) (i : Nat) (p : Spindle) :
    (haltFor r (stopFor i p)).halted = true ∧ (haltFor r (stopFor i p)).tlv = p.tlv ∧ (haltFor r (stopFor i p)).v = p.v ∧
      (haltFor r (stopFor i p)).s = p.s := ⟨rfl, rfl, rfl, rfl⟩

/-- The record's first bytes in TREC. -/
theorem trec_haltFor (r : TrapRec) (p : Spindle) : mget (haltFor r p).trec 0 = r.cause ∧ mget (haltFor r p).trec 1 = r.reason := by
  have hbyte : ∀ k, k < 64 → mget (msetList ([] : SMap 8) 0 (recBytes r)) k = (recBytes r).getD k 0 := fun k hk => by
    rw [mget_msetList, if_pos ⟨k.zero_le, by rw [length_recBytes]; omega⟩, Nat.sub_zero]
  exact ⟨hbyte 0 (by decide), hbyte 1 (by decide)⟩

section
variable {w : JWord} {s : State} {x : Iss}

/-- The conditions of TRAP, BKPT and HALT (R409). -/
def trapCond (w : JWord) (x : Iss) : Cond := { cause := 0x0C, tmask := x.tp, info := BitVec.ofNat 64 (bitsOf w.mod 0 16) }
def bkptCond (w : JWord) (x : Iss) : Cond := { cause := 0x0B, reason := 1, tmask := x.tp, info := BitVec.ofNat 64 (bitsOf w.mod 0 16) }
def haltCond (x : Iss) : Cond := { cause := 0x0B, reason := 2, tmask := x.tp }

theorem exec_bkpt (h : Issues (.bkpt w) sysCls s x) (h0 : x.tp ≠ 0) : exec (.bkpt w) s = x.trap (bkptCond w x) :=
  (issue_of_issues h _).trans (if_neg h0)

theorem bkpt_halts (h : Issues (.bkpt w) sysCls s x) (h0 : x.tp ≠ 0) (hdbg : debugOn s x.t = true) :
    ∃ u, exec (.bkpt w) s = .next u ∧ KeepsOthers s u x.r.sp ∧ findSp u x.r.sp = some (haltFor (issRec x (bkptCond w x)) (stopFor x.f.id x.p)) := by
  have hx := prologue_facts h
  obtain ⟨hkeeps, hsp⟩ := raiseTrap_debugger (r := issRec x (bkptCond w x)) hx.team hx.sp (canDeliver_of_ready hx.ready) rfl hdbg
  exact ⟨_, (exec_bkpt h h0).trans (trap_eq hx (c := bkptCond w x) (show 0x0B ≠ 0x0D by decide)), hkeeps, hsp⟩

theorem halt_stops (h : Issues (.halt w) sysCls s x) (h0 : x.tp ≠ 0) (hdbg : debugOn s x.t = false) :
    ∃ u, exec (.halt w) s = .next u ∧ u.mem = s.mem ∧
      findSp u x.r.sp = some (stopFw (fwRec x.p (issRec x (haltCond x))) (stopFor x.f.id x.p)) := by
  have hx := prologue_facts h
  obtain ⟨hmem, hsp, -⟩ := firmware_trap (r := issRec x (haltCond x)) hx.team hx.sp (canDeliver_of_ready hx.ready)
    (.inr (.inl ⟨rfl, rfl⟩)) fun _ => hdbg
  refine ⟨_, ?_, hmem, hsp⟩
  rw [show exec (.halt w) s = _ from issue_of_issues h _, if_neg h0, if_neg (by rw [hx.state, hdbg]; decide)]
  exact trap_eq hx (c := haltCond x) (show 0x0B ≠ 0x0D by decide)

end

end Sys2Proof.Machine

open Sys2Proof Sys2Proof.Machine

/-- Settles O48: a trap's destination decides its spindle's fate, and the forms that trap or return come down to it. -/
theorem trapsAndReturns : Obligations.TrapsAndReturns := by
  unfold Obligations.TrapsAndReturns
  refine ⟨fun s sp t p f r ht hp hf hd => ⟨fun hthnd htlv hF hB => raiseTrap_handler ht hp hd hf hthnd htlv hF hB, fun hfw hB => ?_⟩,
    fun w s x h h0 hthnd htlv => ?_, fun w s x h h0 => ⟨fun hthnd htlv hdbg => ?_, fun hdbg => ?_⟩,
    fun w s x h h0 => ⟨fun hdbg => ?_, fun hdbg => ?_⟩, fun w s x h h0 => ⟨fun htlv => ?_, fun htlv htraps => ?_⟩⟩
  · obtain ⟨hmem, hsp, hdie⟩ := firmware_trap ht hp hd (by tauto) hB
    exact ⟨hmem, _, _, hsp, rfl, rfl, rfl, rfl, congrArg (Option.map Frag.st) (frag_stopFor hf), rfl, fun d hd => by rw [hdie d hd]; rfl⟩
  · obtain ⟨u, q, hu, hkeeps, hq, hin⟩ :=
      trap_handler (prologue_facts h) (c := trapCond w x) hthnd htlv (.inl rfl)
    exact ⟨u, q, _, ((issue_of_issues h _).trans (if_neg h0)).trans hu, hkeeps, hq, hin, rfl, rfl, rfl, rfl, rfl, rfl⟩
  · obtain ⟨u, q, hu, hkeeps, hq, hin⟩ := trap_handler (prologue_facts h) (c := bkptCond w x) hthnd htlv (.inr ⟨rfl, rfl, hdbg⟩)
    exact ⟨u, q, _, (exec_bkpt h h0).trans hu, hkeeps, hq, hin, rfl, rfl, rfl, rfl⟩
  · obtain ⟨u, hu, hkeeps, hsp⟩ := bkpt_halts h h0 hdbg
    obtain ⟨hcause, hreason⟩ := trec_haltFor (issRec x (bkptCond w x)) (stopFor x.f.id x.p)
    obtain ⟨hhalted, htlv, hv, hs⟩ := haltFor_keeps (issRec x (bkptCond w x)) x.f.id x.p
    exact ⟨u, _, hu, hkeeps, hsp, hhalted, htlv, hv, hs, hcause, hreason⟩
  · rw [show exec (.halt w) s = _ from issue_of_issues h _, if_neg h0, if_pos ((prologue_facts h).state ▸ hdbg)]
    exact commit_endsWith (prologue_facts h) _ mild_halted rfl
  · obtain ⟨u, hu, hmem, hsp⟩ := halt_stops h h0 hdbg
    exact ⟨u, _, _, hu, hmem, hsp, rfl, rfl, rfl, rfl⟩
  · rw [show exec (.eret w) s = _ from issue_of_issues h _, if_neg h0, if_pos (by rw [htlv]; rfl)]
  · have hx := prologue_facts h
    obtain ⟨u, hu, hkeeps, hsp⟩ := eret_leaves h h0 htlv htraps
    have hf := frag_committed hx x.nextPc
    have hst : x.f.st = .ready := ready_of hx.ready
    rw [leaveHandler_of_sameArch (sameArch_committed x _) hf] at hsp
    refine ⟨u, _, sentBack x.p (fragStep x.s.turnNo x.nextPc x.f), hu, hkeeps, hsp, rfl, rfl, rfl, rfl, rfl, rfl, rfl, rfl, ?_, rfl, hst, rfl,
      fun t ht => mget_unpackNest x.p (liveIn x.p x.f) ht⟩
    refine (frag_updFrag _ x.r.frag _ (sentBack x.p) fun _ => rfl).trans ?_
    rw [if_pos rfl, hf, Option.map_some]

end

section
/-! Lemmas for page walks, faults and the events of a spindle (R72, R81, R99, R102, R395, R399 to R401, R406): what a walk reads, what an event
changes of its spindle, and that the rest of the state stays. -/

namespace Sys2Proof.Machine

open Sys2Proof

/-! ## The debug service (R99, R406) -/

section
variable {s : State} {sp : SpRef} {p : Spindle}

theorem exec_debugHalt {t : Team} (ht : findTeam s sp.team = some t) (hdbg : debugOn s t = true) :
    exec (.debugHalt sp) s = .next (updSp s sp fun p => { p with halted := true, stepFrag := none }) := by
  show execDebugHalt sp s = _
  unfold execDebugHalt
  simp only [ht, hdbg, if_true]

/-- The spindle as the debugger lets it run. -/
def resumed (p : Spindle) : Spindle := { leaveBreak p with halted := false, stepFrag := none }

theorem exec_debugResume (hp : findSp s sp = some p) (hh : p.halted = true) (htraps : p.traps = []) :
    exec (.debugResume sp) s = .next (updSp s sp resumed) := by
  have hrun : exec (.debugResume sp) s = .next (deliverPending (updSp s sp resumed) sp) := by
    show execDebugResume sp s = _
    unfold execDebugResume
    simp only [hp, hh, if_true]
    rfl
  rw [hrun, deliverPending_none (findSp_updSp_self (f := resumed) (fun _ => rfl) hp) htraps]

/-- The spindle as a step of fragment `i` leaves it to issue, or as a step finds its fragment at its join (R99). -/
def stepOf (f : Frag) (p : Spindle) : Spindle :=
  if f.st = .atJoin then { p with stepWaits := true } else { leaveBreak p with stepFrag := some f.id, stepWaits := false }

theorem stepOf_spx (f : Frag) (p : Spindle) : (stepOf f p).spx = p.spx := by
  unfold stepOf
  split <;> rfl

theorem stepOf_steps {p : Spindle} (hh : p.halted = true) (f : Frag) : (stepOf f p).halted = true ∧
    if f.st = .atJoin then (stepOf f p).stepWaits = true ∧ (stepOf f p).stepFrag = p.stepFrag
    else (stepOf f p).stepWaits = false ∧ (stepOf f p).stepFrag = some f.id := by
  unfold stepOf
  split
  · exact ⟨hh, rfl, rfl⟩
  · exact ⟨hh, rfl, rfl⟩

theorem exec_debugStep {k : Nat} {f : Frag} (hp : findSp s sp = some p) (hh : p.halted = true) (hk : p.live.getLsbD k = true)
    (hf : (p.frags.find? fun f => f.mask.getLsbD k) = some f) : exec (.debugStep sp (some k)) s = .next (updSp s sp (stepOf f)) := by
  show execDebugStep sp (some k) s = _
  unfold execDebugStep
  simp only [hp, hk, if_true, hf, hh, Bool.not_true, Bool.false_eq_true, if_false]
  unfold stepOf
  split <;> rfl

theorem loadFrame_spx (bs : List Byte) (p : Spindle) : (loadFrame bs p).spx = p.spx := by
  unfold loadFrame
  dsimp only
  split <;> rfl

theorem exec_debugRead (hp : findSp s sp = some p) (hh : p.halted = true) :
    ∃ r, exec (.debugStateAccess sp none) s = .next { s with dbgBuf := frameBytes p false p.epcW r } := by
  show ∃ r, execDebugStateAccess sp none s = _
  unfold execDebugStateAccess
  simp only [hp, hh, Bool.not_true, Bool.false_eq_true, if_false]
  exact ⟨_, rfl⟩

theorem exec_debugWrite {bs : List Byte} (hp : findSp s sp = some p) (hh : p.halted = true) (hn : bs.length = frameSize p) :
    exec (.debugStateAccess sp (some bs)) s = .next (updSp s sp (loadFrame bs)) := by
  show execDebugStateAccess sp (some bs) s = _
  unfold execDebugStateAccess
  simp only [hp, hh, Bool.not_true, Bool.false_eq_true, if_false, hn, if_true]

end

/-- With the service gone, no spindle of the grid is halted. -/
theorem debugDetach_frees (s : State) (grid : Nat) : ∃ u, exec (.debugAttach grid false) s = .next u ∧
    u.grids = (updGrid s grid fun g => { g with debug := false }).grids ∧ ∀ t ∈ u.teams, t.grid = grid → ∀ p ∈ t.spindles, p.halted = false := by
  refine ⟨_, rfl, rfl, fun t ht hgrid p hp => ?_⟩
  obtain ⟨b, -, rfl⟩ := List.mem_map.1 ht
  have hb : b.grid = grid := by
    revert hgrid
    dsimp only
    split <;> exact id
  rw [if_pos (by simpa using hb)] at hp
  obtain ⟨q, -, rfl⟩ := List.mem_map.1 hp
  rfl

/-! ## Retirement (R102) -/

theorem findSp_setBar (s : State) (t : Team) (level id : Nat) (b : Bar) (q : SpRef) : findSp (setBar s t level id b) q = findSp s q := by
  unfold setBar
  split
  · exact findSp_updTeam _ _ _ _ (fun _ => rfl) fun _ => rfl
  · rfl

theorem mem_setBar (s : State) (t : Team) (level id : Nat) (b : Bar) : (setBar s t level id b).mem = s.mem := by
  unfold setBar
  split <;> rfl

/-- What no write of a barrier changes, no check of a spindle's barriers changes (R250). -/
theorem checkBars_keeps {γ : Type} (view : State → γ) (h : ∀ s t level id b, view (setBar s t level id b) = view s) (s : State) (t : Team) :
    view (checkBars s t) = view s := by
  refine foldl_keeps view _ (fun u level => foldl_keeps view _ (fun u id => ?_) _ u) _ s
  dsimp only
  split
  · rfl
  · split
    · rfl
    · exact h ..

/-- The state with a spindle retired, and the barriers of its units checked (R102, R250). -/
def retire (s : State) (sp : SpRef) (t : Team) (p : Spindle) : State :=
  if p.retired then s else checkBars (updSp s sp fun p => { p with retired := true }) t

theorem mem_retire (s : State) (sp : SpRef) (t : Team) (p : Spindle) : (retire s sp t p).mem = s.mem := by
  unfold retire
  split
  · rfl
  · exact checkBars_keeps State.mem mem_setBar _ t

theorem findSp_retire {s : State} {sp : SpRef} {p : Spindle} (hp : findSp s sp = some p) (t : Team) :
    findSp (retire s sp t p) sp = some { p with retired := true } := by
  unfold retire
  by_cases h : p.retired = true
  · rw [if_pos h, hp, ← h]
  · rw [if_neg h, checkBars_keeps (fun u => findSp u sp) fun s t level id b => findSp_setBar s t level id b sp]
    exact findSp_updSp_self (f := fun p => { p with retired := true }) (fun _ => rfl) hp

/-- The ports of a team without those bound to a spindle. -/
def freePorts (spx : Nat) (t : Team) : Team := { t with ports := t.ports.map fun y => if y.bound = some spx then unbind y else y }

theorem exec_spindleRetire {s : State} {sp : SpRef} {t : Team} {p : Spindle} (ht : findTeam s sp.team = some t) (hp : findSp s sp = some p)
    (hlive : p.live = 0) (hres : t.st = .resident) :
    exec (.spindleRetire sp) s = .next (if spindleDone p then updTeam (updSp (retire s sp t p) sp fun p => { p with gmap := [] }) t.id (freePorts sp.spx)
      else retire s sp t p) := by
  show execSpindleRetire sp s = _
  unfold execSpindleRetire
  simp only [ht, hp, hlive, hres, ne_eq, not_true_eq_false, or_self, if_false]
  exact (apply_ite Host.Outcome.next ..).symm

theorem mem_freePorts {spx : Nat} {t : Team} {y : Port} (h : y ∈ (freePorts spx t).ports) : y.bound ≠ some spx := by
  obtain ⟨z, -, rfl⟩ := List.mem_map.1 h
  split
  · exact nofun
  · assumption

theorem spindleRetire_frees {s : State} {sp : SpRef} {t : Team} {p : Spindle} (ht : findTeam s sp.team = some t) (hp : findSp s sp = some p)
    (hlive : p.live = 0) (hres : t.st = .resident) :
    ∃ u q, exec (.spindleRetire sp) s = .next u ∧ u.mem = s.mem ∧ findSp u sp = some q ∧ q.retired = true ∧ q.v = p.v ∧
      (spindleDone p = true → q.gmap = [] ∧ ∀ b, findTeam u sp.team = some b → ∀ y ∈ b.ports, y.bound ≠ some sp.spx) := by
  have hret := findSp_retire hp t
  rw [exec_spindleRetire ht hp hlive hres]
  by_cases hdone : spindleDone p = true
  · rw [if_pos hdone]
    refine ⟨_, { p with retired := true, gmap := [] }, rfl, mem_retire s sp t p, ?_, rfl, rfl, fun _ => ⟨rfl, fun b hb => ?_⟩⟩
    · rw [findSp_updTeam _ _ _ (freePorts sp.spx) (fun _ => rfl) fun _ => rfl]
      exact findSp_updSp_self (f := fun p => { p with gmap := [] }) (fun _ => rfl) hret
    · rw [findTeam_updTeam _ _ _ (freePorts sp.spx) fun _ => rfl, if_pos (findTeam_id ht).symm] at hb
      obtain ⟨c, -, rfl⟩ := Option.map_eq_some_iff.1 hb
      exact fun y => mem_freePorts
  · rw [if_neg hdone]
    exact ⟨_, _, rfl, mem_retire s sp t p, hret, rfl, rfl, fun h => absurd h hdone⟩

/-! ## Faults resolved, and the return from a park (R400, R401) -/

/-- A spindle parked on one of the granules may return. -/
def mayReturn (gs : List Nat) (fail : Bool) (p : Spindle) : Spindle :=
  match p.st with
  | .parked g false false => if gs.contains g then { p with st := .parked g (!fail) fail } else p
  | _ => p

theorem mayReturn_spx (gs : List Nat) (fail : Bool) (p : Spindle) : (mayReturn gs fail p).spx = p.spx := by
  unfold mayReturn
  split
  · split <;> rfl
  · rfl

theorem mayReturn_parked {gs : List Nat} {fail : Bool} {p : Spindle} {g : Nat} (hp : p.st = .parked g false false) (hg : g ∈ gs) :
    (mayReturn gs fail p).st = .parked g (!fail) fail := by
  unfold mayReturn
  rw [hp]
  exact congrArg Spindle.st (if_pos (by simpa using hg))

/-- The granules of a die's open entries that an FRSV acts on. -/
def frsvGranules (s : State) (die tenant vpn : Nat) (d : Die) : List Nat :=
  (d.merges.filter fun m => m.tenant == tenant && frsvHits s die tenant vpn m.granule).map (·.granule)

theorem mem_frsvGranules {s : State} {die tenant vpn g : Nat} {d : Die} :
    g ∈ frsvGranules s die tenant vpn d ↔ (∃ m ∈ d.merges, m.tenant = tenant ∧ m.granule = g) ∧ frsvHits s die tenant vpn g = true := by
  simp only [frsvGranules, List.mem_map, List.mem_filter, Bool.and_eq_true, beq_iff_eq]
  constructor
  · rintro ⟨m, ⟨hm, ht, hh⟩, rfl⟩
    exact ⟨⟨m, hm, ht, rfl⟩, hh⟩
  · rintro ⟨⟨m, hm, ht, rfl⟩, hh⟩
    exact ⟨m, ⟨hm, ht, hh⟩, rfl⟩

/-- A die without a tenant's entries of some granules. -/
def freeMerges (tenant : Nat) (gs : List Nat) (d : Die) : Die := { d with merges := d.merges.filter fun m => !(m.tenant == tenant && gs.contains m.granule) }

/-- The spindles of a team that may return. -/
def teamReturns (gs : List Nat) (fail : Bool) (t : Team) : Team := { t with spindles := t.spindles.map (mayReturn gs fail) }

theorem frsv_eq {s : State} {die : Nat} {d : Die} (hd : findDie s die = some d) (tenant vpn : Nat) (fail : Bool) :
    frsv s die tenant vpn fail = { updDie s die (freeMerges tenant (frsvGranules s die tenant vpn d)) with
      teams := updWhere (fun t => t.die == die && teamTenant s t == tenant) (teamReturns (frsvGranules s die tenant vpn d) fail) s.teams } := by
  unfold frsv
  simp only [hd]
  rfl

/-- No entry that the FRSV acts on stays open. -/
theorem frsv_frees {s : State} {die tenant vpn : Nat} {d : Die} {m : Merge}
    (hm : m ∈ (freeMerges tenant (frsvGranules s die tenant vpn d) d).merges) (ht : m.tenant = tenant) :
    frsvHits s die tenant vpn m.granule = false := by
  obtain ⟨hmem, hkept⟩ := List.mem_filter.1 hm
  by_contra hhit
  have hin : m.granule ∈ frsvGranules s die tenant vpn d := mem_frsvGranules.2 ⟨⟨m, hmem, ht, rfl⟩, by simpa using hhit⟩
  simp [ht, hin] at hkept

section
variable {s : State} {die tenant vpn : Nat} {d : Die} (hd : findDie s die = some d) (fail : Bool)
include hd

theorem frsv_die : findDie (frsv s die tenant vpn fail) die = some (freeMerges tenant (frsvGranules s die tenant vpn d) d) := by
  rw [frsv_eq hd]
  refine (findDie_updDie s die die (freeMerges tenant (frsvGranules s die tenant vpn d)) fun _ => rfl).trans ?_
  rw [if_pos rfl, hd, Option.map_some]

theorem frsv_returns {sp : SpRef} {t : Team} {p : Spindle} {g : Nat} (hteam : findTeam s sp.team = some t) (hp : findSp s sp = some p)
    (hdie : t.die = die) (htenant : teamTenant s t = tenant) (hst : p.st = .parked g false false)
    (hopen : ∃ m ∈ d.merges, m.tenant = tenant ∧ m.granule = g) (hhit : frsvHits s die tenant vpn g = true) :
    (findSp (frsv s die tenant vpn fail) sp).map (·.st) = some (.parked g (!fail) fail) := by
  have hspt : t.spindle? sp.spx = some p := by
    unfold findSp at hp
    rwa [hteam] at hp
  have hteam' : findTeam (frsv s die tenant vpn fail) sp.team = some (teamReturns (frsvGranules s die tenant vpn d) fail t) := by
    rw [frsv_eq hd]
    refine (find_updWhere_if Team.id (fun t => t.die == die && teamTenant s t == tenant) (teamReturns (frsvGranules s die tenant vpn d) fail) sp.team s.teams
      fun _ => rfl).trans ?_
    rw [show s.teams.find? (fun x => x.id == sp.team) = some t from hteam]
    simp [hdie, htenant]
  have hsp' : findSp (frsv s die tenant vpn fail) sp = some (mayReturn (frsvGranules s die tenant vpn d) fail p) := by
    unfold findSp
    rw [hteam']
    refine (find_map_key Spindle.spx _ (mayReturn_spx _ fail) t.spindles sp.spx).trans ?_
    rw [show t.spindles.find? (fun x => x.spx == sp.spx) = some p from hspt, Option.map_some]
  rw [hsp', Option.map_some, mayReturn_parked hst (mem_frsvGranules.2 ⟨hopen, hhit⟩)]

end

/-- A parked spindle as it runs again from its frame, in its new row groups (R401). -/
def unparked (bs : List Byte) (groups : List Nat) (r : TrapRec) (p : Spindle) : Spindle :=
  { loadFrame bs p with
    st := .running, gmap := if groups.isEmpty then (loadFrame bs p).gmap else groups, traps := (loadFrame bs p).traps.filter fun e => e.2 != r }

theorem unparked_spx (bs : List Byte) (groups : List Nat) (r : TrapRec) (p : Spindle) : (unparked bs groups r p).spx = p.spx := loadFrame_spx bs p

/-- What a frame says of a spindle, and what the spindle keeps (R403). -/
theorem loadFrame_fields (bs : List Byte) (p : Spindle) :
    (loadFrame bs p).traps = p.traps ∧ (loadFrame bs p).gmap = p.gmap ∧ (loadFrame bs p).live = BitVec.ofNat 8 (fieldAt bs 0x0E 1) ∧
      (loadFrame bs p).epc = word64At bs 0x48 ∧ (loadFrame bs p).s = msetList [] 0 ((List.range 64).map fun i => word32At bs (0x100 + 4 * i)) := by
  unfold loadFrame
  dsimp only
  split <;> exact ⟨rfl, rfl, rfl, rfl, rfl⟩

theorem sget_loadFrame (bs : List Byte) (p : Spindle) {k : Nat} (hk : k < 64) : sget (loadFrame bs p) k = word32At bs (0x100 + 4 * k) := by
  obtain ⟨-, -, -, -, hs⟩ := loadFrame_fields bs p
  unfold sget
  rw [hs, mget_msetList, if_pos ⟨k.zero_le, by simpa using hk⟩]
  simp [hk]

/-- A spindle without other traps runs again once its fault is resolved. -/
theorem unpark_eq {s : State} {sp : SpRef} {p : Spindle} {x : Nat × TrapRec} (hp : findSp s sp = some p) (hx : p.traps = [x]) (hc : x.2.cause = 4)
    (bs : List Byte) (groups : List Nat) : unpark s sp (some bs) groups false = updSp s sp (unparked bs groups x.2) := by
  have hrec : (findSp s sp).bind parkRec = some x := by
    rw [hp]
    show p.traps.find? _ = _
    simp [hx, hc]
  have hnone : (unparked bs groups x.2 p).traps = [] := by
    obtain ⟨htraps, -⟩ := loadFrame_fields bs p
    simp [unparked, htraps, hx]
  have hun : unpark s sp (some bs) groups false = deliverPending (updSp s sp (unparked bs groups x.2)) sp := by
    unfold unpark
    rw [hrec]
    rfl
  rw [hun, deliverPending_none (findSp_updSp_self (unparked_spx bs groups x.2) hp) hnone]

theorem exec_spindleUnpark {s : State} {sp : SpRef} {t : Team} {p : Spindle} {g : Grid} {gr : Nat} {bs : List Byte} {x : Nat × TrapRec}
    (ht : findTeam s sp.team = some t) (hp : findSp s sp = some p) (hst : p.st = .parked gr true false) (hres : t.st = .resident)
    (hissues : teamIssues s t = true) (hg : findGrid s t.grid = some g) (hgmap : p.gmap = []) (hfree : p.allot / 24 ≤ (freeGroups t p.spx).length)
    (hfirst : parkedEarlier t p = false) (hbs : devGet s t.die g.tenant (faultFrame g t p.spx) (frameSize p) = some bs)
    (hx : p.traps = [x]) (hc : x.2.cause = 4) :
    exec (.spindleUnpark sp) s = .next (updSp s sp (unparked bs ((freeGroups t p.spx).take (p.allot / 24)) x.2)) := by
  rw [← unpark_eq hp hx hc]
  show execSpindleUnpark sp s = _
  unfold execSpindleUnpark
  simp [ht, hp, hst, hres, hissues, hg, hgmap, hfirst, hbs, Nat.not_lt.2 hfree]

theorem unparked_fields {bs : List Byte} {groups : List Nat} {x : Nat × TrapRec} {p : Spindle} (hx : p.traps = [x]) (hgmap : p.gmap = []) :
    (unparked bs groups x.2 p).traps = [] ∧ (unparked bs groups x.2 p).gmap = groups := by
  obtain ⟨htraps, hmap, -⟩ := loadFrame_fields bs p
  refine ⟨by simp [unparked, htraps, hx], ?_⟩
  cases groups <;> simp [unparked, hmap, hgmap]

/-! ## Instruction fetch (R72, R81) -/

/-- Four bytes are the bytes of their value. -/
theorem toBytes_ofBytes_four {bs : List Byte} (h : bs.length = 4) : toBytes (ofBytes 32 bs) 4 = bs := by
  obtain ⟨a, b, c, d, rfl⟩ : ∃ a b c d, bs = [a, b, c, d] := by
    match bs, h with
    | [a, b, c, d], _ => exact ⟨a, b, c, d, rfl⟩
  have hbyte : ∀ i, i < 4 → byteAt (ofBytes 32 [a, b, c, d]) i = [a, b, c, d].getD i 0 := fun i hi => by
    refine BitVec.eq_of_toNat_eq ?_
    rw [byteAt, BitVec.extractLsb'_toNat, Nat.shiftRight_eq_div_pow, ofBytes, BitVec.toNat_ofNat]
    have := a.isLt; have := b.isLt; have := c.isLt; have := d.isLt
    interval_cases i <;> simp [ofBytesNat] <;> omega
  simp only [toBytes, List.range, List.range.loop, List.map_cons, List.map_nil, hbyte 0 (by decide), hbyte 1 (by decide), hbyte 2 (by decide),
    hbyte 3 (by decide)]
  rfl

theorem wordBytes_map_ofBytes (l : List (List Byte)) (h : ∀ bs ∈ l, bs.length = 4) : wordBytes (l.map (ofBytes 32)) = l.flatten := by
  induction l with
  | nil => rfl
  | cons bs l ih =>
    rw [List.flatten_cons, ← ih fun x hx => h x (List.mem_cons_of_mem _ hx)]
    exact congrArg (· ++ _) (toBytes_ofBytes_four (h bs List.mem_cons_self))

/-- A piece that enters an instruction cache changes nothing else. -/
theorem icPut_only (s : State) (c : ICell) : ∃ ic n, icPut s c = { s with icache := ic, freeNo := n } := by
  unfold icPut
  dsimp only
  split
  · exact ⟨_, s.freeNo, rfl⟩
  · exact ⟨_, _, rfl⟩

/-- Pieces fetched anew from pages that are not discarded are the memory's, and only the instruction cache changes. -/
theorem fetchPieces_anew (t : Team) (anew : BitVec 3) (l : List (Nat × Nat × Nat)) : ∀ (s : State) (i : Nat),
    (∀ k < l.length, anew.getLsbD (i + k) = true) → (∀ e ∈ l, pageDiscarded s e.2.2 = false) →
      (fetchPieces t anew i l s).2 = (l.map fun e => memBytes s e.2.1 e.1 4).map (ofBytes 32) ∧
        ∃ ic n, (fetchPieces t anew i l s).1 = { s with icache := ic, freeNo := n } := by
  induction l with
  | nil => exact fun s i _ _ => ⟨rfl, s.icache, s.freeNo, rfl⟩
  | cons e l ih =>
    obtain ⟨pa, owner, pte⟩ := e
    intro s i hanew hdisc
    have hpiece : fetchPiece s t pa owner pte (anew.getLsbD i) =
        (icPut s { die := t.die, core := t.core, pa := pa, word := ofBytes 32 (memBytes s owner pa 4) }, ofBytes 32 (memBytes s owner pa 4)) := by
      have hi : anew.getLsbD i = true := hanew 0 (Nat.zero_lt_succ _)
      unfold fetchPiece icHit
      rw [hi, if_pos rfl]
      simp only [hdisc (pa, owner, pte) List.mem_cons_self, Bool.false_eq_true, if_false]
    obtain ⟨ic, n, hic⟩ := icPut_only s { die := t.die, core := t.core, pa := pa, word := ofBytes 32 (memBytes s owner pa 4) }
    rw [hic] at hpiece
    obtain ⟨hwords, ic', n', hstate⟩ := ih { s with icache := ic, freeNo := n } (i + 1)
      (fun k hk => by rw [Nat.add_assoc, Nat.add_comm 1 k]; exact hanew (k + 1) (by simpa using hk))
      (fun e he => hdisc e (List.mem_cons_of_mem _ he))
    unfold fetchPieces
    simp only [hpiece, hwords, hstate]
    exact ⟨rfl, ic', n', rfl⟩

theorem findFrag_updFrag (s : State) (r q : FragRef) (f : Frag → Frag) (hf : ∀ x, (f x).id = x.id) :
    findFrag (updFrag s r f) q = if q = r then (findFrag s r).map f else findFrag s q := by
  unfold findFrag updFrag
  rw [findSp_updSp _ _ _ (fun p => p.updFrag r.frag f) fun _ => rfl]
  obtain ⟨qs, qf⟩ := q
  obtain ⟨rs, rf⟩ := r
  by_cases hs : qs = rs
  · subst hs
    rw [if_pos rfl, Option.bind_map]
    have hcomp : ((fun p : Spindle => p.frag? qf) ∘ fun p : Spindle => p.updFrag rf f) =
        fun p : Spindle => if qf = rf then (p.frag? rf).map f else p.frag? qf :=
      funext fun p => frag_updFrag p rf qf f hf
    rw [hcomp]
    by_cases hq : qf = rf
    · subst hq
      simp only [if_true]
      cases findSp s qs <;> rfl
    · simp [hq]
  · simp [hs]

/-- The accesses of a fetch, and the place of a piece that memory holds. -/
def fetchWants (f : Frag) : List Want := (List.range 3).map fun i =>
  { thread := i, ea := f.pc + BitVec.ofNat 64 (4 * i), n := 4, badEa := bitsOf f.pc 56 8 != 0 }
def codePlace : List (Nat × Nat × Loc) → Option (Nat × Nat × Nat)
  | [(_, _, .mem pa owner _ pte _ _)] => some (pa, owner, pte)
  | _ => none
def codePiece (x : Want × List (Nat × Nat × Loc)) : Option (Nat × Nat × Nat) := codePlace x.2

section
variable {s : State} {r : FragRef} {t : Team} {p : Spindle} {f : Frag} {rs : List (Want × List (Nat × Nat × Loc))} {ps : List (Nat × Nat × Nat)}

/-- A fetch whose pieces are all to be had reads them. -/
theorem exec_fetch {anew : BitVec 3} (ht : findTeam s r.sp.team = some t) (hp : findSp s r.sp = some p) (hf : findFrag s r = some f)
    (hnone : f.fetched = none) (hready : fragReady s t p f = true) (hcheck : checkAll s t p.spx .exec (fetchWants f) = .ok rs)
    (hps : rs.filterMap codePiece = ps) (hbad : ((List.range 3).zip ps).find? (fetchBad s t anew) = none)
    (hdown : ((List.range 3).zip ps).any (fetchDown s t anew) = false) :
    exec (.instructionFetch r anew) s = .next (updFrag (fetchPieces t anew 0 ps s).1 r fun f =>
      { f with fetched := some (ofBytes 96 (wordBytes (fetchPieces t anew 0 ps s).2)) }) := by
  unfold fetchWants at hcheck
  show execInstructionFetch r anew s = _
  unfold execInstructionFetch
  simp only [ht, hp, hf, hnone, hready, hcheck]
  generalize hread : rs.filterMap _ = qs
  obtain rfl : qs = ps := hread.symm.trans hps
  simp only [Option.isSome_none, Bool.false_eq_true, Bool.not_true, or_self, if_false, hbad, hdown]

/-- A fragment after its fetch. -/
theorem fetch_reads (ht : findTeam s r.sp.team = some t) (hp : findSp s r.sp = some p) (hf : findFrag s r = some f) (hnone : f.fetched = none)
    (hready : fragReady s t p f = true) (hcheck : checkAll s t p.spx .exec (fetchWants f) = .ok rs) (hps : rs.filterMap codePiece = ps)
    (hlen : ps.length = 3) (hgood : ∀ e ∈ ps, memBad s e.1 4 = false ∧ (isHbm e.1 = true ∨ sysUp s e.1 = true) ∧ pageDiscarded s e.2.2 = false) :
    ∃ u g, exec (.instructionFetch r 7) s = .next u ∧ KeepsOthers s { u with icache := s.icache, freeNo := s.freeNo } r.sp ∧ findFrag u r = some g ∧
      g = { f with fetched := some (ofBytes 96 (ps.map fun e => memBytes s e.2.1 e.1 4).flatten) } := by
  have hzip : ∀ e ∈ (List.range 3).zip ps, e.2 ∈ ps := fun e he => (List.of_mem_zip he).2
  have hbad : ((List.range 3).zip ps).find? (fetchBad s t 7) = none := List.find?_eq_none.2 fun e he => by
    simp [fetchBad, (hgood _ (hzip e he)).1]
  have hdown : ((List.range 3).zip ps).any (fetchDown s t 7) = false := List.any_eq_false.2 fun e he => by
    rcases (hgood _ (hzip e he)).2.1 with h | h <;> simp [fetchDown, h]
  obtain ⟨hwords, ic, n, hstate⟩ := fetchPieces_anew t 7 ps s 0
    (fun k hk => (by decide : ∀ k < 3, (7 : BitVec 3).getLsbD (0 + k) = true) k (hlen ▸ hk)) fun e he => (hgood e he).2.2
  have hbytes := wordBytes_map_ofBytes (ps.map fun e => memBytes s e.2.1 e.1 4) fun bs hbs => by
    obtain ⟨e, -, rfl⟩ := List.mem_map.1 hbs
    simp [memBytes]
  refine ⟨_, _, exec_fetch ht hp hf hnone hready hcheck hps hbad hdown, ?_, ?_, rfl⟩
  · rw [hstate]
    exact keepsOthers_updSp (f := fun p => p.updFrag r.frag _) (keepsOthers_refl s r.sp) fun _ => rfl
  · rw [hstate, hwords, hbytes]
    refine (findFrag_updFrag _ r r (fun f => { f with fetched := some (ofBytes 96 (ps.map fun e => memBytes s e.2.1 e.1 4).flatten) }) fun _ => rfl).trans ?_
    rw [if_pos rfl]
    exact congrArg (Option.map _) hf

end

/-! ## Page walks (R395, R399) -/

/-- A walk reads the state through four functions. -/
theorem walk_congr {s u : State} (hread : ∀ a, read64 u a = read64 s a) (hbad : ∀ a, entryBad u a = entryBad s a)
    (hfault : ∀ a, paFault u a = paFault s a) (htrtb : ∀ d, (findDie u d).map (·.trtb) = (findDie s d).map (·.trtb)) : walk u = walk s := by
  have hfrom : walkFrom u = walkFrom s := by
    delta walkFrom walkFrom._f
    rw [funext hread, funext hbad, funext hfault]
  funext die
  unfold walk
  rw [funext hread, funext hbad, funext hfault, htrtb die, hfrom]

/-- A fragment that waits is ready again. -/
def wake (s : State) (y : FragRef × BitVec 64 × BitVec 8) : State := updFrag s y.1 fun f => { f with st := .ready }

theorem walk_wake (s : State) (y : FragRef × BitVec 64 × BitVec 8) : walk (wake s y) = walk s :=
  walk_congr (fun _ => rfl) (fun _ => rfl) (fun _ => rfl) fun _ => rfl

/-- A change of a die's list of walks is nothing to a walk. -/
theorem walk_updDie_walks (s : State) (die : Nat) (f : Die → List (Nat × Nat)) :
    walk (updDie s die fun d => { d with walks := f d }) = walk s := by
  have hdie : ∀ {γ : Type} (view : Die → γ) (hv : ∀ d, view { d with walks := f d } = view d) (m : Nat),
      (findDie (updDie s die fun d => { d with walks := f d }) m).map view = (findDie s m).map view := fun view hv m => by
    rw [findDie_updDie s die m (fun d => { d with walks := f d }) fun _ => rfl]
    split
    · next h =>
      rw [h, Option.map_map]
      exact congrArg (fun g => Option.map g _) (funext hv)
    · rfl
  refine walk_congr (fun _ => rfl) (fun _ => rfl) (fun a => ?_) (hdie (·.trtb) fun _ => rfl)
  unfold paFault
  rw [hdie (·.lost) fun _ => rfl]
  rfl

theorem findFrag_wake (s : State) (y : FragRef × BitVec 64 × BitVec 8) (r : FragRef) :
    findFrag (wake s y) r = if r = y.1 then (findFrag s y.1).map fun f => { f with st := .ready } else findFrag s r :=
  findFrag_updFrag s y.1 r (fun f => { f with st := .ready }) fun _ => rfl

theorem isSome_findFrag_wake (s : State) (y : FragRef × BitVec 64 × BitVec 8) (r : FragRef) :
    (findFrag (wake s y) r).isSome = (findFrag s r).isSome := by
  rw [findFrag_wake]
  split
  · next h => rw [h, Option.isSome_map]
  · rfl

/-- Each fragment of a list is ready once all are woken. -/
theorem foldl_wake_ready (l : List (FragRef × BitVec 64 × BitVec 8)) : ∀ (s : State) (r : FragRef), (findFrag s r).isSome = true →
    ((findFrag s r).map (·.st) = some .ready ∨ r ∈ l.map (·.1)) → (findFrag (l.foldl wake s) r).map (·.st) = some .ready := by
  induction l with
  | nil => exact fun s r _ h => h.resolve_right List.not_mem_nil
  | cons y l ih =>
    intro s r hsome h
    refine ih (wake s y) r ((isSome_findFrag_wake s y r).trans hsome) ?_
    rw [findFrag_wake]
    by_cases hr : r = y.1
    · subst hr
      obtain ⟨f, hf⟩ := Option.isSome_iff_exists.1 hsome
      simp [hf]
    · rw [if_neg hr]
      simpa [hr] using h

/-- What no wake changes, the fragments that ask for walks of their own do not change. -/
theorem walkAgain_keeps {γ : Type} (view : State → γ) (h : ∀ s y, view (wake s y) = view s) (s : State) (die tenant g : Nat) :
    view (walkAgain s die tenant g) = view s := foldl_keeps view wake h _ s

/-- An entry of the die's TLB stays as the cores take theirs: those are the cores' own (R399). -/
theorem mem_foldl_tlbPut {x : Tlb} (hx : x.core = none) (y : Tlb) (cores : List Nat) :
    ∀ s : State, x ∈ s.tlb → x ∈ (cores.foldl (fun u c => tlbPut u { y with core := some c }) s).tlb := by
  induction cores with
  | nil => exact fun s h => h
  | cons c cores ih =>
    refine fun s h => ih _ (List.mem_cons_of_mem _ (List.mem_filter.2 ⟨h, ?_⟩))
    refine bne_iff_ne.2 fun hdrop => ?_
    have hlast : (s.tlb.filter fun z => z.die == y.die && z.core == some c).getLast? = some x := by
      dsimp only at hdrop
      split_ifs at hdrop
      · exact hdrop.symm
      · exact hdrop.symm
    have hcore := (List.mem_filter.1 (List.mem_of_getLast? hlast)).2
    rw [hx] at hcore
    simp at hcore

/-- The fragments that a walk's end wakes: those whose granules lie in its page (R399). -/
def pageWaiters (s : State) (die tenant g : Nat) : List (FragRef × BitVec 64 × BitVec 8) :=
  ((walkGranules s die tenant).filter fun h => samePage s die tenant h g).flatMap (walkers s die tenant)

theorem pageBytes_pos (code : Nat) : 0 < pageBytes code := by
  unfold pageBytes
  split_ifs <;> decide

/-- A leaf's page holds the address of its walk. -/
theorem walkFrom_leaf {s : State} {va : Nat} {e : BitVec 64} {pte base size : Nat} (ls : List (Nat × Nat × Nat × Nat)) :
    ∀ table, walkFrom s va ls table = .leaf e pte base size → base ≤ va ∧ va < base + size := by
  induction ls with
  | nil => exact fun _ h => by cases h
  | cons l ls ih =>
    obtain ⟨level, lo, len, code⟩ := l
    intro table h
    unfold walkFrom at h
    dsimp only at h
    have hpage : va - va % pageBytes code ≤ va ∧ va < va - va % pageBytes code + pageBytes code := by
      have hlt := Nat.mod_lt va (pageBytes_pos code)
      omega
    split_ifs at h with hbad hvalid hleaf hform halias hptr
    · obtain ⟨-, -, rfl, rfl⟩ := Walked.leaf.inj h
      exact hpage
    · split at h
      · cases h
      · obtain ⟨-, -, rfl, rfl⟩ := Walked.leaf.inj h
        exact hpage
    · split at h
      · cases h
      · exact ih _ h

theorem walk_leaf {s : State} {die tenant va : Nat} {e : BitVec 64} {pte base size : Nat} (h : walk s die tenant va = .leaf e pte base size) :
    base ≤ va ∧ va < base + size := by
  unfold walk at h
  dsimp only at h
  split_ifs at h
  split at h
  · cases h
  · exact walkFrom_leaf _ _ h

theorem samePage_of_leaf {s : State} {die tenant g : Nat} {e : BitVec 64} {pte base size : Nat} (h : walk s die tenant g = .leaf e pte base size) :
    samePage s die tenant g g = true := by
  unfold samePage
  rw [h]
  exact decide_eq_true (walk_leaf h)

theorem mem_pageWaiters {s : State} {die tenant g : Nat} (hg : samePage s die tenant g g = true) {y : FragRef × BitVec 64 × BitVec 8}
    (hy : y ∈ walkers s die tenant g) : y ∈ pageWaiters s die tenant g := by
  refine List.mem_flatMap.2 ⟨g, List.mem_filter.2 ⟨?_, hg⟩, hy⟩
  unfold walkers at hy
  unfold walkGranules
  obtain ⟨t, ht, hy⟩ := List.mem_flatMap.1 hy
  obtain ⟨p, hp, hy⟩ := List.mem_flatMap.1 hy
  obtain ⟨f, hf, hy⟩ := List.mem_filterMap.1 hy
  refine List.mem_dedup.2 (List.mem_flatMap.2 ⟨t, ht, List.mem_flatMap.2 ⟨p, hp, List.mem_filterMap.2 ⟨f, hf, ?_⟩⟩⟩)
  split at hy
  · split_ifs at hy with hg
    exact congrArg some hg
  · cases hy

/-- A walk's leaf as the die's TLB takes it. -/
def leafEntry (die tenant : Nat) (e : BitVec 64) (pte base size : Nat) : Tlb :=
  { die := die, core := none, tenant := tenant, va := base, size := size, leaf := e, pte := pte }

/-- A die's walks without those of a page. -/
def endWalks (s : State) (die tenant g : Nat) (d : Die) : List (Nat × Nat) := d.walks.filter fun e => !(e.1 == tenant && samePage s die tenant e.2 g)

/-- The state as a walk has ended, before its translation is cached. -/
def walkEnded (s : State) (die tenant g : Nat) : State :=
  walkAgain (updDie s die fun d => { d with walks := endWalks s die tenant g d }) die tenant g

section
variable {s : State} {die tenant g : Nat} {d : Die} {e : BitVec 64} {pte base size : Nat}

theorem exec_pageWalkComplete (hd : findDie s die = some d) (hmem : (tenant, g) ∈ d.walks.take pageWalkers)
    (hleaf : walk s die tenant g = .leaf e pte base size) : ∃ cores : List Nat, exec (.pageWalkComplete die tenant g) s =
      .next ((pageWaiters s die tenant g).foldl wake (cores.foldl (fun u c => tlbPut u { leafEntry die tenant e pte base size with core := some c })
        (tlbPut (walkEnded s die tenant g) (leafEntry die tenant e pte base size)))) := by
  have hwalk : walk (walkEnded s die tenant g) die tenant g = .leaf e pte base size := by
    unfold walkEnded
    rw [walkAgain_keeps walk walk_wake, walk_updDie_walks, hleaf]
  show ∃ cores, execPageWalkComplete die tenant g s = _
  unfold execPageWalkComplete
  simp only [hd, List.contains_iff_mem.2 hmem, Bool.not_true, Bool.false_eq_true, if_false]
  unfold walkEnded endWalks at hwalk ⊢
  simp only [hwalk]
  exact ⟨_, rfl⟩

/-- What neither a wake nor a TLB's entry changes. -/
theorem walked_keeps {γ : Type} (view : State → γ) (hwake : ∀ s y, view (wake s y) = view s) (hput : ∀ s x, view (tlbPut s x) = view s)
    (cores : List Nat) (x y : Tlb) (l : List (FragRef × BitVec 64 × BitVec 8)) (u : State) :
    view (l.foldl wake (cores.foldl (fun u c => tlbPut u { y with core := some c }) (tlbPut u x))) = view u := by
  rw [foldl_keeps view wake hwake, foldl_keeps view _ fun u c => hput u _, hput]

theorem pageWalk_leaf (hd : findDie s die = some d) (hmem : (tenant, g) ∈ d.walks.take pageWalkers)
    (hleaf : walk s die tenant g = .leaf e pte base size) :
    ∃ u c, exec (.pageWalkComplete die tenant g) s = .next u ∧ u.mem = s.mem ∧ findDie u die = some c ∧ (tenant, g) ∉ c.walks ∧
      (∀ y ∈ walkers s die tenant g, ∀ f, findFrag s y.1 = some f → (findFrag u y.1).map (·.st) = some .ready) ∧
      leafEntry die tenant e pte base size ∈ u.tlb := by
  obtain ⟨cores, hexec⟩ := exec_pageWalkComplete hd hmem hleaf
  have hself := samePage_of_leaf hleaf
  refine ⟨_, { d with walks := endWalks s die tenant g d }, hexec, ?_, ?_, ?_, fun y hy f hf => ?_, ?_⟩
  · rw [walked_keeps State.mem (fun _ _ => rfl) fun _ _ => rfl]
    exact walkAgain_keeps State.mem (fun _ _ => rfl) _ die tenant g
  · rw [walked_keeps (fun u => findDie u die) (fun _ _ => rfl) fun _ _ => rfl]
    refine (walkAgain_keeps (fun u => findDie u die) (fun _ _ => rfl) _ die tenant g).trans ?_
    rw [findDie_updDie s die die (fun d => { d with walks := endWalks s die tenant g d }) fun _ => rfl, if_pos rfl, hd, Option.map_some]
  · intro hin
    have hkept := (List.mem_filter.1 hin).2
    simp [hself] at hkept
  · refine foldl_wake_ready _ _ y.1 ?_ (.inr (List.mem_map_of_mem (mem_pageWaiters hself hy)))
    have hsome := walkAgain_keeps (fun u => (findFrag u y.1).isSome) (fun s z => isSome_findFrag_wake s z y.1)
      (updDie s die fun d => { d with walks := endWalks s die tenant g d }) die tenant g
    have hput := walked_keeps (fun u => (findFrag u y.1).isSome) (fun s z => isSome_findFrag_wake s z y.1) (fun _ _ => rfl) cores
      (leafEntry die tenant e pte base size) (leafEntry die tenant e pte base size) [] (walkEnded s die tenant g)
    refine (hput.trans hsome).trans ?_
    exact (congrArg Option.isSome hf).trans rfl
  · rw [foldl_keeps State.tlb wake fun _ _ => rfl]
    exact mem_foldl_tlbPut rfl _ cores _ List.mem_cons_self

end

end Sys2Proof.Machine

open Sys2Proof Sys2Proof.Machine

/-- Settles O52: each event comes to one update of its spindle, its die or its grid, and a walk's end to a wake of all that wait for its page. -/
theorem faultsAndSpindleEvents : Obligations.FaultsAndSpindleEvents := by
  unfold Obligations.FaultsAndSpindleEvents
  refine ⟨⟨fun s die tenant g d e pte base size hd hmem hleaf => ?_, fun e he s die tenant vpn d hd => ?_,
      fun s sp t p g gr bs ht hp hst hres hissues hg hgmap hfree hfirst hbs hx => ?_⟩,
    fun s r t p f rs ht hp hf hnone hready hcheck pa owner cls pte base size pa1 owner1 cls1 pte1 base1 size1 pa2 owner2 cls2 pte2 base2 size2
      hrs hgood hpages => ?_,
    fun s sp t p ht hp hlive hres => spindleRetire_frees ht hp hlive hres,
    fun s grid g hg => ⟨_, rfl, findGrid_updGrid_of hg (f := fun g => { g with debug := true }) fun _ => rfl, rfl⟩, fun s grid g hg => ?_,
    fun s sp t p ht hp hdbg => ⟨_, exec_debugHalt ht hdbg, ?_, ?_⟩,
    fun s sp p hp hh htraps => ⟨_, resumed p, exec_debugResume hp hh htraps, ?_, ?_, rfl, rfl, rfl⟩,
    fun s sp p k f hp hh hk hf => ⟨_, _, exec_debugStep hp hh hk hf, ?_, findSp_updSp_self (stepOf_spx f) hp, stepOf_steps hh f⟩,
    fun s sp p hp hh => exec_debugRead hp hh,
    fun s sp p bs hp hh hn => ⟨_, exec_debugWrite hp hh hn, ?_, findSp_updSp_self (loadFrame_spx bs) hp⟩⟩
  · obtain ⟨u, c, hu, hm, hc, hw, hwake, htlb⟩ := pageWalk_leaf hd hmem hleaf
    exact ⟨u, c, hu, hm, hc, hw, hwake, _, htlb, rfl, rfl, rfl, rfl, rfl, rfl⟩
  · obtain ⟨fail, hexec, rfl⟩ : ∃ fail, exec (e.1 die tenant vpn) s = .next (frsv s die tenant vpn fail) ∧ e.2 = fail := by
      fin_cases he
      · exact ⟨_, rfl, rfl⟩
      · exact ⟨_, rfl, rfl⟩
    refine ⟨_, _, hexec, ?_, frsv_die hd _, fun m hm ht => frsv_frees hm ht,
      fun sp t p g ht hp hdie htenant hst hopen hhit => frsv_returns hd _ ht hp hdie htenant hst hopen hhit⟩
    rw [frsv_eq hd]
    rfl
  · obtain ⟨x, hx, hc⟩ := hx
    obtain ⟨htraps, hmap⟩ := unparked_fields (bs := bs) (groups := (freeGroups t p.spx).take (p.allot / 24)) hx hgmap
    obtain ⟨-, -, hlive, hepc, -⟩ := loadFrame_fields bs p
    exact ⟨_, _, exec_spindleUnpark ht hp hst hres hissues hg hgmap hfree hfirst hbs hx hc,
      keepsOthers_updSp (keepsOthers_refl s sp) (unparked_spx bs _ x.2), findSp_updSp_self (unparked_spx bs _ x.2) hp, rfl, htraps, hmap, hlive, hepc,
      fun k hk => sget_loadFrame bs p hk⟩
  · have hps : rs.filterMap codePiece = [(pa, owner, pte), (pa1, owner1, pte1), (pa2, owner2, pte2)] := by
      refine List.filterMap_map.symm.trans ?_
      rw [hrs]
      rfl
    have hpieces : ∀ e ∈ [(pa, owner, pte), (pa1, owner1, pte1), (pa2, owner2, pte2)],
        memBad s e.1 4 = false ∧ (isHbm e.1 = true ∨ sysUp s e.1 = true) ∧ pageDiscarded s e.2.2 = false := fun e he => by
      have hpa : e.1 ∈ [pa, pa1, pa2] := List.mem_map_of_mem (f := (·.1)) he
      have hpte : e.2.2 ∈ [pte, pte1, pte2] := List.mem_map_of_mem (f := (·.2.2)) he
      exact ⟨(hgood _ hpa).1, (hgood _ hpa).2, hpages _ hpte⟩
    obtain ⟨u, g, hu, hkeeps, hg, hword⟩ := fetch_reads ht hp hf hnone hready hcheck hps rfl hpieces
    refine ⟨u, g, hu, hkeeps, hg, hword.trans ?_⟩
    simp only [List.map_cons, List.map_nil, List.flatten_cons, List.flatten_nil, List.append_nil, List.append_assoc]
  · obtain ⟨u, hu, hgrids, hfree⟩ := debugDetach_frees s grid
    exact ⟨u, hu, (findGrid_congr hgrids grid).trans (findGrid_updGrid_of hg (f := fun g => { g with debug := false }) fun _ => rfl), hfree⟩
  · exact keepsOthers_updSp (f := fun p => { p with halted := true, stepFrag := none }) (keepsOthers_refl s sp) fun _ => rfl
  · exact findSp_updSp_self (f := fun p => { p with halted := true, stepFrag := none }) (fun _ => rfl) hp
  · exact keepsOthers_updSp (f := resumed) (keepsOthers_refl s sp) fun _ => rfl
  · exact findSp_updSp_self (f := resumed) (fun _ => rfl) hp
  · exact keepsOthers_updSp (keepsOthers_refl s sp) (stepOf_spx f)
  · exact keepsOthers_updSp (keepsOthers_refl s sp) (loadFrame_spx bs)

end

section
/-! Lemmas for structured divergence (R91): the new counters of a fragment's live threads, and what a form that sets them comes to. -/

namespace Sys2Proof.Machine

open Sys2Proof

/-- A spindle after the live threads of the issuing fragment get new nesting counters. -/
def setNest (x : Iss) (n : Nat → Nat) (p : Spindle) : Spindle :=
  { p with nest := (threadsOf (liveIn x.p x.f)).foldl (fun c t => mset c t (BitVec.ofNat 6 (n t))) p.nest }

theorem mild_setNest (x : Iss) (n : Nat → Nat) : Mild (setNest x n) where
  spx _ := rfl
  frags _ := rfl
  pend _ := rfl
  same p q h := by
    unfold sameArch at h ⊢
    rw [← h]
    rfl

section
variable {x : Iss} {n : Nat → Nat}

theorem nestOf_setNest (hle : ∀ t ∈ threadsOf (liveIn x.p x.f), n t ≤ 63) (p : Spindle) {t : Nat} (ht : t < 8) :
    nestOf (setNest x n p) t = if (liveIn x.p x.f).getLsbD t then n t else nestOf p t := by
  unfold nestOf setNest
  rw [mget_foldl_mset fun t => BitVec.ofNat 6 (n t)]
  by_cases hm : (liveIn x.p x.f).getLsbD t = true
  · have hn := hle t (mem_threadsOf.2 ⟨ht, hm⟩)
    rw [if_pos (mem_threadsOf.2 ⟨ht, hm⟩), if_pos hm, BitVec.toNat_ofNat, Nat.mod_eq_of_lt (by omega)]
  · rw [if_neg fun h => hm (mem_threadsOf.1 h).2, if_neg hm]

/-- Where no counter exceeds 63, the counters are set and the fragment goes on where they say (R91). -/
theorem nestTo_done {i : Instr} {k : IssCls} {s : State} (h : IssFacts i k s x) (hle : ∀ t ∈ threadsOf (liveIn x.p x.f), n t ≤ 63)
    (pc : Bool → BitVec 64) : NestDone x n (pc (anyZero x n)) (nestTo x n pc) := by
  have hgo : nestTo x n pc = .next (x.commit (pc (anyZero x n)) (setNest x n)) := if_neg (by simpa using hle)
  rw [hgo]
  exact commit_endsWith h _ (mild_setNest x n) ⟨rfl, fun t ht => nestOf_setNest hle x.p ht⟩

/-- Where a counter would exceed 63, the form traps (R91). -/
theorem nestTo_exceeds (hgt : ∃ t ∈ threadsOf (liveIn x.p x.f), 63 < n t) (pc : Bool → BitVec 64) : nestTo x n pc = x.trapT 0x09 0 := by
  obtain ⟨t, ht, hn⟩ := hgt
  exact if_pos (List.any_eq_true.2 ⟨t, ht, decide_eq_true hn⟩)

end

theorem nestOf_le (p : Spindle) (t : Nat) : nestOf p t ≤ 63 := Nat.le_of_lt_succ (mget p.nest t).isLt

end Sys2Proof.Machine

open Sys2Proof Sys2Proof.Machine

/-- Settles O20: each form is one change of the counters, which is made or traps as one of them exceeds 63. -/
theorem structuredDivergence : Obligations.StructuredDivergence := by
  unfold Obligations.StructuredDivergence
  intro skip
  refine ⟨fun e he w s x h => ?_, fun w s x h => ?_, fun w s x h hact => ?_, fun w s x h hact => ?_, fun w s x h => ?_⟩
  · have hexec : exec (e.1 w) s = nestTo x (e.2 x) (skipPc x) := by
      fin_cases he
      · obtain rfl := (word_of_issues h fun _ => rfl).1
        exact issue_of_issues h _
      · exact issue_of_issues h _
      · obtain rfl := (word_of_issues h fun _ => rfl).1
        exact issue_of_issues h _
      · obtain rfl := (word_of_issues h fun _ => rfl).1
        exact issue_of_issues h _
    rw [hexec]
    exact ⟨fun hle => nestTo_done (prologue_facts h) hle (skipPc x), fun hgt => nestTo_exceeds hgt _⟩
  · rw [show exec (.endif w) s = _ from issue_of_issues h _]
    exact nestTo_done (prologue_facts h) (fun t _ => (Nat.sub_le ..).trans (nestOf_le x.p t)) fun _ => x.nextPc
  · obtain rfl := (word_of_issues h fun _ => rfl).1
    rw [show exec (.loopI x.w) s = _ from issue_of_issues h _, if_pos hact]
    exact commit_endsWith (prologue_facts h) _ mild_id rfl
  · rw [show exec (.loopI w) s = _ from issue_of_issues h _, if_neg hact]
    exact ⟨fun hle => nestTo_done (prologue_facts h) hle fun _ => x.nextPc, fun hgt => nestTo_exceeds hgt _⟩
  · intro back
    have hback (t : Nat) : back t ≤ 63 := by
      have hle := nestOf_le x.p t
      show (if nestOf x.p t = 1 then 0 else nestOf x.p t) ≤ 63
      split
      · exact Nat.zero_le 63
      · exact hle
    obtain rfl := (word_of_issues h fun _ => rfl).1
    have hexec : exec (.endloop x.w) s = if anyZero x back then nestTo x back fun _ => x.f.pc + jDisp x.w
        else nestTo x (fun t => back t - 2) fun _ => x.nextPc := issue_of_issues h _
    rw [hexec]
    split
    · exact nestTo_done (prologue_facts h) (fun t _ => hback t) fun _ => x.f.pc + jDisp x.w
    · exact nestTo_done (prologue_facts h) (fun t _ => (Nat.sub_le ..).trans (hback t)) fun _ => x.nextPc

end

section
/-! Lemmas for fragments' events and the split table's moves (R82, R95, R106): an event on one fragment, and what a move of an entry changes. -/

namespace Sys2Proof.Machine

open Sys2Proof

/-! ## Events on one fragment -/

/-- An update of a fragment keeps everything outside its spindle. -/
theorem updFrag_event {s : State} {r : FragRef} {g : Frag} {f : Frag → Frag} (hg : findFrag s r = some g) (hf : ∀ x, (f x).id = x.id) :
    KeepsOthers s (updFrag s r f) r.sp ∧ findFrag (updFrag s r f) r = some (f g) := by
  refine ⟨keepsOthers_updSp (f := fun p => p.updFrag r.frag f) (keepsOthers_refl s r.sp) fun _ => rfl, ?_⟩
  rw [findFrag_updFrag s r r f hf, if_pos rfl, hg, Option.map_some]

/-! ## Moves of split entries -/

/-- A fragment, or a join, whose entry has moved on chip or off it (R95). -/
def Frag.movedTo (onto : Bool) (n : Nat) (f : Frag) : Frag := { f with onChip := onto, since := n }
def JoinEnt.movedTo (onto : Bool) (n : Nat) (j : JoinEnt) : JoinEnt := { j with onChip := onto, since := n }

/-- A spindle one of whose split entries, a join's or a fragment's, has moved. -/
def markMoved (n : Nat) (isJoin : Bool) (id : Nat) (onto : Bool) (p : Spindle) : Spindle :=
  if isJoin then { p with joins := updWhere (fun j => j.id == id) (JoinEnt.movedTo onto n) p.joins } else p.updFrag id (Frag.movedTo onto n)

theorem markMoved_spx (n : Nat) (isJoin : Bool) (id : Nat) (onto : Bool) (p : Spindle) : (markMoved n isJoin id onto p).spx = p.spx := by
  cases isJoin <;> rfl

/-- The state that a move finds: an entry that goes out has been saved. -/
def moveSaved (s : State) (t : Team) (e : Nat × Bool × Nat) (onto : Bool) : State := if onto then (fresh s).2 else saveEntry (fresh s).2 t e

/-- A die that has counted a move of one of its cores' quarters (Table 14-7). -/
def countMove (k : Nat) (d : Die) : Die := { d with splsp := mset d.splsp k (mget d.splsp k + 1) }

theorem moveEntry_eq (s : State) (t : Team) (e : Nat × Bool × Nat) (onto : Bool) : moveEntry s t e onto =
    updDie (updSp (moveSaved s t e onto) { team := t.id, spx := e.1 } (markMoved s.nextId e.2.1 e.2.2 onto)) t.die
      (countMove (4 * t.core + quarterOf e.1)) := rfl

theorem saveEntry_quiet (s : State) (t : Team) (e : Nat × Bool × Nat) : (saveEntry s t e).quiet = s.quiet := by
  unfold saveEntry
  split
  · exact devSet_quiet ..
  · rfl

theorem moveSaved_quiet (s : State) (t : Team) (e : Nat × Bool × Nat) (onto : Bool) : (moveSaved s t e onto).quiet = s.quiet := by
  cases onto
  · exact saveEntry_quiet (fresh s).2 t e
  · rfl

theorem moveSaved_teams (s : State) (t : Team) (e : Nat × Bool × Nat) (onto : Bool) : (moveSaved s t e onto).teams = s.teams :=
  (congrArg State.teams (moveSaved_quiet s t e onto) :)

theorem moveSaved_dies (s : State) (t : Team) (e : Nat × Bool × Nat) (onto : Bool) : (moveSaved s t e onto).dies = s.dies :=
  (congrArg State.dies (moveSaved_quiet s t e onto) :)

theorem findSp_congr {s u : State} (h : u.teams = s.teams) (r : SpRef) : findSp u r = findSp s r := by
  unfold findSp
  rw [findTeam_congr h]

/-- A spindle after a move: its own entry is marked, and no other spindle changes (R95). -/
theorem findSp_moveEntry (s : State) (t : Team) (e : Nat × Bool × Nat) (onto : Bool) (q : SpRef) : findSp (moveEntry s t e onto) q =
    if q = { team := t.id, spx := e.1 } then (findSp s { team := t.id, spx := e.1 }).map (markMoved s.nextId e.2.1 e.2.2 onto) else findSp s q := by
  rw [moveEntry_eq]
  refine (findSp_updSp (moveSaved s t e onto) _ q (markMoved s.nextId e.2.1 e.2.2 onto) (markMoved_spx _ _ _ _)).trans ?_
  rw [findSp_congr (moveSaved_teams s t e onto), findSp_congr (moveSaved_teams s t e onto)]

/-- A die after a move of one of its teams: the quarter's count is one higher (R95, Table 14-7). -/
theorem findDie_moveEntry (s : State) (t : Team) (e : Nat × Bool × Nat) (onto : Bool) : findDie (moveEntry s t e onto) t.die =
    (findDie s t.die).map (countMove (4 * t.core + quarterOf e.1)) := by
  have hdies : findDie (updSp (moveSaved s t e onto) { team := t.id, spx := e.1 } (markMoved s.nextId e.2.1 e.2.2 onto)) t.die = findDie s t.die :=
    findDie_congr (moveSaved_dies s t e onto) t.die
  rw [moveEntry_eq, findDie_updDie _ t.die t.die (countMove _) fun _ => rfl, if_pos rfl, hdies]

end Sys2Proof.Machine

open Sys2Proof Sys2Proof.Machine

/-- Settles O22: the first two are updates of one fragment, the next two run to moves of the entries named, and a move counts and marks. -/
theorem fragmentEvents : Obligations.FragmentEvents := by
  unfold Obligations.FragmentEvents
  refine ⟨fun s f g hg hst => ?_, fun s f g hg hst hage => ?_, fun s die core quarter t e ht hroom he => ?_, fun s die core quarter t o i ht ho hi => ?_,
    fun s t p n id onto ht hp => ⟨fun d hd => ?_, fun hid => ?_⟩⟩
  · obtain ⟨hkeeps, hfrag⟩ := updFrag_event (f := fun y => { y with st := .ready, readyFor := 0 }) hg fun _ => rfl
    refine ⟨_, _, ?_, hkeeps, hfrag, rfl⟩
    show execSleepExpiry f s = _
    unfold execSleepExpiry
    simp only [hg, hst, if_true]
  · obtain ⟨hkeeps, hfrag⟩ := updFrag_event (f := fun y => { y with aged := true }) hg fun _ => rfl
    refine ⟨_, _, ?_, hkeeps, hfrag, rfl⟩
    show execFragmentAged f s = _
    unfold execFragmentAged
    simp only [hg, hst, hage, and_self, if_true]
  · show execSplitEntryRestore die core quarter s = _
    unfold execSplitEntryRestore
    simp only [ht, he, if_pos hroom]
  · show execSplitExchange die core quarter s = _
    unfold execSplitExchange
    simp only [ht, ho, hi]
  · rw [findDie_moveEntry] at hd
    obtain ⟨d0, hd0, rfl⟩ := Option.map_eq_some_iff.1 hd
    exact ⟨d0, hd0, mget_mset_eq ..⟩
  · obtain ⟨g, hg⟩ := Option.isSome_iff_exists.1 hid
    have hfrag : findFrag (moveEntry s t (n, false, id) onto) { sp := { team := t.id, spx := n }, frag := id } =
        some (g.movedTo onto s.nextId) := by
      unfold findFrag
      rw [findSp_moveEntry, if_pos rfl, hp]
      refine (frag_updFrag p id id (Frag.movedTo onto s.nextId) fun _ => rfl).trans ?_
      rw [if_pos rfl, hg, Option.map_some]
    rw [hfrag]
    rfl

end

section
/-! Lemmas for EXIT, RFL and GETID (R102 to R104): what fragments' joins and ends leave alone, predicates written thread by thread, and
Table 3-6. -/

namespace Sys2Proof.Machine

open Sys2Proof

/-! ## What splits, joins and ends leave alone -/

/-- A spindle without its fragments and joins, what it holds by fragment, its latches and the chuck (R94, R99). -/
def unsplit (p : Spindle) : Spindle :=
  { p with frags := [], joins := [], pend := [], hfrag := 0, traps := [], latchA := none, latchB := none, held := none, stepFrag := none }

theorem unsplit_of_sameArch {p q : Spindle} (h : sameArch p q) : unsplit p = unsplit q := (congrArg unsplit h :)

theorem unsplit_fuseAt (turn : Nat) (p : Spindle) (j : Nat) : unsplit (fuseAt turn p j) = unsplit p := by
  unfold fuseAt
  split
  · rfl
  · dsimp only
    split
    · rfl
    · split <;> rfl

/-- Does an exit end the fragment that is in the handler (R98, R102)? -/
def exitEnds (i : Nat) (m : BitVec 8) (p : Spindle) (f : Frag) : Bool := p.tlv && f.mask &&& ~~~m == 0 && i == p.hfrag

/-- A spindle whose threads of a mask have left it and fragment `i`, with every join of its chain that is then complete fused (R96, R102). -/
def exited (turn i : Nat) (m : BitVec 8) (p : Spindle) (f : Frag) : Spindle :=
  (joinChain p 8 f.join).foldl (fuseAt turn)
    { p with
      live := p.live &&& ~~~m
      joins := p.joins.map fun x => if (joinChain p 8 f.join).contains x.id then { x with expected := x.expected &&& ~~~m } else x
      frags := (p.frags.map fun y => if y.id == i then { f with mask := f.mask &&& ~~~m } else y).filter fun y => y.mask != 0
      hfrag := if exitEnds i m p f then freeFragId p else p.hfrag }

theorem unsplit_exited (turn i : Nat) (m : BitVec 8) (p : Spindle) (f : Frag) :
    unsplit (exited turn i m p f) = unsplit { p with live := p.live &&& ~~~m } :=
  foldl_keeps unsplit (fuseAt turn) (unsplit_fuseAt turn) _ _

section
variable {p : Spindle} {i : Nat} {f : Frag} (hf : p.frag? i = some f) (turn : Nat) (m : BitVec 8)
include hf

/-- Beyond the exit itself, only pending traps go, and what is left of a spindle without a live thread (R98, R102). -/
theorem exitThreads_eq : exitThreads turn i m p =
    if (exited turn i m p f).live = 0 then { exited turn i m p f with traps := [], frags := [], joins := [] }
    else if exitEnds i m p f then { exited turn i m p f with traps := [] } else exited turn i m p f := by
  unfold exitThreads
  rw [hf]
  rfl

theorem unsplit_exitThreads : unsplit (exitThreads turn i m p) = unsplit { p with live := p.live &&& ~~~m } := by
  have hexited := unsplit_exited turn i m p f
  rw [exitThreads_eq hf]
  split
  · exact hexited
  · split <;> exact hexited

/-- A spindle without a live thread has neither fragments nor joins (R102). -/
theorem exitThreads_last (h0 : (exitThreads turn i m p).live = 0) :
    (exitThreads turn i m p).frags = [] ∧ (exitThreads turn i m p).joins = [] := by
  have hlive : (exited turn i m p f).live = 0 :=
    (congrArg Spindle.live ((unsplit_exited turn i m p f).trans (unsplit_exitThreads hf turn m).symm) :).trans h0
  rw [exitThreads_eq hf, if_pos hlive]
  exact ⟨rfl, rfl⟩

end

theorem exitThreads_spx (turn i : Nat) (m : BitVec 8) (p : Spindle) : (exitThreads turn i m p).spx = p.spx := by
  cases hf : p.frag? i with
  | none =>
    unfold exitThreads
    rw [hf]
  | some f => exact (congrArg Spindle.spx (unsplit_exitThreads hf turn m) :)

/-! ## Predicates written thread by thread -/

theorem getLsbD_setBit48 (m : BitVec 48) (n k : Nat) (b : Bool) (hk : k < 48) :
    (setBit48 m n b).getLsbD k = if k = n then b else m.getLsbD k := by
  unfold setBit48
  by_cases h : k = n
  · subst h
    cases b <;> simp [hk]
  · cases b <;> simp [h, hk]

theorem pget_pset (p : Spindle) (n t k u : Nat) (b : Bool) (hk : k < 48) :
    pget (pset p n t b) k u = if u = t ∧ k = n then b else pget p k u := by
  unfold pget pset
  rw [mget_mset]
  by_cases hu : u = t
  · subst hu
    simp [getLsbD_setBit48 _ _ _ _ hk]
  · simp [hu]

/-- A spindle with a predicate written for each thread of a list. -/
def psetAll (n : Nat) (ths : List Nat) (f : Nat → Bool) (p : Spindle) : Spindle := ths.foldl (fun p t => pset p n t (f t)) p

theorem psetAll_rest (n : Nat) (ths : List Nat) (f : Nat → Bool) (p : Spindle) (b : SMap 48) :
    ({ psetAll n ths f p with p := b } : Spindle) = { p with p := b } :=
  foldl_keeps (fun q : Spindle => { q with p := b }) (fun q t => pset q n t (f t)) (fun _ _ => rfl) ths p

theorem predWritten_psetAll (n : Nat) (ths : List Nat) (f : Nat → Bool) (p : Spindle) : PredWritten p (psetAll n ths f p) n ths f := by
  intro k t _ hk
  unfold psetAll
  induction ths generalizing p with
  | nil => simp
  | cons u ths ih =>
    rw [List.foldl_cons, ih, pget_pset _ _ _ _ _ _ hk]
    by_cases hn : k = n
    · by_cases hu : t = u
      · subst hu
        simp [hn]
      · simp [hn, hu]
    · simp [hn]

theorem mild_psetAll (n : Nat) (ths : List Nat) (f : Nat → Bool) : Mild (psetAll n ths f) where
  spx p := (congrArg Spindle.spx (psetAll_rest n ths f p []) :)
  frags p := (congrArg Spindle.frags (psetAll_rest n ths f p []) :)
  pend p := (congrArg Spindle.pend (psetAll_rest n ths f p []) :)
  same p q h := by
    unfold psetAll
    induction ths generalizing p q with
    | nil => exact h
    | cons t ths ih =>
      refine ih _ _ ?_
      unfold sameArch at h ⊢
      rw [← h]
      rfl

/-- One mild effect after another. -/
theorem mild_comp {f g : Spindle → Spindle} (hf : Mild f) (hg : Mild g) : Mild fun p => f (g p) where
  spx p := (hf.spx _).trans (hg.spx p)
  frags p := (hf.frags _).trans (hg.frags p)
  pend p := (hf.pend _).trans (hg.pend p)
  same p q h := hf.same _ _ (hg.same p q h)

/-! ## RFL -/

/-- The predicate of an RFL, 63 for none (R103). -/
def rflPred (w : JWord) : Nat := bitsOf w.mod 6 6

/-- An RFL's comparisons with the first thread's value, where it names a predicate (R103). -/
def rflCompare (x : Iss) (n f0 : Nat) : Spindle → Spindle :=
  if rflPred x.w = 63 then id else psetAll (rflPred x.w) (threadsOf x.tp) fun t => x.src x.w.a n false t == x.src x.w.a n false f0

theorem mild_rflCompare (x : Iss) (n f0 : Nat) : Mild (rflCompare x n f0) := by
  unfold rflCompare
  split
  · exact mild_id
  · exact mild_psetAll ..

theorem rflCompare_rest (x : Iss) (n f0 : Nat) (p : Spindle) (b : SMap 48) : ({ rflCompare x n f0 p with p := b } : Spindle) = { p with p := b } := by
  unfold rflCompare
  split
  · rfl
  · exact psetAll_rest ..

/-- The first thread's value as RFL's register write. -/
def rflWrite (x : Iss) (n f0 : Nat) : Spindle → Spindle := x.writeAll n ([0].map fun t => (t, x.src x.w.a n false f0))

theorem exec_rfl {w : JWord} {s : State} {x : Iss} (h : Issues (.rfl w) ctlCls s x) {f0 : Nat} (hf : (threadsOf x.tp).head? = some f0) :
    exec (.rfl w) s = .next (x.commit x.nextPc fun p => rflCompare x (if w.mod.getLsbD 0 then 2 else 1) f0
      (rflWrite x (if w.mod.getLsbD 0 then 2 else 1) f0 p)) := by
  obtain rfl := (word_of_issues h fun _ => rfl).1
  obtain ⟨ts, hts⟩ : ∃ ts, threadsOf x.tp = f0 :: ts := List.head?_eq_some_iff.1 hf
  refine (issue_of_issues h _).trans ?_
  unfold rflCompare rflPred
  simp only [hts]
  refine congrArg (fun e => (.next (x.commit x.nextPc e) : Out)) (funext fun p => ?_)
  by_cases hp : bitsOf x.w.mod 6 6 = 63
  · simp only [hp, if_true]
    rfl
  · simp only [hp, if_false]
    rfl

/-- What RFL writes (R103). -/
theorem rfl_writes (x : Iss) (n f0 : Nat) : OnlyRegs x.p { rflCompare x n f0 (rflWrite x n f0 x.p) with p := x.p.p } x.w.d n [0]
      (fun _ => x.src x.w.a n false f0) ∧
    (rflPred x.w = 63 → (rflCompare x n f0 (rflWrite x n f0 x.p)).p = x.p.p) ∧
    (rflPred x.w ≠ 63 → PredWritten x.p (rflCompare x n f0 (rflWrite x n f0 x.p)) (rflPred x.w) (threadsOf x.tp)
      fun t => x.src x.w.a n false t == x.src x.w.a n false f0) := by
  have hregs : OnlyRegs x.p (rflWrite x n f0 x.p) x.w.d n [0] fun _ => x.src x.w.a n false f0 :=
    onlyRegs_writeAll x n (ths := [0]) (fun _ => x.src x.w.a n false f0) (by simp)
  have hpred : (rflWrite x n f0 x.p).p = x.p.p := (congrArg Spindle.p (restOf_writeAll x n _ x.p) :)
  refine ⟨?_, fun h63 => ?_, fun h63 => ?_⟩
  · rw [rflCompare_rest, ← hpred]
    exact hregs
  · unfold rflCompare
    rw [if_pos h63]
    exact hpred
  · unfold rflCompare
    rw [if_neg h63]
    intro k t ht hk
    rw [predWritten_psetAll _ _ _ _ k t ht hk]
    unfold pget
    rw [hpred]

end Sys2Proof.Machine

open Sys2Proof Sys2Proof.Machine

/-- Settles O23: EXIT and SLEEP each update their spindle once more as the issue has gone on; the others are effects on registers and predicates. -/
theorem smallControlForms : Obligations.SmallControlForms := by
  unfold Obligations.SmallControlForms
  refine ⟨fun w s x h htp => ?_, fun w s x f0 h hf0 => ?_, fun w s x g h hg => ?_, fun w s x h => ?_, fun w s x h htp hn => ?_⟩
  · have hx := prologue_facts h
    obtain rfl := hx.state
    have hf := frag_committed hx x.nextPc
    have hrest := (unsplit_exitThreads hf x.s.turnNo x.tp).trans (congrArg (fun p : Spindle => { p with live := p.live &&& ~~~x.tp })
      (unsplit_of_sameArch (sameArch_committed x x.nextPc)))
    refine ⟨_, _, (issue_of_issues h _).trans (if_neg htp), keepsOthers_updSp (commit_keeps x.nextPc id hx.team fun _ => rfl).1 (exitThreads_spx _ _ _),
      findSp_updSp_self (exitThreads_spx _ _ _) (commit_findSp x.nextPc id hx.sp fun _ => rfl), (congrArg Spindle.live hrest :), (congrArg Spindle.v hrest :),
      (congrArg Spindle.s hrest :), (congrArg Spindle.p hrest :), (congrArg Spindle.mode hrest :), (congrArg Spindle.nest hrest :), (congrArg Spindle.ctr hrest :),
      exitThreads_last hf _ _⟩
  · intro n
    have hexec := exec_rfl h hf0
    obtain rfl := (word_of_issues h fun _ => rfl).1
    rw [hexec]
    exact commit_endsWith (prologue_facts h) x.nextPc (mild_comp (mild_rflCompare x n f0) (mild_writeAll x n _)) (rfl_writes x n f0)
  · intro gsz i j e he hsel
    have hexec := issue_of_issues h
    obtain rfl := (word_of_issues h fun _ => rfl).1
    obtain rfl := (prologue_facts h).state
    have hval : getidValue x g (bitsOf x.w.mod 0 8) = e.2 := by
      rw [hsel]
      fin_cases he <;> rfl
    rw [show exec (.getid x.w) x.s = _ from hexec _, hg]
    simp only [Option.getD_some, hval]
    exact commit_endsWith (prologue_facts h) x.nextPc (mild_writeAll x 1 _) (onlyRegs_writeAll x 1 (fun t => BitVec.ofNat 128 (e.2 t)) fun _ => threads_lt)
  · rw [show exec (.nop w) s = _ from issue_of_issues h _]
    exact skip_endsWith (prologue_facts h)
  · have hx := prologue_facts h
    obtain rfl := hx.state
    refine ⟨_, _, { fragStep x.s.turnNo x.nextPc x.f with st := .sleeping (bitsOf w.mod 0 20) }, (issue_of_issues h _).trans (if_neg (not_or.2 ⟨htp, hn⟩)),
      keepsOthers_updSp (f := fun p => p.updFrag x.r.frag _) (commit_keeps x.nextPc id hx.team fun _ => rfl).1 fun _ => rfl,
      findSp_updSp_self (f := fun p => p.updFrag x.r.frag _) (fun _ => rfl) (commit_findSp x.nextPc id hx.sp fun _ => rfl), sameArch_committed x x.nextPc,
      ?_, rfl, rfl, rfl⟩
    refine (frag_updFrag _ x.r.frag x.r.frag (fun f => { f with st := .sleeping (bitsOf w.mod 0 20) }) fun _ => rfl).trans ?_
    rw [if_pos rfl]
    exact congrArg _ (frag_committed hx x.nextPc)

end

section
/-! Lemmas for splits and joins (R93 to R96): the room that a split finds or makes in its quarter's split table, the two parts and their join, and
what the last arrival at a join fuses. -/

namespace Sys2Proof.Machine

open Sys2Proof

/-! ## Room in the split table -/

/-- A spindle without where its split entries are and when they moved there (R95). -/
def unmoved (p : Spindle) : Spindle :=
  { p with frags := p.frags.map (Frag.movedTo false 0), joins := p.joins.map (JoinEnt.movedTo false 0) }

theorem unmoved_markMoved (n : Nat) (isJoin : Bool) (id : Nat) (onto : Bool) (p : Spindle) : unmoved (markMoved n isJoin id onto p) = unmoved p := by
  cases isJoin
  · exact congrArg (fun l => { unmoved p with frags := l }) (map_updWhere (Frag.movedTo false 0) _ (Frag.movedTo onto n) (fun _ => rfl) p.frags)
  · exact congrArg (fun l => { unmoved p with joins := l }) (map_updWhere (JoinEnt.movedTo false 0) _ (JoinEnt.movedTo onto n) (fun _ => rfl) p.joins)

theorem moveEntry_unmoved (s : State) (t : Team) (e : Nat × Bool × Nat) (onto : Bool) (y : SpRef) :
    (findSp (moveEntry s t e onto) y).map unmoved = (findSp s y).map unmoved := by
  rw [findSp_moveEntry]
  split
  · next hy =>
    subst hy
    rw [Option.map_map]
    exact congrArg (fun f => (findSp s _).map f) (funext fun p => unmoved_markMoved _ _ _ _ p)
  · rfl

/-- Making room moves entries and changes no spindle otherwise (R95). -/
theorem makeRoom_unmoved (r : FragRef) (q n : Nat) (s : State) (y : SpRef) :
    (findSp (makeRoom r q n s) y).map unmoved = (findSp s y).map unmoved := by
  induction n generalizing s with
  | zero => rfl
  | succ n ih =>
    unfold makeRoom
    split
    · rfl
    · split
      · rfl
      · split
        · rfl
        · exact (ih _).trans (moveEntry_unmoved ..)

/-- With two entries free nothing moves (R95). -/
theorem makeRoom_of_room {s : State} {r : FragRef} {t : Team} (q n : Nat) (ht : findTeam s r.sp.team = some t)
    (hroom : (splitEntries s t q true).length ≤ 62) : makeRoom r q n s = s := by
  cases n with
  | zero => rfl
  | succ n =>
    unfold makeRoom
    rw [ht]
    exact if_pos (by omega)

theorem moved_of_unmoved {p q : Spindle} (h : unmoved p = unmoved q) : ({ p with frags := q.frags, joins := q.joins } : Spindle) = q :=
  (congrArg (fun z : Spindle => ({ z with frags := q.frags, joins := q.joins } : Spindle)) h :)

/-- A fragment of a spindle whose entries have moved is the one that was there but for that. -/
theorem frag_of_unmoved {p q : Spindle} (h : unmoved p = unmoved q) {i : Nat} {f : Frag} (hf : q.frag? i = some f) :
    ∃ g, p.frag? i = some g ∧ g.movedTo f.onChip f.since = f := by
  have hfind (z : Spindle) : (unmoved z).frag? i = (z.frag? i).map (Frag.movedTo false 0) := List.find?_map ..
  have hmap := (hfind p).symm.trans ((congrArg (Spindle.frag? · i) h).trans (hfind q))
  rw [hf, Option.map_some] at hmap
  obtain ⟨g, hg, hgf⟩ := Option.map_eq_some_iff.1 hmap
  exact ⟨g, hg, (congrArg (Frag.movedTo f.onChip f.since) hgf :)⟩

/-! ## Entries on chip, counted -/

/-- The split entries of a spindle that are on chip, or off it (R95). -/
def entryCount (onChip : Bool) (p : Spindle) : Nat :=
  (p.frags.filter fun f => f.id != 0 && f.onChip == onChip).length + (p.joins.filter fun j => j.onChip == onChip).length

theorem splitEntries_length (s : State) (t : Team) (q : Nat) (onChip : Bool) :
    (splitEntries s t q onChip).length = ((t.spindles.filter fun p => quarterOf p.spx == q).map (entryCount onChip)).sum := by
  unfold splitEntries
  rw [List.length_flatMap]
  refine congrArg (fun f => ((t.spindles.filter _).map f).sum) (funext fun p => ?_)
  rw [List.length_append, List.length_map, List.length_map]
  rfl

/-- An update that keeps what a list is filtered by, and what is read of each element, changes neither. -/
theorem map_filter_updWhere {α β : Type} (P Q : α → Bool) (g : α → β) (f : α → α) (l : List α) (hQ : ∀ x, Q (f x) = Q x) (hg : ∀ x, g (f x) = g x) :
    ((updWhere P f l).filter Q).map g = (l.filter Q).map g := by
  have hkeep {γ : Type} (h : α → γ) (hf : ∀ x, h (f x) = h x) : (h ∘ fun x => if P x then f x else x) = h := by
    funext x
    rw [Function.comp_apply]
    split
    · exact hf x
    · rfl
  unfold updWhere
  rw [List.filter_map, List.map_map, hkeep Q hQ, hkeep g hg]

theorem length_filter_updWhere {α : Type} (P Q : α → Bool) (f : α → α) (l : List α) (hQ : ∀ x, Q (f x) = Q x) :
    ((updWhere P f l).filter Q).length = (l.filter Q).length := by
  have hmap := congrArg List.length (map_filter_updWhere P Q (fun _ => ()) f l hQ fun _ => rfl)
  rwa [List.length_map, List.length_map] at hmap

/-- An update of spindles that keeps places and entries keeps the count of a quarter's entries. -/
theorem splitEntries_length_updWhere {s u : State} {t b : Team} (q : Nat) (onChip : Bool) {P : Spindle → Bool} {f : Spindle → Spindle}
    (hspindles : b.spindles = updWhere P f t.spindles) (hspx : ∀ p, (f p).spx = p.spx) (hcount : ∀ p, entryCount onChip (f p) = entryCount onChip p) :
    (splitEntries u b q onChip).length = (splitEntries s t q onChip).length := by
  rw [splitEntries_length, splitEntries_length, hspindles, map_filter_updWhere _ _ _ f _ (fun p => by rw [hspx]) hcount]

section
variable {i : Instr} {k : IssCls} {s : State} {x : Iss}

/-- The issuing team behind an issue without an effect of its own. -/
theorem findTeam_commit (h : IssFacts i k s x) (pc : BitVec 64) : ∃ b, findTeam (x.commit pc id) x.r.sp.team = some b ∧
    b.spindles = updWhere (fun y => y.spx == x.r.sp.spx) (fun p => (x.begun p).updFrag x.r.frag (fragStep x.s.turnNo pc)) x.t.spindles := by
  have ht : findTeam x.s x.r.sp.team = some x.t := by
    rw [h.state]
    exact h.team
  have hpops : findTeam (updTeam x.s x.t.id fun t => popStep t x.pops) x.r.sp.team = some (popStep x.t x.pops) := by
    rw [findTeam_updTeam _ _ _ _ fun t => popStep_id t x.pops, findTeam_id ht, if_pos rfl, ht]
    rfl
  refine ⟨_, findTeam_updSp_self _ hpops, ?_⟩
  rw [popStep_spindles]
  rfl

theorem entryCount_committed (x : Iss) (pc : BitVec 64) (onChip : Bool) (p : Spindle) :
    entryCount onChip ((x.begun p).updFrag x.r.frag (fragStep x.s.turnNo pc)) = entryCount onChip p := by
  have hjoins : (x.begun p).joins = p.joins := (congrArg Spindle.joins (sameArch_begun x p) :)
  unfold entryCount
  rw [spindle_updFrag_joins, hjoins]
  refine congrArg (· + _) ((length_filter_updWhere _ _ (fragStep x.s.turnNo pc) _ fun _ => rfl).trans ?_)
  rw [begun_frags]

/-- An issue frees no split entry and takes none. -/
theorem splitEntries_commit (h : IssFacts i k s x) (pc : BitVec 64) (q : Nat) : ∃ b, findTeam (x.commit pc id) x.r.sp.team = some b ∧
    (splitEntries (x.commit pc id) b q true).length = (splitEntries s x.t q true).length := by
  obtain ⟨b, hb, hspindles⟩ := findTeam_commit h pc
  exact ⟨b, hb, splitEntries_length_updWhere q true hspindles (fun p => begun_spx x p) (entryCount_committed x pc true)⟩

end

/-! ## The split -/

theorem le_foldl_max (l : List Nat) (z : Nat) : z ≤ l.foldl (fun a b => max a (b + 1)) z := by
  induction l generalizing z with
  | nil => exact Nat.le_refl z
  | cons b l ih => exact (Nat.le_max_left z (b + 1)).trans (ih _)

theorem lt_foldl_max (l : List Nat) (z : Nat) {b : Nat} (hb : b ∈ l) : b < l.foldl (fun a b => max a (b + 1)) z := by
  induction l generalizing z with
  | nil => cases hb
  | cons c l ih =>
    rcases List.mem_cons.1 hb with rfl | hb
    · exact (Nat.le_max_right z (b + 1)).trans (le_foldl_max l _)
    · exact ih _ hb

/-- No fragment has the free number. -/
theorem lt_freeFragId {p : Spindle} {f : Frag} (hf : f ∈ p.frags) : f.id < freeFragId p :=
  lt_foldl_max _ _ (List.mem_append_left _ (List.mem_map_of_mem hf))

/-- The join and the new fragment of a split (R93). -/
def splitJoin (turn seq i : Nat) (join : BitVec 64) (p : Spindle) (f : Frag) : JoinEnt :=
  { id := (p.joins.map (·.id)).foldl (fun a b => max a (b + 1)) 0, addr := join, expected := liveIn p f, arrived := 0, parent := f.join, own := i,
    onChip := true, used := turn, since := seq }
def splitOff (turn seq : Nat) (m : BitVec 8) (tgt : BitVec 64) (j : Nat) (p : Spindle) (f : Frag) : Frag :=
  { f with id := freeFragId p, mask := m, pc := tgt, join := some j, st := .ready, fetched := none, onChip := true, used := turn, since := seq }

/-- A fragment that goes on without the threads of a mask, linked to a join. -/
def splitRest (p : Spindle) (m : BitVec 8) (j : Nat) (f : Frag) : Frag := { f with mask := liveIn p f &&& ~~~m, join := some j }

section
variable {p : Spindle} {i : Nat} {f : Frag} (hf : p.frag? i = some f) (turn seq : Nat) (m : BitVec 8) (tgt join : BitVec 64)
include hf

theorem splitFrag_eq : splitFrag turn seq i m tgt join p = noLatch { p with
      joins := splitJoin turn seq i join p f :: p.joins
      frags := (p.updFrag i (splitRest p m (splitJoin turn seq i join p f).id)).frags ++
        [splitOff turn seq m tgt (splitJoin turn seq i join p f).id p f] } := by
  unfold splitFrag
  rw [hf]
  rfl

theorem joins_splitFrag : (splitFrag turn seq i m tgt join p).joins = splitJoin turn seq i join p f :: p.joins := by
  rw [splitFrag_eq hf]
  rfl

/-- The fragments behind a split: the new one under its number, which is new, and the others under theirs (R93). -/
theorem frag_splitFrag (k : Nat) : (splitFrag turn seq i m tgt join p).frag? k =
    if k = freeFragId p then some (splitOff turn seq m tgt (splitJoin turn seq i join p f).id p f)
    else if k = i then some (splitRest p m (splitJoin turn seq i join p f).id f) else p.frag? k := by
  have hold := frag_updFrag p i k (splitRest p m (splitJoin turn seq i join p f).id) fun _ => rfl
  rw [splitFrag_eq hf]
  refine List.find?_append.trans ?_
  by_cases hk : k = freeFragId p
  · have hnone : (p.updFrag i (splitRest p m (splitJoin turn seq i join p f).id)).frag? k = none := by
      refine hold.trans ?_
      have hfresh : p.frag? k = none := List.find?_eq_none.2 fun g hg => by
        have hlt := lt_freeFragId hg
        exact fun hid => hlt.ne ((beq_iff_eq.1 hid).trans hk)
      by_cases hi : k = i
      · rw [← hi, hfresh] at hf
        cases hf
      · rw [if_neg hi, hfresh]
    rw [show List.find? _ _ = none from hnone, if_pos hk, hk, Option.none_or]
    exact List.find?_cons_of_pos (a := splitOff turn seq m tgt (splitJoin turn seq i join p f).id p f) (beq_self_eq_true (freeFragId p))
  · have hnew : List.find? (fun x => x.id == k) [splitOff turn seq m tgt (splitJoin turn seq i join p f).id p f] = none :=
      List.find?_cons_of_neg fun hid => hk (beq_iff_eq.1 hid).symm
    rw [hnew, if_neg hk, Option.or_none]
    refine hold.trans ?_
    rw [hf, Option.map_some]

end

/-- The issuing spindle and its fragment as a split finds them: gone on behind the BRD, whatever entries have moved (R93, R95). -/
structure SplitStart (x : Iss) (p : Spindle) (f : Frag) : Prop where
  arch : sameArch { p with joins := x.p.joins } x.p
  frag : p.frag? x.r.frag = some f
  live : liveIn p f = liveIn x.p x.f
  pc   : f.pc = x.f.replay.getD x.nextPc
  st   : f.st = .ready
  join : f.join = x.f.join

section
variable {i : Instr} {k : IssCls} {s : State} {x : Iss}

/-- The issuing spindle behind an issue without an effect of its own. -/
def committed (x : Iss) : Spindle := (startOf x).updFrag x.r.frag (fragStep x.s.turnNo x.nextPc)

theorem committed_joins (x : Iss) : (committed x).joins = x.p.joins := (congrArg Spindle.joins (sameArch_committed x x.nextPc) :)

theorem splitStart_of_unmoved (h : IssFacts i k s x) {p : Spindle} (hp : unmoved p = unmoved (committed x)) : ∃ f, SplitStart x p f := by
  obtain ⟨f, hf, hmoved⟩ := frag_of_unmoved hp (frag_committed h x.nextPc)
  have harch : sameArch { p with joins := x.p.joins } x.p := by
    have hq := moved_of_unmoved hp
    rw [committed_joins] at hq
    have hsame := sameArch_committed x x.nextPc
    unfold sameArch at hsame ⊢
    exact (congrArg (fun z : Spindle => ({ z with
      pend := x.p.pend, latchA := x.p.latchA, latchB := x.p.latchB, held := x.p.held, frags := x.p.frags, stepFrag := x.p.stepFrag } : Spindle)) hq).trans hsame
  have hmask : f.mask = x.f.mask := (congrArg Frag.mask hmoved :)
  have hlive : p.live = x.p.live := (congrArg Spindle.live harch :)
  refine ⟨f, harch, hf, ?_, (congrArg Frag.pc hmoved :), (congrArg Frag.st hmoved :).trans (show x.f.st = .ready from ready_of h.ready), (congrArg Frag.join hmoved :)⟩
  unfold liveIn
  rw [hmask, hlive]

/-- What a BRD's split finds: every spindle as it was but for moved entries, its own gone on; and with two entries free, nothing moved (R95). -/
theorem split_room (h : IssFacts i k s x) : ∃ u p, makeRoom x.r (quarterOf x.p.spx) 64 (x.commit x.nextPc id) = u ∧
    findSp u x.r.sp = some p ∧ unmoved p = unmoved (committed x) ∧
    (∀ y q, y ≠ x.r.sp → findSp s y = some q → ∃ q', findSp u y = some q' ∧ unmoved q' = unmoved q) ∧
    ((splitEntries s x.t (quarterOf x.p.spx) true).length ≤ 62 → KeepsOthers s u x.r.sp ∧ p = committed x) := by
  have hs := h.state
  have hkeeps := (commit_keeps x.nextPc id (hs ▸ h.team) fun _ => rfl).1
  rw [hs] at hkeeps
  have hcommit : findSp (x.commit x.nextPc id) x.r.sp = some (committed x) := commit_findSp x.nextPc id (hs ▸ h.sp) fun _ => rfl
  have hview := makeRoom_unmoved x.r (quarterOf x.p.spx) 64 (x.commit x.nextPc id)
  have hown := hview x.r.sp
  rw [hcommit, Option.map_some] at hown
  obtain ⟨p, hp, hmoved⟩ := Option.map_eq_some_iff.1 hown
  refine ⟨_, p, rfl, hp, hmoved, fun y q hy hq => ?_, fun hroom => ?_⟩
  · have hother := hview y
    obtain ⟨-, -, hsps, -⟩ := hkeeps
    rw [hsps y hy, hq, Option.map_some] at hother
    exact Option.map_eq_some_iff.1 hother
  · obtain ⟨b, hb, hlen⟩ := splitEntries_commit h x.nextPc (quarterOf x.p.spx)
    rw [makeRoom_of_room _ _ hb (hlen.trans_le hroom)] at hp ⊢
    exact ⟨hkeeps, Option.some.inj (hp.symm.trans hcommit)⟩

end

/-- A split keeps its spindle's place. -/
theorem splitFrag_spx (turn seq i : Nat) (m : BitVec 8) (tgt join : BitVec 64) (p : Spindle) : (splitFrag turn seq i m tgt join p).spx = p.spx := by
  unfold splitFrag
  split <;> rfl

/-- Drawing an identifier changes no agent. -/
theorem keepsOthers_fresh {s u : State} {r : SpRef} (h : KeepsOthers s u r) : KeepsOthers s (fresh u).2 r := h

/-- A BRD that some threads take splits in the room that it finds (R93). -/
theorem exec_brd_splits {w : JWord} {s : State} {x : Iss} (h : Issues (.brd w) ctlCls s x) (h0 : x.tp ≠ 0) (hact : x.tp ≠ x.act)
    (hroom : (splitEntries s x.t (quarterOf x.p.spx) true).length ≤ 62 ∨ splitAreaUp s x.t = true) :
    ∃ n, exec (.brd w) s = .next (updSp (fresh (makeRoom x.r (quarterOf x.p.spx) 64 (x.commit x.nextPc id))).2 x.r.sp
      (splitFrag s.turnNo n x.r.frag x.tp (x.f.pc + jDisp w) (x.f.pc + jJoin w))) := by
  have hwait : ¬(decide (62 < (splitEntries x.s x.t (quarterOf x.p.spx) true).length) && !splitAreaUp x.s x.t) = true := by
    rw [(prologue_facts h).state]
    rcases hroom with hle | hup
    · simp [Nat.not_lt.2 hle]
    · simp [hup]
  exact ⟨_, (issue_of_issues h _).trans ((if_neg h0).trans ((if_neg hact).trans (if_neg hwait)))⟩

/-! ## Joins -/

/-- A spindle a fragment of which arrives at its join (R94). -/
def arriveAt (turn i j : Nat) (m : BitVec 8) (p : Spindle) : Spindle :=
  { p.updFrag i (fun y => { y with st := .atJoin, fetched := none, waited := 0 }) with
    joins := updWhere (fun e => e.id == j) (fun e => { e with arrived := e.arrived ||| m, used := turn }) p.joins }

section
variable {p : Spindle} {j : Nat} {e : JoinEnt}

/-- A join that still expects a thread waits for it (R94). -/
theorem fuseAt_waits (he : p.joins.find? (fun x => x.id == j) = some e) (hne : e.arrived ≠ e.expected) (turn : Nat) : fuseAt turn p j = p := by
  unfold fuseAt
  simp only [he]
  exact if_pos hne

/-- A join at which every thread has arrived ends, and its fragments become one (R94, R96). -/
theorem fuseAt_fuses (he : p.joins.find? (fun x => x.id == j) = some e) (hall : e.arrived = e.expected) {f : Frag} (hf : f ∈ p.frags)
    (hjoin : f.join = some j) (hst : f.st = .atJoin) (turn : Nat) :
    (fuseAt turn p j).joins = p.joins.filter (fun x => x.id != j) ∧
      ∃ h, (fuseAt turn p j).frags.head? = some h ∧ h.mask = e.expected ∧ h.pc = e.addr ∧ h.join = e.parent ∧ h.st = .ready := by
  have hat : f ∈ p.frags.filter fun f => f.join == some j && f.st == .atJoin := List.mem_filter.2 ⟨hf, by simp [hjoin, hst]⟩
  obtain ⟨f0, fs, hcons⟩ := List.exists_cons_of_ne_nil (List.ne_nil_of_mem hat)
  unfold fuseAt
  simp only [he, hall, ne_eq, not_true_eq_false, if_false, hcons]
  exact ⟨rfl, _, rfl, rfl, rfl, rfl, rfl⟩

end

section
variable {s : State} {f : FragRef} {t : Team} {p : Spindle} {g : Frag} {j : Nat} {e : JoinEnt}

/-- A fragment that may issue at its join address arrives there, and the join fuses if it is the last (R94). -/
theorem exec_fragmentAtJoin (ht : findTeam s f.sp.team = some t) (hp : findSp s f.sp = some p) (hg : findFrag s f = some g) (hj : g.join = some j)
    (he : p.joins.find? (fun x => x.id == j) = some e) (hon : e.onChip = true) (hgon : g.onChip = true) (haddr : e.addr = g.pc)
    (hissues : teamIssues s t = true) (hst : p.st = .running) (hhalt : p.halted = false) (hready : g.st = .ready) (htlv : p.tlv = false)
    (hlets : windowLets p g ((g.fetched.map wordCls).getD {}) = true) : exec (.fragmentAtJoin f) s =
      .next (updSp s f.sp fun p => execFragmentAtJoin.endStep (fuseAt s.turnNo (arriveAt s.turnNo f.frag j g.mask p) j)) := by
  have hentries : entriesOnChip p g = true := by
    have hjoin : (p.joins.any fun x => x.id == j && x.onChip) = true :=
      List.any_eq_true.2 ⟨e, List.mem_of_find?_eq_some he, by rw [hon, Bool.and_true]; exact (List.find?_some he :)⟩
    simp only [entriesOnChip, hgon, hj, hjoin, Bool.and_self]
  have hat : joinAddr p g = some g.pc := by
    unfold joinAddr
    rw [hj, Option.bind_some, he, Option.map_some, haddr]
  show execFragmentAtJoin f s = _
  unfold execFragmentAtJoin
  simp only [ht, hp, hg, hj]
  exact if_pos (by simp [hissues, hst, hhalt, hready, hentries, htlv, hat, hlets])

theorem find_arriveAt (he : p.joins.find? (fun x => x.id == j) = some e) (turn i : Nat) (m : BitVec 8) :
    (arriveAt turn i j m p).joins.find? (fun x => x.id == j) = some { e with arrived := e.arrived ||| m, used := turn } := by
  refine (find_updWhere JoinEnt.id (fun e => { e with arrived := e.arrived ||| m, used := turn }) j j p.joins fun _ => rfl).trans ?_
  rw [if_pos rfl, he, Option.map_some]

theorem frag_arriveAt {i : Nat} (hg : p.frag? i = some g) (turn j : Nat) (m : BitVec 8) :
    (arriveAt turn i j m p).frag? i = some { g with st := .atJoin, fetched := none, waited := 0 } := by
  refine (frag_updFrag p i i (fun y => { y with st := .atJoin, fetched := none, waited := 0 }) fun _ => rfl).trans ?_
  rw [if_pos rfl, hg, Option.map_some]

end

end Sys2Proof.Machine

open Sys2Proof Sys2Proof.Machine

/-- Settles O21: a BRD splits its spindle as the room it finds leaves it, and an arrival at a join is one update of its spindle, which fuses or waits. -/
theorem splitsAndJoins : Obligations.SplitsAndJoins := by
  unfold Obligations.SplitsAndJoins
  refine ⟨⟨fun w s x h h0 hact => ?_, fun w s x h h0 hact => ?_⟩,
    fun s f t p g j e ht hp hg hj he hon hgon haddr hissues hst hhalt hready htlv hlets => ?_⟩
  · have hx := prologue_facts h
    obtain rfl := hx.state
    exact ⟨_, _, (issue_of_issues h _).trans ((if_neg h0).trans (if_pos hact)),
      keepsOthers_updSp (f := noLatch) (commit_keeps (x.f.pc + jDisp w) id hx.team fun _ => rfl).1 fun _ => rfl,
      findSp_updSp_self (f := noLatch) (fun _ => rfl) (commit_findSp (x.f.pc + jDisp w) id hx.sp fun _ => rfl), sameArch_committed x (x.f.pc + jDisp w),
      fragStep_moved (begun_frags x x.p) (facts_frag hx) (ready_of hx.ready)⟩
  · intro used hroom
    have hx := prologue_facts h
    obtain ⟨n, hexec⟩ := exec_brd_splits h h0 hact hroom
    obtain ⟨u, p, hu, hp, hmoved, hothers, hfree⟩ := split_room hx
    obtain ⟨f, hstart⟩ := splitStart_of_unmoved hx hmoved
    have hspx := splitFrag_spx s.turnNo n x.r.frag x.tp (x.f.pc + jDisp w) (x.f.pc + jJoin w)
    have hjoins := joins_splitFrag hstart.frag s.turnNo n x.tp (x.f.pc + jDisp w) (x.f.pc + jJoin w)
    have hfrag := frag_splitFrag hstart.frag s.turnNo n x.tp (x.f.pc + jDisp w) (x.f.pc + jJoin w)
    have hne : x.r.frag ≠ freeFragId p := by
      rw [← frag_id hstart.frag]
      exact (lt_freeFragId (List.mem_of_find?_eq_some hstart.frag)).ne
    rw [hu] at hexec
    refine ⟨_, _, splitRest p x.tp (splitJoin s.turnNo n x.r.frag (x.f.pc + jJoin w) p f).id f,
      splitOff s.turnNo n x.tp (x.f.pc + jDisp w) (splitJoin s.turnNo n x.r.frag (x.f.pc + jJoin w) p f).id p f,
      splitJoin s.turnNo n x.r.frag (x.f.pc + jJoin w) p f, hexec, findSp_updSp_self (s := (fresh u).2) hspx hp, ?_, fun hle => ?_, fun y q hy hq => ?_,
      (hfrag _).trans ((if_neg hne).trans (if_pos rfl)), ?_, hstart.pc, hstart.st, rfl, (hfrag _).trans (if_pos rfl), hne.symm, rfl, rfl, rfl, rfl,
      ?_, rfl, hstart.live, rfl, hstart.join⟩
    · rw [splitFrag_eq hstart.frag]
      exact hstart.arch
    · obtain ⟨hkeeps, rfl⟩ := hfree hle
      refine ⟨keepsOthers_updSp (keepsOthers_fresh hkeeps) hspx, ?_, fun k hk hkg => ?_⟩
      · rw [hjoins, committed_joins]
      · refine ((hfrag k).trans ((if_neg hkg).trans (if_neg hk))).trans ?_
        exact (fragStep_moved (begun_frags x x.p) (facts_frag hx) (ready_of hx.ready)).2 k hk
    · obtain ⟨q', hq', hview⟩ := hothers y q hy hq
      refine ⟨q', ?_, moved_of_unmoved hview⟩
      rw [findSp_updSp _ _ _ _ hspx, if_neg hy]
      exact hq'
    · show liveIn p f &&& ~~~x.tp = _
      rw [hstart.live]
    · rw [hjoins]
      exact List.mem_cons_self
  · have hgp : p.frag? f.frag = some g := by
      unfold findFrag at hg
      rwa [hp] at hg
    have hrest (p : Spindle) : unsplit (fuseAt s.turnNo (arriveAt s.turnNo f.frag j g.mask p) j) = unsplit p :=
      unsplit_fuseAt ..
    have hspx (p : Spindle) : (execFragmentAtJoin.endStep (fuseAt s.turnNo (arriveAt s.turnNo f.frag j g.mask p) j)).spx = p.spx :=
      (congrArg Spindle.spx (hrest p) :)
    have harrived := find_arriveAt he s.turnNo f.frag g.mask
    refine ⟨_, _, exec_fragmentAtJoin ht hp hg hj he hon hgon haddr hissues hst hhalt hready htlv hlets,
      keepsOthers_updSp (keepsOthers_refl s f.sp) hspx, findSp_updSp_self hspx hp, (congrArg Spindle.v (hrest p) :), (congrArg Spindle.s (hrest p) :), ?_⟩
    split
    · next hall =>
      obtain ⟨hjoins, hfused⟩ := fuseAt_fuses harrived hall (List.mem_of_find?_eq_some (frag_arriveAt hgp s.turnNo j g.mask)) hj rfl s.turnNo
      refine ⟨?_, hfused⟩
      show (fuseAt s.turnNo (arriveAt s.turnNo f.frag j g.mask p) j).joins.find? _ = none
      rw [hjoins]
      exact List.find?_eq_none.2 fun y hy => by simpa using (List.mem_filter.1 hy).2
    · next hmissing =>
      rw [fuseAt_waits harrived hmissing]
      exact ⟨congrArg (Option.map (·.arrived)) harrived, congrArg (Option.map (·.st)) (frag_arriveAt hgp s.turnNo j g.mask)⟩

end

section
/-! Lemmas for the integer and bit forms (R110 to R123): what a form of the class comes to, results modulo a power of 2, and the
elements and bits of a value that is put together from them. -/

namespace Sys2Proof.Machine

open Sys2Proof

/-! ## Results modulo a power of 2 -/

theorem wrapTo_cast (w : Nat) (r : Int) : (wrapTo w r : Int) = r % 2 ^ w := Int.toNat_of_nonneg (Int.emod_nonneg _ (by positivity))

theorem wrapTo_lt (w : Nat) (r : Int) : wrapTo w r < 2 ^ w := by
  have hlt : r % 2 ^ w < 2 ^ w := Int.emod_lt_of_pos _ (by positivity)
  rw [← wrapTo_cast] at hlt
  exact_mod_cast hlt

theorem wrapTo_natCast (w n : Nat) : wrapTo w n = n % 2 ^ w := by
  have hcast := wrapTo_cast w n
  exact_mod_cast hcast

theorem wrapTo_of_lt {w n : Nat} (h : n < 2 ^ w) : wrapTo w n = n := (wrapTo_natCast w n).trans (Nat.mod_eq_of_lt h)

theorem wrapTo_congr {w : Nat} {r r' : Int} (h : r % 2 ^ w = r' % 2 ^ w) : wrapTo w r = wrapTo w r' := congrArg Int.toNat h

/-- A value that fits its 128 bits keeps its number. -/
theorem toNat_ofNat_128 {w n : Nat} (h : n < 2 ^ w) (hw : w ≤ 128) : (BitVec.ofNat 128 n).toNat = n := by
  rw [BitVec.toNat_ofNat]
  exact Nat.mod_eq_of_lt (h.trans_le (Nat.pow_le_pow_right two_pos hw))

/-! ## Values put together from places -/

/-- A number with one digit at each of `n` places of `w` bits: it has `n` places, and each holds its digit. -/
theorem places_sum {w : Nat} (n : Nat) (d : Nat → Nat) (hd : ∀ e, d e < 2 ^ w) :
    ((List.range n).map fun e => d e * 2 ^ (w * e)).sum < 2 ^ (w * n) ∧
      ∀ k < n, natBits ((List.range n).map fun e => d e * 2 ^ (w * e)).sum (w * k) w = d k := by
  induction n generalizing d with
  | zero => simp
  | succ n ih =>
    obtain ⟨hlt, hdigit⟩ := ih (fun e => d (e + 1)) fun e => hd (e + 1)
    have hfront : ((List.range (n + 1)).map fun e => d e * 2 ^ (w * e)).sum =
        d 0 + 2 ^ w * ((List.range n).map fun e => d (e + 1) * 2 ^ (w * e)).sum := by
      rw [List.range_succ_eq_map, List.map_cons, List.sum_cons, List.map_map, ← List.sum_map_mul_left]
      refine congrArg₂ _ (by simp) (congrArg List.sum (List.map_congr_left fun e _ => ?_))
      show d (e + 1) * 2 ^ (w * (e + 1)) = 2 ^ w * (d (e + 1) * 2 ^ (w * e))
      ring
    rw [hfront]
    generalize ((List.range n).map fun e => d (e + 1) * 2 ^ (w * e)).sum = T at hlt hdigit
    refine ⟨?_, fun k hk => ?_⟩
    · calc d 0 + 2 ^ w * T < 2 ^ w * (T + 1) := by rw [Nat.mul_succ]; have := hd 0; omega
        _ ≤ 2 ^ w * 2 ^ (w * n) := Nat.mul_le_mul_left _ hlt
        _ = 2 ^ (w * (n + 1)) := by ring
    · cases k with
      | zero =>
        show (d 0 + 2 ^ w * T) / 2 ^ 0 % 2 ^ w = d 0
        rw [pow_zero, Nat.div_one, Nat.add_mul_mod_self_left, Nat.mod_eq_of_lt (hd 0)]
      | succ k =>
        refine Eq.trans ?_ (hdigit k (Nat.lt_of_succ_lt_succ hk))
        show (d 0 + 2 ^ w * T) / 2 ^ (w * (k + 1)) % 2 ^ w = T / 2 ^ (w * k) % 2 ^ w
        rw [Nat.mul_succ, pow_add, mul_comm (2 ^ (w * k)), ← Nat.div_div_eq_div_mul, Nat.add_mul_div_left _ _ (by positivity),
          Nat.div_eq_of_lt (hd 0), Nat.zero_add]

theorem natBits_one (x k : Nat) : natBits x k 1 = (x.testBit k).toNat := by
  rw [Nat.testBit_eq_decide_div_mod_eq, natBits, pow_one]
  rcases Nat.mod_two_eq_zero_or_one (x / 2 ^ k) with h | h <;> simp [h]

/-- A number with one bit at each of `n` places. -/
theorem testBit_bits_sum (n : Nat) (b : Nat → Bool) (k : Nat) :
    ((List.range n).map fun i => if b i then 2 ^ i else 0).sum.testBit k = (decide (k < n) && b k) := by
  have hdigits : ((List.range n).map fun i => if b i then 2 ^ i else 0) = (List.range n).map fun i => (b i).toNat * 2 ^ (1 * i) := by
    refine List.map_congr_left fun i _ => ?_
    cases b i <;> simp
  obtain ⟨hlt, hdigit⟩ := places_sum n (fun i => (b i).toNat) fun i => (pow_one 2).symm ▸ Bool.toNat_lt (b i)
  rw [hdigits]
  by_cases hk : k < n
  · have hbit := hdigit k hk
    rw [one_mul, natBits_one] at hbit
    rw [decide_eq_true hk, Bool.true_and]
    revert hbit
    cases Nat.testBit _ k <;> cases b k <;> simp
  · rw [decide_eq_false hk, Bool.false_and]
    refine Nat.testBit_lt_two_pow (hlt.trans_le (Nat.pow_le_pow_right two_pos ?_))
    omega

/-- An operand's elements fill 32 bits, or 64 bits as one. -/
theorem elemW_mul_elemCount_le (ty : Nat) : elemW ty * elemCount ty ≤ 128 := by
  unfold elemCount elemW
  split_ifs <;> simp_all

theorem elemBits_ofElems {ty k : Nat} (f : Nat → Int) (hk : k < elemCount ty) :
    elemBits (BitVec.ofNat 128 (ofElems ty f)) (elemW ty) k = wrapTo (elemW ty) (f k) := by
  obtain ⟨hlt, hdigit⟩ := places_sum (elemCount ty) (fun e => wrapTo (elemW ty) (f e)) fun e => wrapTo_lt _ _
  unfold elemBits ofElems
  rw [toNat_ofNat_128 hlt (elemW_mul_elemCount_le ty)]
  exact hdigit k hk

/-! ## What a form comes to -/

/-- What the instructions of a constructor do, and that each is issued with its own word. -/
structure Form (c : JWord → Instr) (body : JWord → State → Out) : Prop where
  exec_eq : ∀ w s, exec (c w) s = body w s
  word : ∀ w, ∃ sp, ∀ n, jspec n (c w) = some (w, sp)

theorem Form.word_eq {c : JWord → Instr} {body : JWord → State → Out} (hc : Form c body) {w : JWord} {k : IssCls} {s : State} {x : Iss}
    (h : Issues (c w) k s x) : x.w = w := by
  obtain ⟨sp, hsp⟩ := hc.word w
  exact (word_of_issues h hsp).1

section
variable {i : Instr} {w : JWord} {s : State} {x : Iss}

/-- An integer form comes to its end, each thread's result its function of A, B and C. -/
theorem intForm_done (h : Issues i {} s x) (hw : x.w = w) (nd na nb nc : Nat) (f : Nat → Nat → Nat → Nat) :
    LaneDone x nd (fun t => BitVec.ofNat 128 (f (x.num w.a na (elemS (jType w)) t) (x.num w.b nb (elemS (jType w)) t)
      (x.numC nc (elemS (jType w)) t))) id (intForm i w nd na nb nc s f) := by
  subst hw
  rw [show intForm i x.w nd na nb nc s f = _ from issue_of_issues h _]
  exact compute_done (prologue_facts h) nd _ id 0 mild_id

/-- An element form comes to its end, each element its operation's result, clamped and wrapped (R112). -/
theorem elemForm_done (h : Issues i {} s x) (hw : x.w = w) (op : Nat → Int → Int → Int → Int) :
    ∃ f, LaneDone x (intRegs w) f id (elemForm i w op s) ∧ ∀ t ∈ x.threads, ∀ k < elemCount (jType w),
      elemBits (f t) (elemW (jType w)) k = wrapTo (elemW (jType w)) (clampTo (jType w) (clampBit w)
        (op (elemW (jType w)) (elemOf (jType w) k (x.num w.a (intRegs w) (elemS (jType w)) t))
          (elemOf (jType w) k (x.num w.b (intRegs w) (elemS (jType w)) t))
          (elemOf (jType w) k (x.numC (intRegs w) (elemS (jType w)) t)))) :=
  ⟨_, intForm_done h hw (intRegs w) (intRegs w) (intRegs w) (intRegs w) (elemOp (jType w) (clampBit w) (op (elemW (jType w)))),
    fun _ _ _ hk => elemBits_ofElems _ hk⟩

end

/-- IMULHI's quotient rounds down, and its divisor is positive (R112). -/
theorem exec_imulhi (w : JWord) (s : State) : exec (.imulhi w) s = elemForm (.imulhi w) w (fun w a b _ => a * b / 2 ^ w) s := by
  show execImulhi w s = _
  unfold execImulhi
  simp only [Int.fdiv_eq_ediv_of_nonneg _ (show (0 : Int) ≤ 2 ^ _ by positivity)]

end Sys2Proof.Machine

open Sys2Proof Sys2Proof.Machine

/-- Settles O11: each of the nine is an element form of its operation. -/
theorem elementArithmetic : Obligations.ElementArithmetic := by
  unfold Obligations.ElementArithmetic
  intro e he w s x h
  have hc : Form e.1 fun w s => elemForm (e.1 w) w e.2 s := by
    fin_cases he
    on_goal 4 => exact ⟨exec_imulhi, fun _ => ⟨_, fun _ => rfl⟩⟩
    all_goals exact ⟨fun _ _ => rfl, fun _ => ⟨_, fun _ => rfl⟩⟩
  rw [hc.exec_eq]
  exact elemForm_done h (hc.word_eq h) e.2

end

section
/-! Lemmas for the wide forms, the bit forms and the shifts (R113 to R116, R123): a form's auxiliary predicate, and what bit by bit and
element by element operations come to. -/

namespace Sys2Proof.Machine

open Sys2Proof

/-- A spindle with a predicate written for each thread of a list differs in that predicate alone. -/
theorem onlyPred_psetAll (n : Nat) (ths : List Nat) (f : Nat → Bool) (p : Spindle) : OnlyPred p (psetAll n ths f p) n ths f := by
  refine ⟨predWritten_psetAll n ths f p, ?_⟩
  rw [psetAll_rest]
  rfl

theorem mild_unless {c : Prop} [Decidable c] {eff : Spindle → Spindle} (he : Mild eff) : Mild fun p => if c then p else eff p := by
  by_cases hc : c
  · simp only [hc, if_true]
    exact mild_id
  · simp only [hc, if_false]
    exact he

/-- A computing form that writes an auxiliary predicate too, unless it names none. -/
theorem compute_aux {i : Instr} {k : IssCls} {s : State} {x : Iss} (h : IssFacts i k s x) (nd : Nat) (f : Nat → BitVec 128) (c : Prop) [Decidable c]
    (n : Nat) (g : Nat → Bool) :
    ∃ eff, LaneDone x nd f eff (x.compute nd (x.threads.map fun t => (t, f t)) fun p => if c then p else psetAll n x.threads g p) ∧
      (c → eff x.p = x.p) ∧ (¬c → OnlyPred x.p (eff x.p) n x.threads g) := by
  refine ⟨_, compute_done h nd f _ 0 (mild_unless (mild_psetAll n x.threads g)), fun hc => if_pos hc, fun hc => ?_⟩
  simp only [hc, if_false]
  exact onlyPred_psetAll n x.threads g x.p

/-- A wrapped result of a form is its number modulo a power of 2. -/
theorem toNat_ofNat_wrapTo {w : Nat} (hw : w ≤ 128) (r : Int) : ((BitVec.ofNat 128 (wrapTo w r)).toNat : Int) = r % 2 ^ w := by
  rw [toNat_ofNat_128 (wrapTo_lt w r) hw, wrapTo_cast]

/-- The clamp of a 32-bit accumulator (R115). -/
theorem clampTo_word (sg on : Bool) (r : Int) : clampTo (if sg then 1 else 0) on r =
    if on then min (max r (if sg then -(2 ^ 31) else 0)) (if sg then 2 ^ 31 - 1 else 2 ^ 32 - 1) else r := by
  cases sg
  · rfl
  · rfl

theorem intRegs_le (w : JWord) : intRegs w ≤ 2 := by
  unfold intRegs
  split <;> decide

section
variable {i : Instr} {w : JWord} {s : State} {x : Iss}

/-- A bitwise form comes to its end, each bit of its result the function of the bits of A and B (R116). -/
theorem bitForm_done (h : Issues i {} s x) (hw : x.w = w) {op : BitVec 64 → BitVec 64 → BitVec 64} {g : Bool → Bool → Bool}
    (hop : ∀ a b k, k < 64 → (op a b).getLsbD k = g (a.getLsbD k) (b.getLsbD k)) :
    ∃ f, LaneDone x (intRegs w) f id (bitForm i w op s) ∧ ∀ t ∈ x.threads, ∀ k, (f t).getLsbD k = (decide (k < 32 * intRegs w) &&
      g ((x.num w.a (intRegs w) (elemS (jType w)) t).testBit k) ((x.num w.b (intRegs w) (elemS (jType w)) t).testBit k)) := by
  refine ⟨_, intForm_done h hw (intRegs w) (intRegs w) (intRegs w) (intRegs w) (fun a b _ => (op (BitVec.ofNat 64 a) (BitVec.ofNat 64 b)).toNat % 2 ^ bitW w),
    fun t _ k => ?_⟩
  rw [BitVec.getLsbD_ofNat, Nat.testBit_mod_two_pow, show bitW w = 32 * intRegs w from rfl]
  by_cases hk : k < 32 * intRegs w
  · have hle := intRegs_le w
    have h64 : k < 64 := by omega
    have h128 : k < 128 := by omega
    rw [BitVec.testBit_toNat, hop _ _ _ h64, BitVec.getLsbD_ofNat, BitVec.getLsbD_ofNat]
    simp only [hk, h64, h128, decide_true, Bool.true_and]
  · simp only [hk, decide_false, Bool.false_and, Bool.and_false]

/-- A shift form comes to its end, each element its function's, wrapped (R116, second table). -/
theorem shiftForm_done (h : Issues i {} s x) (hw : x.w = w) (g : Nat → Nat → Int → Nat → Int) :
    ∃ f, LaneDone x (intRegs w) f id (shiftForm i w g s) ∧ ∀ t ∈ x.threads, ∀ k < elemCount (jType w),
      let ew := elemW (jType w)
      let a := natBits (x.num w.a (intRegs w) (elemS (jType w)) t) (ew * k) ew
      let b := x.num w.b 1 (elemS (jType w)) t
      elemBits (f t) ew k = wrapTo ew (g ew a (signedOf ew a) (if jType w = 6 then b % 2 ^ 32 else natBits b (ew * k) ew)) :=
  ⟨_, intForm_done h hw (intRegs w) (intRegs w) 1 1 (fun a b _ => ofElems (jType w) fun e =>
      g (elemW (jType w)) (natBits a (elemW (jType w) * e) (elemW (jType w))) (signedOf (elemW (jType w)) (natBits a (elemW (jType w) * e) (elemW (jType w))))
        (if jType w = 6 then b % 2 ^ 32 else natBits b (elemW (jType w) * e) (elemW (jType w)))),
    fun _ _ _ hk => elemBits_ofElems _ hk⟩

end

end Sys2Proof.Machine

open Sys2Proof Sys2Proof.Machine

/-- Settles O12: the wide forms wrap their sums, the bitwise forms act on each bit and the shifts on each element. -/
theorem wideAndBitForms : Obligations.WideAndBitForms := by
  unfold Obligations.WideAndBitForms
  refine ⟨⟨fun w s x h => ?_, fun w s x h => ?_, fun w s x h => ?_, fun w s x h => ?_⟩, fun e he w s x h => ?_, fun e he w s x h => ?_⟩
  · obtain rfl := (word_of_issues h fun _ => rfl).1
    rw [show exec (.iaddx x.w) s = _ from issue_of_issues h _]
    exact compute_aux (prologue_facts h) 1 _ (jK x.w = 63) (jK x.w) fun t =>
      decide (2 ^ 32 ≤ (x.src1 x.w.a t).toNat + (x.src1 x.w.b t).toNat + carryIn x t)
  · show ∃ f, LaneDone x 2 f id (execImadw w s) ∧ _
    unfold execImadw
    refine ⟨_, intForm_done h (word_of_issues h fun _ => rfl).1 .., fun t _ => ?_⟩
    rw [toNat_ofNat_wrapTo (by decide)]
    simp only [beq_iff_eq]
  · show ∃ f, LaneDone x 1 f id (execIdot4 w s) ∧ _
    unfold execIdot4
    refine ⟨_, intForm_done h (word_of_issues h fun _ => rfl).1 .., fun t _ => ?_⟩
    rw [toNat_ofNat_wrapTo (by decide)]
    simp only [clampTo_word, List.range, List.range.loop, List.map_cons, List.map_nil, List.sum_cons, List.sum_nil, add_zero, ← add_assoc]
  · show ∃ f, LaneDone x 2 f id (execLea w s) ∧ _
    unfold execLea
    refine ⟨_, intForm_done h (word_of_issues h fun _ => rfl).1 .., fun t _ => ?_⟩
    exact toNat_ofNat_wrapTo (by decide) _
  · obtain ⟨op, hc, hop⟩ : ∃ op, Form e.1 (fun w s => bitForm (e.1 w) w op s) ∧
        ∀ a b k, k < 64 → (op a b).getLsbD k = e.2 (a.getLsbD k) (b.getLsbD k) := by
      fin_cases he
      · exact ⟨fun a b => a &&& b, ⟨fun _ _ => rfl, fun _ => ⟨_, fun _ => rfl⟩⟩, fun a b k _ => BitVec.getLsbD_and⟩
      · exact ⟨fun a b => a ||| b, ⟨fun _ _ => rfl, fun _ => ⟨_, fun _ => rfl⟩⟩, fun a b k _ => BitVec.getLsbD_or⟩
      · exact ⟨fun a b => a ^^^ b, ⟨fun _ _ => rfl, fun _ => ⟨_, fun _ => rfl⟩⟩, fun a b k _ => BitVec.getLsbD_xor⟩
      · exact ⟨fun a b => a &&& ~~~b, ⟨fun _ _ => rfl, fun _ => ⟨_, fun _ => rfl⟩⟩, fun a b k hk => by simp [hk]⟩
      · exact ⟨fun a _ => ~~~a, ⟨fun _ _ => rfl, fun _ => ⟨_, fun _ => rfl⟩⟩, fun a b k hk => by simp [hk]⟩
    rw [hc.exec_eq]
    exact bitForm_done h (hc.word_eq h) hop
  · obtain ⟨g, hc, hg⟩ : ∃ g : Nat → Nat → Int → Nat → Int, Form e.1 (fun w s => shiftForm (e.1 w) w g s) ∧
        ∀ ew (a : Nat) n, wrapTo ew (g ew a (signedOf ew a) n) = wrapTo ew (e.2 ew a (signedOf ew a) n) := by
      fin_cases he
      · refine ⟨fun ew x _ n => if n < ew then (x : Int) * 2 ^ n else 0, ⟨fun _ _ => rfl, fun _ => ⟨_, fun _ => rfl⟩⟩, fun ew a n => wrapTo_congr ?_⟩
        dsimp only
        split
        · exact (Int.emod_emod ..).symm
        · rfl
      · refine ⟨fun ew x _ n => if n < ew then (x / 2 ^ n : Nat) else 0, ⟨fun _ _ => rfl, fun _ => ⟨_, fun _ => rfl⟩⟩, fun ew a n => ?_⟩
        push_cast
        rfl
      · refine ⟨fun ew _ y n => if n < ew then y.fdiv (2 ^ n) else if y < 0 then -1 else 0, ⟨fun _ _ => rfl, fun _ => ⟨_, fun _ => rfl⟩⟩,
          fun ew a n => ?_⟩
        dsimp only
        rw [Int.fdiv_eq_ediv_of_nonneg _ (by positivity)]
      · refine ⟨fun ew x _ n => ((x * 2 ^ (n % ew) + x / 2 ^ (ew - n % ew) : Nat) : Int), ⟨fun _ _ => rfl, fun _ => ⟨_, fun _ => rfl⟩⟩,
          fun ew a n => wrapTo_congr ?_⟩
        push_cast
        exact (Int.emod_add_emod ..).symm
    rw [hc.exec_eq]
    obtain ⟨f, hdone, hf⟩ := shiftForm_done h (hc.word_eq h) g
    exact ⟨f, hdone, fun t ht k hk => (hf t ht k hk).trans (hg ..)⟩

end

section
/-! Lemmas for the funnel shift, bit fields and bit counts (R117 to R119): the bits of a sign-extended field and of a reversed list, and
the first one bit of a list. -/

namespace Sys2Proof.Machine

open Sys2Proof

/-! ## Fields -/

/-- The two's complement value of a field, wrapped to a width, is its sign extension. -/
theorem wrapTo_signedOf {v : Nat} (hv : 0 < v) (w r : Nat) : wrapTo w (signedOf v r) = ((BitVec.ofNat v r).signExtend w).toNat := by
  have hint : signedOf v r = (BitVec.ofNat v r).toInt := by
    obtain ⟨u, rfl⟩ : ∃ u, v = u + 1 := ⟨v - 1, by omega⟩
    unfold signedOf
    rw [BitVec.toInt_eq_toNat_cond, BitVec.toNat_ofNat, Nat.add_sub_cancel, pow_succ]
    dsimp only
    split_ifs
    · rfl
    · omega
    · omega
    · push_cast
      rfl
  rw [hint, BitVec.signExtend, BitVec.toNat_ofInt]
  unfold wrapTo
  push_cast
  rfl

/-- The bits of a field that is extended with its sign. -/
theorem testBit_wrapTo_signedOf {v w : Nat} (hv : 0 < v) (r k : Nat) :
    (wrapTo w (signedOf v r)).testBit k = (decide (k < w) && if k < v then r.testBit k else r.testBit (v - 1)) := by
  rw [wrapTo_signedOf hv, BitVec.testBit_toNat, BitVec.getLsbD_signExtend, BitVec.msb_eq_getLsbD_last, BitVec.getLsbD_ofNat, BitVec.getLsbD_ofNat]
  by_cases hk : k < v
  · simp [hk]
  · simp [hk, hv]

theorem testBit_natBits (x lo len k : Nat) : (natBits x lo len).testBit k = (decide (k < len) && x.testBit (lo + k)) := by
  unfold natBits
  rw [Nat.testBit_mod_two_pow, Nat.testBit_div_two_pow, Nat.add_comm]

theorem fieldWid_le (b : Nat) : fieldWid b ≤ 32 := by
  unfold fieldWid
  omega

/-- A form's result that is a word has that word's bits. -/
theorem getLsbD_ofNat_word {n : Nat} (h : n < 2 ^ 32) (k : Nat) : (BitVec.ofNat 128 n).getLsbD k = n.testBit k := by
  rw [← BitVec.testBit_toNat, toNat_ofNat_128 h (by decide)]

/-- The bits of an extracted field: its own, then of a signed one its sign (R118). -/
theorem getLsbD_bfe (c : Prop) [Decidable c] (a b k : Nat) :
    (BitVec.ofNat 128 (if fieldWid b = 0 then 0 else if c then wrapTo 32 (signedOf (fieldWid b) (natBits a (fieldPos b) (fieldWid b)))
      else natBits a (fieldPos b) (fieldWid b))).getLsbD k = (decide (k < 32 ∧ fieldWid b ≠ 0) &&
        if k < fieldWid b then a.testBit (fieldPos b + k) else decide c && a.testBit (fieldPos b + fieldWid b - 1)) := by
  have hle := fieldWid_le b
  by_cases h0 : fieldWid b = 0
  · simp [h0]
  · rw [if_neg h0]
    by_cases hc : c
    · have hpos := Nat.pos_of_ne_zero h0
      rw [if_pos hc, getLsbD_ofNat_word (wrapTo_lt 32 _), testBit_wrapTo_signedOf hpos, testBit_natBits, testBit_natBits, Nat.add_sub_assoc hpos]
      by_cases hk : k < fieldWid b
      · simp [hk, h0]
      · simp [hk, h0, hc, Nat.pos_of_ne_zero h0]
    · have hlt : natBits a (fieldPos b) (fieldWid b) < 2 ^ 32 := (Nat.mod_lt _ (by positivity)).trans_le (Nat.pow_le_pow_right two_pos hle)
      rw [if_neg hc, getLsbD_ofNat_word hlt, testBit_natBits]
      by_cases hk : k < fieldWid b
      · simp [hk, h0, hk.trans_le hle]
      · simp [hk, hc]

/-- The mask of a field (R118). -/
def fieldMask (b : Nat) : BitVec 32 := BitVec.ofNat 32 ((2 ^ fieldWid b - 1) * 2 ^ fieldPos b)

theorem getLsbD_fieldMask (b k : Nat) : (fieldMask b).getLsbD k = decide (k < 32 ∧ fieldPos b ≤ k ∧ k < fieldPos b + fieldWid b) := by
  unfold fieldMask
  rw [BitVec.getLsbD_ofNat, Nat.testBit_mul_two_pow, Nat.testBit_two_pow_sub_one, ← Bool.decide_and, ← Bool.decide_and, decide_eq_decide]
  omega

/-- The bits of a word with a field inserted (R118). -/
theorem getLsbD_bfi (a b c k : Nat) :
    (BitVec.ofNat 128 ((BitVec.ofNat 32 c &&& ~~~fieldMask b) ||| (BitVec.ofNat 32 (a * 2 ^ fieldPos b) &&& fieldMask b)).toNat).getLsbD k = (decide (k < 32) &&
      if fieldPos b ≤ k ∧ k < fieldPos b + fieldWid b then a.testBit (k - fieldPos b) else c.testBit k) := by
  rw [getLsbD_ofNat_word (BitVec.isLt _), BitVec.testBit_toNat, BitVec.getLsbD_or, BitVec.getLsbD_and, BitVec.getLsbD_and, BitVec.getLsbD_not,
    getLsbD_fieldMask, BitVec.getLsbD_ofNat, BitVec.getLsbD_ofNat,
    Nat.testBit_mul_two_pow]
  by_cases hk : k < 32
  · by_cases hin : fieldPos b ≤ k ∧ k < fieldPos b + fieldWid b
    · simp [hk, hin]
    · simp [hk, hin]
  · simp [hk]

/-! ## Bits in order -/

/-- Bits written down from the highest: the list's last is the lowest. -/
theorem testBit_foldl_bits (l : List Bool) (k : Nat) : (l.foldl (fun r (b : Bool) => 2 * r + b.toNat) 0).testBit k = l.reverse.getD k false := by
  induction l using List.reverseRecOn generalizing k with
  | nil => simp
  | append_singleton l b ih =>
    rw [List.foldl_append, List.foldl_cons, List.foldl_nil, List.reverse_append, List.reverse_singleton, List.singleton_append]
    generalize l.foldl (fun r (b : Bool) => 2 * r + b.toNat) 0 = r at ih
    cases k with
    | zero => cases b <;> simp
    | succ k =>
      have hhalf : (2 * r + b.toNat) / 2 = r := by
        have hb := Bool.toNat_lt b
        omega
      rw [Nat.testBit_succ, hhalf, ih]
      rfl

theorem length_bitList (w x : Nat) : (bitList w x).length = w := by simp [bitList]

theorem getD_bitList (w x k : Nat) : (bitList w x).getD k false = (decide (k < w) && x.testBit k) := by
  by_cases hk : k < w
  · simp [bitList, hk]
  · simp [bitList, hk]

theorem getD_reverse_bitList (w x k : Nat) : (bitList w x).reverse.getD k false = (decide (k < w) && x.testBit (w - 1 - k)) := by
  by_cases hk : k < w
  · simp [bitList, hk]
  · simp [bitList, hk]

/-- The zeros at the head of a list of bits: as many as the list is long, or up to its first one. -/
theorem leading_zeros (l : List Bool) : (∀ i < (l.takeWhile (! ·)).length, l.getD i false = false) ∧
    ((l.takeWhile (! ·)).length = l.length ∨ (l.takeWhile (! ·)).length < l.length ∧ l.getD (l.takeWhile (! ·)).length false = true) := by
  induction l with
  | nil => simp
  | cons b l ih =>
    obtain ⟨hzero, hend⟩ := ih
    cases b with
    | true => simp
    | false =>
      rw [List.takeWhile_cons_of_pos rfl, List.length_cons, List.length_cons]
      refine ⟨fun i hi => ?_, ?_⟩
      · cases i with
        | zero => rfl
        | succ i => exact hzero i (Nat.lt_of_succ_lt_succ hi)
      · exact hend.imp (congrArg Nat.succ) fun h => ⟨Nat.succ_lt_succ h.1, h.2⟩

/-! ## Counts -/

/-- All ones (Table 4-5). -/
theorem wrapTo_neg_one (w : Nat) : wrapTo w (-1) = 2 ^ w - 1 := by
  have hpos : 1 ≤ 2 ^ w := Nat.one_le_two_pow
  rw [← wrapTo_of_lt (Nat.sub_one_lt_of_le hpos le_rfl)]
  refine wrapTo_congr ?_
  rw [Nat.cast_sub hpos]
  simp

/-- Leading zeros of an element (R119). -/
theorem clz_spec {v : Nat} (a : Nat) : let r := ((bitList v a).reverse.takeWhile (! ·)).length
    r ≤ v ∧ (∀ i < r, a.testBit (v - 1 - i) = false) ∧ (r = v ∨ r < v ∧ a.testBit (v - 1 - r) = true) := by
  intro r
  obtain ⟨hzero, hend⟩ := leading_zeros (bitList v a).reverse
  rw [List.length_reverse, length_bitList] at hend
  have hle : r ≤ v := hend.elim le_of_eq fun h => h.1.le
  refine ⟨hle, fun i hi => ?_, hend.imp_right fun h => ⟨h.1, ?_⟩⟩
  · have hbit := hzero i hi
    rwa [getD_reverse_bitList, decide_eq_true (hi.trans_le hle), Bool.true_and] at hbit
  · have hbit := h.2
    rwa [getD_reverse_bitList, decide_eq_true h.1, Bool.true_and] at hbit

/-- The lowest one bit of an element that has one (R119). -/
theorem ffs_spec {v a : Nat} (h0 : a ≠ 0) (ha : a < 2 ^ v) : let r := ((bitList v a).takeWhile (! ·)).length
    r < v ∧ a.testBit r = true ∧ ∀ i < r, a.testBit i = false := by
  intro r
  obtain ⟨hzero, hend⟩ := leading_zeros (bitList v a)
  rw [length_bitList] at hend
  have hzero : ∀ i < r, a.testBit i = false := fun i hi => by
    have hbit := hzero i hi
    rwa [getD_bitList, decide_eq_true (hi.trans_le (hend.elim le_of_eq fun h => h.1.le)), Bool.true_and] at hbit
  rcases hend with hall | ⟨hlt, hone⟩
  · refine absurd (Nat.eq_of_testBit_eq fun i => ?_) h0
    rw [Nat.zero_testBit]
    by_cases hi : i < v
    · exact hzero i (hi.trans_eq hall.symm)
    · exact Nat.testBit_lt_two_pow (ha.trans_le (Nat.pow_le_pow_right two_pos (not_lt.1 hi)))
  · rw [getD_bitList, decide_eq_true hlt, Bool.true_and] at hone
    exact ⟨hlt, hone, hzero⟩

/-- The one bits of an element (R119). -/
theorem length_filter_bitList (v a : Nat) : ((bitList v a).filter id).length = ((List.range v).filter fun i => a.testBit i).length := by
  unfold bitList
  rw [List.filter_map, List.length_map]
  rfl

section
variable {i : Instr} {w : JWord} {s : State} {x : Iss}

/-- A count of each element, or of the whole 64 bits, comes to its end with what `P` says of it, if its count wrapped to the element, or
to 32 bits, satisfies that (R119). -/
theorem countForm_done (h : Issues i {} s x) (hw : x.w = w) {g : Nat → Nat → Int} {P : Nat → Nat → Nat → Prop}
    (hP : ∀ v a, v < 2 ^ min v 32 → a < 2 ^ v → P v a (wrapTo (min v 32) (g v a))) :
    ∃ f, LaneDone x 1 f id (countForm i w g s) ∧ ∀ t ∈ x.threads,
      let a := x.num w.a (intRegs w) (elemS (jType w)) t
      if jType w = 6 then P 64 (a % 2 ^ 64) (f t).toNat
      else ∀ k < elemCount (jType w), P (elemW (jType w)) (natBits a (elemW (jType w) * k) (elemW (jType w))) (elemBits (f t) (elemW (jType w)) k) := by
  refine ⟨_, intForm_done h hw 1 (intRegs w) 1 1 (fun a _ _ => if jType w = 6 then wrapTo 32 (g 64 (a % 2 ^ 64))
    else ofElems (jType w) fun e => g (elemW (jType w)) (natBits a (elemW (jType w) * e) (elemW (jType w)))), fun t _ => ?_⟩
  intro a
  split
  · next h6 =>
    rw [toNat_ofNat_128 (wrapTo_lt 32 _) (by decide)]
    exact hP 64 (a % 2 ^ 64) (by decide) (Nat.mod_lt _ (by decide))
  · next h6 =>
    intro k hk
    have hlow : elemW (jType w) < 2 ^ min (elemW (jType w)) 32 ∧ min (elemW (jType w)) 32 = elemW (jType w) := by
      revert hk
      unfold elemCount elemW
      rw [if_neg h6]
      split_ifs <;> simp
    rw [elemBits_ofElems _ hk]
    have := hP _ (natBits a (elemW (jType w) * k) (elemW (jType w))) hlow.1 (Nat.mod_lt _ (by positivity))
    rwa [hlow.2] at this

end

end Sys2Proof.Machine

open Sys2Proof Sys2Proof.Machine

/-- Settles O13: the kept part fits its 32 bits. -/
theorem funnelShift : Obligations.FunnelShift := by
  unfold Obligations.FunnelShift
  intro w s x h v n
  show ∃ f, LaneDone x 1 f id (execFshf w s) ∧ _
  unfold execFshf
  refine ⟨_, intForm_done h (word_of_issues h fun _ => rfl).1 .., fun t _ => toNat_ofNat_128 (w := 32) ?_ (by decide)⟩
  dsimp only
  split
  · exact Nat.mod_lt _ (by decide)
  · exact Nat.div_lt_of_lt_mul (Nat.mod_lt _ (by decide))

/-- Settles O14: an extracted field is its bits, with its sign above them; an inserted one lies under its mask. -/
theorem bitFields : Obligations.BitFields := by
  unfold Obligations.BitFields
  intro pos wid
  refine ⟨fun w s x h => ?_, fun w s x h => ?_⟩
  · show ∃ f, LaneDone x 1 f id (execBfe w s) ∧ _
    unfold execBfe
    refine ⟨_, intForm_done h (word_of_issues h fun _ => rfl).1 .., fun t _ => ?_⟩
    exact fun k => getLsbD_bfe (jType w = 1) _ _ k
  · show ∃ f, LaneDone x 1 f id (execBfi w s) ∧ _
    unfold execBfi
    refine ⟨_, intForm_done h (word_of_issues h fun _ => rfl).1 .., fun t _ => ?_⟩
    exact fun k => getLsbD_bfi _ _ _ k

/-- Settles O15: BREV reads its bits from the other end; each count is one of an element's list of bits. -/
theorem bitCounts : Obligations.BitCounts := by
  unfold Obligations.BitCounts
  refine ⟨fun w s x h => ?_, fun e he w s x h => ?_⟩
  · show ∃ f, LaneDone x (intRegs w) f id (execBrev w s) ∧ _
    unfold execBrev
    refine ⟨_, intForm_done h (word_of_issues h fun _ => rfl).1 .., fun t _ k => ?_⟩
    have hle := intRegs_le w
    rw [BitVec.getLsbD_ofNat, testBit_foldl_bits, getD_reverse_bitList, show bitW w = 32 * intRegs w from rfl]
    by_cases hk : k < 32 * intRegs w
    · simp [show k < 128 by omega]
    · simp [hk]
  · obtain ⟨g, hc, hP⟩ : ∃ g : Nat → Nat → Int, Form e.1 (fun w s => countForm (e.1 w) w g s) ∧
        ∀ v a, v < 2 ^ min v 32 → a < 2 ^ v → e.2 v a (wrapTo (min v 32) (g v a)) := by
      fin_cases he
      · refine ⟨fun ew x => ((bitList ew x).reverse.takeWhile (! ·)).length, ⟨fun _ _ => rfl, fun _ => ⟨_, fun _ => rfl⟩⟩, fun v a hv _ => ?_⟩
        obtain ⟨hle, hcount⟩ := clz_spec (v := v) a
        dsimp only
        rwa [wrapTo_of_lt (hle.trans_lt hv)]
      · refine ⟨fun ew x => if x = 0 then -1 else ((bitList ew x).takeWhile (! ·)).length, ⟨fun _ _ => rfl, fun _ => ⟨_, fun _ => rfl⟩⟩,
          fun v a hv ha => ?_⟩
        dsimp only
        split
        · exact wrapTo_neg_one _
        · next h0 =>
          obtain ⟨hlt, hcount⟩ := ffs_spec h0 ha
          rwa [wrapTo_of_lt (hlt.trans hv)]
      · refine ⟨fun ew x => ((bitList ew x).filter id).length, ⟨fun _ _ => rfl, fun _ => ⟨_, fun _ => rfl⟩⟩, fun v a hv _ => ?_⟩
        have hle : ((bitList v a).filter id).length ≤ v := (List.length_filter_le ..).trans_eq (length_bitList v a)
        dsimp only
        rw [wrapTo_of_lt (hle.trans_lt hv), length_filter_bitList]
    rw [hc.exec_eq]
    exact countForm_done h (hc.word_eq h) hP

end

section
/-! Lemmas for comparisons, predicate logic and the cross-thread forms of a spindle (R120 to R122, R126, R128, R129): effects on
predicates alone, and masks of threads. -/

namespace Sys2Proof.Machine

open Sys2Proof

/-! ## Effects on predicates -/

theorem writePred_map (n : Nat) (ths : List Nat) (f : Nat → Bool) : writePred n (ths.map fun t => (t, f t)) = psetAll n ths f :=
  funext fun _ => List.foldl_map

/-- A form with a predicate result comes to its end. -/
theorem pred_endsWith {i : Instr} {k : IssCls} {s : State} {x : Iss} (h : IssFacts i k s x) (n : Nat) (f : Nat → Bool) :
    EndsWith x x.nextPc (fun q => OnlyPred x.p q n x.threads f) (x.next (writePred n (x.threads.map fun t => (t, f t)))) := by
  rw [writePred_map]
  exact commit_endsWith h x.nextPc (mild_psetAll ..) (onlyPred_psetAll ..)

theorem combine_eq (w : JWord) (q r : Bool) :
    combine w q r = if jImm w = true ∨ jP w = 63 then q else if jK w = 0 then q && r else if jK w = 1 then q || r else q ^^ r := by
  unfold combine
  simp only [Bool.or_eq_true, beq_iff_eq, Bool.bne_eq_xor]

theorem intCompare_eq (c : Nat) (a b : Int) :
    intCompare c a b = if c = 0 then decide (a = b) else if c = 1 then decide (a ≠ b) else if c = 2 then decide (a < b)
      else if c = 3 then decide (a ≤ b) else if c = 4 then decide (a > b) else decide (a ≥ b) := by
  unfold intCompare
  simp only [bne, beq_eq_decide, decide_not, gt_iff_lt, ge_iff_le]

theorem mild_pset (n t : Nat) (b : Bool) : Mild fun p => pset p n t b := mild_psetAll n [t] fun _ => b

theorem mild_foldl {α : Type} {g : α → Spindle → Spindle} (hg : ∀ a, Mild (g a)) (l : List α) : Mild fun p => l.foldl (fun p a => g a p) p := by
  induction l with
  | nil => exact mild_id
  | cons a l ih => exact mild_comp ih (hg a)

/-- V2P for one thread: the bits of a value that a mask names become predicates (R126). -/
def bitsToPreds (m : Word) (b t : Nat) (v : Word) (n : Nat) (p : Spindle) : Spindle :=
  (List.range n).foldl (fun p i => if m.getLsbD i then pset p (b + i) t (v.getLsbD i) else p) p

theorem mild_bitsToPreds (m : Word) (b t : Nat) (v : Word) (n : Nat) : Mild (bitsToPreds m b t v n) := by
  refine mild_foldl (g := fun i p => if m.getLsbD i then pset p (b + i) t (v.getLsbD i) else p) (fun i => ?_) (List.range n)
  by_cases hi : m.getLsbD i = true
  · simp only [hi, if_true]
    exact mild_pset ..
  · simp only [hi, if_false, Bool.false_eq_true]
    exact mild_id

theorem bitsToPreds_rest (m : Word) (b t : Nat) (v : Word) (n : Nat) (p : Spindle) (c : SMap 48) :
    ({ bitsToPreds m b t v n p with p := c } : Spindle) = { p with p := c } := by
  refine foldl_keeps (fun q : Spindle => { q with p := c }) _ (fun q i => ?_) _ p
  split
  · rfl
  · rfl

theorem pget_bitsToPreds (m : Word) (b t : Nat) (v : Word) (n : Nat) (p : Spindle) {k : Nat} (hk : k < 48) (u : Nat) :
    pget (bitsToPreds m b t v n p) k u =
      if u = t ∧ b ≤ k ∧ k < b + n ∧ m.getLsbD (k - b) = true then v.getLsbD (k - b) else pget p k u := by
  unfold bitsToPreds
  induction n with
  | zero => rw [if_neg (by omega)]; rfl
  | succ n ih =>
    rw [List.range_succ, List.foldl_append, List.foldl_cons, List.foldl_nil]
    by_cases hat : k = b + n
    · subst hat
      by_cases hm : m.getLsbD n = true
      · simp [hm, pget_pset _ _ _ _ _ _ hk, ih]
      · simp [hm, ih]
    · have hrange : k < b + (n + 1) ↔ k < b + n := by omega
      simp only [hrange, ← ih]
      split
      · rw [pget_pset _ _ _ _ _ _ hk, if_neg fun h => hat h.2]
      · rfl

/-- V2P for a list of threads. -/
def valuesToPreds (m : Word) (b : Nat) (ths : List Nat) (v : Nat → Word) (p : Spindle) : Spindle :=
  ths.foldl (fun p t => bitsToPreds m b t (v t) 32 p) p

theorem pget_valuesToPreds (m : Word) (b : Nat) (ths : List Nat) (v : Nat → Word) (p : Spindle) {k : Nat} (hk : k < 48) (t : Nat) :
    pget (valuesToPreds m b ths v p) k t =
      if t ∈ ths ∧ b ≤ k ∧ k < b + 32 ∧ m.getLsbD (k - b) = true then (v t).getLsbD (k - b) else pget p k t := by
  unfold valuesToPreds
  induction ths generalizing p with
  | nil => simp
  | cons u ths ih =>
    rw [List.foldl_cons, ih, pget_bitsToPreds _ _ _ _ _ _ hk]
    by_cases hu : t = u
    · subst hu
      by_cases hin : b ≤ k ∧ k < b + 32 ∧ m.getLsbD (k - b) = true
      · simp [hin]
      · simp [hin]
    · simp [hu]

theorem valuesToPreds_rest (m : Word) (b : Nat) (ths : List Nat) (v : Nat → Word) (p : Spindle) (c : SMap 48) :
    ({ valuesToPreds m b ths v p with p := c } : Spindle) = { p with p := c } :=
  foldl_keeps (fun q : Spindle => { q with p := c }) (fun q t => bitsToPreds m b t (v t) 32 q) (fun _ _ => bitsToPreds_rest ..) ths p

/-! ## Masks of threads -/

theorem getLsbD_foldl_mask (l : List Nat) (m : BitVec 8) {k : Nat} (hk : k < 8) :
    (l.foldl (fun (m : BitVec 8) t => m ||| (1 <<< t)) m).getLsbD k = (m.getLsbD k || decide (k ∈ l)) := by
  induction l generalizing m with
  | nil => simp
  | cons t l ih =>
    have hbit : ((1 <<< t : Nat) : BitVec 8).getLsbD k = decide (k = t) := by
      rw [BitVec.natCast_eq_ofNat, BitVec.getLsbD_ofNat, Nat.one_shiftLeft, Nat.testBit_two_pow, decide_eq_true hk, Bool.true_and]
      exact decide_eq_decide.2 eq_comm
    rw [List.foldl_cons, ih, BitVec.getLsbD_or, hbit]
    simp [Bool.or_assoc]

theorem getLsbD_maskOf (l : List Nat) {k : Nat} (hk : k < 8) : (maskOf l).getLsbD k = decide (k ∈ l) := by
  unfold maskOf
  rw [getLsbD_foldl_mask l 0 hk]
  simp

/-- A thread's bit of a ballot (R128). -/
theorem getLsbD_ballotMask (x : Iss) (k : Nat) : (ballotMask x).getLsbD k = (decide (k < 8) && x.tp.getLsbD k && predSrc x.p x.w.a k) := by
  by_cases hk : k < 8
  · unfold ballotMask
    rw [getLsbD_maskOf _ hk]
    simp [mem_threadsOf, hk]
  · rw [decide_eq_false hk, Bool.false_and, Bool.false_and, BitVec.getLsbD_of_ge _ _ (not_lt.1 hk)]

theorem ballotMask_eq_tp (x : Iss) : (ballotMask x == x.tp) = (threadsOf x.tp).all (predSrc x.p x.w.a) := by
  rw [Bool.eq_iff_iff, beq_iff_eq, List.all_eq_true]
  constructor
  · intro h t ht
    obtain ⟨-, htp⟩ := mem_threadsOf.1 ht
    have hbit := getLsbD_ballotMask x t
    rw [h, htp] at hbit
    simpa using (Bool.and_eq_true_iff.1 hbit.symm).2
  · intro h
    refine BitVec.eq_of_getLsbD_eq fun k hk => ?_
    rw [getLsbD_ballotMask, decide_eq_true hk, Bool.true_and]
    cases htp : x.tp.getLsbD k
    · rfl
    · rw [h k (mem_threadsOf.2 ⟨hk, htp⟩)]
      rfl

theorem ballotMask_eq_zero (x : Iss) : (ballotMask x == 0) = !(threadsOf x.tp).any (predSrc x.p x.w.a) := by
  rw [Bool.eq_iff_iff, beq_iff_eq, Bool.not_eq_true', List.any_eq_false]
  constructor
  · intro h t ht
    obtain ⟨hlt, htp⟩ := mem_threadsOf.1 ht
    have hbit := getLsbD_ballotMask x t
    rw [h, htp] at hbit
    simpa [hlt] using hbit
  · intro h
    refine BitVec.eq_of_getLsbD_eq fun k hk => ?_
    rw [getLsbD_ballotMask]
    cases htp : x.tp.getLsbD k
    · simp
    · simp [h k (mem_threadsOf.2 ⟨hk, htp⟩)]

theorem ballotMask_ne_zero (x : Iss) : (ballotMask x != 0) = (threadsOf x.tp).any (predSrc x.p x.w.a) :=
  (congrArg (! ·) (ballotMask_eq_zero x)).trans (Bool.not_not _)

end Sys2Proof.Machine

open Sys2Proof Sys2Proof.Machine

/-- Settles O16: the comparing and logic forms write one predicate of each thread, the others are computing forms or write bit by bit. -/
theorem compareAndPredicateForms : Obligations.CompareAndPredicateForms := by
  unfold Obligations.CompareAndPredicateForms
  refine ⟨?_, fun e he w s x h => ?_, fun w s x h => ?_, fun w s x h => ?_⟩
  · intro cmp
    refine ⟨fun w s x h => ?_, fun w s x h => ?_, fun c hmem w s x h => ?_⟩
    · obtain rfl := (word_of_issues h fun _ => rfl).1
      rw [show exec (.icmp x.w) s = _ from issue_of_issues h _]
      simp only [combine_eq, intCompare_eq]
      exact pred_endsWith (prologue_facts h) _ _
    · obtain rfl := (word_of_issues h fun _ => rfl).1
      rw [show exec (.sel x.w) s = _ from issue_of_issues h _]
      exact compute_done (prologue_facts h) _ _ id 0 mild_id
    · have hc : Form c fun w s => intForm (c w) w (intRegs w) (intRegs w) 1 1 s fun a _ _ => a := by
        fin_cases hmem
        all_goals exact ⟨fun _ _ => rfl, fun _ => ⟨_, fun _ => rfl⟩⟩
      have hdone := intForm_done h (hc.word_eq h) (intRegs w) (intRegs w) 1 1 fun a _ _ => a
      rw [hc.exec_eq]
      simpa only [Iss.num, BitVec.ofNat_toNat, BitVec.setWidth_eq] using hdone
  · have hc : Form e.1 fun w s => plogForm (e.1 w) w e.2 s := by
      fin_cases he
      all_goals exact ⟨fun _ _ => rfl, fun _ => ⟨_, fun _ => rfl⟩⟩
    obtain rfl := hc.word_eq h
    rw [hc.exec_eq, show plogForm (e.1 x.w) x.w e.2 s = _ from issue_of_issues h _]
    exact pred_endsWith (prologue_facts h) _ _
  · obtain rfl := (word_of_issues h fun _ => rfl).1
    rw [show exec (.p2v x.w) s = _ from issue_of_issues h _]
    refine ⟨_, compute_done (prologue_facts h) 1 _ id 0 mild_id, fun t _ i => ?_⟩
    rw [BitVec.getLsbD_ofNat, testBit_bits_sum]
    by_cases hi : i < 32
    · simp [hi, show i < 128 by omega]
    · simp [hi]
  · obtain rfl := (word_of_issues h fun _ => rfl).1
    rw [show exec (.v2p x.w) s = _ from issue_of_issues h _]
    refine commit_endsWith (prologue_facts h) x.nextPc (eff := valuesToPreds x.w.mod (bitsOf x.w.d 0 6) x.threads (x.src1 x.w.a)) ?_ ⟨?_, ?_⟩
    · exact mild_foldl (fun t => mild_bitsToPreds ..) x.threads
    · rw [valuesToPreds_rest]
      rfl
    · exact fun k t _ hk => pget_valuesToPreds _ _ _ _ _ hk t

/-- Settles O17: each form's result is read off its mask of threads, or off one thread's source. -/
theorem crossThreadForms : Obligations.CrossThreadForms := by
  unfold Obligations.CrossThreadForms
  refine ⟨fun w s x h => ?_, fun e he w s x h => ?_, fun e he w s x h => ?_⟩
  · obtain rfl := (word_of_issues h fun _ => rfl).1
    rw [show exec (.ballot x.w) s = _ from issue_of_issues h _]
    refine ⟨_, compute_done (prologue_facts h) 1 _ id 0 mild_id, fun t _ i => ?_⟩
    rw [BitVec.getLsbD_setWidth, getLsbD_ballotMask]
    by_cases hi : i < 8
    · simp [hi, show i < 128 by omega]
    · simp [hi]
  · obtain ⟨v, hc, hv⟩ : ∃ v : Iss → Bool, Form e.1 (fun w s => voteForm (e.1 w) w v s) ∧
        ∀ x, v x = e.2 ((threadsOf x.tp).all (predSrc x.p x.w.a)) ((threadsOf x.tp).any (predSrc x.p x.w.a)) := by
      fin_cases he
      · exact ⟨fun x => ballotMask x == x.tp, ⟨fun _ _ => rfl, fun _ => ⟨_, fun _ => rfl⟩⟩, ballotMask_eq_tp⟩
      · exact ⟨fun x => ballotMask x != 0, ⟨fun _ _ => rfl, fun _ => ⟨_, fun _ => rfl⟩⟩, ballotMask_ne_zero⟩
      · refine ⟨fun x => ballotMask x == 0 || ballotMask x == x.tp, ⟨fun _ _ => rfl, fun _ => ⟨_, fun _ => rfl⟩⟩, fun x => ?_⟩
        show (ballotMask x == 0 || ballotMask x == x.tp) = _
        rw [ballotMask_eq_zero, ballotMask_eq_tp, Bool.or_comm]
    obtain rfl := hc.word_eq h
    rw [hc.exec_eq, show voteForm (e.1 x.w) x.w v s = _ from issue_of_issues h _, ← hv]
    exact pred_endsWith (prologue_facts h) _ _
  · obtain ⟨src, hc, hsrc⟩ : ∃ src : Int → Int → Int, Form e.1 (fun w s => pickForm (e.1 w) w src s) ∧ e.2 = fun t n => src (t : Nat) (n : Nat) := by
      fin_cases he
      · exact ⟨fun _ n => n, ⟨fun _ _ => rfl, fun _ => ⟨_, fun _ => rfl⟩⟩, rfl⟩
      · exact ⟨fun t n => t - n, ⟨fun _ _ => rfl, fun _ => ⟨_, fun _ => rfl⟩⟩, rfl⟩
      · exact ⟨fun t n => t + n, ⟨fun _ _ => rfl, fun _ => ⟨_, fun _ => rfl⟩⟩, rfl⟩
      · exact ⟨flipBits, ⟨fun _ _ => rfl, fun _ => ⟨_, fun _ => rfl⟩⟩, rfl⟩
    obtain rfl := hc.word_eq h
    rw [hc.exec_eq, show pickForm (e.1 x.w) x.w src s = _ from issue_of_issues h _, hsrc]
    intro from_ ok
    obtain ⟨eff, hdone, hnone, hsome⟩ := compute_aux (prologue_facts h) 1
      (fun t => (x.src1 x.w.a (if ok t then (from_ t).toNat else t)).setWidth 128) ((jImm x.w || jP x.w == 63) = true) (jP x.w) ok
    exact ⟨eff, hdone, fun hp => hnone (by simpa using hp), fun hp => hsome (by simpa using hp)⟩

end

section
/-! Lemmas for the gang forms (R130, R131): which instructions wait for a rendezvous, what one member of it comes to, and that each member's
part changes its own spindle alone. -/

namespace Sys2Proof.Machine

open Sys2Proof

/-! ## A list's members, one by one -/

theorem length_dedup_le_one {α : Type} [DecidableEq α] {l : List α} : l.dedup.length ≤ 1 ↔ ∀ a ∈ l, ∀ b ∈ l, a = b := by
  rw [← List.card_toFinset, Finset.card_le_one]
  simp only [List.mem_toFinset]

/-- An element is the one found under its key, where keys do not repeat. -/
theorem find_of_nodup {α : Type} (key : α → Nat) {l : List α} (hl : (l.map key).Nodup) {a : α} (ha : a ∈ l) :
    l.find? (fun x => key x == key a) = some a := by
  cases hf : l.find? fun x => key x == key a with
  | none => exact absurd (List.find?_eq_none.1 hf a ha) (by simp)
  | some b =>
    have hkey : key b = key a := by simpa using List.find?_some hf
    exact congrArg some (List.inj_on_of_nodup_map hl (List.mem_of_find?_eq_some hf) ha hkey)

/-! ## Who waits for a rendezvous -/

/-- The sequence number with which an instruction waits for a rendezvous. -/
def Pend.waitsAs (x : Pend) : Option Nat := match x.kind with
  | .gang j _ _ => if x.complete then none else some j
  | _ => none

theorem isSome_gangPend (p : Spindle) (k : Nat) : (gangPend p k).isSome = true ↔ ∃ x ∈ p.pend, x.waitsAs = some k := by
  unfold gangPend
  rw [List.findSome?_isSome_iff]
  refine exists_congr fun x => and_congr_right fun _ => ?_
  unfold Pend.waitsAs
  cases x.kind with
  | gang j m c => cases x.complete <;> simp
  | _ => simp

/-- The instruction that a spindle has waiting at a sequence number is one of its own. -/
theorem mem_of_gangPend {p : Spindle} {k : Nat} {y : Pend} {m : BitVec 8} {c : List (Nat × Word × Word)} (h : gangPend p k = some (y, m, c)) :
    y ∈ p.pend := by
  unfold gangPend at h
  obtain ⟨x, hx, hy⟩ := List.exists_of_findSome?_eq_some h
  split at hy
  · split at hy
    · cases hy
      exact hx
    · cases hy
  · cases hy

/-- A member of a gang that has issued its form: its index, its spindle, the waiting instruction, the minor opcode and the contributions. -/
abbrev GangMember := Nat × Spindle × Pend × BitVec 8 × List (Nat × Word × Word)

/-- The members of a gang that have issued their k-th form, each with it. -/
def gangHere (ms : List (Nat × Spindle)) (k : Nat) : List GangMember :=
  ms.filterMap fun e => (gangPend e.2 k).map fun x => (e.1, e.2, x)

theorem mem_gangHere {ms : List (Nat × Spindle)} {k : Nat} {a : GangMember} :
    a ∈ gangHere ms k ↔ (a.1, a.2.1) ∈ ms ∧ gangPend a.2.1 k = some a.2.2 := by
  obtain ⟨i, p, x⟩ := a
  unfold gangHere
  rw [List.mem_filterMap]
  constructor
  · rintro ⟨e, he, hx⟩
    obtain ⟨y, hy, heq⟩ := Option.map_eq_some_iff.1 hx
    cases heq
    exact ⟨he, hy⟩
  · rintro ⟨he, hx⟩
    exact ⟨(i, p), he, by simp [show gangPend p k = some x from hx]⟩

/-- The members' forms agree, minor opcode by minor opcode, or they do not (R131). -/
theorem gangHere_agree {ms : List (Nat × Spindle)} {k : Nat} : ((gangHere ms k).map fun e => e.2.2.2.1).dedup.length ≤ 1 ↔
    ∀ e ∈ ms, ∀ e' ∈ ms, ∀ x x', gangPend e.2 k = some x → gangPend e'.2 k = some x' → x.2.1 = x'.2.1 := by
  rw [length_dedup_le_one]
  constructor
  · intro h e he e' he' x x' hx hx'
    exact h _ (List.mem_map.2 ⟨(e.1, e.2, x), mem_gangHere.2 ⟨he, hx⟩, rfl⟩) _ (List.mem_map.2 ⟨(e'.1, e'.2, x'), mem_gangHere.2 ⟨he', hx'⟩, rfl⟩)
  · intro h m hm m' hm'
    obtain ⟨a, ha, rfl⟩ := List.mem_map.1 hm
    obtain ⟨b, hb, rfl⟩ := List.mem_map.1 hm'
    obtain ⟨he, hx⟩ := mem_gangHere.1 ha
    obtain ⟨he', hx'⟩ := mem_gangHere.1 hb
    exact h _ he _ he' _ _ hx hx'

theorem gangParts_eq (ms : List (Nat × Spindle)) (k : Nat) :
    gangParts ms k = (gangHere ms k).flatMap fun e => e.2.2.2.2.map fun c => (8 * e.1 + c.1, c.2) := by
  unfold gangParts gangHere
  induction ms with
  | nil => rfl
  | cons e ms ih =>
    rw [List.flatMap_cons, ih]
    cases hx : gangPend e.2 k with
    | none => simp [hx]
    | some x => simp [hx]

/-- Members are spindles of the team, so that no two are one. -/
theorem gangMembers_spindle {g : Grid} {t : Team} {role gang : Nat} {e : Nat × Spindle} (he : e ∈ gangMembers g t role gang) : e.2 ∈ t.spindles := by
  unfold gangMembers at he
  obtain ⟨p, hp, rfl⟩ := List.mem_map.1 he
  exact (List.mem_filter.1 hp).1

theorem gangHere_nodup {g : Grid} {t : Team} {role gang : Nat} (hn : (t.spindles.map (·.spx)).Nodup) (k : Nat) :
    ((gangHere (gangMembers g t role gang) k).map (·.2.1.spx)).Nodup := by
  have hspindles : t.spindles.Pairwise fun a b => a.spx ≠ b.spx := List.pairwise_map.1 hn
  have hmembers : (gangMembers g t role gang).Pairwise fun a b => a.2.spx ≠ b.2.spx := List.pairwise_map.2 (hspindles.filter _)
  refine List.pairwise_map.2 (List.pairwise_filterMap.2 (hmembers.imp fun hne x hx y hy => ?_))
  obtain ⟨_, _, rfl⟩ := Option.map_eq_some_iff.1 hx
  obtain ⟨_, _, rfl⟩ := Option.map_eq_some_iff.1 hy
  exact hne

/-- A member writes its results (R130). -/
def meetOne (team : Nat) (all : List (Nat × Word × Word)) (size : Nat) (s : State) (e : GangMember) : State :=
  updSp s { team := team, spx := e.2.1.spx } (gangWrite all size e.1 e.2.2.1 e.2.2.2.1)

/-- The record of a member's trap at a rendezvous of forms that differ (R131). -/
def clashRec (t : Team) (s : State) (e : GangMember) : TrapRec :=
  mkRec s t e.2.1.spx (((e.2.1.frag? e.2.2.1.frag).map (·.mask)).getD 0) e.2.2.1.pc e.2.2.1.word
    { cause := 0x0E, reason := 1, tmask := e.2.2.1.tmask, w := e.2.2.1.w }

/-- A member traps (R131). -/
def clashOne (team : Nat) (t : Team) (s : State) (e : GangMember) : State :=
  raiseGangTrap (updSp s { team := team, spx := e.2.1.spx } fun p => cancelPend p e.2.2.1.id) { team := team, spx := e.2.1.spx } e.2.2.1.frag (clashRec t s e)

theorem leastBy'_eq {l : List Nat} {k : Nat} (hk : k ∈ l) (hle : ∀ j ∈ l, k ≤ j) : execRendezvous.leastBy' l = some k := by
  have hmin : l.min? = some k := List.min?_eq_some_iff.2 ⟨hk, hle⟩
  cases l with
  | nil => cases hk
  | cons x r => rwa [List.min?_cons'] at hmin

section
variable {s : State} {team role gang k : Nat} {t : Team} {g : Grid}

/-- The rendezvous of the lowest number for which members wait takes place once each has issued its form or retired (R131). -/
theorem exec_rendezvous (ht : findTeam s team = some t) (hg : findGrid s t.grid = some g) (hres : t.st = .resident)
    (hsome : ∃ e ∈ gangMembers g t role gang, (gangPend e.2 k).isSome)
    (hlow : ∀ j < k, ∀ e ∈ gangMembers g t role gang, gangPend e.2 j = none)
    (hall : ∀ e ∈ gangMembers g t role gang, (gangPend e.2 k).isSome = true ∨ e.2.retired = true) :
    exec (.rendezvous team role gang) s =
      if ((gangHere (gangMembers g t role gang) k).map fun e => e.2.2.2.1).dedup.length ≤ 1 then
        .next ((gangHere (gangMembers g t role gang) k).foldl (meetOne team (gangParts (gangMembers g t role gang) k) (gangSize g role)) s)
      else .next ((gangHere (gangMembers g t role gang) k).foldl (clashOne team t) s) := by
  set ms := gangMembers g t role gang
  have hks : execRendezvous.leastBy' (ms.flatMap fun e => e.2.pend.filterMap Pend.waitsAs) = some k := by
    refine leastBy'_eq ?_ fun j hj => ?_
    · obtain ⟨e, he, hx⟩ := hsome
      obtain ⟨x, hx, hk⟩ := (isSome_gangPend e.2 k).1 hx
      exact List.mem_flatMap.2 ⟨e, he, List.mem_filterMap.2 ⟨x, hx, hk⟩⟩
    · obtain ⟨e, he, hx⟩ := List.mem_flatMap.1 hj
      obtain ⟨x, hx, hj⟩ := List.mem_filterMap.1 hx
      by_contra hlt
      have hpend := (isSome_gangPend e.2 j).2 ⟨x, hx, hj⟩
      rw [hlow j (not_le.1 hlt) e he] at hpend
      cases hpend
  have hmeet : (ms.all fun e => (gangPend e.2 k).isSome || e.2.retired) = true :=
    List.all_eq_true.2 fun e he => Bool.or_eq_true_iff.2 (hall e he)
  show execRendezvous team role gang s = _
  unfold execRendezvous
  rw [gangParts_eq]
  simp only [ht, hg, hres, ne_eq, not_true_eq_false, if_false]
  split
  · next hnone => cases hks.symm.trans hnone
  · next j hj =>
    obtain rfl : k = j := Option.some.inj (hks.symm.trans hj)
    exact if_pos hmeet

end

end Sys2Proof.Machine
end

section
/-! Lemmas for a rendezvous, member by member (R130, R131): a member's part changes its own spindle alone, what its results are where the
forms agree, and its trap where they differ. -/

namespace Sys2Proof.Machine

open Sys2Proof

/-! ## One member after another -/

/-- Of a team only its spindles may have changed. -/
def SameTeam (s u : State) (m : Nat) : Prop := ∀ a, findTeam s m = some a → ∃ b, findTeam u m = some b ∧ { b with spindles := a.spindles } = a

/-- Memory, the other spindles and the team's own data stay. -/
structure TouchesOne (s u : State) (r : SpRef) : Prop where
  mem : u.mem = s.mem
  others : ∀ q, q ≠ r → findSp u q = findSp s q
  team : SameTeam s u r.team

theorem sameTeam_refl (s : State) (m : Nat) : SameTeam s s m := fun a ha => ⟨a, ha, rfl⟩

theorem SameTeam.trans {s u v : State} {m : Nat} (h : SameTeam s u m) (g : SameTeam u v m) : SameTeam s v m := by
  intro a ha
  obtain ⟨b, hb, hab⟩ := h a ha
  obtain ⟨c, hc, hbc⟩ := g b hb
  refine ⟨c, hc, ?_⟩
  rw [← hab, ← hbc]

theorem touchesOne_refl (s : State) (r : SpRef) : TouchesOne s s r := ⟨rfl, fun _ _ => rfl, sameTeam_refl s r.team⟩

theorem TouchesOne.updSp {s u : State} {r : SpRef} (h : TouchesOne s u r) {f : Spindle → Spindle} (hf : ∀ p, (f p).spx = p.spx) :
    TouchesOne s (updSp u r f) r where
  mem := h.mem
  others q hq := by rw [findSp_updSp _ _ _ _ hf, if_neg hq, h.others q hq]
  team := h.team.trans fun _ ha => ⟨_, findTeam_updSp_self f ha, rfl⟩

/-- What touches neither teams nor memory touches no more. -/
theorem TouchesOne.of_teams {s u v : State} {r : SpRef} (h : TouchesOne s u r) (hteams : v.teams = u.teams) (hmem : v.mem = u.mem) :
    TouchesOne s v r where
  mem := hmem.trans h.mem
  others q hq := (findSp_congr hteams q).trans (h.others q hq)
  team := h.team.trans fun a ha => ⟨a, (findTeam_congr hteams r.team).trans ha, rfl⟩

theorem TouchesOne.updDie {s u : State} {r : SpRef} (h : TouchesOne s u r) (d : Nat) (f : Die → Die) : TouchesOne s (updDie u d f) r :=
  h.of_teams (v := Machine.updDie u d f) rfl rfl

/-- Members' parts in turn, each on its own spindle: what one's spindle comes to is its own part's doing. -/
theorem foldl_touches {α : Type} {team : Nat} {key : α → Nat} {step : State → α → State}
    (hstep : ∀ s a, TouchesOne s (step s a) { team := team, spx := key a }) (l : List α) (hl : (l.map key).Nodup) (s : State) :
    (l.foldl step s).mem = s.mem ∧ (∀ n, n ∉ l.map key → findSp (l.foldl step s) { team := team, spx := n } = findSp s { team := team, spx := n }) ∧
      ∀ a ∈ l, ∃ u, SameTeam s u team ∧ findSp u { team := team, spx := key a } = findSp s { team := team, spx := key a } ∧
        findSp (l.foldl step s) { team := team, spx := key a } = findSp (step u a) { team := team, spx := key a } := by
  have hne {n m : Nat} (h : n ≠ m) : ({ team := team, spx := n } : SpRef) ≠ { team := team, spx := m } := fun heq => h (congrArg SpRef.spx heq)
  induction l generalizing s with
  | nil => exact ⟨rfl, fun _ _ => rfl, fun a ha => nomatch ha⟩
  | cons b l ih =>
    obtain ⟨hb, hl⟩ := List.nodup_cons.1 hl
    obtain ⟨hmem, hothers, hone⟩ := ih hl (step s b)
    refine ⟨hmem.trans (hstep s b).mem, fun n hn => ?_, fun a ha => ?_⟩
    · obtain ⟨hnb, hnl⟩ := not_or.1 (List.mem_cons.not.1 hn)
      exact (hothers n hnl).trans ((hstep s b).others _ (hne hnb))
    · rcases List.mem_cons.1 ha with rfl | ha
      · exact ⟨s, sameTeam_refl s team, rfl, hothers (key a) hb⟩
      · obtain ⟨u, hteam, hsp, hfold⟩ := hone a ha
        have hab : key a ≠ key b := fun h => hb (h ▸ List.mem_map_of_mem ha)
        exact ⟨u, (hstep s b).team.trans hteam, hsp.trans ((hstep s b).others _ (hne hab)), hfold⟩

/-! ## What settles and what is cancelled -/

theorem foldl_lowerCtr (l : List Nat) (p : Spindle) : ∃ c, l.foldl lowerCtr p = { p with ctr := c } := by
  induction l generalizing p with
  | nil => exact ⟨p.ctr, rfl⟩
  | cons n l ih =>
    obtain ⟨c, hc⟩ := ih (lowerCtr p n)
    exact ⟨c, hc⟩

theorem settlePend_sub (b : List Nat) (l : List Pend) : ∀ z ∈ (settlePend b l).1, ∃ y ∈ l, z.id = y.id ∧ z.complete = y.complete := by
  induction l generalizing b with
  | nil => exact fun z hz => nomatch hz
  | cons x l ih =>
    intro z hz
    have hrest : ∀ b, z ∈ (settlePend b l).1 → ∃ y ∈ x :: l, z.id = y.id ∧ z.complete = y.complete := fun b hz => by
      obtain ⟨y, hy, h⟩ := ih b z hz
      exact ⟨y, List.mem_cons_of_mem _ hy, h⟩
    unfold settlePend at hz
    dsimp only at hz
    split at hz
    · exact hrest _ hz
    · rcases List.mem_cons.1 hz with rfl | hz
      · exact ⟨x, List.mem_cons_self, rfl, rfl⟩
      · exact hrest _ hz

/-- Settling keeps a spindle but for its counters and what is pending, of which some may go. -/
theorem settle_spec (p : Spindle) : ∃ l c, settle p = { p with pend := l, ctr := c } ∧ ∀ z ∈ l, ∃ y ∈ p.pend, z.id = y.id ∧ z.complete = y.complete := by
  obtain ⟨c, hc⟩ := foldl_lowerCtr (settlePend [] p.pend).2 { p with pend := (settlePend [] p.pend).1 }
  exact ⟨_, c, hc, settlePend_sub [] p.pend⟩

/-- A finished instruction is complete, where it has not gone. -/
theorem finishPend_spec (p : Spindle) (id : Nat) :
    ∃ l c, finishPend p id = { p with pend := l, ctr := c } ∧ ∀ z ∈ l, z.id = id → z.complete = true := by
  obtain ⟨l, c, hset, hl⟩ := settle_spec { p with pend := updWhere (fun x => x.id == id) (fun x =>
    { x with complete := true, accs := [], paths := x.paths.map fun e => (e.1, true) }) p.pend }
  refine ⟨l, c, hset, fun z hz hid => ?_⟩
  obtain ⟨y, hy, hyid, hcomplete⟩ := hl z hz
  obtain ⟨x, -, rfl⟩ := List.mem_map.1 hy
  rw [hcomplete]
  split
  · rfl
  · next hx =>
    rw [if_neg hx] at hyid
    exact absurd (beq_iff_eq.2 (hyid.symm.trans hid)) hx

/-- A cancelled instruction has gone. -/
theorem cancelPend_spec {p : Spindle} {y : Pend} (hy : y ∈ p.pend) :
    ∃ l c, cancelPend p y.id = { p with pend := l, ctr := c } ∧ ∀ z ∈ l, z.id ≠ y.id := by
  unfold cancelPend
  cases hf : p.pend.find? fun x => x.id == y.id with
  | none => exact absurd (List.find?_eq_none.1 hf y hy) (by simp)
  | some x =>
    have hlower : ∃ c, x.paths.foldl (fun q e => lowerCtr q e.1) { p with pend := p.pend.filter fun z => z.id != y.id } =
        { p with pend := p.pend.filter fun z => z.id != y.id, ctr := c } := by
      have hmap := List.foldl_map (f := fun e : Nat × Bool => e.1) (g := lowerCtr) (l := x.paths) (init := { p with pend := p.pend.filter fun z => z.id != y.id })
      rw [← hmap]
      exact foldl_lowerCtr _ _
    obtain ⟨c, hc⟩ := hlower
    obtain ⟨l, c', hset, hl⟩ := settle_spec { p with pend := p.pend.filter fun z => z.id != y.id, ctr := c }
    refine ⟨l, c', (congrArg settle hc).trans hset, fun z hz => ?_⟩
    obtain ⟨w, hw, hid, -⟩ := hl z hz
    rw [hid]
    simpa using (List.mem_filter.1 hw).2

theorem cancelPend_spx (p : Spindle) (id : Nat) : (cancelPend p id).spx = p.spx := by
  cases hf : p.pend.find? fun x => x.id == id with
  | none =>
    unfold cancelPend
    rw [hf]
  | some y =>
    have hid : y.id = id := by simpa using List.find?_some hf
    obtain ⟨l, c, h, -⟩ := cancelPend_spec (List.mem_of_find?_eq_some hf)
    rw [← hid, h]

/-! ## Where the forms agree -/

/-- A view of a spindle's threads after a step for each of a list, each of which changes its own thread's. -/
theorem foldl_view {β : Type} {view : Spindle → Nat → β} {step : Spindle → Nat → Spindle} {val : Nat → β}
    (h : ∀ p t u, t < 8 → u < 8 → view (step p t) u = if u = t then val t else view p u) {l : List Nat} (hl : ∀ t ∈ l, t < 8) (p : Spindle) {u : Nat}
    (hu : u ∈ l) : view (l.foldl step p) u = val u := by
  have hall : ∀ l : List Nat, (∀ t ∈ l, t < 8) → ∀ p, view (l.foldl step p) u = if u ∈ l then val u else view p u := by
    intro l
    induction l with
    | nil => simp
    | cons t l ih =>
      intro hlt p
      rw [List.foldl_cons, ih (fun v hv => hlt v (List.mem_cons_of_mem _ hv)), h p t u (hlt t List.mem_cons_self) (hl u hu)]
      by_cases hul : u ∈ l
      · simp [hul]
      · by_cases hut : u = t
        · simp [hut]
        · simp [hul, hut]
  exact (hall l hl p).trans (if_pos hu)

section
variable (all : List (Nat × Word × Word)) (size m : Nat)

/-- What a thread writes of its member's results (R130). -/
def gangThread (w : JWord) (mn : Nat) (p : Spindle) (t : Nat) : Spindle :=
  let r := gangValue (mn % 128) all size m t
  if mn = 1 ∨ mn = 2 then pset p (bitsOf w.d 0 6) t r.2
  else
    let q := writeDst p w.d 1 t (r.1.setWidth 128)
    if mn < 16 ∨ jImm w ∨ jP w = 63 then q else pset q (jP w) t r.2

theorem vget_writeDst_one {d : BitVec 10} {n : Nat} (hd : opnd d = .v n) (p : Spindle) (v : Word) {t u : Nat} (ht : t < 8) (hu : u < 8) :
    vget (writeDst p d 1 t (v.setWidth 128)) n u = if u = t then v else vget p n u := by
  unfold writeDst
  rw [hd]
  refine (vget_vsetN n t n u 1 _ p ht hu).trans ?_
  by_cases hut : u = t
  · rw [if_pos ⟨hut, le_rfl, Nat.lt_succ_self n⟩, if_pos hut, Nat.sub_self]
    refine BitVec.eq_of_getLsbD_eq fun i hi => ?_
    simp [hi, show i < 128 by omega]
  · rw [if_neg fun h => hut h.1, if_neg hut]

variable {all size m}

theorem vget_gangThread {w : JWord} {mn n : Nat} (h1 : mn ≠ 1) (h2 : mn ≠ 2) (hd : opnd w.d = .v n) (p : Spindle) (t u : Nat) (ht : t < 8) (hu : u < 8) :
    vget (gangThread all size m w mn p t) n u = if u = t then (gangValue (mn % 128) all size m t).1 else vget p n u := by
  unfold gangThread
  rw [if_neg (not_or.2 ⟨h1, h2⟩), ← vget_writeDst_one hd p _ ht hu]
  dsimp only
  split
  · rfl
  · rfl

theorem pget_gangThread {w : JWord} {mn : Nat} (h : mn = 1 ∨ mn = 2) (hd : bitsOf w.d 0 6 < 48) (p : Spindle) (t u : Nat) :
    pget (gangThread all size m w mn p t) (bitsOf w.d 0 6) u =
      if u = t then (gangValue (mn % 128) all size m t).2 else pget p (bitsOf w.d 0 6) u := by
  unfold gangThread
  rw [if_pos h, pget_pset _ _ _ _ _ _ hd]
  simp only [and_true]

theorem pget_gangThread_aux {w : JWord} {mn : Nat} (h : 16 ≤ mn) (himm : jImm w = false) (hp : jP w < 48) (p : Spindle) (t u : Nat) :
    pget (gangThread all size m w mn p t) (jP w) u = if u = t then (gangValue (mn % 128) all size m t).2 else pget p (jP w) u := by
  have hkeeps : (writeDst p w.d 1 t ((gangValue (mn % 128) all size m t).1.setWidth 128)).p = p.p := (congrArg Spindle.p (restOf_writeDst ..) :)
  unfold gangThread
  rw [if_neg (by omega)]
  dsimp only
  rw [if_neg (by simp [himm]; omega), pget_pset _ _ _ _ _ _ hp]
  unfold pget
  rw [hkeeps]
  simp only [and_true]

/-- A member of a rendezvous of forms that agree: its form is complete, and its registers and predicates are as its threads wrote them. -/
theorem gangWrite_spec (all : List (Nat × Word × Word)) (size m : Nat) (y : Pend) (mn : BitVec 8) (p : Spindle) :
    (∀ z ∈ (gangWrite all size m y mn p).pend, z.id = y.id → z.complete = true) ∧
      (gangWrite all size m y mn p).v = ((threadsOf y.tmask).foldl (gangThread all size m (jUnpack y.word) mn.toNat) p).v ∧
      (gangWrite all size m y mn p).p = ((threadsOf y.tmask).foldl (gangThread all size m (jUnpack y.word) mn.toNat) p).p := by
  obtain ⟨l, c, hfin, hl⟩ := finishPend_spec ((threadsOf y.tmask).foldl (gangThread all size m (jUnpack y.word) mn.toNat) p) y.id
  have heq : gangWrite all size m y mn p = _ := hfin
  rw [heq]
  exact ⟨hl, rfl, rfl⟩

theorem gangWrite_spx (all : List (Nat × Word × Word)) (size m : Nat) (y : Pend) (mn : BitVec 8) (p : Spindle) :
    (gangWrite all size m y mn p).spx = p.spx := by
  obtain ⟨l, c, hfin, -⟩ := finishPend_spec ((threadsOf y.tmask).foldl (gangThread all size m (jUnpack y.word) mn.toNat) p) y.id
  have hspx : ((threadsOf y.tmask).foldl (gangThread all size m (jUnpack y.word) mn.toNat) p).spx = p.spx := by
    refine foldl_keeps Spindle.spx _ (fun q t => ?_) _ p
    unfold gangThread
    dsimp only
    have hdst := fun v => (congrArg Spindle.spx (restOf_writeDst q (jUnpack y.word).d 1 t v) :)
    split_ifs
    · rfl
    · exact hdst _
    · exact hdst _
  exact (congrArg Spindle.spx hfin : _).trans hspx

end

/-! ## Where they differ -/

section
variable {s u : State} {r : SpRef}

theorem TouchesOne.logTrap (h : TouchesOne s u r) (x : TrapRec) : TouchesOne s (logTrap u x) r :=
  h.of_teams (congrArg State.teams (logTrap_only u x).2 :) (mem_logTrap x)

theorem TouchesOne.deliver (h : TouchesOne s u r) (frag : Nat) (x : TrapRec) : TouchesOne s (deliver u r frag x) r := by
  have hlog := h.logTrap x
  unfold Machine.deliver
  dsimp only
  split
  · split
    · exact hlog.updSp (enterHandler_spx _ frag x)
    · exact hlog.updSp (f := haltFor x) fun _ => rfl
    · exact (hlog.updSp (f := stopFw _) fun _ => rfl).updDie _ _
  · exact hlog

theorem TouchesOne.raiseTrap (h : TouchesOne s u r) (frag : Nat) (x : TrapRec) : TouchesOne s (raiseTrap u r frag x) r := by
  have hstop : TouchesOne s (Machine.updSp u r (stopFor frag)) r := h.updSp fun _ => rfl
  unfold Machine.raiseTrap
  split
  · exact h
  · dsimp only
    split
    · exact hstop.deliver frag x
    · exact hstop.updSp fun _ => rfl

/-- A spindle that cannot take a gang's trap now keeps it pending (R131). -/
def holdTrap (frag : Nat) (x : TrapRec) (p : Spindle) : Spindle :=
  { (if p.tlv && frag == p.hfrag then p else trapFrag frag p) with traps := p.traps ++ [(frag, x)] }

theorem holdTrap_spx (frag : Nat) (x : TrapRec) (p : Spindle) : (holdTrap frag x p).spx = p.spx := by
  unfold holdTrap
  split <;> rfl

theorem raiseGangTrap_held {s : State} {r : SpRef} {p : Spindle} {frag : Nat} {x : TrapRec} (hp : findSp s r = some p)
    (h : (p.halted || p.tlv || p.st != .running) = true) : raiseGangTrap s r frag x = updSp s r (holdTrap frag x) := by
  unfold Machine.raiseGangTrap
  rw [hp]
  exact if_pos h

theorem raiseGangTrap_free {s : State} {r : SpRef} {p : Spindle} {frag : Nat} {x : TrapRec} (hp : findSp s r = some p)
    (h : ¬(p.halted || p.tlv || p.st != .running) = true) : raiseGangTrap s r frag x = raiseTrap s r frag x := by
  unfold Machine.raiseGangTrap
  rw [hp]
  exact if_neg h

theorem TouchesOne.raiseGangTrap (h : TouchesOne s u r) (frag : Nat) (x : TrapRec) : TouchesOne s (raiseGangTrap u r frag x) r := by
  cases hp : findSp u r with
  | none =>
    unfold Machine.raiseGangTrap
    rw [hp]
    exact h
  | some p =>
    by_cases hheld : (p.halted || p.tlv || p.st != .running) = true
    · rw [raiseGangTrap_held hp hheld]
      exact h.updSp (holdTrap_spx frag x)
    · rw [raiseGangTrap_free hp hheld]
      exact h.raiseTrap frag x

end

/-- A spindle after a trap that it has taken or holds: its registers, predicates and gang number are as before, and nothing new is pending. -/
structure Trapped (p q : Spindle) : Prop where
  vregs : q.v = p.v
  sregs : q.s = p.s
  preds : q.p = p.p
  number : q.gseq = p.gseq
  waits : ∀ z ∈ q.pend, ∃ y ∈ p.pend, z.id = y.id

theorem trapped_enterHandler (thnd : BitVec 64) (i : Nat) (x : TrapRec) (p : Spindle) : Trapped p (enterHandler thnd i x (stopFor i p)) := by
  cases hf : (stopFor i p).frag? i with
  | none =>
    have hkeeps : enterHandler thnd i x (stopFor i p) = stopFor i p := by
      unfold enterHandler
      rw [hf]
    rw [hkeeps]
    exact ⟨rfl, rfl, rfl, rfl, fun z hz => ⟨z, hz, rfl⟩⟩
  | some f =>
    rw [enterHandler_eq thnd x hf]
    refine ⟨rfl, rfl, rfl, rfl, fun z hz => ?_⟩
    obtain ⟨y, hy, rfl⟩ := List.mem_map.1 hz
    refine ⟨y, hy, ?_⟩
    split <;> rfl

theorem trapped_holdTrap (i : Nat) (x : TrapRec) (p : Spindle) : Trapped p (holdTrap i x p) := by
  unfold holdTrap
  split
  · exact ⟨rfl, rfl, rfl, rfl, fun z hz => ⟨z, hz, rfl⟩⟩
  · exact ⟨rfl, rfl, rfl, rfl, fun z hz => ⟨z, hz, rfl⟩⟩

theorem trapped_stopFw (i : Nat) (x : TrapRec) (p : Spindle) : Trapped p (stopFw x (stopFor i p)) := by
  unfold stopFw stopFor noLatch trapFrag Spindle.updFrag
  dsimp only
  exact ⟨rfl, rfl, rfl, rfl, fun z hz => ⟨z, hz, rfl⟩⟩

section
variable {s : State} {sp : SpRef} {t : Team} {p : Spindle} {frag : Nat} {r : TrapRec}

/-- A member's trap (R131, R386): held where the spindle is halted, stopped or in its handler, else taken. -/
theorem raiseGangTrap_spec (ht : findTeam s sp.team = some t) (hp : findSp s sp = some p) (hc : r.cause = 0x0E) :
    ∃ q, findSp (raiseGangTrap s sp frag r) sp = some q ∧ Trapped p q ∧
      (p.halted = true ∨ p.tlv = true ∨ p.st ≠ .running → (frag, r) ∈ q.traps) ∧
      (p.halted = false → p.tlv = false → p.st = .running → t.thnd ≠ 0 → (p.frag? frag).isSome = true → InHandler t.thnd p q frag r) := by
  by_cases hheld : (p.halted || p.tlv || p.st != .running) = true
  · rw [raiseGangTrap_held hp hheld]
    refine ⟨_, findSp_updSp_self (holdTrap_spx frag r) hp, trapped_holdTrap frag r p, fun _ => List.mem_append_right _ (List.mem_singleton.2 rfl),
      fun hh htl hst => absurd hheld (by simp [hh, htl, hst])⟩
  · rw [raiseGangTrap_free hp hheld]
    simp only [Bool.or_eq_true, not_or, Bool.not_eq_true, bne_eq_false_iff_eq] at hheld
    obtain ⟨⟨hh, htl⟩, hst⟩ := hheld
    have hd : canDeliver p frag = true := by simp [canDeliver, hst, htl]
    have hnot : ¬(p.halted = true ∨ p.tlv = true ∨ p.st ≠ .running) := by simp [hh, htl, hst]
    have hF : r.cause ≠ 0x0F := by rw [hc]; decide
    have hB : r.cause ≠ 0x0B := by rw [hc]; decide
    by_cases hthnd : t.thnd = 0
    · have hsp := (firmware_trap (f := { (default : Frag) with id := frag }) ht hp hd (.inr (.inr (.inl hthnd))) fun h => absurd h hB).2.1
      exact ⟨_, hsp, trapped_stopFw frag (fwRec p r) p, fun h => absurd h hnot, fun _ _ _ h => absurd hthnd h⟩
    · have hdest : trapDest (debugOn s t) t p r = .handler := by
        unfold trapDest
        rw [if_neg hF, if_neg fun h => hB h.1, if_neg fun h => hB h.1, if_neg fun h => h.elim hthnd (by simp [htl])]
      have heq : raiseTrap s sp frag r = updSp (updSp (logTrap s r) sp (stopFor frag)) sp (enterHandler t.thnd frag r) := by
        have hdelivered := raiseTrap_eq (f := { (default : Frag) with id := frag }) r ht hp hd
        rwa [hdest] at hdelivered
      rw [heq]
      refine ⟨_, findSp_stopped hp frag (enterHandler_spx t.thnd frag r), trapped_enterHandler t.thnd frag r p, fun h => absurd h hnot,
        fun _ _ _ _ hsome => ?_⟩
      obtain ⟨f, hf⟩ := Option.isSome_iff_exists.1 hsome
      obtain rfl := frag_id hf
      exact inHandler_enter (f := f) t.thnd r hf

end

end Sys2Proof.Machine
end

section
/-! Lemmas for what a gang form contributes and receives (R130, R131): its issue, the values of Table 4-8, and the record of its trap. -/

namespace Sys2Proof.Machine

open Sys2Proof

/-- A spindle whose gang form waits: the sequence number is used up. -/
def gangWaits (e : Pend) (p : Spindle) : Spindle := { p with gseq := p.gseq + 1, pend := p.pend ++ [e] }

theorem gangWaits_same {p q : Spindle} (h : sameArch p q) (e : Pend) : sameArch (gangWaits e p) { q with gseq := q.gseq + 1 } := by
  unfold sameArch gangWaits at *
  rw [← h]

/-- A gang form issues and waits with its threads' contributions (R131). -/
theorem gangForm_waits {i : Instr} {w : JWord} {s : State} {x : Iss} (h : Issues i {} s x) (hw : x.w = w) {part : Iss → Nat → Word × Word}
    (hpart : ∀ u, part { x with s := u } = part x) :
    StaysPending x x.nextPc (fun q => q = { x.p with gseq := x.p.gseq + 1 })
      (fun y => y.complete = false ∧ y.kind = .gang x.p.gseq w.min ((threadsOf x.tp).map fun t => (t, part x t)) ∧ y.tmask = x.tp)
      (gangForm i w part s) := by
  subst hw
  rw [show gangForm i x.w part s = _ from issue_of_issues h _]
  have hx := prologue_facts h
  let e : Pend := x.pend x.s.nextId (.gang x.p.gseq x.w.min ((threadsOf x.tp).map fun t => (t, part { x with s := (fresh x.s).2 } t))) false none none [] []
  have hgo := commit_after (facts_fresh hx) x.nextPc (gangWaits e) { x.p with gseq := x.p.gseq + 1 } [e] (fun _ => rfl) (begun_frags x x.p)
    (gangWaits_same (sameArch_start x) e) (congrArg (· ++ [e]) (begun_pend x x.p))
  refine ⟨_, _, e, rfl, rfl, ⟨rfl, ?_, rfl⟩, after_fresh hgo⟩
  rw [← hpart (fresh x.s).2]
  rfl

section
variable (all : List (Nat × Word × Word)) (size m t : Nat)

theorem gangValue_popc : gangValue 0x00 all size m t = (BitVec.ofNat 32 (all.filter fun c => c.2.1 == 1).length, false) := rfl

theorem gangValue_any : (gangValue 0x01 all size m t).2 = decide ((all.filter fun c => c.2.1 == 1) ≠ []) := by
  show (!(all.filter fun c => c.2.1 == 1).isEmpty) = _
  cases all.filter fun c => c.2.1 == 1 <;> simp

theorem gangValue_all : (gangValue 0x02 all size m t).2 = decide (∀ c ∈ all, c.2.1 = 1) := by
  show ((all.filter fun c => c.2.1 == 1).length == all.length) = _
  rw [beq_eq_decide, decide_eq_decide, List.length_filter_eq_length_iff]
  simp only [beq_iff_eq]

theorem gangValue_pfx : gangValue 0x03 all size m t =
    (BitVec.ofNat 32 ((all.filter fun c => c.2.1 == 1).filter fun c => c.1 < 8 * m + t).length, false) := rfl

theorem gangValue_mask {i : Nat} (hi : i < 32) :
    (gangValue 0x04 all size m t).1.getLsbD i = (decide (i < size) && (all.filter fun c => c.2.1 == 1).any fun c => c.1 / 8 == i) := by
  show (BitVec.ofNat 32 ((List.range size).map fun k => if (all.filter fun c => c.2.1 == 1).any (fun c => c.1 / 8 == k) then 2 ^ k else 0).sum).getLsbD i = _
  rw [BitVec.getLsbD_ofNat, testBit_bits_sum, decide_eq_true hi, Bool.true_and]

/-- Where a pick's count leads from a thread (Table 4-8). -/
def pickSources : List (Nat × (Nat → Nat → Int)) :=
  [(0x10, fun _ n => (n : Int)), (0x11, fun j n => (j : Int) - n), (0x12, fun j n => (j : Int) + n), (0x13, fun j n => ((j ^^^ n : Nat) : Int))]

/-- What a pick receives: the source's value where it takes part, else its own (R130). -/
theorem gangValue_pick {f : Nat × (Nat → Nat → Int)} (hf : f ∈ pickSources) {own : Nat × Word × Word}
    (hown : (all.find? fun c => c.1 == 8 * m + t) = some own) {src : Int} (hsrc : f.2 (8 * m + t) own.2.2.toNat = src) :
    gangValue f.1 all size m t =
      let at_ := if 0 ≤ src ∧ src ≤ 8 * (size : Int) - 1 then all.find? fun c => c.1 == src.toNat else none
      ((at_.map (·.2.1)).getD own.2.1, at_.isSome) := by
  have hpick : gangValue f.1 all size m t =
      match (if 0 ≤ src ∧ src < 8 * (size : Int) then all.find? fun c => c.1 == src.toNat else none) with
      | some c => (c.2.1, true)
      | none => (own.2.1, false) := by
    subst hsrc
    fin_cases hf
    all_goals
      unfold gangValue
      simp only [hown]
      rfl
  rw [hpick]
  simp only [Int.le_sub_one_iff]
  cases (if 0 ≤ src ∧ src < 8 * (size : Int) then all.find? fun c => c.1 == src.toNat else none) <;> rfl

theorem le_of_pickSources {f : Nat × (Nat → Nat → Int)} (hf : f ∈ pickSources) : 16 ≤ f.1 := by
  fin_cases hf
  all_goals decide

end

/-- The low bits of INFO0 are the window's count (R388). -/
theorem info0Of_low (s : State) (t : Team) (spx : Nat) (word : IWord) (w : Nat) : (info0Of s t spx word w).toNat % 16 = w % 16 := by
  unfold info0Of
  rw [BitVec.toNat_ofNat]
  split_ifs
  all_goals omega

section
variable {all : List (Nat × Word × Word)} {size m th : Nat} {y : Pend} {mn : BitVec 8} {p : Spindle} (hth : th ∈ threadsOf y.tmask)
include hth

/-- A thread's register after a rendezvous. -/
theorem gangWrite_reg (h1 : mn.toNat ≠ 1) (h2 : mn.toNat ≠ 2) {n : Nat} (hd : opnd (jUnpack y.word).d = .v n) :
    vget (gangWrite all size m y mn p) n th = (gangValue (mn.toNat % 128) all size m th).1 := by
  obtain ⟨-, hv, -⟩ := gangWrite_spec all size m y mn p
  unfold vget
  rw [hv]
  exact foldl_view (view := fun p t => vget p n t) (vget_gangThread h1 h2 hd) (fun _ => threadsOf_lt) p hth

/-- A thread's predicate after a vote's rendezvous. -/
theorem gangWrite_pred (h : mn.toNat = 1 ∨ mn.toNat = 2) (hd : bitsOf (jUnpack y.word).d 0 6 < 48) :
    pget (gangWrite all size m y mn p) (bitsOf (jUnpack y.word).d 0 6) th = (gangValue (mn.toNat % 128) all size m th).2 := by
  obtain ⟨-, -, hp⟩ := gangWrite_spec all size m y mn p
  unfold pget
  rw [hp]
  exact foldl_view (view := fun p t => pget p (bitsOf (jUnpack y.word).d 0 6) t) (fun p t u _ _ => pget_gangThread h hd p t u) (fun _ => threadsOf_lt) p hth

/-- A thread's auxiliary predicate after a pick's rendezvous. -/
theorem gangWrite_aux (h : 16 ≤ mn.toNat) (himm : jImm (jUnpack y.word) = false) (hP : jP (jUnpack y.word) < 48) :
    pget (gangWrite all size m y mn p) (jP (jUnpack y.word)) th = (gangValue (mn.toNat % 128) all size m th).2 := by
  obtain ⟨-, -, hp⟩ := gangWrite_spec all size m y mn p
  unfold pget
  rw [hp]
  exact foldl_view (view := fun p t => pget p (jP (jUnpack y.word)) t) (fun p t u _ _ => pget_gangThread_aux h himm hP p t u) (fun _ => threadsOf_lt) p hth

end

/-! ## The members of one rendezvous -/

theorem meetOne_touches (team : Nat) (all : List (Nat × Word × Word)) (size : Nat) (s : State) (e : GangMember) :
    TouchesOne s (meetOne team all size s e) { team := team, spx := e.2.1.spx } :=
  (touchesOne_refl s _).updSp (gangWrite_spx all size e.1 e.2.2.1 e.2.2.2.1)

theorem clashOne_touches (team : Nat) (t : Team) (s : State) (e : GangMember) :
    TouchesOne s (clashOne team t s e) { team := team, spx := e.2.1.spx } :=
  ((touchesOne_refl s _).updSp fun p => cancelPend_spx p _).raiseGangTrap _ _

section
variable {s : State} {team role gang : Nat} {t : Team} {g : Grid}

/-- A member is found as the spindle it is. -/
theorem findSp_member (ht : findTeam s team = some t) (hn : (t.spindles.map (·.spx)).Nodup) {e : Nat × Spindle} (he : e ∈ gangMembers g t role gang) :
    findSp s { team := team, spx := e.2.spx } = some e.2 := by
  unfold findSp
  rw [ht]
  exact find_of_nodup Spindle.spx hn (gangMembers_spindle he)

variable (ht : findTeam s team = some t) (hn : (t.spindles.map (·.spx)).Nodup) {k : Nat} {e : Nat × Spindle} (he : e ∈ gangMembers g t role gang)
  {y : Pend} {mn : BitVec 8} {c : List (Nat × Word × Word)} (hy : gangPend e.2 k = some (y, mn, c))
include ht hn he hy

/-- Where the forms agree, a member's spindle is as its own writes leave it. -/
theorem meet_member (all : List (Nat × Word × Word)) (size : Nat) :
    findSp ((gangHere (gangMembers g t role gang) k).foldl (meetOne team all size) s) { team := team, spx := e.2.spx } =
      some (gangWrite all size e.1 y mn e.2) := by
  obtain ⟨-, -, hone⟩ := foldl_touches (meetOne_touches team all size) _ (gangHere_nodup hn k) s
  obtain ⟨u, -, hsp, hfold⟩ := hone (e.1, e.2, y, mn, c) (mem_gangHere.2 ⟨he, hy⟩)
  exact hfold.trans (findSp_updSp_self (gangWrite_spx all size e.1 y mn) (hsp.trans (findSp_member ht hn he)))

/-- Where they differ, a member has its trap, and its form has gone (R131). -/
theorem clash_member :
    ∃ q r, findSp ((gangHere (gangMembers g t role gang) k).foldl (clashOne team t) s) { team := team, spx := e.2.spx } = some q ∧
      (∀ z ∈ q.pend, z.id ≠ y.id) ∧ q.v = e.2.v ∧ q.s = e.2.s ∧ q.p = e.2.p ∧ q.gseq = e.2.gseq ∧
      r.cause = 0x0E ∧ r.reason = 1 ∧ r.pc = y.pc ∧ r.word = y.word ∧ r.tmask = y.tmask ∧ r.info0.toNat % 16 = y.w % 16 ∧
      (e.2.halted = true ∨ e.2.tlv = true ∨ e.2.st ≠ .running → (y.frag, r) ∈ q.traps) ∧
      (e.2.halted = false → e.2.tlv = false → e.2.st = .running → t.thnd ≠ 0 → (e.2.frag? y.frag).isSome = true →
        InHandler t.thnd e.2 q y.frag r) := by
  obtain ⟨-, -, hone⟩ := foldl_touches (clashOne_touches team t) _ (gangHere_nodup hn k) s
  obtain ⟨u, hteam, hsp, hfold⟩ := hone (e.1, e.2, y, mn, c) (mem_gangHere.2 ⟨he, hy⟩)
  obtain ⟨b, hb, hbt⟩ := hteam t ht
  have hthnd : b.thnd = t.thnd := (congrArg Team.thnd hbt :)
  have hmember := findSp_updSp_self (f := fun p => cancelPend p y.id) (fun p => cancelPend_spx p y.id) (hsp.trans (findSp_member ht hn he))
  obtain ⟨q, hq, htrapped, hheld, hin⟩ := raiseGangTrap_spec (frag := y.frag) (r := clashRec t u (e.1, e.2, y, mn, c))
    (findTeam_updSp_self (r := { team := team, spx := e.2.spx }) (fun p => cancelPend p y.id) hb) hmember rfl
  obtain ⟨l, ctr, hcancel, hl⟩ := cancelPend_spec (mem_of_gangPend hy)
  rw [hcancel] at htrapped hheld hin
  refine ⟨q, _, hfold.trans hq, fun z hz => ?_, htrapped.vregs, htrapped.sregs, htrapped.preds, htrapped.number, rfl, rfl, rfl, rfl, rfl,
    info0Of_low .., hheld, fun hhalted htlv hst h0 hfrag => ?_⟩
  · obtain ⟨w, hw, hid⟩ := htrapped.waits z hz
    rw [hid]
    exact hl w hw
  · rw [← hthnd] at h0 ⊢
    exact hin hhalted htlv hst h0 hfrag

end

end Sys2Proof.Machine

open Sys2Proof Sys2Proof.Machine

/-- Settles O18: an issue leaves its form waiting; a rendezvous is each member's part in turn, on its own spindle. -/
theorem gangForms : Obligations.GangForms := by
  unfold Obligations.GangForms
  refine ⟨?_, ?_⟩
  · intro ballot pick e he w s x h
    obtain ⟨hc, hpart⟩ : Form e.1 (fun w s => gangForm (e.1 w) w e.2 s) ∧ ∀ u, e.2 { x with s := u } = e.2 x := by
      fin_cases he
      all_goals exact ⟨⟨fun _ _ => rfl, fun _ => ⟨_, fun _ => rfl⟩⟩, fun _ => rfl⟩
    rw [hc.exec_eq]
    exact gangForm_waits h (hc.word_eq h) hpart
  · intro s team role gang t g k ht hg hres hn hsome hlow hall all ones size
    have hexec := exec_rendezvous ht hg hres hsome hlow hall
    refine ⟨fun mn hmins => ?_, fun hdiffer => ?_⟩
    · rw [if_pos (gangHere_agree.2 fun e he e' he' x x' hx hx' => (hmins e he _ _ _ hx).trans (hmins e' he' _ _ _ hx').symm)] at hexec
      refine ⟨_, hexec, (foldl_touches (meetOne_touches team all size) _ (gangHere_nodup hn k) s).1,
        fun e he y c hy => ⟨_, meet_member ht hn he hy all size, (gangWrite_spec all size e.1 y mn e.2).1, fun th hth => ?_⟩⟩
      intro j w dst prd
      refine ⟨?_, ?_, ?_, ?_, ?_, fun f hf hmn own hown => ?_⟩
      · rintro rfl n hd
        exact (gangWrite_reg hth (by decide) (by decide) hd).trans (congrArg Prod.fst (gangValue_popc ..))
      · rintro rfl hd
        exact (gangWrite_pred hth (.inl rfl) hd).trans (gangValue_any ..)
      · rintro rfl hd
        exact (gangWrite_pred hth (.inr rfl) hd).trans (gangValue_all ..)
      · rintro rfl n hd
        exact (gangWrite_reg hth (by decide) (by decide) hd).trans (congrArg Prod.fst (gangValue_pfx ..))
      · rintro rfl - n hd i hi
        rw [gangWrite_reg hth (by decide) (by decide) hd]
        exact gangValue_mask _ _ _ _ hi
      · intro src at_
        have hge : 16 ≤ mn.toNat := (le_of_pickSources hf).trans (hmn ▸ Nat.mod_le ..)
        have hvalue : gangValue (mn.toNat % 128) all size e.1 th = ((at_.map (·.2.1)).getD own.2.1, at_.isSome) := by
          rw [hmn]
          exact gangValue_pick all size e.1 th hf hown rfl
        refine ⟨fun n hd => (gangWrite_reg hth (by omega) (by omega) hd).trans ?_, fun himm hP => (gangWrite_aux hth hge himm hP).trans ?_⟩
        · rw [hvalue]
          clear_value at_
          cases at_ <;> rfl
        · rw [hvalue]
    · obtain ⟨e, he, e', he', y, m, c, y', m', c', hy, hy', hne⟩ := hdiffer
      rw [if_neg fun hle => hne (gangHere_agree.1 hle e he e' he' _ _ hy hy')] at hexec
      exact ⟨_, hexec, (foldl_touches (clashOne_touches team t) _ (gangHere_nodup hn k) s).1, fun e he y m c hy => clash_member ht hn he hy⟩

end

section
/-! Lemmas for the float forms (R140, R142, R147, R168, R171 to R175): what an issue comes to whose threads raise conditions, where none of
them is enabled and where one is. -/

namespace Sys2Proof.Machine

open Sys2Proof

/-! ## Conditions of an issue -/

/-- The threads that raise a condition which MODE enables (R147). -/
def raising (x : Iss) (f : Nat → Nat × Flg) : List Nat := x.threads.filter fun t => (f t).2 &&& modeEn x.p.mode != 0

theorem raising_eq_nil {x : Iss} {f : Nat → Nat × Flg} : raising x f = [] ↔ Quiet x f := by
  unfold raising Quiet
  simp only [List.filter_eq_nil_iff, bne_iff_ne, ne_eq, not_not]

/-- The OR of the threads' conditions, as an issue takes it from its list of them. -/
theorem allFlags_eq (ths : List Nat) (f : Nat → Nat × Flg) : (ths.map fun t => (t, (f t).2)).foldl (fun a e => a ||| e.2) 0 = allFlags ths f :=
  List.foldl_map

theorem filter_raising (x : Iss) (f : Nat → Nat × Flg) :
    (x.threads.map fun t => (t, (f t).2)).filter (fun e => e.2 &&& modeEn x.p.mode != 0) = (raising x f).map fun t => (t, (f t).2) :=
  List.filter_map

/-- No condition is enabled: the generators advance, and the form ends as it does (R147). -/
theorem float_quiet {x : Iss} {f : Nat → Nat × Flg} (hq : Quiet x f) (gen : SMap 32) (all : Bool) (ok : (Spindle → Spindle) → Flg → Out) :
    x.float (x.threads.map fun t => (t, (f t).2)) gen all ok = ok (fun p => { p with gen := gen }) (allFlags x.threads f) := by
  unfold Iss.float
  simp only [filter_raising, raising_eq_nil.2 hq, allFlags_eq]
  rfl

/-- An enabled condition of a form that is not uniform: the raising threads trap, a long-latency form's at its completion (R147, R168). -/
theorem float_of_enabled {x : Iss} {f : Nat → Nat × Flg} (henabled : ∃ t ∈ x.threads, (f t).2 &&& modeEn x.p.mode ≠ 0)
    (hu : x.w.uni = false) (gen : SMap 32) (ok : (Spindle → Spindle) → Flg → Out) :
    x.float (x.threads.map fun t => (t, (f t).2)) gen false ok =
      if x.sp.long then
        ({ x with s := (fresh x.s).2 } : Iss).next
          (addPend (x.pend x.s.nextId (.fpTrap (maskOf (raising x f)) (allFlags x.threads f) x.pops) false none none [] []))
      else x.trap { cause := 0x0A, fpc := (allFlags x.threads f).toNat, tmask := maskOf (raising x f) } := by
  have hsome : ((raising x f).map fun t => (t, (f t).2)).isEmpty = false := by
    rw [List.isEmpty_map, List.isEmpty_eq_false_iff]
    obtain ⟨t, ht, hraises⟩ := henabled
    exact fun hnil => hraises (raising_eq_nil.1 hnil t ht)
  unfold Iss.float
  simp only [filter_raising, hsome, hu, allFlags_eq, List.map_map, Function.comp_def, List.map_id', Bool.false_eq_true, if_false]
  rfl

theorem mild_gen (g : SMap 32 → SMap 32) : Mild fun p => { p with gen := g p.gen } where
  spx _ := rfl
  frags _ := rfl
  pend _ := rfl
  same p q h := by
    unfold sameArch at h ⊢
    rw [← h]

/-- Conditions enter MODE.FLG, and then a predicate is written for each thread of a list (R147, R174). -/
theorem psetAll_raiseFlags (n : Nat) (ths : List Nat) (f : Nat → Bool) (fl : Flg) (p : Spindle) :
    (psetAll n ths f (raiseFlags fl p)).mode = modeRaise p.mode fl ∧
      OnlyPred p { psetAll n ths f (raiseFlags fl p) with mode := p.mode } n ths f := by
  have hrest : ({ psetAll n ths f (raiseFlags fl p) with p := p.p } : Spindle) = raiseFlags fl p := psetAll_rest ..
  have hmode : ({ psetAll n ths f (raiseFlags fl p) with mode := p.mode, p := p.p } : Spindle) = p :=
    congrArg (fun z : Spindle => ({ z with mode := p.mode } : Spindle)) hrest
  refine ⟨(congrArg Spindle.mode hrest :), predWritten_psetAll n ths f (raiseFlags fl p), ?_⟩
  rw [hmode]
  rfl

theorem floatAll_eq (x : Iss) (n : Nat) (f : (Nat → Word) → Nat → Nat × Flg) :
    x.floatAll n f = x.float (x.threads.map fun t => (t, (f x.random.1 t).2)) x.random.2 false
      fun eff fpc => x.compute n (x.threads.map fun t => (t, BitVec.ofNat 128 (f x.random.1 t).1)) eff fpc := by
  unfold Iss.floatAll
  simp only [List.map_map, Function.comp_def]

section
variable {i : Instr} {k : IssCls} {s : State} {x : Iss} {n : Nat}

/-- A form whose result for each thread comes with conditions, none of them enabled, comes to its end. -/
theorem exec_floatAll_done (h : Issues i k s x) {f : Iss → (Nat → Word) → Nat → Nat × Flg}
    (hexec : exec i s = issue i k s fun x => x.floatAll n (f x)) (hq : Quiet x (f x x.random.1)) :
    FloatDone x n (f x x.random.1) x.random.2 (exec i s) := by
  rw [hexec, issue_of_issues h, floatAll_eq, float_quiet hq]
  exact compute_done (prologue_facts h) n _ _ _ (mild_gen fun _ => x.random.2)

/-- A long-latency form with an enabled condition stays pending with its trap, its spindle as it was (R147, R168). -/
theorem floatAll_waits (h : Issues i k s x) (hl : x.sp.long = true) (hu : x.w.uni = false) {f : (Nat → Word) → Nat → Nat × Flg}
    (henabled : ∃ t ∈ x.threads, (f x.random.1 t).2 &&& modeEn x.p.mode ≠ 0) :
    StaysPending x x.nextPc (fun q => q = x.p) (fun e => e.complete = false ∧
      e.kind = .fpTrap (maskOf (raising x (f x.random.1))) (allFlags x.threads (f x.random.1)) x.pops) (x.floatAll n f) := by
  let e : Pend := x.pend x.s.nextId (.fpTrap (maskOf (raising x (f x.random.1))) (allFlags x.threads (f x.random.1)) x.pops) false none none [] []
  have hgo := commit_after (facts_fresh (prologue_facts h)) x.nextPc (addPend e) x.p [e] (addPend_spx e) (begun_frags x x.p) (sameArch_start x)
    (congrArg (· ++ [e]) (begun_pend x x.p))
  rw [floatAll_eq, float_of_enabled henabled hu, if_pos hl]
  exact ⟨_, _, e, rfl, rfl, ⟨rfl, rfl⟩, after_fresh hgo⟩

/-- A short form with an enabled condition traps at its issue (R147, R168). -/
theorem floatAll_traps (hl : x.sp.long = false) (hu : x.w.uni = false) {f : (Nat → Word) → Nat → Nat × Flg}
    (henabled : ∃ t ∈ x.threads, (f x.random.1 t).2 &&& modeEn x.p.mode ≠ 0) :
    x.floatAll n f = x.trap { cause := 0x0A, fpc := (allFlags x.threads (f x.random.1)).toNat, tmask := maskOf (raising x (f x.random.1)) } := by
  rw [floatAll_eq, float_of_enabled henabled hu, if_neg (by simp [hl])]

/-- A form that takes no rounding mode draws no random bits (R62, R142). -/
theorem random_gen_of_zero (hz : x.sp.rnd = .zero) : x.random.2 = x.p.gen := by
  unfold Iss.random
  rw [hz]
  simp only [ne_eq, not_true_eq_false, false_and, and_false, if_false]
  split <;> rfl

end

end Sys2Proof.Machine

open Sys2Proof Sys2Proof.Machine

/-- Settles O24: the arithmetic and packed forms differ only in their exact value, the others in their thread's result. -/
theorem floatForms : Obligations.FloatForms := by
  unfold Obligations.FloatForms
  refine ⟨⟨fun e he w s x h => ?_, fun e he w s x h => ?_⟩, fun e he w s x h => ?_, fun w s x h => ?_, fun w s x h => ?_⟩
  · have hexec : exec (e.1 w) s = floatForm (e.1 w) w s e.2 := by
      fin_cases he
      all_goals rfl
    exact exec_floatAll_done h hexec
  · have hexec : exec (e.1 w) s = packedForm (e.1 w) w s e.2 := by
      fin_cases he
      all_goals rfl
    exact exec_floatAll_done h hexec
  · obtain ⟨hexec, sp, hspec, hrnd⟩ : exec (e.1 w) s = minMaxForm (e.1 w) w e.2 s ∧ ∃ sp, (∀ n, jspec n (e.1 w) = some (w, sp)) ∧ sp.rnd = .zero := by
      fin_cases he
      all_goals exact ⟨rfl, _, fun _ => rfl, rfl⟩
    obtain rfl := (word_of_issues h hspec).2
    rw [← random_gen_of_zero hrnd]
    exact exec_floatAll_done h hexec
  · intro fl hq
    rw [show exec (.fcmp w) s = _ from issue_of_issues h _, float_quiet (f := fun t => (0, fl t)) hq, writePred_map]
    exact commit_endsWith (prologue_facts h) x.nextPc (mild_comp (mild_psetAll ..) (mild_raise (mild_gen fun _ => x.p.gen) _))
      (psetAll_raiseFlags ..)
  · rw [show exec (.fclass w) s = _ from issue_of_issues h _]
    exact compute_done (prologue_facts h) 1 _ id 0 mild_id

/-- Settles O26: each conversion is a form with one result and its conditions per thread. -/
theorem conversions : Obligations.Conversions := by
  unfold Obligations.Conversions
  refine ⟨fun w s x h => ?_, fun w s x h => ?_, fun w s x h => ?_, fun w s x h => ?_, fun w s x h => ?_, fun w s x h => ?_⟩
  all_goals exact exec_floatAll_done h rfl

end

section
/-! Lemmas for MODE and for conditions that are enabled (R58, R147, R149, R150, R163, R164, R168, R176): the writes of MODE and of the
generators, and what a long-latency form's turn of completion comes to. -/

namespace Sys2Proof.Machine

open Sys2Proof

/-! ## Writes of MODE and of the generators -/

theorem mild_mode (m : Word) : Mild fun p => { p with mode := m } where
  spx _ := rfl
  frags _ := rfl
  pend _ := rfl
  same p q h := by
    unfold sameArch at h ⊢
    rw [← h]

/-- A write of MODE takes place, or traps where MODE may not hold the value (R149, R164). -/
theorem writeMode_spec {i : Instr} {k : IssCls} {s : State} {x : Iss} (h : Issues i k s x) (htp : x.tp ≠ 0) (m : Word) :
    if modeOk (m &&& 0x7FFFF) then EndsWith x x.nextPc (fun q => q = { x.p with mode := m &&& 0x7FFFF }) (x.writeMode m)
    else x.writeMode m = x.trapT 0x02 3 := by
  unfold Iss.writeMode
  rw [if_neg htp]
  split
  · exact commit_endsWith (prologue_facts h) x.nextPc (mild_mode _) rfl
  · rfl

/-- The generators with the threads' values stored, 1 for a zero (R150, R164). -/
def storeGens (ths : List Nat) (v : Nat → Word) (m : SMap 32) : SMap 32 := ths.foldl (fun m t => mset m t (if v t = 0 then 1 else v t)) m

theorem mget_storeGens (ths : List Nat) (v : Nat → Word) (m : SMap 32) (t : Nat) :
    mget (storeGens ths v m) t = if t ∈ ths then (if v t = 0 then 1 else v t) else mget m t :=
  mget_foldl_mset (fun t => if v t = 0 then 1 else v t) ths m t

/-! ## Completion -/

/-- What settles keeps every entry as it is but for paths that it no longer counts on (R204). -/
theorem settlePend_prunes (b : List Nat) (l : List Pend) :
    ∀ z ∈ (settlePend b l).1, ∃ y ∈ l, z = { y with paths := z.paths } ∧ z.paths ⊆ y.paths := by
  induction l generalizing b with
  | nil => exact fun z hz => nomatch hz
  | cons x l ih =>
    intro z hz
    have hrest : ∀ b, z ∈ (settlePend b l).1 → ∃ y ∈ x :: l, z = { y with paths := z.paths } ∧ z.paths ⊆ y.paths := fun b hz => by
      obtain ⟨y, hy, h⟩ := ih b z hz
      exact ⟨y, List.mem_cons_of_mem _ hy, h⟩
    unfold settlePend at hz
    dsimp only at hz
    split at hz
    · exact hrest _ hz
    · rcases List.mem_cons.1 hz with rfl | hz
      · exact ⟨x, List.mem_cons_self, rfl, List.filter_subset_self _⟩
      · exact hrest _ hz

/-- A pending instruction, complete and done on all its paths. -/
def Pend.finished (x : Pend) : Pend := { x with complete := true, accs := [], paths := x.paths.map fun e => (e.1, true) }

theorem finishPend_eq (p : Spindle) (id : Nat) : ∃ c, finishPend p id =
    { p with pend := (settlePend [] (updWhere (fun x => x.id == id) Pend.finished p.pend)).1, ctr := c } :=
  foldl_lowerCtr _ _

theorem finishPend_spx (p : Spindle) (id : Nat) : (finishPend p id).spx = p.spx := by
  obtain ⟨c, hfin⟩ := finishPend_eq p id
  rw [hfin]

/-- A finished instruction is done, where it has not gone. -/
theorem finishPend_done (p : Spindle) (id : Nat) : Done (finishPend p id) id := by
  obtain ⟨c, hfin⟩ := finishPend_eq p id
  rw [hfin]
  intro z hz hid
  obtain ⟨y, hy, hzy, hpaths⟩ := settlePend_prunes _ _ z hz
  obtain ⟨x, -, rfl⟩ := List.mem_map.1 hy
  by_cases hx : x.id == id
  · rw [if_pos hx] at hzy hpaths
    rw [hzy]
    refine ⟨rfl, rfl, fun e he => ?_⟩
    obtain ⟨-, -, rfl⟩ := List.mem_map.1 (hpaths he)
    rfl
  · rw [if_neg hx] at hzy
    rw [hzy] at hid
    exact absurd (beq_iff_eq.2 hid) hx

section
variable {s : State} {r : SpRef} {id : Nat} {t : Team} {p : Spindle} {y : Pend}

theorem step_complete (hturn : s.turns.head? = some (.complete r id)) : step s = .next (completeForm (takeTurn s) r id) := by
  have hnext : nextTurn s = .complete r id := by
    unfold nextTurn
    rw [List.headD_eq_head?_getD, hturn]
    rfl
  unfold step
  rw [hnext]
  rfl

/-- A long-latency computing form completes: its conditions enter MODE.FLG (R147, R176). -/
theorem completeForm_compute (ht : findTeam s r.team = some t) (hp : findSp s r = some p) (hy : (p.pend.find? fun z => z.id == id) = some y)
    {fl : Flg} (hkind : y.kind = .compute fl) (hopen : y.complete = false) (hacq : y.acq = none) (hwait : entriesWait s id = false) :
    completeForm s r id = updSp s r fun p => finishPend (raiseFlags fl p) id := by
  unfold completeForm
  simp only [ht, hp, hy, hkind, hopen, hacq, hwait, Bool.or_self, Bool.false_eq_true, if_false]

/-- A long-latency form with an enabled condition traps, its popped groups back in their ports (R58, R147). -/
theorem completeForm_fpTrap (ht : findTeam s r.team = some t) (hp : findSp s r = some p) (hy : (p.pend.find? fun z => z.id == id) = some y)
    {tm : BitVec 8} {fpc : Flg} {pops : List (Nat × List Word)} (hkind : y.kind = .fpTrap tm fpc pops) :
    completeForm s r id =
      pendTrap (updTeam s r.team (unpop p.spx pops)) r t p y { cause := 0x0A, tmask := tm, fpc := fpc.toNat } := by
  unfold completeForm
  simp only [ht, hp, hy, hkind]

end

end Sys2Proof.Machine

open Sys2Proof Sys2Proof.Machine

/-- Settles O27: MODE and the generators are written by the issue alone; an enabled condition is a trap of the issue or a pending one. -/
theorem modeAndConditionTraps : Obligations.ModeAndConditionTraps := by
  unfold Obligations.ModeAndConditionTraps
  refine ⟨⟨fun w s x h => ?_, fun w s x h => ?_, fun w s x h htp => ?_, fun w s x h htp => ?_, fun w s x h => ?_⟩,
    fun w s x h => ?_, fun w s x h => ?_, fun s r id t p y fl ht hp hy hkind hopen hacq hwait hturn => ?_,
    fun s r id t p y tm fpc pops ht hp hy hkind hturn => ?_⟩
  · rw [show exec (.getmode w) s = _ from issue_of_issues h _]
    exact compute_done (prologue_facts h) 1 _ id 0 mild_id
  · rw [show exec (.getmodeGen w) s = _ from issue_of_issues h _]
    exact compute_done (prologue_facts h) 1 _ id 0 mild_id
  · rw [show exec (.setmode w) s = _ from issue_of_issues h _]
    exact writeMode_spec h htp _
  · rw [show exec (.setmodeImm w) s = _ from issue_of_issues h _]
    exact writeMode_spec h htp w.mod
  · rw [show exec (.setmodeGen w) s = _ from issue_of_issues h _]
    exact commit_endsWith (prologue_facts h) x.nextPc (mild_gen (storeGens x.threads (x.src1 w.a)))
      ⟨rfl, fun t _ => mget_storeGens x.threads (x.src1 w.a) x.p.gen t⟩
  · intro f henabled hu
    rw [show exec (.fadd w) s = _ from issue_of_issues h _]
    have hlong : x.sp.long = false := by rw [(word_of_issues h fun _ => rfl).2]; rfl
    exact floatAll_traps hlong hu henabled
  · intro f henabled hu
    rw [show exec (.rcp w) s = _ from issue_of_issues h _]
    have hlong : x.sp.long = true := by rw [(word_of_issues h fun _ => rfl).2]; rfl
    exact floatAll_waits h hlong hu henabled
  · have hspx : ∀ q : Spindle, (finishPend (raiseFlags fl q) id).spx = q.spx := fun q => finishPend_spx (raiseFlags fl q) id
    obtain ⟨c, hfin⟩ := finishPend_eq (raiseFlags fl p) id
    refine ⟨_, _, (step_complete hturn).trans (congrArg _ (completeForm_compute (s := takeTurn s) ht hp hy hkind hopen hacq hwait)),
      keepsOthers_updSp (keepsOthers_refl _ _) hspx, findSp_updSp_self hspx hp, finishPend_done _ _, ?_⟩
    rw [hfin]
    exact ⟨rfl, rfl, rfl, rfl, rfl, rfl⟩
  · exact (step_complete hturn).trans (congrArg _ (completeForm_fpTrap (s := takeTurn s) ht hp hy hkind))

end

section
/-! Lemmas for the special functions and the reductions (R176 to R180): what a special function delivers to a thread, and what a reduction's
one result comes to. -/

namespace Sys2Proof.Machine

open Sys2Proof

/-! ## Special functions -/

/-- What a special function makes of an operand's value and bits, before the output flush (R178, log 20). -/
def sfuOut (op : Nat) (v : FV) (bits : Word) : FOut :=
  match sfuExact op v with
  | some (y, fl) => ⟨exactF32 y, fl⟩
  | none => ⟨(match v with
      | .fin neg m e => sfuBits op neg m e bits
      | _ => 0), fNX ||| flagIf (sfuTiny op v) fUF⟩

/-- A result and its conditions after the output flush of MODE (R145). -/
def flushOut (ftzo : Bool) (r : FOut) : Nat × Flg :=
  if ftzo && Fmt.f32.subnormal r.bits then (Fmt.f32.signed (r.bits.testBit 31) 0, r.fl ||| fUF ||| fNX) else (r.bits, r.fl)

/-- What a special function delivers to a thread, with its conditions. -/
def sfuResult (x : Iss) (op : Nat) (fld : BitVec 10) (t : Nat) : Nat × Flg :=
  flushOut (modeFtzo x.p.mode) (sfuOut op (x.f32 fld t)
    (BitVec.ofNat 32 (if (x.f32 fld t).isZero then Fmt.f32.signed (x.f32 fld t).neg 0 else (x.src1 fld t).toNat)))

theorem sfuForm_eq (i : Instr) (w : JWord) (op : Nat) (s : State) :
    sfuForm i w op s = issue i {} s fun x => x.floatAll 1 fun _ => sfuResult x op w.a := rfl

theorem sfuOut_of_exact {op : Nat} {v y : FV} {fl : Flg} (h : sfuExact op v = some (y, fl)) (bits : Word) :
    sfuOut op v bits = ⟨exactF32 y, fl⟩ := by
  unfold sfuOut
  rw [h]

theorem sfuOut_of_approx {op : Nat} {neg : Bool} {m : Nat} {e : Int} (h : sfuExact op (.fin neg m e) = none) (bits : Word) :
    sfuOut op (.fin neg m e) bits = ⟨sfuBits op neg m e bits, fNX ||| flagIf (sfuTiny op (.fin neg m e)) fUF⟩ := by
  unfold sfuOut
  rw [h]

/-- A zero operand has an exact entry in Table 6-6, whichever the function. -/
theorem sfuExact_zero (op : Nat) (neg : Bool) (e : Int) : (sfuExact op (.fin neg 0 e)).isSome = true := by
  simp only [sfuExact, if_true]
  split_ifs <;> rfl

theorem not_isZero_of_approx {op : Nat} {neg : Bool} {m : Nat} {e : Int} (h : sfuExact op (.fin neg m e) = none) :
    (FV.fin neg m e).isZero = false := by
  refine beq_eq_false_iff_ne.2 fun hm => ?_
  subst hm
  have hsome := sfuExact_zero op neg e
  rw [h] at hsome
  cases hsome

/-- The device's own bits are delivered where they keep the bound of Table 6-5, but +0 for -0 (R178, log 20). -/
theorem sfuBits_of_within {op : Nat} {neg : Bool} {m : Nat} {e : Int} {bits : Word}
    (h : withinUlp (sfuUlp op) (sfuReal op neg m e) (Config.sfuValue op bits).toNat = true) :
    sfuBits op neg m e bits = if (Config.sfuValue op bits).toNat = 2 ^ 31 then 0 else (Config.sfuValue op bits).toNat := by
  unfold sfuBits
  simp only [h, if_true]
  rfl

section
variable {x : Iss} {op : Nat} {fld : BitVec 10} {t : Nat}

/-- Without the output flush a thread receives what the function makes of its operand. -/
theorem sfuResult_exact (hftzo : modeFtzo x.p.mode = false) {v : FV} {fl : Flg} (h : sfuExact op (x.f32 fld t) = some (v, fl)) :
    sfuResult x op fld t = (exactF32 v, fl) := by
  unfold sfuResult flushOut
  rw [hftzo, sfuOut_of_exact h]
  rfl

/-- Where no entry is exact, the operand is no zero: the function is one of the operand's own bits. -/
theorem sfuResult_approx (hftzo : modeFtzo x.p.mode = false) {neg : Bool} {m : Nat} {e : Int}
    (h : sfuExact op (x.f32 fld t) = none) (hv : x.f32 fld t = .fin neg m e) :
    sfuResult x op fld t = (sfuBits op neg m e (x.src1 fld t), fNX ||| flagIf (sfuTiny op (x.f32 fld t)) fUF) := by
  rw [hv] at h
  unfold sfuResult flushOut
  rw [hftzo, hv, not_isZero_of_approx h, sfuOut_of_approx h, if_neg Bool.false_ne_true, BitVec.ofNat_toNat, BitVec.setWidth_eq]
  rfl

end

/-- Where MODE enables no condition, none that a thread raises is enabled (R147). -/
theorem quiet_of_nothing_enabled {x : Iss} {f : Nat → Nat × Flg} (hen : modeEn x.p.mode = 0) : Quiet x f := by
  intro t _
  rw [hen]
  exact BitVec.and_zero

/-! ## Reductions -/

/-- A form with one result, and one set of conditions of which none is enabled, ends as it does (R147, R179). -/
theorem float_single_quiet {x : Iss} {fl : Flg} (hq : fl &&& modeEn x.p.mode = 0) (n : Nat) (gen : SMap 32) (all : Bool)
    (ok : (Spindle → Spindle) → Flg → Out) : x.float [(n, fl)] gen all ok = ok (fun p => { p with gen := gen }) fl := by
  unfold Iss.float
  simp [hq]

/-- What a thread brings to FSUM: its source's bits, a zero where FTZI makes it one, and IV where they signal; nothing if it takes no part (R179). -/
def sumLeaf (x : Iss) (fld : BitVec 10) (t : Nat) : Option FOut :=
  if x.tp.getLsbD t then
    some ⟨if (x.f32 fld t).isZero then Fmt.f32.signed ((x.src1 fld t).toNat.testBit 31) 0 else (x.src1 fld t).toNat,
      flagIf (x.f32 fld t).isSig fIV⟩
  else none

/-- FSUM's fixed tree over the eight threads, its combinations numbered in their order (R179). -/
def sumTree (c : Rnd) (word : Word) (leaf : Nat → Option FOut) : Option FOut :=
  let comb := sumComb c word
  comb 6 (comb 4 (comb 0 (leaf 0) (leaf 1)) (comb 1 (leaf 2) (leaf 3))) (comb 5 (comb 2 (leaf 4) (leaf 5)) (comb 3 (leaf 6) (leaf 7)))

/-- The sum of an FSUM's taking-part threads; all additions draw from the word of the lowest of them (R179). -/
def Iss.sum (x : Iss) (fld : BitVec 10) : Option FOut := sumTree x.rnd (x.random.1 ((threadsOf x.tp).headD 0)) (sumLeaf x fld)

/-- Every thread that takes part receives FSUM's one result, a NaN in canonical form (R136, R179, log 34). -/
def Iss.deliverSum (x : Iss) (r : FOut) : Out :=
  x.float [(0, r.fl)] x.random.2 true fun eff fpc => x.compute 1
    (x.threads.map fun t => (t, BitVec.ofNat 128 (if (Fmt.f32.read r.bits).isNan then Fmt.f32.nanBits else r.bits))) eff fpc

theorem execFsum_of_sum {w : JWord} {s : State} {x : Iss} (h : Issues (.fsum w) {} s x) {r : FOut} (hsum : x.sum w.a = some r) :
    execFsum w s = x.deliverSum r := by
  refine (issue_of_issues h _).trans ?_
  dsimp only
  split
  next hnone => exact nomatch hsum.symm.trans hnone
  next r' hsum' =>
    obtain rfl := Option.some.inj (hsum.symm.trans hsum')
    rfl

/-- An FSUM some thread of which takes part, and none of whose conditions is enabled, comes to its end. -/
theorem execFsum_done {w : JWord} {s : State} {x : Iss} (h : Issues (.fsum w) {} s x) {r : FOut} (hsum : x.sum w.a = some r)
    (hq : r.fl &&& modeEn x.p.mode = 0) :
    LaneDone x 1 (fun _ => BitVec.ofNat 128 (if (Fmt.f32.read r.bits).isNan then Fmt.f32.nanBits else r.bits))
      (fun p => { p with gen := x.random.2 }) (execFsum w s) r.fl := by
  rw [execFsum_of_sum h hsum, Iss.deliverSum, float_single_quiet hq]
  exact compute_done (prologue_facts h) 1 _ _ _ (mild_gen fun _ => x.random.2)

end Sys2Proof.Machine

open Sys2Proof Sys2Proof.Machine

/-- Settles O25: RCP and SQRT round their exact value, the others deliver an exact entry or the device's bits; a reduction has one result. -/
theorem specialFunctionsAndReductions : Obligations.SpecialFunctionsAndReductions := by
  unfold Obligations.SpecialFunctionsAndReductions
  refine ⟨⟨fun e he w s x h => ?_, fun e he w s x h hen => ?_⟩, fun w s x h _ => ?_, fun w s x a rest h hths => ?_⟩
  · have hexec : exec (e.1 w) s = floatForm (e.1 w) w s fun _ a _ _ => e.2 a := by
      fin_cases he
      all_goals rfl
    exact exec_floatAll_done h hexec
  · obtain ⟨hexec, sp, hspec, hrnd⟩ : exec (e.1 w) s = sfuForm (e.1 w) w e.2 s ∧ ∃ sp, (∀ n, jspec n (e.1 w) = some (w, sp)) ∧ sp.rnd = .zero := by
      fin_cases he
      all_goals exact ⟨rfl, _, fun _ => rfl, rfl⟩
    obtain rfl := (word_of_issues h hspec).2
    refine ⟨sfuResult x e.2 w.a, ?_, fun t _ hftzo => ⟨fun v fl => sfuResult_exact hftzo, fun neg m n hnone hv => ?_⟩⟩
    · rw [← random_gen_of_zero hrnd]
      exact exec_floatAll_done (f := fun x _ => sfuResult x e.2 w.a) h (hexec.trans (sfuForm_eq ..)) (quiet_of_nothing_enabled hen)
    · rw [sfuResult_approx hftzo hnone hv]
      exact ⟨rfl, sfuBits_of_within⟩
  · intro word leaf c r hsum hq
    exact execFsum_done h hsum hq
  · intro m f hq
    have hm : (x.threads.map fun t => (x.src1 w.a t).toNat) = m a :: rest.map m := by
      rw [hths]
      rfl
    rw [show exec (.fmaxr w) s = _ from issue_of_issues h _, hm]
    dsimp only
    rw [List.foldl_map, float_quiet (f := f) hq]
    exact compute_done (prologue_facts h) 1 _ _ _ (mild_gen fun _ => x.p.gen)

end
